-- ==== Sys2Proof/Word.lean ====
section
/-! DEFINITION. The word types of the machine and the finite maps that State is built from. -/

namespace Sys2Proof

/-- A 64-bit register or doubleword (00 R2). -/
abbrev Word := BitVec 64
/-- A byte of any memory (00 R2). -/
abbrev Byte := BitVec 8
/-- A 7-bit operand code (02 R22). -/
abbrev Code := BitVec 7

/-- A finite map as plain data: pairs of a key and a value, keys rising. Keys not listed have no value. -/
abbrev FMap (α : Type) := List (Nat × α)

namespace FMap

/-- The value at a key, if the key is listed. -/
def get? {α : Type} : FMap α → Nat → Option α
  | [], _ => none
  | (k, v) :: m, i => if i = k then some v else get? m i

/-- The value at a key, or `d` where the key is not listed. -/
def get {α : Type} (d : α) (m : FMap α) (i : Nat) : α := (get? m i).getD d

/-- The map with a value put at a key; the keys stay rising. -/
def set {α : Type} : FMap α → Nat → α → FMap α
  | [], i, x => [(i, x)]
  | (k, v) :: m, i, x =>
    if i = k then (k, x) :: m
    else if i < k then (i, x) :: (k, v) :: m
    else (k, v) :: set m i x

/-- The map with a key taken out. -/
def erase {α : Type} (m : FMap α) (i : Nat) : FMap α := m.filter fun p => p.1 != i

/-- The keys, in rising order. -/
def keys {α : Type} (m : FMap α) : List Nat := m.map Prod.fst

end FMap

/-- A set of naturals as plain data: members rising, no repeats. -/
abbrev NSet := List Nat

namespace NSet

def insert : NSet → Nat → NSet
  | [], x => [x]
  | y :: m, x => if x = y then y :: m else if x < y then x :: y :: m else y :: insert m x

def erase (m : NSet) (x : Nat) : NSet := m.filter fun y => y != x

def put (m : NSet) (x : Nat) (on : Bool) : NSet := if on then insert m x else erase m x

end NSet

/-- Bits hi down to lo of a value as a natural (00 R6: `x<hi:lo>`). -/
def bits {w : Nat} (x : BitVec w) (hi lo : Nat) : Nat := x.toNat / 2 ^ lo % 2 ^ (hi + 1 - lo)

/-- One bit of a value. -/
def bit {w : Nat} (x : BitVec w) (i : Nat) : Bool := x.getLsbD i

/-- A Bool as 0 or 1. -/
def b2n (b : Bool) : Nat := if b then 1 else 0

/-- A Bool as a word. -/
def b2w (b : Bool) : Word := if b then 1 else 0

end Sys2Proof
end

