-- ==== Sys2Proof/Syntax.lean ====
section
/-! DEFINITION. The instructions and events of spec/opcode_table.json, and the packets that events carry. -/

namespace Sys2Proof

/-- A direction of the mesh (R13). -/
inductive Dir where
  | n | e | s | w
deriving DecidableEq, Repr

def Dir.idx : Dir → Nat
  | .n => 0 | .e => 1 | .s => 2 | .w => 3

def Dir.ofIdx (i : Nat) : Dir :=
  match i % 4 with
  | 0 => .n | 1 => .e | 2 => .s | _ => .w

def Dir.opp : Dir → Dir
  | .n => .s | .s => .n | .e => .w | .w => .e

/-- What a target core receives for one thread of a dispatched task (R38, R51, R52, R355). -/
structure SeedPacket where
  /-- slot bound by the launch, if one is -/
  slot : Option Nat
  /-- key of the seed image (State.pkg.seeds) -/
  image : Nat
  sid : Nat
  wid : Word
  tcb : Word
  tcbKey : Nat
  ctx : Nat
  cid : Nat
  /-- data, tags and text frames are carried: the first packet of the task on this core (R355) -/
  carries : Bool
  /-- copy number of a twinned thread (R372) -/
  twin : Option Nat
deriving DecidableEq, Repr

/-- The packet of SPAWN (R233), with the physical core it came from. -/
structure SpawnPacket where
  fromCore : Nat
  fromSlot : Nat
  src : Nat
  level : Nat
  ctx : Nat
  pc : BitVec 16
  tcb : Word
  tcbKey : Nat
  sid : Nat
  cid : Nat
  args : List Word
deriving DecidableEq, Repr

/-- A transfer completion on its way to its thread (R143, R332): identifier, status, handler offset, and what its event record would name: kind of
command, parameter block, issuing logical core, slot and context. -/
structure Completion where
  xid : Nat
  status : Nat
  handler : BitVec 16
  kind : Nat := 0
  pb : Word := 0
  cid : Nat := 0
  slot : Nat := 0
  ctx : Nat := 0
deriving DecidableEq, Repr

/-- What a graft packet's bytes do not hold: origin, key of the task control block, seed identifier, and the model's number of the thread with the
completions pending for it. -/
structure GraftNote where
  fromCore : Nat
  fromSlot : Nat
  tcbKey : Nat
  sid : Nat
  uid : Nat := 0
  xc : List Completion := []
deriving DecidableEq, Repr

/-- The graft packet (R57), with the physical core and slot it came from. The seed identifier stands in the TCB the packet
names (R376). -/
structure GraftPacket where
  fromCore : Nat
  fromSlot : Nat
  ecause : Word
  level : Nat
  inh : Bool
  fflags : BitVec 5
  rm : BitVec 2
  ctx : Nat
  pc : BitVec 16
  epc : BitVec 16
  uih : BitVec 16
  pw : BitVec 32
  regs : List Word
  tcb : Word
  tcbKey : Nat
  sid : Nat
  wlim : Word
  evalue : Word
  xfid : Word
  cid : Nat
  /-- the model's number of the thread, and the completions pending for it (R143) -/
  uid : Nat := 0
  xc : List Completion := []
deriving DecidableEq, Repr

/-- A trap-queue record (R326), with the held thread that resends it (none for a seal or a departed owner). -/
structure TrapRecord where
  sender : Option (Nat × Nat)
  w0 : Word
  w1 : Word
  w2 : Word
  w3 : Word
deriving DecidableEq, Repr

/-- An event-queue record (R143, R353), with the context that caused it (R363). -/
structure EventRecord where
  w0 : Word
  w1 : Word
  ctx : Nat := 0
deriving DecidableEq, Repr

/-- A time-stamped message (R102, R241): payload doublewords with their poison bits. -/
structure Message where
  fromCore : Nat
  toCore : Nat
  src : Nat
  chan : Nat
  stamp : Word
  data : List (Word × Bool)
  /-- a target in another package: package and logical core -/
  away : Option (Nat × Nat) := none
  /-- the sender's context, and the model's number of the message -/
  ctx : Nat := 0
  num : Nat := 0
deriving DecidableEq, Repr

/-- A unit on its way to the crossing counter of a cell's slot (0 dx, 1 to 3 dy) (R154). -/
structure Crossing where
  source : Nat
  dom : Nat
  unit : Int
deriving DecidableEq, Repr

/-- Function codes of atomics (R218) and RED (R221). -/
inductive AmoFn where
  | swap | add | and | or | xor | min | max | minu | maxu | cas | incw | faddb
deriving DecidableEq, Repr

/-- What an access does at its home (R213 to R218, R224, R227): among them the withdrawal of an operation that waits there, by its number in the data
(R217), and a monitor registered or withdrawn (R224). -/
inductive AccessKind where
  | load | store | amo (fn : AmoFn) | ldf | stf | ldff | purge | bari | barv | barw | withdraw | monitor | unmonitor
deriving DecidableEq, Repr

/-- An access that has come from another package to its home here (R97): physical key, size, data and second operand. -/
structure AccessRequest where
  origin : Nat
  id : Nat
  kind : AccessKind
  key : Nat
  size : Nat
  data : Word
  bound : Word
  /-- context and slot of a thread that arms a barrier (R229) -/
  ctx : Nat := 0
  slot : Nat := 0
deriving DecidableEq, Repr

/-- A cutting (R221) on its way to the home of `key`, with the scheme and metadata of a compressed block (R344); `poison` marks
the twin mismatch of R374. -/
structure Cutting where
  fromCore : Nat
  fromSlot : Nat
  id : Nat
  key : Nat
  cmp : Option (Nat × Nat × Nat) := none
  fn : AmoFn
  data : Word
  poison : Bool
deriving DecidableEq, Repr

/-- What the link brings (R379). The target cores of a graft, a spawn and a message are numbers of the receiving package's identity table (R12). A
response in error gives the cause in its value. -/
inductive FlitPayload where
  | request (q : AccessRequest)
  | response (k t id : Nat) (value : Word) (poison : Bool)
  /-- the first 64 bytes of a graft packet (R57) -/
  | graftHead (bytes : List Byte)
  /-- the other 64 bytes, with what the packet's receiver finds by the task control block that they name (R376) and the model's own numbers -/
  | graft (k : Nat) (bytes : List Byte) (note : GraftNote)
  | spawn (k : Nat) (p : SpawnPacket)
  | message (m : Message)
  | cutting (c : Cutting)
  /-- a monitor registered by a request has latched, or a barrier that it armed is broken (R60, R229) -/
  | notice (id : Nat)
  /-- a transfer completion on its way to a thread that has grafted here (R143) -/
  | completion (uid : Nat) (c : Completion)
  /-- a thread of a task of the receiving package has been created elsewhere, or has ended there (R54) -/
  | taskJoined (key : Nat)
  | taskLeft (key : Nat)
  /-- a message of the receiving package's has been placed, or dropped (R240) -/
  | placed (num : Nat)
  /-- the other end asks for every flit from a sequence number on again (R378) -/
  | retry (seq : Nat)
deriving DecidableEq, Repr

/-- A flit as the receiver sees it: sequence number and whether its CRC checks (R378). -/
structure Flit where
  seq : Nat
  crcOk : Bool
  payload : FlitPayload
deriving DecidableEq, Repr

/-- What an ECC check of a word finds (R91, R366). -/
inductive EccFound where
  | clean | single | double
deriving DecidableEq, Repr

/-- A launch record (R356) with the writer's context, and what gives its partition: its number where a virtual function wrote it (R361), and otherwise the
partition of the port core. -/
structure LaunchRecord where
  die : Nat
  ctx : Nat
  vf : Option Nat := none
  part : Option Nat
  word : Word
deriving DecidableEq, Repr

/-- A save or restore command (R331): target core and slot, the number of the thread there, whether it is on its way by a graft, the
issuer's context, level and core, and the record's linear address. -/
structure CxCommand where
  core : Nat
  slot : Nat
  uid : Nat
  grafting : Bool
  ctx : Nat
  level : Nat
  issuer : Nat
  addr : Nat
deriving DecidableEq, Repr

/-- A shoot-down request (R348) and the thread that waits for its acknowledgements. -/
structure Shoot where
  ctx : Nat
  addr : Nat
  sc : Nat
  cnt : Nat
  rs : Bool
  fromCore : Nat
  fromSlot : Nat
deriving DecidableEq, Repr

/-- A register without behaviour of its own: a control register of a thread (R320) or a device register (R358). -/
inductive DevReg where
  | control (k t num : Nat)
  | device (addr : Nat)
deriving DecidableEq, Repr

/-- The images that a boot may find: on the storage port, and over the management port (R387). -/
structure BootImage where
  storage : Option (List Byte)
  management : Option (List Byte)
deriving DecidableEq, Repr

/-- An SPDM request (R389): chosen signature and hash algorithm (0 names ML-DSA-87 and SHA3-512), measurement index, nonce. -/
structure SpdmRequest where
  sigAlg : Nat
  hashAlg : Nat
  index : Nat
  nonce : List Byte
deriving DecidableEq, Repr

/-- The text of one code frame that a supervisor pages in (R16, R54). -/
structure FrameText where
  frame : Nat
  sid : Nat
  words : List (BitVec 32)
deriving DecidableEq, Repr


/-- One constructor per row of spec/opcode_table.json: 198 instruction words, whose field letters are those of R179 with
x = ta and y = tb (R181), and 95 events of the package, each with what identifies its occurrence. Words without fields stand last;
before them the events that no definition plans. -/
inductive Instr where
  /-- R192 -/
  | add (d a b : Code) (x y : Bool)
  /-- R192 -/
  | sub (d a b : Code) (x y : Bool)
  /-- R192 -/
  | addc (d a b : Code) (x y : Bool)
  /-- R192 -/
  | subb (d a b : Code) (x y : Bool)
  /-- R192 -/
  | and (d a b : Code) (x y : Bool)
  /-- R192 -/
  | or (d a b : Code) (x y : Bool)
  /-- R192 -/
  | xor (d a b : Code) (x y : Bool)
  /-- R192 -/
  | andn (d a b : Code) (x y : Bool)
  /-- R193 -/
  | sll (d a b : Code) (x y : Bool)
  /-- R193 -/
  | srl (d a b : Code) (x y : Bool)
  /-- R193 -/
  | sra (d a b : Code) (x y : Bool)
  /-- R193 -/
  | rol (d a b : Code) (x y : Bool)
  /-- R193 -/
  | ror (d a b : Code) (x y : Bool)
  /-- R194 -/
  | mul (d a b : Code) (x y : Bool)
  /-- R194 -/
  | mulh (d a b : Code) (x y : Bool)
  /-- R194 -/
  | mulhu (d a b : Code) (x y : Bool)
  /-- R194 -/
  | mulhsu (d a b : Code) (x y : Bool)
  /-- R194 -/
  | div (d a b : Code) (x y : Bool)
  /-- R194 -/
  | divu (d a b : Code) (x y : Bool)
  /-- R194 -/
  | rem (d a b : Code) (x y : Bool)
  /-- R194 -/
  | remu (d a b : Code) (x y : Bool)
  /-- R195 -/
  | min (d a b : Code) (x y : Bool)
  /-- R195 -/
  | max (d a b : Code) (x y : Bool)
  /-- R195 -/
  | minu (d a b : Code) (x y : Bool)
  /-- R195 -/
  | maxu (d a b : Code) (x y : Bool)
  /-- R195 -/
  | clz (d a : Code) (x : Bool)
  /-- R195 -/
  | ctz (d a : Code) (x : Bool)
  /-- R195 -/
  | popc (d a : Code) (x : Bool)
  /-- R196 -/
  | exts (d a b : Code) (x y : Bool)
  /-- R196 -/
  | extz (d a b : Code) (x y : Bool)
  /-- R196 -/
  | bswap (d a : Code) (x : Bool)
  /-- R197 -/
  | cmov (d a b : Code) (x y : Bool)
  /-- R198 -/
  | pwset (d a b : Code) (x y : Bool)
  /-- R199 -/
  | addi (d a : Code) (i : BitVec 12)
  /-- R199 -/
  | andi (d a : Code) (i : BitVec 12)
  /-- R199 -/
  | ori (d a : Code) (i : BitVec 12)
  /-- R199 -/
  | xori (d a : Code) (i : BitVec 12)
  /-- R200 -/
  | slli (d a : Code) (n : BitVec 6)
  /-- R200 -/
  | srli (d a : Code) (n : BitVec 6)
  /-- R200 -/
  | srai (d a : Code) (n : BitVec 6)
  /-- R200 -/
  | rori (d a : Code) (n : BitVec 6)
  /-- R199 -/
  | muli (d a : Code) (i : BitVec 12)
  /-- R201 -/
  | ldi (d : Code) (i : BitVec 19)
  /-- R201 -/
  | ldih (d : Code) (i : BitVec 19)
  /-- R202 -/
  | sk (a b : Code) (c : BitVec 4) (k : BitVec 2) (p : BitVec 4) (x y : Bool)
  /-- R202 -/
  | ski (a : Code) (i : BitVec 12) (c : BitVec 4) (k : BitVec 2) (x : Bool)
  /-- R204 -/
  | br (i : BitVec 26)
  /-- R206 -/
  | call (i : BitVec 26)
  /-- R204 -/
  | brp (s : Bool) (n : BitVec 4) (i : BitVec 21)
  /-- R205 -/
  | jr (d a : Code) (x : Bool)
  /-- R230 -/
  | loop (q r : BitVec 3) (a : Code) (o : BitVec 12)
  /-- R232 -/
  | ldOrd (d b : Code) (i : BitVec 9) (s : BitVec 3)
  /-- R213 -/
  | ld (d b : Code) (i : BitVec 9) (s : BitVec 3)
  /-- R214 -/
  | st (d b : Code) (i : BitVec 9) (s : BitVec 2)
  /-- R215 -/
  | ldf (d b : Code) (i : BitVec 9)
  /-- R215 -/
  | stf (d b : Code) (i : BitVec 9)
  /-- R215 -/
  | ldff (d b : Code) (i : BitVec 9)
  /-- R215 -/
  | purge (b : Code) (i : BitVec 9)
  /-- R218 -/
  | amoSwap (d a b : Code) (x y : Bool)
  /-- R218 -/
  | amoAdd (d a b : Code) (x y : Bool)
  /-- R218 -/
  | amoAnd (d a b : Code) (x y : Bool)
  /-- R218 -/
  | amoOr (d a b : Code) (x y : Bool)
  /-- R218 -/
  | amoXor (d a b : Code) (x y : Bool)
  /-- R218 -/
  | amoMin (d a b : Code) (x y : Bool)
  /-- R218 -/
  | amoMax (d a b : Code) (x y : Bool)
  /-- R218 -/
  | amoMinu (d a b : Code) (x y : Bool)
  /-- R218 -/
  | amoMaxu (d a b : Code) (x y : Bool)
  /-- R218 -/
  | cas (d a b : Code) (x y : Bool)
  /-- R218 -/
  | incw (d a b : Code) (x y : Bool)
  /-- R218 -/
  | faddb (d a b : Code) (x y : Bool)
  /-- R221 -/
  | redAdd (a b : Code) (x y : Bool)
  /-- R221 -/
  | redAnd (a b : Code) (x y : Bool)
  /-- R221 -/
  | redOr (a b : Code) (x y : Bool)
  /-- R221 -/
  | redXor (a b : Code) (x y : Bool)
  /-- R221 -/
  | redMin (a b : Code) (x y : Bool)
  /-- R221 -/
  | redMax (a b : Code) (x y : Bool)
  /-- R221 -/
  | redMinu (a b : Code) (x y : Bool)
  /-- R221 -/
  | redMaxu (a b : Code) (x y : Bool)
  /-- R223 -/
  | fence (s : Code)
  /-- R224 -/
  | marm (a b : Code) (x y : Bool)
  /-- R224 -/
  | mdis (a : Code) (x : Bool)
  /-- R225 -/
  | mwait (d a : Code) (x : Bool)
  /-- R228 -/
  | bari (a b : Code) (x y : Bool)
  /-- R228 -/
  | barv (d a b : Code) (x y : Bool)
  /-- R228 -/
  | barw (d a b : Code) (x y : Bool)
  /-- R233 -/
  | spawn (a b : Code) (x y : Bool)
  /-- R235 -/
  | graft (a : Code) (x : Bool)
  /-- R238 -/
  | wfld (d a b : Code) (x y : Bool)
  /-- R241 -/
  | send (d a b : Code) (x y : Bool)
  /-- R242 -/
  | recv (d a b : Code) (x y : Bool)
  /-- R239 -/
  | vtadv (d a : Code) (x : Bool)
  /-- R240 -/
  | glbrd (d : Code)
  /-- R244 -/
  | lcfg (d a b : Code) (x y : Bool)
  /-- R245 -/
  | furrow (e : Code)
  /-- R249 -/
  | fadd (d a b : Code) (x y : Bool)
  /-- R249 -/
  | fsub (d a b : Code) (x y : Bool)
  /-- R249 -/
  | fmul (d a b : Code) (x y : Bool)
  /-- R249 -/
  | fdiv (d a b : Code) (x y : Bool)
  /-- R249 -/
  | fsqrt (d a : Code) (x : Bool)
  /-- R250 -/
  | fmin (d a b : Code) (x y : Bool)
  /-- R250 -/
  | fmax (d a b : Code) (x y : Bool)
  /-- R251 -/
  | fmadd (d a b : Code) (x y : Bool)
  /-- R251 -/
  | fmsub (d a b : Code) (x y : Bool)
  /-- R251 -/
  | fnmadd (d a b : Code) (x y : Bool)
  /-- R251 -/
  | fnmsub (d a b : Code) (x y : Bool)
  /-- R253 -/
  | fcvt (d a : Code) (s t : BitVec 3) (p : BitVec 2) (r : BitVec 3)
  /-- R254 -/
  | fsk (a b : Code) (c : BitVec 4) (k : BitVec 2) (p : BitVec 4) (x y : Bool)
  /-- R255 -/
  | fclass (d a : Code) (x : Bool)
  /-- R256 -/
  | ffrd (d : Code)
  /-- R256 -/
  | ffclr (d a : Code) (x : Bool)
  /-- R256 -/
  | frmset (d a : Code) (x : Bool)
  /-- R256 -/
  | frmrd (d : Code)
  /-- R258 -/
  | shape (d a b : Code) (x y : Bool)
  /-- R262 -/
  | tld (d : BitVec 3) (a : Code) (p : BitVec 2) (t : BitVec 3)
  /-- R263 -/
  | tst (d : BitVec 3) (a : Code) (p : BitVec 2) (t : BitVec 3)
  /-- R265 -/
  | tadd (d m n : BitVec 3) (u s : Bool) (t : BitVec 3)
  /-- R265 -/
  | tsub (d m n : BitVec 3) (u s : Bool) (t : BitVec 3)
  /-- R265 -/
  | tmul (d m n : BitVec 3) (u s : Bool) (t : BitVec 3)
  /-- R265 -/
  | tmin (d m n : BitVec 3) (u s : Bool) (t : BitVec 3)
  /-- R265 -/
  | tmax (d m n : BitVec 3) (u s : Bool) (t : BitVec 3)
  /-- R265 -/
  | tand (d m n t : BitVec 3)
  /-- R265 -/
  | tor (d m n t : BitVec 3)
  /-- R265 -/
  | txor (d m n t : BitVec 3)
  /-- R265 -/
  | tneg (d m : BitVec 3) (u s : Bool) (t : BitVec 3)
  /-- R265 -/
  | tabs (d m : BitVec 3) (u s : Bool) (t : BitVec 3)
  /-- R266 -/
  | tfma (d m n : BitVec 3) (u s : Bool) (t : BitVec 3)
  /-- R266 -/
  | tfms (d m n : BitVec 3) (u s : Bool) (t : BitVec 3)
  /-- R266 -/
  | tfnma (d m n : BitVec 3) (u s : Bool) (t : BitVec 3)
  /-- R266 -/
  | tfnms (d m n : BitVec 3) (u s : Bool) (t : BitVec 3)
  /-- R267 -/
  | tcvt (d m : BitVec 3) (a : Code) (y t : BitVec 3)
  /-- R268 -/
  | trsum (d m : BitVec 3) (c u s : Bool) (t : BitVec 3)
  /-- R268 -/
  | trmax (d m : BitVec 3) (c u s : Bool) (t : BitVec 3)
  /-- R268 -/
  | trmin (d m : BitVec 3) (c u s : Bool) (t : BitVec 3)
  /-- R269 -/
  | tbcs (d : BitVec 3) (a : Code) (t : BitVec 3)
  /-- R269 -/
  | tbrow (d m : BitVec 3) (a : Code) (t : BitVec 3)
  /-- R269 -/
  | tbcol (d m : BitVec 3) (a : Code) (t : BitVec 3)
  /-- R270 -/
  | ttrn (d m t : BitVec 3)
  /-- R270 -/
  | tshuf (d m n t : BitVec 3)
  /-- R270 -/
  | trot (d m : BitVec 3) (a : Code) (t : BitVec 3)
  /-- R271 -/
  | tmov (d m t : BitVec 3)
  /-- R271 -/
  | tsel (d m n t : BitVec 3)
  /-- R271 -/
  | tget (m : BitVec 3) (a : Code) (t : BitVec 3)
  /-- R271 -/
  | tset (d : BitVec 3) (a : Code) (t : BitVec 3)
  /-- R275 -/
  | mma (a b : Code) (x k : Bool)
  /-- R278 -/
  | azero (a : Code) (x : Bool)
  /-- R278 -/
  | awr (a : Code) (x : Bool)
  /-- R278 -/
  | ard (a : Code) (x : Bool)
  /-- R278 -/
  | achk (a : Code) (x f : Bool)
  /-- R280 -/
  | tilemm (d a : Code) (h : Bool)
  /-- R281 -/
  | bsum (a : Code) (x : Bool)
  /-- R282 -/
  | xred (a b : Code) (x y : Bool)
  /-- R283 -/
  | xrnd (d a : Code) (x : Bool)
  /-- R284 -/
  | xclr (d a : Code) (x : Bool)
  /-- R286 -/
  | cpy (d a : Code) (h : Bool)
  /-- R142 -/
  | publ (g : Code) (s : BitVec 3)
  /-- R288 -/
  | chain (a b : Code) (x y : Bool)
  /-- R290 -/
  | nbmv (d a : Code) (h : Bool)
  /-- R291 -/
  | estat (d a : Code) (x r : Bool)
  /-- R294 -/
  | patch (a b : Code) (x y : Bool)
  /-- R295 -/
  | rsave (a b : Code) (x y : Bool)
  /-- R296 -/
  | rload (a b : Code) (x y : Bool)
  /-- R297 -/
  | dcfg (d a b : Code) (x y : Bool)
  /-- R298 -/
  | dstart (a : Code) (x : Bool)
  /-- R299 -/
  | dhalt (a : Code) (x : Bool)
  /-- R300 -/
  | din (a b : Code) (x y : Bool)
  /-- R301 -/
  | dtap (d a b : Code) (x y : Bool)
  /-- R302 -/
  | dport (d a b : Code) (x y : Bool)
  /-- R304 -/
  | pack6 (d a b : Code) (x y : Bool)
  /-- R305 -/
  | unpk6 (d a b : Code) (x y : Bool)
  /-- R304 -/
  | pack4 (d a b : Code) (x y : Bool)
  /-- R305 -/
  | unpk4 (d a b : Code) (x y : Bool)
  /-- R306 -/
  | lgenc (d a b : Code) (x y : Bool)
  /-- R307 -/
  | lgdec (d a b : Code) (x y : Bool)
  /-- R328 -/
  | crrd (d : Code) (r : BitVec 10)
  /-- R328 -/
  | crwr (a : Code) (r : BitVec 10)
  /-- R328 -/
  | crset (d a : Code) (r : BitVec 10)
  /-- R328 -/
  | crclr (d a : Code) (r : BitVec 10)
  /-- R329 -/
  | trap (a : Code) (x : Bool)
  /-- R329 -/
  | scall (a : Code) (x : Bool)
  /-- R329 -/
  | hcall (a : Code) (x : Bool)
  /-- R335 -/
  | segld (a b : Code) (x y : Bool)
  /-- R336 -/
  | segrd (d a : Code) (x : Bool)
  /-- R348 -/
  | shoot (a b : Code) (x y : Bool)
  /-- R391 -/
  | bist (d a : Code) (x : Bool)
  /-- R385 -/
  | ecrd (d a : Code) (x : Bool)
  /-- R386 -/
  | eccfg (d a b : Code) (x y : Bool)
  /-- R185 -/
  | imm (p : BitVec 22)
  /-- R162 -/
  | rlx (s : BitVec 3) (m : BitVec 2)
  /-- R210 -/
  | sched (p : BitVec 22)
  /-- R42 -/
  | producerResultArrival (k t id : Nat)
  /-- R44 -/
  | waitLimit (k t token : Nat)
  /-- R38 -/
  | seedPacketArrival (k : Nat) (p : SeedPacket)
  /-- R55 -/
  | spawnPacketArrival (k : Nat) (p : SpawnPacket)
  /-- R55 -/
  | spawnReply (k t : Nat) (accepted : Bool)
  /-- R58 -/
  | graftArrival (k : Nat) (p : GraftPacket)
  /-- R58 -/
  | graftQueuePlace (k : Nat)
  /-- R58 -/
  | graftAccepted (k t : Nat) (dst : Nat)
  /-- R58 -/
  | graftResend (k t : Nat)
  /-- R61 -/
  | mwaitWake (k t : Nat)
  /-- R61 -/
  | mwaitTimeout (k t token : Nat)
  /-- R76 -/
  | linkWordArrival (k : Nat) (dir : Dir) (w : Word)
  /-- R76 -/
  | linkCreditReturn (k : Nat) (dir : Dir)
  /-- R79 -/
  | furrowStart (k : Nat)
  /-- R80 -/
  | furrowStep (k : Nat)
  /-- R326 -/
  | trapQueueRecord (k : Nat) (r : TrapRecord)
  /-- R103 -/
  | inboxPlace (k : Nat) (m : Message)
  /-- R103 -/
  | messageResend (m : Message)
  /-- R241 -/
  | sendQueueDeliver (k : Nat)
  /-- R240 -/
  | glbUpdate (k : Nat)
  /-- R381 -/
  | creditReturn (k dst inbox : Nat)
  /-- R382 -/
  | channelAudit (k src inbox : Nat)
  /-- R151 -/
  | domainStep (k dom : Nat)
  /-- R152 -/
  | domainHaltBoundary (k dom : Nat)
  /-- R154 -/
  | crossingArrival (k : Nat) (units : List Crossing)
  /-- R155 -/
  | integratorRecordTake (k port : Nat)
  /-- R127 -/
  | arrayCommandExecute (k : Nat)
  /-- R280 -/
  | tilemmDescriptorCopy (k : Nat)
  /-- R134 -/
  | tilemmStep (k : Nat)
  /-- R137 -/
  | copyAccept (k t : Nat)
  /-- R140 -/
  | copyElementLand (id : Nat)
  /-- R139 -/
  | copyComplete (id : Nat)
  /-- R147 -/
  | nbmvAccept (k t : Nat)
  /-- R146 -/
  | nbmvComplete (id : Nat)
  /-- R142 -/
  | publFlip (ctx group : Nat)
  /-- R357 -/
  | eventRecordPlace (k : Nat) (r : EventRecord)
  /-- R221 -/
  | cuttingApply (c : Cutting)
  /-- R221 -/
  | cuttingResend (c : Cutting)
  /-- R380 -/
  | linkTimeout (k t id : Nat)
  /-- R373 -/
  | twinHashArrival (k t item : Nat) (hash : Word)
  /-- R373 -/
  | twinHashTimeout (k t item : Nat)
  /-- R100 -/
  | refreshPhase (die : Nat)
  /-- R100 -/
  | refreshBusyEnd (die : Nat)
  /-- R99 -/
  | wsmodeDrainEnd (die : Nat)
  /-- R354 -/
  | schedulerDispatch (die : Nat)
  /-- R355 -/
  | threadPlacement (die tcb : Nat)
  /-- R356 -/
  | launchEnq (r : LaunchRecord)
  /-- R356 -/
  | launchDec (r : LaunchRecord)
  /-- R363 -/
  | contextKill (die : Nat)
  /-- R363 -/
  | killDrainComplete (die : Nat)
  /-- R362 -/
  | coreRemove (die : Nat)
  /-- R349 -/
  | shootdownPort (port : Nat) (s : Shoot)
  /-- R391 -/
  | bistComplete (k t : Nat)
  /-- R392 -/
  | laneMarginDwellEnd (port lane : Nat)
  /-- R130 -/
  | wideBeatArrival (k : Nat) (west : Bool) (bytes : List Byte)
  /-- R40 -/
  | annulledWordPass (k t : Nat)
  /-- R323 -/
  | fetchFault (k t : Nat)
  /-- R47 -/
  | windowSpill (k : Nat)
  /-- R47 -/
  | windowFill (k : Nat)
  /-- R17 -/
  | seedPacketReturn (k : Nat) (p : SeedPacket)
  /-- R324 -/
  | asyncEventDelivery (k t : Nat)
  /-- R242 -/
  | messageRelease (k chan : Nat)
  /-- R97 -/
  | remoteAccessRequest (q : AccessRequest)
  /-- R211 -/
  | remoteAccessResponse (k t id : Nat) (value : Word) (poison : Bool)
  /-- R378 -/
  | flitReceive (port : Nat) (f : Flit)
  /-- R378 -/
  | linkRetrain (port : Nat)
  /-- R368 -/
  | coreSeal (k : Nat)
  /-- R366 -/
  | scrubRead (key : Nat) (found : EccFound)
  /-- R99 -/
  | wsmodeWrite (die : Nat) (v : Word)
  /-- R352 -/
  | tcbDecrement (die tcb : Nat)
  /-- R353 -/
  | taskRetire (die tcb : Nat)
  /-- R375 -/
  | taskFail (die tcb : Nat)
  /-- R331 -/
  | cxSaveThread (c : CxCommand)
  /-- R331 -/
  | cxRestoreThread (c : CxCommand)
  /-- R333 -/
  | cxSaveCore (c : CxCommand)
  /-- R333 -/
  | cxRestoreCore (c : CxCommand)
  /-- R392 -/
  | laneMarginDwell (port lane : Nat)
  /-- R388 -/
  | svnfuseWrite (die : Nat) (v : Word)
  /-- R393 -/
  | smargWrite (die : Nat) (v : Word)
  /-- R101 -/
  | ibdWrite (k n : Nat) (high : Bool) (v : Word)
  /-- R326 -/
  | tqbWrite (k : Nat) (eq : Bool) (v : Word)
  /-- R361 -/
  | clpartWrite (die cl : Nat) (v : Word)
  /-- R4 -/
  | registerWrite (r : DevReg) (v : Word)
  /-- R387 -/
  | packageReset (image : BootImage)
  /-- R389 -/
  | getVersion (q : SpdmRequest)
  /-- R389 -/
  | getCapabilities (q : SpdmRequest)
  /-- R389 -/
  | negotiateAlgorithms (q : SpdmRequest)
  /-- R389 -/
  | getDigests (q : SpdmRequest)
  /-- R389 -/
  | getCertificate (q : SpdmRequest)
  /-- R389 -/
  | challenge (q : SpdmRequest)
  /-- R389 -/
  | getMeasurements (q : SpdmRequest)
  /-- R371 -/
  | dieReset (die : Nat)
  /-- R16 -/
  | framePageIn (k : Nat) (f : FrameText)
  /-- R384 -/
  | eventCounterAdd (k : Nat)
  /-- R393 -/
  | marginingEnable (on : Bool)
  /-- R207 -/
  | ret
  /-- R69 -/
  | iend
  /-- R73 -/
  | ileave
  /-- R236 -/
  | yield
  /-- R237 -/
  | done
  /-- R83 -/
  | fend
  /-- R329 -/
  | eret
  /-- R329 -/
  | uiret
  /-- R209 -/
  | nop
deriving DecidableEq, Repr

end Sys2Proof
end

