-- ==== Sys2Proof/Config.lean ====
section
/-! DEFINITION. What the spec leaves open: free values, the lengths that no rule fixes, and the functions and fused contents
that no rule gives. None has a body, so nothing can be proved of a value of it. -/

namespace Sys2Proof

/-- The free values: the n-th undefined value that a run produces (00 R5). -/
opaque Config.freeValue : Nat → BitVec 64

/-- Cycles from one core to another for packets, accesses and messages; no rule fixes them (00 R1). -/
opaque Config.transit : Nat → Nat → Nat

/-- Cycles by which a change of the global lower bound lags at a core (13 R240). -/
opaque Config.glbLag : Nat → Nat → Nat

/-- Cycles an engine takes for a step of its work, by kind and size; no rule fixes them (00 R1). -/
opaque Config.engineTime : Nat → Nat → Nat

/-- The lanes that come up when a port trains for the n-th time: port, n (25 R377, R380). -/
opaque Config.trainedLanes : Nat → Nat → BitVec 8

/-- The fused serial number of a die (26 R394). -/
opaque Config.serial : Nat → BitVec 56

/-- The physical columns found defective in a row of a die (01 R10). -/
opaque Config.defects : Nat → Nat → List Nat

/-- The fused repair of an HBM channel of a die: whether its spare pseudo-channel is in use, and the rows repaired (26 R394). -/
opaque Config.channelRepair : Nat → Nat → Bool × BitVec 8

/-- The fused key digest of a die (26 R388). -/
opaque Config.keyDigest : Nat → List Byte

/-- SHA3-512 (26 R388), which the spec names and does not define. -/
opaque Config.sha3 : List Byte → List Byte

/-- ML-DSA-87 verification of a signature over a digest under a public key (26 R388). -/
opaque Config.verify : List Byte → List Byte → List Byte → Bool

/-- The signature of the attestation key derived from the fused secret and a firmware digest (26 R389). -/
opaque Config.attest : List Byte → List Byte → List Byte

/-- Contents of the boot ROM, as measured (26 R389). -/
opaque Config.bootRom : List Byte

/-- The body of an SPDM response, by request code; SPDM 1.3 lies outside the spec (26 R389). -/
opaque Config.spdmBody : Nat → List Byte

/-- The stream that the twin CRC of an outbound item runs over: kind, address, size, data and operands as the spec lists
them, in an order and with widths it does not give (25 R373). -/
opaque Config.twinBytes : List (BitVec 64) → List Byte

/-- Symbol errors that a margin dwell of a lane finds (26 R392). -/
opaque Config.marginErrors : Nat → Nat → BitVec 64 → BitVec 32

/-- Failures a self-test finds: count and first index (26 R391); none: it passes. -/
opaque Config.bistFault : Nat → Nat → Nat → Option (Nat × Nat)

end Sys2Proof
end

