-- ==== Sys2Proof/Machine/State.lean ====
section
/-! DEFINITION. The state of one package as plain data, the reasons for a stop, and the state after reset. -/

namespace Sys2Proof.Machine

/-! ## Threads -/

/-- The privilege levels (22 R319). -/
inductive Level where
  | u | s | h
deriving DecidableEq, Repr

/-- A register or version: its value and its full/empty tag (03 R42, 04 R62). -/
structure Reg where
  val : Word := 0
  full : Bool := true
deriving DecidableEq, Repr

/-- Why a thread is parked (03 R41) or held to its instruction until that completes (03 R42). -/
inductive Park where
  /-- fetch from an unloaded frame, or WFLD without the seed's text (03 R41, 13 R238): held upward -/
  | fetch
  /-- LOOP with no free ring set (04 R64) -/
  | ringSet
  /-- the issuing slot until its loop ends (04 R69) -/
  | loopEnd
  /-- MWAIT (03 R61); `mwaitDst` and `mwaitUntil` of the thread complete it -/
  | mwait
  /-- SPAWN awaiting its reply (03 R55) -/
  | spawn
  /-- a graft awaiting acceptance (03 R58) -/
  | graft
  /-- FURROW awaiting empty slots (04 R79), or the head waiting for the last FEND (04 R83) -/
  | furrow
  /-- a column of a furrow between its steps (04 R80), or a column whose FEND has retired -/
  | column
  /-- held by an upward trap (22 R325) -/
  | held
  /-- a trap that goes upward once the producers are done (03 R45): cause, value, resume offset, ASYNC -/
  | upward (cause : Nat) (value : Word) (epc : BitVec 16) (async : Bool)
  /-- CPY, NBMV (07 R137), VTADV joining (13 R239), ESTAT draining (15 R291), PUBL (07 R142), SHOOT (23 R348), MARM -/
  | engine
  /-- an LDF, STF, LDFF or BARW registered at its home (12 R217, R228) or RECV in its channel's order (13 R242) -/
  | registered
  /-- the outbound item of a twinned copy 0 that waits for its hash (25 R373) -/
  | twin
deriving DecidableEq, Repr

/-- The state of a thread slot that is not empty (03 R41). A waiting thread has not executed its next instruction; `since`
is the first cycle of a wait that counts against WLIM (03 R44). -/
inductive Status where
  | ready
  | waiting (since : Option Nat)
  | parked (why : Park) (since : Option Nat)
deriving DecidableEq, Repr

/-- What a hint word binds to the next word (10 R184). -/
inductive Bound where
  | none
  | imm (payload : BitVec 22)
  | rlx (scope : BitVec 3) (mark : BitVec 2)
deriving DecidableEq, Repr

/-- Where a result that has not arrived goes (03 R42). -/
inductive Dest where
  | none
  | reg (n : Nat)
  | version (n : Nat)
  | link (dir : Dir)
deriving DecidableEq, Repr

/-- What a result awaits that another package sends (05 R97): thread address, size code of a load (8: BARV), byte offset of each request still out, bytes
so far, bytes that the buffer of its iteration gives (04 R70), what it reads (place as a number and length), the offset of its word for a trap, and
whether later accesses wait for it as an acquire (09 R168), and whether the thread is held until it comes: a column of a furrow, or a twinned thread. -/
structure Away where
  ea : Word
  fn : Nat
  asked : FMap Nat
  got : Nat := 0
  own : FMap Byte := []
  reads : List (Nat × Nat) := []
  epc : BitVec 16
  acquire : Bool := false
  holds : Bool := false
deriving DecidableEq, Repr

/-- An access that has left its core and has no answer yet (12 R211): class, the iteration that issued it, the port by which it left the package, plus one
(0: it did not), and the doubleword that a reduction will update. -/
structure Access where
  cls : Nat
  iter : Option Nat := none
  port : Nat := 0
  key : Option Nat := none
deriving DecidableEq, Repr

/-- An outstanding long-latency producer (03 R42): destination, value to come and class of access. -/
structure Producer where
  dest : Dest
  value : Word
  /-- the access whose completion this is (12 R211): 0 none, 1 plain, 2 relaxed, acquire or release -/
  access : Nat := 0
  /-- a float divide or square root, and the flags that it raises when it completes (14 R256) -/
  isFloat : Bool := false
  flags : BitVec 5 := 0
  /-- its value comes from another package -/
  away : Option Away := none
deriving DecidableEq, Repr

/-- An address monitor (03 R60): the 64-byte line it watches, as a physical key, and its latch. -/
structure Monitor where
  line : Nat
  addr : Word
  latched : Bool
  /-- registered in another package: port and number of the request -/
  away : Option (Nat × Nat) := none
deriving DecidableEq, Repr

/-- Where an access is performed (05 R97): own local store, HBM or weight store (with a compressed page's scheme and block
metadata, 23 R343), another core's local store, another package (with the type and frame there), host memory, a register. -/
inductive Place where
  | own (key : Nat)
  | hbm (key : Nat) (cmp : Option (Nat × Nat × Nat))
  | ws (die off : Nat) (cmp : Option (Nat × Nat × Nat))
  | ls (core : Nat) (key : Nat)
  | remote (pkg rtt frame : Nat)
  | host (key : Nat)
  | dev (addr : Nat)
deriving DecidableEq, Repr

/-- A buffered store of an iteration (04 R70): thread address, its bytes by place, and whether it is relaxed. -/
structure Buffered where
  addr : Word
  parts : List (Place × List Byte)
  relaxed : Bool
deriving DecidableEq, Repr

/-- What a thread inside an iteration of an overlapped loop holds (04 R66 to R70). -/
structure IterCtx where
  /-- ring set, issuing slot and iteration number -/
  ring : Nat
  owner : Nat
  idx : Nat
  /-- versions of v0 to v7 this iteration has written -/
  written : FMap Reg := []
  buf : List Buffered := []
  /-- the buffer filled and was performed early: stores are performed when they issue (04 R70) -/
  direct : Bool := false
  /-- a trap waiting until this iteration is oldest (04 R74): cause, value, offset -/
  trapped : Option (Nat × Word × BitVec 16) := none
  /-- the trap of this iteration has been delivered: its handler runs (04 R74) -/
  inHandler : Bool := false
deriving DecidableEq, Repr

/-- What makes a slot 15 a furrow slot (04 R79): head core, column, next stream index, whether the word before that one still holds the thread (04
R81), and a trap handler running (04 R85). -/
structure Column where
  head : Nat
  j : Nat
  idx : Nat
  holding : Bool := false
  inHandler : Bool := false
  /-- pending_annul of the column while its handler runs (11 R203, 04 R85) -/
  annul : Nat := 0
  /-- an MWAIT of the column has begun (12 R225) -/
  mwaiting : Bool := false
  ended : Bool := false
deriving DecidableEq, Repr

/-- The 2-D shape of a thread (14 R257): element size code, rows, columns, active rows and columns. -/
structure Shape where
  es : Nat := 0
  gc : Nat := 0
  gr : Nat := 0
  ac : Nat := 0
  ar : Nat := 0
deriving DecidableEq, Repr

/-- The asynchronous events pending for a thread (22 R324): Barrier Broken, Integrand Overrun, Increment Overrun and
transfer completions; and by cause the core that raised the event (22 R323). -/
structure Pending where
  bb : Option Word := none
  io : Option Word := none
  ic : Option Word := none
  xc : List Completion := []
  cores : FMap Nat := []
deriving DecidableEq, Repr

/-- A twinned thread (25 R372, R373): copy number, work identifier, core and slot of the other copy, number of the next outbound item, hashes that
copy 0 holds of copy 1's items, answers that copy 1 holds of items copy 0 has performed, items that were mismatched, the item
whose hash copy 1 sends next, and the item whose time limit copy 0 sets next. -/
structure Twin where
  copy : Nat
  wid : Word
  peerCore : Nat := 0
  /-- 16: the other copy has not started -/
  peerSlot : Nat := 16
  item : Nat := 0
  hashes : FMap Word := []
  answers : FMap (List Word) := []
  bad : NSet := []
  sent : Nat := 0
  armed : Nat := 0
deriving DecidableEq, Repr

/-- An RSAVE that waits for step boundaries (08 R160): its cells, whether it saves patch entries, and the records captured so far. -/
structure RangeSave where
  first : Nat
  count : Nat
  pe : Bool
  got : FMap (List Word) := []
deriving DecidableEq, Repr

/-- The scalar state that LOOP saves for its iterations (04 R64). -/
structure Snapshot where
  regs : List Reg := []
  pw : BitVec 32 := 1
  rm : BitVec 2 := 0
  fflags : BitVec 5 := 0
  depth : Nat := 0
  shape : Shape := {}
deriving DecidableEq, Repr

/-- A bound ring set (04 R63, R64). -/
structure Ring where
  owner : Nat
  n : Nat
  q : Nat
  r : Nat
  body : BitVec 16
  exit : BitVec 16
  g : Nat
  slots : List Nat
  snap : Snapshot
  oldest : Nat := 0
  /-- iteration that runs on the first of the slots: 0, or the one that resumed after a trap (04 R66, R74) -/
  base : Nat := 0
  /-- flags of the retired iterations (04 R69) -/
  flags : BitVec 5 := 0
  /-- an iteration has trapped: no further iteration starts (04 R74) -/
  stopped : Bool := false
deriving DecidableEq, Repr

/-- A thread in its slot. -/
structure Thread where
  status : Status := .ready
  level : Level := .u
  ctx : Nat := 0
  cid : Nat := 0
  tcb : Word := 0
  tcbKey : Nat := 0
  sid : Nat := 0
  /-- the model's number of the thread, by which transfer completions follow it (07 R143) -/
  uid : Nat := 0
  pc : BitVec 16 := 0
  pw : BitVec 32 := 1
  regs : FMap Reg := []
  depth : Nat := 0
  /-- depth of the oldest resident window (03 R47) -/
  wbase : Nat := 0
  /-- depths of the windows marked as spawn windows (03 R55) -/
  spawnWindows : List Nat := []
  /-- SCHED requests of the spill engine (11 R210) -/
  schedFill : Option Nat := none
  schedSpill : Option Nat := none
  /-- the frame that the spill engine is moving for the slot: its depth, whether it spills, and the doublewords moved so far (03 R47) -/
  moved : Option (Nat × Bool × Nat) := none
  /-- the cycle in which the present spill work arose (03 R47) -/
  spillSince : Option Nat := none
  annul : Nat := 0
  bound : Bound := .none
  lastIssue : Option Nat := none
  /-- a YIELD or a tile load keeps the thread ineligible until this cycle (13 R236, 14 R262) -/
  yieldTo : Nat := 0
  /-- a trap handler's first instruction waits for the producers (03 R45) -/
  draining : Bool := false
  vers : FMap Reg := []
  icnt : Nat := 0
  rm : BitVec 2 := 0
  fflags : BitVec 5 := 0
  wlim : Word := 0
  wsp : Word := 0
  xfid : Word := 0
  uih : BitVec 16 := 0
  epc : BitVec 16 := 0
  ecause : Word := 0
  evalue : Word := 0
  inh : Bool := false
  pend : Pending := {}
  /-- asynchronous events to be delivered upward at the next instruction boundary: cause, value and raising core (22 R323) -/
  pendUp : List (Nat × Word × Nat) := []
  uctl : Word := 0
  tsel : Word := 0
  sepc : BitVec 16 := 0
  scause : Word := 0
  sval : Word := 0
  segs : FMap (BitVec 128) := []
  monitors : FMap Monitor := []
  shape : Shape := {}
  /-- m0 to m7: byte 2048 * n + i is byte i of mn (14 R259) -/
  tiles : FMap Byte := []
  /-- number of the free value that stands at byte 0 when unlisted bytes are undefined (14 R259); none: unlisted bytes are 0 -/
  tileFree : Option Nat := none
  producers : FMap Producer := []
  nextProducer : Nat := 0
  /-- accesses with no answer yet (12 R211): requests to other packages that hold the thread, and cuttings -/
  outstanding : FMap Access := []
  mwaitDst : Dest := .none
  mwaitToken : Nat := 0
  /-- an access to another package in progress: bytes gathered, thread address, byte offset of each request awaited, size code of the load -/
  gathered : Nat := 0
  gatherEa : Word := 0
  gatherAt : FMap Nat := []
  gatherFn : Nat := 6
  /-- the registration of its operation at another package is being withdrawn (12 R217): true when Wait Limit asks for it -/
  recalled : Option Bool := none
  /-- parts left of the store in progress, the first of them awaited from another package -/
  storing : List (Place × List Byte) := []
  /-- operands that a word which has still to complete has read already -/
  held : List Word := []
  /-- the message of a SEND that waits for room in the queue: stamp and payload (13 R241) -/
  sending : Option (Word × List Word) := none
  /-- link words that the word in progress has popped: direction, word, and whether it goes on to the opposite side (04 R77, R78) -/
  lent : List (Nat × Word × Bool) := []
  rsave : Option RangeSave := none
  /-- a DHALT of the thread has begun and waits for boundaries (16 R292, R299) -/
  dhalt : Bool := false
  iter : Option IterCtx := none
  /-- a restored loop that still waits for a ring set (22 R331) -/
  rebind : Option Ring := none
  col : Option Column := none
  twin : Option Twin := none
  /-- what the graft in progress has sent (03 R58) -/
  graftTo : Nat := 0
  graftPc : BitVec 16 := 0
deriving DecidableEq, Repr

/-! ## Cores -/

/-- A field of a work identifier: width and grain (02 R35, 24 R351). -/
structure WorkField where
  width : Nat
  grain : Nat
  extent : Nat
deriving DecidableEq, Repr

/-- An inbox descriptor (05 R101). -/
structure Inbox where
  en : Bool := false
  size : Nat := 0
  base : Nat := 0
  head : Nat := 0
  tail : Nat := 0
  /-- the core that sent the record at an offset (25 R381) -/
  senders : FMap Nat := []
deriving DecidableEq, Repr

/-- A trap or event queue (22 R326, 24 R357): base address, size in records, head and tail. -/
structure RecQueue where
  base : Nat := 0
  size : Nat := 0
  head : Nat := 0
  tail : Nat := 0
deriving DecidableEq, Repr

/-- A thread registered at a home for a word: what it waits for and how it ends (12 R217, R228). A request of another package
gives the port it came through and its number. -/
structure Waiter where
  core : Nat
  slot : Nat
  remote : Option (Nat × Nat) := none
  /-- the thread address, for EVAL -/
  addr : Word := 0
  key : Nat
  kind : AccessKind
  data : Word
  dest : Dest
  /-- the operation is tried again by its thread when its turn has come: it reads a link, or stands in a furrow column (04 R78, R81) -/
  polls : Bool := false
  /-- what a polled BARW will find -/
  result : Option Word := none
deriving DecidableEq, Repr

/-- A monitor registered at its home (03 R60, 12 R224). -/
structure MonReg where
  core : Nat
  slot : Nat
  index : Nat
  line : Nat
  /-- context and linear address that it was armed by -/
  lin : Option (Nat × Nat) := none
  /-- armed by another package: the port it came through, and its number -/
  remote : Option (Nat × Nat) := none
  /-- its thread is saved: the thread's number, and whether the line has been written since (03 R61) -/
  away : Option Nat := none
  hit : Bool := false
deriving DecidableEq, Repr

/-- An armed barrier at its home (12 R226 to R229): owner thread (none once it has left its slot), its former slot and
context, and the thread address BARI used. -/
structure Barrier where
  key : Nat
  /-- scheme and metadata of its compressed block (23 R344) -/
  cmp : Option (Nat × Nat × Nat) := none
  owner : Option (Nat × Nat)
  ownerSlot : Nat
  ctx : Nat
  addr : Word
  /-- linear address that it was armed by, in ctx -/
  lin : Option Nat := none
  /-- armed by another package: the port it came through, and its number -/
  remote : Option (Nat × Nat) := none
  broken : Bool := false
deriving DecidableEq, Repr

/-- A sender's counters for one target and channel (25 R381). -/
structure Credit where
  target : Nat
  chan : Nat
  crd : Nat := 8
  sent : Nat := 0
  /-- the audit holds new messages (25 R382) -/
  quiet : Bool := false
deriving DecidableEq, Repr

/-- A receiver's count for one sender and channel (25 R381, R382). -/
structure Taken where
  sender : Nat
  chan : Nat
  cons : Nat := 0
deriving DecidableEq, Repr

/-- A RECV that waits for a released message (13 R242). -/
structure Receiver where
  slot : Nat
  chan : Nat
  /-- the doublewords of the buffer, lowest first: thread addresses and places -/
  buf : List (Word × Place)
  dest : Dest
  /-- it is tried again by its thread when its turn has come (04 R78, R81) -/
  polls : Bool := false
deriving DecidableEq, Repr

/-- An exact accumulator (06 R124): sum, exponent of its bit 0, class (0 finite, 1 +inf, 2 -inf, 3 NaN), poison, count. -/
structure Exact where
  a : Int := 0
  b : Int := 31
  cls : Nat := 0
  psn : Bool := false
  count : Nat := 0
deriving DecidableEq, Repr

/-- Where a command came from and how its completion is told (07 R143). -/
structure Reporter where
  core : Nat
  /-- the model's number of the issuing thread -/
  uid : Nat
  slot : Nat
  cid : Nat
  ctx : Nat
  level : Level := .u
  /-- key of the TCB of the issuing thread's task -/
  task : Nat
  kind : Nat
  mode : Nat := 0
  /-- handler offset, or linear address of the task control block -/
  target : Word := 0
  /-- address of the parameter block -/
  pb : Word := 0
  /-- number of the transfer on its core; its identifier is this modulo 2^16 -/
  xid : Nat
deriving DecidableEq, Repr

/-- A dimension of a copy (07 R138). -/
structure Dim where
  e : Nat
  w : Nat
  o : Int
  ss : Int
  ds : Int
deriving DecidableEq, Repr

/-- One side of an engine command: base address, local-store or linear, the places of its 64 KiB stretches of linear addresses as
translated at acceptance, its bank format if it has one, and its element width in bits. -/
structure Side where
  ea : Word := 0
  own : Bool := true
  base : Nat := 0
  pages : FMap Place := []
  fmt : Option Nat := none
  width : Nat := 8
deriving DecidableEq, Repr

/-- A copy accepted by its master (07 R137 to R140). -/
structure Copy where
  src : Side
  dst : Side
  dims : List Dim
  policy : Nat
  /-- rows of dimension 0 that have landed; single elements where a side lies in another package -/
  next : Nat := 0
  single : Bool := false
  /-- requests to other packages for the present element, with byte offsets; bytes gathered; 0 none sent, 1 reading, 2 read,
  3 writing -/
  asked : FMap Nat := []
  got : Nat := 0
  /-- a word of another package was poisoned there -/
  marked : Bool := false
  phase : Nat := 0
  /-- follow-on TILEMM: destination core and key of its descriptor (07 R144) -/
  follow : Option (Nat × Nat) := none
deriving DecidableEq, Repr

/-- A near-bank command accepted (07 R146). -/
structure NearBank where
  x : Side
  w : Side
  y : Side
  stride : Nat
  k : Nat
  n : Nat
deriving DecidableEq, Repr

/-- The engine work of a command. A TILEMM gives its descriptor's key, the segment registers for its block addresses, and whether it
has entered the array queue. -/
inductive Work where
  | copy (c : Copy)
  | nearBank (n : NearBank)
  | tile (key : Nat) (segs : FMap (BitVec 128)) (queued : Bool)
deriving DecidableEq, Repr

/-- A command that carries a transfer identifier, from acceptance to completion (07 R137, R143 to R145), with the core whose copy port or streamer is its
master (07 R136). -/
structure Command where
  rep : Reporter
  work : Work
  master : Nat := 0
  status : Nat := 0
  held : Bool := false
  /-- predecessors still counted, CHAINs onto it, and commands chained after it -/
  preds : Nat := 0
  chains : Nat := 0
  after : List Nat := []
  /-- publish groups it writes as cloches, and those it reads (07 R142, 09 R175) -/
  cloche : List Nat := []
  groups : List Nat := []
deriving DecidableEq, Repr

/-- A command of the array queue (07 R127, 15 R273 to R281), with the keys of its local-store operands and its task. -/
inductive ArrayCmd where
  | mma (ctl : Word) (akey bkey : Nat) (check : Bool) (task : Nat)
  | azero (ctl : Word) (task : Nat)
  | awr (ctl : Word) (key : Nat) (task : Nat)
  | ard (ctl : Word) (key : Nat) (task : Nat)
  | achk (ctl : Word) (key : Nat) (correct : Bool) (task : Nat)
  | bsum (ctl : Word) (key : Nat) (task : Nat)
  | tilemm (command : Nat) (task : Nat)
deriving DecidableEq, Repr

/-- An MMA that takes wide beats (07 R130): the next of its 64 cycles, the bytes of A and B taken so far, and whether one of them was an
error word. -/
structure WideRun where
  cycle : Nat := 0
  west : List Byte := []
  north : List Byte := []
  bad : Bool := false
deriving DecidableEq, Repr

/-- The matrix array, its queue and its sequencer (07 R127 to R135). -/
structure Array where
  /-- accumulator cell (i, j) at 65 * i + j; unlisted cells are +0 -/
  acc : FMap (BitVec 32) := []
  nv : Bool := false
  ovf : Bool := false
  nx : Bool := false
  psn : Bool := false
  queue : List ArrayCmd := []
  /-- commands queued and commands finished so far -/
  queued : Nat := 0
  finished : Nat := 0
  /-- first cycle in which the next MMA may begin, and any other command (07 R131) -/
  freeAt : Nat := 0
  settledAt : Nat := 0
  /-- the cycle since which the array holds for a wide beat, or for room to forward one (07 R130) -/
  stalled : Option Nat := none
  /-- the MMA in progress that takes wide beats -/
  run : Option WideRun := none
  /-- first cycle in which the wide lane to the east, and to the south, takes the next beat (01 R13: 128 bytes a cycle) -/
  laneEast : Nat := 0
  laneSouth : Nat := 0
  west : List Byte := []
  north : List Byte := []
  /-- SEQST, descriptor copy, segments and command of the running TILEMM, and whether a step of it has set PSN -/
  busy : Bool := false
  held : Bool := false
  ph : Nat := 0
  mb : Nat := 0
  nb : Nat := 0
  kb : Nat := 0
  desc : List Word := []
  segs : FMap (BitVec 128) := []
  running : Option Nat := none
  stepPsn : Bool := false
deriving DecidableEq, Repr

/-- A cell of the integrator array (08 R148). -/
structure Cell where
  y : Int := 0
  r : Nat := 0
  dz : Int := 0
  cc : List Int := [0, 0, 0, 0]
  sat : Bool := false
  patch : Word := 0
deriving DecidableEq, Repr

/-- A step domain (08 R152). -/
structure Domain where
  run : Bool := false
  gate : Bool := false
  why : Nat := 0
  own : Nat := 0
  /-- the thread that started the domain, until it leaves its slot -/
  owner : Option (Nat × Nat) := none
  ownerCtx : Nat := 0
  per : Nat := 4
  cnt : Nat := 0
  stop : Nat := 0
  /-- cycle of the latest step, and of the step that is due -/
  lastStep : Option Nat := none
  dueStep : Nat := 0
  /-- first boundary cycle after the step in progress (08 R152) -/
  stepEnd : Nat := 0
  /-- a halt or DCTL write that waits for the boundary (08 R152) -/
  halting : Bool := false
  newCtl : Option Word := none
deriving DecidableEq, Repr

/-- A tap (08 R158). -/
structure Tap where
  cell : Nat := 0
  en : Bool := false
  net : Int := 0
deriving DecidableEq, Repr

/-- An output port (08 R155). -/
structure OutPort where
  en : Bool := false
  port : Nat := 0
  cell : Nat := 0
  core : Nat := 0
  la : Nat := 0
deriving DecidableEq, Repr

/-- The integrator array (08). -/
structure Dda where
  cells : FMap Cell := []
  doms : FMap Domain := []
  taps : FMap Tap := []
  outs : FMap OutPort := []
deriving DecidableEq, Repr

/-- An event counter (25 R384). -/
structure EvCounter where
  en : Bool := false
  uo : Bool := false
  ovf : Bool := false
  src : Nat := 0
  count : Nat := 0
deriving DecidableEq, Repr

/-- A self-test in progress (26 R391): test, unit, where its result goes. -/
structure SelfTest where
  test : Nat
  unit : Nat
  core : Nat
  slot : Nat
  producer : Nat
deriving DecidableEq, Repr

/-- A barrel core (01 R8, R9). -/
structure Core where
  /-- sealed (25 R368) -/
  isSealed : Bool := false
  /-- seed identifier of each code frame (03 R54), 0: no text -/
  sids : FMap Nat := []
  /-- contexts that have been placed on the core (13 R239) -/
  ctxs : NSet := []
  /-- tasks whose seed packet has come (24 R355) -/
  seeded : List Nat := []
  rings : FMap Ring := []
  /-- inbound link queues by direction 0 n, 1 e, 2 s, 3 w, and credits for pushes (04 R76) -/
  links : FMap (List Word) := []
  credits : FMap Nat := []
  vt : Word := BitVec.allOnes 64
  glb : Word := BitVec.allOnes 64
  bankfmt : Word := 0
  inboxes : FMap Inbox := []
  /-- messages not yet placed, and whether each is on its way (13 R241); records of the array's output ports (08 R155) -/
  sendq : List (Message × Bool) := []
  ddaq : List Message := []
  receivers : List Receiver := []
  creditTab : List Credit := []
  takenTab : List Taken := []
  graftq : List GraftPacket := []
  cuttings : List Cutting := []
  waiters : List Waiter := []
  monRegs : List MonReg := []
  barriers : List Barrier := []
  array : Array := {}
  exact : FMap Exact := []
  dda : Dda := {}
  /-- transfers numbered so far; the last 1,024 with their status, none: not yet complete (15 R288, R291) -/
  nextXid : Nat := 0
  xids : FMap (Option Nat) := []
  /-- commands accepted and not complete, by number; a follow-on of another core's copy has a number from 2^40 upward -/
  commands : FMap Command := []
  clflags : Word := 0
  tqb : RecQueue := {}
  cxcmd : Word := 0
  /-- the save or restore in progress, the result of the last, and each DCTL as it stood before a core save (22 R331, R333) -/
  cxNow : Option CxCommand := none
  cxRes : Nat := 0
  cxDctl : FMap Word := []
  evs : FMap EvCounter := []
  errs : FMap Nat := []
  bist : Option SelfTest := none
  /-- requests of other packages that wait for the end of a self-test (26 R391) -/
  arrivals : List AccessRequest := []
  /-- counts of this cycle by source number (25 R384): all threads, and U threads only -/
  tally : FMap Nat := []
  tallyU : FMap Nat := []
deriving DecidableEq, Repr

/-- The save of a core is in progress: its domains halt and its array starts no command (22 R333). -/
def Core.saving (c : Core) : Bool := !c.cxDctl.isEmpty

/-! ## Dies and the package -/

/-- A task that its scheduler has taken (24 R354, R355). -/
structure Task where
  die : Nat
  tcbLin : Word
  ctx : Nat
  part : Nat
  sid : Nat
  image : Nat
  fields : List WorkField
  /-- number of the next thread to be placed, in rising order of work identifier; threads in all; threads that have started; and
  placed threads that came back: work identifier and copy (01 R17) -/
  next : Nat
  total : Nat
  started : Nat
  returned : List (Nat × Nat)
  /-- choices made for unbound grains: grain, bits of the fields above it, value chosen (03 R51) -/
  chosen : List (Nat × Nat × Nat)
  /-- core chosen for each copy of a twinned work identifier that has one: identifier, copy, core -/
  placed : List (Nat × Nat × Nat)
  created : Nat
  live : Nat
  dispatching : Bool := true
  /-- core and slot on which the latest thread ended -/
  lastCore : Nat := 0
  lastSlot : Nat := 0
  vf : Nat := 127
  replay : Bool := false
  twin : Bool := false
deriving DecidableEq, Repr

/-- A Dymund port (25 R377 to R380, 26 R392). -/
structure LinkPort where
  up : Bool := false
  lanes : Nat := 0
  trn : Nat := 0
  rtry : Nat := 0
  dlto : Nat := 0x1000
  lmarg : FMap Word := []
  /-- sequence number expected next, and failed tries of it in a row -/
  rxSeq : Nat := 0
  fails : Nat := 0
  txSeq : Nat := 0
  /-- the last 256 flits sent -/
  sent : List Flit := []
  /-- the first flit of a graft packet that has come (03 R57) -/
  half : List Byte := []
deriving DecidableEq, Repr

/-- A cached translation (23 R346): context, linear address of its page, and the leaf. -/
structure TlbEntry where
  ctx : Nat
  lin : Nat
  dw0 : Word
  dw1 : Word
deriving DecidableEq, Repr

/-- A translation port (23 R346, R349): its generation, and its banks of cached translations, oldest first. -/
structure MemPort where
  gen : Nat := 0
  banks : FMap (List TlbEntry) := []
deriving DecidableEq, Repr

/-- A die: weight store, scheduler, cluster blocks, ports and boot. -/
structure Die where
  /-- the boot ROM has released this die; failure code of a boot that stopped (26 R387) -/
  booted : Bool := false
  bootFail : Nat := 0
  /-- column bypass latches by row, and channel repairs by channel, as the boot ROM has set them from the defect map (26 R387) -/
  bypass : FMap Nat := []
  repairs : FMap Nat := []
  /-- cycle in which the die left reset (05 R100), and the busy weight-store group of the present phase -/
  resetAt : Nat := 0
  busyGroup : Option Nat := none
  wsServing : Bool := false
  wsPend : Bool := false
  queues : FMap (List Nat) := []
  lstat : Nat := 0
  ageq : Nat := 0
  serr : Nat := 0
  kill : Word := 0
  killBusy : Bool := false
  killDone : Bool := false
  tokens : Nat := 0
  corecmd : Word := 0
  coreBusy : Bool := false
  coreDone : Bool := false
  /-- core to which the owner of the array of a core in removal went (24 R362) -/
  coreDest : Option Nat := none
  corera : Word := 0
  clpart : FMap Word := []
  eqb : FMap RecQueue := []
  eqfull : FMap Nat := []
  ports : FMap LinkPort := []
  /-- translation ports: 0 to 27 the memory ports of the clusters with the first-level banks of their cores (01 R11), 28 the last-level TLB, 29 streamers,
  30 copy ports, 31 port cores (23 R346, R348) -/
  memPorts : FMap MemPort := []
  smarg : Word := 0
  svnfuse : Nat := 0
deriving DecidableEq, Repr

/-- A seed image as the assembler made it (02 R30 to R38); how it lies in memory the spec does not say, so the images stand
here, keyed by context and linear address. -/
structure SeedImage where
  entry : BitVec 16
  /-- placed doublewords: address, value, tag -/
  data : List (Nat × Word × Bool)
  banks : List (Nat × Nat)
  /-- text: word offset and word -/
  text : List (Nat × BitVec 32)
deriving DecidableEq, Repr

/-- A furrow (04 R79 to R86). -/
structure Furrow where
  last : Nat
  started : Bool := false
  /-- the step that comes next (04 R80) -/
  step : Nat := 0
  /-- columns 1 to `gone` have retired and released their reservations -/
  gone : Nat := 0
  /-- words fetched by the head, oldest first, with their offsets; and the stream index of the first one kept -/
  stream : List (BitVec 16 × BitVec 32) := []
  base : Nat := 0
  /-- stream index of FEND once the head has fetched it -/
  fendAt : Option Nat := none
  /-- the head fetches no more: drain of a pre-emption (04 R86) -/
  draining : Bool := false
  /-- a step is due in this cycle -/
  turn : Bool := false
  /-- the threads of a restored furrow, head first, until its slots are empty (22 R331) -/
  cols : List Thread := []
deriving DecidableEq, Repr

/-- An event that is due at a cycle; events of one cycle come in the order of their numbers. -/
structure Due where
  at_ : Nat
  seq : Nat
  act : Instr
deriving DecidableEq, Repr

/-- A shoot-down that waits for acknowledgements (23 R348, R349). -/
structure Pendant where
  req : Shoot
  /-- dies whose ports have not acknowledged, and those at which the request has taken its first step -/
  waiting : NSet
  begun : NSet := []
  /-- accesses that were in progress when it was sent: thread and number of each -/
  accesses : List (Nat × Nat) := []
deriving DecidableEq, Repr

/-- A message of the management port or of the host interface that leaves the package (24 R353, 26 R389). -/
inductive OutItem where
  /-- a flit toward another package, with the sending port -/
  | flit (port : Nat) (payload : FlitPayload)
  /-- a task record in the completion ring of a virtual function, with its interrupt (24 R353) -/
  | hostRecord (vf : Nat) (r : EventRecord)
  /-- record of an H thread held upward (22 R325) -/
  | held (core slot : Nat) (r : TrapRecord)
  /-- report of a boot failure (26 R387) -/
  | report (core slot cause : Nat) (value : Word)
  /-- an SPDM response: request code, error flag, content (26 R389) -/
  | spdm (code : Nat) (error : Bool) (content : List Byte)
deriving DecidableEq, Repr

/-- What a saved thread keeps that its record has no field for (22 R332), by the record's place: its number and task, its last core and
slot, and of a loop the first word, the flags merged so far, the shape at LOOP, and the state of the oldest iteration. -/
structure Saved where
  uid : Nat
  tcb : Word
  tcbKey : Nat
  sid : Nat
  twin : Option Twin
  core : Nat
  slot : Nat
  body : BitVec 16 := 0
  flags : BitVec 5 := 0
  shape : Shape := {}
  direct : Bool := false
  inHandler : Bool := false
  /-- its monitors in other packages (03 R61) -/
  monitors : FMap Monitor := []
  /-- the record as it was written, by which a copy of it elsewhere is known -/
  record : List Word := []
deriving DecidableEq, Repr

/-- What a saved core keeps that its record has no field for (22 R333): tasks of its queued array commands, its TILEMM commands, the
one that ran with its segments, the counts of array commands, the context of each domain's owner, and the senders of inbox records. -/
structure SavedCore where
  tasks : List Nat
  tiles : FMap Command
  running : Option Nat
  segs : FMap (BitVec 128)
  queued : Nat
  finished : Nat
  ctxs : List Nat
  senders : List (FMap Nat)
  /-- the record as it was written, by which a copy of it elsewhere is known -/
  record : List Word := []
deriving DecidableEq, Repr

/-- State of the package as a whole. -/
structure Pkg where
  /-- publish selectors that are 1, and groups into which a cloche-marked command has failed since their last flip, by
  context * 128 + group (07 R141, R142) -/
  selectors : NSet := []
  clocheBad : NSet := []
  /-- PUBL operations that wait, oldest first: context * 128 + group, thread, commands accepted before it -/
  publs : List (Nat × Nat × List (Nat × Nat)) := []
  tasks : FMap Task := []
  /-- linear address of each task control block that a scheduler has met, by physical key -/
  tcbLin : FMap Word := []
  seeds : FMap SeedImage := []
  sidOf : FMap Nat := []
  nextSid : Nat := 1
  /-- work-field layout of each seed identifier (13 R238) -/
  layoutOf : FMap (List WorkField) := []
  nextUid : Nat := 1
  saved : FMap Saved := []
  savedCores : FMap SavedCore := []
  furrows : FMap Furrow := []
  shoots : List Pendant := []
  outbox : List OutItem := []
  margining : Bool := false
  /-- digests of accepted images for attestation: firmware, and partitions by number (26 R389) -/
  firmware : List Byte := []
  partImages : FMap (List Byte) := []
  partDigests : FMap (List Byte) := []
  /-- ECC errors present in words: key and whether uncorrectable (05 R91, 25 R366) -/
  eccBad : FMap Bool := []
  /-- the partition to which each virtual function is bound (24 R361); the hypervisor binds them by means that the spec does not give -/
  vfPart : FMap Nat := []
  nextAccess : Nat := 0
  /-- threads that have grafted to another package: the port by which each left (07 R143) -/
  moved : FMap Nat := []
  /-- barriers of other packages that a thread here has armed, by the number of its request: the thread, until it leaves its slot; its slot, context
  and the address it used (12 R229) -/
  armedAway : FMap (Option (Nat × Nat) × Nat × Nat × Word) := []
  /-- the port by which each of them left -/
  armedPort : FMap Nat := []
  nextMessage : Nat := 1
  /-- number of this package in its load-store domain (24 R359) -/
  number : Nat := 0
deriving DecidableEq, Repr

/-- The clock and the model's own bookkeeping: the cycle, what cores have still to do in it (Machine/Issue.lean), events that are due, the thread
whose word is being executed, and the counter of free values. -/
structure Clock where
  now : Nat := 0
  todo : List Nat := []
  events : List Due := []
  seq : Nat := 0
  core : Nat := 0
  slot : Nat := 0
  freeCount : Nat := 0
deriving DecidableEq, Repr

/-- One package. -/
structure State where
  clock : Clock := {}
  threads : FMap Thread := []
  cores : FMap Core := []
  dies : FMap Die := []
  /-- memory by physical key (Machine/Ops.lean), keys rising, no byte 0 listed -/
  mem : List Host.Cell := []
  /-- keys of local-store doublewords that are tagged empty, and of those whose poison bit is 1 (05 R91) -/
  empties : NSet := []
  poisons : NSet := []
  pkg : Pkg := {}
deriving DecidableEq, Repr

/-- Reasons for which the machine stops: none. Every access to memory that does not exist is a trap that the spec gives (05 R97, 22 R323), and
the machine takes it. -/
inductive Fault where
deriving DecidableEq, Repr

/-- Reasons for which the model has no next state. -/
inductive Refusal where
  /-- Raised by Dispatch for an instruction without a meaning. Safe. -/
  | notModelled (mnemonic : String)
  /-- Raised by accesses to a device-register address that no rule of spec/ gives a register. Safe. -/
  | unspecifiedDevice (addr : Nat)
deriving DecidableEq, Repr

/-- The package at the moment of reset: every core held, every slot empty, nothing loaded, memory with nothing listed. The boot
(PACKAGE_RESET) is the first thing that happens to it. -/
def State.reset : State := {}

end Sys2Proof.Machine
end

