-- ==== Sys2Proof/Machine/Base.lean ====
section
/-! DEFINITION. The basic operations over memory, threads, cores and the calendar of events: what a meaning is made of, claims and
results on their way, contexts, and asynchronous events. -/

namespace Sys2Proof.Machine

/-! ## Places (01 R10 to R13, 05 R90, R98) -/

/-- Key of byte a of the local store of core k. -/
def lsKey (k a : Nat) : Nat := k * 0x200000 + a
/-- Key of die-local HBM byte h of die d. -/
def hbmKey (d h : Nat) : Nat := 2 ^ 40 + d * 2 ^ 37 + h
/-- Key of byte o of the weight store of die d. -/
def wsKey (d o : Nat) : Nat := 2 ^ 42 + d * 2 ^ 30 + o
/-- Key of byte a of host memory. -/
def hostKey (a : Nat) : Nat := 2 ^ 60 + a

/-- Kinds of barrel core, as the KIND field of a core table counts them (24 R359). -/
inductive Kind where
  | compute | cluster | dieCtl | memSide | port
deriving DecidableEq, Repr

/-- The kind of a core by its number in the identity table (01 R12). -/
def kindOf (k : Nat) : Kind :=
  if k < 3584 then .compute else if k < 3808 then .cluster else if k < 3840 then .dieCtl
  else if k < 4352 then .memSide else .port

/-- The core of a kind with a physical index (01 R12). -/
def coreOfKind (kind idx : Nat) : Option Nat :=
  match kind with
  | 0 => if idx < 3584 then some idx else none
  | 1 => if idx < 224 then some (3584 + idx) else none
  | 2 => if idx < 32 then some (3808 + idx) else none
  | 3 => if idx < 512 then some (3840 + idx) else none
  | 4 => if idx < 128 then some (4352 + idx) else none
  | _ => none

/-- The physical index of a core within its kind (01 R12). -/
def indexOf (k : Nat) : Nat :=
  match kindOf k with
  | .compute => k
  | .cluster => k - 3584
  | .dieCtl => k - 3808
  | .memSide => k - 3840
  | .port => k - 4352

/-- The die of a core (01 R12). -/
def dieOf (k : Nat) : Nat :=
  match kindOf k with
  | .compute => k / 448
  | .cluster => (k - 3584) / 28
  | .dieCtl => (k - 3808) / 4
  | .memSide => (k - 3840) / 64
  | .port => (k - 4352) / 16

/-- Row and logical column of a compute core in its die (01 R12). -/
def rowOf (k : Nat) : Nat := k % 448 / 28
def colOf (k : Nat) : Nat := k % 28

/-- The cluster of a compute or cluster control core within its die (01 R11). -/
def clusterOf (k : Nat) : Nat :=
  if k < 3584 then rowOf k / 4 * 7 + colOf k / 4 else (k - 3584) % 28

/-- The cluster control core of a cluster of a die. -/
def clusterCore (d cl : Nat) : Nat := 3584 + d * 28 + cl

/-- Bytes of local store (05 R87). -/
def lsSize (k : Nat) : Nat :=
  match kindOf k with
  | .compute | .cluster | .dieCtl => 0x180000
  | .memSide | .port => 0x40000

/-- The local-store bank of an address (05 R90). -/
def bankOf (k a : Nat) : Nat := if lsSize k = 0x180000 then a / 0x18000 else a / 0x10000

/-- Units that a kind of core may lack (01 R8). -/
def hasTiles (k : Nat) : Bool := kindOf k = .compute || kindOf k = .cluster
def hasArray (k : Nat) : Bool := kindOf k = .compute
def hasDda (k : Nat) : Bool := kindOf k = .compute || kindOf k = .cluster
def hasLinks (k : Nat) : Bool := kindOf k = .compute

/-- The compute core at a place of the 32 x 112 torus (01 R12, R13). -/
def coreAt (row col : Nat) : Nat :=
  (row / 16 * 4 + col / 28) * 448 + row % 16 * 28 + col % 28

/-- The neighbour of a compute core (01 R13). -/
def neighbour (k : Nat) (d : Dir) : Nat :=
  let row := dieOf k / 4 * 16 + rowOf k
  let col := dieOf k % 4 * 28 + colOf k
  match d with
  | .n => coreAt ((row + 31) % 32) col
  | .s => coreAt ((row + 1) % 32) col
  | .e => coreAt row ((col + 1) % 112)
  | .w => coreAt row ((col + 111) % 112)

/-- The latency of the link from a core in a direction (01 R13). -/
def linkLatency (k : Nat) (d : Dir) : Nat :=
  let row := dieOf k / 4 * 16 + rowOf k
  let col := dieOf k % 4 * 28 + colOf k
  let wrap : Bool := match d with
    | .n => row == 0 | .s => row == 31 | .e => col == 111 | .w => col == 0
  if wrap then 64 else if dieOf (neighbour k d) = dieOf k then 16 else 32

/-- The thread number of slot t of core k. -/
def tidOf (k t : Nat) : Nat := 16 * k + t

/-! ## Memory -/

/-- Bytes by key, keys rising, no byte 0 listed: an unlisted byte reads as 0 (assumption 1). -/
abbrev Memory := List Host.Cell

/-- What an unlisted byte reads as (assumption 1, DESIGN CHOICE: the spec gives memory no reset contents). -/
def Memory.blank : Byte := 0

def Memory.read : Memory → Nat → Byte
  | [], _ => Memory.blank
  | (x, b) :: m, a => if x = a then b else Memory.read m a

def Memory.write : Memory → Nat → Byte → Memory
  | [], a, b => if b = Memory.blank then [] else [(a, b)]
  | (x, y) :: m, a, b =>
    if a = x then (if b = Memory.blank then m else (a, b) :: m)
    else if a < x then (if b = Memory.blank then (x, y) :: m else (a, b) :: (x, y) :: m)
    else (x, y) :: Memory.write m a b

def Memory.writeList (m : Memory) (a : Nat) : List Byte → Memory
  | [] => m
  | b :: bs => Memory.writeList (Memory.write m a b) (a + 1) bs

/-- Bytes a to a + n - 1 forgotten: they read as 0. -/
def Memory.wipe (m : Memory) (a n : Nat) : Memory := m.filter fun c => c.1 < a || a + n ≤ c.1

/-- The canonical form: keys strictly rising, no entry equal to what an unlisted byte reads as. -/
def Memory.wf : Memory → Bool
  | [] => true
  | [(_, b)] => b != Memory.blank
  | (x, b) :: (y, c) :: m => b != Memory.blank && decide (x < y) && Memory.wf ((y, c) :: m)

/-- n bytes from a key, lowest first. -/
def Memory.readList (m : Memory) (a : Nat) : Nat → List Byte
  | 0 => []
  | n + 1 => Memory.read m a :: Memory.readList m (a + 1) n

/-- The value of bytes in little-endian order (00 R2). -/
def leValue : List Byte → Nat
  | [] => 0
  | b :: bs => b.toNat + 256 * leValue bs

/-- The low n bytes of a value in little-endian order (00 R2). -/
def leBytes : Nat → Nat → List Byte
  | 0, _ => []
  | n + 1, v => BitVec.ofNat 8 v :: leBytes n (v / 256)

/-! ## Effects -/

/-- The predicate word as it is held: bit 0 is 1 and bits 31:20 are 0 (03 R49). -/
def pwNorm (v : BitVec 32) : BitVec 32 := (v &&& 0x000FFFFE#32) ||| 1#32

/-- A code-window offset as the program counter holds it: a multiple of 4 (10 R178). -/
def pcNorm (a : BitVec 16) : BitVec 16 := a &&& 0xFFFC#16

/-- Everything that an instruction or event can do to the state. Predicate words and program counters change only through
their own effects, memory only through `mem` and `wipe`. -/
inductive Eff where
  | mem (key : Nat) (bytes : List Byte)
  | wipe (key n : Nat)
  | tag (key : Nat) (full : Bool)
  | poison (key : Nat) (on : Bool)
  | reg (id n : Nat) (r : Reg)
  | pw (id : Nat) (v : BitVec 32)
  | pc (id : Nat) (a : BitVec 16)
  | thr (id : Nat) (f : Thread → Thread)
  | place (id : Nat) (t : Thread)
  | clear (id : Nat)
  | core (k : Nat) (f : Core → Core)
  | die (d : Nat) (f : Die → Die)
  | clock (f : Clock → Clock)
  | pkg (f : Pkg → Pkg)

/-- The thread of a slot; an empty slot gives a thread of default fields. -/
def State.thread (s : State) (id : Nat) : Thread := FMap.get {} s.threads id
def State.coreOf (s : State) (k : Nat) : Core := FMap.get {} s.cores k
def State.dieOf (s : State) (d : Nat) : Die := FMap.get {} s.dies d
/-- Whether a slot holds a thread (03 R41). -/
def State.occupied (s : State) (id : Nat) : Bool := (FMap.get? s.threads id).isSome

/-- A change of the thread of a slot; an empty slot stays empty. -/
def State.modThread (s : State) (id : Nat) (f : Thread → Thread) : State :=
  match FMap.get? s.threads id with
  | some t => { s with threads := FMap.set s.threads id (f t) }
  | none => s

/-- The effect of one Eff. -/
def Eff.apply : Eff → State → State
  | .mem key bytes, s => { s with mem := Memory.writeList s.mem key bytes }
  | .wipe key n, s => { s with
      mem := Memory.wipe s.mem key n,
      empties := s.empties.filter fun a => a < key || key + n ≤ a,
      poisons := s.poisons.filter fun a => a < key || key + n ≤ a }
  | .tag key full, s => { s with empties := NSet.put s.empties key (!full) }
  | .poison key on, s => { s with poisons := NSet.put s.poisons key on }
  | .reg id n r, s => s.modThread id fun t => { t with regs := FMap.set t.regs n r }
  | .pw id v, s => s.modThread id fun t => { t with pw := pwNorm v }
  | .pc id a, s => s.modThread id fun t => { t with pc := pcNorm a }
  | .thr id f, s => s.modThread id fun t => { f t with pw := t.pw, pc := t.pc }
  | .place id t, s => { s with threads := FMap.set s.threads id { t with pw := pwNorm t.pw, pc := pcNorm t.pc } }
  | .clear id, s => { s with threads := FMap.erase s.threads id }
  | .core k f, s => { s with cores := FMap.set s.cores k (f (s.coreOf k)) }
  | .die d f, s => { s with dies := FMap.set s.dies d (f (s.dieOf d)) }
  | .clock f, s => { s with clock := f s.clock }
  | .pkg f, s => { s with pkg := f s.pkg }

/-- Effects applied in order. -/
def applyAll : List Eff → State → State
  | [], s => s
  | e :: es, s => applyAll es (e.apply s)

/-! ## Meanings -/

/-- How a meaning ends before its effect: the instruction waits (and whether the wait counts against WLIM, 03 R44), keeping
only the registrations given; it traps (00 R6, 22 R323), keeping only the counts given; or the model stops. -/
inductive Stop where
  | wait (counts : Bool) (keep : List Eff)
  | trap (cause : Nat) (value : Word) (keep : List Eff)
  /-- TRAP, SCALL and HCALL: the trap names the word after the instruction (22 R323) -/
  | call (cause : Nat) (value : Word)
  | fault (f : Fault)
  | refuse (r : Refusal)

/-- The state as it stands in the middle of a meaning, and the effects so far, newest first. -/
structure Log where
  cur : State
  effs : List Eff

/-- A meaning: it reads the state, emits effects, and may end early. A meaning that ends early has no effect. -/
abbrev M := StateT Log (Except Stop)

def getS : M State := do return (← get).cur

def emit (e : Eff) : M Unit := modify fun l => { cur := e.apply l.cur, effs := e :: l.effs }

def emitAll : List Eff → M Unit
  | [] => pure ()
  | e :: es => do emit e; emitAll es

def stop {α : Type} (e : Stop) : M α := throw e

/-- The result and the effects of a meaning in a state. -/
def M.eval {α : Type} (m : M α) (s : State) : Except Stop (α × List Eff) :=
  match StateT.run m { cur := s, effs := [] } with
  | .ok (a, l) => .ok (a, l.effs.reverse)
  | .error e => .error e

def trap {α : Type} (cause : Nat) (value : Word := 0) : M α := stop (.trap cause value [])
def wait {α : Type} (counts : Bool) : M α := stop (.wait counts [])

/-- `check p cause` traps unless p holds. -/
def check (p : Bool) (cause : Nat) (value : Word := 0) : M Unit := if p then pure () else trap cause value

abbrev Out := Host.Outcome State Fault Refusal

/-- An event of the package: its effects, all of them or, where it cannot happen, none. -/
def event (m : M Unit) (s : State) : Out :=
  match m.eval s with
  | .ok (_, es) => .next (applyAll es s)
  | .error (.fault f) => .fault f
  | .error (.refuse r) => .refused r
  | .error _ => .next s

/-! ## Cause codes (22 R323) -/

namespace Cause
def illegalInstruction : Nat := 0x01
def illegalOperand : Nat := 0x02
def emptyOperand : Nat := 0x03
def waitLimit : Nat := 0x04
def segmentLimit : Nat := 0x05
def segmentRights : Nat := 0x06
def addressForm : Nat := 0x07
def misaligned : Nat := 0x08
def fetchFault : Nat := 0x09
def notPresent : Nat := 0x0A
def protection : Nat := 0x0B
def poisoned : Nat := 0x0C
def neighbourSealed : Nat := 0x0D
def conversion : Nat := 0x0E
def integrand : Nat := 0x0F
def increment : Nat := 0x10
def geometry : Nat := 0x11
def barrierBroken : Nat := 0x12
def nesting : Nat := 0x13
def weightStore : Nat := 0x14
def privileged : Nat := 0x15
def linkTimeout : Nat := 0x16
def trapCall : Nat := 0x18
def systemCall : Nat := 0x19
def hypervisorCall : Nat := 0x1A
def transfer : Nat := 0x20
end Cause

/-! ## The calendar -/

/-- Due events stand in the order in which they come. -/
def insertDue (d : Due) : List Due → List Due
  | [] => [d]
  | e :: es => if d.at_ < e.at_ then d :: e :: es else e :: insertDue d es

/-- An event made due after a number of cycles. -/
def Clock.plan (c : Clock) (delay : Nat) (act : Instr) : Clock :=
  { c with seq := c.seq + 1, events := insertDue { at_ := c.now + delay, seq := c.seq, act := act } c.events }

/-- The last 256 flits that a port keeps for a retry (25 R378). -/
def keepFlit (q : LinkPort) (p : FlitPayload) : LinkPort :=
  let xs := q.sent ++ [{ seq := q.txSeq, crcOk := true, payload := p }]
  { q with sent := xs.drop (xs.length - 256), txSeq := q.txSeq + 1 }

def plan (delay : Nat) (act : Instr) : M Unit := emit (.clock fun c => c.plan delay act)

/-- The next free value (00 R5). -/
def free : M Word := do
  let s ← getS
  emit (.clock fun c => { c with freeCount := c.freeCount + 1 })
  return Config.freeValue s.clock.freeCount

/-! ## Access to one thread, core, die -/

def thr (id : Nat) (f : Thread → Thread) : M Unit := emit (.thr id f)
def onCore (k : Nat) (f : Core → Core) : M Unit := emit (.core k f)
def onDie (d : Nat) (f : Die → Die) : M Unit := emit (.die d f)
def onPkg (f : Pkg → Pkg) : M Unit := emit (.pkg f)
def getT (id : Nat) : M Thread := do return (← getS).thread id
def getC (k : Nat) : M Core := do return (← getS).coreOf k
def getD (d : Nat) : M Die := do return (← getS).dieOf d

/-- The thread whose word is executed. -/
def me : M Nat := do let s ← getS; return tidOf s.clock.core s.clock.slot
def myCore : M Nat := do return (← getS).clock.core
def mySlot : M Nat := do return (← getS).clock.slot
def self : M Thread := do getT (← me)
def now : M Nat := do return (← getS).clock.now

/-- A flit sent through a port of the package, 4 * die + port (25 R378, R379). -/
def sendFlit (port : Nat) (p : FlitPayload) : M Unit := do
  onPkg fun q => { q with outbox := q.outbox ++ [.flit port p] }
  onDie (port / 4) fun x => { x with ports := FMap.set x.ports (port % 4) (keepFlit (FMap.get {} x.ports (port % 4)) p) }

/-- An error count of a core goes up by one, saturating (25 R383). -/
def countErr (k i : Nat) : M Unit :=
  onCore k fun c => { c with errs := FMap.set c.errs i (min (2 ^ 32 - 1) (FMap.get 0 c.errs i + 1)) }

/-- Events of a source of the event counters (25 R384) in this cycle; cores without counters in use keep no tally. -/
def Core.tallyAdd (c : Core) (src n : Nat) (u : Bool) : Core :=
  if c.evs.isEmpty then c
  else { c with tally := FMap.set c.tally src (FMap.get 0 c.tally src + n),
                tallyU := if u then FMap.set c.tallyU src (FMap.get 0 c.tallyU src + n) else c.tallyU }

def count (k src : Nat) (u : Bool := true) (n : Nat := 1) : M Unit := onCore k fun c => c.tallyAdd src n u

/-- Flags raised by a thread (06 R113), seen at once by the flag tree of its cluster (06 R114). -/
def raiseFlags (id : Nat) (f : BitVec 5) : M Unit := do
  let k := id / 16
  if f = 0 then pure ()
  else
    thr id fun t => { t with fflags := t.fflags ||| f }
    let mark (b : Nat) : M Unit :=
      onCore (clusterCore (dieOf k) (clusterOf k)) fun c => { c with clflags := c.clflags ||| BitVec.ofNat 64 (2 ^ b) ||| f.setWidth 64 }
    match kindOf k with
    | .compute => mark (8 + rowOf k % 4 * 4 + colOf k % 4)
    | .cluster => mark 24
    | _ => pure ()

/-! ## Registers of a thread (03 R42, R46) -/

/-- The place of register s0 to s31 in the current window. -/
def Thread.place (t : Thread) (c : Nat) : Nat := if c < 8 then c else 8 + 16 * t.depth + (c - 8)

def Thread.sreg (t : Thread) (c : Nat) : Reg := FMap.get {} t.regs (t.place c)

/-- Version n at distance k of the version file (04 R62). -/
def Thread.version (t : Thread) (n k : Nat) : Reg := FMap.get {} t.vers (8 * n + k)

/-- The thread that owns the control registers, level, segments and monitors: an iteration's issuing thread (04 R66). -/
def State.control (s : State) (id : Nat) : Nat :=
  match (s.thread id).iter with
  | some it => tidOf (id / 16) it.owner
  | none => id

def control : M Nat := do return (← getS).control (← me)
def controlT : M Thread := do getT (← control)

/-- The ring set of an iteration, or the loop that still waits for one (22 R331). -/
def State.ringOf (s : State) (id : Nat) : Option (IterCtx × Ring) :=
  match (s.thread id).iter with
  | none => none
  | some it =>
    match FMap.get? (s.coreOf (id / 16)).rings it.ring with
    | some r => some (it, r)
    | none => (s.thread id).rebind.map fun r => (it, r)

def ringOf (id : Nat) : M (Option (IterCtx × Ring)) := do return (← getS).ringOf id

/-- A bound ring set changed. -/
def onRing (k ri : Nat) (f : Ring → Ring) : M Unit :=
  onCore k fun c =>
    match FMap.get? c.rings ri with
    | some r => { c with rings := FMap.set c.rings ri (f r) }
    | none => c

def inIteration : M Bool := do return (← self).iter.isSome
def inFurrow : M Bool := do return (← self).col.isSome
/-- A copy of a stream word in a column other than the head's (04 R82). -/
def inCopy : M Bool := do
  match (← self).col with
  | some c => return c.j != 0 && !c.inHandler
  | none => return false

/-- An instruction of 04 R71 waits until its iteration is the oldest; the wait does not count. -/
def waitOldest : M Unit := do
  match ← ringOf (← me) with
  | some (it, r) => if it.idx = r.oldest then pure () else wait false
  | none => pure ()

/-! ## Words of memory -/

def readByte (key : Nat) : M Byte := do return Memory.read (← getS).mem key
def readBytes (key n : Nat) : M (List Byte) := do return Memory.readList (← getS).mem key n
def readLe (key n : Nat) : M Nat := do return leValue (← readBytes key n)
/-- The doubleword at a key. -/
def readDw (key : Nat) : M Word := do return BitVec.ofNat 64 (← readLe key 8)
def dwKey (key : Nat) : Nat := key / 8 * 8

/-! ## Claimed destinations and registrations -/

/-- What a destination gives up when its value is on the way: the register is empty, the push has its credit. -/
def claim (id : Nat) (d : Dest) : M Unit := do
  match d with
  | .none => pure ()
  | .reg n =>
    let t ← getT id
    emit (.reg id n { val := (FMap.get {} t.regs n).val, full := false })
  | .version n =>
    thr id fun t =>
      match t.iter with
      | some it => { t with iter := some { it with written := FMap.set it.written n { val := 0, full := false } } }
      | none => { t with vers := FMap.set t.vers (8 * n) { val := (t.version n 0).val, full := false } }
  | .link dir =>
    onCore (id / 16) fun c => { c with credits := FMap.set c.credits dir.idx (FMap.get 32 c.credits dir.idx - 1) }

/-- A claim taken back: the destination is as it was before its producer issued (03 R45). -/
def unclaim (id : Nat) (d : Dest) : M Unit := do
  match d with
  | .none => pure ()
  | .reg n =>
    let t ← getT id
    emit (.reg id n { val := (FMap.get {} t.regs n).val, full := true })
  | .version n =>
    thr id fun t =>
      match t.iter with
      | some it => { t with iter := some { it with written := FMap.erase it.written n } }
      | none => { t with vers := FMap.set t.vers (8 * n) { val := (t.version n 0).val, full := true } }
  | .link dir =>
    onCore (id / 16) fun c => { c with credits := FMap.set c.credits dir.idx (FMap.get 32 c.credits dir.idx + 1) }

/-- The link words that an instruction has popped are gone: their room returns to the neighbour, and a forwarded word leaves (04 R76, R77). -/
def payLent (id : Nat) : List (Nat × Word × Bool) → M Unit
  | [] => thr id fun t => { t with lent := [] }
  | (i, w, fwd) :: ps => do
    let k := id / 16
    let d := Dir.ofIdx i
    plan (linkLatency k d) (.linkCreditReturn (neighbour k d) d.opp)
    if fwd then plan (linkLatency k d.opp) (.linkWordArrival (neighbour k d.opp) d w) else pure ()
    payLent id ps

def pay (id : Nat) : M Unit := do
  let ps := (← getT id).lent
  if ps.isEmpty then pure () else payLent id ps

/-- The link words of an instruction that traps or is withdrawn stand at the heads of their queues again (04 R78). -/
def giveBack (id : Nat) : M Unit := do
  let ps := (← getT id).lent
  if ps.isEmpty then pure ()
  else
    onCore (id / 16) fun c => ps.foldr (fun (i, w, fwd) c => { c with
      links := FMap.set c.links i (w :: FMap.get [] c.links i),
      credits := if fwd then FMap.set c.credits (Dir.ofIdx i).opp.idx (FMap.get 32 c.credits (Dir.ofIdx i).opp.idx + 1) else c.credits }) c
    thr id fun t => { t with lent := [] }

/-- A thread waits for requests that it has sent to other packages. -/
def Thread.asking (t : Thread) : Bool := !t.gatherAt.isEmpty

/-- The MWAIT of a thread, wherever one of its iterations executes it, is to return (03 R61). -/
def wakeMwaitOf (s : State) (k id : Nat) : List Nat → M Unit
  | [] => pure ()
  | sl :: sls => do
    match (s.thread (tidOf k sl)).status with
    | .parked .mwait _ => if s.control (tidOf k sl) = id then plan 0 (.mwaitWake k sl) else pure ()
    | _ => pure ()
    wakeMwaitOf s k id sls

def wakeMwait (id : Nat) : M Unit := do wakeMwaitOf (← getS) (id / 16) id (List.range 16)

/-! ## Contexts, supervisors and events (22 R322 to R326, 23 R334, 24 R359) -/

/-- The bound prefix or nothing: a trap names the prefix's address (10 R184). -/
def Thread.faultPc (t : Thread) : BitVec 16 :=
  match t.bound with
  | .none => t.pc
  | _ => t.pc - 4#16

def Level.code : Level → Nat
  | .u => 0 | .s => 1 | .h => 2

def Level.ofCode (n : Nat) : Level := if n = 0 then .u else if n = 1 then .s else .h

/-- The address of doubleword `off` of the entry of a context in the table of a die (23 R334). -/
def ctxKey (d ctx off : Nat) : Nat := hbmKey d (256 * ctx + off)

/-- Key of a table named by a doubleword in the HBM frame layout (23 R340). -/
def frameKey (w : Word) : Nat := hbmKey (bits w 39 37) (bits w 36 0)

/-- A registered context has V set and its own number (23 R334). -/
def ctxValid (s : State) (d ctx : Nat) : Bool :=
  let w := BitVec.ofNat 64 (leValue (Memory.readList s.mem (ctxKey d ctx 0) 8))
  bit w 63 && bits w 15 0 = ctx

def memDw (s : State) (key : Nat) : Word := BitVec.ofNat 64 (leValue (Memory.readList s.mem key 8))

/-- The core-table entry of logical core n of a context, by the table of a die (24 R359); none outside the table. -/
def coreEntry (s : State) (d ctx n : Nat) : Option Word :=
  if n < bits (memDw s (ctxKey d ctx 0xA8)) 23 0 then
    let e := memDw s (frameKey (memDw s (ctxKey d ctx 0xA0)) + 8 * n)
    if bit e 63 then some e else none
  else none

/-- The core of this package that an entry names. -/
def entryCore (e : Word) : Option Nat := coreOfKind (bits e 47 45) (bits e 11 0)
/-- The package an entry names, and whether the core is leaving (24 R359, R362). -/
def entryPkg (e : Word) : Nat := bits e 57 48
def entryLeaving (e : Word) : Bool := bit e 62

/-- The partition of a context on a die (23 R334). -/
def ctxPart (s : State) (d ctx : Nat) : Nat := bits (memDw s (ctxKey d ctx 0)) 47 32

/-- The logical number of a core under a context, by the core table of a die; none when the table does not name it. -/
def logicalOf (s : State) (d ctx core : Nat) : Option Nat :=
  let ctn := bits (memDw s (ctxKey d ctx 0xA8)) 23 0
  (List.range ctn).find? fun n =>
    match coreEntry s d ctx n with
    | some e => entryPkg e = s.pkg.number && entryCore e = some core
    | none => false

/-- The supervisor of a thread (22 R325): level, context and core. None: an H thread. -/
def supervisor (s : State) (lv : Level) (ctx k : Nat) : Option Nat :=
  match lv with
  | .h => none
  | .s => some (3808 + 4 * dieOf k)
  | .u =>
    match kindOf k with
    | .compute | .cluster => some (clusterCore (dieOf k) (clusterOf k))
    | _ =>
      let n := bits (memDw s (ctxKey (dieOf k) ctx 0x18)) 23 0
      let e := (coreEntry s (dieOf k) ctx n).filter fun e => entryPkg e = s.pkg.number
      match e.bind entryCore with
      | some c =>
        if kindOf c = .cluster &&
            FMap.get 0 (s.dieOf (dieOf c)).clpart (clusterOf c) =
              (BitVec.ofNat 64 (2 ^ 63 + ctxPart s (dieOf k) ctx)) then some c
        else some (3808 + 4 * dieOf k)
      | none => some (3808 + 4 * dieOf k)

/-- A trap-queue record of a thread (22 R326). -/
def trapRecord (t : Thread) (id cause : Nat) (async : Bool) (epc : BitVec 16) (value : Word) : TrapRecord :=
  { sender := some (id / 16, id % 16)
    w0 := BitVec.ofNat 64 (cause * 2 ^ 56 + b2n async * 2 ^ 55 + t.level.code * 2 ^ 50 + t.cid * 2 ^ 24 + id % 16 * 2 ^ 20 + t.ctx)
    w1 := BitVec.ofNat 64 epc.toNat
    w2 := value
    w3 := (t.sreg 0).val }

/-- Whether UCTL delegates a cause to the thread (22 R322): never 0x00, 0x09, 0x15, 0x17, 0x19, 0x1A. -/
def delegated (uctl : Word) (cause : Nat) : Bool :=
  cause < 32 && bit uctl (32 + cause) && !([0x00, 0x09, 0x15, 0x17, 0x19, 0x1A].contains cause)

/-- Cause of an asynchronous event as the field of IPEND that holds it (22 R324). -/
def Pending.has (p : Pending) (cause : Nat) : Bool :=
  if cause = Cause.barrierBroken then p.bb.isSome
  else if cause = Cause.integrand then p.io.isSome
  else p.ic.isSome

def Pending.put (p : Pending) (cause : Nat) (v : Option Word) (core : Nat := 0) : Pending :=
  let p := { p with cores := if v.isSome then FMap.set p.cores cause core else FMap.erase p.cores cause }
  if cause = Cause.barrierBroken then { p with bb := v }
  else if cause = Cause.integrand then { p with io := v }
  else { p with ic := v }

/-- Whether some event is pending. -/
def Pending.some (p : Pending) : Bool := p.bb.isSome || p.io.isSome || p.ic.isSome || !p.xc.isEmpty

/-- The offset at which a thread would go on: its next word, or that word's prefix (10 R184). -/
def Thread.resumePc (t : Thread) : BitVec 16 := t.faultPc

/-- An asynchronous event that core k raises, made pending for its owner (22 R323), for the thread or upward; it is delivered at an instruction
boundary. An owner that has left gives `none`: the record, for the supervisor of core k, then names core k by its logical number in the owner's
context, and the slot in which the owner was. -/
def deliverAsync (owner : Option (Nat × Nat)) (k slot ctx cause : Nat) (value : Word) : M Unit := do
  let s ← getS
  match owner with
  | some (ok, ot) =>
    let id := tidOf ok ot
    let t := s.thread id
    if !delegated t.uctl cause || t.pend.has cause then thr id fun t => { t with pendUp := t.pendUp ++ [(cause, value, k)] }
    else thr id fun t => { t with pend := t.pend.put cause (some value) k }
    wakeMwait id
  | none =>
    let cid := (logicalOf s (dieOf k) ctx k).getD 0
    let r : TrapRecord :=
      { sender := none
        w0 := BitVec.ofNat 64 (cause * 2 ^ 56 + 2 ^ 55 + cid * 2 ^ 24 + slot * 2 ^ 20 + ctx)
        w1 := 0, w2 := value, w3 := 0 }
    match supervisor s .u ctx k with
    | some c => plan 0 (.trapQueueRecord c r)
    | none => pure ()

/-! ## Results -/

/-- One bit of a predicate word replaced. -/
def setBit (v : BitVec 32) (i : Nat) (on : Bool) : BitVec 32 :=
  if on then v ||| (1#32 <<< i) else v &&& ~~~(1#32 <<< i)

/-- A value put at a destination of a thread, full. A link destination has its credit taken already. -/
def fill (id : Nat) (d : Dest) (v : Word) : M Unit := do
  match d with
  | .none => pure ()
  | .reg n => emit (.reg id n { val := v, full := true })
  | .version n =>
    thr id fun t =>
      match t.iter with
      | some it => { t with iter := some { it with written := FMap.set it.written n { val := v, full := true } } }
      | none => { t with vers := FMap.set t.vers (8 * n) { val := v, full := true } }
  | .link dir => plan (linkLatency (id / 16) dir) (.linkWordArrival (neighbour (id / 16) dir) dir.opp v)

/-- A value on its way to a destination that is claimed already. -/
def expect (id : Nat) (d : Dest) (v : Word) (delay access : Nat) (isFloat : Bool := false) (flags : BitVec 5 := 0) :
    M Unit := do
  let t ← getT id
  thr id fun t => { t with
    producers := FMap.set t.producers t.nextProducer
      { dest := d, value := v, access := access, isFloat := isFloat, flags := flags },
    nextProducer := t.nextProducer + 1 }
  plan delay (.producerResultArrival (id / 16) (id % 16) t.nextProducer)

end Sys2Proof.Machine
end

