-- ==== Sys2Proof/Machine/Home.lean ====
section
/-! DEFINITION. What the home of a word does: reads and writes with poison, tags and ECC (05 R91, R92), monitors (03 R60), full/empty
waiters (12 R217), barriers (12 R226 to R229) and cuttings (12 R221). -/

namespace Sys2Proof.Machine

/-- Whether a key lies in a local store, HBM, a weight store, or host memory. -/
def isLs (key : Nat) : Bool := key < 2 ^ 40
def isHbm (key : Nat) : Bool := 2 ^ 40 ≤ key && key < 2 ^ 42
def isWs (key : Nat) : Bool := 2 ^ 42 ≤ key && key < 2 ^ 60

/-- The core that serves a word: the owner of its local store, the memory-side core of its channel (05 R98), or, for a weight
store, die control core 0 of its die. -/
def homeOf (key : Nat) : Nat :=
  if isLs key then key / 0x200000
  else if isHbm key then 3840 + (key - 2 ^ 40) / 2 ^ 37 * 64 + (key - 2 ^ 40) % 2 ^ 37 / 256 % 64
  else 3808 + 4 * ((key - 2 ^ 42) / 2 ^ 30 % 8)

/-! ## Poison, tags and ECC -/

/-- The doublewords that n bytes from a key touch. -/
def touched (key n : Nat) : List Nat :=
  (List.range ((key + n + 7) / 8 - key / 8)).map fun i => 8 * (key / 8 + i)

def State.poisonAt (s : State) (key : Nat) : Bool := s.poisons.contains (dwKey key)
def State.fullAt (s : State) (key : Nat) : Bool := !(s.empties.contains (dwKey key))

/-- An ECC error of a word is found by a read of it (05 R91, 25 R365): corrected and counted; or the word is poisoned with
undefined data, counted. HBM and weight store keep their word. -/
def findEcc (key : Nat) : M Unit := do
  let s ← getS
  match FMap.get? s.pkg.eccBad key with
  | none => pure ()
  | some false =>
    onPkg fun p => { p with eccBad := FMap.erase p.eccBad key }
    countErr (homeOf key) 0
    count (homeOf key) 21
  | some true =>
    countErr (homeOf key) 1
    if isLs key then
      onPkg fun p => { p with eccBad := FMap.erase p.eccBad key }
      let v ← free
      emit (.mem key (leBytes 8 v.toNat))
      emit (.poison key true)
    else pure ()

def findEccs : List Nat → M Unit
  | [] => pure ()
  | a :: as => do findEcc a; findEccs as

/-- Whether bytes come with poison: a poison bit of local store, or an uncorrectable word elsewhere (05 R92, R98). -/
def poisonedAt (key n : Nat) : M Bool := do
  let s ← getS
  return (touched key n).any fun a => s.poisonAt a || (!isLs a && FMap.get false s.pkg.eccBad a)

/-- The effects of a meaning, kept by a trap. -/
def effectsOf (m : M Unit) : M (List Eff) := do
  match m.eval (← getS) with
  | .ok (_, es) => return es
  | .error _ => return []

/-- A read of n bytes that meets poison traps, precisely; the errors it found stay counted (05 R91, R92). -/
def refusePoison (key n : Nat) (value : Word) : M Unit := do
  if ← poisonedAt key n then
    let keep ← effectsOf (findEccs (touched key n))
    stop (.trap Cause.poisoned value keep)
  else
    let bad := (← getS).pkg.eccBad
    if (touched key n).any fun a => isLs a && FMap.get false bad a then
      let keep ← effectsOf (findEccs (touched key n))
      stop (.trap Cause.poisoned value keep)
    else findEccs (touched key n)

/-! ## Compressed blocks (23 R343) -/

/-- The 2-bit state of a block. -/
def cmpState (mk mb : Nat) : M Nat := do return bits (← readByte mk) (mb + 1) mb

/-- The plain bytes of a block, and whether it is marked poison. -/
def readBlock (key : Nat) (cmp : Nat × Nat × Nat) : M (List Byte × Bool) := do
  let (_, mk, mb) := cmp
  let st ← cmpState mk mb
  if st = 0 then return (← readBytes key 256, false)
  else if st = 1 then return (List.replicate 256 0, false)
  else if st = 2 && cmp.1 = 2 then
    let even ← readBytes key 128
    let odd ← readByte (key + 128)
    return (even.flatMap fun b => [b, odd], false)
  else return (List.replicate 256 0, true)

/-- The doubleword at a key, plain where its block is compressed. -/
def wordAt (key : Nat) (cmp : Option (Nat × Nat × Nat)) : M Word := do
  match cmp with
  | none => readDw key
  | some c =>
    let (bs, _) ← readBlock (key / 256 * 256) c
    return BitVec.ofNat 64 (leValue ((bs.drop (key % 256)).take 8))

/-! ## Monitors -/

/-- A write to any byte of a line latches the monitors registered on it (03 R60); a parked MWAIT wakes (03 R61). -/
def latchOne (m : MonReg) : M Unit := do
  match m.remote, m.away with
  | some (port, n), _ => sendFlit port (.notice n)
  | none, some _ =>
    onCore (homeOf m.line) fun c => { c with monRegs := c.monRegs.map fun x => if x = m then { x with hit := true } else x }
  | none, none =>
    let id := tidOf m.core m.slot
    thr id fun t =>
      match FMap.get? t.monitors m.index with
      | some mon => { t with monitors := FMap.set t.monitors m.index { mon with latched := true } }
      | none => t
    wakeMwait id

def latchAll : List MonReg → M Unit
  | [] => pure ()
  | m :: ms => do latchOne m; latchAll ms

def latch (key n : Nat) : M Unit := do
  let s ← getS
  latchAll ((s.coreOf (homeOf key)).monRegs.filter fun m => m.line < key + n && key < m.line + 64)

/-! ## Waiters -/

/-- A change of the twin state of the thread that was last known in a slot, by its task and work identifier: it may have been saved. -/
def twinEffs (core slot task : Nat) (wid : Word) (f : Twin → Twin) : List Eff :=
  [.thr (tidOf core slot) fun t =>
     if t.tcbKey = task then { t with twin := t.twin.map fun q => if q.wid = wid then f q else q } else t,
   .pkg fun p => { p with saved := p.saved.map fun x =>
     (x.1, if x.2.core = core && x.2.slot = slot && x.2.tcbKey = task
       then { x.2 with twin := x.2.twin.map fun q => if q.wid = wid then f q else q } else x.2) }]

/-- Copy 0 of a twinned thread has performed its present item: the reply goes to copy 1 (25 R373). -/
def twinAnswer (own : Nat) (vs : List Word) (bad : Bool) : M Unit := do
  let id := (← getS).control own
  match (← getT id).twin with
  | some tw =>
    if tw.copy = 0 then
      emitAll (twinEffs tw.peerCore tw.peerSlot (← getT id).tcbKey tw.wid fun q => { q with
        answers := FMap.set q.answers tw.item vs, bad := NSet.put q.bad tw.item bad })
      thr id fun t => { t with twin := t.twin.map fun q => { q with
        item := q.item + 1, hashes := FMap.erase q.hashes q.item, bad := NSet.erase q.bad q.item } }
    else pure ()
  | none => pure ()

/-- A response to a request of another package, through the port it came by; one in error gives a cause. -/
def respond (port n : Nat) (v : Word) (poison : Bool) : M Unit :=
  sendFlit port (.response (n % 2 ^ 17 / 16) (n % 16) n v poison)

/-- A registered operation is served: its value comes to its thread, which goes on at the next word (12 R217). -/
def completeWaiter (w : Waiter) (v : Word) (st : Option Bool) : M Unit := do
 match w.remote with
 | some (port, n) => respond port n v false
 | none =>
  let id := tidOf w.core w.slot
  twinAnswer id [v] false
  let t ← getT id
  let n ← now
  match st with
  | some b => emit (.pw id (setBit t.pw 18 b))
  | none => pure ()
  match w.dest with
  | .none => pure ()
  | d =>
    claim id d
    expect id d v (if homeOf w.key = w.core then 0 else Config.transit (homeOf w.key) w.core) 1
  thr id fun t => { t with status := .ready, bound := .none, lastIssue := some n }
  emit (.pc id (t.pc + 4#16))

def dropWaiter (home : Nat) (w : Waiter) : M Unit :=
  onCore home fun c => { c with waiters := c.waiters.filter (· != w) }

/-- Barrier status word (12 R227). -/
def barStatus (word : Word) (stat : Nat) : Word := BitVec.ofNat 64 (bits word 63 40 * 2 ^ 40 + stat)

/-- Every BARW that waits on a word ends with a status (12 R228, R229). -/
def wakeBarrier (home : Nat) (word : Word) (stat : Nat) : List Waiter → M Unit
  | [] => pure ()
  | w :: ws => do
    if w.polls then
      onCore home fun c => { c with waiters := c.waiters.map fun x => if x = w then { x with result := some (barStatus word stat) } else x }
    else
      dropWaiter home w
      completeWaiter w (barStatus word stat) (some (decide (2 ≤ stat)))
    wakeBarrier home word stat ws

def barWaiters (s : State) (key : Nat) : List Waiter :=
  (s.coreOf (homeOf key)).waiters.filter fun w => w.key = key && w.kind = .barw && w.result.isNone

/-- A write to an armed barrier that is no barrier operation breaks it (12 R229). -/
def breakOne (b : Barrier) : M Unit := do
  let home := homeOf b.key
  onCore home fun c => { c with barriers := c.barriers.map fun x => if x.key = b.key then { x with broken := true } else x }
  wakeBarrier home (← wordAt b.key b.cmp) 3 (barWaiters (← getS) b.key)
  match b.broken, b.remote with
  | true, _ => pure ()
  | false, some (port, n) => sendFlit port (.notice n)
  | false, none => deliverAsync b.owner home b.ownerSlot b.ctx Cause.barrierBroken b.addr

def breakAll : List Barrier → M Unit
  | [] => pure ()
  | b :: bs => do breakOne b; breakAll bs

/-- What a write of n bytes at a key brings about beside its bytes. -/
def wrote (key n : Nat) : M Unit := do
  latch key n
  breakAll (((← getS).coreOf (homeOf key)).barriers.filter fun b => b.key < key + n && key < b.key + 8)

/-! ## Writes -/

/-- A doubleword that is written whole has no error in it any more (05 R91). -/
def forgetEcc (a : Nat) : M Unit := do
  if FMap.get? (← getS).pkg.eccBad a = none then pure ()
  else onPkg fun p => { p with eccBad := FMap.erase p.eccBad a }

/-- A doubleword that a write covers whole loses its poison (05 R92). -/
def clearPoison (key n : Nat) : List Nat → M Unit
  | [] => pure ()
  | a :: as => do
    if key ≤ a && a + 8 ≤ key + n then
      if isLs a then emit (.poison a false) else pure ()
      forgetEcc a
    else findEcc a
    clearPoison key n as

/-- A plain write of bytes at their home: poison as 05 R92, tags unchanged. -/
def storeBytes (key : Nat) (bs : List Byte) : M Unit := do
  clearPoison key bs.length (touched key bs.length)
  emit (.mem key bs)
  wrote key bs.length

/-- Doublewords that hardware writes whole: tagged, and clean of poison and errors. -/
def cleanWords (full : Bool) : List Nat → M Unit
  | [] => pure ()
  | a :: as => do emit (.tag a full); emit (.poison a false); forgetEcc a; cleanWords full as

/-! ## Full/empty operations (12 R215, R217) -/

/-- Whether a full/empty operation may proceed on a tag. -/
def tagAllows (kind : AccessKind) (full : Bool) : Bool :=
  match kind with
  | .ldf | .ldff => full
  | .stf => !full
  | _ => true

/-- The word and tag after a full/empty operation. -/
def fullEmptyAct (kind : AccessKind) (key : Nat) (data : Word) : M Word := do
  let v ← readDw key
  match kind with
  | .ldf => do emit (.tag key false); latch key 8
  | .stf => do
    emit (.mem key (leBytes 8 data.toNat))
    emit (.poison key false)
    emit (.tag key true)
    wrote key 8
  | _ => pure ()
  return v

/-- The oldest waiters that the tag allows are served in turn; each service may change the tag (12 R217). One that its thread tries again has its turn
when its thread comes to it. One that finds the word poisoned proceeds and traps (05 R92): its thread executes it again. Structural on a number of
waiters that is enough. -/
def serveWaiters (key : Nat) : Nat → M Unit
  | 0 => pure ()
  | n + 1 => do
    let s ← getS
    let home := homeOf key
    match (s.coreOf home).waiters.find? fun w => w.key = key && w.kind != .barw && tagAllows w.kind (s.fullAt key) with
    | none => pure ()
    | some w =>
      if w.polls then pure ()
      else
        dropWaiter home w
        if s.poisonAt key then
          match w.remote with
          | some (port, n) => respond port n (BitVec.ofNat 64 Cause.poisoned) true
          | none => thr (tidOf w.core w.slot) fun t => { t with status := .ready }
        else
          let v ← fullEmptyAct w.kind key w.data
          completeWaiter w v none
        serveWaiters key n

def serveAll (key : Nat) : M Unit := do
  serveWaiters key (((← getS).coreOf (homeOf key)).waiters.length)

def serveAllOf : List Nat → M Unit
  | [] => pure ()
  | key :: keys => do serveAll key; serveAllOf keys

/-- A write by the hardware of whole doublewords with a tag and poison 0. -/
def storeTagged (key : Nat) (ws : List Word) (full : Bool) : M Unit := do
  let as := (List.range ws.length).map fun i => key + 8 * i
  cleanWords full as
  emit (.mem key (ws.flatMap fun w => leBytes 8 w.toNat))
  wrote key (8 * ws.length)
  serveAllOf as

/-- A write by the hardware of whole doublewords, tagged full with poison 0 (03 R48, 05 R102, 22 R326). -/
def storeRecord (key : Nat) (ws : List Word) : M Unit := storeTagged key ws true

/-- Words of local stores that a copy has written are full (05 R91), and whoever waits for them is served. -/
def markFull : List Nat → M Unit
  | [] => pure ()
  | a :: as => do
    if isLs a then emit (.tag a true) else pure ()
    markFull as

def fullWords (as : List Nat) : M Unit := do
  markFull as
  serveAllOf as

/-! ## Operations given up -/

/-- A waiter is that of a thread of this package in a slot. -/
def Waiter.isOf (w : Waiter) (k t : Nat) : Bool := w.remote.isNone && w.core = k && w.slot = t

/-- The operations that a thread has registered anywhere are withdrawn, and those behind one whose turn it was are served: Wait Limit, interrupt, pre-emption, graft (12 R217). -/
def withdrawAt (k t : Nat) : List (Nat × Core) → M Unit
  | [] => pure ()
  | (h, c) :: cs => do
    match c.waiters.filter (·.isOf k t) with
    | [] => pure ()
    | ws =>
      onCore h fun c => { c with waiters := c.waiters.filter fun w => !(w.isOf k t) }
      serveAllOf (ws.map (·.key))
    withdrawAt k t cs

def withdraw (id : Nat) : M Unit := do
  let k := id / 16
  thr id fun t => { t with rsave := none, dhalt := false }
  withdrawAt k (id % 16) (← getS).cores
  match (← getC k).receivers.find? fun r => r.slot = id % 16 with
  | some _ =>
    onCore k fun c => { c with receivers := c.receivers.filter fun r => r.slot ≠ id % 16 }
    plan 0 (.glbUpdate k)
  | none => pure ()

/-- A parked instruction given up before it has had its effect: its registrations and its claim are taken back. -/
def release (id : Nat) : M Unit := do
  withdraw id
  giveBack id
  let t ← getT id
  unclaim id t.mwaitDst
  match t.status with
  | .parked .furrow _ => onPkg fun p => { p with furrows := p.furrows.filter fun f => f.1 ≠ id / 16 || f.2.started }
  | _ => pure ()
  thr id fun t => { t with
    mwaitDst := .none, mwaitToken := 0, held := [], recalled := none, col := t.col.map fun c => { c with mwaiting := false },
    outstanding := t.outstanding.filter fun p => (FMap.get? t.gatherAt p.1).isNone, gatherAt := [], gathered := 0, storing := [], sending := none }

/-! ## Atomics (12 R218, R220) -/

/-- New word and status of an atomic: old word, operand, implied operand. -/
def amoOf (fn : AmoFn) (old b bound : Word) : Word × Option Bool :=
  match fn with
  | .swap => (b, none)
  | .add => (old + b, none)
  | .and => (old &&& b, none)
  | .or => (old ||| b, none)
  | .xor => (old ^^^ b, none)
  | .min => (if old.toInt ≤ b.toInt then old else b, none)
  | .max => (if b.toInt ≤ old.toInt then old else b, none)
  | .minu => (if old.toNat ≤ b.toNat then old else b, none)
  | .maxu => (if b.toNat ≤ old.toNat then old else b, none)
  | .cas => if old = bound then (b, some false) else (old, some true)
  | .incw => (if b.toNat ≤ old.toNat then 0 else old + 1, none)
  | .faddb =>
    if old.toNat ≤ bound.toNat then (BitVec.ofNat 64 (min (old.toNat + b.toNat) bound.toNat), some false)
    else (old, some true)

/-- An atomic performed at its home: old word and status. -/
def performAmo (fn : AmoFn) (key : Nat) (b bound : Word) : M (Word × Option Bool) := do
  let old ← readDw key
  let (new, st) := amoOf fn old b bound
  emit (.mem key (leBytes 8 new.toNat))
  wrote key 8
  return (old, st)

/-! ## Monitors taken back -/

/-- Registrations of a thread's monitors taken back (12 R224). -/
def unregister (id : Nat) (index : Nat) : M Unit := do
  match FMap.get? (← getT id).monitors index with
  | none => pure ()
  | some mon =>
    match mon.away with
    | some (port, n) =>
      sendFlit port (.request { origin := 0, id := n, kind := .unmonitor, key := mon.line, size := 0, data := 0, bound := 0 })
    | none =>
      onCore (homeOf mon.line) fun c => { c with
        monRegs := c.monRegs.filter fun m => !(m.core = id / 16 && m.slot = id % 16 && m.index = index && m.away.isNone && m.remote.isNone) }
    thr id fun t => { t with monitors := FMap.erase t.monitors index }

def disarmAll (id : Nat) : M Unit := do
  unregister id 0; unregister id 1; unregister id 2; unregister id 3

end Sys2Proof.Machine
end

