-- ==== Sys2Proof/Machine/Ops.lean ====
section
/-! DEFINITION. Taking a trap: upward or in the thread, in an iteration as 04 R74 says, and the returns. -/

namespace Sys2Proof.Machine

/-! ## Trap entry (22 R323 to R325, 03 R45) -/

/-- The stream index that a column's trap names (04 R85): that of a word that still held the thread, or of a bound word's prefix (10 R184). -/
def Column.rewound (c : Column) (bound : Bool) : Column :=
  if !c.inHandler && (c.holding || bound) then { c with idx := c.idx - 1, holding := false } else c

def rewind (id : Nat) : M Unit :=
  thr id fun t => { t with col := t.col.map (·.rewound (t.bound != .none)) }

/-- Upward delivery proper (22 R325): the thread is held and its record goes to the supervisor. -/
def hold (id cause : Nat) (value : Word) (epc : BitVec 16) (async : Bool) : M Unit := do
  release id
  let s ← getS
  let t := s.thread id
  thr id fun t => { t with
    status := .parked .held none
    sepc := pcNorm epc
    scause := BitVec.ofNat 64 (b2n async * 2 ^ 63 + cause)
    sval := value
    bound := .none }
  let r := trapRecord t id cause async (pcNorm epc) value
  match supervisor s t.level t.ctx (id / 16) with
  | some k => plan 0 (.trapQueueRecord k r)
  | none => onPkg fun p => { p with outbox := p.outbox ++ [.held (id / 16) (id % 16) r] }

/-- Upward delivery (22 R325): at once, or when the outstanding producers have completed. -/
def upward (id cause : Nat) (value : Word) (epc : BitVec 16) (async : Bool) : M Unit := do
  rewind id
  release id
  let t ← getT id
  if t.producers.isEmpty && t.outstanding.isEmpty then hold id cause value epc async
  else thr id fun t => { t with status := .parked (.upward cause value epc async) none, bound := .none }

/-- A thread that went upward while its producers were outstanding is held once they are done (22 R325, 03 R45). -/
def settleUpward (id : Nat) : M Unit := do
  let t ← getT id
  match t.status with
  | .parked (.upward cause value epc async) _ =>
    if t.producers.isEmpty && t.outstanding.isEmpty then hold id cause value epc async else pure ()
  | _ => pure ()

/-- Entry of a handler in the thread (22 R323); its first instruction waits for the producers (03 R45). -/
def inThread (id cause : Nat) (value : Word) (epc : BitVec 16) (async : Bool) (handler : BitVec 16) : M Unit := do
  rewind id
  release id
  thr id fun t => { t with
    epc := pcNorm epc
    ecause := BitVec.ofNat 64 (b2n async * 2 ^ 63 + cause)
    evalue := value
    inh := true
    status := .ready
    bound := .none
    draining := !(t.producers.isEmpty && t.outstanding.isEmpty),
    annul := if t.col.isSome then 0 else t.annul,
    col := t.col.map fun c => { c with inHandler := true, annul := t.annul },
    iter := t.iter.map fun it => { it with inHandler := true } }
  emit (.pc id handler)

/-- Delivery of a synchronous trap (22 R323). -/
def deliverSync (id cause : Nat) (value : Word) (epc : BitVec 16) : M Unit := do
  let t ← getT id
  if delegated t.uctl cause && !t.inh then inThread id cause value epc false t.uih
  else upward id cause value epc false

/-! ## Iterations that trap (04 R74) -/

/-- Events that concern the thread of a slot and no other. -/
def forSlot (k t : Nat) (i : Instr) : Bool :=
  match i with
  | .producerResultArrival a b _ | .waitLimit a b _ | .spawnReply a b _ | .graftAccepted a b _ | .graftResend a b
  | .mwaitWake a b | .mwaitTimeout a b _ | .copyAccept a b | .nbmvAccept a b => a = k && b = t
  | _ => false

/-- A slot becomes empty; nothing that was due for its thread comes to the next one. -/
def emptySlot (id : Nat) : M Unit := do
  emit (.clear id)
  emit (.clock fun c => { c with events := c.events.filter fun e => !(forSlot (id / 16) (id % 16) e.act) })

/-- The slots of a loop other than one, emptied: their iterations are cancelled. -/
def dropSlots (k : Nat) (keep : Nat) : List Nat → M Unit
  | [] => pure ()
  | t :: ts => do
    if t = keep then pure () else emptySlot (tidOf k t)
    dropSlots k keep ts

/-- The iterations younger than i are cancelled (04 R73, R74): their slots hold nothing until the loop gives them up. Accesses of older iterations that
are still out stay with the issuing thread. -/
def cancelYounger (k i : Nat) : List Nat → M Unit
  | [] => pure ()
  | t :: ts => do
    let th ← getT (tidOf k t)
    match th.iter with
    | some it =>
      if it.idx > i then
        release (tidOf k t)
        thr (tidOf k t) fun th => { th with
          status := .parked .loopEnd none, iter := none, producers := [], bound := .none, annul := 0,
          outstanding := th.outstanding.filter fun p => p.2.iter ≠ some it.idx }
        count k 10
      else pure ()
    | none => pure ()
    cancelYounger k i ts

/-- One doubleword of a window stack copied as it stands: full, with its poison (03 R48, 04 R74). -/
def copyStackWord (src dst : Nat) : M Unit := do
  findEcc src
  let v ← readDw src
  let bad := (← getS).poisonAt src
  storeRecord dst [v]
  if bad then emit (.poison dst true) else pure ()

/-- Doublewords copied from one window stack to another in rising order. -/
def copyFrames (src dst : Nat) : Nat → M Unit
  | 0 => pure ()
  | n + 1 => do
    copyStackWord src dst
    copyFrames (src + 8) (dst + 8) n

/-- The resident frame of a thread at a depth, as it goes to the window stack (03 R48): from its register j on. -/
def spillFrame (id depth key : Nat) : Nat → M Unit
  | 0 => pure ()
  | i + 1 => do
    let t ← getT id
    let j := 15 - i
    storeRecord (key + 8 * j) [(FMap.get {} t.regs (8 + 16 * depth + j)).val]
    spillFrame id depth key i

/-- The n oldest resident frames of a thread spilled, oldest first (03 R47, 04 R74); one that has been spilled in part goes on where it stands. -/
def spillBelow (id : Nat) : Nat → M Unit
  | 0 => pure ()
  | n + 1 => do
    let t ← getT id
    let a := t.wsp.toNat - 128
    if t.wsp.toNat < 0x10080 then pure ()
    else
      spillFrame id t.wbase (lsKey (id / 16) a) 16
      thr id fun t => { t with wsp := BitVec.ofNat 64 a, wbase := t.wbase + 1, moved := none }
      spillBelow id n

/-- A thread at a lower depth, the frames that it had above that depth dropped from its window stack. -/
def Thread.dropFrames (t : Thread) (depth : Nat) : Thread :=
  { t with
    wsp := if depth < t.wbase then t.wsp + BitVec.ofNat 64 (128 * (t.wbase - depth)) else t.wsp,
    wbase := min t.wbase depth, depth := depth, moved := none, schedFill := none, schedSpill := none, spillSince := none,
    spawnWindows := t.spawnWindows.filter (· ≤ depth) }

/-- A register map with the entries of another put over it. -/
def mergeRegs (m : FMap Reg) : FMap Reg → FMap Reg
  | [] => m
  | (n, r) :: ps => mergeRegs (FMap.set m n r) ps

/-- Iteration i, now the oldest, moves its scalar state to the issuing slot (04 R74 step 4); its results have come. The frames that the issuing slot
holds below the loop's depth go to its window stack first, the copies stand below them. Answers the local-store address at which a frame did not fit,
if one did not. The other slots of the loop become empty. -/
def moveToIssuing (id : Nat) : M (Option Nat) := do
  match ← ringOf id with
  | none => return none
  | some (it, r) =>
    let k := id / 16
    let oid := tidOf k it.owner
    let h ← getT id
    let excess ← do
      if id = oid then pure none
      else
        thr oid (·.dropFrames r.snap.depth)
        let spilled := h.wbase - r.snap.depth
        if spilled ≠ 0 then spillBelow oid (r.snap.depth - (← getT oid).wbase) else pure ()
        let o ← getT oid
        let room := if o.wsp.toNat < 0x10000 then 0 else (o.wsp.toNat - 0x10000) / 128
        let fit := min spilled room
        let base := o.wsp.toNat - 128 * fit
        copyFrames (lsKey k (h.wsp.toNat + 128 * (spilled - fit))) (lsKey k base) (16 * fit)
        thr oid fun o => { o with
          regs := mergeRegs o.regs (h.regs.filter fun p => p.1 < 8 || 8 + 16 * r.snap.depth ≤ p.1)
          depth := h.depth
          wbase := if spilled = 0 then o.wbase else h.wbase
          wsp := BitVec.ofNat 64 base
          spawnWindows := o.spawnWindows ++ h.spawnWindows.filter (r.snap.depth < ·)
          rm := h.rm, fflags := h.fflags, bound := h.bound, annul := h.annul
          shape := h.shape, tiles := h.tiles, tileFree := h.tileFree, lastIssue := h.lastIssue
          iter := some it, status := h.status }
        emit (.pw oid h.pw)
        emit (.pc oid h.pc)
        pure (if fit = spilled then none else some ((base + 2 ^ 64 - 128) % 2 ^ 64))
    dropSlots k it.owner r.slots
    onRing k it.ring fun r => { r with stopped := true, slots := [it.owner] }
    return excess

/-- A synchronous trap inside iteration i (04 R74): delivered when i is oldest and, on a helper, its results have come, so that its whole state can move;
otherwise kept until then, younger iterations cancelled and no further iteration started. Where frames do not fit, the trap is Segment Limit (04 R74),
with the local-store address of the first frame left as its value (assumption 14). -/
def iterTrap (id cause : Nat) (value : Word) (epc : BitVec 16) : M Unit := do
  match ← ringOf id with
  | none => deliverSync id cause value epc
  | some (it, r) =>
    let k := id / 16
    release id
    onRing k it.ring fun r => { r with stopped := true }
    cancelYounger k it.idx r.slots
    if it.idx = r.oldest && (id % 16 = it.owner || (← getT id).producers.isEmpty) then
      let excess ← moveToIssuing id
      let oid := tidOf k it.owner
      match excess with
      | none => deliverSync oid cause value epc
      | some a => deliverSync oid Cause.segmentLimit (BitVec.ofNat 64 a) epc
    else
      thr id fun t => { t with status := .waiting none, bound := .none, iter := t.iter.map fun it => { it with trapped := some (cause, value, epc) } }

/-- Taking a synchronous trap: the one entry for every instruction. -/
def takeTrap (id cause : Nat) (value : Word) (epc : BitVec 16) : M Unit := do
  let n ← now
  thr id fun t => { t with lastIssue := some n }
  iterTrap id cause value epc

/-- The trap that an iteration keeps (04 R74) is taken once the iteration is oldest and its results have come. -/
def settleTrapped (id : Nat) : M Unit := do
  match (← getT id).iter.bind (·.trapped), ← ringOf id with
  | some (cause, value, epc), some (it, r) =>
    if it.idx = r.oldest && (← getT id).producers.isEmpty then
      thr id fun t => { t with iter := t.iter.map fun it => { it with trapped := none } }
      takeTrap id cause value epc
    else pure ()
  | _, _ => pure ()

/-- A thread held to its instruction goes on at the next word; a column of a furrow waits for its next step, and its copy's place
follows the stream. -/
def goOn (id : Nat) : M Unit := do
  let t ← getT id
  let stepping := t.col.any fun c => !c.inHandler
  pay id
  thr id fun t => { t with
    status := if stepping then .parked .column none else .ready, bound := .none, mwaitDst := .none, mwaitToken := 0, held := [],
    col := t.col.map fun c => { c with holding := false } }
  if t.col.any fun c => !c.inHandler && c.j ≠ 0 then pure () else emit (.pc id (t.pc + 4#16))

/-- Return from an in-thread handler (22 R329 UIRET): pc := EPC, INH := 0. What a loop does next is in Machine/Loop.lean. -/
def returnFromHandler (id : Nat) : M Unit := do
  let t ← getT id
  thr id fun t => { t with
    inh := false,
    annul := match t.col with | some c => c.annul | none => t.annul,
    col := t.col.map fun c => { c with inHandler := false, annul := 0 },
    iter := t.iter.map fun it => { it with inHandler := false } }
  emit (.pc id t.epc)

/-- The first cycle of the rotation after cycle n (01 R9). -/
def nextRotation (n : Nat) : Nat := (n / 16 + 1) * 16

/-- Resumption of a held thread in the next rotation (22 R329 ERET): at its SEPC. -/
def resumeHeld (id : Nat) : M Unit := do
  let t ← getT id
  let n ← now
  thr id fun t => { t with
    status := if t.col.any fun c => !c.inHandler then .parked .column none else .ready, yieldTo := max t.yieldTo (nextRotation n) }
  emit (.pc id t.sepc)

end Sys2Proof.Machine
end

