-- ==== Sys2Proof/Machine/Operands.lean ====
section
/-! DEFINITION. Operand codes as sources and destinations (02 R22, 10 R181), producers (03 R42), the checks that every word
passes (10 R188), and how an instruction ends. -/

namespace Sys2Proof.Machine

/-! ## Link ports (04 R76 to R78, 25 R369, R370) -/

/-- The word that a pop from a sealed neighbour's side returns (25 R370). -/
def sealedWord : Word := 0x0D0D0D0D0D0D0D0D

/-- Room for a word that a forwarding operand pushes on: a sealed neighbour discards it; otherwise it needs a credit, and without one the instruction
waits or, with a trap bit, traps (04 R76, R77). Answers whether the word leaves. -/
def claimPush (k : Nat) (d : Dir) (trapBit : Bool) : M Bool := do
  let s ← getS
  if (s.coreOf (neighbour k d)).isSealed then return false
  else
    let cr := FMap.get 32 (s.coreOf k).credits d.idx
    if cr = 0 then if trapBit then trap Cause.emptyOperand else wait true
    else
      onCore k fun c => { c with credits := FMap.set c.credits d.idx (cr - 1) }
      return true

/-- Whether a thread has an outstanding producer that will push toward a neighbour (11 R194: pushes keep their order). -/
def Thread.pushing (t : Thread) (d : Dir) : Bool := t.producers.any fun p => p.2.dest == .link d

/-- A pop of the queue of a direction; with `fwd` the word is pushed to the opposite side as well (04 R77). -/
def popLink (d : Dir) (trapBit fwd : Bool) : M Word := do
  waitOldest
  let k ← myCore
  let s ← getS
  let c := s.coreOf k
  match FMap.get [] c.links d.idx with
  | [] =>
    if (s.coreOf (neighbour k d)).isSealed then
      if trapBit then trap Cause.neighbourSealed
      else
        let id ← me
        emit (.pw id ((s.thread id).pw ||| 0x40000#32))
        if fwd then
          if ← claimPush k d.opp trapBit then plan (linkLatency k d.opp) (.linkWordArrival (neighbour k d.opp) d sealedWord) else pure ()
        else pure ()
        return sealedWord
    else if trapBit then trap Cause.emptyOperand else wait true
  | w :: q =>
    onCore k fun c => { c with links := FMap.set c.links d.idx q }
    let on ← if fwd then do
        if (← self).pushing d.opp then wait false else pure ()
        claimPush k d.opp trapBit
      else pure false
    thr (← me) fun t => { t with lent := t.lent ++ [(d.idx, w, on)] }
    return w

/-! ## Sources -/

/-- A version read outside a loop (04 R62) or in an iteration (04 R67); a wait for one counts (03 R44). -/
def readVersion (n k : Nat) (trapBit : Bool) : M Word := do
  let id ← me
  let t ← self
  match ← ringOf id with
  | none =>
    let r := t.version n k
    if r.full then return r.val
    else if trapBit then trap Cause.emptyOperand else wait true
  | some (it, ring) =>
    if k > ring.r then trap Cause.illegalOperand
    else if k = 0 then
      match FMap.get? it.written n with
      | none => trap Cause.emptyOperand
      | some r => if r.full then return r.val else if trapBit then trap Cause.emptyOperand else wait true
    else if it.idx < ring.oldest + k then
      -- iteration it.idx - k has retired, or it is a seed: it stands in the file of the issuing thread
      let o ← getT (tidOf (id / 16) it.owner)
      return (o.version n (ring.oldest + k - it.idx - 1)).val
    else
      let s ← getS
      let older := ring.slots.findSome? fun sl =>
        match (s.thread (tidOf (id / 16) sl)).iter with
        | some ot => if ot.ring = it.ring && ot.idx + k = it.idx then FMap.get? ot.written n else none
        | none => none
      match older with
      | some r => if r.full then return r.val else if trapBit then trap Cause.emptyOperand else wait true
      | none => if trapBit then trap Cause.emptyOperand else wait true

/-- The status bit of a BARV in another package stands in the predicate word once its answer has come (12 R227). -/
def awaitStatus : M Unit := do
  if (← self).producers.any fun p => p.2.away.any fun a => a.fn = 8 then wait false else pure ()

/-- The value that `itx` reads (04 R66, R79). -/
def itxValue (t : Thread) : Nat :=
  match t.iter with
  | some it => it.idx
  | none => match t.col with
    | some c => c.j
    | none => 0

/-- The value that `icnt` reads (04 R66). -/
def icntValue : M Nat := do
  match ← ringOf (← me) with
  | some (_, r) => return r.g
  | none => return (← self).icnt

/-- A source operand (02 R22, R23, 03 R43). -/
def readSrc (c : Code) (trapBit : Bool := false) : M Word := do
  let n := c.toNat
  let t ← self
  if n < 32 then
    let r := t.sreg n
    if r.full then return r.val
    else if trapBit then trap Cause.emptyOperand else wait false
  else if n < 96 then readVersion ((n - 32) / 8) ((n - 32) % 8) trapBit
  else if n < 100 then popLink (Dir.ofIdx (n - 96)) trapBit false
  else if n < 104 then popLink (Dir.ofIdx (n - 100)) trapBit true
  else if n = 104 then return 0
  else if n = 105 then return BitVec.ofNat 64 (itxValue t)
  else if n = 106 then return BitVec.ofNat 64 (← icntValue)
  else if n = 107 then return BitVec.ofNat 64 (← mySlot)
  else if n = 108 then return BitVec.ofNat 64 t.cid
  else if n = 109 then return (← getC (← myCore)).vt
  else if n = 110 then do
    awaitStatus
    return (← self).pw.setWidth 64
  else trap Cause.illegalOperand

/-! ## Destinations -/

/-- The place a destination code names, once it can take a value: an empty register makes the instruction wait (03 R43), a
second write of a version in one iteration traps (04 R68), a push waits for room (04 R76). -/
def destOf (c : Code) : M Dest := do
  let n := c.toNat
  let id ← me
  let t ← self
  if n < 32 then
    if (t.sreg n).full then return .reg (t.place n) else wait false
  else if n < 96 then
    match t.iter with
    | some it => if (FMap.get? it.written ((n - 32) / 8)).isSome then trap Cause.illegalOperand else return .version ((n - 32) / 8)
    | none => if (t.version ((n - 32) / 8) 0).full then return .version ((n - 32) / 8) else wait false
  else if n < 100 then
    waitOldest
    let d := Dir.ofIdx (n - 96)
    if t.pushing d then wait false
    else
      let k := id / 16
      let s ← getS
      if (s.coreOf (neighbour k d)).isSealed then return .none
      else if FMap.get 32 (s.coreOf k).credits d.idx = 0 then wait true
      else return .link d
  else return .none

/-- A result written at once. -/
def writeDst (c : Code) (v : Word) : M Unit := do
  let id ← me
  let d ← destOf c
  match d with
  | .link _ => do claim id d; fill id d v
  | _ => fill id d v

/-- A long-latency producer (03 R42): its destination is marked empty and the value arrives after a number of cycles. A
destination `zero` marks nothing. -/
def produce (c : Code) (v : Word) (delay : Nat) (access : Nat := 0) : M Unit := do
  let id ← me
  let d ← destOf c
  match d with
  | .none => if access = 0 then pure () else expect id d v delay access
  | _ => do
    claim id d
    expect id d v delay access

/-! ## The checks of every word (10 R188) -/

/-- What kind of access an RLX word before the instruction would mark (09 R162). -/
inductive Marked where
  | none | load | store | atomic | red
deriving DecidableEq, Repr

/-- What the checks must know of an instruction. -/
structure Form where
  /-- its immediate is extendable (10 R185) -/
  ext : Bool := false
  /-- which cores have its unit (01 R8) -/
  unit : Nat → Bool := fun _ => true
  level : Level := .u
  /-- the level may reach the register that it names (22 R320) -/
  allowed : Bool := true
  srcs : List Code := []
  dst : Option Code := none
  /-- the destination is read as well (11 R190) -/
  readsDst : Bool := false
  base : Option Code := none
  marked : Marked := .none
  /-- its literal fields are in range (10 R187) -/
  literals : Bool := true

def isLink (c : Code) : Bool := 96 ≤ c.toNat && c.toNat ≤ 103

/-- A code that no source may hold (10 R181). -/
def badSrc (c : Code) : Bool := 110 < c.toNat

/-- A code that no destination may hold (10 R181). -/
def badDst (c : Code) (reads : Bool) : Bool :=
  let n := c.toNat
  110 < n || (32 ≤ n && n < 96 && n % 8 != 0) || (100 ≤ n && n ≤ 103) || (105 ≤ n && n ≤ 110) || (reads && 96 ≤ n && n ≤ 99)

def Form.codes (f : Form) : List Code := f.srcs ++ f.dst.toList ++ f.base.toList

/-- An RLX mark that the instruction may not carry (09 R162). -/
def badMark (m : Marked) (b : Bound) : Bool :=
  match b, m with
  | .rlx _ _, .none => false
  | .rlx scope mark, m =>
    mark != 0 && (5 < scope.toNat || (mark = 1 && (m = .store || m = .red)) || (mark = 2 && m = .load) || (mark = 3 && m ≠ .atomic))
  | _, _ => false

def Bound.isImm : Bound → Bool
  | .imm _ => true
  | _ => false

/-- Steps 2 to 5 of 10 R188, then the mark of 09 R162 and the twin rule of 25 R372 at step 6. -/
def guardForm (f : Form) : M Unit := do
  let k ← myCore
  let t ← self
  check (f.literals && (!t.bound.isImm || f.ext)) Cause.illegalInstruction
  check (f.unit k && (hasLinks k || !(f.codes.any isLink))) Cause.illegalInstruction
  check (f.level.code ≤ t.level.code && f.allowed) Cause.privileged
  check (!(f.srcs.any badSrc) && !(f.dst.any (badDst · f.readsDst)) && !(f.base.any fun c => badSrc c || isLink c)) Cause.illegalOperand
  check (!(badMark f.marked t.bound)) Cause.illegalInstruction
  check (!((← controlT).twin.isSome && f.codes.any isLink)) Cause.nesting

/-! ## How an instruction ends -/

/-- Where the thread goes on: the next word, an offset, the same word when it has still to complete, the same word when it has
only registered a wait (03 R43), or the next word with a prefix bound to it. -/
inductive Flow where
  | next
  | goto (a : BitVec 16)
  | stay
  | park
  | binds (b : Bound)

/-- The thread after a word of it has issued (03 R39, 10 R184). -/
def Thread.issued (t : Thread) (n : Nat) (b : Bound) : Thread :=
  { t with
    lastIssue := some n, bound := b, draining := false
    status := match t.status with | .waiting _ => .ready | st => st }

/-- A word of a thread ends: it has issued, the thread goes on at an offset, the link words that it popped are gone, and the core counts it. -/
def endWord (id n : Nat) (b : Bound) (a : BitVec 16) (u : Bool) : M Unit := do
  thr id (·.issued n b)
  emit (.pc id a)
  pay id
  count (id / 16) 2 u

/-- A thread that has still to complete its word has not given up the link words that it popped (04 R78). -/
def Thread.keepsWords (t : Thread) : Bool :=
  match t.status with
  | .parked .engine _ | .parked .graft _ => true
  | _ => t.asking

def settle (fl : Flow) : M Unit := do
  let id ← me
  let t ← self
  let n ← now
  match fl with
  | .next => endWord id n .none (t.pc + 4#16) (t.level == .u)
  | .goto a => endWord id n .none a (t.level == .u)
  | .binds b => endWord id n b (t.pc + 4#16) (t.level == .u)
  | .stay => do
    thr id (·.issued n t.bound)
    if t.keepsWords then pure () else pay id
    count (id / 16) 2 (t.level == .u)
  | .park => pure ()

/-- A wait begins or goes on (03 R43, R44); a counted wait has an end when WLIM is not 0. -/
def enterWait (counts : Bool) (keep : List Eff) : M Unit := do
  emitAll keep
  let id ← me
  let t ← self
  let n ← now
  if counts then
    match t.status with
    | .waiting (some _) => pure ()
    | _ =>
      thr id fun t => { t with status := .waiting (some n) }
      let lim := (← controlT).wlim
      if lim = 0 then pure () else plan lim.toNat (.waitLimit (id / 16) (id % 16) n)
  else thr id fun t => { t with status := .waiting none }

/-- A result that another package sends is still to come: its access may yet trap. -/
def Thread.expecting (t : Thread) : Bool := t.producers.any fun p => p.2.away.isSome

/-- A word that would trap waits for the results that come from other packages, since a trap of an earlier word comes first (03 R45, 12 R213). -/
def trapOr (m : M Unit) (s : State) : Out :=
  if (s.thread (tidOf s.clock.core s.clock.slot)).expecting then event (enterWait false []) s else event m s

/-- The outcome of a meaning: its effects; a wait; or the trap it takes. -/
def finish (m : M Flow) (s : State) : Out :=
  match (do let fl ← m; settle fl).eval s with
  | .ok (_, es) => .next (applyAll es s)
  | .error (.wait counts keep) => event (enterWait counts keep) s
  | .error (.trap cause v keep) =>
    let id := tidOf s.clock.core s.clock.slot
    trapOr (do emitAll keep; takeTrap id cause v (s.thread id).faultPc) s
  | .error (.call cause v) =>
    let id := tidOf s.clock.core s.clock.slot
    trapOr (do
      thr id fun t => { t with col := t.col.map fun c => if c.inHandler then c else { c with idx := c.idx + 1 } }
      takeTrap id cause v ((s.thread id).pc + 4#16)) s
  | .error (.fault f) => .fault f
  | .error (.refuse r) => .refused r

/-- An instruction: the checks of 10 R188, then its own meaning. -/
def instr (f : Form) (body : M Flow) (s : State) : Out := finish (do guardForm f; body) s

/-- The payload of a bound IMM word, if one is bound. -/
def immBits : M (Option (BitVec 22)) := do
  match (← self).bound with
  | .imm p => return some p
  | _ => return none

/-- An immediate of w bits with a bound payload above it, sign-extended (10 R180, R185). -/
def extend {w : Nat} (i : BitVec w) : M Int := do
  match ← immBits with
  | some p => return (p ++ i).toInt
  | none => return i.toInt

end Sys2Proof.Machine
end

