-- ==== Sys2Proof/Machine/Flags.lean ====
section
/-! DEFINITION. The bits of the predicate word that instructions record (03 R49, 11 R191), and the conditions of compare-skips
(10 R182). -/

namespace Sys2Proof.Machine

/-- A bit of the thread's predicate word written. -/
def writePw (i : Nat) (on : Bool) : M Unit := do
  let id ← me
  emit (.pw id (setBit (← self).pw i on))

/-- Status of an instruction that reports one: bit 18 (03 R49), after that of every earlier one. -/
def writeSt (on : Bool) : M Unit := do
  awaitStatus
  writePw 18 on

/-- Carry and overflow: bits 16 and 17 (03 R49). -/
def writeCV (c v : Bool) : M Unit := do
  let id ← me
  emit (.pw id (setBit (setBit (← self).pw 16 c) 17 v))

def carryIn : M Bool := do return bit (← self).pw 16

/-- Whether an exact value lies outside the signed 64-bit range. -/
def outOfRange (x : Int) : Bool := decide (x < -(2 ^ 63)) || decide (2 ^ 63 ≤ x)

/-- A result with the carry and overflow it records (11 R191). -/
structure Recorded where
  value : Word
  c : Bool
  v : Bool

/-- Sum with carry in (11 R192). -/
def addOf (a b : Word) (cin : Bool) : Recorded :=
  let r := a.toNat + b.toNat + b2n cin
  { value := BitVec.ofNat 64 r, c := decide (2 ^ 64 ≤ r), v := outOfRange (a.toInt + b.toInt + b2n cin) }

/-- Difference with borrow in (11 R192). -/
def subOf (a b : Word) (bin : Bool) : Recorded :=
  { value := BitVec.ofInt 64 (a.toNat - b.toNat - b2n bin : Int)
    c := decide (a.toNat < b.toNat + b2n bin)
    v := outOfRange (a.toInt - b.toInt - b2n bin) }

/-- Product (11 R194). -/
def mulOf (a b : Word) : Recorded :=
  { value := BitVec.ofNat 64 (a.toNat * b.toNat)
    c := decide (2 ^ 64 ≤ a.toNat * b.toNat)
    v := outOfRange (a.toInt * b.toInt) }

/-- Conditions 0 to 11 of SK and SKI (10 R182). -/
def holds (cc : BitVec 4) (a b : Word) : Bool :=
  match cc.toNat with
  | 0 => a = b
  | 1 => a ≠ b
  | 2 => decide (a.toInt < b.toInt)
  | 3 => decide (b.toInt ≤ a.toInt)
  | 4 => decide (a.toNat < b.toNat)
  | 5 => decide (b.toNat ≤ a.toNat)
  | 6 => decide (b.toInt < a.toInt)
  | 7 => decide (a.toInt ≤ b.toInt)
  | 8 => decide (b.toNat < a.toNat)
  | 9 => decide (a.toNat ≤ b.toNat)
  | 10 => a &&& b ≠ 0
  | 11 => a &&& b = 0
  | _ => false

end Sys2Proof.Machine
end

