-- ==== Sys2Proof/Machine/Alu.lean ====
section
/-! DEFINITION. Majors 0x01 to 0x0D: integer arithmetic, logic, shifts, multiply and divide, counts, extension, moves, the
predicate word and constants (11 R190 to R201). -/

namespace Sys2Proof.Machine

/-! ## Results -/

/-- Shift count: bits 5:0 (11 R193). -/
def shiftCount (b : Word) : Nat := bits b 5 0

def sllOf (a b : Word) : Word := a <<< shiftCount b
def srlOf (a b : Word) : Word := a >>> shiftCount b
def sraOf (a b : Word) : Word := a.sshiftRight (shiftCount b)
def rolOf (a b : Word) : Word := a.rotateLeft (shiftCount b)
def rorOf (a b : Word) : Word := a.rotateRight (shiftCount b)

def mulhOf (a b : Word) : Word := BitVec.ofInt 64 (a.toInt * b.toInt / 2 ^ 64)
def mulhuOf (a b : Word) : Word := BitVec.ofNat 64 (a.toNat * b.toNat / 2 ^ 64)
def mulhsuOf (a b : Word) : Word := BitVec.ofInt 64 (a.toInt * (b.toNat : Int) / 2 ^ 64)

/-- Quotients and remainders; a divisor of 0 gives all ones and the dividend (11 R194, 06 R105). -/
def divOf (a b : Word) : Word := if b = 0 then BitVec.allOnes 64 else BitVec.ofInt 64 (a.toInt.tdiv b.toInt)
def divuOf (a b : Word) : Word := if b = 0 then BitVec.allOnes 64 else BitVec.ofNat 64 (a.toNat / b.toNat)
def remOf (a b : Word) : Word := if b = 0 then a else BitVec.ofInt 64 (a.toInt.tmod b.toInt)
def remuOf (a b : Word) : Word := if b = 0 then a else BitVec.ofNat 64 (a.toNat % b.toNat)

def minOf (a b : Word) : Word := if a.toInt ≤ b.toInt then a else b
def maxOf (a b : Word) : Word := if b.toInt ≤ a.toInt then a else b
def minuOf (a b : Word) : Word := if a.toNat ≤ b.toNat then a else b
def maxuOf (a b : Word) : Word := if b.toNat ≤ a.toNat then a else b

/-- Number of bits of a from bit n - 1 downward that are 0 before the first 1. -/
def leadingZeros (a : Word) : Nat → Nat
  | 0 => 0
  | n + 1 => if bit a n then 0 else leadingZeros a n + 1

/-- Number of 0 bits from bit 64 - n upward before the first 1. -/
def trailingZeros (a : Word) : Nat → Nat
  | 0 => 0
  | n + 1 => if bit a (63 - n) then 0 else trailingZeros a n + 1

/-- Number of 1 bits among bits n - 1 to 0. -/
def onesBelow (a : Word) : Nat → Nat
  | 0 => 0
  | n + 1 => b2n (bit a n) + onesBelow a n

def clzOf (a : Word) : Word := BitVec.ofNat 64 (leadingZeros a 64)
def ctzOf (a : Word) : Word := BitVec.ofNat 64 (trailingZeros a 64)
def popcOf (a : Word) : Word := BitVec.ofNat 64 (onesBelow a 64)

/-- The field from bit 0 to bit n = b<5:0>, extended (11 R196). -/
def extzOf (a b : Word) : Word := BitVec.ofNat 64 (bits a (bits b 5 0) 0)
def extsOf (a b : Word) : Word :=
  let n := bits b 5 0
  let v := bits a n 0
  if bit a n then BitVec.ofInt 64 ((v : Int) - 2 ^ (n + 1)) else BitVec.ofNat 64 v

def bswapOf (a : Word) : Word := BitVec.ofNat 64 (leValue (leBytes 8 a.toNat).reverse)

/-- The predicate word that PWSET leaves (11 R198). -/
def pwsetOf (old : BitVec 32) (a b : Word) : BitVec 32 :=
  let mask := b.setWidth 32 &&& 0x000FFFFE#32
  (old &&& ~~~mask) ||| (a.setWidth 32 &&& mask)

/-- LDIH: the upper half replaced (11 R201). -/
def ldihOf (k : Int) (old : Word) : Word := (BitVec.ofInt 32 k) ++ old.setWidth 32

/-! ## Shapes -/

/-- d := f(a, b) (11 R190). -/
def binary (f : Word → Word → Word) (d a b : Code) (x y : Bool) (s : State) : Out :=
  instr { srcs := [a, b], dst := some d } (do
    let va ← readSrc a x
    let vb ← readSrc b y
    writeDst d (f va vb)
    return .next) s

/-- d := f(a) (11 R190). -/
def unary (f : Word → Word) (d a : Code) (x : Bool) (s : State) : Out :=
  instr { srcs := [a], dst := some d } (do
    let va ← readSrc a x
    writeDst d (f va)
    return .next) s

/-- A result recorded with C and V (11 R191). -/
def recorded (f : Word → Word → Bool → Recorded) (d a b : Code) (x y : Bool) (s : State) : Out :=
  instr { srcs := [a, b], dst := some d } (do
    let va ← readSrc a x
    let vb ← readSrc b y
    let r := f va vb (← carryIn)
    writeDst d r.value
    writeCV r.c r.v
    return .next) s

/-- A divide or remainder: its value arrives 40 cycles after issue (11 R194). -/
def slow (f : Word → Word → Word) (d a b : Code) (x y : Bool) (s : State) : Out :=
  instr { srcs := [a, b], dst := some d } (do
    let va ← readSrc a x
    let vb ← readSrc b y
    produce d (f va vb) 40
    return .next) s

/-- d := f(a, k) with an extendable immediate (11 R199). -/
def immediate (f : Word → Word → Word) (d a : Code) (i : BitVec 12) (s : State) : Out :=
  instr { ext := true, srcs := [a], dst := some d } (do
    let va ← readSrc a
    writeDst d (f va (BitVec.ofInt 64 (← extend i)))
    return .next) s

/-- The immediate forms that record C and V (11 R199). -/
def immediateRecorded (f : Word → Word → Recorded) (d a : Code) (i : BitVec 12) (s : State) : Out :=
  instr { ext := true, srcs := [a], dst := some d } (do
    let va ← readSrc a
    let r := f va (BitVec.ofInt 64 (← extend i))
    writeDst d r.value
    writeCV r.c r.v
    return .next) s

/-- Shifts by a literal count (11 R200). -/
def shiftLiteral (f : Word → Word → Word) (d a : Code) (n : BitVec 6) (s : State) : Out :=
  instr { srcs := [a], dst := some d } (do
    let va ← readSrc a
    writeDst d (f va (n.setWidth 64))
    return .next) s

/-! ## Instructions -/

/-- ADD (11 R192) -/
def execAdd (d a b : Code) (x y : Bool) (s : State) : Out := recorded (fun a b _ => addOf a b false) d a b x y s

/-- SUB (11 R192) -/
def execSub (d a b : Code) (x y : Bool) (s : State) : Out := recorded (fun a b _ => subOf a b false) d a b x y s

/-- ADDC (11 R192) -/
def execAddc (d a b : Code) (x y : Bool) (s : State) : Out := recorded (addOf) d a b x y s

/-- SUBB (11 R192) -/
def execSubb (d a b : Code) (x y : Bool) (s : State) : Out := recorded (subOf) d a b x y s

/-- AND (11 R192) -/
def execAnd (d a b : Code) (x y : Bool) (s : State) : Out := binary (fun a b => a &&& b) d a b x y s

/-- OR (11 R192) -/
def execOr (d a b : Code) (x y : Bool) (s : State) : Out := binary (fun a b => a ||| b) d a b x y s

/-- XOR (11 R192) -/
def execXor (d a b : Code) (x y : Bool) (s : State) : Out := binary (fun a b => a ^^^ b) d a b x y s

/-- ANDN (11 R192) -/
def execAndn (d a b : Code) (x y : Bool) (s : State) : Out := binary (fun a b => a &&& ~~~b) d a b x y s

/-- SLL (11 R193) -/
def execSll (d a b : Code) (x y : Bool) (s : State) : Out := binary sllOf d a b x y s

/-- SRL (11 R193) -/
def execSrl (d a b : Code) (x y : Bool) (s : State) : Out := binary srlOf d a b x y s

/-- SRA (11 R193) -/
def execSra (d a b : Code) (x y : Bool) (s : State) : Out := binary sraOf d a b x y s

/-- ROL (11 R193) -/
def execRol (d a b : Code) (x y : Bool) (s : State) : Out := binary rolOf d a b x y s

/-- ROR (11 R193) -/
def execRor (d a b : Code) (x y : Bool) (s : State) : Out := binary rorOf d a b x y s

/-- MUL (11 R194) -/
def execMul (d a b : Code) (x y : Bool) (s : State) : Out := recorded (fun a b _ => mulOf a b) d a b x y s

/-- MULH (11 R194) -/
def execMulh (d a b : Code) (x y : Bool) (s : State) : Out := binary mulhOf d a b x y s

/-- MULHU (11 R194) -/
def execMulhu (d a b : Code) (x y : Bool) (s : State) : Out := binary mulhuOf d a b x y s

/-- MULHSU (11 R194) -/
def execMulhsu (d a b : Code) (x y : Bool) (s : State) : Out := binary mulhsuOf d a b x y s

/-- DIV (11 R194) -/
def execDiv (d a b : Code) (x y : Bool) (s : State) : Out := slow divOf d a b x y s

/-- DIVU (11 R194) -/
def execDivu (d a b : Code) (x y : Bool) (s : State) : Out := slow divuOf d a b x y s

/-- REM (11 R194) -/
def execRem (d a b : Code) (x y : Bool) (s : State) : Out := slow remOf d a b x y s

/-- REMU (11 R194) -/
def execRemu (d a b : Code) (x y : Bool) (s : State) : Out := slow remuOf d a b x y s

/-- MIN (11 R195) -/
def execMin (d a b : Code) (x y : Bool) (s : State) : Out := binary minOf d a b x y s

/-- MAX (11 R195) -/
def execMax (d a b : Code) (x y : Bool) (s : State) : Out := binary maxOf d a b x y s

/-- MINU (11 R195) -/
def execMinu (d a b : Code) (x y : Bool) (s : State) : Out := binary minuOf d a b x y s

/-- MAXU (11 R195) -/
def execMaxu (d a b : Code) (x y : Bool) (s : State) : Out := binary maxuOf d a b x y s

/-- CLZ (11 R195) -/
def execClz (d a : Code) (x : Bool) (s : State) : Out := unary clzOf d a x s

/-- CTZ (11 R195) -/
def execCtz (d a : Code) (x : Bool) (s : State) : Out := unary ctzOf d a x s

/-- POPC (11 R195) -/
def execPopc (d a : Code) (x : Bool) (s : State) : Out := unary popcOf d a x s

/-- EXTS (11 R196) -/
def execExts (d a b : Code) (x y : Bool) (s : State) : Out := binary extsOf d a b x y s

/-- EXTZ (11 R196) -/
def execExtz (d a b : Code) (x y : Bool) (s : State) : Out := binary extzOf d a b x y s

/-- BSWAP (11 R196) -/
def execBswap (d a : Code) (x : Bool) (s : State) : Out := unary bswapOf d a x s

/-- CMOV (11 R197) -/
def execCmov (d a b : Code) (x y : Bool) (s : State) : Out := 
  instr { srcs := [a, b], dst := some d, readsDst := true } (do
    let va ← readSrc a x
    let vb ← readSrc b y
    let old ← readSrc d
    writeDst d (if vb ≠ 0 then va else old)
    return .next) s

/-- PWSET (11 R198) -/
def execPwset (d a b : Code) (x y : Bool) (s : State) : Out := 
  instr { srcs := [a, b], dst := some d } (do
    let va ← readSrc a x
    let vb ← readSrc b y
    let old := (← self).pw
    writeDst d (old.setWidth 64)
    emit (.pw (← me) (pwsetOf old va vb))
    return .next) s

/-- ADDI (11 R199) -/
def execAddi (d a : Code) (i : BitVec 12) (s : State) : Out := immediateRecorded (fun a b => addOf a b false) d a i s

/-- ANDI (11 R199) -/
def execAndi (d a : Code) (i : BitVec 12) (s : State) : Out := immediate (fun a b => a &&& b) d a i s

/-- ORI (11 R199) -/
def execOri (d a : Code) (i : BitVec 12) (s : State) : Out := immediate (fun a b => a ||| b) d a i s

/-- XORI (11 R199) -/
def execXori (d a : Code) (i : BitVec 12) (s : State) : Out := immediate (fun a b => a ^^^ b) d a i s

/-- SLLI (11 R200) -/
def execSlli (d a : Code) (n : BitVec 6) (s : State) : Out := shiftLiteral sllOf d a n s

/-- SRLI (11 R200) -/
def execSrli (d a : Code) (n : BitVec 6) (s : State) : Out := shiftLiteral srlOf d a n s

/-- SRAI (11 R200) -/
def execSrai (d a : Code) (n : BitVec 6) (s : State) : Out := shiftLiteral sraOf d a n s

/-- RORI (11 R200) -/
def execRori (d a : Code) (n : BitVec 6) (s : State) : Out := shiftLiteral rorOf d a n s

/-- MULI (11 R199) -/
def execMuli (d a : Code) (i : BitVec 12) (s : State) : Out := immediateRecorded mulOf d a i s

/-- LDI (11 R201) -/
def execLdi (d : Code) (i : BitVec 19) (s : State) : Out := 
  instr { ext := true, dst := some d } (do
    writeDst d (BitVec.ofInt 64 (← extend i))
    return .next) s

/-- LDIH (11 R201) -/
def execLdih (d : Code) (i : BitVec 19) (s : State) : Out := 
  instr { ext := true, dst := some d, readsDst := true } (do
    let old ← readSrc d
    writeDst d (ldihOf (← extend i) old)
    return .next) s

end Sys2Proof.Machine
end

