-- ==== Sys2Proof/Machine/Ctl.lean ====
section
/-! DEFINITION. Compare-skips, branches, calls through register windows, and hint words (11 R202 to R210, 03 R46 to R48). -/

namespace Sys2Proof.Machine

/-! ## Compare-skip -/

/-- The word of FEND (13 R246). -/
def fendWord : Nat := 0x78000006

/-- Whether one of the n words after pc holds FEND, in the code window that the slot's words come from (11 R202, 04 R80, R85). -/
def fendWithin (k : Nat) (pc : BitVec 16) : Nat → M Bool
  | 0 => return false
  | n + 1 => do
    let w ← readLe (lsKey k (pc + BitVec.ofNat 16 (4 * (n + 1))).toNat) 4
    if w = fendWord then return true else fendWithin k pc n

/-- Whether an address is one of the n words after pc (11 R202). -/
def within (pc a : BitVec 16) (n : Nat) : Bool := (a - pc).toNat % 4 = 0 && 4 ≤ (a - pc).toNat && (a - pc).toNat ≤ 4 * n

/-- The nesting checks of a compare-skip, from word addresses alone (11 R202). -/
def skipChecks (n : Nat) : M Unit := do
  let id ← me
  let t ← self
  match ← ringOf id with
  | some (_, r) => check (!(within t.pc (r.exit - 4#16) n)) Cause.nesting
  | none => pure ()
  match t.col with
  | some c =>
    let found ← fendWithin (if c.inHandler then id / 16 else c.head) t.pc n
    check (!found) Cause.nesting
  | none => pure ()

/-- The next n words are annulled when the condition fails (11 R202). -/
def annulUnless (cond : Bool) (n : Nat) : M Unit := do
  if cond then pure () else thr (← me) fun t => { t with annul := n }

/-- SK (11 R202) -/
def execSk (a b : Code) (c : BitVec 4) (k : BitVec 2) (p : BitVec 4) (x y : Bool) (s : State) : Out :=
  instr { srcs := [a, b], literals := c.toNat < 12 } (do
    skipChecks k.toNat
    let va ← readSrc a x
    let vb ← readSrc b y
    let cond := holds c va vb
    if p = 0 then pure () else writePw p.toNat cond
    annulUnless cond k.toNat
    return .next) s

/-- SKI (11 R202) -/
def execSki (a : Code) (i : BitVec 12) (c : BitVec 4) (k : BitVec 2) (x : Bool) (s : State) : Out :=
  instr { ext := true, srcs := [a], literals := c.toNat < 12 } (do
    skipChecks k.toNat
    let va ← readSrc a x
    annulUnless (holds c va (BitVec.ofInt 64 (← extend i))) k.toNat
    return .next) s

/-! ## Branches -/

/-- The target of a branch at pc (10 R180). -/
def target {w : Nat} (pc : BitVec 16) (i : BitVec w) : BitVec 16 := BitVec.ofInt 16 (pc.toNat + 4 * i.toInt)

/-- A branch of an iteration at the loop's entry depth may not leave the body (04 R72, R74). -/
def insideBody (tgt : BitVec 16) : M Unit := do
  match ← ringOf (← me) with
  | some (it, r) =>
    let t ← self
    if it.inHandler || t.depth ≠ r.snap.depth then pure ()
    else check (r.body.toNat ≤ tgt.toNat && tgt.toNat < r.exit.toNat) Cause.nesting
  | none => pure ()

/-- BR (11 R204, R208) -/
def execBr (i : BitVec 26) (s : State) : Out :=
  instr {} (do
    if ← inCopy then return .next
    else
      let tgt := target (← self).pc i
      insideBody tgt
      return .goto tgt) s

/-- BRP (11 R204, R208) -/
def execBrp (sense : Bool) (n : BitVec 4) (i : BitVec 21) (s : State) : Out :=
  instr {} (do
    if ← inCopy then return .next
    else
      let t ← self
      let tgt := target t.pc i
      insideBody tgt
      if bit t.pw n.toNat = !sense then return .goto tgt else return .next) s

/-- A register value as a code-window offset (11 R205, R207). -/
def offsetOf (t : Word) : M (BitVec 16) := do
  check (bits t 63 16 = 0 && bits t 1 0 = 0) Cause.illegalOperand
  return t.setWidth 16

/-- JR (11 R205, R208) -/
def execJr (d a : Code) (x : Bool) (s : State) : Out :=
  instr { srcs := [a], dst := some d } (do
    if ← inCopy then return .next
    else
      let tgt ← offsetOf (← readSrc a x)
      insideBody tgt
      writeDst d ((← self).pc + 4#16 |>.setWidth 64)
      return .goto tgt) s

/-! ## Windows (03 R46, R47) -/

/-- Windows that a thread holds resident. -/
def Thread.resident (t : Thread) : Nat := t.depth + 1 - t.wbase

/-- Whether a spill has a place: outside the code window and not below address 0 (03 R47). -/
def Thread.canSpill (t : Thread) : Bool := 0x10080 ≤ t.wsp.toNat

/-- The spill work that a slot has by itself: more than two windows resident (03 R47). -/
def noteSpillWork (id : Nat) : M Unit := do
  let n ← now
  thr id fun t => if 2 < t.resident && t.spillSince.isNone then { t with spillSince := some n } else t

/-- The locals and outs of a new window: undefined and full (03 R46). A result still due for a register of an earlier window in their place is lost, as that
window is (assumption 55). -/
def freshLocals (id base : Nat) : Nat → M Unit
  | 0 => pure ()
  | n + 1 => do
    let v ← free
    let lost (p : Producer) : Producer := if p.dest = .reg (base + 8 + n) then { p with dest := .none } else p
    thr id fun t => { t with producers := t.producers.map fun p => (p.1, lost p.2) }
    emit (.reg id (base + 8 + n) { val := v, full := true })
    freshLocals id base n

/-- A call with a return address: room, s31, rotation (11 R206). A spill that has no place gives the trap the local-store address that it would write
(22 R323, assumption 14). -/
def callWindow (ret : BitVec 16) (spawn : Bool) : M Unit := do
  let id ← me
  let t ← self
  check (t.depth ≠ 2 ^ 32 - 1) Cause.segmentLimit
  if t.resident < 4 then pure ()
  else if t.canSpill then wait false
  else trap Cause.segmentLimit (t.wsp - 128)
  if (t.sreg 31).full then pure () else wait false
  emit (.reg id (t.place 31) { val := ret.setWidth 64, full := true })
  thr id fun t => { t with
    depth := t.depth + 1,
    spawnWindows := if spawn then (t.depth + 1) :: t.spawnWindows else t.spawnWindows }
  freshLocals id (8 + 16 * (t.depth + 1)) 16
  noteSpillWork id

/-- CALL (11 R206, R208) -/
def execCall (i : BitVec 26) (s : State) : Out :=
  instr {} (do
    check (!(← inFurrow)) Cause.nesting
    let t ← self
    callWindow (t.pc + 4#16) false
    return .goto (target t.pc i)) s

/-- The return proper: rotation back, and IN of a spawn window (11 R207, 03 R55). At depth 0 of a loop or furrow 04 R72, R82 and 11 R208 name Illegal
Nesting where 11 R207 tests the depth first; the model follows the three (assumption 56). -/
def returnWindow : M Flow := do
  let id ← me
  let t ← self
  check (!(← inFurrow)) Cause.nesting
  match ← ringOf id with
  | some (_, r) => check (t.depth ≠ r.snap.depth) Cause.nesting
  | none => pure ()
  check (t.depth ≠ 0) Cause.illegalInstruction
  let r := t.sreg 15
  if r.full then pure () else wait false
  let tgt ← offsetOf r.val
  let n ← now
  if t.depth - 1 < t.wbase then
    stop (.wait false [.thr id fun t => if t.schedFill.isNone then { t with schedFill := some n } else t])
  else pure ()
  if t.spawnWindows.contains t.depth then emit (.pw id (setBit t.pw 19 true)) else pure ()
  thr id fun t => { t with
    depth := t.depth - 1,
    spawnWindows := t.spawnWindows.filter (· < t.depth),
    spillSince := if t.resident ≤ 3 then none else t.spillSince,
    moved := t.moved.filter fun m => m.1 + 1 < t.depth }
  return .goto tgt

/-- RET (11 R207, R208) -/
def execRet (s : State) : Out := instr {} returnWindow s

/-! ## Hint words (10 R183, 11 R209, R210) -/

/-- NOP -/
def execNop (s : State) : Out := instr {} (return .next) s

/-- IMM -/
def execImm (p : BitVec 22) (s : State) : Out := instr {} (return .binds (.imm p)) s

/-- RLX -/
def execRlx (scope : BitVec 3) (mark : BitVec 2) (s : State) : Out := instr {} (return .binds (.rlx scope mark)) s

/-- SCHED: bit 0 asks for a fill, bit 1 for a spill (11 R210). -/
def execSched (p : BitVec 22) (s : State) : Out :=
  instr {} (do
    let n ← now
    thr (← me) fun t => { t with
      schedFill := if bit p 0 && 0 < t.wbase && t.resident < 4 && t.schedFill.isNone then some n else t.schedFill,
      schedSpill := if bit p 1 && 1 < t.resident && t.canSpill && t.schedSpill.isNone then some n else t.schedSpill }
    return .next) s

/-! ## The spill engine (03 R47, R48) -/

/-- What the engine can do for a slot: spill its oldest resident frame, or fill the newest spilled one. -/
inductive SpillWork where
  | spill | fill
deriving DecidableEq, Repr

/-- The frame at a depth has every register full (03 R47). -/
def Thread.frameFull (t : Thread) (depth : Nat) : Bool :=
  (List.range 16).all fun j => (FMap.get {} t.regs (8 + 16 * depth + j)).full

/-- The request of a thread and the cycle in which it arose, if it can proceed. -/
def Thread.request (t : Thread) : Option (Nat × SpillWork) :=
  let spillAt := match t.spillSince, t.schedSpill with
    | some a, some b => some (min a b)
    | some a, none => some a
    | none, b => b
  match t.schedFill with
  | some a => some (a, .fill)
  | none =>
    match spillAt with
    | some a => if 1 < t.resident && t.canSpill && t.frameFull t.wbase then some (a, .spill) else none
    | none => none

/-- The oldest request of a core that can proceed: slot and work; equal ages in rising slot order (03 R47). -/
def oldestRequest (s : State) (k : Nat) : Option (Nat × SpillWork) :=
  let best := (List.range 16).foldl (fun (acc : Option (Nat × Nat × SpillWork)) sl =>
    match FMap.get? s.threads (tidOf k sl) with
    | none => acc
    | some t =>
      match t.request, acc with
      | some (a, w), some (b, _, _) => if a < b then some (a, sl, w) else acc
      | some (a, w), none => some (a, sl, w)
      | none, _ => acc) none
  best.map fun (_, sl, w) => (sl, w)

/-- The doublewords that the engine has moved of a frame, in the direction named. -/
def Thread.movedOf (t : Thread) (depth : Nat) (spill : Bool) : Nat :=
  match t.moved with
  | some (d, b, n) => if d = depth && b = spill then n else 0
  | none => 0

/-- One doubleword of the oldest resident frame goes to the window stack; the sixteenth ends the frame, and with it the request (03 R47, R48). -/
def spillOne (id : Nat) : M Unit := do
  let t ← getT id
  let n ← now
  let base := t.wsp.toNat - 128
  let i := t.movedOf t.wbase true
  storeRecord (lsKey (id / 16) (base + 8 * i)) [(FMap.get {} t.regs (8 + 16 * t.wbase + i)).val]
  if i < 15 then thr id fun t => { t with moved := some (t.wbase, true, i + 1) }
  else
    thr id fun t => { t with
      moved := none, wsp := BitVec.ofNat 64 base, wbase := t.wbase + 1, schedSpill := none,
      spillSince := if t.resident ≤ 3 then none else some n }

/-- One doubleword of the newest spilled frame comes back; the sixteenth ends the frame (03 R48). -/
def fillOne (id : Nat) : M Unit := do
  let t ← getT id
  if t.wbase = 0 then thr id fun t => { t with schedFill := none }
  else
    let i := t.movedOf (t.wbase - 1) false
    let v ← readDw (lsKey (id / 16) (t.wsp.toNat + 8 * i))
    emit (.reg id (8 + 16 * (t.wbase - 1) + i) { val := v, full := true })
    if i < 15 then thr id fun t => { t with moved := some (t.wbase - 1, false, i + 1) }
    else
      thr id fun t => { t with
        moved := none, wsp := t.wsp + 128, wbase := t.wbase - 1, schedFill := none }

end Sys2Proof.Machine
end

