-- ==== Sys2Proof/Machine/Xlate.lean ====
section
/-! DEFINITION. Segments (05 R87 to R89), page tables and targets (23 R337 to R345), compressed pages (23 R343, R344), and reading
and writing through them. -/

namespace Sys2Proof.Machine

/-- Rights that an access needs (05 R89), and whether it writes, so that a code window asks for EX (23 R341). -/
structure Need where
  rd : Bool := false
  wr : Bool := false
  at_ : Bool := false
  writes : Bool := wr

def Need.load : Need := { rd := true }
def Need.store : Need := { wr := true }
def Need.both : Need := { rd := true, wr := true }
def Need.atomic : Need := { rd := true, wr := true, at_ := true }
/-- LDF and LDFF change no data (12 R216). -/
def Need.tagged : Need := { rd := true, wr := true, writes := false }
/-- BARW changes nothing (12 R227). -/
def Need.barw : Need := { rd := true, wr := true, at_ := true, writes := false }

/-- Fields of a segment register (05 R88). -/
def segKind (sg : BitVec 128) : Nat := bits sg 63 62
def segLimit (sg : BitVec 128) : Nat := bits sg 111 64
def segBase (sg : BitVec 128) : Nat := bits sg 47 0

def segAllows (sg : BitVec 128) (n : Need) : Bool :=
  (!n.rd || bit sg 52) && (!n.wr || bit sg 53) && (!n.at_ || bit sg 55)

/-- What the segment stage yields: local-store address or linear address, and the segment. -/
inductive Staged where
  | local_ (a : Nat)
  | linear (a : Nat) (sg : BitVec 128)

/-- The segment stage of 05 R87 for an access of some bytes at a thread address. -/
def segment (ea : Word) (size : Nat) (need : Need) : M Staged := do
  let k ← myCore
  let sg := FMap.get 0 (← controlT).segs (bits ea 63 61)
  check (bits ea 60 48 = 0) Cause.addressForm ea
  check (segKind sg = 1 || segKind sg = 2) Cause.segmentRights ea
  let off := bits ea 47 0
  check (off + size - 1 ≤ segLimit sg) Cause.segmentLimit ea
  let a := (segBase sg + off) % 2 ^ 48
  check (segAllows sg need && (!(need.writes && segKind sg = 1 && a < 0x10000) || bit sg 54)) Cause.segmentRights ea
  if segKind sg = 1 then
    check (a + size - 1 < lsSize k) Cause.segmentLimit ea
    return .local_ a
  else return .linear a sg

/-- A leaf found by a walk: its doublewords and page size. -/
structure Leaf where
  dw0 : Word
  dw1 : Word
  page : Nat
deriving DecidableEq, Repr

/-- Index of a linear address in a table of a level (23 R337). -/
def levelIndex (a : Nat) : Nat → Nat
  | 0 => a / 2 ^ 35 % 2 ^ 13
  | 1 => a / 2 ^ 25 % 2 ^ 10
  | 2 => a / 2 ^ 21 % 2 ^ 4
  | _ => a / 2 ^ 16 % 2 ^ 5

/-- The leaf size code that a level holds (23 R337, R338). -/
def levelPs : Nat → Nat
  | 1 => 2
  | 2 => 1
  | _ => 0

def pageSize (ps : Nat) : Nat := if ps = 2 then 2 ^ 25 else if ps = 1 then 2 ^ 21 else 2 ^ 16

/-- Limits on the frame of a leaf (23 R339, R343, R347). -/
def leafMalformed (dw0 dw1 : Word) (lvl : Nat) : Bool :=
  let tt := bits dw0 59 57
  let ps := bits dw0 61 60
  let cmp := bits dw0 51 48
  let pg := bits dw0 47 41
  let size := pageSize ps
  let align := if pg = 0 then size else 2 * size
  let frame := match tt with
    | 0 => bits dw1 36 0
    | 1 => bits dw1 29 0
    | 2 => bits dw1 20 0
    | 3 => bits dw1 39 0
    | 4 => bits dw1 56 0
    | _ => bits dw1 39 0
  lvl = 0 || ps ≠ levelPs lvl || bits dw0 40 0 ≠ 0 || tt ≥ 6 || 2 < cmp || (cmp ≠ 0 && 1 < tt) || frame % align ≠ 0 ||
  (bit dw0 52 && !(tt = 0 || tt = 2 || tt = 3)) ||
  (match tt with
   | 0 => (cmp = 0 && bits dw1 63 40 ≠ 0)
   | 1 => (cmp = 0 && bits dw1 63 40 ≠ 0) || bits dw1 36 30 ≠ 0
   | 2 => bits dw1 63 45 ≠ 0 || ps = 2
   | 3 => bits dw1 63 58 ≠ 0 || bits dw1 47 43 ≠ 0 || 767 < bits dw1 57 48 || 2 < bits dw1 42 40 || cmp ≠ 0 || pg ≠ 0
   | 4 => bits dw1 63 57 ≠ 0 || pg ≠ 0
   | _ => bits dw1 63 40 ≠ 0 || pg ≠ 0)

/-- A table entry that is no leaf (23 R338). -/
def tableMalformed (dw0 dw1 : Word) (lvl : Nat) : Bool :=
  lvl = 3 || bits dw0 61 0 ≠ 0 || bits dw1 63 40 ≠ 0 ||
  bits dw1 36 0 % (match lvl with | 0 => 2 ^ 14 | 1 => 2 ^ 8 | _ => 2 ^ 9) ≠ 0

/-- The walk of 23 R341 from a table at a level; structural on the levels left. -/
def walk (ea : Word) (a : Nat) (table lvl : Nat) : Nat → M Leaf
  | 0 => trap Cause.protection ea
  | n + 1 => do
    let key := table + 16 * levelIndex a lvl
    findEcc key
    findEcc (key + 8)
    let dw0 ← readDw key
    let dw1 ← readDw (key + 8)
    if ← poisonedAt key 16 then trap Cause.poisoned ea
    else if !bit dw0 63 then trap Cause.notPresent ea
    else if bit dw0 62 then
      if leafMalformed dw0 dw1 lvl then trap Cause.protection ea
      else return { dw0 := dw0, dw1 := dw1, page := pageSize (bits dw0 61 60) }
    else if tableMalformed dw0 dw1 lvl then trap Cause.protection ea
    else walk ea a (frameKey dw1) (lvl + 1) n

/-- The level-0 table of a context on a die (23 R334). -/
def rootKey (s : State) (d ctx : Nat) : Nat := frameKey (memDw s (ctxKey d ctx 0x10))

/-- The metadata of a block of a compressed page: byte key and bit offset of its state (23 R343). -/
def blockState (d mdp page off : Nat) : Nat × Nat :=
  let b := off % page / 256
  (hbmKey d (mdp * 64 + 8 * (b / 32) + b % 32 / 4), 2 * (b % 4))

/-- Whether the routes of a context reach a package: a route entry with a mask that is not 0 (24 R359). Answers the mask. -/
def routeMask (s : State) (d ctx pkg : Nat) : Nat :=
  let rtn := bits (memDw s (ctxKey d ctx 0xB8)) 9 0
  let tab := frameKey (memDw s (ctxKey d ctx 0xB0))
  match (List.range rtn).find? fun i => bits (memDw s (tab + 8 * i)) 57 48 = pkg with
  | some i => bits (memDw s (tab + 8 * i)) 31 0
  | none => 0

/-- The place of this package that a frame of a remote type names, cores by the identity table (23 R339); none where there is none. -/
def framePlace (rtt frame : Nat) : Option Place :=
  match rtt with
  | 0 => some (.hbm (hbmKey (frame / 2 ^ 37 % 8) (frame % 2 ^ 37)) none)
  | 1 => if frame % 2 ^ 37 < 2 ^ 30 then some (.ws (frame / 2 ^ 37 % 8) (frame % 2 ^ 30) none) else none
  | 2 =>
    let k := frame / 2 ^ 21
    if k < 4480 && frame % 2 ^ 21 < lsSize k then some (.ls k (lsKey k (frame % 2 ^ 21))) else none
  | _ => none

/-- The target of a leaf for a linear address; `cloche` picks the other frame of a published pair (23 R341, R345). -/
def leafPlace (ea : Word) (d ctx a : Nat) (lf : Leaf) (cloche : Bool) : M Place := do
  let s ← getS
  let pg := bits lf.dw0 47 41
  check (!cloche || pg ≠ 0) Cause.protection ea
  let sel := s.pkg.selectors.contains (ctx * 128 + pg)
  let second := pg ≠ 0 && (sel != cloche)
  let add := if second then lf.page else 0
  let off := a % lf.page
  let cmp := bits lf.dw0 51 48
  match bits lf.dw0 59 57 with
  | 0 =>
    let die := bits lf.dw1 39 37
    let h := bits lf.dw1 36 0 + add + off
    let (mk, mb) := blockState die (bits lf.dw1 63 40 + (if second then lf.page / 1024 / 64 else 0)) lf.page off
    return .hbm (hbmKey die h) (if cmp = 0 then none else some (cmp, mk, mb))
  | 1 =>
    let die := bits lf.dw1 39 37
    let o := bits lf.dw1 29 0 + add + off
    let (mk, mb) := blockState die (bits lf.dw1 63 40 + (if second then lf.page / 1024 / 64 else 0)) lf.page off
    return .ws die o (if cmp = 0 then none else some (cmp, mk, mb))
  | 2 =>
    let la := bits lf.dw1 20 0 + add + off
    match coreEntry s d ctx (bits lf.dw1 44 21) with
    | some e =>
      if entryPkg e ≠ s.pkg.number then return .remote (entryPkg e) 2 ((entryCore e).getD 0 * 2 ^ 21 + la)
      else
        match entryCore e with
        | some c =>
          check (la < lsSize c) Cause.protection ea
          return .ls c (lsKey c la)
        | none => trap Cause.protection ea
    | none => trap Cause.protection ea
  | 3 =>
    if bits lf.dw1 57 48 = s.pkg.number then
      match framePlace (bits lf.dw1 42 40) (bits lf.dw1 39 0 + off) with
      | some p => return p
      | none => trap Cause.protection ea
    else return .remote (bits lf.dw1 57 48) (bits lf.dw1 42 40) (bits lf.dw1 39 0 + off)
  | 4 => return .host (hostKey (bits lf.dw1 56 0 + off))
  | _ => return .dev (bits lf.dw1 39 0 + off)

/-- Whether a place is a local-store address in a code window (05 R89). -/
def inCodeWindow : Place → Bool
  | .own key => key % 0x200000 < 0x10000
  | .ls _ key => key % 0x200000 < 0x10000
  | .remote _ 2 frame => frame % 0x200000 < 0x10000
  | _ => false

/-! ## Translation caches (23 R346) -/

/-- A bank of cached translations: die, translation port, bank in the port. -/
structure BankId where
  die : Nat
  port : Nat
  bank : Nat

/-- The last-level TLB of a die. -/
def lastLevel (d : Nat) : BankId := { die := d, port := 28, bank := 0 }

/-- Who translates: a core for its accesses, an engine or a copy port, or a scheduler, which keeps no translations. -/
inductive Via where
  | core | engine | scheduler
deriving DecidableEq, Repr

/-- Where the accesses of a core find cached translations: the bank of a compute core in its cluster's memory port, then the last-level TLB; other cores
and engines use the last-level TLB (23 R346; assumption 57 for control cores and memory-side cores). -/
def banksFor (k : Nat) (via : Via) : List BankId :=
  match via, kindOf k with
  | .scheduler, _ => []
  | .core, .compute => [{ die := dieOf k, port := clusterOf k, bank := rowOf k % 4 * 4 + colOf k % 4 }, lastLevel (dieOf k)]
  | _, _ => [lastLevel (dieOf k)]

def State.bank (s : State) (b : BankId) : List TlbEntry :=
  FMap.get [] (FMap.get {} (s.dieOf b.die).memPorts b.port).banks b.bank

def TlbEntry.leaf (e : TlbEntry) : Leaf := { dw0 := e.dw0, dw1 := e.dw1, page := pageSize (bits e.dw0 61 60) }

/-- Whether an entry translates a linear address of a context. -/
def TlbEntry.covers (e : TlbEntry) (ctx a : Nat) : Bool := e.ctx = ctx && e.lin ≤ a && a < e.lin + pageSize (bits e.dw0 61 60)

/-- Cached translations of a linear address. -/
def cachedLeaves (s : State) (ctx a : Nat) (bs : List BankId) : List Leaf :=
  ((bs.flatMap s.bank).filter (·.covers ctx a)).map (·.leaf)

/-- A translation cached in banks that do not hold it; a full bank drops its oldest entry (1,024 of a core, 24,576 of a die). -/
def cacheLeaf (e : TlbEntry) : List BankId → M Unit
  | [] => pure ()
  | b :: bs => do
    let es := (← getS).bank b
    if es.contains e then pure ()
    else
      let size := if b.port = 28 then 24576 else 1024
      let new := es.drop (es.length + 1 - size) ++ [e]
      onDie b.die fun x =>
        let q := FMap.get {} x.memPorts b.port
        { x with memPorts := FMap.set x.memPorts b.port { q with banks := FMap.set q.banks b.bank new } }
    cacheLeaf e bs

/-- A walk whose leaf is cached. -/
def walkAndCache (ea : Word) (k ctx a : Nat) (bs : List BankId) : M Leaf := do
  let lf ← walk ea a (rootKey (← getS) (dieOf k) ctx) 0 4
  cacheLeaf { ctx := ctx, lin := a / lf.page * lf.page, dw0 := lf.dw0, dw1 := lf.dw1 } bs
  return lf

/-- The leaf that an access uses (23 R346): a cached one, or that of a walk. Where they differ, a free value chooses, since until a shoot-down an access
uses either. -/
def findLeaf (ea : Word) (k ctx a : Nat) (via : Via) : M Leaf := do
  let s ← getS
  let bs := banksFor k via
  match cachedLeaves s ctx a bs with
  | [] => walkAndCache ea k ctx a bs
  | lf :: lfs =>
    let same := match (walk ea a (rootKey s (dieOf k) ctx) 0 4).eval s with
      | .ok (x, _) => (lf :: lfs).all (· = x)
      | .error _ => false
    if same then return lf
    else
      let v ← free
      match (lf :: lfs)[v.toNat % (lfs.length + 2)]? with
      | some x => return x
      | none => walkAndCache ea k ctx a bs

/-- Whether a place lies in the code window of a compute core, into which no port core writes (01 R17). -/
def inComputeText : Place → Bool
  | .ls c key => kindOf c = .compute && key % 0x200000 < 0x10000
  | .remote _ 2 frame => frame / 2 ^ 21 < 3584 && frame % 0x200000 < 0x10000
  | _ => false

/-- A linear address translated with the checks of 23 R341, for a context at a level, for an access of core k or of an engine for it. Answers the
place and the leaf. A write of a port core into a compute core's code window is refused as one without EX (01 R17, assumption 58). -/
def translateLeaf (ea : Word) (k ctx : Nat) (lv : Level) (a : Nat) (need : Need) (sg : BitVec 128) (cloche : Bool) (via : Via) : M (Place × Leaf) := do
  let lf ← findLeaf ea k ctx a via
  let s ← getS
  check (lv ≠ .u || bit lf.dw0 56) Cause.protection ea
  check ((!need.rd || bit lf.dw0 55) && (!need.wr || bit lf.dw0 54) && (!need.at_ || bit lf.dw0 53)) Cause.protection ea
  let p ← leafPlace ea (dieOf k) ctx a lf cloche
  match p with
  | .remote pkg _ _ => check (pkg = s.pkg.number || routeMask s (dieOf k) ctx pkg ≠ 0) Cause.protection ea
  | _ => pure ()
  check (!(need.writes && inCodeWindow p) || bit sg 54) Cause.segmentRights ea
  check (!(need.writes && kindOf k = .port && inComputeText p)) Cause.segmentRights ea
  return (p, lf)

/-- The place of a linear address and the GO bit of its leaf. -/
def translate (ea : Word) (k ctx : Nat) (lv : Level) (a : Nat) (need : Need) (sg : BitVec 128) (cloche : Bool := false) (via : Via := .core) :
    M (Place × Bool) := do
  let (p, lf) ← translateLeaf ea k ctx lv a need sg cloche via
  return (p, bit lf.dw0 52)

/-- A part of an access: place, number of bytes. An aligned access has one (09 R165). -/
structure Part where
  place : Place
  len : Nat
  go : Bool

/-- Bytes of an access from offset o that lie in one part: up to the next 8-byte boundary. -/
def partLens (ea size : Nat) : List (Nat × Nat) :=
  let first := 8 - ea % 8
  if size ≤ first then [(0, size)]
  else if size - first ≤ 8 then [(0, first), (first, size - first)]
  else [(0, size)]

/-- The place of local store of the issuing core. -/
def ownPlace (k a : Nat) : Place := .own (lsKey k a)

def locateParts (ea : Word) (need : Need) (st : Staged) : List (Nat × Nat) → M (List Part)
  | [] => return []
  | (o, n) :: ps => do
    let k ← myCore
    let c ← controlT
    let p ← match st with
      | .local_ a => pure { place := ownPlace k (a + o), len := n, go := false : Part }
      | .linear a sg => do
        let (pl, go) ← translate ea k c.ctx c.level ((a + o) % 2 ^ 48) need sg
        -- a linear address whose home is the own core's local store is performed there
        pure { place := (match pl with | .ls c' key => if c' = k then .own key else pl | pl => pl), len := n, go := go : Part }
    let rest ← locateParts ea need st ps
    return p :: rest

/-- The segment stage and translation of an access, part by part. -/
def locate (ea : Word) (size : Nat) (need : Need) : M (List Part) := do
  let st ← segment ea size need
  locateParts ea need st (partLens ea.toNat size)

/-! ## What a place allows (05 R97, R99, R100, 25 R369, R391) -/

/-- Whether a self-test of a core has the local-store bank of a key (26 R391). -/
def underTest (s : State) (key : Nat) : Bool :=
  isLs key && (match (s.coreOf (key / 0x200000)).bist with
    | some b => b.test = 0 && b.unit = bankOf (key / 0x200000) (key % 0x200000)
    | none => false)

/-- The checks of a target for a plain access of a number of bytes. Alignment at device registers is that of the thread address, also where a segment's
BASE is no multiple of 8 (05 R97; DESIGN CHOICE, assumption 62). -/
def admitAccess (ea : Word) (write : Bool) (size : Nat) (p : Place) : M Unit := do
  let s ← getS
  match p with
  | .own key => if underTest s key then wait false else pure ()
  | .ls c key =>
    check (!(s.coreOf c).isSealed) Cause.neighbourSealed ea
    if underTest s key then wait false else pure ()
  | .ws d o _ =>
    let die := s.dieOf d
    if die.wsPend then wait false
    else
      check (die.wsServing != write) Cause.weightStore
      if die.busyGroup = some (o / 2 ^ 26 % 16) then wait false else pure ()
  | .dev _ => check ((size = 4 && ea.toNat % 4 = 0) || (size = 8 && ea.toNat % 8 = 0)) Cause.protection ea
  | _ => pure ()

/-! ## Compressed blocks (23 R343, R344) -/

def freeBytes : Nat → M (List Byte)
  | 0 => return []
  | n + 1 => do
    let v ← free
    return leBytes 8 v.toNat ++ (← freeBytes n)

/-- The even bytes of a list. -/
def evens : List Byte → List Byte
  | a :: _ :: bs => a :: evens bs
  | bs => bs

def odds : List Byte → List Byte
  | _ :: b :: bs => b :: odds bs
  | _ => []

/-- A block written with new plain bytes: the state from the whole block's content, unused bytes undefined. -/
def writeBlock (key : Nat) (cmp : Nat × Nat × Nat) (bs : List Byte) : M Unit := do
  let (scheme, mk, mb) := cmp
  let o := odds bs
  let same := o.all fun b => b = o.headD 0
  let st := if bs.all (· = 0) then 1 else if scheme = 2 && same then 2 else 0
  let old ← readByte mk
  let new : Byte := BitVec.ofNat 8 (old.toNat - bits old (mb + 1) mb * 2 ^ mb + st * 2 ^ mb)
  emit (.mem mk [new])
  let junk ← if st = 0 then pure [] else freeBytes 32
  emit (.mem key (match st with
    | 0 => bs
    | 1 => junk
    | _ => evens bs ++ [o.headD 0] ++ junk.drop 129))

/-- Replace bytes within a block. -/
def patchBytes (block : List Byte) (off : Nat) (bs : List Byte) : List Byte :=
  block.take off ++ bs ++ block.drop (off + bs.length)

/-! ## Reading and writing a part -/

/-- The physical key of a place in the memory of this package. -/
def Place.key? : Place → Option Nat
  | .own key => some key
  | .hbm key _ => some key
  | .ws d o _ => some (wsKey d o)
  | .ls _ key => some key
  | .host key => some key
  | _ => none

/-- Bytes of a part at its home, and whether they come with poison. -/
def readPart (p : Place) (n : Nat) : M (List Byte × Bool) := do
  match p with
  | .hbm key (some cmp) =>
    findEccs (touched key n)
    let (blk, bad) ← readBlock (key / 256 * 256) cmp
    return ((blk.drop (key % 256)).take n, bad || (← poisonedAt key n))
  | .ws d o (some cmp) =>
    findEccs (touched (wsKey d o) n)
    let (blk, bad) ← readBlock (wsKey d o / 256 * 256) cmp
    return ((blk.drop (o % 256)).take n, bad || (← poisonedAt (wsKey d o) n))
  | p =>
    match p.key? with
    | some key =>
      findEccs (touched key n)
      return (← readBytes key n, ← poisonedAt key n)
    | none => return (List.replicate n 0, false)

/-- The block of a compressed page that holds a key, with some of its bytes replaced. -/
def patchBlock (key : Nat) (cmp : Nat × Nat × Nat) (bs : List Byte) : M Unit := do
  let (blk, _) ← readBlock (key / 256 * 256) cmp
  writeBlock (key / 256 * 256) cmp (patchBytes blk (key % 256) bs)

/-- Bytes written at a part's home. -/
def writePart (p : Place) (bs : List Byte) : M Unit := do
  match p with
  | .hbm key (some cmp) => do patchBlock key cmp bs; wrote key bs.length
  | .ws d o (some cmp) => do patchBlock (wsKey d o) cmp bs; wrote (wsKey d o) bs.length
  | p =>
    match p.key? with
    | some key => storeBytes key bs
    | none => pure ()

/-- A barrier's word written by a barrier operation: it latches monitors and does not break the barrier (12 R229). -/
def setBarrierWord (key : Nat) (cmp : Option (Nat × Nat × Nat)) (w : Word) : M Unit := do
  match cmp with
  | some c => patchBlock key c (leBytes 8 w.toNat)
  | none => emit (.mem key (leBytes 8 w.toNat))
  latch key 8

/-- Cycles until a value from a place reaches the core: 12 for the own local store (12 R213). -/
def arrival (k : Nat) : Place → Nat
  | .own _ => 12
  | p => match p.key? with
    | some key => Config.transit (homeOf key) k
    | none => Config.transit k k

/-- The core that performs atomics for a place (05 R97): none where atomics are refused. -/
def atomicCore (p : Place) : Option Nat :=
  match p with
  | .own key => some (homeOf key)
  | .hbm key _ => some (homeOf key)
  | .ls c _ => some c
  | _ => none

end Sys2Proof.Machine
end

