-- ==== Sys2Proof/Machine/Device.lean ====
section
/-! DEFINITION. The device registers behind target type 5 (24 R358, 25 R380, 26 R392 to R394): what a read gives, and what a
write does. -/

namespace Sys2Proof.Machine

/-- Register names, as the address map of 24 R358 gives them. -/
inductive DevName where
  | launch | lstat | ageq | qlen (n : Nat) | serr | kill | kst | corecmd | corera | clpart (k : Nat)
  | eqb (k : Nat) | eqht (k : Nat) | eqfull (k : Nat)
  | dlstat (p : Nat) | dlto (p : Nat) | lmarg (p l : Nat)
  | defect (off : Nat) | smarg
deriving DecidableEq, Repr

/-- The die and register of a register-space address; none where no rule gives one. -/
def devName (addr : Nat) : Option (Nat × DevName) :=
  if addr < 0x1000000000 || 0x1000800000 ≤ addr then none
  else
    let d := (addr - 0x1000000000) / 0x100000
    let o := (addr - 0x1000000000) % 0x100000 / 8 * 8
    let name : Option DevName :=
      if o = 0 then some .launch
      else if o = 0x8 then some .lstat
      else if o = 0x10 then some .ageq
      else if o ≤ 0x30 then some (.qlen ((o - 0x18) / 8))
      else if o = 0x38 then some .serr
      else if o = 0x40 then some .kill
      else if o = 0x48 then some .kst
      else if o = 0x50 then some .corecmd
      else if o = 0x58 then some .corera
      else if 0x800 ≤ o && o < 0x800 + 8 * 28 then some (.clpart ((o - 0x800) / 8))
      else if 0x10000 ≤ o && o < 0x10000 + 28 * 0x1000 then
        match o % 0x1000 with
        | 0 => some (.eqb ((o - 0x10000) / 0x1000))
        | 8 => some (.eqht ((o - 0x10000) / 0x1000))
        | 16 => some (.eqfull ((o - 0x10000) / 0x1000))
        | _ => none
      else if 0x40000 ≤ o && o < 0x40400 then
        let p := (o - 0x40000) / 0x100
        let r := o % 0x100
        if r = 0 then some (.dlstat p) else if r = 8 then some (.dlto p)
        else if 0x40 ≤ r && r < 0x80 then some (.lmarg p ((r - 0x40) / 8)) else none
      else if 0x50000 ≤ o && (o < 0x50088 || (0x50100 ≤ o && o < 0x50300)) then some (.defect (o - 0x50000))
      else if o = 0x50800 then some .smarg
      else none
    name.map fun n => (d, n)

/-! ## The defect map (01 R10, 26 R394) -/

/-- The defective physical columns of a row, rising, each once. -/
def defectColumns (d r : Nat) : List Nat := (List.range 30).filter fun c => (Config.defects d r).contains c

/-- The two columns that a row retires, rising: its defective ones, and spares from its east end (01 R10). -/
def retiredColumns (d r : Nat) : List Nat :=
  let ds := (defectColumns d r).take 2
  let two := (ds ++ [29, 28, 27].filter fun c => !(ds.contains c)).take 2
  (List.range 30).filter fun c => two.contains c

/-- A die that ships: no row has more than two defective columns (01 R10). -/
def mapHolds (d : Nat) : Bool := (List.range 16).all fun r => (defectColumns d r).length ≤ 2

/-- RET of a row: bit k, physical column k is retired (26 R394). -/
def retMask (d r : Nat) : Nat := ((retiredColumns d r).map fun c => 2 ^ c).sum

/-- The physical column of a logical column of a row (26 R394). -/
def physicalColumn (d r j : Nat) : Nat := (((List.range 30).filter fun c => !((retiredColumns d r).contains c)).drop j).headD 0

/-- A register of the defect map, by its offset (26 R394). -/
def defectWord (d off : Nat) : Word :=
  if off = 0 then BitVec.ofNat 64 (2 ^ 56 + (Config.serial d).toNat)
  else if off ≤ 0x80 then
    let r := off / 8 - 1
    BitVec.ofNat 64 ((retiredColumns d r).getD 1 0 * 2 ^ 48 + (retiredColumns d r).getD 0 0 * 2 ^ 40 + retMask d r)
  else
    let (sp, rows) := Config.channelRepair d ((off - 0x100) / 8)
    BitVec.ofNat 64 (b2n sp * 2 ^ 8 + rows.toNat)

/-! ## Reads -/

/-- Layout of a record queue's base register (22 R326). -/
def recBase (q : RecQueue) : Word := BitVec.ofNat 64 (q.size * 2 ^ 32 + q.base)
/-- Layout of a record queue's head and tail register (22 R326). -/
def recHt (q : RecQueue) : Word := BitVec.ofNat 64 (q.tail * 2 ^ 32 + q.head)

/-- The value that a register reads as. -/
def devValue (s : State) (d : Nat) : DevName → Word
  | .launch => 0
  | .lstat => BitVec.ofNat 64 (s.dieOf d).lstat
  | .ageq => BitVec.ofNat 64 (s.dieOf d).ageq
  | .qlen n => BitVec.ofNat 64 ((FMap.get [] (s.dieOf d).queues n).length % 2 ^ 32)
  | .serr => BitVec.ofNat 64 (s.dieOf d).serr
  | .kill => (s.dieOf d).kill
  | .kst => BitVec.ofNat 64 (b2n (s.dieOf d).killBusy * 2 ^ 63 + b2n (s.dieOf d).killDone * 2 ^ 62 + (s.dieOf d).tokens)
  | .corecmd => BitVec.ofNat 64 (b2n (s.dieOf d).coreDone * 2 ^ 63 + b2n (s.dieOf d).coreBusy * 2 ^ 62 + (s.dieOf d).corecmd.toNat)
  | .corera => (s.dieOf d).corera
  | .clpart k => FMap.get 0 (s.dieOf d).clpart k
  | .eqb k => recBase (FMap.get {} (s.dieOf d).eqb k)
  | .eqht k => recHt (FMap.get {} (s.dieOf d).eqb k)
  | .eqfull k => BitVec.ofNat 64 (FMap.get 0 (s.dieOf d).eqfull k % 2 ^ 32)
  | .dlstat p =>
    let q := FMap.get {} (s.dieOf d).ports p
    BitVec.ofNat 64 (b2n q.up * 2 ^ 63 + q.lanes * 2 ^ 48 + q.trn % 2 ^ 16 * 2 ^ 32 + q.rtry)
  | .dlto p => BitVec.ofNat 64 (FMap.get {} (s.dieOf d).ports p).dlto
  | .lmarg p l => FMap.get 0 (FMap.get {} (s.dieOf d).ports p).lmarg l
  | .defect off => defectWord d off
  | .smarg => (s.dieOf d).smarg

/-- A read of 4 or 8 bytes of a register. -/
def devRead (ea : Word) (addr n : Nat) : M Word := do
  match devName addr with
  | none => stop (.refuse (.unspecifiedDevice addr))
  | some (d, name) =>
    match name with
    | .defect _ => check ((← controlT).level ≠ .u) Cause.protection ea
    | _ => pure ()
    let v := devValue (← getS) d name
    if n = 8 then return v else return BitVec.ofNat 64 (v.toNat / 2 ^ (8 * (addr % 8)) % 2 ^ 32)

/-! ## Writes -/

/-- A cluster whose partition may change: every slot empty, no queued engine command, no armed barrier (24 R361). -/
def coreQuiet (s : State) (k : Nat) : Bool :=
  ((List.range 16).all fun t => !(s.occupied (tidOf k t))) && (s.coreOf k).array.queue.isEmpty && !(s.coreOf k).array.busy &&
  (s.coreOf k).commands.isEmpty && (s.coreOf k).barriers.isEmpty

/-- The cores of a cluster: its sixteen compute cores and its control core (01 R11). -/
def clusterCores (d cl : Nat) : List Nat :=
  clusterCore d cl :: (List.range 16).map fun i => d * 448 + (cl / 7 * 4 + i / 4) * 28 + cl % 7 * 4 + i % 4

/-- CLPART (24 R361) -/
def setClpart (d cl : Nat) (v : Word) : M Unit := do
  let s ← getS
  let new := BitVec.ofNat 64 (bits v 63 63 * 2 ^ 63 + bits v 15 0)
  if 223 < bits v 15 0 then pure ()
  else if new ≠ FMap.get 0 (s.dieOf d).clpart cl && !((clusterCores d cl).all (coreQuiet s)) then pure ()
  else onDie d fun x => { x with clpart := FMap.set x.clpart cl new }

/-- A signed field of SMARG kept within 10 (26 R393). -/
def clampMargin (v : Word) (lo : Nat) : Nat :=
  let x := (BitVec.ofNat 8 (bits v (lo + 7) lo)).toInt
  (BitVec.ofInt 8 (if 10 < x then 10 else if x < -10 then -10 else x)).toNat

/-- SMARG: only while the management port has enabled margining (26 R393) -/
def setSmarg (d : Nat) (v : Word) : M Unit := do
  if (← getS).pkg.margining then
    onDie d fun x => { x with
      smarg := BitVec.ofNat 64 (clampMargin v 24 * 2 ^ 24 + clampMargin v 16 * 2 ^ 16 + clampMargin v 8 * 2 ^ 8 + clampMargin v 0) }
  else pure ()

/-- LMARG: ignored while GO is 1; a 1 in GO starts a dwell (26 R392) -/
def setLmarg (d p l : Nat) (v : Word) : M Unit := do
  let old := FMap.get 0 (FMap.get {} (← getD d).ports p).lmarg l
  if bit old 63 then pure ()
  else
    let go := bit v 63
    let new := BitVec.ofNat 64 (b2n go * 2 ^ 63 + (if go then 0 else bits old 62 62 * 2 ^ 62) + bits v 55 40 * 2 ^ 40 + bits old 31 0)
    onDie d fun x => { x with
      ports := FMap.set x.ports p { (FMap.get {} x.ports p) with lmarg := FMap.set (FMap.get {} x.ports p).lmarg l new } }
    if go then plan (2 ^ 20) (.laneMarginDwellEnd (4 * d + p) l) else pure ()

/-- TQB or EQB: base and size taken, head and tail 0 (22 R326, 24 R357) -/
def newQueue (v : Word) : RecQueue := { base := bits v 20 5 * 32, size := bits v 47 32 }

def setTqb (k : Nat) (eq : Bool) (v : Word) : M Unit := do
  if eq then onDie (dieOf k) fun x => { x with eqb := FMap.set x.eqb (clusterOf k) (newQueue v) }
  else onCore k fun c => { c with tqb := newQueue v }

/-- A device register of a die written whole, under its access codes (00 R4) and its own rule. -/
def devSet (d : Nat) (name : DevName) (ctx : Nat) (part : Option Nat) (v : Word) : M Unit := do
  let die ← getD d
  match name with
  | .launch =>
    let r : LaunchRecord := { die := d, ctx := ctx, part := part, word := v }
    plan 0 (if bits v 63 62 = 1 then .launchDec r else .launchEnq r)
  | .lstat => onDie d fun x => { x with lstat := x.lstat &&& (2 ^ 32 - 1 - bits v 31 0) }
  | .ageq => onDie d fun x => { x with ageq := bits v 15 0 }
  | .serr => onDie d fun x => { x with serr := x.serr &&& (2 ^ 32 - 1 - bits v 31 0) }
  | .kill =>
    if die.killBusy then pure ()
    else
      onDie d fun x => { x with kill := BitVec.ofNat 64 (bits v 63 63 * 2 ^ 63 + bits v 15 0) }
      if bit v 63 then plan 0 (.contextKill d) else pure ()
  | .corecmd =>
    if die.coreBusy || (bits v 57 56 = 1 && die.corera.toNat < 0x5000000) then pure ()
    else
      onDie d fun x => { x with corecmd := BitVec.ofNat 64 (bits v 57 16 * 2 ^ 16) }
      if bits v 57 56 = 1 then
        onDie d fun x => { x with coreBusy := true, coreDone := false }
        plan 0 (.coreRemove d)
      else pure ()
  | .corera => onDie d fun x => { x with corera := BitVec.ofNat 64 (bits v 36 8 * 2 ^ 8) }
  | .clpart k => setClpart d k v
  | .eqb k => setTqb (clusterCore d k) true v
  | .eqht k => onDie d fun x => { x with eqb := FMap.set x.eqb k { (FMap.get {} x.eqb k) with head := bits v 15 0 } }
  | .dlstat p => onDie d fun x => { x with
      ports := FMap.set x.ports p { (FMap.get {} x.ports p) with rtry := (FMap.get {} x.ports p).rtry &&& (2 ^ 32 - 1 - bits v 31 0) } }
  | .dlto p => onDie d fun x => { x with
      ports := FMap.set x.ports p { (FMap.get {} x.ports p) with dlto := max 1 (bits v 19 0) } }
  | .lmarg p l => setLmarg d p l v
  | .smarg => setSmarg d v
  | .qlen _ | .kst | .eqfull _ | .defect _ => pure ()

/-- Registers that only H writes (24 R361, R363, 26 R392, R393); a write at another level is ignored. -/
def hOnly : DevName → Bool
  | .kill | .clpart _ | .lmarg _ _ | .smarg => true
  | _ => false

/-- Registers whose fields a 1 clears: a store to one half leaves the other as it is (00 R4). -/
def clearsOnes : DevName → Bool
  | .lstat | .serr | .dlstat _ => true
  | _ => false

/-- A write of 4 or 8 bytes of a register by the issuing thread. -/
def devWrite (ea : Word) (addr n : Nat) (v : Word) : M Unit := do
  match devName addr with
  | none => stop (.refuse (.unspecifiedDevice addr))
  | some (d, name) =>
    let k ← myCore
    let c ← controlT
    let s ← getS
    if name = .launch then check (kindOf k = .port) Cause.protection ea else pure ()
    if hOnly name && c.level ≠ .h then pure ()
    else
      let old := if clearsOnes name then 0 else (devValue s d name).toNat
      let sh := 2 ^ (8 * (addr % 8))
      let whole := if n = 8 then v else BitVec.ofNat 64 (old - old / sh % 2 ^ 32 * sh + v.toNat % 2 ^ 32 * sh)
      devSet d name c.ctx (some (ctxPart s (dieOf k) c.ctx)) whole

end Sys2Proof.Machine
end

