-- ==== Sys2Proof/Machine/Access.lean ====
section
/-! DEFINITION. What loads, stores, atomics and messages share: how many accesses may be outstanding (12 R211), twinned outbound
items (25 R373, R374), remote packages (25 R379, R380), iteration write buffers (04 R70) and the departure of a graft (03 R57, R58). -/

namespace Sys2Proof.Machine

/-! ## Outstanding accesses (12 R211) -/

/-- The class of an access: 1 plain, 2 relaxed, acquire or release. An RLX mark in a segment without RL leaves it plain (05 R89). -/
def accessClass (ea : Word) : M Nat := do
  let sg := FMap.get 0 (← controlT).segs (bits ea 63 61)
  match (← self).bound with
  | .rlx _ _ => return if bit sg 56 then 2 else 1
  | _ => return 1

/-- An access to device registers is plain whatever its mark (09 R163). -/
def partsClass (ea : Word) (ps : List Part) : M Nat := do
  if ps.any fun p => match p.place with | .dev _ => true | _ => false then return 1 else accessClass ea

/-- An acquire orders every later access after it (09 R162, R168 rule 3). -/
def isAcquire (cls : Nat) : M Bool := do
  match (← self).bound with
  | .rlx _ mark => return cls = 2 && (mark = 1 || mark = 3)
  | _ => return false

/-- Slots whose accesses count as those of the thread of a slot: all of its loop (09 R164). -/
def State.crew (s : State) (id : Nat) : List Nat :=
  match s.ringOf id with
  | some (_, r) => r.slots.map (tidOf (id / 16))
  | none => [id]

/-- Accesses of the thread that have left its core and have no answer; reductions of an iteration, and stores that it performed when it retired, stand
with its issuing thread. -/
def openRequests : M (FMap Access) := do
  let id ← me
  let own ← control
  let t ← self
  let o ← getT own
  return if own = id then t.outstanding else t.outstanding ++ o.outstanding

/-- Those of the present iteration alone. -/
def iterRequests : M (FMap Access) := do
  let all ← openRequests
  match (← self).iter with
  | some it => return all.filter fun p => p.2.iter = some it.idx
  | none => return all

/-- Accesses of a class that a slot has outstanding. -/
def Thread.countClass (t : Thread) (cls : Nat) : Nat :=
  (t.producers.filter fun p => p.2.access = cls).length + (t.outstanding.filter fun p => p.2.cls = cls).length

/-- At most one plain and four other accesses of a thread are outstanding, and none issues while an acquire has not been performed; an access beyond
waits, not counted (12 R211, 09 R168). -/
def awaitSlot (cls : Nat) : M Unit := do
  let s ← getS
  let n := ((s.crew (← me)).map fun id => (s.thread id).countClass cls).sum
  let acquiring := (← self).producers.any fun p => p.2.away.any (·.acquire)
  if n < (if cls = 1 then 1 else 4) && !acquiring then pure () else wait false

/-- Every earlier access of the thread performed and complete, every producer done (12 R211, 09 R163). -/
def drained (t : Thread) : Bool := t.producers.isEmpty && t.outstanding.isEmpty

/-- Every earlier access of the thread, of the same iteration only, is complete (12 R223). -/
def awaitAccesses : M Unit := do
  if (← iterRequests).isEmpty && (← self).producers.all (fun p => p.2.access = 0) then pure () else wait false

/-- A program-order point: every earlier access of the thread is complete (09 R163). -/
def awaitPoint : M Unit := do
  if (← openRequests).isEmpty && (← self).producers.all (fun p => p.2.access = 0) then pure () else wait false

/-- A program-order point at which the thread moves or is copied: every producer has filled its register as well (03 R45, 09 R163). -/
def awaitAll : M Unit := do
  if (← self).producers.isEmpty && (← openRequests).isEmpty then pure () else wait false

/-- The accesses that ended at a program-order point are counted (25 R384 sources 13 and 14). -/
def countAccess (cls : Nat) : M Unit := do
  let t ← controlT
  count (← myCore) (if cls = 1 then 13 else 14) (t.level == .u)

/-! ## Twinned items (25 R373, R374) -/

/-- One step of the CRC of ECMA-182 (generator 0x42F0E1EBA9EA3693), a byte at a time, high bit first. -/
def crcBits (c : BitVec 64) : Nat → BitVec 64
  | 0 => c
  | n + 1 => crcBits (if bit c 63 then (c <<< 1) ^^^ 0x42F0E1EBA9EA3693#64 else c <<< 1) n

def crc64 (c : BitVec 64) : List Byte → BitVec 64
  | [] => c
  | b :: bs => crc64 (crcBits (c ^^^ (b.setWidth 64 <<< 56)) 8) bs

/-- What copy 0 does with a mismatched item (25 R374). -/
inductive OnMismatch where
  | trapBoth (value : Word)
  | poisonIt
deriving DecidableEq, Repr

/-- What becomes of an item whose access goes wrong after both copies agreed on it, or on which they did not agree: copy 1 finds
its answer marked, and copy 0 forgets the hash, so that a retry starts afresh. -/
def twinTrapEffs (id task : Nat) (tw : Twin) : List Eff :=
  twinEffs tw.peerCore tw.peerSlot task tw.wid (fun q => { q with
     answers := FMap.set q.answers tw.item [], bad := NSet.insert q.bad tw.item }) ++
  [.thr id fun t => { t with twin := t.twin.map fun q => { q with
     hashes := FMap.erase q.hashes tw.item, bad := NSet.erase q.bad tw.item, armed := tw.item } }]

/-- The count of a twin mismatch (25 R383). -/
def mismatchEff (k : Nat) : Eff :=
  .core k fun c => { c with errs := FMap.set c.errs 9 (min (2 ^ 32 - 1) (FMap.get 0 c.errs 9 + 1)) }

/-- Copy 1 sends the hash of its item and waits for copy 0's answer. -/
def outboundOne (id : Nat) (tw : Twin) (hash : Word) (mm : OnMismatch) : M (Option (List Word)) := do
  match FMap.get? tw.answers tw.item with
  | some vs =>
    match tw.bad.contains tw.item, mm with
    | true, .trapBoth v =>
      stop (.trap Cause.poisoned v [.thr id fun t => { t with twin := t.twin.map fun q => { q with
        answers := FMap.erase q.answers tw.item, bad := NSet.erase q.bad tw.item, sent := tw.item } }])
    | _, _ =>
      thr id fun t => { t with twin := t.twin.map fun q => { q with
        item := q.item + 1, answers := FMap.erase q.answers tw.item, bad := NSet.erase q.bad tw.item } }
      return some vs
  | none =>
    if tw.sent ≤ tw.item then
      stop (.wait false
        [.thr id fun t => { t with twin := t.twin.map fun q => { q with sent := tw.item + 1 } },
         .clock fun c => c.plan (Config.transit (id / 16) tw.peerCore) (.twinHashArrival tw.peerCore tw.peerSlot tw.item hash)])
    else wait false

/-- Copy 0 waits for the hash and performs the item. `perform` answers none when it has parked the thread; the answer then
comes with its completion. -/
def outboundZero (id : Nat) (tw : Twin) (hash : Word) (mm : OnMismatch) (perform : Bool → M (Option (List Word))) :
    M (Option (List Word)) := do
  let known := FMap.get? tw.hashes tw.item
  let task := (← getT id).tcbKey
  if known = some hash && !(tw.bad.contains tw.item) then
    let vs ← tryCatch (perform false) fun e =>
      match e with
      | .trap c v keep => throw (.trap c v (keep ++ twinTrapEffs id task tw))
      | e => throw e
    match vs with
    | some vs => twinAnswer id vs false
    | none => pure ()
    return vs
  else if known.isSome || tw.bad.contains tw.item then
    match mm with
    | .trapBoth v => stop (.trap Cause.poisoned v (mismatchEff (id / 16) :: twinTrapEffs id task tw))
    | .poisonIt =>
      countErr (id / 16) 9
      let vs ← perform true
      match vs with
      | some vs => twinAnswer id vs true
      | none => pure ()
      return vs
  else if tw.armed ≤ tw.item then
    stop (.wait false
      [.thr id fun t => { t with twin := t.twin.map fun q => { q with armed := tw.item + 1 } },
       .clock fun c => c.plan (2 ^ 20) (.twinHashTimeout (id / 16) (id % 16) tw.item)])
  else wait false

/-- An outbound item of a thread (25 R373): performed at once by a thread that is not twinned. Items are numbered in program
order, so an iteration's item waits until it is oldest. -/
def outbound (item : List Word) (mm : OnMismatch) (perform : Bool → M (Option (List Word))) : M (Option (List Word)) := do
  match (← controlT).twin with
  | none => perform false
  | some tw =>
    waitOldest
    -- the other copy has not started yet
    if 16 ≤ tw.peerSlot then wait false else pure ()
    let id ← control
    let hash := crc64 0 (Config.twinBytes item)
    if tw.copy = 1 then outboundOne id tw hash mm else outboundZero id tw hash mm perform

/-! ## Remote packages (25 R379, R380) -/

/-- The lowest port of a mask. -/
def firstPort (mask : Nat) : Nat := ((List.range 32).find? fun p => mask / 2 ^ p % 2 = 1).getD 0

/-- A request to another package, its number made of a count and the thread that waits for it; the time limit of the port runs. -/
def sendRequest (id pkg cls : Nat) (q : Nat → AccessRequest) : M Nat := do
  let s ← getS
  let c := s.thread (s.control id)
  let port := firstPort (routeMask s (dieOf (id / 16)) c.ctx pkg)
  let n := s.pkg.nextAccess * 2 ^ 17 + id
  let i := (s.thread id).iter.map (·.idx)
  onPkg fun p => { p with nextAccess := p.nextAccess + 1 }
  sendFlit port (.request (q n))
  thr id fun t => { t with outstanding := FMap.set t.outstanding n { cls := cls, iter := i, port := port + 1 } }
  plan (256 * (FMap.get {} (s.dieOf (port / 4)).ports (port % 4)).dlto) (.linkTimeout (id / 16) (id % 16) n)
  return n

/-- The key by which a request names its place in the remote package: type and frame. -/
def remoteKey (rtt frame : Nat) : Nat := rtt * 2 ^ 48 + frame

/-- The thread is held to its instruction until the requests it has sent are answered. -/
def holdRemote (id : Nat) (ea : Word) (dest : Dest) (value : Nat) (at_ : FMap Nat) (fn : Nat) : M Unit := do
  claim id dest
  thr id fun t => { t with
    status := .parked .engine none, mwaitDst := dest, gathered := value, gatherEa := ea, gatherAt := at_, gatherFn := fn }

/-- The thread waits for an operation at a home in another package, which may have to register there; the wait counts (12 R217, 03 R44). -/
def waitRemote (id : Nat) (ea : Word) (dest : Dest) (n fn : Nat) : M Unit := do
  holdRemote id ea dest 0 [(n, 0)] fn
  let c ← now
  thr id fun t => { t with status := .parked .registered (some c) }
  let lim := (← controlT).wlim
  if lim = 0 then pure () else plan lim.toNat (.waitLimit (id / 16) (id % 16) c)

/-- The home of an operation that waits in another package is asked to withdraw it (12 R217); its answer comes as an error without a cause, unless the
operation has been served. -/
def recallAll (id : Nat) : List (Nat × Nat) → M Unit
  | [] => pure ()
  | (n, _) :: ns => do
    let s ← getS
    match FMap.get? (s.thread id).outstanding n with
    | some a =>
      sendFlit (a.port - 1) (.request
        { origin := 0, id := s.pkg.nextAccess * 2 ^ 17 + id, kind := .withdraw, key := 0, size := 0, data := BitVec.ofNat 64 n, bound := 0 })
      onPkg fun p => { p with nextAccess := p.nextAccess + 1 }
    | none => pure ()
    recallAll id ns

def takeBack (id : Nat) (byLimit : Bool) : M Unit := do
  let t ← getT id
  match t.recalled with
  | some b => thr id fun t => { t with recalled := some (b || byLimit) }
  | none =>
    recallAll id t.gatherAt
    thr id fun t => { t with recalled := some byLimit }

/-! ## The iteration write buffer (04 R70) -/

/-- A place as one number, so that overlapping places can be compared. -/
def Place.flat : Place → Nat
  | .own key => key
  | .hbm key _ => key
  | .ws d o _ => wsKey d o
  | .ls _ key => key
  | .host key => key
  | .dev a => 2 ^ 70 + a
  | .remote pkg rtt frame => 2 ^ 80 + pkg * 2 ^ 60 + remoteKey rtt frame

/-- The byte that the latest of some buffered stores gives for a place. -/
def bufferedByte (buf : List Buffered) (key : Nat) : Option Byte :=
  (buf.flatMap (·.parts)).foldl (fun acc (p, bs) =>
    if p.flat ≤ key && key < p.flat + bs.length then some (bs.getD (key - p.flat) 0) else acc) none

/-- Bytes read from a place with the buffered stores of the iteration laid over them. -/
def overlay (key : Nat) (bs : List Byte) (buf : List Buffered) : List Byte :=
  if buf.isEmpty then bs else bs.zipIdx.map fun (b, i) => (bufferedByte buf (key + i)).getD b

/-- The buffered stores that a load of the present iteration reads. -/
def ownBuffer : M (List Buffered) := do
  let t ← self
  return match t.iter with | some it => it.buf | none => []

/-- Linear address of a thread address, if its segment is a linear one. -/
def linearOf (t : Thread) (ea : Word) : Option Nat :=
  let sg := FMap.get 0 t.segs (bits ea 63 61)
  if segKind sg = 2 then some ((segBase sg + bits ea 47 0) % 2 ^ 48) else none

/-- The publish group of a linear address's page (07 R141): 0 where it has none. -/
def groupAt (s : State) (ctx a : Nat) : Nat :=
  match (findLeaf 0 3808 ctx a .scheduler).eval s with
  | .ok (lf, _) => bits lf.dw0 47 41
  | .error _ => 0

/-! ## Reads of several parts -/

/-- A read is ordered after the thread's reductions of the same doubleword, and after its reads of it in another package (09 R168 rule 5). -/
def awaitCuts (p : Part) : M Unit := do
  let ks := touched p.place.flat p.len
  let cut := (← openRequests).any fun a => a.2.key.any ks.contains
  let read := (← self).producers.any fun q => q.2.away.any fun a => a.reads.any fun r => r.1 < p.place.flat + p.len && p.place.flat < r.1 + r.2
  if cut || read then wait false else pure ()

def awaitCutsAll : List Part → M Unit
  | [] => pure ()
  | p :: ps => do awaitCuts p; awaitCutsAll ps

/-- Operands of a word that may have to wait for other packages: those it has read already, or read now (10 R188). -/
def operands2 (a b : Code) (x y : Bool) : M (Word × Word) := do
  match (← self).held with
  | [u, v] => return (u, v)
  | _ =>
    let va ← readSrc a x
    let vb ← readSrc b y
    return (va, vb)

def operands1 (a : Code) (x : Bool) : M Word := do
  match (← self).held with
  | [u] => return u
  | _ => readSrc a x

/-- Parts read in rising order: the bytes so far as a number, and the requests sent to other packages. Class 0 is that of a load whose destination counts
as its access. -/
def gatherParts (id cls off value : Nat) (sent : FMap Nat) : List (Word × Part) → M (Nat × FMap Nat)
  | [] => return (value, sent)
  | (ea, p) :: ps => do
    match p.place with
    | .remote pkg rtt frame => do
      let n ← sendRequest id pkg cls fun n =>
        { origin := 0, id := n, kind := .load, key := remoteKey rtt frame, size := p.len, data := 0, bound := 0 }
      gatherParts id cls (off + p.len) value (FMap.set sent n off) ps
    | .dev a => do
      let v ← devRead ea a p.len
      let bs := overlay p.place.flat (leBytes p.len v.toNat) (← ownBuffer)
      gatherParts id cls (off + p.len) (value + leValue bs * 2 ^ (8 * off)) sent ps
    | place => do
      match place.key? with
      | some key => refusePoison key p.len ea
      | none => pure ()
      let (bs, bad) ← readPart place p.len
      if bad then trap Cause.poisoned ea else pure ()
      let bs := overlay place.flat bs (← ownBuffer)
      gatherParts id cls (off + p.len) (value + leValue bs * 2 ^ (8 * off)) sent ps

/-- Bytes of an access that the iteration's own buffer gives where its place lies in another package, by offset (04 R70). -/
def ownBytes (buf : List Buffered) (off : Nat) : List Part → FMap Byte
  | [] => []
  | p :: ps =>
    let mine : FMap Byte := match p.place with
      | .remote _ _ _ => (List.range p.len).filterMap fun i => (bufferedByte buf (p.place.flat + i)).map fun b => (off + i, b)
      | _ => []
    mine ++ ownBytes buf (off + p.len) ps

/-- Bytes with some of them replaced, by offset. -/
def replaceBytes (bs : List Byte) (own : FMap Byte) : List Byte := bs.zipIdx.map fun (b, i) => (FMap.get? own i).getD b

/-- The bytes of parts with their thread addresses. Where some lie in another package the thread is held until they have come, and
executes its word again with them; none then. -/
def gather (ops : List Word) (ps : List (Word × Part)) : M (Option (List Byte)) := do
  let id ← me
  let total := (ps.map (·.2.len)).sum
  if (← self).mwaitToken = 3 then
    let v := (← self).gathered
    thr id fun t => { t with mwaitToken := 0, held := [], gathered := 0 }
    return some (replaceBytes (leBytes total v) (ownBytes (← ownBuffer) 0 (ps.map (·.2))))
  else
    awaitCutsAll (ps.map (·.2))
    let (v, sent) ← gatherParts id 1 0 0 [] ps
    if sent.isEmpty then return some (leBytes total v)
    else
      holdRemote id ((ps.map (·.1)).headD 0) .none v sent 10
      thr id fun t => { t with held := ops }
      return none

def admitAll (ea : Word) (write : Bool) (size : Nat) : List Part → M Unit
  | [] => pure ()
  | p :: ps => do admitAccess ea write size p.place; admitAll ea write size ps

/-- The doublewords of a number of plain loads from an address upward, each checked as an access of its own (15 R286, R290). -/
def locateWords (ea : Word) : Nat → M (List (Word × Part))
  | 0 => return []
  | n + 1 => do
    let st ← segment ea 8 .load
    let ps ← locateParts ea .load st [(0, 8)]
    admitAll ea false 8 ps
    let rest ← locateWords (ea + 8) n
    return ps.map (fun p => (ea, p)) ++ rest

/-! ## Grafts (03 R57, R58) -/

/-- Levels S and H stay on cores of their own kind (22 R319). -/
def levelAllows (lv : Level) (k c : Nat) : Bool := lv = .u || kindOf k = kindOf c

/-- The packet of a graft with a resume offset (03 R57). -/
def graftPacket (t : Thread) (id : Nat) (pc : BitVec 16) : GraftPacket :=
  { fromCore := id / 16, fromSlot := id % 16, ecause := t.ecause, level := t.level.code, inh := t.inh, fflags := t.fflags,
    rm := t.rm, ctx := t.ctx, pc := pc, epc := t.epc, uih := t.uih, pw := t.pw,
    regs := (List.range 10).map fun n => (t.sreg n).val,
    tcb := t.tcb, tcbKey := t.tcbKey, sid := t.sid, wlim := t.wlim, evalue := t.evalue, xfid := t.xfid, cid := 0,
    uid := t.uid }

/-- The 128 bytes of a graft packet (03 R57). -/
def graftBytes (p : GraftPacket) : List Byte :=
  let w0 := b2n (bit p.ecause 63) * 2 ^ 63 + bits p.ecause 7 0 * 2 ^ 55 + p.level * 2 ^ 42 + b2n p.inh * 2 ^ 41 + p.fflags.toNat * 2 ^ 34 +
    p.rm.toNat * 2 ^ 32 + p.ctx * 2 ^ 16 + p.pc.toNat
  let w1 := p.epc.toNat * 2 ^ 48 + p.uih.toNat * 2 ^ 32 + p.pw.toNat
  leBytes 8 w0 ++ leBytes 8 w1 ++ ((List.range 10).flatMap fun i => leBytes 8 (p.regs.getD i 0).toNat) ++
    leBytes 8 p.tcb.toNat ++ leBytes 8 p.wlim.toNat ++ leBytes 8 p.evalue.toNat ++ leBytes 8 p.xfid.toNat

/-- The graft packet that 128 bytes give, with what its receiver knows beside them (03 R57). -/
def graftOf (bs : List Byte) (q : GraftNote) : GraftPacket :=
  let dw (i : Nat) : Word := BitVec.ofNat 64 (leValue ((bs.drop (8 * i)).take 8))
  { fromCore := q.fromCore, fromSlot := q.fromSlot, ecause := BitVec.ofNat 64 (bits (dw 0) 63 63 * 2 ^ 63 + bits (dw 0) 62 55),
    level := bits (dw 0) 43 42, inh := bit (dw 0) 41, fflags := BitVec.ofNat 5 (bits (dw 0) 38 34), rm := BitVec.ofNat 2 (bits (dw 0) 33 32),
    ctx := bits (dw 0) 31 16, pc := BitVec.ofNat 16 (bits (dw 0) 15 0), epc := BitVec.ofNat 16 (bits (dw 1) 63 48),
    uih := BitVec.ofNat 16 (bits (dw 1) 47 32), pw := BitVec.ofNat 32 (bits (dw 1) 31 0), regs := (List.range 10).map fun i => dw (2 + i),
    tcb := dw 12, tcbKey := q.tcbKey, sid := q.sid, wlim := dw 13, evalue := dw 14, xfid := dw 15, cid := 0, uid := q.uid, xc := q.xc }

/-- A graft packet leaves the package by a port, as two flits (03 R57). -/
def sendGraft (port core : Nat) (p : GraftPacket) : M Unit := do
  sendFlit port (.graftHead ((graftBytes p).take 64))
  sendFlit port (.graft core ((graftBytes p).drop 64)
    { fromCore := p.fromCore, fromSlot := p.fromSlot, tcbKey := p.tcbKey, sid := p.sid, uid := p.uid, xc := p.xc })

/-- The thread parks in its origin slot until its packet is taken (03 R58 step 2). -/
def parkGraft (id dst : Nat) (pc : BitVec 16) : M Unit := do
  let t ← getT id
  thr id fun t => { t with status := .parked .graft none, graftTo := dst, graftPc := pc }
  count (id / 16) 15 (t.level == .u)

/-- Departure (03 R58 steps 1 and 2): producers and accesses complete, monitors disarmed, the packet leaves, the thread parks. -/
def departGraft (dst : Nat) (pc : BitVec 16) : M Flow := do
  let id ← me
  check (levelAllows (← getT id).level (id / 16) dst) Cause.illegalOperand
  awaitAll
  check (!((← getC dst).isSealed) ) Cause.neighbourSealed
  disarmAll id
  plan (Config.transit (id / 16) dst) (.graftArrival dst (graftPacket (← self) id pc))
  parkGraft id dst pc
  return .stay

/-- Graft across the link (12 R219, 05 R97): the packet leaves by the port that the routes name. -/
def departRemote (pkg core : Nat) (pc : BitVec 16) : M Flow := do
  let id ← me
  check (levelAllows (← getT id).level (id / 16) core) Cause.illegalOperand
  awaitAll
  disarmAll id
  let port := firstPort (routeMask (← getS) (dieOf (id / 16)) (← self).ctx pkg)
  sendGraft port core (graftPacket (← self) id pc)
  parkGraft id (2 ^ 13 * (port + 1) + core) pc
  return .stay

/-- Codes that a word may name when it grafts by itself: s0 to s9 and zero (12 R219, 23 R347). -/
def graftable (c : Code) : Bool := c.toNat ≤ 9 || c.toNat = 104

/-- Whether a GO leaf makes the thread graft (23 R347), and where to. A twinned thread does not: the pairing of its copies does not migrate (25 R372). -/
def goCore (p : Part) (codes : List Code) : M (Option Nat) := do
  let k ← myCore
  let t ← self
  match atomicCore p.place with
  | some c => return if p.go && c ≠ k && t.iter.isNone && t.col.isNone && t.twin.isNone && codes.all graftable then some c else none
  | none => return none

/-! ## Writes -/

/-- Doublewords whose data is known wrong are marked poison (25 R374); HBM and weight store deliver it so. -/
def poisonWords : List Nat → M Unit
  | [] => pure ()
  | a :: as => do
    if isLs a then emit (.poison a true) else onPkg fun p => { p with eccBad := FMap.set p.eccBad a true }
    poisonWords as

/-- One part of a store performed at its place; a place in another package gets a request, which is answered. -/
def performStore (id : Nat) (ea : Word) (p : Place) (bs : List Byte) (marked : Bool) : M (Option Nat) := do
  match p with
  | .dev a => do devWrite ea a bs.length (BitVec.ofNat 64 (leValue bs)); return none
  | .remote pkg rtt frame => do
    let n ← sendRequest id pkg 1 fun n =>
      { origin := 0, id := n, kind := .store, key := remoteKey rtt frame, size := bs.length,
        data := BitVec.ofNat 64 (leValue bs), bound := b2w marked }
    return some n
  | p => do
    writePart p bs
    match marked, p.key? with
    | true, some key => poisonWords (touched key bs.length)
    | _, _ => pure ()
    return none

/-- Whether the home of a place is not core k, so that its access is an outbound item (25 R373). -/
def Place.outside (k : Nat) : Place → Bool
  | .own _ => false
  | .hbm key _ => homeOf key != k
  | .ws d o _ => homeOf (wsKey d o) != k
  | _ => true

/-- What the twin hash of an access runs over (25 R373). -/
def accessItem (kind : Nat) (ea : Word) (size : Nat) (data : List Word) : List Word :=
  BitVec.ofNat 64 kind :: ea :: BitVec.ofNat 64 size :: data

/-- A write is ordered after every earlier read of the thread (09 R168 rule 2), the reads of its reductions among them, and a plain one after
its earlier stores. -/
def awaitReads : M Unit := do
  if (← openRequests).isEmpty then pure () else wait false

/-- Parts of a store performed in rising order. One that lies in another package holds the thread until it is answered (12 R211), and the others go on
then; answers whether all are done. Code 11 ends a store that has issued, 13 one of the write buffer. -/
def performParts (id : Nat) (ea : Word) (fn : Nat) : List (Place × List Byte) → M Bool
  | [] => return true
  | (p, bs) :: rest => do
    match ← performStore id ea p bs false with
    | some n =>
      holdRemote id ea .none 0 [(n, 0)] fn
      thr id fun t => { t with storing := (p, bs) :: rest }
      return false
    | none => performParts id ea fn rest

/-- All parts of a store of a twinned thread, which is one item (25 R373): the requests sent to other packages. -/
def performItem (id : Nat) (ea : Word) (marked : Bool) (sent : FMap Nat) : List (Place × List Byte) → M (FMap Nat)
  | [] => return sent
  | (p, bs) :: rest => do
    match ← performStore id ea p bs marked with
    | some n => performItem id ea marked (FMap.set sent n 0) rest
    | none => performItem id ea marked sent rest

/-- A buffered store waits while a weight-store group that it writes is busy (05 R100). -/
def awaitGroups : List (Place × List Byte) → M Unit
  | [] => pure ()
  | (p, _) :: rest => do
    match p with
    | .ws d o _ => if (← getD d).busyGroup = some (o / 2 ^ 26 % 16) then wait false else pure ()
    | _ => pure ()
    awaitGroups rest

/-- Buffered stores performed in order, each after the one before it (04 R70, 09 R174); answers those that are left while one is awaited from another
package. A twinned thread performs one outbound store at a time. -/
def performBuffered : List Buffered → M (List Buffered)
  | [] => return []
  | b :: bs => do
    let id ← me
    awaitGroups b.parts
    if (← controlT).twin.isNone || !(b.parts.any fun p => p.1.outside (id / 16)) then
      if ← performParts id b.addr 13 b.parts then performBuffered bs else return b :: bs
    else
      let data := b.parts.flatMap (·.2)
      let out ← outbound (accessItem 1 b.addr data.length [BitVec.ofNat 64 (leValue data)]) .poisonIt fun bad => do
        let sent ← performItem id b.addr bad [] b.parts
        if sent.isEmpty then return some []
        else
          holdRemote id b.addr .none 0 sent 12
          return none
      match out with
      | some _ => return bs
      | none => return b :: bs

/-- The buffer performed as far as it can be at once; answers whether it is empty. -/
def drainBuffer (it : IterCtx) : M Bool := do
  if it.buf.isEmpty then return true
  else
    awaitReads
    let rest ← performBuffered it.buf
    thr (← me) fun t => { t with iter := t.iter.map fun it => { it with buf := rest } }
    return rest.isEmpty

/-- A full buffer, once its iteration is oldest, is performed, and stores are direct from then on (04 R70). Answers whether it is
empty. -/
def flushBuffer : M Bool := do
  waitOldest
  let id ← me
  match (← self).iter with
  | some it =>
    let done ← drainBuffer it
    thr id fun t => { t with iter := t.iter.map fun it => { it with direct := done } }
    return done
  | none => return true

end Sys2Proof.Machine
end

