-- ==== Sys2Proof/Machine/MemAcc.lean ====
section
/-! DEFINITION. Loads, ordered loads, stores, full/empty operations, atomics and reductions (12 R211 to R222, 13 R232). -/

namespace Sys2Proof.Machine

/-! ## Shared steps -/

/-- A release at domain scope is ordered after every earlier access (09 R168 rule 4). -/
def awaitRelease : M Unit := do
  match (← self).bound with
  | .rlx scope mark => if (mark = 2 || mark = 3) && scope = 5 then awaitReads else pure ()
  | _ => pure ()

/-- An access to a register block from an iteration waits until it is the oldest (09 R163). -/
def awaitDevice (ps : List Part) : M Unit := do
  if ps.any fun p => match p.place with | .dev _ => true | _ => false then waitOldest else pure ()

/-- The first part whose leaf makes the thread graft (23 R347). -/
def goFirst (codes : List Code) : List Part → M (Option Nat)
  | [] => return none
  | p :: ps => do
    match ← goCore p codes with
    | some c => return some c
    | none => goFirst codes ps

/-- The widening of a load's bytes by size code (12 R213). -/
def widen (fn v : Nat) : Word :=
  match fn with
  | 0 => (BitVec.ofNat 8 v).signExtend 64
  | 2 => (BitVec.ofNat 16 v).signExtend 64
  | 4 => (BitVec.ofNat 32 v).signExtend 64
  | _ => BitVec.ofNat 64 v

/-- Size of a load by size code (12 R213). -/
def loadSize (fn : Nat) : Nat :=
  match fn with
  | 0 | 1 => 1
  | 2 | 3 => 2
  | 4 | 5 => 4
  | _ => 8

/-- The effective address of format M (12 R212). -/
def effective (base : Word) (i : BitVec 9) (size : Nat) : M Word := do
  return BitVec.ofInt 64 (base.toInt + (← extend i) * size)

/-! ## Loads -/

/-- Cycles until the last part of a load has come. -/
def longestWay (k : Nat) (ps : List Part) : Nat := (ps.map fun p => arrival k p.place).foldl max 0

/-- A thread goes on while another package works on its access, as its long-latency producer (03 R42); a column of a furrow and a twinned thread are held
(assumption 59). -/
def mayGoOn : M Bool := do
  let t ← self
  let c ← controlT
  return t.col.isNone && c.twin.isNone

/-- A result that another package sends: its destination is claimed, and its value comes with the answers (03 R42, 05 R97). -/
def produceAway (id : Nat) (dest : Dest) (cls : Nat) (a : Away) : M Flow := do
  claim id dest
  let goes ← mayGoOn
  thr id fun t => { t with
    producers := FMap.set t.producers t.nextProducer { dest := dest, value := 0, access := cls, away := some { a with holds := !goes } },
    nextProducer := t.nextProducer + 1
    status := if goes then t.status else .parked .engine none }
  return if goes then .next else .stay

/-- A load (12 R213), ordered or not (13 R232). -/
def loadBody (d b : Code) (i : BitVec 9) (fn : Nat) (ordered : Bool) : M Flow := do
  if ordered then waitOldest else pure ()
  let size := loadSize fn
  let ea ← effective (← readSrc b) i size
  let dest ← destOf d
  let parts ← locate ea size .load
  admitAll ea false size parts
  let cls ← partsClass ea parts
  awaitSlot cls
  awaitDevice parts
  match ← goFirst [d, b] parts with
  | some c => departGraft c (← self).faultPc
  | none =>
    awaitCutsAll parts
    let id ← me
    let k := id / 16
    let acquire ← isAcquire cls
    let run : M (Option (List Word)) := do
      let (v, sent) ← gatherParts id 0 0 0 [] (parts.map fun p => (ea, p))
      if sent.isEmpty then return some [BitVec.ofNat 64 v]
      else
        let buf ← ownBuffer
        let _ ← produceAway id dest cls
          { ea := ea, fn := fn, asked := sent, got := v, own := ownBytes buf 0 parts, epc := (← self).faultPc, acquire := acquire,
            reads := parts.filterMap fun p => match p.place with | .remote _ _ _ => some (p.place.flat, p.len) | _ => none }
        return none
    let out ← if parts.any fun p => p.place.outside k
      then outbound (accessItem 0 ea size []) (.trapBoth ea) fun _ => run
      else run
    countAccess cls
    match out with
    | some (v :: _) =>
      claim id dest
      expect id dest (widen fn v.toNat) (longestWay k parts) cls
      return .next
    | _ => return if ← mayGoOn then .next else .stay

/-- LD.B, BU, H, HU, W, WU, D (12 R213) -/
def execLd (d b : Code) (i : BitVec 9) (s : BitVec 3) (st : State) : Out :=
  instr { ext := true, dst := some d, base := some b, marked := .load, literals := s ≠ 7 } (loadBody d b i s.toNat false) st

/-- LD.*.ORD (13 R232) -/
def execLdOrd (d b : Code) (i : BitVec 9) (s : BitVec 3) (st : State) : Out :=
  instr { ext := true, dst := some d, base := some b, marked := .load, literals := s ≠ 7 } (loadBody d b i s.toNat true) st

/-! ## Stores -/

/-- The bytes of a store by the places of its parts. -/
def splitBytes (bs : List Byte) : List Part → List (Place × List Byte)
  | [] => []
  | p :: ps => (p.place, bs.take p.len) :: splitBytes (bs.drop p.len) ps

/-- Size of a store by size code (12 R214). -/
def storeSize (s : Nat) : Nat := 2 ^ s

/-- A store that is performed when it issues. -/
def storeNow (ea : Word) (size cls : Nat) (bs : List Byte) (parts : List Part) : M Flow := do
  awaitReads
  let id ← me
  let ps := splitBytes bs parts
  let out ← if (← controlT).twin.isNone || !(parts.any fun p => p.place.outside (id / 16)) then do
      if ← performParts id ea 11 ps then pure (some []) else pure none
    else
      outbound (accessItem 1 ea size [BitVec.ofNat 64 (leValue bs)]) .poisonIt fun marked => do
        let sent ← performItem id ea marked [] ps
        if sent.isEmpty then return some []
        else
          holdRemote id ea .none 0 sent 7
          return none
  countAccess cls
  match out with
  | some _ => return .next
  | none => return .stay

/-- A store (12 R214): in an iteration it enters the write buffer (04 R70). -/
def storeBody (d b : Code) (i : BitVec 9) (s : Nat) : M Flow := do
  let size := storeSize s
  let v ← readSrc d
  let ea ← effective (← readSrc b) i size
  let parts ← locate ea size .store
  admitAll ea true size parts
  let cls ← partsClass ea parts
  awaitSlot cls
  awaitRelease
  let bs := leBytes size v.toNat
  match ← goFirst [d, b] parts with
  | some c => departGraft c (← self).faultPc
  | none =>
    match (← self).iter with
    | none => storeNow ea size cls bs parts
    | some it =>
      if it.direct then storeNow ea size cls bs parts
      else if it.buf.length < 16 then
        thr (← me) fun t => { t with iter := t.iter.map fun it => { it with
          buf := it.buf ++ [{ addr := ea, parts := splitBytes bs parts, relaxed := cls = 2 }] } }
        countAccess cls
        return .next
      else if ← flushBuffer then storeNow ea size cls bs parts
      else return .stay

/-- ST.B, H, W, D (12 R214) -/
def execSt (d b : Code) (i : BitVec 9) (s : BitVec 2) (st : State) : Out :=
  instr { ext := true, srcs := [d], base := some b, marked := .store } (storeBody d b i s.toNat) st

/-! ## Full/empty operations (12 R215 to R217) -/

/-- The one doubleword of a full/empty operation, with the checks of R216. -/
def fullEmptyPart (ea : Word) (need : Need) : M Part := do
  let st ← segment ea 8 need
  check (ea.toNat % 8 = 0) Cause.misaligned ea
  let ps ← locateParts ea need st [(0, 8)]
  match ps with
  | p :: _ =>
    match p.place with
    | .own _ | .ls _ _ | .remote _ 2 _ => do admitAccess ea true 8 p.place; return p
    | _ => trap Cause.protection ea
  | [] => trap Cause.protection ea

/-- An operation is tried again by its thread when its turn comes: it reads a link, whose word it pops only then (04 R78), or stands in a furrow column,
where its wait holds the furrow (04 R81). -/
def isPolled (srcs : List Code) : M Bool := do
  return (← inFurrow) || srcs.any isLink

/-- A wait that the home registers (12 R217): the thread is held to its instruction, or comes back to it. -/
def register (w : Waiter) : M Flow := do
  let id ← me
  let own := (← getC (homeOf w.key)).waiters.any (·.isOf (id / 16) (id % 16))
  if w.polls then stop (.wait true (if own then [] else [.core (homeOf w.key) fun c => { c with waiters := c.waiters ++ [w] }]))
  else
    let n ← now
    onCore (homeOf w.key) fun c => { c with waiters := c.waiters ++ [w] }
    thr id fun t => { t with status := .parked .registered (some n) }
    let lim := (← controlT).wlim
    if lim = 0 then pure () else plan lim.toNat (.waitLimit (id / 16) (id % 16) n)
    return .park

/-- No earlier waiter of a word may proceed before a thread's operation (12 R217). -/
def myTurn (key id : Nat) : M Bool := do
  let s ← getS
  let before := ((s.coreOf (homeOf key)).waiters.takeWhile fun w => !(w.isOf (id / 16) (id % 16))).filter fun w => w.key = key && w.kind != .barw
  return !(before.any fun w => tagAllows w.kind (s.fullAt key))

/-- A full/empty operation at a home of this package: its value, or none when it waits there. -/
def fullEmptyAt (kind : AccessKind) (ea : Word) (key : Nat) (data : Word) (dest : Dest) (polls : Bool) : M (Option Word) := do
  let id ← me
  if tagAllows kind ((← getS).fullAt key) && (← myTurn key id) then
    refusePoison key 8 ea
    onCore (homeOf key) fun c => { c with waiters := c.waiters.filter fun w => !(w.isOf (id / 16) (id % 16)) }
    let v ← fullEmptyAct kind key data
    serveAll key
    return some v
  else
    let _ ← register { core := id / 16, slot := id % 16, addr := ea, key := key, kind := kind, data := data, dest := dest, polls := polls }
    return none

/-- LDF, STF, LDFF -/
def fullEmptyBody (kind : AccessKind) (b : Code) (i : BitVec 9) (cls : Nat) (codes : List Code) (data : Word) (dest : Dest) :
    M Flow := do
  let ea ← effective (← readSrc b) i 8
  let p ← fullEmptyPart ea (if kind = .stf then .both else .tagged)
  waitOldest
  awaitSlot cls
  if kind = .stf then awaitReads else pure ()
  match ← goCore p codes with
  | some c => departGraft c (← self).faultPc
  | none =>
    awaitCuts p
    let id ← me
    let polls ← isPolled (if kind = .stf then codes else [])
    let run (bad : Bool) : M (Option (List Word)) := do
      match p.place with
      | .remote pkg rtt frame => do
        let n ← sendRequest id pkg cls fun n =>
          { origin := 0, id := n, kind := kind, key := remoteKey rtt frame, size := 8, data := data, bound := b2w bad }
        waitRemote id ea dest n (if kind = .stf then 7 else 6)
        countAccess cls
        return none
      | place =>
        match ← fullEmptyAt kind ea (place.key?.getD 0) data dest polls with
        | some v => return some [v]
        | none => return none
    let item := accessItem (if kind = .stf then 3 else if kind = .ldf then 2 else 4) ea 8 [data]
    let mm : OnMismatch := if kind = .stf then .poisonIt else .trapBoth ea
    let marked (bad : Bool) : M (Option (List Word)) := do
      let vs ← run bad
      match bad && vs.isSome, p.place.key? with
      | true, some key => poisonWords (touched key 8)
      | _, _ => pure ()
      return vs
    let out ← if p.place.outside (id / 16) then outbound item mm marked else run false
    match out with
    | some vs =>
      countAccess cls
      if kind = .stf then pure ()
      else
        claim id dest
        expect id dest (vs.headD 0) (arrival (id / 16) p.place) cls
      return .next
    | none => return .park

/-- LDF (12 R215) -/
def execLdf (d b : Code) (i : BitVec 9) (s : State) : Out :=
  instr { ext := true, dst := some d, base := some b } (do
    fullEmptyBody .ldf b i 2 [d, b] 0 (← destOf d)) s

/-- STF (12 R215) -/
def execStf (d b : Code) (i : BitVec 9) (s : State) : Out :=
  instr { ext := true, srcs := [d], base := some b } (do
    let v ← readSrc d
    fullEmptyBody .stf b i 2 [d, b] v .none) s

/-- LDFF (12 R215) -/
def execLdff (d b : Code) (i : BitVec 9) (s : State) : Out :=
  instr { ext := true, dst := some d, base := some b } (do
    fullEmptyBody .ldff b i 1 [d, b] 0 (← destOf d)) s

/-- PURGE at its home: 0, empty, poison cleared; waiting STF operations are served (12 R215, R217). -/
def purgeAt (key : Nat) (marked : Bool) : M Unit := do
  emit (.mem key (leBytes 8 0))
  forgetEcc key
  emit (.poison key marked)
  emit (.tag key false)
  wrote key 8
  serveAll key

/-- PURGE (12 R215) -/
def execPurge (b : Code) (i : BitVec 9) (s : State) : Out :=
  instr { ext := true, base := some b } (do
    let ea ← effective (← readSrc b) i 8
    let p ← fullEmptyPart ea .both
    waitOldest
    awaitSlot 1
    awaitReads
    match ← goCore p [b] with
    | some c => departGraft c (← self).faultPc
    | none =>
      let id ← me
      let run (bad : Bool) : M (Option (List Word)) := do
        match p.place with
        | .remote pkg rtt frame => do
          let n ← sendRequest id pkg 1 fun n =>
            { origin := 0, id := n, kind := .purge, key := remoteKey rtt frame, size := 8, data := 0, bound := b2w bad }
          holdRemote id ea .none 0 [(n, 0)] 7
          return none
        | place => do purgeAt (place.key?.getD 0) bad; return some []
      let out ← if p.place.outside (id / 16) then outbound (accessItem 5 ea 8 []) .poisonIt run else run false
      countAccess 1
      match out with
      | some _ => return .next
      | none => return .stay) s

/-! ## Atomics (12 R218 to R220) -/

/-- The one doubleword of an atomic or reduction, with the checks of R219 and R221 from the second on. -/
def atomicPart (ea : Word) : M Part := do
  let st ← segment ea 8 .atomic
  check (ea.toNat % 8 = 0) Cause.misaligned ea
  let ps ← locateParts ea .atomic st [(0, 8)]
  match ps with
  | p :: _ =>
    match p.place with
    | .ws _ _ _ => trap Cause.weightStore
    | .host _ | .dev _ => trap Cause.protection ea
    | .ls c key => do
      check (!((← getS).coreOf c).isSealed) Cause.neighbourSealed ea
      if underTest (← getS) key then wait false else pure ()
      return p
    | .own key => do
      if underTest (← getS) key then wait false else pure ()
      return p
    | _ => return p
  | [] => trap Cause.protection ea

/-- Whether an address lies in a linear segment (12 R219). -/
def linearSegment (ea : Word) : M Bool := do
  return segKind (FMap.get 0 (← controlT).segs (bits ea 63 61)) = 2

/-- An atomic update at its home: old word and status. A block of a compressed page is decoded and encoded again (23 R344). -/
def rmw (fn : AmoFn) (p : Place) (vb bound : Word) : M (Word × Option Bool) := do
  match p with
  | .hbm _ (some _) => do
    let (bs, _) ← readPart p 8
    let old := BitVec.ofNat 64 (leValue bs)
    let (new, st) := amoOf fn old vb bound
    writePart p (leBytes 8 new.toNat)
    return (old, st)
  | p => performAmo fn (p.key?.getD 0) vb bound

/-- Whether a doubleword comes with poison, from its own mark or that of its compressed block (23 R343). -/
def poisonedPlace (p : Place) : M Bool := do
  match p with
  | .hbm key (some _) => do
    let (_, bad) ← readPart p 8
    return bad || (← poisonedAt key 8)
  | p => poisonedAt (p.key?.getD 0) 8

/-- A read of a doubleword that meets poison traps, precisely (05 R92). -/
def refusePlace (p : Place) (ea : Word) : M Unit := do
  refusePoison (p.key?.getD 0) 8 ea
  if ← poisonedPlace p then trap Cause.poisoned ea else pure ()

/-- An atomic performed on the issuing core, or a trap on poison; the old word comes to its destination. -/
def atomicHere (fn : AmoFn) (d : Code) (ea : Word) (p : Part) (vb bound : Word) (cls : Nat) : M Flow := do
  let id ← me
  awaitReads
  let dest ← destOf d
  refusePlace p.place ea
  let (old, st) ← rmw fn p.place vb bound
  match st with
  | some b => writeSt b
  | none => pure ()
  claim id dest
  expect id dest old (arrival (id / 16) (.own 0)) cls
  countAccess cls
  return .next

/-- An atomic (12 R219): in place, or after a graft to the core that performs it. One whose remote package has a weight store there traps here with the
cause of that target (DEDUCED from 05 R97, assumption 60); so does a RED. -/
def atomicBody (fn : AmoFn) (d a b : Code) (x y : Bool) (implied : Bool) : M Flow := do
  let bound ← if implied then readSrc d else pure 0
  let ea ← readSrc a x
  let vb ← readSrc b y
  let lin ← linearSegment ea
  if lin then
    check (!(← inIteration) && !(← inFurrow) && (← controlT).twin.isNone) Cause.nesting
    check (graftable d && graftable a && graftable b) Cause.illegalOperand
  else pure ()
  let p ← atomicPart ea
  waitOldest
  let cls ← accessClass ea
  awaitSlot cls
  let k ← myCore
  match p.place with
  | .remote pkg 0 frame => departRemote pkg (homeOf (hbmKey (frame / 2 ^ 37 % 8) (frame % 2 ^ 37))) (← self).faultPc
  | .remote pkg 2 frame => departRemote pkg (frame / 2 ^ 21) (← self).faultPc
  | .remote _ _ _ => trap Cause.weightStore
  | place =>
    match atomicCore place with
    | some c => if c = k then atomicHere fn d ea p vb bound cls else departGraft c (← self).faultPc
    | none => trap Cause.protection ea

def atomic (fn : AmoFn) (implied : Bool) (d a b : Code) (x y : Bool) (s : State) : Out :=
  instr { srcs := [a, b], dst := some d, readsDst := implied, marked := .atomic } (atomicBody fn d a b x y implied) s

/-- AMO.SWAP (12 R218) -/
def execAmoSwap (d a b : Code) (x y : Bool) (s : State) : Out := atomic .swap false d a b x y s
/-- AMO.ADD (12 R218) -/
def execAmoAdd (d a b : Code) (x y : Bool) (s : State) : Out := atomic .add false d a b x y s
/-- AMO.AND (12 R218) -/
def execAmoAnd (d a b : Code) (x y : Bool) (s : State) : Out := atomic .and false d a b x y s
/-- AMO.OR (12 R218) -/
def execAmoOr (d a b : Code) (x y : Bool) (s : State) : Out := atomic .or false d a b x y s
/-- AMO.XOR (12 R218) -/
def execAmoXor (d a b : Code) (x y : Bool) (s : State) : Out := atomic .xor false d a b x y s
/-- AMO.MIN (12 R218) -/
def execAmoMin (d a b : Code) (x y : Bool) (s : State) : Out := atomic .min false d a b x y s
/-- AMO.MAX (12 R218) -/
def execAmoMax (d a b : Code) (x y : Bool) (s : State) : Out := atomic .max false d a b x y s
/-- AMO.MINU (12 R218) -/
def execAmoMinu (d a b : Code) (x y : Bool) (s : State) : Out := atomic .minu false d a b x y s
/-- AMO.MAXU (12 R218) -/
def execAmoMaxu (d a b : Code) (x y : Bool) (s : State) : Out := atomic .maxu false d a b x y s
/-- CAS (12 R218) -/
def execCas (d a b : Code) (x y : Bool) (s : State) : Out := atomic .cas true d a b x y s
/-- INCW (12 R218, R220) -/
def execIncw (d a b : Code) (x y : Bool) (s : State) : Out := atomic .incw false d a b x y s
/-- FADDB (12 R218, R220) -/
def execFaddb (d a b : Code) (x y : Bool) (s : State) : Out := atomic .faddb true d a b x y s

/-! ## Reductions (12 R221, R222) -/

/-- A RED update at its home: dropped and counted when its word is poisoned, or when the cutting is marked (12 R222). -/
def performRed (fn : AmoFn) (p : Place) (b : Word) (marked : Bool) : M Unit := do
  let key := p.key?.getD 0
  findEcc (dwKey key)
  if marked || (← poisonedPlace p) then countErr (homeOf key) 6
  else
    let _ ← rmw fn p b 0
    pure ()

/-- The place of a cutting at its home. -/
def Place.ofCutting (c : Cutting) : Place := if isLs c.key then .own c.key else .hbm c.key c.cmp

/-- A cutting on its way, its thread not held. -/
def sendCutting (fn : AmoFn) (key : Nat) (cmp : Option (Nat × Nat × Nat)) (vb : Word) (home cls : Nat) (marked : Bool) : M Unit := do
  let id ← control
  let s ← getS
  let n := s.pkg.nextAccess * 2 ^ 17 + id
  onPkg fun p => { p with nextAccess := p.nextAccess + 1 }
  let i := (← self).iter.map (·.idx)
  thr id fun t => { t with outstanding := FMap.set t.outstanding n { cls := cls, iter := i, key := some (dwKey key) } }
  plan (Config.transit (id / 16) home)
    (.cuttingApply { fromCore := id / 16, fromSlot := id % 16, id := n, key := key, cmp := cmp, fn := fn, data := vb, poison := marked })

/-- A cutting to another package: it leaves as a flit and is awaited for the port's time limit (25 R380). -/
def sendCuttingAway (fn : AmoFn) (pkg rtt frame : Nat) (vb : Word) (cls : Nat) (marked : Bool) : M Unit := do
  let id ← control
  let s ← getS
  let c ← controlT
  let port := firstPort (routeMask s (dieOf (id / 16)) c.ctx pkg)
  let n := s.pkg.nextAccess * 2 ^ 17 + id
  onPkg fun p => { p with nextAccess := p.nextAccess + 1 }
  sendFlit port (.cutting { fromCore := id / 16, fromSlot := id % 16, id := n, key := remoteKey rtt frame, fn := fn, data := vb, poison := marked })
  let i := (← self).iter.map (·.idx)
  thr id fun t => { t with
    outstanding := FMap.set t.outstanding n { cls := cls, iter := i, port := port + 1, key := some (Place.remote pkg rtt frame).flat } }
  plan (256 * (FMap.get {} (s.dieOf (port / 4)).ports (port % 4)).dlto) (.linkTimeout (id / 16) (id % 16) n)

/-- The one doubleword of a reduction, with the checks of R221. -/
def reducePart (ea : Word) : M Part := do
  let st ← segment ea 8 .atomic
  check (ea.toNat % 8 = 0) Cause.misaligned ea
  let ps ← locateParts ea .atomic st [(0, 8)]
  match ps with
  | p :: _ =>
    match p.place with
    | .ws _ _ _ | .remote _ 1 _ => trap Cause.weightStore
    | .host _ | .dev _ => trap Cause.protection ea
    | _ => return p
  | [] => trap Cause.protection ea

/-- RED (12 R221) -/
def reduceBody (fn : AmoFn) (a b : Code) (x y : Bool) : M Flow := do
  let ea ← readSrc a x
  let vb ← readSrc b y
  let p ← reducePart ea
  waitOldest
  let sg := FMap.get 0 (← controlT).segs (bits ea 63 61)
  let t ← self
  let cls := if t.bound ≠ .none && !bit sg 56 then 1 else 2
  awaitSlot cls
  awaitReads
  let k ← myCore
  countAccess cls
  match p.place with
  | .remote pkg rtt frame =>
    let _ ← outbound (accessItem 6 ea 8 [vb]) .poisonIt fun bad => do
      sendCuttingAway fn pkg rtt frame vb cls bad
      return some []
    return .next
  | place =>
    let key := place.key?.getD 0
    let home := homeOf key
    if home = k then
      if underTest (← getS) key then wait false else pure ()
      performRed fn place vb false
    else
      let _ ← outbound (accessItem 6 ea 8 [vb]) .poisonIt fun bad => do
        if ((← getS).coreOf home).isSealed then countErr k 13
        else sendCutting fn key (match place with | .hbm _ c => c | _ => none) vb home cls bad
        return some []
      pure ()
    return .next

def reduce (fn : AmoFn) (a b : Code) (x y : Bool) (s : State) : Out :=
  instr { srcs := [a, b], marked := .red } (reduceBody fn a b x y) s

/-- RED.ADD (12 R221) -/
def execRedAdd (a b : Code) (x y : Bool) (s : State) : Out := reduce .add a b x y s
/-- RED.AND (12 R221) -/
def execRedAnd (a b : Code) (x y : Bool) (s : State) : Out := reduce .and a b x y s
/-- RED.OR (12 R221) -/
def execRedOr (a b : Code) (x y : Bool) (s : State) : Out := reduce .or a b x y s
/-- RED.XOR (12 R221) -/
def execRedXor (a b : Code) (x y : Bool) (s : State) : Out := reduce .xor a b x y s
/-- RED.MIN (12 R221) -/
def execRedMin (a b : Code) (x y : Bool) (s : State) : Out := reduce .min a b x y s
/-- RED.MAX (12 R221) -/
def execRedMax (a b : Code) (x y : Bool) (s : State) : Out := reduce .max a b x y s
/-- RED.MINU (12 R221) -/
def execRedMinu (a b : Code) (x y : Bool) (s : State) : Out := reduce .minu a b x y s
/-- RED.MAXU (12 R221) -/
def execRedMaxu (a b : Code) (x y : Bool) (s : State) : Out := reduce .maxu a b x y s

/-! ## At the home -/

/-- The thread of a cutting learns that it is applied or dropped (12 R221, R222). A cutting of another package came through port
fromCore / 2^13 - 1. -/
def ackCutting (c : Cutting) : M Unit :=
  if 2 ^ 13 ≤ c.fromCore then respond (c.fromCore / 2 ^ 13 - 1) c.id 0 false
  else do
    let id := tidOf c.fromCore c.fromSlot
    thr id fun t => { t with outstanding := FMap.erase t.outstanding c.id }
    settleUpward id

/-- CUTTING_APPLY (12 R221, R222): a cutting has come to its home. The queue of 16 is served at once, so it is full only while a
self-test holds the bank. -/
def execCuttingApply (c : Cutting) (s : State) : Out :=
  event (do
    let s ← getS
    let home := homeOf c.key
    if (s.coreOf home).isSealed then
      if c.fromCore < 2 ^ 13 then countErr c.fromCore 13 else pure ()
      ackCutting c
    else if underTest s c.key then
      let q := (s.coreOf home).cuttings
      if q.contains c then plan 1 (.cuttingApply c)
      else if 16 ≤ q.length then
        countErr home 5
        plan 16 (.cuttingResend c)
      else
        onCore home fun k => { k with cuttings := k.cuttings ++ [c] }
        plan 1 (.cuttingApply c)
    else
      onCore home fun k => { k with cuttings := k.cuttings.filter (· != c) }
      performRed c.fn (Place.ofCutting c) c.data c.poison
      ackCutting c) s

/-- CUTTING_RESEND (12 R221): a refused cutting comes again one rotation after it was refused. -/
def execCuttingResend (c : Cutting) (s : State) : Out := event (plan 0 (.cuttingApply c)) s

end Sys2Proof.Machine
end

