-- ==== Sys2Proof/Machine/Sync.lean ====
section
/-! DEFINITION. Fences, monitors and barriers (12 R223 to R229, 03 R60, R61). -/

namespace Sys2Proof.Machine

/-- FENCE (12 R223): every earlier access of the thread is complete. -/
def execFence (sc : Code) (s : State) : Out :=
  instr { literals := sc.toNat ≤ 5 } (do awaitAccesses; return .next) s

/-! ## Monitors -/

/-- The line of a place that a monitor may watch (12 R224). -/
def monitorLine (ea : Word) (p : Place) : M Nat := do
  match p with
  | .host _ | .dev _ => trap Cause.protection ea
  | .ls c _ => do
    check (!((← getS).coreOf c).isSealed) Cause.neighbourSealed ea
    return p.flat / 64 * 64
  | .remote _ rtt frame => return remoteKey rtt frame / 64 * 64
  | p => return p.flat / 64 * 64

/-- Registrations that a home core keeps (12 R224). -/
def monitorRoom : Nat := 1024

/-- MARM (12 R224) -/
def execMarm (a b : Code) (x y : Bool) (s : State) : Out :=
  instr { srcs := [a, b] } (do
    let ea ← readSrc a x
    let vb ← readSrc b y
    let ps ← locate ea 1 .load
    let place := match ps with | p :: _ => p.place | [] => .dev 0
    let line ← monitorLine ea place
    check (vb.toNat ≤ 3) Cause.illegalOperand
    waitOldest
    let own ← control
    let o ← getT own
    unregister own vb.toNat
    match place with
    | .remote pkg _ _ =>
      let id ← me
      let n ← sendRequest id pkg 0 fun n => { origin := 0, id := n, kind := .monitor, key := line, size := 1, data := 0, bound := 0 }
      holdRemote id ea .none 0 [(n, 0)] 14
      thr id fun t => { t with held := [vb, BitVec.ofNat 64 line, BitVec.ofNat 64 n] }
      return .stay
    | _ =>
      let home := homeOf line
      if monitorRoom ≤ ((← getC home).monRegs).length then writeSt true
      else
        onCore home fun c => { c with
          monRegs := c.monRegs ++ [{ core := own / 16, slot := own % 16, index := vb.toNat, line := line, lin := (linearOf o ea).map (o.ctx, ·) }] }
        thr own fun t => { t with
          monitors := FMap.set t.monitors vb.toNat { line := line, addr := ea &&& ~~~63#64, latched := false } }
        writeSt false
      return .next) s

/-- MDIS (12 R224) -/
def execMdis (a : Code) (x : Bool) (s : State) : Out :=
  instr { srcs := [a] } (do
    let v ← readSrc a x
    let id ← control
    let off (n : Nat) : M Unit := if bit v n then unregister id n else pure ()
    off 0; off 1; off 2; off 3
    return .next) s

/-- The monitors that have latched, as the low bits of the result (03 R61). -/
def latchedBits (t : Thread) : Nat :=
  let b (n : Nat) : Nat := match FMap.get? t.monitors n with
    | some m => if m.latched then 2 ^ n else 0
    | none => 0
  b 0 + b 1 + b 2 + b 3

/-- The result word of MWAIT; the latches it reports are cleared (03 R61). -/
def mwaitResult (id : Nat) (timedOut : Bool) : M Word := do
  let t ← getT id
  thr id fun t => { t with monitors := t.monitors.map fun p => (p.1, { p.2 with latched := false }) }
  return BitVec.ofNat 64 (b2n (t.pend.some || !t.pendUp.isEmpty) * 2 ^ 9 + b2n timedOut * 2 ^ 8 + latchedBits t)

/-- MWAIT (12 R225, 03 R61). One that returns at once because its timeout is 0 reports T, beside a latch as well: the timeout has expired then, which the
rule does not say (DESIGN CHOICE, assumption 61). -/
def execMwait (d a : Code) (x : Bool) (s : State) : Out :=
  instr { srcs := [a], dst := some d } (do
    let limit ← readSrc a x
    waitOldest
    let dest ← destOf d
    let id ← me
    let own ← control
    let t ← self
    let o ← getT own
    let n ← now
    let column := (← inFurrow)
    let late := limit = 0 || (column && t.mwaitToken ≠ 0 && t.mwaitToken ≤ n)
    if late || latchedBits o ≠ 0 || o.pend.some || !o.pendUp.isEmpty then
      let r ← mwaitResult own (late || limit = 0)
      claim id dest
      expect id dest r 0 0
      thr id fun t => { t with mwaitToken := 0, col := t.col.map fun c => { c with mwaiting := false } }
      return .next
    else if column then
      -- a column's MWAIT holds the furrow and is tried again (12 R225)
      if t.mwaitToken = 0 then stop (.wait false [.thr id fun t => { t with
        mwaitToken := n + limit.toNat, col := t.col.map fun c => { c with mwaiting := true } }])
      else wait false
    else
      claim id dest
      thr id fun t => { t with status := .parked .mwait none, mwaitDst := dest, mwaitToken := n + 1 }
      plan limit.toNat (.mwaitTimeout (id / 16) (id % 16) (n + 1))
      return .stay) s

/-- A parked MWAIT returns: its result is filled and the thread goes on at the next word (03 R61). -/
def mwaitReturn (id : Nat) (timedOut : Bool) : M Unit := do
  let own := (← getS).control id
  let t ← getT id
  match t.status with
  | .parked .mwait _ =>
    let r ← mwaitResult own timedOut
    fill id t.mwaitDst r
    thr id fun t => { t with status := .ready, bound := .none, mwaitDst := .none, mwaitToken := 0 }
    emit (.pc id (t.pc + 4#16))
  | _ => pure ()

/-- MWAIT_WAKE (03 R61): a latch or a pending interrupt ends an MWAIT. -/
def execMwaitWake (k t : Nat) (s : State) : Out :=
  event (do
    let own := (← getS).control (tidOf k t)
    let o ← getT own
    if latchedBits o ≠ 0 || o.pend.some || !o.pendUp.isEmpty then mwaitReturn (tidOf k t) false else pure ()) s

/-- MWAIT_TIMEOUT (03 R61) -/
def execMwaitTimeout (k t token : Nat) (s : State) : Out :=
  event (do
    if (← getT (tidOf k t)).mwaitToken = token then mwaitReturn (tidOf k t) true else pure ()) s

/-! ## Barriers -/

def barrierAt (s : State) (key : Nat) : Option Barrier :=
  (s.coreOf (homeOf key)).barriers.find? fun b => b.key = key

/-- Where a barrier word is: own local store, another core's, or HBM, here or in another package (12 R227). -/
def barrierPart (ea : Word) (need : Need) : M Part := do
  let st ← segment ea 8 need
  check (ea.toNat % 8 = 0) Cause.misaligned ea
  let ps ← locateParts ea need st [(0, 8)]
  match ps with
  | p :: _ =>
    match p.place with
    | .ws _ _ _ | .host _ | .dev _ | .remote _ 1 _ => trap Cause.protection ea
    | place => do admitAccess ea true 8 place; return p
  | [] => trap Cause.protection ea

def Place.cmp? : Place → Option (Nat × Nat × Nat)
  | .hbm _ c => c
  | .ws _ _ c => c
  | _ => none

/-- BARI with an expected count n; answers the status bit: the table of 256 armed barriers was full (12 R228). -/
def performBari (key : Nat) (cmp : Option (Nat × Nat × Nat)) (n : Nat) (owner : Option (Nat × Nat)) (slot ctx : Nat) (addr : Word)
    (remote : Option (Nat × Nat) := none) (lin : Option Nat := none) : M Bool := do
  let s ← getS
  let home := homeOf key
  let others := (s.coreOf home).barriers.filter fun b => b.key != key
  if n ≠ 0 && 256 ≤ others.length then return true
  else
    wakeBarrier home (← wordAt key cmp) 3 (barWaiters s key)
    clearPoison key 8 [key]
    setBarrierWord key cmp (BitVec.ofNat 64 (n * 2 ^ 20))
    let b : Barrier := { key := key, cmp := cmp, owner := owner, ownerSlot := slot, ctx := ctx, addr := addr, remote := remote, lin := lin }
    onCore home fun c => { c with barriers := if n = 0 then others else others ++ [b] }
    return false

/-- BARV: status word (12 R228). -/
def performBarv (key : Nat) (b : Word) : M Word := do
  let s ← getS
  match barrierAt s key with
  | none => return 4
  | some bar =>
    let word ← wordAt key bar.cmp
    if bar.broken then return barStatus word 3
    else if bits b 23 0 ≠ bits word 63 40 then return barStatus word 2
    else
      let arr := (bits word 19 0 + 1) % 2 ^ 20
      if arr = bits word 39 20 then
        let new := BitVec.ofNat 64 ((bits word 63 40 + 1) % 2 ^ 24 * 2 ^ 40 + bits word 39 20 * 2 ^ 20)
        setBarrierWord key bar.cmp new
        wakeBarrier (homeOf key) new 1 (barWaiters s key)
        return barStatus new 1
      else
        let new := BitVec.ofNat 64 (bits word 63 20 * 2 ^ 20 + arr)
        setBarrierWord key bar.cmp new
        return barStatus new 0

/-- BARW: status word, or none: it waits (12 R228). -/
def performBarw (key : Nat) (b : Word) : M (Option Word) := do
  match barrierAt (← getS) key with
  | none => return some 4
  | some bar =>
    let word ← wordAt key bar.cmp
    let phase := bits word 63 40
    let want := bits b 23 0
    if bar.broken then return some (barStatus word 3)
    else if want = phase then return none
    else if (phase + 2 ^ 24 - want) % 2 ^ 24 < 2 ^ 23 then return some (barStatus word 1)
    else return some (barStatus word 2)

/-- A barrier operation's request to another package: its number. -/
def barrierAway (id : Nat) (ea : Word) (kind : AccessKind) (pkg rtt frame cls : Nat) (data : Word) : M Nat := do
  let o ← controlT
  let slot := (← control) % 16
  sendRequest id pkg cls fun n =>
    { origin := 0, id := n, kind := kind, key := remoteKey rtt frame, size := 8, data := data, bound := ea, ctx := o.ctx, slot := slot }

/-- A barrier operation that is an outbound item when its home is elsewhere (25 R373). -/
def barrierItem (kind : Nat) (ea vb : Word) (outside : Bool) (run : M (Option (List Word))) : M (Option (List Word)) :=
  if outside then outbound (accessItem kind ea 8 [vb]) (.trapBoth ea) fun _ => run else run

/-- BARI (12 R228) -/
def execBari (a b : Code) (x y : Bool) (s : State) : Out :=
  instr { srcs := [a, b] } (do
    let ea ← readSrc a x
    let vb ← readSrc b y
    let p ← barrierPart ea .atomic
    check (vb.toNat ≤ 2 ^ 20 - 1) Cause.illegalOperand
    waitOldest
    awaitAccesses
    let id ← me
    let own ← control
    let o ← getT own
    let run : M (Option (List Word)) := do
      match p.place with
      | .remote pkg rtt frame => do
        let n ← barrierAway id ea .bari pkg rtt frame 2 vb
        let q ← getS
        holdRemote id ea .none 0 [(n, 0)] 9
        onPkg fun p => { p with
          armedAway := if vb = 0 then p.armedAway else FMap.set p.armedAway n (some (own / 16, own % 16), own, o.ctx, ea),
          armedPort := if vb = 0 then p.armedPort else FMap.set p.armedPort n (((FMap.get? (FMap.get {} q.threads id).outstanding n).map (·.port - 1)).getD 0) }
        return none
      | place =>
        let full ← performBari (place.key?.getD 0) place.cmp? vb.toNat (some (own / 16, own % 16)) (own % 16) o.ctx ea none (linearOf o ea)
        return some [b2w full]
    match ← barrierItem 7 ea vb (p.place.outside (id / 16)) run with
    | some vs => do
      writeSt (vs.headD 0 = 1)
      return .next
    | none => return .stay) s

/-- The status word of a barrier operation comes to its destination, and ST tells a status of 2 or more (12 R227). -/
def barrierResult (dest : Dest) (p : Place) (v : Word) : M Flow := do
  let id ← me
  writeSt (2 ≤ bits v 2 0)
  claim id dest
  expect id dest v (arrival (id / 16) p) 1
  return .next

/-- BARV (12 R228) -/
def execBarv (d a b : Code) (x y : Bool) (s : State) : Out :=
  instr { srcs := [a, b], dst := some d } (do
    let ea ← readSrc a x
    let vb ← readSrc b y
    let dest ← destOf d
    let p ← barrierPart ea .atomic
    waitOldest
    awaitAccesses
    let id ← me
    let run : M (Option (List Word)) := do
      match p.place with
      | .remote pkg rtt frame => do
        let n ← barrierAway id ea .barv pkg rtt frame 0 vb
        let _ ← produceAway id dest 2
          { ea := ea, fn := 8, asked := [(n, 0)], epc := (← self).faultPc, acquire := true, reads := [(p.place.flat, 8)] }
        return none
      | place => do
        refusePlace place ea
        return some [← performBarv (place.key?.getD 0) vb]
    match ← barrierItem 8 ea vb (p.place.outside (id / 16)) run with
    | some vs => barrierResult dest p.place (vs.headD 0)
    | none => return if ← mayGoOn then .next else .stay) s

/-- BARW (12 R228) -/
def execBarw (d a b : Code) (x y : Bool) (s : State) : Out :=
  instr { srcs := [a, b], dst := some d } (do
    let ea ← readSrc a x
    let vb ← readSrc b y
    let dest ← destOf d
    let p ← barrierPart ea .barw
    waitOldest
    awaitAccesses
    let id ← me
    let polls ← isPolled [a, b]
    let run : M (Option (List Word)) := do
      match p.place with
      | .remote pkg rtt frame => do
        let n ← barrierAway id ea .barw pkg rtt frame 2 vb
        waitRemote id ea dest n 8
        return none
      | place => do
        let key := place.key?.getD 0
        refusePlace place ea
        let mine := (← getC (homeOf key)).waiters.find? fun w => w.isOf (id / 16) (id % 16)
        match ← (match mine.bind (·.result) with | some v => pure (some v) | none => performBarw key vb) with
        | some v => do
          onCore (homeOf key) fun c => { c with waiters := c.waiters.filter fun w => !(w.isOf (id / 16) (id % 16)) }
          return some [v]
        | none =>
          let _ ← register
            { core := id / 16, slot := id % 16, addr := ea, key := key, kind := .barw, data := vb, dest := dest, polls := polls }
          return none
    match ← barrierItem 9 ea vb (p.place.outside (id / 16)) run with
    | some vs => barrierResult dest p.place (vs.headD 0)
    | none => return .park) s

end Sys2Proof.Machine
end

