-- ==== Sys2Proof/Machine/Tasks.lean ====
section
/-! DEFINITION. Task control blocks, decrements and retirement (24 R351 to R353), and the slots that may take a thread (03 R55,
R58). -/

namespace Sys2Proof.Machine

/-! ## The global lower bound (13 R240, 08 R153) -/

/-- Partition of a core by its cluster's CLPART (24 R361); none where no cluster block names one. -/
def corePart (s : State) (k : Nat) : Option Nat :=
  match kindOf k with
  | .compute | .cluster =>
    let w := FMap.get 0 (s.dieOf (dieOf k)).clpart (clusterOf k)
    if bit w 63 then some (bits w 15 0) else none
  | _ => none

/-- The value that means withdrawn, or that nothing contributes. -/
def withdrawn : Nat := 2 ^ 64 - 1

def leastOf (d : Nat) (xs : List Nat) : Nat := xs.foldl min d

/-- The smallest LA among the enabled output ports whose cells lie in a domain (08 R153). -/
def Core.portLa (c : Core) (dom : Nat) : Option Nat :=
  let las := (c.dda.outs.filter fun p => p.2.en && bits (FMap.get {} c.dda.cells p.2.cell).patch 62 61 = dom).map (·.2.la)
  match las with
  | [] => none
  | l :: ls => some (leastOf l ls)

/-- Contributions of a core: its VT + 1, the stamps of its messages not yet placed, and the bounds of its gated domains. -/
def Core.bounds (c : Core) : List Nat :=
  (if c.vt = BitVec.allOnes 64 then [] else [c.vt.toNat + 1]) ++
  (c.sendq.map fun m => m.1.stamp.toNat) ++ (c.ddaq.map fun m => m.stamp.toNat) ++
  c.dda.doms.filterMap fun p =>
    if p.2.run && p.2.gate then (c.portLa p.1).map fun la => p.2.cnt + la else none

/-- Stamps of messages of other packages that have come for a core of a partition and are not yet placed. -/
def comingStamps (s : State) (part : Option Nat) : List Nat :=
  s.clock.events.filterMap fun e =>
    match e.act with
    | .inboxPlace k m => if 2 ^ 13 ≤ m.fromCore && corePart s k = part then some m.stamp.toNat else none
    | .messageResend m => if 2 ^ 13 ≤ m.fromCore && corePart s m.toCore = part then some m.stamp.toNat else none
    | _ => none

/-- Stamps of messages that wait for room in the queue of their core (13 R241). -/
def waitingStamps (s : State) (part : Option Nat) : List Nat :=
  s.threads.filterMap fun p => if corePart s (p.1 / 16) = part then p.2.sending.map fun m => m.1.toNat else none

/-- The global lower bound of a partition as its tree holds it. -/
def treeGlb (s : State) (part : Option Nat) : Nat :=
  leastOf withdrawn (comingStamps s part ++ waitingStamps s part ++ (s.cores.filter fun p => corePart s p.1 = part).flatMap fun p => p.2.bounds)

/-- The global lower bound that a core sees: it may lag the tree and never exceeds it. -/
def seenGlb (s : State) (k : Nat) : Nat := min (s.coreOf k).glb.toNat (treeGlb s (corePart s k))

/-- A contribution has changed: each core of the partition learns it after its lag. -/
def planGlb (part : Option Nat) : List (Nat × Core) → M Unit
  | [] => pure ()
  | (k, _) :: cs => do
    if corePart (← getS) k = part then plan (Config.glbLag k (← now) % 257) (.glbUpdate k) else pure ()
    planGlb part cs

def glbChanged (k : Nat) : M Unit := do
  let s ← getS
  planGlb (corePart s k) s.cores

/-! ## Task control blocks -/

/-- A doubleword written by the hardware on its own behalf. -/
def hwWrite (key : Nat) (w : Word) : M Unit := storeBytes key (leBytes 8 w.toNat)

/-- A field of a doubleword replaced. -/
def putBits (w : Word) (hi lo v : Nat) : Word :=
  BitVec.ofNat 64 (w.toNat - bits w hi lo * 2 ^ lo + v % 2 ^ (hi + 1 - lo) * 2 ^ lo)

def setField (key hi lo v : Nat) : M Unit := do hwWrite key (putBits (← readDw key) hi lo v)

/-- STATE of a TCB. -/
def tcbState (s : State) (key : Nat) : Nat := bits (memDw s key) 63 60
def setTcbState (key st : Nat) : M Unit := setField key 63 60 st

/-- Segment image with every right, for addresses that the hardware itself translates. -/
def hwSegment : BitVec 128 := BitVec.ofNat 128 (0xF * 2 ^ 52)

/-- The key of a linear address in a context, by the tables of a die; none when its translation faults or it is not in memory of
this package. -/
def keyOf (s : State) (d ctx : Nat) (a : Nat) (need : Need) : Option Nat :=
  match (translate (BitVec.ofNat 64 a) (3808 + 4 * d) ctx .h (a % 2 ^ 48) need hwSegment false .scheduler).eval s with
  | .ok ((p, _), _) => p.key?
  | .error _ => none

/-- The TCB at a linear address: HBM of this package (24 R351). -/
def tcbAt (s : State) (d ctx : Nat) (lin : Word) : Option Nat :=
  match keyOf s d ctx (bits lin 47 0) .both with
  | some key => if isHbm key then some key else none
  | none => none

/-- The die whose scheduler runs a task. -/
def tcbDie (s : State) (key : Nat) : Nat := bits (memDw s key) 2 0

def countBad (d : Nat) : M Unit := onDie d fun x => { x with serr := min (2 ^ 32 - 1) (x.serr + 1) }

/-- A task queued at its priority (24 R352, R354). NEXT of the task before it names it. -/
def enqueueTask (key : Nat) (lin : Word) : M Unit := do
  let s ← getS
  let d := tcbDie s key
  let prio := bits (memDw s key) 57 56
  let q := FMap.get [] (s.dieOf d).queues prio
  setTcbState key 1
  hwWrite (key + 0xA0) (BitVec.ofNat 64 s.clock.now)
  match q.getLast? with
  | some last => hwWrite (last + 0x98) lin
  | none => pure ()
  hwWrite (key + 0x98) 0
  onPkg fun p => { p with tcbLin := FMap.set p.tcbLin key lin }
  onDie d fun x => { x with queues := FMap.set x.queues prio (FMap.get [] x.queues prio ++ [key]) }
  plan 0 (.schedulerDispatch d)

/-- A decrement of a TCB (24 R352). -/
def decrementKey (key : Nat) (lin : Word) : M Unit := do
  let s ← getS
  let pcnt := bits (memDw s (key + 8)) 31 0
  if tcbState s key = 0 && pcnt ≠ 0 then
    setField (key + 8) 31 0 (pcnt - 1)
    if pcnt = 1 then enqueueTask key lin else pure ()
  else countBad (tcbDie s key)

/-- A decrement of the TCB at a linear address of a context (24 R352); one that cannot be reached is refused and counted. -/
def decrementAt (d ctx : Nat) (lin : Word) : M Unit := do
  match tcbAt (← getS) d ctx lin with
  | some key => decrementKey key lin
  | none => countBad d

def decrementAll (d ctx : Nat) : List Word → M Unit
  | [] => pure ()
  | l :: ls => do decrementAt d ctx l; decrementAll d ctx ls

/-- The successors that n overflow blocks name, in order (24 R351): structural on the blocks that are followed. -/
def overflow (s : State) (d ctx : Nat) (lin : Word) : Nat → List Word
  | 0 => []
  | n + 1 =>
    if lin = 0 then []
    else
      match keyOf s d ctx (bits lin 47 0) .load with
      | none => []
      | some key =>
        let here := ((List.range 31).map fun i => memDw s (key + 8 * i)).takeWhile (· ≠ 0)
        here ++ overflow s d ctx (memDw s (key + 8 * 31)) n

/-- Blocks of one overflow chain that a retirement follows. -/
def maxBlocks : Nat := 65536

/-- The cluster control core whose event queue takes the record of a task that ended on a core (24 R353). -/
def recordCore (s : State) (ctx k : Nat) : Nat :=
  match kindOf k with
  | .compute | .cluster => clusterCore (dieOf k) (clusterOf k)
  | _ =>
    match supervisor s .u ctx k with
    | some c => if kindOf c = .cluster then c else clusterCore (dieOf k) 0
    | none => clusterCore (dieOf k) 0

/-- A task record (24 R353, 07 R143). -/
def taskRecord (stat cid slot ctx : Nat) (lin : Word) : EventRecord :=
  { ctx := ctx, w0 := BitVec.ofNat 64 (stat * 2 ^ 56 + 3 * 2 ^ 52 + cid % 2 ^ 24 * 2 ^ 24 + slot % 16 * 2 ^ 20), w1 := lin }

/-- Logical number of a core in a context, 0 for a core that its table does not name. -/
def cidIn (s : State) (ctx k : Nat) : Nat := (logicalOf s (dieOf k) ctx k).getD 0

/-- Cores to which a task's seed has been sent forget it. -/
def forgetSeeds (key : Nat) : List (Nat × Core) → M Unit
  | [] => pure ()
  | (k, c) :: cs => do
    if c.seeded.contains key then onCore k fun c => { c with seeded := c.seeded.filter (· ≠ key) } else pure ()
    forgetSeeds key cs

/-- Retirement (24 R353). -/
def retireTask (key : Nat) : M Unit := do
  let s ← getS
  match FMap.get? s.pkg.tasks key with
  | none => pure ()
  | some task =>
    let dw := memDw s key
    setTcbState key 4
    onPkg fun p => { p with tasks := FMap.erase p.tasks key }
    forgetSeeds key s.cores
    decrementAll task.die task.ctx ((List.range (min 6 (bits dw 50 48))).map fun i => memDw s (key + 0x60 + 8 * i))
    decrementAll task.die task.ctx (overflow s task.die task.ctx (memDw s (key + 0x90)) maxBlocks)
    let r := taskRecord 0 (cidIn s task.ctx task.lastCore) task.lastSlot task.ctx task.tcbLin
    let cmode := bits dw 53 52
    if cmode = 0 then pure ()
    else if cmode = 2 && task.vf ≠ 127 then
      plan 0 (.eventRecordPlace (recordCore s task.ctx task.lastCore) r)
      onPkg fun p => { p with outbox := p.outbox ++ [.hostRecord task.vf r] }
    else plan 0 (.eventRecordPlace (recordCore s task.ctx task.lastCore) r)

/-- Whether an array command belongs to a task. -/
def ArrayCmd.task : ArrayCmd → Nat
  | .mma _ _ _ _ t => t
  | .azero _ t => t
  | .awr _ _ t => t
  | .ard _ _ t => t
  | .achk _ _ _ t => t
  | .bsum _ _ t => t
  | .tilemm _ t => t

/-- Whether an engine still holds a command of a task (03 R54). -/
def coreHolds (c : Core) (key : Nat) : Bool :=
  c.array.queue.any (·.task = key) || c.commands.any fun p => p.2.rep.task = key

def openCommands (s : State) (key : Nat) : Bool := s.cores.any fun p => coreHolds p.2 key

/-- A task whose last condition of R54 has come to hold retires. -/
def checkRetire (key : Nat) : M Unit := do
  let s ← getS
  match FMap.get? s.pkg.tasks key with
  | none => pure ()
  | some t => if !t.dispatching && t.live = 0 && !(openCommands s key) then retireTask key else pure ()

def onTask (key : Nat) (f : Task → Task) : M Unit :=
  onPkg fun p =>
    match FMap.get? p.tasks key with
    | some t => { p with tasks := FMap.set p.tasks key (f t) }
    | none => p

/-- TOUT and THR follow the threads of a task (24 R351). -/
def writeCounts (key : Nat) : M Unit := do
  match FMap.get? (← getS).pkg.tasks key with
  | some t => hwWrite (key + 0xA8) (BitVec.ofNat 64 (t.live % 2 ^ 32 * 2 ^ 32 + t.created % 2 ^ 32))
  | none => pure ()

/-- The key of a task control block, or the number of a thread, as a package keeps it that has it from another one, through a port; and what such a
number stands for there: the number in the other package, and the port. -/
def foreignKey (port key : Nat) : Nat := (key + 1) * 2 ^ 70 + port
def isForeign (key : Nat) : Bool := 2 ^ 70 ≤ key
def homeKey (key : Nat) : Nat := key / 2 ^ 70 - 1
def homePort (key : Nat) : Nat := key % 2 ^ 70

/-- A thread joins a task: that of another package counts it there (03 R54). -/
def joinTask (key : Nat) : M Unit := do
  if isForeign key then sendFlit (homePort key) (.taskJoined (homeKey key))
  else
    onTask key fun t => { t with live := t.live + 1, created := t.created + 1 }
    writeCounts key

/-- A thread of a task has ended, on a core and slot of this package if one is given. -/
def leaveTask (key : Nat) (place : Option (Nat × Nat)) : M Unit := do
  if isForeign key then sendFlit (homePort key) (.taskLeft (homeKey key))
  else
    onTask key fun t => { t with
      live := t.live - 1, lastCore := (place.map (·.1)).getD t.lastCore, lastSlot := (place.map (·.2)).getD t.lastSlot }
    writeCounts key
    checkRetire key

/-! ## Slots -/

/-- The head of a furrow that reserves or uses slot 15 of a compute core (04 R79): the core at column 0 of its row. -/
def furrowHead (s : State) (k : Nat) : Option Nat :=
  if hasLinks k then
    let h := k - colOf k
    match FMap.get? s.pkg.furrows h with
    | some f => if colOf k ≤ f.last && f.gone < colOf k then some h else none
    | none => none
  else none

/-- Slots of a core that may take a thread: empty, and not slot 15 under a furrow (03 R51, R55, 04 R64, R79). A sealed or tested
core has none. -/
def emptySlots (s : State) (k : Nat) : List Nat :=
  if (s.coreOf k).isSealed || (s.coreOf k).bist.isSome then []
  else (List.range 16).filter fun t => !(s.occupied (tidOf k t)) && !(t = 15 && (furrowHead s k).isSome)

/-- The slots that dispatch, SPAWN, LOOP and restores may take: none while a graft waits (03 R58). -/
def openSlots (s : State) (k : Nat) : List Nat := if (s.coreOf k).graftq.isEmpty then emptySlots s k else []

/-- A core that is leaving a context takes no thread of it (24 R362). -/
def leaving (s : State) (ctx k : Nat) : Bool :=
  match logicalOf s (dieOf k) ctx k with
  | some n => (coreEntry s (dieOf k) ctx n).any entryLeaving
  | none => false

/-! ## New threads -/

/-- A segment image with its reserved fields ignored (23 R334, 05 R88). -/
def segNorm (v : BitVec 128) : BitVec 128 := v &&& 0x0000FFFFFFFFFFFFC1F0FFFFFFFFFFFF#128

/-- UCTL with its reserved and read-only fields 0 (22 R322). -/
def uctlNorm (v : Word) : Word := v &&& 0xF95FFDFE00000003#64

/-- The segment registers of a context, by the table of a die (23 R334). -/
def contextSegs (s : State) (d ctx : Nat) : FMap (BitVec 128) :=
  (List.range 8).map fun i =>
    let key := ctxKey d ctx (0x20 + 16 * i)
    (i, segNorm (BitVec.ofNat 128 (leValue (Memory.readList s.mem key 16))))

/-- WSP of a slot at a thread's start (03 R48). -/
def startWsp (k t : Nat) : Word := BitVec.ofNat 64 (lsSize k - t * 0x400)

/-- A thread of a context with the control state of R52 (03 R52, R62). -/
def newThread (s : State) (k slot : Nat) (lv : Level) (ctx cid : Nat) (pc : BitVec 16) : Thread :=
  { level := lv, ctx := ctx, cid := cid, pc := pc, wsp := startWsp k slot,
    segs := contextSegs s (dieOf k) ctx
    uctl := uctlNorm (memDw s (ctxKey (dieOf k) ctx 8)) }

/-- A context is placed on a core; VT is withdrawn when that is the first time (13 R239). -/
def noteContext (k ctx : Nat) : M Unit := do
  if (← getC k).ctxs.contains ctx then pure ()
  else
    onCore k fun c => { c with ctxs := NSet.insert c.ctxs ctx, vt := BitVec.allOnes 64 }
    glbChanged k

/-- A thread put into a slot; one of an unregistered context arrives as a trap with Segment Rights (03 R58, 23 R334). -/
def placeThread (k slot : Nat) (t : Thread) : M Unit := do
  let s ← getS
  emit (.place (tidOf k slot) (if t.uid = 0 then { t with uid := s.pkg.nextUid } else t))
  if t.uid = 0 then onPkg fun p => { p with nextUid := p.nextUid + 1 } else pure ()
  noteContext k t.ctx
  if ctxValid s (dieOf k) t.ctx then pure ()
  else
    thr (tidOf k slot) fun t => { t with segs := [], uctl := 0 }
    upward (tidOf k slot) Cause.segmentRights 0 t.pc false

/-- Register values from s0 upward, all full. -/
def regFile (vs : List Word) : FMap Reg := vs.zipIdx.map fun p => (p.2, { val := p.1, full := true })

/-- The physical core and package of a logical core of the thread's context, with the route it needs (24 R359); a core outside the
table traps (03 R55). The first is none for a core of another package, which the third names. -/
def targetCore (n : Word) : M (Option Nat × Nat × Nat) := do
  let s ← getS
  let k ← myCore
  let c ← controlT
  match (if n.toNat < 2 ^ 24 then coreEntry s (dieOf k) c.ctx n.toNat else none) with
  | none => trap Cause.illegalOperand
  | some e =>
    if entryPkg e ≠ s.pkg.number then
      check (routeMask s (dieOf k) c.ctx (entryPkg e) ≠ 0) Cause.illegalOperand
      match entryCore e with
      | some c => return (none, entryPkg e, c)
      | none => trap Cause.illegalOperand
    else
      match entryCore e with
      | some c => return (some c, s.pkg.number, c)
      | none => trap Cause.illegalOperand

end Sys2Proof.Machine
end

