-- ==== Sys2Proof/Machine/Threads.lean ====
section
/-! DEFINITION. Threads that start, move and end: results that arrive, wait limits, seed packets, SPAWN, grafts, YIELD, DONE and
WFLD (03 R42 to R58, 13 R233 to R238). -/

namespace Sys2Proof.Machine

/-! ## Results and limits -/

/-- PRODUCER_RESULT_ARRIVAL (03 R42) -/
def execProducerResultArrival (k t p : Nat) (s : State) : Out :=
  event (do
    let id := tidOf k t
    match FMap.get? (← getT id).producers p with
    | none => pure ()
    | some pr =>
      thr id fun t => { t with producers := FMap.erase t.producers p }
      raiseFlags id pr.flags
      fill id pr.dest pr.value
      settleUpward id
      settleTrapped id) s

/-- The trap of a wait that has reached its limit, once the results that other packages owe the thread have come: one of them may trap first. -/
def limitTrap (id token : Nat) : M Unit := do
  let t ← getT id
  if t.expecting then plan 1 (.waitLimit (id / 16) (id % 16) token) else takeTrap id Cause.waitLimit 0 t.faultPc

/-- WAIT_LIMIT (03 R44): a counted wait that began at `token` has reached the limit. One that is registered in another package is withdrawn there
first (12 R217). -/
def execWaitLimit (k t token : Nat) (s : State) : Out :=
  event (do
    let id := tidOf k t
    let th ← getT id
    match th.status with
    | .waiting (some n) => if n = token then limitTrap id token else pure ()
    | .parked .registered (some n) =>
      if n = token then
        if th.asking then takeBack id true else limitTrap id token
      else pure ()
    | _ => pure ()) s

/-! ## Leaving a slot -/

/-- The events of a thread that leaves its slot, in the order of their causes, each with the core that raised it: they go upward (03 R58, 22 R323). -/
def pendingUpward (t : Thread) : List (Nat × Word × Nat) :=
  let of (cause : Nat) (v : Option Word) := v.toList.map fun v => (cause, v, FMap.get 0 t.pend.cores cause)
  t.pendUp ++ of Cause.integrand t.pend.io ++ of Cause.increment t.pend.ic ++ of Cause.barrierBroken t.pend.bb

def sendDeparted (slot ctx : Nat) : List (Nat × Word × Nat) → M Unit
  | [] => pure ()
  | (c, v, k) :: es => do deliverAsync none k slot ctx c v; sendDeparted slot ctx es

/-- Barriers of other packages lose their owner here: their homes are told, which then report a break themselves (12 R229). -/
def unbindAway (k t : Nat) : FMap (Option (Nat × Nat) × Nat × Nat × Word) → M Unit
  | [] => pure ()
  | (n, owner, rest) :: xs => do
    if owner = some (k, t) then
      let s ← getS
      sendFlit (FMap.get 0 s.pkg.armedPort n) (.request { origin := 0, id := n, kind := .unmonitor, key := 0, size := 0, data := 1, bound := 0 })
      onPkg fun p => { p with armedAway := FMap.set p.armedAway n (none, rest) }
    else pure ()
    unbindAway k t xs

/-- The hardware that would raise events for a thread drops its binding when the slot empties (22 R323). -/
def unbindCore (k t : Nat) : List (Nat × Core) → M Unit
  | [] => do unbindAway k t (← getS).pkg.armedAway
  | (h, c) :: cs => do
    if c.barriers.any fun b => b.owner = some (k, t) then
      onCore h fun c => { c with barriers := c.barriers.map fun b => if b.owner = some (k, t) then { b with owner := none } else b }
    else pure ()
    if c.dda.doms.any fun p => p.2.owner = some (k, t) then
      onCore h fun c => { c with dda := { c.dda with
        doms := c.dda.doms.map fun p => (p.1, if p.2.owner = some (k, t) then { p.2 with owner := none } else p.2) } }
    else pure ()
    unbindCore k t cs

/-- A slot becomes empty; events still pending for its thread go upward. -/
def vacate (id : Nat) : M Unit := do
  pay id
  let t ← getT id
  unbindCore (id / 16) (id % 16) (← getS).cores
  emptySlot id
  sendDeparted (id % 16) t.ctx (pendingUpward t)

/-- The record of a completion that its thread no longer takes (07 R143). -/
def Completion.record (c : Completion) (ctx : Nat) : EventRecord :=
  { w0 := BitVec.ofNat 64 (c.status * 2 ^ 56 + c.kind * 2 ^ 52 + c.cid % 2 ^ 24 * 2 ^ 24 + c.slot % 16 * 2 ^ 20 + 2 ^ 19 + c.xid), w1 := c.pb, ctx := ctx }

/-- Completions that a thread no longer takes become event records, for the cluster of core k (07 R143). -/
def recordsOf (ctx k : Nat) : List Completion → M Unit
  | [] => pure ()
  | c :: cs => do
    plan 0 (.eventRecordPlace (recordCore (← getS) ctx k) (Completion.record c ctx))
    recordsOf ctx k cs

/-- A transfer completion pends for its thread wherever it is, or becomes an event record for the cluster of core `home` (07 R143, 22 R323). -/
def takeCompletion (home uid : Nat) (c : Completion) : M Unit := do
  let s ← getS
  match s.threads.find? (fun p => p.2.uid = uid && p.2.status ≠ .parked .graft none), s.cores.find? (fun p => p.2.graftq.any fun g => g.uid = uid), FMap.get? s.pkg.moved uid with
  | some (id, t), _, _ =>
    if 4 ≤ t.pend.xc.length then recordsOf c.ctx home [c]
    else
      thr id fun t => { t with pend := { t.pend with xc := t.pend.xc ++ [c] } }
      wakeMwait id
  | none, some (k, _), _ => onCore k fun x => { x with graftq := x.graftq.map fun g => if g.uid = uid then { g with xc := g.xc ++ [c] } else g }
  | none, none, some port => sendFlit port (.completion uid c)
  | none, none, none =>
    match s.threads.find? fun p => p.2.uid = uid with
    | some (id, _) => thr id fun t => { t with pend := { t.pend with xc := t.pend.xc ++ [c] } }
    | none => recordsOf c.ctx home [c]

/-- Completions on their way to a package follow a thread through a port. -/
def sendCompletions (port uid : Nat) : List Completion → M Unit
  | [] => pure ()
  | c :: cs => do sendFlit port (.completion uid c); sendCompletions port uid cs

/-! ## Seed packets (02 R38, 03 R52, R54) -/

/-- The doublewords a seed places (02 R33, R38). -/
def placeData (k : Nat) : List (Nat × Word × Bool) → M Unit
  | [] => pure ()
  | (a, v, full) :: ds => do
    storeTagged (lsKey k a) [v] full
    placeData k ds

/-- The words of a frame's text. -/
def placeText (k : Nat) : List (Nat × BitVec 32) → M Unit
  | [] => pure ()
  | (o, w) :: ws => do
    storeBytes (lsKey k (o % 0x10000)) (leBytes 4 w.toNat)
    placeText k ws

def markFrames (k sid : Nat) : List Nat → M Unit
  | [] => pure ()
  | f :: fs => do onCore k fun c => { c with sids := FMap.set c.sids f sid }; markFrames k sid fs

/-- A BANKFMT field written: codes 12 to 15 keep the previous value (05 R94). -/
def setBankFmt (w : Word) (bank fmt : Nat) : Word := if fmt < 12 then putBits w (4 * bank + 3) (4 * bank) fmt else w

def placeFmts (k : Nat) : List (Nat × Nat) → M Unit
  | [] => pure ()
  | (b, f) :: fs => do onCore k fun c => { c with bankfmt := setBankFmt c.bankfmt b f }; placeFmts k fs

/-- Frame of a code-window offset (05 R90). -/
def frameOf (pc : BitVec 16) : Nat := pc.toNat / 2048

/-- The text frames that a seed packet carries: from the entry's frame on, rising and wrapping, as many as fit beside the data in 16 KiB (02 R38). -/
def SeedImage.carried (im : SeedImage) : List Nat :=
  let order := (List.range 32).map fun i => (frameOf im.entry + i) % 32
  (order.filter fun f => f = frameOf im.entry || im.text.any fun w => w.1 / 2048 = f).take ((16384 - 8 * im.data.length) / 2048)

/-- Data, tags, formats and carried frames of a seed packet, written before the entry instruction issues (02 R38). -/
def placeSeed (k sid : Nat) (im : SeedImage) : M Unit := do
  placeData k im.data
  placeFmts k im.banks
  placeText k (im.text.filter fun w => im.carried.contains (w.1 / 2048))
  markFrames k sid im.carried

/-- A seed packet that its core cannot take goes back to the waiting set of its task (01 R17, 24 R355). -/
def returnSeed (k : Nat) (p : SeedPacket) : M Unit := do
  let s ← getS
  match FMap.get? s.pkg.tasks p.tcbKey with
  | none => pure ()
  | some t =>
    onTask p.tcbKey fun t => { t with
      returned := t.returned ++ [(p.wid.toNat, p.twin.getD 0)], live := t.live - 1, created := t.created - 1 }
    if p.carries then onCore k fun c => { c with seeded := c.seeded.filter (· ≠ p.tcbKey) } else pure ()
    writeCounts p.tcbKey
    plan 16 (.threadPlacement t.die p.tcbKey)

/-- Whether a core may take a seed of a context: not sealed, in the context's partition and not leaving (01 R17, 24 R362). -/
def takesSeed (s : State) (k ctx : Nat) : Bool :=
  !(s.coreOf k).isSealed && !(leaving s ctx k) &&
  (match kindOf k with
   | .compute | .cluster =>
     let w := FMap.get 0 (s.dieOf (dieOf k)).clpart (clusterOf k)
     bit w 63 && bits w 15 0 = ctxPart s (dieOf k) ctx
   | _ => true)

/-- The thread that a seed packet starts (03 R52). -/
def seedThread (s : State) (k slot : Nat) (p : SeedPacket) (entry : BitVec 16) : Thread :=
  { newThread s k slot .u p.ctx p.cid entry with
    tcb := p.tcb, tcbKey := p.tcbKey, sid := p.sid, regs := regFile [p.wid, p.tcb],
    twin := p.twin.map fun c => { copy := c, wid := p.wid } }

/-- Two copies of a twinned thread learn of one another when the second has started (25 R372). -/
def pairTwin (id : Nat) : M Unit := do
  let s ← getS
  let t := s.thread id
  match t.twin with
  | none => pure ()
  | some tw =>
    match s.threads.find? fun p => p.2.tcbKey = t.tcbKey && p.2.twin.any fun w => w.wid = tw.wid && w.copy ≠ tw.copy && w.peerSlot = 16 with
    | some (o, _) =>
      thr o fun x => { x with twin := x.twin.map fun w => { w with peerCore := id / 16, peerSlot := id % 16 } }
      thr id fun x => { x with twin := x.twin.map fun w => { w with peerCore := o / 16, peerSlot := o % 16 } }
    | none => pure ()

/-- A thread of a dispatching task has started; when all have, STATE is 3 and the scheduler has room for another task (24 R355). -/
def noteStarted (key : Nat) : M Unit := do
  onTask key fun t => { t with started := t.started + 1 }
  match FMap.get? (← getS).pkg.tasks key with
  | some t =>
    if t.dispatching && t.started = t.total then
      onTask key fun t => { t with dispatching := false }
      setTcbState key 3
      plan 0 (.schedulerDispatch t.die)
    else pure ()
  | none => pure ()

/-- SEED_PACKET_ARRIVAL (02 R38, 03 R51, R52): the packet's contents are written and its thread starts; a thread whose slot is
occupied waits at its core. Where the spec is silent: a packet with an unbound slot that finds no open slot waits at its core too (01 R17 names no return
for it; DESIGN CHOICE, assumption 47), and one whose task names no seed image writes nothing and starts at offset 0 (02 R38; DESIGN CHOICE,
assumption 18). -/
def execSeedPacketArrival (k : Nat) (p : SeedPacket) (s : State) : Out :=
  event (do
    let s ← getS
    if takesSeed s k p.ctx then
      let im := FMap.get? s.pkg.seeds p.image
      if p.carries then
        match im with
        | some im => placeSeed k p.sid im
        | none => pure ()
      else pure ()
      let slots := openSlots (← getS) k
      let slot := match p.slot with
        | some t => if slots.contains t then some t else none
        | none => slots.head?
      match slot with
      | some t =>
        placeThread k t (seedThread s k t p ((im.map (·.entry)).getD 0))
        pairTwin (tidOf k t)
        noteStarted p.tcbKey
      | none => plan 1 (.seedPacketArrival k { p with carries := false })
    else returnSeed k p) s

/-- SEED_PACKET_RETURN (01 R17) -/
def execSeedPacketReturn (k : Nat) (p : SeedPacket) (s : State) : Out := event (returnSeed k p) s

/-- FRAME_PAGE_IN (01 R16, 03 R54): a supervisor has paged the text of one frame. -/
def execFramePageIn (k : Nat) (f : FrameText) (s : State) : Out :=
  event (do
    placeText k (f.words.zipIdx.map fun p => (2048 * (f.frame % 32) + 4 * (p.2 % 512), p.1))
    markFrames k f.sid [f.frame % 32]) s

/-! ## SPAWN (13 R233, R234, 03 R55) -/

/-- The second part of a refused SPAWN: the inline call (03 R55). -/
def spawnInline : M Flow := do
  let t ← self
  callWindow (t.pc + 4#16) true
  thr (← me) fun t => { t with mwaitToken := 0 }
  return .goto t.graftPc

def spawnSend (a b : Code) (x y : Bool) : M Flow := do
  check (!(← inFurrow) && (← controlT).twin.isNone) Cause.nesting
  let va ← readSrc a x
  let vb ← readSrc b y
  let (dst, pkg, there) ← targetCore va
  let id ← me
  let k := id / 16
  check (levelAllows (← controlT).level k (dst.getD there)) Cause.illegalOperand
  let pc ← offsetOf vb
  waitOldest
  awaitAll
  let t ← self
  if (List.range 8).all fun i => (t.sreg (24 + i)).full then pure () else wait false
  let c ← controlT
  let p : SpawnPacket :=
    { fromCore := k, fromSlot := id % 16, src := c.cid, level := c.level.code, ctx := c.ctx, pc := pc, tcb := c.tcb, tcbKey := c.tcbKey,
      sid := c.sid, cid := va.toNat, args := (List.range 4).map fun i => (t.sreg (24 + i)).val }
  match dst with
  | some d => plan (Config.transit k d) (.spawnPacketArrival d p)
  | none =>
    let s ← getS
    sendFlit (firstPort (routeMask s (dieOf k) c.ctx pkg)) (.spawn there p)
  thr id fun t => { t with status := .parked .spawn none, graftPc := pc }
  return .stay

/-- SPAWN (13 R233) -/
def execSpawn (a b : Code) (x y : Bool) (s : State) : Out :=
  instr { srcs := [a, b] } (do
    if (← self).mwaitToken = 2 then spawnInline else spawnSend a b x y) s

/-- An answer to a thread of another package that waits for one: its package's number of the core stands below 2^13, the port above. -/
def answerAway (core slot v : Nat) : M Unit :=
  if 2 ^ 13 ≤ core then sendFlit (core / 2 ^ 13 - 1) (.response (core % 2 ^ 13) slot 0 (BitVec.ofNat 64 v) false) else pure ()

/-- SPAWN_PACKET_ARRIVAL (03 R55, 13 R234) -/
def execSpawnPacketArrival (k : Nat) (p : SpawnPacket) (s : State) : Out :=
  event (do
    let s ← getS
    let home := s.occupied (tidOf p.fromCore p.fromSlot)
    match (if leaving s p.ctx k then none else (openSlots s k).head?) with
    | some t =>
      joinTask p.tcbKey
      placeThread k t { newThread s k t (Level.ofCode p.level) p.ctx p.cid p.pc with
        tcb := p.tcb, tcbKey := p.tcbKey, sid := p.sid,
        regs := p.args.zipIdx.map fun q => (8 + q.2, { val := q.1, full := true }) }
      if home then plan (Config.transit k p.fromCore) (.spawnReply p.fromCore p.fromSlot true) else answerAway p.fromCore p.fromSlot 1
    | none =>
      if home then plan (Config.transit k p.fromCore) (.spawnReply p.fromCore p.fromSlot false)
      else answerAway p.fromCore p.fromSlot 0) s

/-- SPAWN_REPLY (03 R55): accepted: s31 has the return address and IN is 0; refused: the SPAWN becomes an inline call. -/
def execSpawnReply (k t : Nat) (accepted : Bool) (s : State) : Out :=
  event (do
    let id := tidOf k t
    let th ← getT id
    match th.status with
    | .parked .spawn _ =>
      if accepted then
        emit (.reg id (th.place 31) { val := (th.pc + 4#16).setWidth 64, full := true })
        emit (.pw id (setBit th.pw 19 false))
        thr id fun t => { t with status := .ready, bound := .none }
        emit (.pc id (th.pc + 4#16))
      else thr id fun t => { t with status := .ready, mwaitToken := 2 }
    | _ => pure ()) s

/-! ## Grafts (03 R57, R58, 13 R235) -/

/-- GRAFT (13 R235) -/
def execGraft (a : Code) (x : Bool) (s : State) : Out :=
  instr { srcs := [a] } (do
    check (!(← inIteration) && !(← inFurrow) && (← self).twin.isNone) Cause.nesting
    let va ← readSrc a x
    let (dst, pkg, there) ← targetCore va
    let id ← me
    let k := id / 16
    let pc := (← self).pc + 4#16
    check (levelAllows (← self).level k (dst.getD there)) Cause.illegalOperand
    match dst with
    | some c =>
      if c = k then
        awaitAll
        return .next
      else departGraft c pc
    | none => departRemote pkg there pc) s

/-- The 2-D registers of a thread become undefined (14 R259): every byte a free value of its own. -/
def undefineTiles (id : Nat) : M Unit := do
  let n := (← getS).clock.freeCount
  emit (.clock fun c => { c with freeCount := c.freeCount + 16384 })
  thr id fun t => { t with tiles := [], tileFree := some n }

/-- The undefined registers of an arriving thread (03 R58). -/
def freeRegs (id : Nat) (from_ : Nat) : Nat → M Unit
  | 0 => pure ()
  | n + 1 => do
    emit (.reg id (from_ + n) { val := ← free, full := true })
    freeRegs id from_ n

/-- The thread of a graft packet placed in a slot (03 R58 step 4). The packet carries no icnt (03 R57), which starts at 0 (04 R66; DESIGN CHOICE,
assumption 63). -/
def landGraft (k slot : Nat) (p : GraftPacket) : M Unit := do
  let s ← getS
  let cid := match logicalOf s (dieOf k) p.ctx k with | some n => n | none => p.cid
  let t := { newThread s k slot (Level.ofCode p.level) p.ctx cid p.pc with
    tcb := p.tcb, tcbKey := p.tcbKey, sid := p.sid, uid := p.uid, inh := p.inh, fflags := p.fflags, rm := p.rm, pw := p.pw,
    epc := p.epc, uih := p.uih, ecause := p.ecause, evalue := p.evalue, wlim := p.wlim, xfid := p.xfid,
    regs := regFile p.regs,
    pend := { xc := p.xc } }
  placeThread k slot t
  freeRegs (tidOf k slot) 10 22
  undefineTiles (tidOf k slot)
  count k 16 (p.level = 0)

/-- GRAFT_ARRIVAL (03 R58): placed at once, queued, or refused. -/
def execGraftArrival (k : Nat) (p : GraftPacket) (s : State) : Out :=
  event (do
    let s ← getS
    let c := s.coreOf k
    let home := FMap.get? s.threads (tidOf p.fromCore p.fromSlot)
    if c.isSealed then
      match home with
      | some t => takeTrap (tidOf p.fromCore p.fromSlot) Cause.neighbourSealed 0 t.faultPc
      | none => answerAway p.fromCore p.fromSlot 2
    else
      match (if c.graftq.isEmpty && !(leaving s p.ctx k) then (emptySlots s k).head? else none) with
      | some slot =>
        landGraft k slot p
        if home.isSome then plan 0 (.graftAccepted p.fromCore p.fromSlot k) else answerAway p.fromCore p.fromSlot 1
      | none =>
        if c.graftq.length < 8 then
          onCore k fun c => { c with graftq := c.graftq ++ [p] }
          if c.graftq.isEmpty then plan 1 (.graftQueuePlace k) else pure ()
          if home.isSome then plan 0 (.graftAccepted p.fromCore p.fromSlot k) else answerAway p.fromCore p.fromSlot 1
        else
          countErr k 4
          if home.isSome then plan 16 (.graftResend p.fromCore p.fromSlot) else answerAway p.fromCore p.fromSlot 3) s

/-- GRAFT_QUEUE_PLACE (03 R58): the oldest queued packet takes an empty slot, in each cycle that has one. -/
def execGraftQueuePlace (k : Nat) (s : State) : Out :=
  event (do
    let s ← getS
    match (s.coreOf k).graftq, (emptySlots s k).head? with
    | [], _ => pure ()
    | p :: q, some slot =>
      onCore k fun c => { c with graftq := q }
      landGraft k slot p
      if q.isEmpty then pure () else plan 1 (.graftQueuePlace k)
    | _, none => plan 1 (.graftQueuePlace k)) s

/-- Completions that came for a thread between departure and acceptance follow it (03 R58, 07 R143). -/
def forwardCompletions (dst uid : Nat) (xc : List Completion) : M Unit := do
  if xc.isEmpty then pure ()
  else
    let s ← getS
    match (List.range 16).find? fun t => (FMap.get? s.threads (tidOf dst t)).any fun o => o.uid = uid with
    | some t => thr (tidOf dst t) fun o => { o with pend := { o.pend with xc := o.pend.xc ++ xc } }
    | none => onCore dst fun c => { c with graftq := c.graftq.map fun p =>
        if p.uid = uid then { p with xc := p.xc ++ xc } else p }

/-- GRAFT_ACCEPTED (03 R58): the origin slot becomes empty. -/
def execGraftAccepted (k t dst : Nat) (s : State) : Out :=
  event (do
    let id := tidOf k t
    let th ← getT id
    match th.status with
    | .parked .graft _ =>
      vacate id
      forwardCompletions dst th.uid th.pend.xc
    | _ => pure ()) s

/-- GRAFT_RESEND (03 R58): a refused packet comes again one rotation after it was refused. -/
def execGraftResend (k t : Nat) (s : State) : Out :=
  event (do
    let id := tidOf k t
    let th ← getT id
    match th.status with
    | .parked .graft _ =>
      if 2 ^ 13 ≤ th.graftTo then sendGraft (th.graftTo / 2 ^ 13 - 1) (th.graftTo % 2 ^ 13) (graftPacket th id th.graftPc)
      else plan 0 (.graftArrival th.graftTo (graftPacket th id th.graftPc))
    | _ => pure ()) s

/-! ## YIELD, DONE, WFLD -/

/-- The first cycle after `n` that is a position of slot t (13 R236). -/
def nextPosition (n t : Nat) : Nat := n + 1 + (t + 16 - (n + 1) % 16) % 16

/-- YIELD (13 R236) -/
def execYield (s : State) : Out :=
  instr {} (do
    let id ← me
    let n ← now
    if (← self).col.isSome then pure () else thr id fun t => { t with yieldTo := nextPosition n (id % 16) }
    return .next) s

/-- DONE (13 R237) -/
def execDone (s : State) : Out :=
  instr {} (do
    check (!(← inIteration) && !(← inFurrow)) Cause.nesting
    let t ← self
    if t.spawnWindows.contains t.depth then returnWindow
    else
      awaitAccesses
      let id ← me
      disarmAll id
      withdraw id
      settle .next
      vacate id
      recordsOf t.ctx (id / 16) t.pend.xc
      leaveTask t.tcbKey (some (id / 16, id % 16))
      return .park) s

/-- The value of a Fetch Fault (22 R323). -/
def fetchValue (t : Thread) (pc : BitVec 16) : Word := BitVec.ofNat 64 (t.sid % 2 ^ 32 * 2 ^ 32 + frameOf pc)

/-- A field of a work identifier (13 R238). -/
def workField (fs : List WorkField) (k : Nat) (a : Word) (itx : Option Nat) : Word :=
  match fs.drop k with
  | [] => 0
  | f :: rest =>
    let lo := (rest.map (·.width)).sum
    if f.grain = 5 then BitVec.ofNat 64 ((itx.getD 0) % 2 ^ f.width)
    else BitVec.ofNat 64 (a.toNat / 2 ^ lo % 2 ^ f.width)

/-- WFLD (13 R238) -/
def execWfld (d a b : Code) (x y : Bool) (s : State) : Out :=
  instr { srcs := [a, b], dst := some d } (do
    let va ← readSrc a x
    let vb ← readSrc b y
    let t ← self
    let c ← controlT
    check ((← getC (← myCore)).sids.any fun p => p.2 = c.sid && c.sid ≠ 0) Cause.fetchFault (fetchValue c t.pc)
    let fs := FMap.get [] (← getS).pkg.layoutOf c.sid
    check (vb.toNat < fs.length) Cause.illegalOperand
    writeDst d (workField fs vb.toNat va (t.iter.map (·.idx)))
    return .next) s

end Sys2Proof.Machine
end

