-- ==== Sys2Proof/Machine/Num.lean ====
section
/-! DEFINITION. Number formats and their arithmetic on exact values (06): decoding, rounding, conversion with its overflow
policies and flags, MX blocks and packed streams. -/

namespace Sys2Proof.Machine

/-! ## Values -/

/-- A value: NaN (and whether it is signalling), an infinity, or (-1)^neg * m * 2^e exactly (06 R107). -/
inductive Num where
  | nan (signalling : Bool)
  | inf (neg : Bool)
  | fin (neg : Bool) (m : Nat) (e : Int)
deriving DecidableEq, Repr

/-- The flags, in the bit order of FFLAGS (06 R113). -/
abbrev Flags := BitVec 5
namespace Flag
def nv : Flags := 16#5
def dz : Flags := 8#5
def of : Flags := 4#5
def uf : Flags := 2#5
def nx : Flags := 1#5
end Flag

/-- The binary float formats (06 R106). -/
inductive Fmt where
  | f32 | bf16 | e4m3 | e5m2 | e2m3 | e3m2 | e2m1
deriving DecidableEq, Repr

def Fmt.width : Fmt → Nat
  | .f32 => 32 | .bf16 => 16 | .e4m3 => 8 | .e5m2 => 8 | .e2m3 => 6 | .e3m2 => 6 | .e2m1 => 4
/-- Mantissa bits. -/
def Fmt.mant : Fmt → Nat
  | .f32 => 23 | .bf16 => 7 | .e4m3 => 3 | .e5m2 => 2 | .e2m3 => 3 | .e3m2 => 2 | .e2m1 => 1
def Fmt.bias : Fmt → Int
  | .f32 => 127 | .bf16 => 127 | .e4m3 => 7 | .e5m2 => 15 | .e2m3 => 1 | .e3m2 => 3 | .e2m1 => 1
/-- The code of the largest finite value. -/
def Fmt.maxCode : Fmt → Nat
  | .f32 => 0x7F7FFFFF | .bf16 => 0x7F7F | .e4m3 => 0x7E | .e5m2 => 0x7B | .e2m3 => 0x1F | .e3m2 => 0x1F | .e2m1 => 0x7
/-- The code of +infinity, where the format has one. -/
def Fmt.infCode : Fmt → Option Nat
  | .f32 => some 0x7F800000 | .bf16 => some 0x7F80 | .e5m2 => some 0x7C | _ => none
/-- The canonical NaN (06 R107), where the format has one. -/
def Fmt.nanCode : Fmt → Option Nat
  | .f32 => some 0x7FC00000 | .bf16 => some 0x7FC0 | .e4m3 => some 0x7F | .e5m2 => some 0x7E | _ => none
/-- Exponent of the largest normal value of an MX element (06 R120). -/
def Fmt.emax : Fmt → Int
  | .e2m3 => 2 | .e3m2 => 4 | _ => 2

/-- Formats that a conversion reads or writes. -/
inductive NumFmt where
  | flt (f : Fmt)
  | lg6
  | int (w : Nat) (signed : Bool)
deriving DecidableEq, Repr

/-- The value of a code (06 R107). -/
def Fmt.decode (f : Fmt) (c : Nat) : Num :=
  let p := f.mant
  let s := c / 2 ^ (f.width - 1) % 2 = 1
  let mag := c % 2 ^ (f.width - 1)
  let ef := mag / 2 ^ p
  let mf := mag % 2 ^ p
  match f.infCode, f.nanCode with
  | some i, _ =>
    if mag = i then .inf s
    else if i < mag then .nan ((f = .f32 || f = .bf16) && mf < 2 ^ (p - 1))
    else if ef = 0 then .fin s mf (1 - f.bias - p) else .fin s (2 ^ p + mf) (ef - f.bias - p)
  | none, some n =>
    if mag = n then .nan false
    else if ef = 0 then .fin s mf (1 - f.bias - p) else .fin s (2 ^ p + mf) (ef - f.bias - p)
  | none, none => if ef = 0 then .fin s mf (1 - f.bias - p) else .fin s (2 ^ p + mf) (ef - f.bias - p)

/-! ## LG6 (06 R109, R110) -/

/-- The four entries of the table. -/
def lgTable (f : Nat) : Nat :=
  match f with
  | 0 => 16384 | 1 => 19484 | 2 => 23170 | _ => 27554

/-- The logarithm of a code. -/
def lgLog (c : Nat) : Int := if c % 32 < 16 then (c % 32 : Nat) else (c % 32 : Nat) - 32

/-- What the machine uses as 2^(L/4): a numerator and an exponent. -/
def lgReal (l : Int) : Nat × Int := (lgTable (l % 4).toNat, l / 4 - 14)

def lgDecode (c : Nat) : Num :=
  if c % 64 = 0x10 then .fin false 0 0
  else if c % 64 = 0x30 then .nan false
  else .fin (c / 32 % 2 = 1) (lgReal (lgLog c)).1 (lgReal (lgLog c)).2

/-- The term of a product in units of 2^-22; none: not a real (06 R110). -/
def lgTerm (a b : Nat) : Option Int :=
  if a % 64 = 0x30 || b % 64 = 0x30 then none
  else if a % 64 = 0x10 || b % 64 = 0x10 then some 0
  else
    let l := lgLog a + lgLog b
    let t : Int := lgTable (l % 4).toNat * 2 ^ (l / 4 + 8).toNat
    some (if a / 32 % 2 = b / 32 % 2 then t else -t)

def NumFmt.decode : NumFmt → Nat → Num
  | .flt f, c => f.decode c
  | .lg6, c => lgDecode c
  | .int w signed, c =>
    let v : Int := if signed then (BitVec.ofNat w c).toInt else (c % 2 ^ w : Nat)
    .fin (decide (v < 0)) v.natAbs 0

def NumFmt.width : NumFmt → Nat
  | .flt f => f.width
  | .lg6 => 6
  | .int w _ => w

/-! ## Rounding (06 R112, R117) -/

/-- A magnitude m / 2^drop rounded to an integer: to nearest even, toward zero, toward minus and toward plus infinity. -/
def roundMag (mode : Nat) (neg : Bool) (m drop : Nat) : Nat :=
  let q := m / 2 ^ drop
  let r := m % 2 ^ drop
  let up : Bool := match mode with
    | 0 => decide (2 ^ drop < 2 * r) || (2 * r == 2 ^ drop && q % 2 == 1)
    | 1 => false
    | 2 => neg && r != 0
    | _ => !neg && r != 0
  if up then q + 1 else q

/-- The magnitude m * 2^e in units of 2^q, rounded, and whether that is exact. -/
def toUnits (mode : Nat) (neg : Bool) (m : Nat) (e q : Int) : Nat × Bool :=
  if q ≤ e then (m * 2 ^ (e - q).toNat, true)
  else (roundMag mode neg m (q - e).toNat, m % 2 ^ (q - e).toNat == 0)

/-- A converted value: its code, the flags raised, a Conversion Overflow trap instead of them (06 R118), and whether the whole MX
block becomes the stand-in (06 R120). -/
structure Cvt where
  code : Nat
  flags : Flags := 0
  trap : Bool := false
  block : Bool := false
deriving DecidableEq, Repr

def signCode (f : Fmt) (neg : Bool) : Nat := if neg then 2 ^ (f.width - 1) else 0

/-- A finite value that overflows a float format (06 R118). -/
def Fmt.overflow (f : Fmt) (mode policy : Nat) (neg : Bool) : Cvt :=
  let big := signCode f neg + f.maxCode
  let away : Bool := mode = 0 || (mode = 2 && neg) || (mode = 3 && !neg)
  match policy with
  | 0 => { code := big, flags := Flag.of ||| Flag.nx }
  | 1 => { code := (if away then f.infCode.map (signCode f neg + ·) else none).getD big, flags := Flag.of ||| Flag.nx }
  | 2 => { code := f.nanCode.getD 0, flags := Flag.of ||| Flag.nx, block := f.nanCode.isNone }
  | _ => { code := 0, trap := true }

/-- A finite value rounded to a float format: tininess after rounding, subnormals kept (06 R115, R117). -/
def Fmt.round (f : Fmt) (mode policy : Nat) (neg : Bool) (m : Nat) (e : Int) : Cvt :=
  if m = 0 then { code := signCode f neg }
  else
    let p : Int := f.mant
    let emin := 1 - f.bias
    let top : Int := m.log2 + e
    let (u, _) := toUnits mode neg m e (top - p)
    let tiny : Bool := (if u = 2 ^ (f.mant + 1) then top + 1 else top) < emin
    let q := max (top - p) (emin - p)
    let (r, exact) := toUnits mode neg m e q
    let code := ((q + p + f.bias - 1) * 2 ^ f.mant + r).toNat
    if f.maxCode < code then f.overflow mode policy neg
    else { code := signCode f neg + code, flags := (if exact then 0 else Flag.nx) ||| (if tiny && !exact then Flag.uf else 0) }

/-- An integer destination (06 R117 to R119). -/
def intRange (w : Nat) (signed : Bool) : Int × Int := if signed then (-(2 ^ (w - 1)), 2 ^ (w - 1) - 1) else (0, 2 ^ w - 1)

def intCode (w : Nat) (v : Int) : Nat := (v % 2 ^ w).toNat

/-- What an integer destination gets for a value out of its range (06 R118, R119). -/
def intBeyond (w : Nat) (signed neg : Bool) (policy : Nat) : Cvt :=
  let (lo, hi) := intRange w signed
  match policy with
  | 0 | 1 => { code := intCode w (if neg then lo else hi), flags := Flag.nv }
  | 2 => { code := if signed then 2 ^ (w - 1) else 2 ^ w - 1, flags := Flag.nv }
  | _ => { code := 0, trap := true }

def roundInt (w : Nat) (signed : Bool) (mode policy : Nat) (neg : Bool) (m : Nat) (e : Int) : Cvt :=
  let (r, exact) := toUnits mode neg m e 0
  let v : Int := if neg then -(r : Int) else r
  let (lo, hi) := intRange w signed
  if v < lo || hi < v then intBeyond w signed neg policy
  else { code := intCode w v, flags := if exact then 0 else Flag.nx }

/-- A finite value into LG6 (06 R111): the integer nearest to 4 log2|x|, found from the binary logarithm of x^8. -/
def lgEncode (policy : Nat) (neg : Bool) (m : Nat) (e : Int) : Cvt :=
  if m = 0 then { code := 0x10 }
  else
    let l : Int := (((m ^ 8).log2 : Int) + 8 * e + 1) / 2
    let sgn := if neg then 32 else 0
    if l < -15 then { code := 0x10, flags := Flag.uf ||| Flag.nx }
    else if 15 < l then
      match policy with
      | 0 | 1 => { code := sgn + 15, flags := Flag.of ||| Flag.nx }
      | 2 => { code := 0x30, flags := Flag.of ||| Flag.nx }
      | _ => { code := 0, trap := true }
    else
      let (t, te) := lgReal l
      let exact : Bool := if e ≤ te then m = t * 2 ^ (te - e).toNat else m * 2 ^ (e - te).toNat = t
      { code := sgn + (l % 32).toNat, flags := if exact then 0 else Flag.nx }

/-- Conversion to a float format (06 R117 to R119). -/
def Fmt.convert (f : Fmt) (mode policy : Nat) : Num → Cvt
  | .fin neg m e => f.round mode policy neg m e
  | .inf neg =>
    match f.infCode with
    | some i => { code := signCode f neg + i }
    | none =>
      match policy with
      | 0 | 1 => { code := signCode f neg + f.maxCode, flags := Flag.nv }
      | 2 => { code := f.nanCode.getD 0, flags := Flag.nv, block := f.nanCode.isNone }
      | _ => { code := 0, trap := true }
  | .nan sig =>
    match f.nanCode with
    | some n => { code := n, flags := if sig then Flag.nv else 0 }
    | none => if policy = 3 then { code := 0, trap := true } else { code := 0, flags := Flag.nv, block := true }

/-- Conversion of a value to a format under a rounding mode and an overflow policy (06 R117 to R119). -/
def NumFmt.convert (d : NumFmt) (mode policy : Nat) (x : Num) : Cvt :=
  match d with
  | .flt f => f.convert mode policy x
  | .lg6 =>
    match x with
    | .fin neg m e => lgEncode policy neg m e
    | .inf neg =>
      match policy with
      | 0 | 1 => { code := (if neg then 32 else 0) + 15, flags := Flag.nv }
      | 2 => { code := 0x30, flags := Flag.nv }
      | _ => { code := 0, trap := true }
    | .nan sig => { code := 0x30, flags := if sig then Flag.nv else 0 }
  | .int w signed =>
    match x with
    | .fin neg m e => roundInt w signed mode policy neg m e
    | .inf neg => intBeyond w signed neg policy
    | .nan _ =>
      match policy with
      | 0 | 1 => { code := 0, flags := Flag.nv }
      | 2 => { code := if signed then 2 ^ (w - 1) else 2 ^ w - 1, flags := Flag.nv }
      | _ => { code := 0, trap := true }

/-! ## Arithmetic on values (06 R115): exact results with the flags of invalid operations -/

def Num.isSig : Num → Bool
  | .nan s => s
  | _ => false

def Num.isNan : Num → Bool
  | .nan _ => true
  | _ => false

def sigFlag (xs : List Num) : Flags := if xs.any Num.isSig then Flag.nv else 0

def Num.neg : Num → Num
  | .fin s m e => .fin (!s) m e
  | .inf s => .inf (!s)
  | .nan s => .nan s

/-- The value as an integer in units of 2^e0. -/
def signedUnits (s : Bool) (m : Nat) (e e0 : Int) : Int := (if s then -(m : Int) else m) * 2 ^ (e - e0).toNat

/-- Sum of finite values: an exact zero of operands of opposite sign is +0, under mode 2 it is -0 (06 R115). -/
def finAdd (mode : Nat) (s : Bool) (m : Nat) (e : Int) (s' : Bool) (m' : Nat) (e' : Int) : Num :=
  if m = 0 && m' = 0 then .fin (if s = s' then s else mode = 2) 0 0
  else if m = 0 then .fin s' m' e'
  else if m' = 0 then .fin s m e
  else
    let e0 := min e e'
    let v := signedUnits s m e e0 + signedUnits s' m' e' e0
    if v = 0 then .fin (mode = 2) 0 0 else .fin (decide (v < 0)) v.natAbs e0

/-- Sum; a quiet NaN stands for the canonical NaN. -/
def addNum (mode : Nat) (x y : Num) : Num × Flags :=
  match x, y with
  | .nan _, _ => (.nan false, sigFlag [x, y])
  | _, .nan _ => (.nan false, sigFlag [x, y])
  | .inf s, .inf s' => if s = s' then (.inf s, 0) else (.nan false, Flag.nv)
  | .inf s, .fin _ _ _ => (.inf s, 0)
  | .fin _ _ _, .inf s => (.inf s, 0)
  | .fin s m e, .fin s' m' e' => (finAdd mode s m e s' m' e', 0)

/-- Product. -/
def mulNum (x y : Num) : Num × Flags :=
  match x, y with
  | .nan _, _ => (.nan false, sigFlag [x, y])
  | _, .nan _ => (.nan false, sigFlag [x, y])
  | .inf s, .inf s' => (.inf (s != s'), 0)
  | .inf s, .fin s' m _ => if m = 0 then (.nan false, Flag.nv) else (.inf (s != s'), 0)
  | .fin s m _, .inf s' => if m = 0 then (.nan false, Flag.nv) else (.inf (s != s'), 0)
  | .fin s m e, .fin s' m' e' => (.fin (s != s') (m * m') (e + e'), 0)

/-- Product plus addend; an infinity times a zero raises NV even beside a NaN addend (14 R251). -/
def fmaNum (mode : Nat) (negProd negAdd : Bool) (x y c : Num) : Num × Flags :=
  let (p, f) := mulNum x y
  let (r, g) := addNum mode (if negProd then p.neg else p) (if negAdd then c.neg else c)
  (r, f ||| g)

/-- The exact sum of values, and whether infinities of both signs meet in it; a NaN or such infinities make it NaN. The result does not
depend on the order. -/
def exactSum (mode : Nat) (xs : List Num) : Num × Bool :=
  let both := xs.any (· == .inf false) && xs.any (· == .inf true)
  match xs with
  | [] => (.fin false 0 0, false)
  | x :: rest =>
    match rest.foldl (fun a b => (addNum mode a b).1) x with
    | .nan _ => (.nan false, both)
    | r => (r, both)

/-- Quotient: its leading 64 bits and more, with a bit that says whether any remainder is left. -/
def divNum (x y : Num) : Num × Flags :=
  match x, y with
  | .nan _, _ => (.nan false, sigFlag [x, y])
  | _, .nan _ => (.nan false, sigFlag [x, y])
  | .inf _, .inf _ => (.nan false, Flag.nv)
  | .inf s, .fin s' _ _ => (.inf (s != s'), 0)
  | .fin s _ _, .inf s' => (.fin (s != s') 0 0, 0)
  | .fin s m e, .fin s' m' e' =>
    if m' = 0 then (if m = 0 then (.nan false, Flag.nv) else (.inf (s != s'), Flag.dz))
    else
      let n := m * 2 ^ 100
      (.fin (s != s') (2 * (n / m') + b2n (n % m' != 0)) (e - e' - 101), 0)

/-- Integer square root, bit by bit from bit k - 1. -/
def isqrt (n acc : Nat) : Nat → Nat
  | 0 => acc
  | k + 1 => isqrt n (if (acc + 2 ^ k) * (acc + 2 ^ k) ≤ n then acc + 2 ^ k else acc) k

/-- Square root, with a bit for the remainder. -/
def sqrtNum (x : Num) : Num × Flags :=
  match x with
  | .nan s => (.nan false, if s then Flag.nv else 0)
  | .inf s => if s then (.nan false, Flag.nv) else (.inf false, 0)
  | .fin s m e =>
    if m = 0 then (.fin s 0 0, 0)
    else if s then (.nan false, Flag.nv)
    else
      let k : Nat := if e % 2 = 0 then 60 else 61
      let n := m * 2 ^ k
      let r := isqrt n 0 64
      (.fin false (2 * r + b2n (r * r != n)) ((e - k) / 2 - 1), 0)

/-- The order of two values that are no NaN: -1, 0 or 1; zeros are equal. -/
def cmpNum (x y : Num) : Int :=
  let key : Num → Int × Nat × Int := fun
    | .inf s => (if s then -2 else 2, 0, 0)
    | .fin s m e => (if m = 0 then 0 else if s then -1 else 1, m, e)
    | .nan _ => (3, 0, 0)
  let (a, m, e) := key x
  let (b, m', e') := key y
  if a < b then -1 else if b < a then 1
  else if a = 1 || a = -1 then
    let u := m * 2 ^ (e - min e e').toNat
    let v := m' * 2 ^ (e' - min e e').toNat
    if u = v then 0 else if u < v then -a else a
  else 0

def Num.isNeg : Num → Bool
  | .fin s _ _ => s
  | .inf s => s
  | .nan _ => false

/-- FMIN and FMAX on codes of a format (14 R250): the chosen code and the flags. -/
def minMaxCode (f : Fmt) (wantMax : Bool) (a b : Nat) : Nat × Flags :=
  let x := f.decode a
  let y := f.decode b
  let fl := sigFlag [x, y]
  if x.isNan && y.isNan then (f.nanCode.getD 0, fl)
  else if x.isNan then (b, fl)
  else if y.isNan then (a, fl)
  else
    let c := cmpNum x y
    let less : Bool := c < 0 || (c = 0 && x.isNeg && !y.isNeg)
    (if less != wantMax then a else if c = 0 && x.isNeg = y.isNeg then a else b, fl)

/-! ## MX blocks (06 R120, R121) -/

/-- floor(log2 |x|) of the greatest finite nonzero value; none when there is none. -/
def blockTop : List Num → Option Int
  | [] => none
  | .fin _ m e :: xs =>
    if m = 0 then blockTop xs
    else
      let t : Int := m.log2 + e
      match blockTop xs with
      | some u => some (max t u)
      | none => some t
  | _ :: xs => blockTop xs

def clampInt (x lo hi : Int) : Int := if x < lo then lo else if hi < x then hi else x

/-- One encoded MX block: scale, codes, flags, or a trap. -/
structure Block where
  scale : Nat
  codes : List Nat
  flags : Flags := 0
  trap : Bool := false
deriving DecidableEq, Repr

def joinFlags (cs : List Cvt) : Flags := cs.foldl (fun f c => f ||| c.flags) 0

/-- The encoding of a block (06 R120). The flags of its elements are joined, those of a tiny element among them where an overflow of another one makes the
stand-in: R120 says of that case only that OF and NX are raised (DESIGN CHOICE, assumption 52). -/
def mxEncode (f : Fmt) (policy mode : Nat) (xs : List Num) : Block :=
  let anyNan := xs.any Num.isNan
  let anyInf := xs.any fun | .inf _ => true | _ => false
  let standIn (fl : Flags) : Block := { scale := 0xFF, codes := xs.map fun _ => 0, flags := fl }
  if policy = 3 && (anyNan || anyInf) then { scale := 0, codes := [], trap := true }
  else if anyNan || (anyInf && policy = 2) then standIn Flag.nv
  else
    let code : Int := match blockTop xs with
      | none => 127
      | some t => clampInt (t - f.emax + 127) 0 254
    let cs := xs.map fun
      | .fin s m e => f.convert mode policy (.fin s m (e + 127 - code))
      | x => f.convert mode policy x
    if cs.any Cvt.trap then { scale := 0, codes := [], trap := true }
    else if cs.any Cvt.block then standIn (joinFlags cs)
    else { scale := code.toNat, codes := cs.map Cvt.code, flags := joinFlags cs }

/-- A decoded MX element. -/
def mxDecode (f : Fmt) (scale code : Nat) : Num :=
  if scale = 0xFF then .nan false
  else
    match f.decode code with
    | .fin s m e => .fin s m (e + scale - 127)
    | x => x

end Sys2Proof.Machine
end

