-- ==== Sys2Proof/Machine/Float.lean ====
section
/-! DEFINITION. Majors 0x1F to 0x23: scalar float arithmetic, conversion, compare-skip, flags and rounding mode (14 R247 to R256). -/

namespace Sys2Proof.Machine

/-- The FP32 value of a source: bits 31:0 (14 R247). -/
def f32Of (w : Word) : Num := Fmt.f32.decode (bits w 31 0)

/-- A value rounded once to FP32, with the flags of its operation (06 R115, 14 R248). -/
def toF32 (mode : Nat) (r : Num × Flags) : Word × Flags :=
  let c := Fmt.f32.convert mode 1 r.1
  (BitVec.ofNat 64 c.code, r.2 ||| c.flags)

/-- Results of majors 0x1F and 0x20 under a rounding mode. -/
def faddOf (mode : Nat) (a b : Word) : Word × Flags := toF32 mode (addNum mode (f32Of a) (f32Of b))
def fsubOf (mode : Nat) (a b : Word) : Word × Flags := toF32 mode (addNum mode (f32Of a) (f32Of b).neg)
def fmulOf (mode : Nat) (a b : Word) : Word × Flags := toF32 mode (mulNum (f32Of a) (f32Of b))
def fdivOf (mode : Nat) (a b : Word) : Word × Flags := toF32 mode (divNum (f32Of a) (f32Of b))
def fsqrtOf (mode : Nat) (a : Word) : Word × Flags := toF32 mode (sqrtNum (f32Of a))
def fmaOf (negProd negAdd : Bool) (mode : Nat) (a b c : Word) : Word × Flags :=
  toF32 mode (fmaNum mode negProd negAdd (f32Of a) (f32Of b) (f32Of c))

def fminMaxOf (wantMax : Bool) (a b : Word) : Word × Flags :=
  let (c, f) := minMaxCode .f32 wantMax (bits a 31 0) (bits b 31 0)
  (BitVec.ofNat 64 c, f)

/-! ## Shapes -/

/-- d := f(a, b) under the thread's rounding mode, with flags. -/
def floatBinary (f : Nat → Word → Word → Word × Flags) (d a b : Code) (x y : Bool) (s : State) : Out :=
  instr { srcs := [a, b], dst := some d } (do
    let va ← readSrc a x
    let vb ← readSrc b y
    let r := f (← self).rm.toNat va vb
    writeDst d r.1
    raiseFlags (← me) r.2
    return .next) s

/-- A long-latency producer of 28 cycles, whose flags come with its value (14 R249, R256). -/
def floatSlow (d : Code) (r : Word × Flags) : M Unit := do
  let id ← me
  let dst ← destOf d
  claim id dst
  expect id dst r.1 28 0 true r.2

/-- d := f(a, b, d) (14 R251). -/
def floatFused (negProd negAdd : Bool) (d a b : Code) (x y : Bool) (s : State) : Out :=
  instr { srcs := [a, b], dst := some d, readsDst := true } (do
    let va ← readSrc a x
    let vb ← readSrc b y
    let vc ← readSrc d
    let r := fmaOf negProd negAdd (← self).rm.toNat va vb vc
    writeDst d r.1
    raiseFlags (← me) r.2
    return .next) s

/-! ## Arithmetic -/

/-- FADD (14 R249) -/
def execFadd (d a b : Code) (x y : Bool) (s : State) : Out := floatBinary faddOf d a b x y s

/-- FSUB (14 R249) -/
def execFsub (d a b : Code) (x y : Bool) (s : State) : Out := floatBinary fsubOf d a b x y s

/-- FMUL (14 R249) -/
def execFmul (d a b : Code) (x y : Bool) (s : State) : Out := floatBinary fmulOf d a b x y s

/-- FDIV (14 R249) -/
def execFdiv (d a b : Code) (x y : Bool) (s : State) : Out :=
  instr { srcs := [a, b], dst := some d } (do
    let va ← readSrc a x
    let vb ← readSrc b y
    floatSlow d (fdivOf (← self).rm.toNat va vb)
    return .next) s

/-- FSQRT (14 R249) -/
def execFsqrt (d a : Code) (x : Bool) (s : State) : Out :=
  instr { srcs := [a], dst := some d } (do
    let va ← readSrc a x
    floatSlow d (fsqrtOf (← self).rm.toNat va)
    return .next) s

/-- FMIN (14 R250) -/
def execFmin (d a b : Code) (x y : Bool) (s : State) : Out := floatBinary (fun _ => fminMaxOf false) d a b x y s

/-- FMAX (14 R250) -/
def execFmax (d a b : Code) (x y : Bool) (s : State) : Out := floatBinary (fun _ => fminMaxOf true) d a b x y s

/-- FMADD (14 R251) -/
def execFmadd (d a b : Code) (x y : Bool) (s : State) : Out := floatFused false false d a b x y s

/-- FMSUB (14 R251) -/
def execFmsub (d a b : Code) (x y : Bool) (s : State) : Out := floatFused false true d a b x y s

/-- FNMADD (14 R251) -/
def execFnmadd (d a b : Code) (x y : Bool) (s : State) : Out := floatFused true true d a b x y s

/-- FNMSUB (14 R251) -/
def execFnmsub (d a b : Code) (x y : Bool) (s : State) : Out := floatFused true false d a b x y s

/-! ## Conversion -/

/-- The formats of FCVT (14 R252). -/
def cvtFmt (c : Nat) : NumFmt :=
  match c with
  | 0 => .flt .f32 | 1 => .flt .bf16 | 2 => .flt .e4m3 | 3 => .flt .e5m2 | 4 => .lg6
  | 5 => .int 64 true | 6 => .int 64 false | _ => .int 32 true

/-- The word that holds a converted code (14 R247). -/
def cvtWord (f : NumFmt) (c : Nat) : Word :=
  match f with
  | .int 32 true => (BitVec.ofNat 32 c).signExtend 64
  | _ => BitVec.ofNat 64 c

/-- The literal subfields that FCVT allows (14 R252). -/
def cvtLiterals (s t : BitVec 3) (r : BitVec 3) : Bool :=
  r.toNat ≤ 4 && s ≠ t && !(5 ≤ s.toNat && 5 ≤ t.toNat)

/-- The rounding mode that a code of FCVT or of TCVT's control word names (14 R252). -/
def roundingOf (rm : BitVec 2) (r : Nat) : Nat := if r = 4 then rm.toNat else r

/-- FCVT (14 R253) -/
def execFcvt (d a : Code) (s t : BitVec 3) (p : BitVec 2) (r : BitVec 3) (st : State) : Out :=
  instr { srcs := [a], dst := some d, literals := cvtLiterals s t r } (do
    let va ← readSrc a
    let src := cvtFmt s.toNat
    let dst := cvtFmt t.toNat
    let c := dst.convert (roundingOf (← self).rm r.toNat) p.toNat (src.decode (va.toNat % 2 ^ src.width))
    check (!c.trap) Cause.conversion
    writeDst d (cvtWord dst c.code)
    raiseFlags (← me) c.flags
    return .next) st

/-! ## Compare-skip -/

/-- Conditions of FSK (10 R182). -/
def fholds (c : BitVec 4) (x y : Num) : Bool :=
  let un := x.isNan || y.isNan
  let o := cmpNum x y
  match c.toNat with
  | 0 => !un && o = 0
  | 1 => un || o ≠ 0
  | 2 => !un && o < 0
  | 3 => !un && o ≤ 0
  | 4 => !un && 0 < o
  | 5 => !un && 0 ≤ o
  | 6 => un
  | _ => !un

/-- Flags of a comparison (14 R254). -/
def fskFlags (c : BitVec 4) (x y : Num) : Flags :=
  if 2 ≤ c.toNat && c.toNat ≤ 5 then (if x.isNan || y.isNan then Flag.nv else 0) else sigFlag [x, y]

/-- FSK (14 R254) -/
def execFsk (a b : Code) (c : BitVec 4) (k : BitVec 2) (p : BitVec 4) (x y : Bool) (s : State) : Out :=
  instr { srcs := [a, b], literals := c.toNat < 8 } (do
    skipChecks k.toNat
    let va ← readSrc a x
    let vb ← readSrc b y
    let cond := fholds c (f32Of va) (f32Of vb)
    if p = 0 then pure () else writePw p.toNat cond
    annulUnless cond k.toNat
    raiseFlags (← me) (fskFlags c (f32Of va) (f32Of vb))
    return .next) s

/-! ## Float control -/

/-- The bit that describes an FP32 value (14 R255). -/
def fclassOf (a : Word) : Nat :=
  match f32Of a with
  | .nan s => if s then 8 else 9
  | .inf s => if s then 0 else 7
  | .fin s m _ =>
    if m = 0 then (if s then 3 else 4)
    else if m < 2 ^ 23 then (if s then 2 else 5)
    else if s then 1 else 6

/-- FCLASS (14 R255) -/
def execFclass (d a : Code) (x : Bool) (s : State) : Out :=
  instr { srcs := [a], dst := some d } (do
    let va ← readSrc a x
    writeDst d (BitVec.ofNat 64 (2 ^ fclassOf va))
    return .next) s

/-- FFRD, FFCLR and FRMSET wait for the divides and square roots (14 R256). -/
def awaitFloat : M Unit := do
  if (← self).producers.any fun p => p.2.isFloat then wait false else pure ()

/-- FFRD (14 R256) -/
def execFfrd (d : Code) (s : State) : Out :=
  instr { dst := some d } (do
    awaitFloat
    writeDst d ((← self).fflags.setWidth 64)
    return .next) s

/-- FFCLR (14 R256) -/
def execFfclr (d a : Code) (x : Bool) (s : State) : Out :=
  instr { srcs := [a], dst := some d } (do
    awaitFloat
    let va ← readSrc a x
    writeDst d ((← self).fflags.setWidth 64)
    thr (← me) fun t => { t with fflags := t.fflags &&& ~~~(va.setWidth 5) }
    return .next) s

/-- FRMSET (14 R256) -/
def execFrmset (d a : Code) (x : Bool) (s : State) : Out :=
  instr { srcs := [a], dst := some d } (do
    awaitFloat
    let va ← readSrc a x
    check (va.toNat ≤ 3) Cause.illegalOperand
    writeDst d ((← self).rm.setWidth 64)
    thr (← me) fun t => { t with rm := va.setWidth 2 }
    return .next) s

/-- FRMRD (14 R256) -/
def execFrmrd (d : Code) (s : State) : Out :=
  instr { dst := some d } (do
    writeDst d ((← self).rm.setWidth 64)
    return .next) s

end Sys2Proof.Machine
end

