-- ==== Sys2Proof/Machine/Tile.lean ====
section
/-! DEFINITION. Majors 0x24 to 0x2B: the 2-D registers, their shape, loads and stores through bank formats, and arithmetic on
lanes (14 R257 to R271, 05 R94, R95). -/

namespace Sys2Proof.Machine

/-! ## Types, shapes and lanes (14 R257 to R260) -/

/-- Width in bytes of a tile type. -/
def tyWidth (t : Nat) : Nat :=
  match t with
  | 1 | 4 => 2
  | 2 | 3 => 4
  | _ => 1

def tyFmt (t : Nat) : NumFmt :=
  match t with
  | 0 => .int 8 true | 1 => .int 16 true | 2 => .int 32 true
  | 3 => .flt .f32 | 4 => .flt .bf16 | 5 => .flt .e4m3 | _ => .flt .e5m2

/-- The float format of a tile type, or none for an integer type. -/
def tyFloat (t : Nat) : Option Fmt :=
  match tyFmt t with
  | .flt f => some f
  | _ => none

/-- No lane is active (14 R259). -/
def Shape.idle (sh : Shape) : Bool := sh.gc = 0 || sh.ac = 0 || sh.ar = 0

/-- Byte i of the tile registers (14 R257, R259). -/
def Thread.tileByte (t : Thread) (i : Nat) : Byte :=
  match FMap.get? t.tiles i with
  | some b => b
  | none =>
    match t.tileFree with
    | some c => (Config.freeValue (c + i)).setWidth 8
    | none => 0

/-- The active lanes of a register, row by row, as codes of a width (14 R257). -/
def Thread.lanes (t : Thread) (m w : Nat) : List (List Nat) :=
  let sh := t.shape
  (List.range sh.ar).map fun i =>
    let base := 2048 * m + i * sh.gc * w
    let seg : Thread := { t with tiles := t.tiles.filter fun p => base ≤ p.1 && p.1 < base + sh.ac * w }
    (List.range sh.ac).map fun j => leValue ((List.range w).map fun b => seg.tileByte (base + j * w + b))

/-- Bytes put over a stretch of a byte map. -/
def putStretch (m : FMap Byte) (a : Nat) (bs : List Byte) : FMap Byte :=
  m.filter (fun p => p.1 < a) ++ bs.zipIdx.map (fun p => (a + p.2, p.1)) ++ m.filter (fun p => a + bs.length ≤ p.1)

/-- Rows of codes put at the lanes from column 0, row by row. -/
def putRows (m : FMap Byte) (reg w gc i : Nat) : List (List Nat) → FMap Byte
  | [] => m
  | r :: rs => putRows (putStretch m (2048 * reg + i * gc * w) (r.flatMap fun c => leBytes w c)) reg w gc (i + 1) rs

def writeLanes (reg w : Nat) (rows : List (List Nat)) : M Unit := do
  thr (← me) fun t => { t with tiles := putRows t.tiles reg w t.shape.gc 0 rows }

/-- What every tile instruction checks first (14 R260): its unit, its type and options; then the width of ES. -/
def tileForm (t : BitVec 3) (options : Bool := true) (srcs : List Code := []) (pair : Option Code := none) : Form :=
  { unit := hasTiles, literals := t ≠ 7 && options, srcs := srcs, base := pair }

def checkWidth (t : BitVec 3) : M Unit := do
  check (2 ^ (← self).shape.es = tyWidth t.toNat) Cause.illegalOperand

/-- Options of saturation and unsigned reading go with integer types (14 R260). -/
def intOptions (t : BitVec 3) (u s : Bool) : Bool := !(u || s) || t.toNat ≤ 2

/-- A tile instruction that does nothing more once it finds no active lane. -/
def onLanes (t : BitVec 3) (body : Thread → M Unit) : M Flow := do
  checkWidth t
  let th ← self
  if th.shape.idle then pure () else body th
  return .next

/-! ## SHAPE -/

/-- The grant of a request and the active counts (14 R258). -/
def shapeOf (a b : Word) : Shape :=
  let w := 2 ^ bits a 33 32
  let gc := min (bits a 31 16) (256 / w)
  let gr := min (min (bits a 15 0) 64) (2048 / (gc * w))
  { es := bits a 33 32, gc := gc, gr := gr, ac := min (bits b 31 16) gc, ar := min (bits b 15 0) gr }

def Shape.word (sh : Shape) : Word := BitVec.ofNat 64 (sh.gc * 2 ^ 48 + sh.gr * 2 ^ 32 + sh.ac * 2 ^ 16 + sh.ar)

/-- SHAPE (14 R258) -/
def execShape (d a b : Code) (x y : Bool) (s : State) : Out :=
  instr { unit := hasTiles, srcs := [a, b], dst := some d } (do
    let va ← readSrc a x
    let vb ← readSrc b y
    check (bits va 63 34 = 0 && bits va 33 32 ≠ 3 && bits va 31 16 ≠ 0 && bits va 15 0 ≠ 0 && bits vb 63 32 = 0) Cause.illegalOperand
    writeDst d (shapeOf va vb).word
    thr (← me) fun t => { t with shape := shapeOf va vb }
    return .next) s

/-! ## Bank formats (05 R94, R95) -/

/-- The format of a bank by its code; codes 8 to 10 are the MX formats. -/
def bankFmtOf (c : Nat) : NumFmt :=
  match c with
  | 0 => .int 8 true | 1 => .int 16 true | 2 => .int 32 true | 3 => .int 64 true
  | 4 => .flt .f32 | 5 => .flt .bf16 | 6 => .flt .e4m3 | 7 => .flt .e5m2
  | 8 => .flt .e2m3 | 9 => .flt .e3m2 | 10 => .flt .e2m1 | _ => .lg6

/-- Records of an MX format: bytes of a record, blocks in it, bytes of a block's slot, place of the first scale. -/
structure Mx where
  fmt : Fmt
  rec_ : Nat
  per : Nat
  slot : Nat
  scale : Nat

def mxOf (c : Nat) : Option Mx :=
  match c with
  | 8 => some { fmt := .e2m3, rec_ := 128, per := 5, slot := 24, scale := 120 }
  | 9 => some { fmt := .e3m2, rec_ := 128, per := 5, slot := 24, scale := 120 }
  | 10 => some { fmt := .e2m1, rec_ := 64, per := 3, slot := 16, scale := 48 }
  | _ => none

/-- The format in force in the bank of a local-store address of a core (05 R94). -/
def bankFormat (s : State) (k a : Nat) : Nat := (s.coreOf k).bankfmt.toNat / 2 ^ (4 * bankOf k a) % 16

/-- Place of an element relative to its tensor's base: first bit, and the byte of its block's scale (05 R95). -/
def spotOf (c : Nat) (e : Int) : Int × Option Int :=
  match mxOf c with
  | some mx =>
    let q := e / 32
    let r := q / mx.per
    let j := q % mx.per
    (8 * (mx.rec_ * r + mx.slot * j) + mx.fmt.width * (e % 32), some (mx.rec_ * r + mx.scale + j))
  | none => ((bankFmtOf c).width * e, none)

/-- First and last byte of the span of elements lo to hi, from the base (14 R261). -/
def spanOf (c : Nat) (lo hi : Int) : Int × Int :=
  match mxOf c with
  | some mx => (mx.rec_ * (lo / 32 / mx.per), mx.rec_ * (hi / 32 / mx.per + 1) - 1)
  | none =>
    let n : Int := (bankFmtOf c).width
    (n * lo / 8, (n * hi + n - 1) / 8)

/-! ## Tile loads and stores (14 R261 to R264) -/

/-- What the checks of R261 establish: base key, stride, format code, and key and length of the span. -/
structure TileRef where
  key : Nat
  stride : Int
  fmt : Nat
  span : Nat
  len : Nat

/-- The even register that names the address, with the stride after it. -/
def pairCode (a : Code) : Bool := a.toNat ≤ 30 && a.toNat % 2 = 0

/-- Steps 1 to 3 of R261. The span's format is that of the bank in which t lies. -/
def tileRef (ea : Word) (st : Int) (sh : Shape) (store : Bool) : M TileRef := do
  let s ← getS
  let k ← myCore
  let sg := FMap.get 0 (← controlT).segs (bits ea 63 61)
  check (bits ea 60 48 = 0) Cause.addressForm ea
  check (segKind sg = 1) Cause.segmentRights ea
  let a := (segBase sg + bits ea 47 0) % 2 ^ 48
  let c := bankFormat s k a
  let last : Int := (sh.ar - 1 : Nat) * st
  let (lo, hi) := spanOf c (min 0 last) (max 0 last + (sh.ac - 1 : Nat))
  let n := (hi - lo + 1).toNat
  match ← segment (ea + BitVec.ofInt 64 lo) n (if store then .store else .load) with
  | .linear _ _ => trap Cause.segmentRights ea
  | .local_ b =>
    check (bankOf k b = bankOf k (b + n - 1) && bankOf k a = bankOf k b) Cause.illegalOperand
    match mxOf c with
    | some mx => check (a % mx.rec_ = 0 && st % 32 = 0 && (!store || sh.ac % 32 = 0)) Cause.illegalOperand
    | none => pure ()
    admitAccess ea store n (.own (lsKey k b))
    return { key := lsKey k a, stride := st, fmt := c, span := lsKey k b, len := n }

/-- Indices of the active elements, row by row (14 R261). -/
def elements (sh : Shape) (st : Int) : List (List Int) :=
  (List.range sh.ar).map fun (i : Nat) => (List.range sh.ac).map fun (j : Nat) => i * st + j

/-- Key of the byte at a distance from a base. -/
def keyAt (base : Nat) (d : Int) : Nat := (base + d).toNat

/-- Step 4 of R261: no active element, nor its scale, lies in a poisoned word. -/
def refuseElements (ea : Word) (r : TileRef) : List Int → M Unit
  | [] => pure ()
  | e :: es => do
    let (b, sc) := spotOf r.fmt e
    let n := (bankFmtOf r.fmt).width
    refusePoison (keyAt r.key (b / 8)) (((b % 8).toNat + n + 7) / 8) ea
    match sc with
    | some d => refusePoison (keyAt r.key d) 1 ea
    | none => pure ()
    refuseElements ea r es

/-- A code of the bank: its element's bits and scale as memory holds them, the iteration's buffered stores over them (04 R70). -/
def bankCode (mem : List Byte) (r : TileRef) (e : Int) : Nat × Nat :=
  let (b, sc) := spotOf r.fmt e
  let n := (bankFmtOf r.fmt).width
  let at_ (d : Int) : Nat := keyAt r.key d - r.span
  (leValue ((mem.drop (at_ (b / 8))).take (((b % 8).toNat + n + 7) / 8)) / 2 ^ (b % 8).toNat % 2 ^ n,
   match sc with
   | some d => (mem.getD (at_ d) 0).toNat
   | none => 127)

/-- A bank element as a tile type (14 R262): equal formats move bits unchanged. -/
def loadElement (c : Nat) (dst : NumFmt) (mode policy : Nat) (code : Nat × Nat) : Cvt :=
  match mxOf c with
  | some mx => dst.convert mode policy (mxDecode mx.fmt code.2 code.1)
  | none => if bankFmtOf c = dst then { code := code.1 } else dst.convert mode policy ((bankFmtOf c).decode code.1)

/-- TLD (14 R262) -/
def execTld (d : BitVec 3) (a : Code) (p : BitVec 2) (t : BitVec 3) (s : State) : Out :=
  instr (tileForm t true [] (some a)) (do
    check (pairCode a) Cause.illegalOperand
    onLanes t fun th => do
      let ea ← readSrc a
      let st := (← readSrc (a + 1)).toInt
      awaitSlot 2
      let r ← tileRef ea st th.shape false
      let es := elements th.shape st
      refuseElements ea r es.flatten
      awaitCuts { place := .own r.span, len := r.len, go := false }
      let buf := match th.iter with | some it => it.buf | none => []
      let mem := overlay r.span (← readBytes r.span r.len) buf
      let got := es.map fun row => row.map fun e => loadElement r.fmt (tyFmt t.toNat) th.rm.toNat p.toNat (bankCode mem r e)
      check (!(got.any fun row => row.any Cvt.trap)) Cause.conversion
      writeLanes d.toNat (tyWidth t.toNat) (got.map fun row => row.map Cvt.code)
      raiseFlags (← me) (joinFlags got.flatten)
      countAccess 2
      -- the bank delivers 256 bytes in a cycle, and the thread issues nothing before
      let n ← now
      thr (← me) fun th => { th with yieldTo := n + (es.flatten.length * (bankFmtOf r.fmt).width + 2047) / 2048 }) s

/-- Bits to be written at a bit distance from a base: distance, width, value. -/
abbrev BitWrite := Int × Nat × Nat

/-- Groups of 32 lanes of a row. -/
def chunks32 (xs : List Nat) : Nat → List (List Nat)
  | 0 => []
  | n + 1 => if xs.isEmpty then [] else xs.take 32 :: chunks32 (xs.drop 32) n

/-- One row of lanes encoded for a bank: writes, flags, and a trap. -/
def storeRow (c : Nat) (src : NumFmt) (mode policy : Nat) (first : Int) (row : List Nat) : List BitWrite × Flags × Bool :=
  match mxOf c with
  | some mx =>
    let bs := (chunks32 row row.length).map fun cs => mxEncode mx.fmt policy mode (cs.map src.decode)
    (bs.zipIdx.flatMap fun (b, q) =>
       let e0 := first + 32 * q
       (((spotOf c e0).2.getD 0) * 8, 8, b.scale) ::
         b.codes.zipIdx.map fun (code, i) => ((spotOf c (e0 + i)).1, mx.fmt.width, code),
     bs.foldl (fun f b => f ||| b.flags) 0, bs.any Block.trap)
  | none =>
    let dst := bankFmtOf c
    let cs := row.map fun code => if dst = src then { code := code } else dst.convert mode policy (src.decode code)
    (cs.zipIdx.map fun (v, j) => ((spotOf c (first + j)).1, dst.width, v.code), joinFlags cs, cs.any Cvt.trap)

/-- The reserved bytes of every record that a store touches (05 R95). -/
def reservedWrites (c : Nat) (es : List Int) : List BitWrite :=
  match mxOf c with
  | some mx =>
    let recs := (es.map fun e => e / 32 / (mx.per : Int)).eraseDups
    recs.map fun r => (8 * (mx.rec_ * r + mx.scale + mx.per), 8 * (mx.rec_ - mx.scale - mx.per), 0)
  | none => []

/-- The bits of one write laid into bytes by key: which bits are written, and their values. -/
def layBits (base : Nat) (m : FMap (Nat × Nat)) (w : BitWrite) : FMap (Nat × Nat) :=
  let (b, n, v) := w
  let sh := (b % 8).toNat
  let k0 := keyAt base (b / 8)
  (List.range ((sh + n + 7) / 8)).foldl (fun m i =>
    let mask := (2 ^ n - 1) * 2 ^ sh / 2 ^ (8 * i) % 256
    let val := v % 2 ^ n * 2 ^ sh / 2 ^ (8 * i) % 256
    let (om, ov) := FMap.get (0, 0) m (k0 + i)
    FMap.set m (k0 + i) (om ||| mask, (ov &&& (255 - mask)) ||| val)) m

/-- The doublewords of a byte map, each with its bits in turn, updated (14 R263, 05 R92): full; poison cleared when all 8 bytes are
written. -/
def storeBits (m : FMap (Nat × Nat)) : List Nat → M Unit
  | [] => pure ()
  | a :: as => do
    let whole := (List.range 8).all fun i => (FMap.get (0, 0) m (a + i)).1 = 255
    if whole then
      emit (.poison a false)
      forgetEcc a
    else findEcc a
    let old ← readBytes a 8
    emit (.mem a (old.zipIdx.map fun (b, i) =>
      let (mask, v) := FMap.get (0, 0) m (a + i)
      BitVec.ofNat 8 ((b.toNat &&& (255 - mask)) ||| v)))
    emit (.tag a true)
    wrote a 8
    storeBits m as

/-- TST (14 R263) -/
def execTst (d : BitVec 3) (a : Code) (p : BitVec 2) (t : BitVec 3) (s : State) : Out :=
  instr (tileForm t true [] (some a)) (do
    check (pairCode a) Cause.illegalOperand
    onLanes t fun th => do
      let ea ← readSrc a
      let st := (← readSrc (a + 1)).toInt
      waitOldest
      awaitSlot 2
      let r ← tileRef ea st th.shape true
      awaitReads
      let es := elements th.shape st
      let rows := (th.lanes d.toNat (tyWidth t.toNat)).zipIdx.map fun (row, i) =>
        storeRow r.fmt (tyFmt t.toNat) th.rm.toNat p.toNat (i * st) row
      check (!(rows.any fun x => x.2.2)) Cause.conversion
      let m := (rows.flatMap (·.1) ++ reservedWrites r.fmt es.flatten).foldl (layBits r.key) []
      storeBits m ((m.map fun x => dwKey x.1).eraseDups)
      serveAllOf ((m.map fun x => dwKey x.1).eraseDups)
      raiseFlags (← me) (rows.foldl (fun f x => f ||| x.2.1) 0)
      countAccess 2) s

/-! ## Arithmetic on lanes (14 R265, R266) -/

/-- An integer result wrapped or clamped to a width in bytes (14 R260). -/
def fitInt (w : Nat) (sat u : Bool) (v : Int) : Nat :=
  let (lo, hi) := intRange (8 * w) (!u)
  intCode (8 * w) (if sat then clampInt v lo hi else v)

/-- The integer a lane holds. -/
def laneInt (w : Nat) (u : Bool) (c : Nat) : Int := if u then (c : Int) else (BitVec.ofNat (8 * w) c).toInt

/-- A float result rounded once to its type, overflowing by policy 1 (14 R260). -/
def laneRound (f : Fmt) (mode : Nat) (r : Num × Flags) : Nat × Flags :=
  let c := f.convert mode 1 r.1
  (c.code, r.2 ||| c.flags)

/-- The functions of major 0x26. -/
inductive LaneOp where
  | add | sub | mul | min | max | and | or | xor
deriving DecidableEq, Repr

def laneBinary (op : LaneOp) (t : Nat) (u sat : Bool) (mode x y : Nat) : Nat × Flags :=
  let w := tyWidth t
  match op with
  | .and => (x &&& y, 0)
  | .or => (x ||| y, 0)
  | .xor => (x ^^^ y, 0)
  | op =>
    match tyFloat t with
    | some f =>
      let a := f.decode x
      let b := f.decode y
      match op with
      | .sub => laneRound f mode (addNum mode a b.neg)
      | .mul => laneRound f mode (mulNum a b)
      | .min => minMaxCode f false x y
      | .max => minMaxCode f true x y
      | _ => laneRound f mode (addNum mode a b)
    | none =>
      let a := laneInt w u x
      let b := laneInt w u y
      match op with
      | .sub => (fitInt w sat u (a - b), 0)
      | .mul => (fitInt w sat u (a * b), 0)
      | .min => (if a ≤ b then x else y, 0)
      | .max => (if b ≤ a then x else y, 0)
      | _ => (fitInt w sat u (a + b), 0)

/-- Negation and absolute value of one lane (14 R265). -/
def laneUnary (abs : Bool) (t : Nat) (sat : Bool) (x : Nat) : Nat :=
  let w := tyWidth t
  match tyFloat t with
  | some _ =>
    let top := 2 ^ (8 * w - 1)
    if abs then x % top else x ^^^ top
  | none =>
    let a := laneInt w false x
    fitInt w sat false (if abs then (if a < 0 then -a else a) else -a)

/-- Fused multiply-add of one lane (14 R266). -/
def laneFused (negProd negAdd : Bool) (t : Nat) (u sat : Bool) (mode x y c : Nat) : Nat × Flags :=
  let w := tyWidth t
  match tyFloat t with
  | some f => laneRound f mode (fmaNum mode negProd negAdd (f.decode x) (f.decode y) (f.decode c))
  | none =>
    let p := laneInt w u x * laneInt w u y
    let a := laneInt w u c
    (fitInt w sat u ((if negProd then -p else p) + (if negAdd then -a else a)), 0)

/-- Lanes with flags written, and the flags raised. -/
def writeResults (d w : Nat) (rows : List (List (Nat × Flags))) : M Unit := do
  writeLanes d w (rows.map fun r => r.map Prod.fst)
  raiseFlags (← me) (rows.flatten.foldl (fun f r => f ||| r.2) 0)

/-- A function of the lanes of two registers. -/
def tileBinary (op : LaneOp) (d m n : BitVec 3) (u s : Bool) (t : BitVec 3) (st : State) : Out :=
  instr (tileForm t (intOptions t u s)) (onLanes t fun th => do
    let w := tyWidth t.toNat
    writeResults d.toNat w (List.zipWith (List.zipWith (laneBinary op t.toNat u s th.rm.toNat)) (th.lanes m.toNat w) (th.lanes n.toNat w))) st

/-- A function of the lanes of one register. -/
def tileUnary (abs : Bool) (d m : BitVec 3) (u s : Bool) (t : BitVec 3) (st : State) : Out :=
  instr (tileForm t (!u && intOptions t u s)) (onLanes t fun th => do
    let w := tyWidth t.toNat
    writeLanes d.toNat w ((th.lanes m.toNat w).map fun r => r.map (laneUnary abs t.toNat s))) st

def tileFused (negProd negAdd : Bool) (d m n : BitVec 3) (u s : Bool) (t : BitVec 3) (st : State) : Out :=
  instr (tileForm t (intOptions t u s)) (onLanes t fun th => do
    let w := tyWidth t.toNat
    let f (xy : Nat × Nat) (c : Nat) := laneFused negProd negAdd t.toNat u s th.rm.toNat xy.1 xy.2 c
    writeResults d.toNat w (List.zipWith (List.zipWith f)
      (List.zipWith List.zip (th.lanes m.toNat w) (th.lanes n.toNat w)) (th.lanes d.toNat w))) st

/-- TADD (14 R265) -/
def execTadd (d m n : BitVec 3) (u s : Bool) (t : BitVec 3) (st : State) : Out := tileBinary .add d m n u s t st
/-- TSUB (14 R265) -/
def execTsub (d m n : BitVec 3) (u s : Bool) (t : BitVec 3) (st : State) : Out := tileBinary .sub d m n u s t st
/-- TMUL (14 R265) -/
def execTmul (d m n : BitVec 3) (u s : Bool) (t : BitVec 3) (st : State) : Out := tileBinary .mul d m n u s t st
/-- TMIN (14 R265) -/
def execTmin (d m n : BitVec 3) (u s : Bool) (t : BitVec 3) (st : State) : Out := tileBinary .min d m n u s t st
/-- TMAX (14 R265) -/
def execTmax (d m n : BitVec 3) (u s : Bool) (t : BitVec 3) (st : State) : Out := tileBinary .max d m n u s t st
/-- TAND (14 R265) -/
def execTand (d m n t : BitVec 3) (st : State) : Out := tileBinary .and d m n false false t st
/-- TOR (14 R265) -/
def execTor (d m n t : BitVec 3) (st : State) : Out := tileBinary .or d m n false false t st
/-- TXOR (14 R265) -/
def execTxor (d m n t : BitVec 3) (st : State) : Out := tileBinary .xor d m n false false t st
/-- TNEG (14 R265) -/
def execTneg (d m : BitVec 3) (u s : Bool) (t : BitVec 3) (st : State) : Out := tileUnary false d m u s t st
/-- TABS (14 R265) -/
def execTabs (d m : BitVec 3) (u s : Bool) (t : BitVec 3) (st : State) : Out := tileUnary true d m u s t st
/-- TFMA (14 R266) -/
def execTfma (d m n : BitVec 3) (u s : Bool) (t : BitVec 3) (st : State) : Out := tileFused false false d m n u s t st
/-- TFMS (14 R266) -/
def execTfms (d m n : BitVec 3) (u s : Bool) (t : BitVec 3) (st : State) : Out := tileFused false true d m n u s t st
/-- TFNMA (14 R266) -/
def execTfnma (d m n : BitVec 3) (u s : Bool) (t : BitVec 3) (st : State) : Out := tileFused true true d m n u s t st
/-- TFNMS (14 R266) -/
def execTfnms (d m n : BitVec 3) (u s : Bool) (t : BitVec 3) (st : State) : Out := tileFused true false d m n u s t st

/-! ## Conversion (14 R267) -/

/-- TCVT (14 R267): y is the destination's type, t the source's. -/
def execTcvt (d m : BitVec 3) (a : Code) (y t : BitVec 3) (st : State) : Out :=
  instr (tileForm t (y ≠ 7) [a]) (do
    checkWidth t
    let wd := tyWidth y.toNat
    let sh := (← self).shape
    check (sh.gc * wd ≤ 256 && sh.gr * sh.gc * wd ≤ 2048) Cause.illegalOperand
    let ctl ← readSrc a
    check (bits ctl 63 5 = 0 && bits ctl 4 2 ≤ 4) Cause.illegalOperand
    onLanes t fun th => do
      let rows := (th.lanes m.toNat (tyWidth t.toNat)).map fun r => r.map fun c =>
        if t = y then { code := c }
        else (tyFmt y.toNat).convert (roundingOf th.rm (bits ctl 4 2)) (bits ctl 1 0) ((tyFmt t.toNat).decode c)
      check (!(rows.any fun r => r.any Cvt.trap)) Cause.conversion
      writeLanes d.toNat wd (rows.map fun r => r.map Cvt.code)
      raiseFlags (← me) (joinFlags rows.flatten)) st

/-! ## Reductions and broadcasts (14 R268, R269) -/

/-- Rows of a rectangle turned into columns; n columns. -/
def transposed (rows : List (List Nat)) (n : Nat) : List (List Nat) :=
  (List.range n).map fun j => rows.map fun r => r.getD j 0

/-- The exact sum of float lanes, rounded once (14 R268). -/
def sumFloat (f : Fmt) (mode : Nat) (cs : List Nat) : Nat × Flags :=
  let xs := cs.map f.decode
  let (r, both) := exactSum mode xs
  laneRound f mode (r, sigFlag xs ||| (if both then Flag.nv else 0))

/-- FMIN or FMAX rules over the lanes (14 R268): a NaN gives way to any other lane. -/
def extremeFloat (f : Fmt) (wantMax : Bool) (cs : List Nat) : Nat × Flags :=
  let fl := sigFlag (cs.map f.decode)
  match cs.filter fun c => !(f.decode c).isNan with
  | [] => (f.nanCode.getD 0, fl)
  | c :: rest => (rest.foldl (fun a b => (minMaxCode f wantMax a b).1) c, fl)

/-- What a reduction does. -/
inductive Reduce where
  | sum | max | min
deriving DecidableEq, Repr

def reduceLanes (op : Reduce) (t : Nat) (u sat : Bool) (mode : Nat) (cs : List Nat) : Nat × Flags :=
  let w := tyWidth t
  match tyFloat t with
  | some f =>
    match op with
    | .sum => sumFloat f mode cs
    | .max => extremeFloat f true cs
    | .min => extremeFloat f false cs
  | none =>
    match op with
    | .sum => (fitInt w sat u (cs.map (laneInt w u)).sum, 0)
    | .max => (cs.tail.foldl (fun a b => if laneInt w u b ≤ laneInt w u a then a else b) (cs.headD 0), 0)
    | .min => (cs.tail.foldl (fun a b => if laneInt w u a ≤ laneInt w u b then a else b) (cs.headD 0), 0)

/-- A reduction of each row into column 0, or of each column into row 0 (14 R268). -/
def tileReduce (op : Reduce) (d m : BitVec 3) (c u s : Bool) (t : BitVec 3) (st : State) : Out :=
  instr (tileForm t (intOptions t u s)) (onLanes t fun th => do
    let w := tyWidth t.toNat
    let rows := th.lanes m.toNat w
    let r := (if c then transposed rows th.shape.ac else rows).map (reduceLanes op t.toNat u s th.rm.toNat)
    writeResults d.toNat w (if c then [r] else r.map fun v => [v])) st

/-- TRSUM (14 R268) -/
def execTrsum (d m : BitVec 3) (c u s : Bool) (t : BitVec 3) (st : State) : Out := tileReduce .sum d m c u s t st
/-- TRMAX (14 R268) -/
def execTrmax (d m : BitVec 3) (c u s : Bool) (t : BitVec 3) (st : State) : Out := tileReduce .max d m c u s t st
/-- TRMIN (14 R268) -/
def execTrmin (d m : BitVec 3) (c u s : Bool) (t : BitVec 3) (st : State) : Out := tileReduce .min d m c u s t st

/-- A rectangle of active lanes filled by a function of row and column. -/
def fillLanes (sh : Shape) (f : Nat → Nat → Nat) : List (List Nat) :=
  (List.range sh.ar).map fun i => (List.range sh.ac).map fun j => f i j

def laneAt (rows : List (List Nat)) (i j : Nat) : Nat := (rows.getD i []).getD j 0

/-- TBCS (14 R269) -/
def execTbcs (d : BitVec 3) (a : Code) (t : BitVec 3) (st : State) : Out :=
  instr (tileForm t true [a]) (onLanes t fun th => do
    let v ← readSrc a
    writeLanes d.toNat (tyWidth t.toNat) (fillLanes th.shape fun _ _ => v.toNat)) st

/-- TBROW (14 R269) -/
def execTbrow (d m : BitVec 3) (a : Code) (t : BitVec 3) (st : State) : Out :=
  instr (tileForm t true [a]) (onLanes t fun th => do
    let v ← readSrc a
    check (v.toNat < th.shape.ar) Cause.illegalOperand
    let rows := th.lanes m.toNat (tyWidth t.toNat)
    writeLanes d.toNat (tyWidth t.toNat) (fillLanes th.shape fun _ j => laneAt rows v.toNat j)) st

/-- TBCOL (14 R269) -/
def execTbcol (d m : BitVec 3) (a : Code) (t : BitVec 3) (st : State) : Out :=
  instr (tileForm t true [a]) (onLanes t fun th => do
    let v ← readSrc a
    check (v.toNat < th.shape.ac) Cause.illegalOperand
    let rows := th.lanes m.toNat (tyWidth t.toNat)
    writeLanes d.toNat (tyWidth t.toNat) (fillLanes th.shape fun i _ => laneAt rows i v.toNat)) st

/-! ## Permutations, moves and single elements (14 R270, R271) -/

/-- TTRN (14 R270) -/
def execTtrn (d m t : BitVec 3) (st : State) : Out :=
  instr (tileForm t) (onLanes t fun th => do
    let rows := th.lanes m.toNat (tyWidth t.toNat)
    writeLanes d.toNat (tyWidth t.toNat) (fillLanes th.shape fun i j => laneAt rows j i)) st

/-- TSHUF (14 R270) -/
def execTshuf (d m n t : BitVec 3) (st : State) : Out :=
  instr (tileForm t) (onLanes t fun th => do
    let rows := th.lanes m.toNat (tyWidth t.toNat)
    let sel := th.lanes n.toNat (tyWidth t.toNat)
    writeLanes d.toNat (tyWidth t.toNat) (fillLanes th.shape fun i j => laneAt rows i (laneAt sel i j))) st

/-- TROT (14 R270) -/
def execTrot (d m : BitVec 3) (a : Code) (t : BitVec 3) (st : State) : Out :=
  instr (tileForm t true [a]) (onLanes t fun th => do
    let v ← readSrc a
    let rows := th.lanes m.toNat (tyWidth t.toNat)
    writeLanes d.toNat (tyWidth t.toNat) (fillLanes th.shape fun i j => laneAt rows i ((j + v.toNat) % th.shape.ac))) st

/-- TMOV (14 R271) -/
def execTmov (d m t : BitVec 3) (st : State) : Out :=
  instr (tileForm t) (onLanes t fun th =>
    writeLanes d.toNat (tyWidth t.toNat) (th.lanes m.toNat (tyWidth t.toNat))) st

/-- TSEL (14 R271) -/
def execTsel (d m n t : BitVec 3) (st : State) : Out :=
  instr (tileForm t) (onLanes t fun th => do
    let w := tyWidth t.toNat
    let rows := th.lanes m.toNat w
    let sel := th.lanes n.toNat w
    let old := th.lanes d.toNat w
    writeLanes d.toNat w (fillLanes th.shape fun i j => if laneAt sel i j = 0 then laneAt old i j else laneAt rows i j)) st

/-- The lane that an index word names (14 R271). -/
def indexLane (sh : Shape) (v : Word) : M (Nat × Nat) := do
  check (bits v 15 8 < sh.ar && bits v 7 0 < sh.ac) Cause.illegalOperand
  return (bits v 15 8, bits v 7 0)

/-- TGET (14 R271) -/
def execTget (m : BitVec 3) (a : Code) (t : BitVec 3) (st : State) : Out :=
  instr (tileForm t true [] (some a)) (do
    check (pairCode a) Cause.illegalOperand
    onLanes t fun th => do
      let (r, c) ← indexLane th.shape (← readSrc (a + 1))
      let w := tyWidth t.toNat
      let v := laneAt (th.lanes m.toNat w) r c
      writeDst a (if t.toNat ≤ 2 then BitVec.ofInt 64 (laneInt w false v) else BitVec.ofNat 64 v)) st

/-- TSET (14 R271) -/
def execTset (d : BitVec 3) (a : Code) (t : BitVec 3) (st : State) : Out :=
  instr (tileForm t true [] (some a)) (do
    check (pairCode a) Cause.illegalOperand
    onLanes t fun th => do
      let v ← readSrc a
      let (r, c) ← indexLane th.shape (← readSrc (a + 1))
      let w := tyWidth t.toNat
      thr (← me) fun t => { t with
        tiles := putStretch t.tiles (2048 * d.toNat + (r * th.shape.gc + c) * w) (leBytes w v.toNat) }) st

end Sys2Proof.Machine
end

