-- ==== Sys2Proof/Machine/Engine.lean ====
section
/-! DEFINITION. Engine commands: their completion, chains, copies, near-bank products and publication (07 R136 to R147, 15 R279, R280,
R285 to R291). -/

namespace Sys2Proof.Machine

/-! ## Names and completion (07 R139, R143 to R145) -/

/-- A command as events name it: its number on its core, and the core. -/
def cmdId (k n : Nat) : Nat := n * 2 ^ 13 + k

/-- Number of the follow-on TILEMM of transfer n of core k, on its own core. -/
def followOn (k n : Nat) : Nat := 2 ^ 40 * (k + 1) + n

/-- An event record for a command (07 R143). -/
def commandRecord (r : Reporter) (stat : Nat) (ui : Bool) : EventRecord :=
  { w0 := BitVec.ofNat 64 (stat * 2 ^ 56 + r.kind * 2 ^ 52 + r.cid % 2 ^ 24 * 2 ^ 24 + r.slot * 2 ^ 20 + b2n ui * 2 ^ 19 + r.xid % 2 ^ 16)
    w1 := r.pb, ctx := r.ctx }

def sendRecord (r : Reporter) (stat : Nat) (ui : Bool) : M Unit := do
  plan 0 (.eventRecordPlace (recordCore (← getS) r.ctx r.core) (commandRecord r stat ui))

/-- A thread by the model's number: its slot, one that is not on its way to another core first. -/
def findThread (s : State) (uid : Nat) : Option Nat :=
  let mine := s.threads.filter fun p => p.2.uid = uid && uid ≠ 0
  match mine.find? fun p => match p.2.status with | .parked .graft _ => false | _ => true with
  | some p => some p.1
  | none => mine.head?.map Prod.fst

/-- A transfer completion for the thread of a command (07 R143). -/
def tellThread (r : Reporter) (stat : Nat) : M Unit :=
  takeCompletion r.core r.uid
    { xid := r.xid % 2 ^ 16, status := stat, handler := r.target.setWidth 16, kind := r.kind, pb := r.pb, cid := r.cid, slot := r.slot, ctx := r.ctx }

/-- A completion is told by the mode of the command (07 R143). -/
def signal (r : Reporter) (stat : Nat) : M Unit := do
  match r.mode with
  | 0 => tellThread r stat
  | 2 => if stat = 0 then decrementAt (dieOf r.core) r.ctx r.target else sendRecord r stat false
  | _ => sendRecord r stat false

/-- Commands of a context that write a publish group as a cloche, or read it, and are not complete (07 R142, 09 R175). -/
def groupCommands (s : State) (ctx g : Nat) : List (Nat × Nat) :=
  s.cores.flatMap fun (k, c) => (c.commands.filter fun p => p.2.rep.ctx = ctx && (p.2.cloche.contains g || p.2.groups.contains g)).map
    fun p => (k, p.1)

def planFlips (ctx : Nat) : List Nat → M Unit
  | [] => pure ()
  | g :: gs => do
    if (← getS).pkg.publs.any fun p => p.1 = ctx * 128 + g then plan 0 (.publFlip ctx g) else pure ()
    planFlips ctx gs

def noteCloche (ctx stat : Nat) : List Nat → M Unit
  | [] => pure ()
  | g :: gs => do
    if stat ≠ 0 then onPkg fun p => { p with clocheBad := NSet.insert p.clocheBad (ctx * 128 + g) } else pure ()
    noteCloche ctx stat gs

/-- TILEMM commands that may enter the array queue do so while it has room (07 R144, 15 R280). -/
def feedQueue (k : Nat) : Nat → M Unit
  | 0 => pure ()
  | n + 1 => do
    let c ← getC k
    if 4 ≤ c.array.queue.length then pure ()
    else
      match c.commands.find? fun p => match p.2.work with | .tile _ _ false => !p.2.held | _ => false with
      | none => pure ()
      | some (i, cmd) =>
        match cmd.work with
        | .tile key segs _ => onCore k fun c => { c with
            commands := FMap.set c.commands i { cmd with work := .tile key segs true },
            array := { c.array with queue := c.array.queue ++ [.tilemm i cmd.rep.task], queued := c.array.queued + 1 } }
        | _ => pure ()
        if c.array.queue.isEmpty then
          let t := max c.array.freeAt c.array.settledAt
          plan (t - (← now)) (.arrayCommandExecute k)
        else pure ()
        feedQueue k n

/-- The stretches of a side translated again for the thread that issued the command. -/
def retranslatePages (r : Reporter) (need : Need) (cloche : Bool) : FMap Place → M (FMap Place)
  | [] => return []
  | (g, _) :: ps => do
    let (p, _) ← translate 0 r.core r.ctx r.level (g * 65536) need hwSegment cloche .engine
    let rest ← retranslatePages r need cloche ps
    return (g, p) :: rest

def retranslateSide (r : Reporter) (need : Need) (cloche : Bool) (sd : Side) : M Side := do
  return { sd with pages := ← retranslatePages r need cloche sd.pages }

/-- What a command that was held finds when it starts: it has kept no translation (23 R349 step 4). -/
def retranslate (cmd : Command) : M Work := do
  let cl := !cmd.cloche.isEmpty
  match cmd.work with
  | .copy c => do
    let src ← retranslateSide cmd.rep .load false c.src
    let dst ← retranslateSide cmd.rep .store cl c.dst
    return .copy { c with src := src, dst := dst }
  | .nearBank n => do
    let w ← retranslateSide cmd.rep .load false n.w
    let y ← retranslateSide cmd.rep .store cl n.y
    return .nearBank { n with w := w, y := y }
  | .tile key segs queued => return .tile key segs queued

/-- The work of a command of which nothing is left to do. -/
def Work.ended : Work → Work
  | .copy c => .copy { c with next := c.dims.foldl (fun n d => n * d.w) 1 }
  | w => w

/-- A command that nothing holds begins; one whose pages are no longer there completes with the fault's cause (23 R349). -/
def startCommand (k i : Nat) : M Unit := do
  match FMap.get? (← getC k).commands i with
  | none => pure ()
  | some cmd =>
    let cmd ← do
      if cmd.held then
        match (retranslate cmd).eval (← getS) with
        | .ok (w, _) => pure { cmd with held := false, work := w }
        | .error (.trap cause _ _) => pure { cmd with held := false, work := cmd.work.ended, status := cause }
        | .error _ => pure { cmd with held := false }
      else pure cmd
    onCore k fun c => { c with commands := FMap.set c.commands i cmd }
    match cmd.work with
    | .copy _ => plan (if cmd.status = 0 then Config.engineTime 0 i else 0) (if cmd.status = 0 then .copyElementLand (cmdId k i) else .copyComplete (cmdId k i))
    | .nearBank n => plan (if cmd.status = 0 then Config.engineTime 1 (n.k * n.n) else 0) (.nbmvComplete (cmdId k i))
    | .tile _ _ _ => feedQueue k 4

/-- CMODE and CTGT of a TILEMM descriptor; one with a reserved CMODE reports as an event (15 R279, R280). -/
def tileMode (key : Nat) : M (Nat × Word) := do
  let w ← readDw (key + 48)
  return (if bits w 53 52 = 3 then 1 else bits w 53 52, ← readDw (key + 56))

/-- The reporter of a TILEMM under its own descriptor. -/
def tileReporter (r : Reporter) (key : Nat) : M Reporter := do
  let (m, t) ← tileMode key
  return { r with kind := 2, mode := m, target := t }

/-- Completion of a command with a status, and what follows from it: its status is kept, it is told, its chained successors start or
are cancelled, and a follow-on is placed (07 R139, R143 to R145). Structural on a number of commands that is enough. -/
def completeCommand (k i stat : Nat) : Nat → M Unit
  | 0 => pure ()
  | n + 1 => do
    match FMap.get? (← getC k).commands i with
    | none => pure ()
    | some cmd =>
      onCore k fun c => { c with
        commands := FMap.erase c.commands i
        xids := if (FMap.get? c.xids i).isSome then FMap.set c.xids i (some stat) else c.xids }
      noteCloche cmd.rep.ctx stat cmd.cloche
      planFlips cmd.rep.ctx (cmd.cloche ++ cmd.groups)
      match cmd.work with
      | .tile key _ queued =>
        if queued then signal cmd.rep stat else signal (← tileReporter cmd.rep key) stat
      | .nearBank _ => signal cmd.rep stat
      | .copy c =>
        count k 20
        signal cmd.rep stat
        match c.follow with
        | none => pure ()
        | some (dst, key) =>
          if stat = 0 then
            let s ← getS
            let segs := match findThread s cmd.rep.uid with
              | some id => (s.thread id).segs
              | none => contextSegs s (dieOf dst) cmd.rep.ctx
            let tileCmd : Command := { rep := { cmd.rep with kind := 2 }, work := .tile key segs false }
            onCore dst fun x => { x with commands := FMap.set x.commands (followOn k i) tileCmd }
            feedQueue dst 4
          else signal (← tileReporter cmd.rep key) 0x80
      let rec after : List Nat → M Unit
        | [] => pure ()
        | j :: js => do
          match FMap.get? (← getC k).commands j with
          | none => pure ()
          | some succ =>
            if stat = 0 then
              onCore k fun c => { c with commands := FMap.set c.commands j { succ with preds := succ.preds - 1 } }
              if succ.preds ≤ 1 then startCommand k j else pure ()
            else completeCommand k j 0x80 n
          after js
      after cmd.after
      checkRetire cmd.rep.task

/-- Completion of a command. -/
def complete (k i stat : Nat) : M Unit := do
  completeCommand k i stat ((← getC k).commands.length + 1)

/-- A transfer number, and its place among the last 1,024 (15 R288). -/
def newTransfer (k : Nat) : M Nat := do
  let n := (← getC k).nextXid
  onCore k fun c => { c with
    nextXid := n + 1
    xids := FMap.set (if 1024 ≤ n then FMap.erase c.xids (n - 1024) else c.xids) n none }
  return n

/-- The transfer that an identifier names (15 R288). -/
def transferOf (c : Core) (xid : Nat) : Option (Nat × Option Nat) :=
  c.xids.reverse.find? fun p => p.1 % 2 ^ 16 = xid

/-! ## Sides (07 R137, R138, R141) -/

/-- A place some bytes further within its 64 KiB stretch. -/
def Place.shift (p : Place) (o : Nat) : Place :=
  let meta_ : Option (Nat × Nat × Nat) → Option (Nat × Nat × Nat) := fun c =>
    c.map fun (s, mk, _) => (s, mk + o / 1024, 2 * (o / 256 % 4))
  match p with
  | .own key => .own (key + o)
  | .hbm key c => .hbm (key + o) (meta_ c)
  | .ws d off c => .ws d (off + o) (meta_ c)
  | .ls c key => .ls c (key + o)
  | .remote pkg rtt frame => .remote pkg rtt (frame + o)
  | .host key => .host (key + o)
  | .dev a => .dev (a + o)

/-- The address of the byte at a distance from a side's base. -/
def Side.at_ (sd : Side) (b : Int) : Nat := ((sd.base + b) % 2 ^ 48).toNat

/-- The place of that byte. -/
def Side.place (k : Nat) (sd : Side) (b : Int) : Place :=
  let a := sd.at_ b
  if sd.own then .own (lsKey k a)
  else
    match FMap.get? sd.pages (a / 65536) with
    | some p => p.shift (a % 65536)
    | none => .dev a

/-- The bank format that a place has: local stores of this package have one (07 R136, 05 R94). -/
def placeFormat (s : State) (k : Nat) : Place → Option Nat
  | .own key => some (bankFormat s k (key % 0x200000))
  | .ls c key => some (bankFormat s c (key % 0x200000))
  | _ => none

/-- Whether a format packs elements more tightly than bytes, so that a side counts in elements (07 R138). -/
def subByte (fmt : Option Nat) : Bool :=
  match fmt with
  | some f => (mxOf f).isSome || f = 11
  | none => false

/-- First bit of the element at an offset, from the base; and the byte of its scale. -/
def Side.bit (sd : Side) (off : Int) : Int × Option Int :=
  match sd.fmt with
  | some f => if subByte sd.fmt then spotOf f off else (8 * off, none)
  | none => (8 * off, none)

/-- First and last byte of the elements between two offsets. -/
def Side.span (sd : Side) (lo hi : Int) : Int × Int :=
  match sd.fmt with
  | some f => if subByte sd.fmt then spanOf f lo hi else (lo, hi + sd.width / 8 - 1)
  | none => (lo, hi + sd.width / 8 - 1)

/-- Where the engine reaches the base of a side: its place, if it has one. -/
def basePlace (k ctx : Nat) (ea : Word) (own : Bool) (base : Nat) : M (Option Place) := do
  if own then return some (.own (lsKey k base))
  else
    match (translate ea k ctx .h base {} hwSegment false .engine).eval (← getS) with
    | .ok ((p, _), _) => return some p
    | .error _ => return none

/-- A side's base, and the format of the place it names; its checks come with those of its footprint. `esz` is the element size where there is no
format. -/
def sideOf (ea : Word) (esz : Nat) : M Side := do
  let k ← myCore
  let c ← controlT
  let sg := FMap.get 0 c.segs (bits ea 63 61)
  let base := (segBase sg + bits ea 47 0) % 2 ^ 48
  let own := segKind sg = 1
  let fmt := (← basePlace k c.ctx ea own base).bind (placeFormat (← getS) k)
  return { ea := ea, own := own, base := base, fmt := fmt, width := match fmt with | some f => (bankFmtOf f).width | none => 8 * esz }

/-- The core whose copy port or streamer serves a side's base (07 R136): that of its home. -/
def Side.master (sd : Side) : M Nat := do
  let k ← myCore
  match (← basePlace k (← controlT).ctx sd.ea sd.own sd.base).bind Place.key? with
  | some key => return homeOf key
  | none => return k

/-- Form, kind, limit, rights and range of the bytes lo to hi of a side, as one access (07 R137, R138, 05 R87). -/
def checkSpan (sd : Side) (lo hi : Int) (need : Need) : M Unit := do
  let off := bits sd.ea 47 0
  check (0 ≤ off + lo && off + hi < 2 ^ 48) Cause.geometry
  let _ ← segment (sd.ea + BitVec.ofInt 64 lo) (hi - lo + 1).toNat need

/-- 64 KiB stretches that hold some bytes of a side. -/
def stretches (sd : Side) (bs : List Int) : List Nat := (bs.map fun b => sd.at_ b / 65536).eraseDups

/-- The thread address of a stretch of a side. -/
def Side.stretchEa (sd : Side) (g : Nat) : Word := sd.ea + BitVec.ofInt 64 ((g * 65536 : Nat) - (sd.base : Int))

/-- A stretch as translated at acceptance: its number, its live place and its leaf. -/
abbrev Stretch := Nat × Place × Leaf

/-- Translation of every stretch of a side (07 R137). -/
def translateSide (sd : Side) (need : Need) : List Nat → M (List Stretch)
  | [] => return []
  | g :: gs => do
    let k ← myCore
    let c ← controlT
    let sg := FMap.get 0 c.segs (bits sd.ea 63 61)
    let (p, lf) ← translateLeaf (sd.stretchEa g) k c.ctx c.level (g * 65536) need sg false .engine
    let rest ← translateSide sd need gs
    return (g, p, lf) :: rest

def sideStretches (sd : Side) (bs : List Int) (need : Need) : M (List Stretch) :=
  if sd.own then pure [] else translateSide sd need (stretches sd bs)

/-- The group of a stretch's page (07 R141). -/
def Stretch.group (x : Stretch) : Nat := bits x.2.2.dw0 47 41

def groupsOf (xs : List Stretch) : List Nat := ((xs.map Stretch.group).filter (· ≠ 0)).eraseDups

/-- Target types and the mode of a weight store (05 R97, R99), and sealed cores. -/
def checkTargets (sd : Side) (need : Need) : List Stretch → M Unit
  | [] => pure ()
  | (g, p, _) :: xs => do
    let ea := sd.stretchEa g
    match p with
    | .dev _ => trap Cause.protection ea
    | .ls t _ => check (!((← getS).coreOf t).isSealed) Cause.neighbourSealed ea
    | .ws d _ _ => do
      let die ← getD d
      if die.wsPend then wait false else check (die.wsServing != need.wr) Cause.weightStore
    | _ => pure ()
    checkTargets sd need xs

/-- The frames that a side keeps: the live ones, or the cloches of pages that have one (07 R141). -/
def bindStretches (cloche : Bool) : List Stretch → M (FMap Place)
  | [] => return []
  | (g, p, lf) :: xs => do
    let k ← myCore
    let c ← controlT
    let q ← if cloche && bits lf.dw0 47 41 ≠ 0 then leafPlace 0 (dieOf k) c.ctx (g * 65536) lf true else pure p
    let rest ← bindStretches cloche xs
    return FMap.set rest g q

/-- A cloche-marked side has a group in every page (07 R141). -/
def checkCloche (sd : Side) (xs : List Stretch) : M Unit :=
  check (!sd.own && xs.all fun x => x.group ≠ 0) Cause.protection sd.ea

/-- The one format of all bytes of a side; banks of different formats are Copy Geometry (05 R96). -/
def oneFormat (k : Nat) (sd : Side) (bs : List Int) : M Side := do
  let s ← getS
  match (bs.map fun b => placeFormat s k (sd.place k b)).eraseDups with
  | [] => return sd
  | [f] => return { sd with fmt := f, width := match f with | some c => (bankFmtOf c).width | none => sd.width }
  | _ => trap Cause.geometry

/-! ## Geometry of copies (07 R138) -/

/-- Dimensions paired with the indices of a point, innermost first. -/
def pointAt : List Dim → Nat → List (Dim × Nat)
  | [], _ => []
  | d :: ds, u => (d, u % d.w) :: pointAt ds (u / d.w)

/-- Source offset of a window point, if it is in range, and destination offset. -/
def pointOffsets (p : List (Dim × Nat)) : Option Int × Int :=
  let inr := p.all fun (d, i) => decide (0 ≤ d.o + i) && decide (d.o + i < d.e)
  (if inr then some ((p.map fun (d, i) => d.ss * (d.o + i)).sum) else none, (p.map fun (d, i) => d.ds * i).sum)

/-- Points of a unit: one point, or a row of dimension 0. -/
def unitPoints (c : Copy) (u : Nat) : List (Option Int × Int) :=
  match c.single, c.dims with
  | false, d :: ds => (List.range d.w).map fun i => pointOffsets ((d, i) :: pointAt ds u)
  | _, dims => [pointOffsets (pointAt dims u)]

def units (c : Copy) : Nat :=
  ((if c.single then c.dims else c.dims.drop 1).map Dim.w).foldl (· * ·) 1

/-- Every point of a copy. -/
def allPoints (c : Copy) : List (Option Int × Int) := (List.range (units c)).flatMap (unitPoints c)

/-- First and last bytes of the elements of a side at some offsets. -/
def reached (sd : Side) (offs : List Int) : List Int :=
  offs.flatMap fun o => let (lo, hi) := sd.span o o; [lo, hi]

/-- Least and greatest of a list. -/
def extremes : List Int → Option (Int × Int)
  | [] => none
  | x :: xs => some (xs.foldl (fun (a, b) y => (min a y, max b y)) (x, x))

/-- Greatest and least source and destination offsets, from the extreme points of each dimension; no source when no point is in
range. -/
def cornerOffsets (dims : List Dim) : Option (Int × Int) × (Int × Int) :=
  let lohi (st : Int) (a b : Int) : Int × Int := if 0 ≤ st then (st * a, st * b) else (st * b, st * a)
  let add (x y : Int × Int) : Int × Int := (x.1 + y.1, x.2 + y.2)
  let rng := dims.map fun d => (d, max 0 (-d.o), min (d.w : Int) (d.e - d.o) - 1)
  let dst := (dims.map fun d => lohi d.ds 0 (d.w - 1)).foldl add (0, 0)
  if rng.all fun (_, a, b) => a ≤ b then (some ((rng.map fun (d, a, b) => lohi d.ss (d.o + a) (d.o + b)).foldl add (0, 0)), dst)
  else (none, dst)

/-! ## Parameter blocks (15 R285, R286) -/

/-- A signed 32-bit field. -/
def sfield (w : Word) (hi lo : Nat) : Int := (BitVec.ofNat 32 (bits w hi lo)).toInt

/-- A dimension of a block from its four doublewords. -/
def dimOf (w : List Word) (i : Nat) : Dim :=
  let at_ (j : Nat) : Word := w.getD (8 + 4 * i + j) 0
  { e := bits (at_ 0) 31 0, w := bits (at_ 0) 63 32, o := sfield (at_ 1) 31 0, ss := (at_ 2).toInt, ds := (at_ 3).toInt }

def dimsOf (w : List Word) : List Dim := (List.range (bits (w.getD 2 0) 1 0 + 1)).map (dimOf w)

/-- A completion mode with its target (15 R285). -/
def goodTarget (mode : Nat) (target : Word) : Bool :=
  match mode with
  | 0 => target.toNat % 4 = 0 && target.toNat < 0x10000
  | 1 => target = 0
  | 2 => target.toNat % 256 = 0
  | _ => false

/-- The doublewords of bytes. -/
def wordsOf (bs : List Byte) : Nat → List Word
  | 0 => []
  | n + 1 => BitVec.ofNat 64 (leValue (bs.take 8)) :: wordsOf (bs.drop 8) n

/-- n doublewords of a parameter block read as plain loads; none when the thread has to wait for another package. What has been read
already is kept. -/
def readBlockWords (kept : List Word) (ea : Word) (n : Nat) : M (Option (List Word)) := do
  match ← gather kept (← locateWords ea n) with
  | some bs => return some (wordsOf bs n)
  | none => return none

/-- The words that a command reads first: the block's address, and 8 doublewords of it. -/
def readHeader (a : Code) : M (Option (Word × List Word)) := do
  match (← self).held with
  | v :: w :: ws => return some (v, w :: ws)
  | [v] =>
    match ← readBlockWords [v] v 8 with
    | some ws => return some (v, ws)
    | none => return none
  | [] =>
    let v ← readSrc a
    awaitPoint
    match ← readBlockWords [v] v 8 with
    | some ws => return some (v, ws)
    | none => return none

/-- The address by which a record names a parameter block. -/
def blockAddress (ea : Word) : M Word := do
  let sg := FMap.get 0 (← controlT).segs (bits ea 63 61)
  return BitVec.ofNat 64 ((segBase sg + bits ea 47 0) % 2 ^ 48)

def reporter (id n kind mode : Nat) (target pb : Word) : M Reporter := do
  let s ← getS
  let t := s.thread (s.control id)
  return { core := id / 16, uid := t.uid, slot := s.control id % 16, cid := t.cid, ctx := t.ctx, level := t.level, task := t.tcbKey, kind := kind, mode := mode,
           target := target, pb := pb, xid := n }

/-- At most 64 copies and near-bank commands of a core are accepted and not complete (07 R137). -/
def openTransfers (c : Core) : Nat := (c.commands.filter fun p => match p.2.work with | .tile _ _ _ => false | _ => true).length

/-- Commands and near-bank products wait while 64 of a core are open (07 R137). -/
def awaitTransfers (k : Nat) : M Unit := do
  if 64 ≤ openTransfers (← getC k) then wait false else pure ()

/-- A command leaves for its master and the thread is held (07 R136, R137); a twinned thread's is an outbound item when its master lies
outside the core (25 R373, R374). -/
def depart (ea : Word) (block : List Word) (dest : Dest) (master : Nat) (accept : Instr) : M Flow := do
  let id ← me
  let go : M (Option (List Word)) := do
    claim id dest
    thr id fun t => { t with status := .parked .engine none, mwaitDst := dest, held := ea :: block }
    plan (Config.transit (id / 16) master) accept
    return none
  let r ← if master ≠ id / 16 then outbound (accessItem 8 ea (8 * block.length) block) (.trapBoth ea) fun _ => go else go
  match r with
  | some (v :: _) =>
    match dest with
    | .link _ => do claim id dest; fill id dest v
    | _ => fill id dest v
    return .next
  | _ => return .stay

/-! ## CPY (15 R286, 07 R137, R138) -/

/-- The sides and shape of a copy as its block gives them. -/
def copyOf (w : List Word) : M Copy := do
  let ctl := w.getD 2 0
  let esz := 2 ^ bits ctl 3 2
  let src ← sideOf (w.getD 0 0) esz
  let dst ← sideOf (w.getD 1 0) esz
  return { src := src, dst := dst, dims := dimsOf w, policy := bits ctl 5 4 }

/-- The geometry that does not depend on addresses (07 R138, 15 R286). -/
def goodDims (c : Copy) : Bool :=
  (c.dims.all fun d => 1 ≤ d.e && d.e < 2 ^ 31 && 1 ≤ d.w && d.w < 2 ^ 31)

/-- The geometry of an MX side too: its base stands at a record, which 05 R95 asks of tile accesses alone; Copy Geometry tells of another (DESIGN
CHOICE, assumption 38). -/
def goodGeometry (c : Copy) : Bool :=
  (c.dims.all fun d => d.o + d.w - 1 ≤ 2 ^ 31 - 1) &&
  (let mx (sd : Side) : Bool := sd.fmt.any fun f => (mxOf f).isSome
   let base (sd : Side) : Bool := match sd.fmt.bind mxOf with | some m => sd.base % m.rec_ = 0 | none => true
   (!(mx c.src || mx c.dst) || ((c.dims.head?.map Dim.w).getD 0) % 32 = 0) && base c.src && base c.dst)

/-- CPY (15 R286) -/
def execCpy (d a : Code) (h : Bool) (s : State) : Out :=
  instr { srcs := [a], dst := some d } (do
    waitOldest
    match ← readHeader a with
    | none => return .stay
    | some (ea, head) =>
      let rank := bits (head.getD 2 0) 1 0 + 1
      match ← readBlockWords (ea :: head) (ea + 64) (4 * rank) with
      | none => return .stay
      | some tail =>
        let w := head ++ tail
        let ctl := w.getD 2 0
        let field (i : Nat) : Word := w.getD i 0
        check (ea.toNat % 64 = 0 && bits ctl 63 10 = 0 && bits (field 4) 63 21 = 0 && field 5 = 0 && field 6 = 0 && field 7 = 0 &&
          ((List.range rank).all fun i => bits (field (9 + 4 * i)) 63 32 = 0) &&
          goodTarget (bits ctl 9 8) (field 3) && (bit ctl 7 || field 4 = 0)) Cause.illegalOperand
        let c ← copyOf w
        check (goodDims c) Cause.geometry
        let (so, (dlo, dhi)) := cornerOffsets c.dims
        match so with
        | some (lo, hi) => let (x, y) := c.src.span lo hi; checkSpan c.src x y .load
        | none => pure ()
        let (x, y) := c.dst.span dlo dhi
        checkSpan c.dst x y .store
        check (goodGeometry c) Cause.geometry
        let k ← myCore
        awaitTransfers k
        depart ea (b2w h :: w) (← destOf d) (← c.src.master) (.copyAccept k (← mySlot))) s

/-- What acceptance binds for a copy (07 R137), in the order of its checks: translations of both sides, targets, formats and the cloche rule; then where
its follow-on goes (15 R286). -/
def acceptCopy (k : Nat) (w : List Word) : M (Copy × List Nat × List Nat) := do
  let ctl := w.getD 2 0
  let c ← copyOf w
  let pts := allPoints c
  let sb := reached c.src (pts.filterMap Prod.fst)
  let db := reached c.dst (pts.map Prod.snd)
  let sx ← sideStretches c.src sb .load
  let dx ← sideStretches c.dst db .store
  checkTargets c.src .load sx
  checkTargets c.dst .store dx
  let src ← oneFormat k { c.src with pages := ← bindStretches false sx } sb
  let dst ← oneFormat k { c.dst with pages := ← bindStretches (bit ctl 6) dx } db
  if bit ctl 6 then checkCloche dst dx else pure ()
  let far (sd : Side) : Bool := sd.pages.any fun p => match p.2 with | .remote _ _ _ => true | _ => false
  let c := { c with src := src, dst := dst, single := far src || far dst }
  let wg := if bit ctl 6 then groupsOf dx else []
  if bit ctl 7 then
    let fd := bits (w.getD 4 0) 20 0
    let homes := (db.map fun b => match dst.place k b with
      | .own _ => some k
      | .ls t _ => some t
      | _ => none).eraseDups
    match homes with
    | [some t] =>
      check (hasArray t && fd % 64 = 0 && fd + 64 ≤ lsSize t) Cause.geometry
      return ({ c with follow := some (t, lsKey t fd) }, groupsOf sx, wg)
    | _ => trap Cause.geometry
  else return (c, groupsOf sx, wg)

/-- A command waits for acceptance while a publication of a group it writes waits (07 R142). -/
def awaitFlip (gs : List Nat) : M Unit := do
  let ctx := (← controlT).ctx
  if (← getS).pkg.publs.any fun p => gs.any fun g => p.1 = ctx * 128 + g then wait false else pure ()

/-- An accepted command gets its number, its thread its identifier. -/
def accepted (id n : Nat) (cmd : Command) : M Unit := do
  onCore (id / 16) fun c => { c with commands := FMap.set c.commands n cmd }
  let t ← getT id
  fill id t.mwaitDst (BitVec.ofNat 64 (n % 2 ^ 16))
  twinAnswer id [BitVec.ofNat 64 (n % 2 ^ 16)] false
  goOn id
  if cmd.held then pure () else startCommand (id / 16) n

/-- The master's answer to a command that waits for acceptance: accepted, refused with a precise trap, or tried again in the next
cycle. -/
def answer (k t : Nat) (again : Instr) (body : M Unit) (s : State) : Out :=
  let id := tidOf k t
  match (s.thread id).status with
  | .parked .engine _ =>
    match (do emit (.clock fun c => { c with core := k, slot := t }); body).eval s with
    | .ok (_, es) => .next (applyAll es s)
    | .error (.trap cause v keep) =>
      event (do
        emitAll keep
        let c := (← getS).control id
        match (← getT c).twin with
        | some tw => if tw.copy = 0 then emitAll (twinTrapEffs c (← getT c).tcbKey tw) else pure ()
        | none => pure ()
        takeTrap id cause v (← getT id).faultPc) s
    | .error (.wait _ _) => event (plan 1 again) s
    | .error (.call _ _) => .next s
    | .error (.fault f) => .fault f
    | .error (.refuse r) => .refused r
  | _ => .next s

/-- COPY_ACCEPT (07 R137) -/
def execCopyAccept (k t : Nat) (s : State) : Out :=
  answer k t (.copyAccept k t) (do
    let id := tidOf k t
    match (← getT id).held with
    | ea :: h :: w =>
      awaitTransfers k
      let (c, rg, wg) ← acceptCopy k w
      awaitFlip wg
      let n ← newTransfer k
      let r ← reporter id n 0 (bits (w.getD 2 0) 9 8) (w.getD 3 0) (← blockAddress ea)
      accepted id n { rep := r, work := .copy c, master := ← c.src.master, held := h ≠ 0, cloche := wg, groups := rg }
    | _ => pure ()) s

/-! ## Landing (07 R140, 05 R92, R96) -/

/-- Bytes at a distance from a side's base, split at the end of a 64 KiB stretch. -/
def Side.parts (k : Nat) (sd : Side) (b : Int) (n : Nat) : List (Place × Nat) :=
  let room := 65536 - sd.at_ b % 65536
  if sd.own || n ≤ room then [(sd.place k b, n)] else [(sd.place k b, room), (sd.place k (b + room), n - room)]

/-- Bytes of parts, and whether any is poisoned; a part of another package reads from what its responses have brought. -/
def readParts (got off : Nat) : List (Place × Nat) → M (List Byte × Bool)
  | [] => return ([], false)
  | (p, n) :: ps => do
    let (bs, bad) ← match p with
      | .remote _ _ _ => pure (leBytes n (got / 2 ^ (8 * off)), false)
      | p => readPart p n
    let (rest, more) ← readParts got (off + n) ps
    return (bs ++ rest, bad || more)

/-- A source element: its code, its block's scale, and whether the words of each were poisoned. -/
structure Taken1 where
  code : Nat
  scale : Nat := 127
  bad : Bool := false
  badScale : Bool := false
  inside : Bool := true

/-- The element at an offset of the source; out of range it is +0 (07 R138). `marked`: a word of another package was poisoned. -/
def takeElement (k : Nat) (sd : Side) (got : Nat) (marked : Bool) (off : Option Int) : M Taken1 := do
  match off with
  | none => return { code := if sd.fmt = some 11 then 0x10 else 0, inside := false }
  | some o =>
    let (b, sc) := sd.bit o
    let sh := (b % 8).toNat
    let (bs, bad) ← readParts got 0 (sd.parts k (b / 8) ((sh + sd.width + 7) / 8))
    let code := leValue bs / 2 ^ sh % 2 ^ sd.width
    match sc with
    | none => return { code := code, bad := bad || marked }
    | some d =>
      let (s1, bad1) ← readParts 0 0 (sd.parts k d 1)
      return { code := code, scale := leValue s1, bad := bad, badScale := bad1 }

def takeAll (k : Nat) (sd : Side) (got : Nat) (marked : Bool) : List (Option Int) → M (List Taken1)
  | [] => return []
  | o :: os => do
    let x ← takeElement k sd got marked o
    let xs ← takeAll k sd got marked os
    return x :: xs

/-- The exact value of a source element. -/
def takenNum (fmt : Nat) (x : Taken1) : Num :=
  match mxOf fmt with
  | some m => mxDecode m.fmt x.scale x.code
  | none => (bankFmtOf fmt).decode x.code

/-- What is to be written of some elements: bits from the destination's base, those of them that come from poisoned words (05 R92), and overflow under
policy 3. -/
structure Landed where
  writes : List BitWrite
  bad : List BitWrite := []
  excess : Bool := false

/-- A conversion under a policy: policy 3 writes as policy 2 and is reported (07 R139). -/
def convertOver (dst : NumFmt) (policy : Nat) (x : Num) : Nat × Bool :=
  let c := dst.convert 0 policy x
  if c.trap then ((dst.convert 0 2 x).code, true) else (c.code, false)

/-- Elements grouped by the MX block of their destination, in order. -/
def groupBlocks : List (Taken1 × Int) → List (Int × List (Taken1 × Int)) → List (Int × List (Taken1 × Int))
  | [], acc => acc
  | (x, o) :: rest, acc =>
    match acc.find? fun g => g.1 = o / 32 with
    | some _ => groupBlocks rest (acc.map fun g => if g.1 = o / 32 then (g.1, g.2 ++ [(x, o)]) else g)
    | none => groupBlocks rest (acc ++ [(o / 32, [(x, o)])])

/-- An element written as it is, or from its decoded value: which depends on its scale as well. -/
def landBits (w : BitWrite) (x : Taken1) (decoded : Bool) : Landed :=
  { writes := [w], bad := if x.bad || (decoded && x.badScale) then [w] else [] }

/-- Several landed elements as one. -/
def Landed.join (ls : List Landed) (excess : Bool := false) : Landed :=
  { writes := ls.flatMap (·.writes), bad := ls.flatMap (·.bad), excess := excess || ls.any (·.excess) }

/-- One block of an MX destination (06 R120, 05 R95): converted with one computed scale; of equal format with its source's scale; and from
a side without a format with values that no rule gives (assumption 38). -/
def landBlock (m : Mx) (code : Nat) (srcFmt : Option Nat) (policy : Nat) (q : Int) (xs : List (Taken1 × Int)) : M Landed := do
  let scaleBit := 8 * ((spotOf code (32 * q)).2.getD 0)
  let bitsOf (codes : List Nat) (decoded : Bool) : List Landed :=
    (codes.zip xs).map fun (c, x, o) => landBits ((spotOf code o).1, m.fmt.width, c) x decoded
  match srcFmt with
  | some f =>
    if f = code then
      let sc := match xs.find? fun x => x.1.inside with
        | some x => landBits (scaleBit, 8, x.1.scale) { x.1 with bad := x.1.badScale } false
        | none => { writes := [(scaleBit, 8, 127)] }
      return .join (sc :: bitsOf (xs.map fun x => x.1.code) false)
    else
      let ns := xs.map fun x => takenNum f x.1
      let b := mxEncode m.fmt policy 0 ns
      let (b, excess) := if b.trap then (mxEncode m.fmt 2 0 ns, true) else (b, false)
      let rec_ := q / m.per
      let reserved : BitWrite := (8 * (m.rec_ * rec_ + m.scale + m.per), 8 * (m.rec_ - m.scale - m.per), 0)
      return .join ({ writes := [(scaleBit, 8, b.scale), reserved] } :: bitsOf b.codes true) excess
  | none =>
    let sc ← free
    let v ← free
    return .join ({ writes := [(scaleBit, 8, sc.toNat % 256)] } :: bitsOf (xs.map fun x => (x.1.code + v.toNat) % 2 ^ m.fmt.width) false)

def landBlocks (m : Mx) (code : Nat) (srcFmt : Option Nat) (policy : Nat) : List (Int × List (Taken1 × Int)) → M (List Landed)
  | [] => return []
  | (q, xs) :: gs => do
    let l ← landBlock m code srcFmt policy q xs
    let ls ← landBlocks m code srcFmt policy gs
    return l :: ls

/-- An element moved without conversion between a side with a format and one without, or between sides without one (05 R96): its bytes unchanged; bits
that only the destination's element has are a free value, and so is all of an element that one side packs into part of a byte, whose bytes the other
side has no place for (assumption 38). -/
def moveBits (c : Copy) (x : Taken1) : M Nat := do
  let w := c.dst.width
  if subByte c.src.fmt || subByte c.dst.fmt then return ((← free).toNat + x.code) % 2 ^ w
  else if w ≤ c.src.width then return x.code % 2 ^ w
  else return x.code + (← free).toNat / 2 ^ (64 - (w - c.src.width)) * 2 ^ c.src.width

/-- One element of a destination that is not an MX bank. -/
def landElement (c : Copy) (x : Taken1) (o : Int) : M Landed := do
  let at_ := (c.dst.bit o).1
  match c.src.fmt, c.dst.fmt with
  | some f, some code =>
    if f = code then return landBits (at_, c.dst.width, x.code) x false
    else
      let (v, excess) := convertOver (bankFmtOf code) c.policy (takenNum f x)
      return { landBits (at_, c.dst.width, v) x true with excess := excess }
  | _, _ => return landBits (at_, c.dst.width, ← moveBits c x) x true

def landEach (c : Copy) : List (Taken1 × Int) → M (List Landed)
  | [] => return []
  | (x, o) :: xs => do
    let l ← landElement c x o
    let ls ← landEach c xs
    return l :: ls

/-- The elements of a unit as their destination takes them. -/
def landElements (c : Copy) (xs : List (Taken1 × Int)) : M (List Landed) := do
  match c.dst.fmt.bind fun code => (mxOf code).map fun m => (code, m) with
  | some (code, m) => landBlocks m code c.src.fmt c.policy (groupBlocks xs [])
  | none => landEach c xs

/-- The bytes that bit writes touch, by their distance from the base plus 2^50: which bits are written, and their values. -/
def layAll (ws : List BitWrite) : FMap (Nat × Nat) := ws.foldl (layBits (2 ^ 50)) []

/-- Those bytes by key, in the local stores in which a side lies. -/
def landKeys (k : Nat) (sd : Side) (m : FMap (Nat × Nat)) : FMap (Nat × Nat) :=
  m.foldl (fun acc (x, v) => match (sd.place k ((x : Int) - 2 ^ 50)).key? with | some key => FMap.set acc key v | none => acc) []

/-- Bytes that a copy also reads are undefined (07 R140, 00 R5). -/
def loosen (reads : Nat → Bool) : FMap (Nat × Nat) → M (FMap (Nat × Nat))
  | [] => return []
  | (key, mask, v) :: m => do
    let v ← if reads key then pure ((← free).toNat % 256 &&& mask) else pure v
    return (key, mask, v) :: (← loosen reads m)

/-- Writes of a unit into local stores: their words are full (05 R91). -/
def landLocal (k : Nat) (sd : Side) (reads : Nat → Bool) (ls : List Landed) : M Unit := do
  let m ← loosen reads (landKeys k sd (layAll (ls.flatMap (·.writes))))
  let words := (m.map fun x => dwKey x.1).eraseDups
  storeBits m words
  poisonWords ((landKeys k sd (layAll (ls.flatMap (·.bad)))).map fun x => dwKey x.1).eraseDups
  serveAllOf words

/-- Bytes of an element written to the places of its parts; those in another package are sent for. -/
def landParts (reads : Nat → Bool) (bad : Bool) (bs : List Byte) : List (Place × Nat) → M Unit
  | [] => pure ()
  | (p, len) :: ps => do
    match p with
    | .remote _ _ _ => pure ()
    | p =>
      let w ← if (List.range len).any fun i => reads (p.flat + i) then do
          let v ← free
          pure (bs.zipIdx.map fun (b, i) => if reads (p.flat + i) then (v >>> (8 * (i % 8))).setWidth 8 else b)
        else pure bs
      writePart p (w.take len)
      match p.key? with
      | some key => do
        if bad then poisonWords (touched key len) else pure ()
        fullWords (touched key len)
      | none => pure ()
    landParts reads bad (bs.drop len) ps

/-- Writes of a unit elsewhere: whole bytes. -/
def landPlain (k : Nat) (sd : Side) (reads : Nat → Bool) : List Landed → M Unit
  | [] => pure ()
  | l :: ls => do
    match l.writes with
    | (b, n, v) :: _ => landParts reads (!l.bad.isEmpty) (leBytes (n / 8) v) (sd.parts k (b / 8) (n / 8))
    | [] => pure ()
    landPlain k sd reads ls

/-- A unit written: a side with a format lies in local stores. -/
def landUnit (k : Nat) (sd : Side) (reads : Nat → Bool) (ls : List Landed) : M Unit :=
  if sd.fmt.isSome then landLocal k sd reads ls else landPlain k sd reads ls

/-- The places of a unit's bytes on one side. -/
def unitPlaces (k : Nat) (sd : Side) (offs : List Int) : List Place :=
  (reached sd offs).map fun b => sd.place k b

/-- Whether a unit has to wait: a weight-store group under refresh (05 R100), a bank under test (26 R391). -/
def heldUp (s : State) (p : Place) : Bool :=
  match p with
  | .ws d o _ => (s.dieOf d).busyGroup = some (o / 2 ^ 26 % 16)
  | .own key => underTest s key
  | .ls _ key => underTest s key
  | _ => false

def sealedPlace (s : State) (p : Place) : Bool :=
  match p with
  | .own key => (s.coreOf (key / 0x200000)).isSealed
  | .ls c _ => (s.coreOf c).isSealed
  | _ => false

/-- Number by which a request to another package names the engine of a core that sent it. -/
def engineRequester (k : Nat) : Nat := 71680 + k

/-- Requests of an engine for the parts of an element that lie in another package. -/
def askParts (k ctx off : Nat) (kind : AccessKind) (data : Nat) (marked : Bool) : List (Place × Nat) → M (FMap Nat)
  | [] => return []
  | (p, n) :: ps => do
    let sent ← match p with
      | .remote pkg rtt frame => do
        let s ← getS
        let port := firstPort (routeMask s (dieOf k) ctx pkg)
        let id := s.pkg.nextAccess * 2 ^ 17 + engineRequester k
        let req : AccessRequest := {
          origin := 0, id := id, kind := kind, key := remoteKey rtt frame, size := n,
          data := BitVec.ofNat 64 (data / 2 ^ (8 * off)), bound := b2w marked }
        onPkg fun q => { q with nextAccess := q.nextAccess + 1 }
        sendFlit port (.request req)
        plan (256 * (FMap.get {} (s.dieOf (port / 4)).ports (port % 4)).dlto) (.linkTimeout k 16 id)
        pure [(id, off)]
      | _ => pure []
    let rest ← askParts k ctx (off + n) kind data marked ps
    return sent ++ rest

/-- The copy of a command. -/
def Command.copy (cmd : Command) : Option Copy :=
  match cmd.work with
  | .copy c => some c
  | _ => none

def putCommand (k i : Nat) (cmd : Command) : M Unit :=
  onCore k fun c => { c with commands := FMap.set c.commands i cmd }

/-- A unit has landed, or never will: the next one, or the end. -/
def nextUnit (k i : Nat) (cmd : Command) (c : Copy) (stat : Nat) : M Unit := do
  let c := { c with next := c.next + 1, phase := 0, asked := [], got := 0, marked := false }
  putCommand k i { cmd with work := .copy c, status := max cmd.status stat }
  if c.next < units c then plan (Config.engineTime 0 c.next) (.copyElementLand (cmdId k i))
  else plan 0 (.copyComplete (cmdId k i))

/-- The parts of a source element, its scale with it. -/
def Side.elementParts (k : Nat) (sd : Side) (o : Int) : List (Place × Nat) :=
  let (b, sc) := sd.bit o
  sd.parts k (b / 8) (((b % 8).toNat + sd.width + 7) / 8) ++ (sc.toList.flatMap fun d => sd.parts k d 1)

/-- Whether a byte is one that a copy reads. -/
def Copy.reads (k : Nat) (c : Copy) (flat : Nat) : Bool :=
  ((allPoints c).filterMap Prod.fst).any fun o => (c.src.elementParts k o).any fun (p, n) => p.flat ≤ flat && flat < p.flat + n

/-- One unit read, converted and written (07 R140). -/
def landOne (k i : Nat) (cmd : Command) (c : Copy) : M Unit := do
  let pts := unitPoints c c.next
  let xs ← takeAll k c.src c.got c.marked (pts.map Prod.fst)
  let ls ← landElements c (xs.zip (pts.map Prod.snd))
  landUnit k c.dst (c.reads k) ls
  let stat := max (if xs.any fun x => x.bad || x.badScale then 0x0C else 0) (if ls.any Landed.excess then 0x0E else 0)
  -- parts of the destination in another package are sent for
  let away ← match c.single, ls with
    | true, { writes := (b, n, v) :: _, bad := bad, .. } :: _ => askParts k cmd.rep.ctx 0 .store v (!bad.isEmpty) (c.dst.parts k (b / 8) (n / 8))
    | _, _ => pure []
  if away.isEmpty then nextUnit k i cmd c stat
  else putCommand k i { cmd with work := .copy { c with asked := away, phase := 3 }, status := max cmd.status stat }

/-- COPY_ELEMENT_LAND (07 R140) -/
def execCopyElementLand (id : Nat) (s : State) : Out :=
  event (do
    let k := id % 2 ^ 13
    let i := id / 2 ^ 13
    let s ← getS
    match FMap.get? (s.coreOf k).commands i with
    | none => pure ()
    | some cmd =>
      match cmd.copy with
      | none => pure ()
      | some c =>
        if cmd.held || units c ≤ c.next then pure ()
        else
          let pts := unitPoints c c.next
          let places := unitPlaces k c.src (pts.filterMap Prod.fst) ++ unitPlaces k c.dst (pts.map Prod.snd)
          if places.any (sealedPlace s) then nextUnit k i cmd c 0x16
          else if places.any (heldUp s) then plan 1 (.copyElementLand id)
          else if c.phase = 0 && c.single then
            match pts with
            | (some o, _) :: _ =>
              let (b, _) := c.src.bit o
              let away ← askParts k cmd.rep.ctx 0 .load 0 false (c.src.parts k (b / 8) (c.src.width / 8))
              if away.isEmpty then landOne k i cmd c
              else putCommand k i { cmd with work := .copy { c with asked := away, phase := 1 } }
            | _ => landOne k i cmd c
          else if c.phase = 0 || c.phase = 2 then landOne k i cmd c
          else pure ()) s

/-- A response to a request of the engine of a core: its bytes join the element, which lands once all have come. A word that was poisoned there comes
without data (00 R5); for another refusal no status is given, and the element does not land (assumption 38). -/
def engineResponse (k n : Nat) (value : Word) (error : Bool) : M Unit := do
  match (← getC k).commands.find? fun p => (p.2.copy.any fun c => (FMap.get? c.asked n).isSome) with
  | none => pure ()
  | some (i, cmd) =>
    match cmd.copy with
    | none => pure ()
    | some c =>
      if error && value.toNat ≠ Cause.poisoned then nextUnit k i cmd c 0x16
      else
        let off := FMap.get 0 c.asked n
        let v ← if error then free else pure value
        let c := { c with
          asked := FMap.erase c.asked n, marked := c.marked || error
          got := if c.phase = 1 then (c.got + v.toNat * 2 ^ (8 * off)) % 2 ^ c.src.width else c.got }
        if !c.asked.isEmpty then putCommand k i { cmd with work := .copy c }
        else if c.phase = 1 then
          putCommand k i { cmd with work := .copy { c with phase := 2 } }
          plan 0 (.copyElementLand (cmdId k i))
        else nextUnit k i cmd c 0

/-- A request of an engine that gets no response (25 R380): the element does not land. -/
def engineTimeout (k n : Nat) : M Unit := do
  match (← getC k).commands.find? fun p => (p.2.copy.any fun c => (FMap.get? c.asked n).isSome) with
  | none => pure ()
  | some (i, cmd) =>
    match cmd.copy with
    | none => pure ()
    | some c => nextUnit k i cmd c 0x16

/-- COPY_COMPLETE (07 R139) -/
def execCopyComplete (id : Nat) (s : State) : Out :=
  event (do
    let k := id % 2 ^ 13
    let i := id / 2 ^ 13
    match FMap.get? (← getC k).commands i with
    | none => pure ()
    | some cmd =>
      match cmd.copy with
      | some c => if units c ≤ c.next then complete k i cmd.status else pure ()
      | none => pure ()) s

/-! ## NBMV (07 R146, R147, 15 R289, R290) -/

/-- Byte offsets that the three operands of a near-bank command reach. -/
def nbOffsets (w : List Word) (x wt : Side) : List Int × List Int × List Int :=
  let ctl := w.getD 4 0
  let n := bits ctl 25 14 + 1
  let k := bits ctl 13 0 + 1
  let stride : Int := (w.getD 2 0).toNat
  let row : Int × Int := match wt.fmt with
    | some f => if subByte wt.fmt then spanOf f 0 (n - 1) else (0, n * wt.width / 8 - 1)
    | none => (0, 0)
  ([0, k * x.width / 8 - 1],
   ((List.range k).flatMap fun (q : Nat) => (List.range ((row.2 / 65536).toNat + 1)).map (fun (i : Nat) => stride * (q : Int) + 65536 * (i : Int)) ++ [stride * (q : Int) + row.2]),
   (List.range ((4 * n - 1) / 65536 + 1)).map (fun (i : Nat) => 65536 * (i : Int)) ++ [4 * (n : Int) - 1])

/-- The operands of a near-bank command. -/
def nearBankOf (w : List Word) : M NearBank := do
  let ctl := w.getD 4 0
  let f := bits ctl 29 26
  let x ← sideOf (w.getD 0 0) 4
  let wt ← sideOf (w.getD 1 0) 4
  let y ← sideOf (w.getD 3 0) 4
  return { x := x, w := { wt with fmt := some f, width := (bankFmtOf f).width }, y := { y with width := 32 }, stride := (w.getD 2 0).toNat,
           k := bits ctl 13 0 + 1, n := bits ctl 25 14 + 1 }

/-- NBMV (15 R290) -/
def execNbmv (d a : Code) (h : Bool) (s : State) : Out :=
  instr { srcs := [a], dst := some d } (do
    waitOldest
    match ← readHeader a with
    | none => return .stay
    | some (ea, w) =>
      let ctl := w.getD 4 0
      let field (i : Nat) : Word := w.getD i 0
      let f := bits ctl 29 26
      let stride := (field 2).toNat
      check (ea.toNat % 64 = 0 && bits ctl 63 33 = 0 && field 6 = 0 && field 7 = 0 && goodTarget (bits ctl 32 31) (field 5) &&
        4 ≤ f && f ≤ 11 && stride ≠ 0 && stride % 256 = 0 &&
        (!(subByte (some f)) || (bits ctl 25 14 + 1) % 32 = 0)) Cause.illegalOperand
      let nb ← nearBankOf w
      check ((!nb.x.own || nb.x.fmt = some 4 || nb.x.fmt = some 5) && (!nb.y.own || nb.y.fmt = some 4) &&
        (match mxOf f with | some m => nb.w.base % m.rec_ = 0 | none => true)) Cause.illegalOperand
      check nb.x.own Cause.segmentRights (field 0)
      check (!nb.w.own) Cause.segmentRights (field 1)
      check (nb.y.own || bit ctl 30) Cause.segmentRights (field 3)
      let (xo, wo, yo) := nbOffsets w nb.x nb.w
      match extremes xo, extremes wo, extremes yo with
      | some (a, b), some (c, d), some (e, f) =>
        checkSpan nb.x a b .load
        checkSpan nb.w c d .load
        checkSpan nb.y e f .store
      | _, _, _ => pure ()
      let k ← myCore
      awaitTransfers k
      depart ea (b2w h :: w) (← destOf d) (← nb.w.master) (.nbmvAccept k (← mySlot))) s

/-- What acceptance binds for a near-bank command, in the order of its checks (07 R147), with the groups it reads and writes. -/
def acceptNear (k : Nat) (w : List Word) : M (NearBank × List Nat × List Nat) := do
  let nb ← nearBankOf w
  let cloche := bit (w.getD 4 0) 30
  let (xo, wo, yo) := nbOffsets w nb.x nb.w
  let wx ← sideStretches nb.w wo .load
  let yx ← if cloche then sideStretches nb.y yo .store else pure []
  check (wx.all fun x => match x.2.1 with | .hbm _ _ => true | .ws _ _ _ => true | _ => false) Cause.protection nb.w.ea
  checkTargets nb.w .load wx
  checkTargets nb.y .store yx
  let ws := { nb.w with pages := ← bindStretches false wx }
  let y := { nb.y with pages := ← bindStretches cloche yx }
  let s ← getS
  check ((xo.all fun b => placeFormat s k (nb.x.place k b) = nb.x.fmt) &&
    (cloche || yo.all fun b => placeFormat s k (nb.y.place k b) = some 4)) Cause.illegalOperand
  if cloche then checkCloche y yx else pure ()
  return ({ nb with w := ws, y := y }, groupsOf wx, groupsOf yx)

/-- NBMV_ACCEPT (07 R147) -/
def execNbmvAccept (k t : Nat) (s : State) : Out :=
  answer k t (.nbmvAccept k t) (do
    let id := tidOf k t
    match (← getT id).held with
    | ea :: h :: w =>
      awaitTransfers k
      let (nb, rg, wg) ← acceptNear k w
      awaitFlip wg
      let n ← newTransfer k
      let r ← reporter id n 1 (bits (w.getD 4 0) 32 31) (w.getD 5 0) (← blockAddress ea)
      accepted id n { rep := r, work := .nearBank nb, master := ← nb.w.master, held := h ≠ 0, cloche := wg, groups := rg }
    | _ => pure ()) s

/-- A value of x or of row q of W with its poison. -/
def nbElement (k : Nat) (sd : Side) (row : Int) (e : Nat) : M (Num × Bool) := do
  let f := sd.fmt.getD 4
  let (b, sc) := if subByte sd.fmt then spotOf f e else ((sd.width * e : Nat), none)
  let sh := (b % 8).toNat
  let (bs, bad) ← readParts 0 0 (sd.parts k (row + b / 8) ((sh + sd.width + 7) / 8))
  let code := leValue bs / 2 ^ sh % 2 ^ sd.width
  match sc, mxOf f with
  | some d, some m =>
    let (s1, bad1) ← readParts 0 0 (sd.parts k (row + d) 1)
    return (mxDecode m.fmt (leValue s1) code, bad || bad1)
  | _, _ => return ((bankFmtOf f).decode code, bad)

def nbElements (k : Nat) (sd : Side) (row : Int) : List Nat → M (List (Num × Bool))
  | [] => return []
  | e :: es => do
    let x ← nbElement k sd row e
    let xs ← nbElements k sd row es
    return x :: xs

def nbRows (k : Nat) (nb : NearBank) : List Nat → M (List (List (Num × Bool)))
  | [] => return []
  | q :: qs => do
    let r ← nbElements k nb.w (nb.stride * q : Nat) (List.range nb.n)
    let rs ← nbRows k nb qs
    return r :: rs

/-- y[j]: the exact sum of products rounded once to FP32, and whether it depends on poison (07 R146). -/
def nbSum (xs : List (Num × Bool)) (col : List (Num × Bool)) : Nat × Bool :=
  let ps := List.zipWith (fun x w => (mulNum x.1 w.1).1) xs col
  ((Fmt.f32.convert 0 1 (exactSum 0 ps).1).code, xs.any Prod.snd || col.any Prod.snd)

/-- NBMV_COMPLETE (07 R146): the whole product, its results written, and the command complete. -/
def execNbmvComplete (id : Nat) (s : State) : Out :=
  event (do
    let k := id % 2 ^ 13
    let i := id / 2 ^ 13
    let s ← getS
    match FMap.get? (s.coreOf k).commands i with
    | none => pure ()
    | some cmd =>
      match cmd.work with
      | .nearBank nb =>
        if cmd.held then pure ()
        else if cmd.status ≠ 0 then complete k i cmd.status
        else if (nb.w.pages.any fun p => heldUp s p.2) || underTest s (lsKey k nb.x.base) then plan 1 (.nbmvComplete id)
        else
          let xs ← nbElements k nb.x 0 (List.range nb.k)
          let rows ← nbRows k nb (List.range nb.k)
          let out := (List.range nb.n).map fun j => nbSum xs (rows.map fun r => r.getD j (.fin false 0 0, false))
          landUnit k nb.y (fun _ => false) (out.zipIdx.map fun ((v, bad), j) =>
            let w : BitWrite := ((32 * j : Nat), 32, v)
            { writes := [w], bad := if bad then [w] else [] })
          complete k i (if out.any Prod.snd then 0x0C else 0)
      | _ => pure ()) s

/-! ## CHAIN, PUBL and ESTAT (15 R287, R288, R291, 07 R142) -/

/-- CHAIN (15 R288) -/
def execChain (a b : Code) (x y : Bool) (s : State) : Out :=
  instr { srcs := [a, b] } (do
    waitOldest
    let va ← readSrc a x
    let vb ← readSrc b y
    let k ← myCore
    let c ← getC k
    check (va.toNat < 2 ^ 16 && vb.toNat < 2 ^ 16) Cause.illegalOperand
    match transferOf c va.toNat, transferOf c vb.toNat with
    | some (p, st), some (q, _) =>
      match FMap.get? c.commands q with
      | some succ =>
        check (succ.held && p ≠ q && succ.chains < 4) Cause.illegalOperand
        let succ := { succ with chains := succ.chains + 1, preds := succ.preds + 1 }
        putCommand k q succ
        match st with
        | none =>
          match FMap.get? (← getC k).commands p with
          | some pred => putCommand k p { pred with after := pred.after ++ [q] }
          | none => pure ()
        | some 0 =>
          putCommand k q { succ with preds := succ.preds - 1 }
          if succ.preds ≤ 1 then startCommand k q else pure ()
        | some _ => complete k q 0x80
        return .next
      | none => trap Cause.illegalOperand
    | _, _ => trap Cause.illegalOperand) s

/-- PUBL (15 R287, 07 R142): the thread is held until the flip. -/
def execPubl (g : Code) (sc : BitVec 3) (s : State) : Out :=
  instr { literals := g ≠ 0 && sc.toNat ≤ 5 } (do
    waitOldest
    awaitPoint
    let id ← me
    let ctx := (← controlT).ctx
    let before := groupCommands (← getS) ctx g.toNat
    onPkg fun p => { p with publs := p.publs ++ [(ctx * 128 + g.toNat, id, before)] }
    thr id fun t => { t with status := .parked .engine none }
    plan 0 (.publFlip ctx g.toNat)
    return .stay) s

/-- Reductions, and accesses to other packages, of threads of a context that are on their way with the frame that they had at issue: a flip comes after
them (07 R142). -/
def inFlight (s : State) (ctx : Nat) : Bool :=
  s.threads.any fun (id, t) =>
    (s.thread (s.control id)).ctx = ctx && t.outstanding.any (fun p => p.2.key.isSome || p.2.port ≠ 0) &&
    (match t.status with | .parked .registered _ => false | _ => true)

/-- A registered operation withdrawn: its instruction executes again from its first check (23 R349 step 5). -/
def executeAgain (id : Nat) : M Unit := do
  release id
  thr id fun t => { t with status := if t.col.any fun c => !c.inHandler then .parked .column none else .ready }

/-- Operations that wait on words of a group's pages find the frame anew (07 R142). -/
def retryGroup (ctx g : Nat) : List Waiter → M Unit
  | [] => pure ()
  | w :: ws => do
    let s ← getS
    let id := tidOf w.core w.slot
    let t := s.thread (s.control id)
    let mine := w.remote.isNone && !w.polls && t.ctx = ctx && (linearOf t w.addr).any fun a => groupAt s ctx a = g
    match (s.thread id).status with
    | .parked .registered _ => if mine then executeAgain id else pure ()
    | _ => pure ()
    retryGroup ctx g ws

/-- A buffered store's part at the place that its address has now. -/
def replaced (s : State) (k : Nat) (t : Thread) (ea : Word) (p : Place) : Place :=
  match linearOf t ea with
  | none => p
  | some a =>
    match (translate ea k t.ctx .h a {} hwSegment false .scheduler).eval s with
    | .ok ((.ls c key, _), _) => if c = k then .own key else .ls c key
    | .ok ((q, _), _) => q
    | .error _ => p

/-- Buffered stores take the live frame when they are performed (23 R345): those that a flip concerns have their places found anew. -/
def rebindBuffers (ctx : Nat) : FMap Thread → M Unit
  | [] => pure ()
  | (id, t) :: ts => do
    let s ← getS
    let o := s.thread (s.control id)
    if o.ctx = ctx && t.iter.any fun it => !it.buf.isEmpty then
      let place (b : Buffered) : Buffered :=
        { b with parts := (b.parts.foldl (fun (acc, off) (p, bs) =>
            (acc ++ [(replaced s (id / 16) o (b.addr + BitVec.ofNat 64 off) p, bs)], off + bs.length)) (([], 0) : List (Place × List Byte) × Nat)).1 }
      thr id fun t => { t with iter := t.iter.map fun it => { it with buf := it.buf.map place } }
    else pure ()
    rebindBuffers ctx ts

/-- A publication lands on the pages of its group: monitors on them latch (03 R60), and barriers in them break (12 R229). -/
def landPublication (ctx g : Nat) : FMap Core → M Unit
  | [] => pure ()
  | (_, c) :: cs => do
    let s ← getS
    latchAll (c.monRegs.filter fun m => m.lin.any fun (x, a) => x = ctx && groupAt s ctx a = g)
    breakAll (c.barriers.filter fun b => b.ctx = ctx && b.lin.any fun a => groupAt s ctx a = g)
    landPublication ctx g cs

/-- PUBL_FLIP (07 R142): the oldest publication of the group flips once every command it waits for is complete. -/
def execPublFlip (ctx g : Nat) (s : State) : Out :=
  event (do
    let s ← getS
    let key := ctx * 128 + g
    match s.pkg.publs.find? fun p => p.1 = key with
    | none => pure ()
    | some (_, id, before) =>
      if before.any fun (k, i) => (FMap.get? (s.coreOf k).commands i).isSome then pure ()
      else if inFlight s ctx then plan 1 (.publFlip ctx g)
      else
        let bad := s.pkg.clocheBad.contains key
        onPkg fun p => { p with
          selectors := NSet.put p.selectors key (!(p.selectors.contains key))
          clocheBad := NSet.erase p.clocheBad key
          publs := p.publs.filter fun q => !(q.1 = key && q.2.1 = id) }
        retryGroup ctx g (s.cores.flatMap fun p => p.2.waiters)
        rebindBuffers ctx s.threads
        landPublication ctx g s.cores
        match (s.thread id).status with
        | .parked .engine _ =>
          emit (.pw id (setBit (s.thread id).pw 18 bad))
          goOn id
        | _ => pure ()
        planFlips ctx [g]) s

/-- The array status word (15 R291). -/
def arrayStatus (c : Core) : Word :=
  let a := c.array
  BitVec.ofNat 64 (openTransfers c * 2 ^ 40 + a.queue.length * 2 ^ 32 + b2n a.busy * 2 ^ 31 +
    b2n a.psn * 8 + b2n a.nv * 4 + b2n a.ovf * 2 + b2n a.nx)

/-- The transfer status word (15 R291). -/
def transferStatus (xid : Nat) (st : Option Nat) : Word :=
  match st with
  | some v => BitVec.ofNat 64 (2 ^ 24 + v * 2 ^ 16 + xid)
  | none => BitVec.ofNat 64 xid

/-- Cycles until an ESTAT without drain fills its register; no rule gives them. -/
def estatTime : Nat := Config.engineTime 9 0

/-- ESTAT (15 R291): r is the drain option. -/
def execEstat (d a : Code) (x r : Bool) (s : State) : Out :=
  instr { srcs := [a], dst := some d } (do
    waitOldest
    let va ← readSrc a x
    let k ← myCore
    let id ← me
    let c ← getC k
    let n ← now
    check (bits va 63 17 = 0) Cause.illegalOperand
    if bit va 16 then
      match transferOf c (bits va 15 0) with
      | none => trap Cause.illegalOperand
      | some (_, st) =>
        let v := transferStatus (bits va 15 0) st
        if r then (if st.isSome then writeDst d v else wait false) else produce d v estatTime
        return .next
    else
      check (bits va 15 0 = 0 && hasArray k) Cause.illegalOperand
      if r then
        let t ← self
        let token := if t.mwaitToken = 0 then c.array.queued + 1 else t.mwaitToken
        if token ≤ c.array.finished + 1 && c.array.freeAt ≤ n && c.array.settledAt ≤ n then
          thr id fun t => { t with mwaitToken := 0 }
          writeDst d (arrayStatus c)
        else stop (.wait false [.thr id fun t => { t with mwaitToken := token }])
      else produce d (arrayStatus c) estatTime
      return .next) s

/-! ## Event queues (24 R357) -/

/-- A record queue that is enabled (22 R326). -/
def RecQueue.enabled (q : RecQueue) : Bool := 2 ≤ q.size && q.size ≤ 1024

def RecQueue.hasRoom (q : RecQueue) : Bool := q.enabled && (q.tail + 1) % q.size ≠ q.head

/-- A queue of records of some bytes that lies in one bank of its core, outside the code window (22 R326). -/
def RecQueue.placed (q : RecQueue) (k bytes : Nat) : Bool :=
  0x10000 ≤ q.base && q.base + bytes * q.size ≤ lsSize k && bankOf k q.base = bankOf k (q.base + bytes * q.size - 1)

/-- EVENT_RECORD_PLACE (24 R357): placed in the event queue of a cluster control core, or tried again one rotation later. -/
def execEventRecordPlace (k : Nat) (r : EventRecord) (s : State) : Out :=
  event (do
    let d := dieOf k
    let cl := clusterOf k
    let q := FMap.get {} (← getD d).eqb cl
    if q.hasRoom && q.placed k 16 && !(← getC k).isSealed then
      storeRecord (lsKey k (q.base + 16 * q.tail)) [r.w0, r.w1]
      onDie d fun x => { x with eqb := FMap.set x.eqb cl { q with tail := (q.tail + 1) % q.size } }
    else
      onDie d fun x => { x with eqfull := FMap.set x.eqfull cl (FMap.get 0 x.eqfull cl + 1) }
      plan 16 (.eventRecordPlace k r)) s

end Sys2Proof.Machine
end

