-- ==== Sys2Proof/Machine/Matrix.lean ====
section
/-! DEFINITION. Majors 0x2C to 0x2F: the matrix array, its queue and sequencer, block sums and the exact accumulators (07 R127 to
R135, 15 R272 to R284, 06 R123 to R126). -/

namespace Sys2Proof.Machine

/-! ## Formats of MMA (07 R128) -/

/-- The pairing class of two formats: 0 16-bit, 1 8-bit, 2 4-bit, 3 log. -/
def pairClass (a b : Nat) : Option Nat :=
  if a = 5 && b = 5 then some 0
  else if 6 ≤ a && a ≤ 9 && 6 ≤ b && b ≤ 9 then some 1
  else if a = 10 && b = 10 then some 2
  else if a = 11 && b = 11 then some 3
  else none

/-- Depth of a class, and k-values of a cycle. -/
def classDepth (c : Nat) : Nat := if c = 0 then 64 else if c = 1 then 128 else 256
def classGroup (c : Nat) : Nat := if c = 0 then 1 else if c = 1 then 2 else 4

def isMx (f : Nat) : Bool := (mxOf f).isSome

/-- Scale bytes and all bytes of a tile on a lane. -/
def laneScales (f : Nat) : Nat := if f = 10 then 512 else if isMx f then 256 else 0
def laneBytes (f : Nat) : Nat := laneScales f + (if f = 11 then 12288 else 8192)

/-- The n bits at a bit of a stream of bytes (06 R122). -/
def streamBits (bs : List Byte) (b n : Nat) : Nat :=
  leValue ((bs.drop (b / 8)).take ((b % 8 + n + 7) / 8)) / 2 ^ (b % 8) % 2 ^ n

/-- Code of an element of a tile on a lane. -/
def laneCode (f : Nat) (bs : List Byte) (e : Nat) : Nat :=
  let n := (bankFmtOf f).width
  streamBits (bs.drop (laneScales f)) (if n = 6 && f ≠ 11 then 8 * e else n * e) n

/-- Index of element (i, q) of A in a bank and on a lane, and of its block's scale on a lane. -/
def aIndex (depth i q : Nat) : Nat := i * depth + q
def aScale (depth i q : Nat) : Nat := i * (depth / 32) + q / 32
/-- Index of element (q, j) of B on a lane and in a bank, and of its block's scale on a lane. -/
def bLane (q j : Nat) : Nat := q * 64 + j
def bIndex (f depth q j : Nat) : Nat := if isMx f then j * depth + q else q * 64 + j
def bScale (q j : Nat) : Nat := q / 32 * 64 + j

/-- A code of an operand and the scale of its block. -/
structure Coded where
  code : Nat
  scale : Nat := 127

/-- What one operand of an MMA holds at (index, k), and whether some of it was in error. -/
structure Operand where
  fmt : Nat
  at_ : Nat → Nat → Coded
  bad : Bool

def Coded.num (f : Nat) (x : Coded) : Num :=
  match mxOf f with
  | some m => mxDecode m.fmt x.scale x.code
  | none => (bankFmtOf f).decode x.code

/-- The exact product of two operands, and whether it raises NV (07 R129). -/
def prod (fa fb : Nat) (x y : Coded) : Num × Bool :=
  if fa = 11 then
    match lgTerm x.code y.code with
    | some t => (.fin (decide (t < 0)) t.natAbs (-22), false)
    | none => (.nan false, true)
  else
    let p := (mulNum (x.num fa) (y.num fb)).1
    (p, p.isNan)

/-! ## Operands -/

/-- Last byte that the elements up to one, and their scales, reach from the base. -/
def lastByte (f : Nat) (e : Nat) : Int :=
  match spotOf f e with
  | (_, some sc) => sc
  | (b, none) => (b + (bankFmtOf f).width - 1) / 8

/-- An address of an array command lies in a segment of KIND 1. -/
def checkLocal (segs : FMap (BitVec 128)) (ea : Word) : M Unit :=
  check (segKind (FMap.get 0 segs (bits ea 63 61)) = 1) Cause.segmentRights ea

/-- The local-store address, and its key, of a thread address of a segment of KIND 1. -/
def blockAddr (segs : FMap (BitVec 128)) (ea : Word) : Nat := (segBase (FMap.get 0 segs (bits ea 63 61)) + bits ea 47 0) % 2 ^ 48
def blockKey (segs : FMap (BitVec 128)) (k : Nat) (ea : Word) : Nat := lsKey k (blockAddr segs ea)

/-- A span of local store named by a thread address under some segment registers: the KIND of its segment, then the checks of 05 R87
for the bytes lo to hi from it. The key of the address. -/
def localSpan (segs : FMap (BitVec 128)) (k : Nat) (ea : Word) (lo hi : Int) (need : Need) : M Nat := do
  checkLocal segs ea
  let sg := FMap.get 0 segs (bits ea 63 61)
  let off : Int := bits ea 47 0
  check (bits ea 60 48 = 0 && 0 ≤ off + lo) Cause.addressForm ea
  check (off + hi ≤ segLimit sg) Cause.segmentLimit ea
  let a : Nat := (segBase sg + bits ea 47 0) % 2 ^ 48
  check (segAllows sg need && (!(need.wr && (a : Int) + lo < 0x10000) || bit sg 54)) Cause.segmentRights ea
  check ((a : Int) + hi < lsSize k) Cause.segmentLimit ea
  return lsKey k a

/-- All bytes lo to hi from a key lie in banks of one format. -/
def spanFormat (s : State) (k key : Nat) (lo hi : Int) (f : Nat) : Bool :=
  let a : Int := (key % 0x200000 : Nat)
  let b0 := bankOf k (a + lo).toNat
  let b1 := bankOf k (a + hi).toNat
  (List.range (b1 - b0 + 1)).all fun i => bankFormat s k ((b0 + i) * (lsSize k / 16)) = f

/-- A tile in local store as an operand of MMA (15 R275). -/
def tileOperand (segs : FMap (BitVec 128)) (k : Nat) (ea : Word) (f last : Nat) : M Nat := do
  let key ← localSpan segs k ea 0 (lastByte f last) .load
  check (spanFormat (← getS) k key 0 (lastByte f last) f) Cause.illegalOperand
  match mxOf f with
  | some m => check (key % m.rec_ = 0) Cause.illegalOperand
  | none => pure ()
  return key

/-- Bytes, of which a doubleword is poisoned. -/
def poisonedBytes (s : State) (key : Nat) (bs : List Nat) : Bool :=
  ((bs.map fun b => dwKey (key + b)).eraseDups).any fun a => s.poisonAt a

/-- An operand read from local store: `idx` gives the element at (index, k). -/
def fromStore (key f : Nat) (idx : Nat → Nat → Nat) (n ka : Nat) : M Operand := do
  let s ← getS
  let es := (List.range n).flatMap fun i => (List.range ka).map fun q => idx i q
  let top := es.foldl max 0
  findEccs (touched key ((lastByte f top).toNat + 1))
  let bs := Memory.readList s.mem key ((lastByte f top).toNat + 1)
  let used := es.flatMap fun (e : Nat) =>
    let (b, sc) := spotOf f e
    (b / 8).toNat :: ((b + (bankFmtOf f).width - 1) / 8).toNat :: (sc.toList.map Int.toNat)
  return {
    fmt := f,
    at_ := fun i q =>
      let (b, sc) := spotOf f (idx i q)
      { code := streamBits bs b.toNat (bankFmtOf f).width,
        scale := match sc with | some c => (bs.getD c.toNat 0).toNat | none => 127 },
    bad := poisonedBytes s key used }

/-- An operand read from the bytes of a tile on a lane. -/
def fromLane (f : Nat) (bs : List Byte) (bad : Bool) (idx scale : Nat → Nat → Nat) : Operand :=
  { fmt := f,
    at_ := fun i q => { code := laneCode f bs (idx i q), scale := if isMx f then (bs.getD (scale i q) 0).toNat else 127 },
    bad := bad }

/-! ## Wide buffers (07 R130) -/

def wideRoom : Nat := 24576

def Array.wide (a : Array) (west : Bool) : List Byte := if west then a.west else a.north

/-- The neighbour that feeds a buffer, and the one that forwarding feeds. -/
def wideFrom (k : Nat) (west : Bool) : Nat := neighbour k (if west then .w else .n)
def wideTo (k : Nat) (west : Bool) : Nat := neighbour k (if west then .e else .s)

/-- Bytes on their way to a buffer. -/
def wideComing (s : State) (k : Nat) (west : Bool) : Nat :=
  (s.clock.events.map fun d => match d.act with
    | .wideBeatArrival k' w bs => if k' = k && w = west then bs.length else 0
    | _ => 0).sum

/-- Beats of an operand that the first cycles of an MMA take. DEDUCED (log 42): the lane brings and forwards a beat in each cycle and an
MMA takes an operand in 64 (01 R15), so beat n of N is needed in cycle 64 n / N. -/
def beatsBy (f c : Nat) : Nat := (c * (laneBytes f / 128) + 63) / 64

/-- Bytes of an operand that cycle c of an MMA needs. -/
def beatBytes (f c : Nat) : Nat := 128 * (beatsBy f (c + 1) - beatsBy f c)

/-- n bytes of a tile can be taken from a buffer, and forwarded where the source says so. A sealed neighbour's side delivers error
words, and takes what is pushed (25 R369, R370). -/
def wideReady (k : Nat) (west forward : Bool) (n : Nat) : M Bool := do
  let s ← getS
  let dst := wideTo k west
  let there := decide (n ≤ ((s.coreOf k).array.wide west).length) || (s.coreOf (wideFrom k west)).isSealed
  let room := !forward || (s.coreOf dst).isSealed ||
    decide (((s.coreOf dst).array.wide west).length + wideComing s dst west + n ≤ wideRoom)
  return there && room

/-- The array of a core that holds for a wide beat, or for room, looks again. -/
def wakeArray (k : Nat) : M Unit := do
  if (← getC k).array.stalled.isSome then plan 0 (.arrayCommandExecute k) else pure ()

/-- Beats pushed unchanged to the next core; the lane carries one in each cycle. -/
def pushBeats (k dst : Nat) (west : Bool) : List Byte → Nat → M Unit
  | _, 0 => pure ()
  | bs, n + 1 => do
    let a := (← getC k).array
    let t ← now
    let at_ := max (t + linkLatency k (if west then .e else .s)) (if west then a.laneEast else a.laneSouth)
    plan (at_ - t) (.wideBeatArrival dst west (bs.take 128))
    onCore k fun c => { c with array :=
      if west then { c.array with laneEast := at_ + 1 } else { c.array with laneSouth := at_ + 1 } }
    pushBeats k dst west (bs.drop 128) n

/-- n bytes of a tile taken from a buffer, and forwarded in the same cycle; and whether an error word is in it (15 R276). -/
def takeWide (k : Nat) (west forward : Bool) (n : Nat) : M (List Byte × Bool) := do
  let s ← getS
  let have_ := (s.coreOf k).array.wide west
  let bs := have_.take n ++ List.replicate (n - have_.length) 0x0D#8
  onCore k fun c => { c with array :=
    if west then { c.array with west := have_.drop n } else { c.array with north := have_.drop n } }
  let dst := wideTo k west
  if forward && !(s.coreOf dst).isSealed then pushBeats k dst west bs (n / 128) else pure ()
  wakeArray (wideFrom k west)
  return (bs, decide (have_.length < n))

/-- WIDE_BEAT_ARRIVAL (07 R130): a beat waits for the end of a self-test of the buffers (26 R391). -/
def execWideBeatArrival (k : Nat) (west : Bool) (bytes : List Byte) (s : State) : Out :=
  event (do
    let c ← getC k
    if c.isSealed then pure ()
    else if c.bist.any fun b => b.test = 4 then plan 1 (.wideBeatArrival k west bytes)
    else
      onCore k fun c => { c with array :=
        if west then { c.array with west := c.array.west ++ bytes } else { c.array with north := c.array.north ++ bytes } }
      wakeArray k) s

/-! ## Cells (07 R129, R132) -/

/-- The sticky bits that one rounding sets: NV, OF, NX. -/
structure Sticky where
  nv : Bool := false
  ovf : Bool := false
  nx : Bool := false

/-- One cycle of one cell: its value plus the exact sum of products, rounded once; NV, OF and NX. A signalling NaN that stood in the cell
raises NV (06 R115). -/
def cellAdd (v : Nat) (ps : List (Num × Bool)) : Nat × Sticky :=
  let x := Fmt.f32.decode v
  let (sum, both) := exactSum 0 (x :: ps.map Prod.fst)
  let c := Fmt.f32.convert 0 1 sum
  (c.code, { nv := both || x = .nan true || ps.any Prod.snd, ovf := bit c.flags 2, nx := bit c.flags 0 })

/-- A cell over the 64 cycles, given the products that it receives at each k. A cycle without a k-value changes nothing. -/
def cellRun (g ka : Nat) (ps : Nat → List (Num × Bool)) : Nat → Nat × Sticky → Nat × Sticky
  | 0, r => r
  | n + 1, r =>
    let c := 63 - n
    if ka ≤ c * g then cellRun g ka ps n r
    else
      let qs := (List.range g).map (fun i => c * g + i) |>.filter (· < ka)
      let (v, f) := cellAdd r.1 (qs.flatMap ps)
      cellRun g ka ps n (v, { nv := r.2.nv || f.nv, ovf := r.2.ovf || f.ovf, nx := r.2.nx || f.nx })

/-- Cell numbers of an active rectangle, with the checksum row and column. -/
def mmaCells (ma na : Nat) (checked : Bool) : List (Nat × Nat) :=
  let rows := List.range ma ++ (if checked then [64] else [])
  let cols := List.range na ++ (if checked then [64] else [])
  rows.flatMap fun i => cols.map fun j => (i, j)

/-- Products that a cell receives at one k. -/
def cellProducts (a b : Operand) (ma na i j q : Nat) : List (Num × Bool) :=
  let rows := if i = 64 then List.range ma else [i]
  let cols := if j = 64 then List.range na else [j]
  rows.flatMap fun i => cols.map fun j => prod a.fmt b.fmt (a.at_ i q) (b.at_ j q)

/-- Code of an accumulator cell. -/
def Array.cell (a : Array) (i j : Nat) : Nat := (FMap.get 0 a.acc (65 * i + j)).toNat

def putCells (m : FMap (BitVec 32)) : List ((Nat × Nat) × Nat) → FMap (BitVec 32)
  | [] => m
  | ((i, j), v) :: xs => putCells (FMap.set m (65 * i + j) (BitVec.ofNat 32 v)) xs

/-- The multiplication itself. -/
def multiply (k : Nat) (a b : Operand) (ma na ka g : Nat) (checked : Bool) : M Unit := do
  let arr := (← getC k).array
  let rs := (mmaCells ma na checked).map fun (i, j) =>
    ((i, j), cellRun g ka (cellProducts a b ma na i j) 64 (arr.cell i j, {}))
  let cells := rs.map fun (ij, v, _) => (ij, v)
  onCore k fun c => { c with array := { c.array with
    acc := putCells c.array.acc cells,
    nv := c.array.nv || rs.any fun r => r.2.2.nv,
    ovf := c.array.ovf || rs.any fun r => r.2.2.ovf,
    nx := c.array.nx || rs.any fun r => r.2.2.nx,
    psn := c.array.psn || a.bad || b.bad } }

/-! ## MMA (15 R274 to R276) -/

/-- Fields of the control word. -/
structure MmaCtl where
  bsrc : Nat
  asrc : Nat
  bf : Nat
  af : Nat
  ka : Nat
  na : Nat
  ma : Nat

def mmaCtl (w : Word) : MmaCtl :=
  { bsrc := bits w 35 34, asrc := bits w 33 32, bf := bits w 31 28, af := bits w 27 24,
    ka := bits w 20 12 + 1, na := bits w 11 6 + 1, ma := bits w 5 0 + 1 }

/-- Highest element of A, or of B, that the active rectangle reads. -/
def MmaCtl.lastA (m : MmaCtl) (depth : Nat) : Nat := aIndex depth (m.ma - 1) (m.ka - 1)
def MmaCtl.lastB (m : MmaCtl) (depth : Nat) : Nat := bIndex m.bf depth (m.ka - 1) (m.na - 1)

/-- The beats of one cycle of an MMA's wide operands, taken together; none while the array holds. -/
def takeBeats (k : Nat) (m : MmaCtl) (r : WideRun) : M (Option WideRun) := do
  let na := if m.asrc = 2 then 0 else beatBytes m.af r.cycle
  let nb := if m.bsrc = 2 then 0 else beatBytes m.bf r.cycle
  let okA ← wideReady k true (m.asrc = 1) na
  let okB ← wideReady k false (m.bsrc = 1) nb
  if okA && okB then
    let (xs, badA) ← if na = 0 then pure ([], false) else takeWide k true (m.asrc = 1) na
    let (ys, badB) ← if nb = 0 then pure ([], false) else takeWide k false (m.bsrc = 1) nb
    return some { cycle := r.cycle + 1, west := r.west ++ xs, north := r.north ++ ys, bad := r.bad || badA || badB }
  else return none

/-- The array is busy for some cycles, MMA with its last cells final 8 cycles later. -/
def arrayBusy (k n : Nat) (mma : Bool) : M Unit := do
  let t ← now
  onCore k fun c => { c with array := { c.array with
    freeAt := t + n,
    settledAt := max c.array.settledAt (t + n + (if mma then 8 else 0)) } }

/-- An MMA computes with the operands it has: the cycles of its operands in one bank beyond 64 (two operands in one bank share 256 bytes a
cycle, 07 R130), and whether it met an operand in error. -/
def computeMma (k : Nat) (m : MmaCtl) (akey bkey : Nat) (checked : Bool) (r : WideRun) : M (Nat × Bool) := do
  let cls := (pairClass m.af m.bf).getD 0
  let depth := classDepth cls
  let a ←
    if m.asrc = 2 then fromStore akey m.af (aIndex depth) m.ma m.ka
    else pure (fromLane m.af r.west r.bad (aIndex depth) (aScale depth))
  let b ←
    if m.bsrc = 2 then fromStore bkey m.bf (fun j q => bIndex m.bf depth q j) m.na m.ka
    else pure (fromLane m.bf r.north r.bad (fun j q => bLane q j) (fun j q => bScale q j))
  multiply k a b m.ma m.na m.ka (classGroup cls) checked
  count k 11
  let bank (key : Nat) : Nat := bankOf k (key % 0x200000)
  let need := ((lastByte m.af (m.lastA depth)).toNat + (lastByte m.bf (m.lastB depth)).toNat + 257) / 256
  let extra := if m.asrc = 2 && m.bsrc = 2 && bank akey = bank bkey then need - 64 else 0
  count k 12 true extra
  return (extra, a.bad || b.bad)

/-- The hold of the array ends, and is counted. -/
def endStall (k : Nat) : M Unit := do
  let n ← now
  match (← getC k).array.stalled with
  | some t => do
    count k 12 true (n - t)
    onCore k fun c => { c with array := { c.array with stalled := none } }
  | none => pure ()

/-- An MMA executes, or takes the next cycle of one that takes wide beats, or holds for them (07 R130): once it has ended, whether it met an
operand in error. -/
def runMma (k : Nat) (ctl : Word) (akey bkey : Nat) (checked : Bool) : M (Option Bool) := do
  let m := mmaCtl ctl
  if m.asrc = 2 && m.bsrc = 2 then
    let (extra, bad) ← computeMma k m akey bkey checked {}
    arrayBusy k (64 + extra) true
    return some bad
  else
    match ← takeBeats k m ((← getC k).array.run.getD {}) with
    | none =>
      let n ← now
      onCore k fun c => { c with array := { c.array with stalled := some (c.array.stalled.getD n) } }
      return none
    | some r =>
      endStall k
      if r.cycle < 64 then
        arrayBusy k 1 false
        onCore k fun c => { c with array := { c.array with run := some r } }
        plan 1 (.arrayCommandExecute k)
        return none
      else
        onCore k fun c => { c with array := { c.array with run := none } }
        let (_, bad) ← computeMma k m akey bkey checked r
        arrayBusy k 1 true
        return some bad

/-! ## The other commands (15 R277, R278, R281, 07 R133) -/

def runAzero (k : Nat) (keep : Bool) : M Unit :=
  onCore k fun c => { c with array := { c.array with
    acc := [],
    nv := c.array.nv && keep, ovf := c.array.ovf && keep, nx := c.array.nx && keep, psn := c.array.psn && keep } }

/-- Rows, columns and row stride of a control word of AWR or ARD. -/
def moveRows (w : Word) : Nat := bits w 7 0
def moveCols (w : Word) : Nat := bits w 15 8
def moveStride (w : Word) : Nat := bits w 31 16

/-- Cells of a move with the distances of their words. -/
def moveCells (w : Word) : List ((Nat × Nat) × Nat) :=
  (List.range (moveRows w)).flatMap fun i => (List.range (moveCols w)).map fun j => ((i, j), 4 * (i * moveStride w + j))

/-- Cycles that a number of bytes of a bank take (07 R130). -/
def bankCycles (n : Nat) : Nat := (n + 255) / 256

/-- Whether a word was poisoned. -/
def runAwr (k : Nat) (ctl : Word) (key : Nat) : M Bool := do
  let cells := moveCells ctl
  findEccs ((cells.map fun c => dwKey (key + c.2)).eraseDups)
  let s ← getS
  let bad := poisonedBytes s key (cells.map Prod.snd)
  let vs := cells.map fun (ij, o) => (ij, leValue (Memory.readList s.mem (key + o) 4))
  onCore k fun c => { c with array := { c.array with acc := putCells c.array.acc vs, psn := c.array.psn || bad } }
  return bad

def runArd (k : Nat) (ctl : Word) (key : Nat) : M Unit := do
  let arr := (← getC k).array
  let cells := moveCells ctl
  let m := cells.foldl (fun m (ij, o) => layBits key m (8 * (o : Int), 32, arr.cell ij.1 ij.2)) []
  let words := (m.map fun x => dwKey x.1).eraseDups
  storeBits m words
  if arr.psn then poisonWords words else pure ()
  serveAllOf words
  if bit ctl 63 then storeRecord (key - 8) [arrayStatus (← getC k)] else pure ()

/-- Terms of the residue of a checksum column, and of a row. -/
def colTerms (a : Array) (ma j : Nat) : List Num :=
  Fmt.f32.decode (a.cell 64 j) :: (List.range ma).map fun i => (Fmt.f32.decode (a.cell i j)).neg
def rowTerms (a : Array) (na i : Nat) : List Num :=
  Fmt.f32.decode (a.cell i 64) :: (List.range na).map fun j => (Fmt.f32.decode (a.cell i j)).neg

def Num.abs : Num → Num
  | .fin _ m e => .fin false m e
  | .inf _ => .inf false
  | .nan s => .nan s

/-- Whether a residue is flagged under a tolerance exponent. -/
def flagged (t : Nat) (terms : List Num) : Bool :=
  match (exactSum 0 terms).1, (exactSum 0 (terms.map Num.abs)).1 with
  | .nan _, _ => true
  | .fin _ m e, .fin _ m' e' => cmpNum (.fin false m (e + t)) (.fin false m' e') = 1
  | _, _ => false

/-- The result doubleword of a check, and the cell it repairs. -/
def checkResult (a : Array) (ctl : Word) (correct : Bool) : Word × Option ((Nat × Nat) × Nat) :=
  let ma := bits ctl 5 0 + 1
  let na := bits ctl 11 6 + 1
  let t := bits ctl 19 12
  let cols := (List.range na ++ [64]).filter fun j => flagged t (colTerms a ma j)
  let rows := (List.range ma ++ [64]).filter fun i => flagged t (rowTerms a na i)
  let fix := correct && rows.length = 1 && cols.length = 1
  let i := rows.headD 0xFF
  let j := cols.headD 0xFF
  let others := (List.range ma).filter (· ≠ i) |>.map fun r => Fmt.f32.decode (a.cell r j)
  let sum := if i < 64 then Fmt.f32.decode (a.cell 64 j) :: others.map Num.neg else others
  (BitVec.ofNat 64 (b2n fix * 2 ^ 32 + rows.length * 2 ^ 24 + cols.length * 2 ^ 16 + i * 2 ^ 8 + j),
   if fix then some ((i, j), (Fmt.f32.convert 0 1 (exactSum 0 sum).1).code) else none)

def runAchk (k : Nat) (ctl : Word) (key : Nat) (correct : Bool) : M Unit := do
  let (w, fix) := checkResult (← getC k).array ctl correct
  onCore k fun c => { c with array := { c.array with acc := putCells c.array.acc fix.toList } }
  storeRecord key [w]

/-- The largest power of two that divides a number, below a bound. -/
def twos (n : Nat) : Nat → Nat
  | 0 => 0
  | f + 1 => if n % 2 = 0 then twos (n / 2) f + 1 else 0

/-- A block sum of values: its two doublewords without PSN, and the sticky bits it sets (15 R281). -/
def blockSum (xs : List Num) : Word × Nat × Sticky :=
  match (exactSum 0 xs).1 with
  | .nan _ => (0, 3 * 2 ^ 16, {})
  | .inf neg => (0, (if neg then 2 else 1) * 2 ^ 16, {})
  | .fin neg m e0 =>
    if m = 0 then (0, 0, {})
    else
      let q := e0 + twos m m.log2
      let e := max q (e0 + m.log2 - 62)
      let drop := (e - e0).toNat
      let r := roundMag 0 neg m drop
      let nx := decide (m % 2 ^ drop ≠ 0)
      let (n, e) := if r = 2 ^ 63 then (r / 2, e + 1) else (r, e)
      if 31 < e then (0, (if neg then 2 else 1) * 2 ^ 16, { nx := nx, ovf := true })
      else (BitVec.ofInt 64 (if neg then -(n : Int) else n), (e % 2 ^ 16).toNat, { nx := nx })

def runBsum (k : Nat) (ctl : Word) (key : Nat) : M Unit := do
  let a := (← getC k).array
  let xs := (List.range (bits ctl 5 0 + 1)).flatMap fun i => (List.range (bits ctl 11 6 + 1)).map fun j => Fmt.f32.decode (a.cell i j)
  let (w0, w1, f) := blockSum xs
  onCore k fun c => { c with array := { c.array with ovf := c.array.ovf || f.ovf, nx := c.array.nx || f.nx } }
  storeRecord key [w0, BitVec.ofNat 64 (b2n a.psn * 2 ^ 63 + w1)]

/-! ## The queue (07 R127, R131) -/

/-- First cycle in which a command may begin. -/
def Array.gate (a : Array) : ArrayCmd → Nat
  | .mma _ _ _ _ _ => a.freeAt
  | _ => max a.freeAt a.settledAt

def planHead (k : Nat) : M Unit := do
  let a := (← getC k).array
  match a.queue with
  | [] => pure ()
  | cmd :: _ => plan (a.gate cmd - (← now)) (.arrayCommandExecute k)

/-- A command enters the queue, or its thread waits for an entry. -/
def enqueueArray (cmd : ArrayCmd) : M Unit := do
  let k ← myCore
  let a := (← getC k).array
  if 4 ≤ a.queue.length then wait false
  else
    onCore k fun c => { c with array := { c.array with queue := c.array.queue ++ [cmd], queued := c.array.queued + 1 } }
    if a.queue.isEmpty then planHead k else pure ()

/-- The head has finished. -/
def finishHead (k : Nat) : M Unit := do
  let task := ((← getC k).array.queue.head?.map ArrayCmd.task).getD 0
  onCore k fun c => { c with array := { c.array with queue := c.array.queue.drop 1, finished := c.array.finished + 1 } }
  feedQueue k 4
  planHead k
  checkRetire task

/-- A command other than TILEMM executes: none while an MMA still takes wide beats. Whether it met poison. -/
def runCommand (k : Nat) (cmd : ArrayCmd) : M (Option Bool) := do
  match cmd with
  | .mma ctl akey bkey checked _ => runMma k ctl akey bkey checked
  | .azero ctl _ => do runAzero k (bit ctl 0); arrayBusy k (Config.engineTime 2 0) false; return some false
  | .awr ctl key _ =>
    let bad ← runAwr k ctl key
    arrayBusy k (bankCycles (4 * moveRows ctl * moveCols ctl)) false
    return some bad
  | .ard ctl key _ => do runArd k ctl key; arrayBusy k (bankCycles (4 * moveRows ctl * moveCols ctl)) false; return some false
  | .achk ctl key correct _ => do runAchk k ctl key correct; arrayBusy k (Config.engineTime 3 0) false; return some false
  | .bsum ctl key _ => do runBsum k ctl key; arrayBusy k (Config.engineTime 4 0) false; return some false
  | .tilemm _ _ => return some false

/-- ARRAY_COMMAND_EXECUTE (07 R127 to R133): the head of the queue executes, in queue order. -/
def execArrayCommandExecute (k : Nat) (s : State) : Out :=
  event (do
    let c ← getC k
    let a := c.array
    let n ← now
    match a.queue with
    | [] => pure ()
    | cmd :: _ =>
      if c.isSealed || a.busy || n < a.gate cmd || (a.run.isNone && c.saving) then pure ()
      else
        match cmd with
        | .tilemm _ _ => plan 0 (.tilemmDescriptorCopy k)
        | cmd =>
          match ← runCommand k cmd with
          | some _ => finishHead k
          | none => pure ()) s

/-! ## The instructions -/

/-- What every array command waits for (15 R272, R273). -/
def awaitArray : M Unit := do
  waitOldest
  awaitAccesses

/-- MMA (15 R274, R275): k is the checksum option. -/
def execMma (a b : Code) (x k : Bool) (s : State) : Out :=
  instr { unit := hasArray, srcs := [a] } (do
    awaitArray
    let ctl ← readSrc a x
    let m := mmaCtl ctl
    let local_ := m.asrc = 2 || m.bsrc = 2
    check (local_ || b = 0) Cause.illegalInstruction
    check (!local_ || pairCode b) Cause.illegalOperand
    let ea ← if local_ then readSrc b else pure 0
    let eb ← if local_ then readSrc (b + 1) else pure 0
    check (bits ctl 63 36 = 0 && bits ctl 23 21 = 0 && m.asrc ≠ 3 && m.bsrc ≠ 3) Cause.illegalOperand
    match pairClass m.af m.bf with
    | none => trap Cause.illegalOperand
    | some cls =>
      let depth := classDepth cls
      check (m.ka ≤ depth && (!(isMx m.af || isMx m.bf) || m.ka % 32 = 0)) Cause.illegalOperand
      let core ← myCore
      let c ← controlT
      let akey ← if m.asrc = 2 then tileOperand c.segs core ea m.af (m.lastA depth) else pure 0
      let bkey ← if m.bsrc = 2 then tileOperand c.segs core eb m.bf (m.lastB depth) else pure 0
      enqueueArray (.mma ctl akey bkey k c.tcbKey)
      return .next) s

/-- AZERO (15 R277, R278) -/
def execAzero (a : Code) (x : Bool) (s : State) : Out :=
  instr { unit := hasArray, srcs := [a] } (do
    awaitArray
    let ctl ← readSrc a x
    check (bits ctl 63 1 = 0) Cause.illegalOperand
    enqueueArray (.azero ctl (← controlT).tcbKey)
    return .next) s

/-- The address and the control word of a pair (15 R272). -/
def addressPair (a : Code) (x : Bool) : M (Word × Word) := do
  check (pairCode a) Cause.illegalOperand
  awaitArray
  let t ← readSrc a x
  let ctl ← readSrc (a + 1)
  return (t, ctl)

/-- The control word of AWR or ARD is in range (15 R277). -/
def goodMove (ctl : Word) (read : Bool) : Bool :=
  (read || !bit ctl 63) && bits ctl 62 32 = 0 && 1 ≤ moveRows ctl && moveRows ctl ≤ 65 && 1 ≤ moveCols ctl && moveCols ctl ≤ 65 &&
    moveCols ctl ≤ moveStride ctl

/-- The span of a move under some segment registers, checked; the key of its first word (15 R277). -/
def moveSpan (segs : FMap (BitVec 128)) (k : Nat) (ea ctl : Word) (read : Bool) : M Nat := do
  let hi : Int := (4 * ((moveRows ctl - 1) * moveStride ctl + moveCols ctl - 1) + 3 : Nat)
  let lo : Int := if bit ctl 63 then -8 else 0
  checkLocal segs ea
  let s ← getS
  let a := blockAddr segs ea
  check (ea.toNat % (if bit ctl 63 then 8 else 4) = 0 && 0 ≤ (a : Int) + lo && a + hi < lsSize k && bankOf k (a + hi.toNat) = bankOf k a &&
    bankOf k ((a : Int) + lo).toNat = bankOf k a && bankFormat s k a = 4) Cause.illegalOperand
  localSpan segs k ea lo hi (if read then .store else .load)

/-- AWR (15 R277, R278) -/
def execAwr (a : Code) (x : Bool) (s : State) : Out :=
  instr { unit := hasArray, srcs := [a] } (do
    let (t, ctl) ← addressPair a x
    check (goodMove ctl false) Cause.illegalOperand
    let c ← controlT
    let key ← moveSpan c.segs (← myCore) t ctl false
    enqueueArray (.awr ctl key c.tcbKey)
    return .next) s

/-- ARD (15 R277, R278) -/
def execArd (a : Code) (x : Bool) (s : State) : Out :=
  instr { unit := hasArray, srcs := [a] } (do
    let (t, ctl) ← addressPair a x
    check (goodMove ctl true) Cause.illegalOperand
    let c ← controlT
    let key ← moveSpan c.segs (← myCore) t ctl true
    enqueueArray (.ard ctl key c.tcbKey)
    return .next) s

/-- ACHK (15 R277, R278): f is the correct option. -/
def execAchk (a : Code) (x f : Bool) (s : State) : Out :=
  instr { unit := hasArray, srcs := [a] } (do
    let (t, ctl) ← addressPair a x
    check (bits ctl 63 20 = 0 && bits ctl 19 12 ≤ 31) Cause.illegalOperand
    let c ← controlT
    checkLocal c.segs t
    check (t.toNat % 8 = 0) Cause.illegalOperand
    let key ← localSpan c.segs (← myCore) t 0 7 .store
    enqueueArray (.achk ctl key f c.tcbKey)
    return .next) s

/-- BSUM (15 R281) -/
def execBsum (a : Code) (x : Bool) (s : State) : Out :=
  instr { unit := hasArray, srcs := [a] } (do
    let (t, ctl) ← addressPair a x
    check (bits ctl 63 12 = 0) Cause.illegalOperand
    let c ← controlT
    checkLocal c.segs t
    check (t.toNat % 16 = 0) Cause.illegalOperand
    let key ← localSpan c.segs (← myCore) t 0 15 .store
    enqueueArray (.bsum ctl key c.tcbKey)
    return .next) s

/-! ## TILEMM (15 R279, R280, 07 R134, R135) -/

/-- TILEMM: h is the held option. -/
def execTilemm (d a : Code) (h : Bool) (s : State) : Out :=
  instr { unit := hasArray, srcs := [a], dst := some d } (do
    awaitArray
    let ea ← readSrc a
    let k ← myCore
    let c ← controlT
    checkLocal c.segs ea
    check (ea.toNat % 64 = 0) Cause.illegalOperand
    let key ← localSpan c.segs k ea 0 63 .load
    let n ← newTransfer k
    let rep ← reporter (← me) n 2 0 0 (← blockAddress ea)
    onCore k fun x => { x with commands := FMap.set x.commands n { rep := rep, work := .tile key c.segs (!h), held := h } }
    writeDst d (BitVec.ofNat 64 (n % 2 ^ 16))
    if h then pure () else enqueueArray (.tilemm n c.tcbKey)
    return .next) s

/-- Fields of a descriptor. -/
def descField (w : List Word) (i hi lo : Nat) : Nat := bits (w.getD i 0) hi lo
def tileStride (w : List Word) (i : Nat) (upper : Bool) : Int :=
  let v := if upper then descField w i 63 32 else descField w i 31 0
  (BitVec.ofNat 32 v).toInt

/-- Thread address of a block: base, two indices and two strides. -/
def blockAt (base : Word) (i j : Nat) (si sj : Int) : Word := base + BitVec.ofInt 64 (i * si + j * sj)
def aBlock (w : List Word) (mb kb : Nat) : Word := blockAt (w.getD 0 0) mb kb (tileStride w 3 false) (tileStride w 3 true)
def bBlock (w : List Word) (kb nb : Nat) : Word := blockAt (w.getD 1 0) kb nb (tileStride w 4 false) (tileStride w 4 true)
def cBlock (w : List Word) (mb nb : Nat) : Word := blockAt (w.getD 2 0) mb nb (tileStride w 5 false) (tileStride w 5 true)

def mBlocks (w : List Word) : Nat := descField w 6 13 0
def nBlocks (w : List Word) : Nat := descField w 6 27 14
def kBlocks (w : List Word) : Nat := descField w 6 41 28

/-- Control word of the MMA steps: all of a tile, both operands in local store. -/
def stepCtl (w : List Word) : Word :=
  let af := descField w 6 45 42
  let bf := descField w 6 49 46
  let depth := classDepth ((pairClass af bf).getD 0)
  BitVec.ofNat 64 (2 * 2 ^ 34 + 2 * 2 ^ 32 + bf * 2 ^ 28 + af * 2 ^ 24 + (depth - 1) * 2 ^ 12 + 63 * 2 ^ 6 + 63)

/-- Control word of the moves of a C block. -/
def stepMove : Word := 0x404040

/-- Indices at which the blocks of a dimension are checked: the extremes, and the second, by which every block is aligned if these
are. -/
def checkedBlocks (n : Nat) : List Nat := (0 :: (if 1 < n then [1, n - 1] else [])).eraseDups

def checkBlocks (f : Nat → Nat → M Unit) : List (Nat × Nat) → M Unit
  | [] => pure ()
  | (i, j) :: xs => do f i j; checkBlocks f xs

def pairsOf (xs ys : List Nat) : List (Nat × Nat) := xs.flatMap fun i => ys.map fun j => (i, j)

/-- The whole check of a descriptor at the head of the queue (15 R280). -/
def checkDescriptor (k : Nat) (segs : FMap (BitVec 128)) (w : List Word) : M Unit := do
  let ms := checkedBlocks (mBlocks w)
  let ns := checkedBlocks (nBlocks w)
  let ks := checkedBlocks (kBlocks w)
  check (descField w 6 63 54 = 0 && descField w 6 53 52 ≠ 3 && 1 ≤ mBlocks w && 1 ≤ nBlocks w && 1 ≤ kBlocks w &&
    (bit (w.getD 6 0) 50 || !bit (w.getD 6 0) 51)) Cause.illegalOperand
  let m := mmaCtl (stepCtl w)
  match pairClass m.af m.bf with
  | none => trap Cause.illegalOperand
  | some cls =>
    let depth := classDepth cls
    checkBlocks (fun i j => do let _ ← tileOperand segs k (aBlock w i j) m.af (m.lastA depth)) (pairsOf ms ks)
    checkBlocks (fun i j => do let _ ← tileOperand segs k (bBlock w i j) m.bf (m.lastB depth)) (pairsOf ks ns)
    checkBlocks (fun i j => do
      let _ ← moveSpan segs k (cBlock w i j) stepMove true
      if bit (w.getD 6 0) 50 then pure ()
      else
        let _ ← moveSpan segs k (cBlock w i j) stepMove false) (pairsOf ms ns)

/-- TILEMM_DESCRIPTOR_COPY (15 R280) -/
def execTilemmDescriptorCopy (k : Nat) (s : State) : Out :=
  event (do
    let c ← getC k
    match c.array.queue with
    | .tilemm i _ :: _ =>
      match FMap.get? c.commands i with
      | some cmd =>
        match c.array.busy, cmd.work with
        | false, .tile key segs _ =>
          let s ← getS
          let w := (List.range 8).map fun j => memDw s (key + 8 * j)
          match (checkDescriptor k segs w).eval s with
          | .error _ =>
            onCore k fun c => { c with commands := FMap.set c.commands i { cmd with rep := { cmd.rep with mode := 1 } } }
            finishHead k
            complete k i 2
          | .ok _ =>
            let rep := { cmd.rep with mode := descField w 6 53 52, target := w.getD 7 0 }
            onCore k fun c => { c with
              commands := FMap.set c.commands i { cmd with rep := rep }
              array := { c.array with
                busy := true, held := false, ph := 0, mb := 0, nb := 0, kb := 0, desc := w, segs := segs, running := some i,
                stepPsn := false } }
            plan (max c.array.freeAt c.array.settledAt - (← now)) (.tilemmStep k)
        | _, _ => pure ()
      | none => finishHead k
    | _ => pure ()) s

/-- The command that the next step of the sequencer executes (07 R134). -/
def stepCommand (k : Nat) (a : Array) : ArrayCmd :=
  let key := blockKey a.segs k (cBlock a.desc a.mb a.nb)
  match a.ph with
  | 0 => if bit (a.desc.getD 6 0) 50 then .azero 1 0 else .awr stepMove key 0
  | 1 =>
    .mma (stepCtl a.desc) (blockKey a.segs k (aBlock a.desc a.mb a.kb)) (blockKey a.segs k (bBlock a.desc a.kb a.nb))
      (bit (a.desc.getD 6 0) 51) 0
  | _ => .ard stepMove key 0

/-- The position after a step. -/
def Array.advance (a : Array) : Array :=
  match a.ph with
  | 0 => { a with ph := 1, kb := 0 }
  | 1 => if a.kb + 1 < kBlocks a.desc then { a with kb := a.kb + 1 } else { a with ph := 2, kb := 0 }
  | _ =>
    if a.nb + 1 < nBlocks a.desc then { a with ph := 0, nb := a.nb + 1 }
    else { a with ph := 0, nb := 0, mb := a.mb + 1 }

/-- TILEMM_STEP (07 R134): the next step, or the end once the last has settled. -/
def execTilemmStep (k : Nat) (s : State) : Out :=
  event (do
    let c ← getC k
    let a := c.array
    let n ← now
    if !a.busy || a.held || c.isSealed || c.saving then pure ()
    else if mBlocks a.desc ≤ a.mb then
      if n < max a.freeAt a.settledAt then pure ()
      else
        onCore k fun c => { c with array := { c.array with busy := false, mb := 0, running := none } }
        finishHead k
        match a.running with
        | some i => complete k i (if a.stepPsn then 0x0C else 0)
        | none => pure ()
    else
      let cmd := stepCommand k a
      if n < a.gate cmd then pure ()
      else
        let bad ← runCommand k cmd
        onCore k fun c => { c with array := { c.array.advance with stepPsn := c.array.stepPsn || bad = some true } }
        let a ← do pure (← getC k).array
        let t := if mBlocks a.desc ≤ a.mb then max a.freeAt a.settledAt else a.gate (stepCommand k a)
        plan (t - n) (.tilemmStep k)) s

/-! ## Exact accumulators (06 R124, R125, 15 R282 to R284) -/

def joinClass (a b : Nat) : Nat := if b = 0 then a else if a = 0 then b else if a = b then a else 3

/-- An arrival, and whether it raises NV. -/
def Exact.arrive (x : Exact) (n w1 : Word) : Exact × Bool :=
  let x := { x with psn := x.psn || bit w1 63 }
  if x.count = 2 ^ 32 - 1 then ({ x with cls := 3 }, true)
  else
    let e := (BitVec.ofNat 16 (bits w1 15 0)).toInt
    let beyond := bits w1 17 16 = 0 && (e < -192 || 31 < e)
    let c := if beyond then 3 else bits w1 17 16
    let x := { x with count := x.count + 1, cls := joinClass x.cls c }
    if c ≠ 0 then (x, beyond)
    else if x.b ≤ e then ({ x with a := x.a + n.toInt * 2 ^ (e - x.b).toNat }, false)
    else ({ x with a := x.a * 2 ^ (x.b - e).toNat + n.toInt, b := e }, false)

/-- The value that an accumulator holds; an exact zero is -0 under mode 2. -/
def Exact.num (x : Exact) (mode : Nat) : Num :=
  match x.cls with
  | 0 => .fin (decide (x.a < 0) || (x.a = 0 && mode = 2)) x.a.natAbs x.b
  | 1 => .inf false
  | 2 => .inf true
  | _ => .nan false

def putExact (k i : Nat) (x : Exact) : M Unit := onCore k fun c => { c with exact := FMap.set c.exact i x }

/-- XRED (15 R282) -/
def execXred (a b : Code) (x y : Bool) (s : State) : Out :=
  instr { unit := hasArray, srcs := [a, b] } (do
    check (pairCode a) Cause.illegalOperand
    waitOldest
    let n ← readSrc a x
    let w1 ← readSrc (a + 1)
    let vb ← readSrc b y
    check (vb.toNat ≤ 3) Cause.illegalOperand
    let k ← myCore
    let (acc, nv) := (FMap.get {} (← getC k).exact vb.toNat).arrive n w1
    putExact k vb.toNat acc
    raiseFlags (← me) (if nv then Flag.nv else 0)
    return .next) s

/-- XRND (15 R283) -/
def execXrnd (d a : Code) (x : Bool) (s : State) : Out :=
  instr { unit := hasArray, srcs := [a], dst := some d } (do
    waitOldest
    let ctl ← readSrc a x
    check (bits ctl 63 11 = 0 && bits ctl 4 2 ≤ 3 && bits ctl 9 7 ≤ 4) Cause.illegalOperand
    let k ← myCore
    let i := bits ctl 1 0
    let acc := FMap.get {} (← getC k).exact i
    check (!acc.psn) Cause.poisoned
    let mode := roundingOf (← self).rm (bits ctl 9 7)
    let f := cvtFmt (bits ctl 4 2)
    let c := f.convert mode (bits ctl 6 5) (acc.num mode)
    check (!c.trap) Cause.conversion
    writeDst d (cvtWord f c.code)
    raiseFlags (← me) c.flags
    if bit ctl 10 then putExact k i {} else pure ()
    return .next) s

/-- XCLR (15 R284) -/
def execXclr (d a : Code) (x : Bool) (s : State) : Out :=
  instr { unit := hasArray, srcs := [a], dst := some d } (do
    waitOldest
    let va ← readSrc a x
    check (va.toNat ≤ 3) Cause.illegalOperand
    let k ← myCore
    writeDst d (BitVec.ofNat 64 (FMap.get {} (← getC k).exact va.toNat).count)
    putExact k va.toNat {}
    return .next) s

end Sys2Proof.Machine
end

