-- ==== Sys2Proof/Machine/Loop.lean ====
section
/-! DEFINITION. Overlapped loops: LOOP, iterations and their versions, IEND, ILEAVE, and how a loop goes on after a trap (04 R62 to
R75, 13 R230, R231). -/

namespace Sys2Proof.Machine

/-- The scalar registers of the current window, s0 to s31. -/
def Thread.window (t : Thread) : List Reg := (List.range 32).map fun c => t.sreg c

def putWindow (id depth : Nat) : List (Reg × Nat) → M Unit
  | [] => pure ()
  | (r, c) :: rs => do
    emit (.reg id (if c < 8 then c else 8 + 16 * depth + (c - 8)) r)
    putWindow id depth rs

/-- A slot takes the snapshot of its loop (04 R66): registers, predicate word, rounding mode, flags, shape, at the loop's depth. Frames
that a callee of an earlier iteration pushed out of the slot are dropped from its window stack. -/
def takeSnapshot (id : Nat) (sn : Snapshot) : M Unit := do
  thr id fun t => { t.dropFrames sn.depth with
    regs := t.regs.filter fun p => p.1 < 8 + 16 * sn.depth,
    rm := sn.rm, fflags := sn.fflags, shape := sn.shape, bound := .none, annul := 0, producers := [],
    mwaitDst := .none, mwaitToken := 0 }
  putWindow id sn.depth sn.regs.zipIdx
  emit (.pw id sn.pw)

/-- Iteration i begins on a slot (04 R66). -/
def startIteration (id ri : Nat) (r : Ring) (i : Nat) : M Unit := do
  takeSnapshot id r.snap
  undefineTiles id
  thr id fun t => { t with status := .ready, iter := some { ring := ri, owner := r.owner, idx := i } }
  emit (.pc id r.body)

/-- A helper slot taken for a loop (04 R65): a thread that waits for an iteration. -/
def helperThread (t : Thread) (k slot : Nat) : Thread :=
  { t with
    status := .parked .loopEnd none, regs := t.regs.filter (fun p => p.1 < 8), wbase := t.depth, wsp := startWsp k slot, vers := [],
    spawnWindows := [], producers := [], outstanding := [], monitors := [], pend := {}, pendUp := [], iter := none, twin := none,
    uid := 0, lastIssue := none, yieldTo := 0, bound := .none, annul := 0, mwaitDst := .none, schedFill := none,
    schedSpill := none, moved := none, spillSince := none, draining := false, lent := [], held := [], gatherAt := [] }

def placeHelpers (k : Nat) (t : Thread) : List Nat → M Unit
  | [] => pure ()
  | sl :: sls => do
    emit (.place (tidOf k sl) (helperThread t k sl))
    placeHelpers k t sls

/-- Iterations i, i + 1, … begin on slots, while there are iterations. -/
def startAll (k ri : Nat) (r : Ring) (i : Nat) : List Nat → M Unit
  | [] => pure ()
  | sl :: sls => do
    if i < r.n then startIteration (tidOf k sl) ri r i else pure ()
    startAll k ri r (i + 1) sls

/-- The lowest-numbered free ring set (04 R63, R64). -/
def ringFree (s : State) (k : Nat) : Option Nat :=
  [0, 1].find? fun i => (FMap.get? (s.coreOf k).rings i).isNone

/-- The grant and the helpers (04 R64): a request, a reach, and the slots that are empty. -/
def grantOf (q r : Nat) (free : List Nat) : Nat × List Nat :=
  let g := min q (min (8 - r) (1 + free.length))
  (g, free.take (g - 1))

/-! ## After a trap (04 R74) -/

/-- The loop goes on as if LOOP had been issued again without re-basing: iteration i stays on the issuing slot, and the iterations
after it run again on newly granted helpers. -/
def resumeLoop (id : Nat) : M Unit := do
  match ← ringOf id with
  | none => pure ()
  | some (it, r) =>
    let k := id / 16
    let t ← getT id
    let (g, helpers) := grantOf r.q r.r (openSlots (← getS) k)
    let r' := { r with g := g, slots := id % 16 :: helpers, base := it.idx, stopped := false }
    onCore k fun c => { c with rings := FMap.set c.rings it.ring r' }
    thr id fun t => { t with icnt := g, iter := t.iter.map fun it => { it with inHandler := false } }
    placeHelpers k { t with depth := r.snap.depth } helpers
    startAll k it.ring r' (it.idx + 1) helpers

/-- A restored loop takes a free ring set and goes on, or waits for one (22 R331). -/
def tryBind (id : Nat) : M Unit := do
  let k := id / 16
  match (← getT id).rebind, ringFree (← getS) k with
  | none, _ => pure ()
  | some _, none => thr id fun t => { t with status := .parked .ringSet none }
  | some r, some ri =>
    onCore k fun c => { c with rings := FMap.set c.rings ri r }
    thr id fun t => { t with status := .ready, rebind := none, iter := t.iter.map fun it => { it with ring := ri } }
    if ((← getT id).iter.map (·.inHandler)).getD false then pure () else resumeLoop id

/-- Threads parked for a ring set try again once one frees (04 R64). -/
def wakeRings (k : Nat) : List Nat → M Unit
  | [] => pure ()
  | sl :: sls => do
    let id := tidOf k sl
    match (← getT id).status with
    | .parked .ringSet _ => if (← getT id).rebind.isSome then tryBind id else thr id fun t => { t with status := .ready }
    | _ => pure ()
    wakeRings k sls

def freeRing (k ri : Nat) : M Unit := do
  onCore k fun c => { c with rings := FMap.erase c.rings ri }
  wakeRings k (List.range 16)

/-- Re-base: every version of v0 to v7 takes its distance-0 value (04 R64). -/
def rebased (t : Thread) : FMap Reg :=
  (List.range 64).map fun i => (i, FMap.get {} t.vers (i / 8 * 8))

/-- The word of IEND (13 R230). -/
def iendWord : Nat := 0x54000007

/-- Whether a frame of a core holds a seed's text (03 R54). -/
def loaded (s : State) (k sid : Nat) (pc : BitVec 16) : Bool :=
  sid ≠ 0 && FMap.get 0 (s.coreOf k).sids (frameOf pc) = sid

/-- LOOP (13 R230, 04 R64). One that parks for want of a ring set uses no position, which 03 R41 leaves open (DESIGN CHOICE, assumption 29). -/
def execLoop (q r : BitVec 3) (a : Code) (o : BitVec 12) (s : State) : Out :=
  let pc := (s.thread (tidOf s.clock.core s.clock.slot)).pc
  instr { literals := 2 ≤ o.toNat && pc.toNat + 4 * o.toNat ≤ 0xFFFC, unit := fun k => hasLinks k || !(isLink a) } (do
    check (a.toNat < 32) Cause.illegalOperand
    check (!(← inIteration) && !(← inFurrow)) Cause.nesting
    let id ← me
    let k := id / 16
    let t ← self
    let exit := pc + BitVec.ofNat 16 (4 * o.toNat)
    let last := exit - 4#16
    check (loaded (← getS) k t.sid last) Cause.fetchFault (fetchValue t last)
    let w ← readLe (lsKey k last.toNat) 4
    check (w = iendWord) Cause.illegalInstruction
    if (t.sreg a.toNat).full then pure () else wait true
    let n ← readSrc a
    if t.producers.isEmpty then pure () else wait false
    match ringFree (← getS) k with
    | none =>
      thr id fun t => { t with status := .parked .ringSet none }
      return .park
    | some ri =>
      let (g, helpers) := grantOf (q.toNat + 1) r.toNat (openSlots (← getS) k)
      thr id fun t => { t with vers := rebased t, icnt := g }
      if n = 0 then return .goto exit
      else
        let sn : Snapshot :=
          { regs := t.window, pw := t.pw, rm := t.rm, fflags := t.fflags, depth := t.depth, shape := t.shape }
        let ring : Ring :=
          { owner := id % 16, n := n.toNat, q := q.toNat + 1, r := r.toNat, body := t.pc + 4#16, exit := exit, g := g,
            slots := id % 16 :: helpers, snap := sn }
        onCore k fun c => { c with rings := FMap.set c.rings ri ring }
        settle (.goto ring.body)
        placeHelpers k t helpers
        startAll k ri ring 0 ring.slots
        return .park) s

/-- The loop ends: the issuing thread goes on at the exit with its snapshot, the merged flags and its version file (04 R69). -/
def endLoop (k ri : Nat) (r : Ring) : M Unit := do
  let oid := tidOf k r.owner
  takeSnapshot oid { r.snap with fflags := r.snap.fflags ||| r.flags }
  undefineTiles oid
  thr oid fun t => { t with status := .ready, iter := none }
  emit (.pc oid r.exit)
  dropSlots k r.owner r.slots
  freeRing k ri

/-- The version file after a retirement (04 R69). -/
def shifted (vers : FMap Reg) (written : FMap Reg) : FMap Reg :=
  (List.range 64).map fun i =>
    if i % 8 = 0 then
      match FMap.get? written (i / 8) with
      | some r => (i, r)
      | none => (i, FMap.get {} vers i)
    else (i, FMap.get {} vers (i - 1))

/-- The trap of an iteration that has become the oldest is taken (04 R74). -/
def takeStored (k : Nat) : List Nat → M Unit
  | [] => pure ()
  | sl :: sls => do settleTrapped (tidOf k sl); takeStored k sls

/-- Retirement of the oldest iteration (04 R69), and what the slot does then. `leave`: the loop ends after it (04 R73). -/
def retire (id : Nat) (it : IterCtx) (r : Ring) (leave : Bool) : M Unit := do
  let k := id / 16
  let oid := tidOf k it.owner
  let h ← getT id
  thr oid fun t => { t with vers := shifted t.vers it.written }
  count k 9 (h.level == .u)
  let r' := { r with oldest := it.idx + 1, flags := r.flags ||| h.fflags }
  onCore k fun c => { c with rings := FMap.set c.rings it.ring r' }
  if leave || it.idx + 1 = r.n then
    cancelYounger k it.idx r.slots
    endLoop k it.ring r'
  else
    let next := it.idx + r.g
    if next < r.n && !r.stopped then startIteration id it.ring r' next
    else if id = oid then thr id fun t => { t with status := .parked .loopEnd none, iter := none }
    else
      -- the slot is empty again, and no longer the loop's (04 R69)
      emptySlot id
      onRing k it.ring fun r => { r with slots := r.slots.filter (· ≠ id % 16) }
    takeStored k r.slots

/-- IEND and ILEAVE (13 R231): checks, the wait to be oldest, the iteration's own results, the write buffer, retirement. -/
def endIteration (leave : Bool) : M Flow := do
  let id ← me
  check (!(← inFurrow)) Cause.nesting
  match ← ringOf id with
  | none => trap Cause.nesting
  | some (it, r) =>
    check ((← self).depth = r.snap.depth) Cause.nesting
    if it.idx = r.oldest then pure () else wait false
    if (← self).producers.isEmpty then pure () else wait false
    if ← drainBuffer it then
      settle .next
      retire id it r leave
      return .park
    else return .stay

/-- IEND (13 R231, 04 R69) -/
def execIend (s : State) : Out := instr {} (endIteration false) s

/-- ILEAVE (13 R231, 04 R73) -/
def execIleave (s : State) : Out := instr {} (endIteration true) s

end Sys2Proof.Machine
end

