-- ==== Sys2Proof/Machine/Msg.lean ====
section
/-! DEFINITION. Virtual time, messages, inboxes, credits and link queues (05 R101 to R104, 13 R239 to R244, 25 R381, R382, 04 R76). -/

namespace Sys2Proof.Machine

/-! ## Inboxes (05 R101 to R104) -/

/-- A record of an inbox as its buffer holds it. -/
structure InRec where
  off : Nat
  kind : Nat
  chan : Nat
  src : Nat
  stamp : Word
  plen : Nat
deriving DecidableEq, Repr

/-- Length of a record with a payload of P bytes (05 R102). -/
def recLen (plen : Nat) : Nat := 16 + 16 * ((plen + 15) / 16)

def Inbox.bytes (b : Inbox) : Nat := 64 * b.size
def inboxKey (k : Nat) (b : Inbox) (off : Nat) : Nat := lsKey k (64 * b.base + off)

def recAt (s : State) (k : Nat) (b : Inbox) (off : Nat) : InRec :=
  let h := memDw s (inboxKey k b off + 8)
  { off := off, kind := bits h 63 62, chan := bits h 47 40, src := bits h 39 16, stamp := memDw s (inboxKey k b off), plen := bits h 15 0 }

/-- The records from an offset to TAIL, in placement order. Structural on a number of records that is enough. -/
def recsFrom (s : State) (k : Nat) (b : Inbox) (off : Nat) : Nat → List InRec
  | 0 => []
  | n + 1 =>
    if off = b.tail then []
    else
      let r := recAt s k b off
      r :: recsFrom s k b ((off + recLen r.plen) % (max 1 b.bytes)) n

def inboxRecs (s : State) (k : Nat) (b : Inbox) : List InRec := if b.en then recsFrom s k b b.head (b.bytes / 16) else []

/-- The words of a record (05 R102). -/
def recordWords (m : Message) : List Word :=
  let h1 := BitVec.ofNat 64 (m.chan % 256 * 2 ^ 40 + m.src % 2 ^ 24 * 2 ^ 16 + 8 * m.data.length)
  m.stamp :: h1 :: (m.data.map (·.1) ++ (if m.data.length % 2 = 1 then [0] else []))

/-- A pad record (05 R103). -/
def padHeader (pad : Nat) : Word := BitVec.ofNat 64 (2 ^ 62 + (pad - 16))

def poisonData (key : Nat) : List (Word × Bool) → M Unit
  | [] => pure ()
  | (_, bad) :: ds => do
    if bad then emit (.poison key true) else pure ()
    poisonData (key + 8) ds

/-- Placement of a message's record (05 R103); answers whether it was placed. -/
def inboxPut (k : Nat) (m : Message) : M Bool := do
  let i := m.chan % 4
  let b := FMap.get {} (← getC k).inboxes i
  let size := b.bytes
  let len := recLen (8 * m.data.length)
  let free := size - (b.tail + size - b.head) % (max 1 size)
  let put (off : Nat) (tail : Nat) : M Unit := do
    storeRecord (inboxKey k b off) (recordWords m)
    poisonData (inboxKey k b off + 16) m.data
    onCore k fun c =>
      let b := FMap.get {} c.inboxes i
      { c with inboxes := FMap.set c.inboxes i { b with tail := tail, senders := FMap.set b.senders off m.fromCore } }
  if !b.en || free ≤ len then return false
  else if b.tail + len ≤ size then
    put b.tail ((b.tail + len) % size)
    return true
  else
    let pad := size - b.tail
    if free ≤ pad + len then return false
    else
      storeRecord (inboxKey k b b.tail) [0, padHeader pad]
      put 0 len
      return true

/-- HEAD advances past consumed and pad records (05 R104). -/
def advance (recs : List InRec) (tail : Nat) : Nat :=
  match recs.find? fun r => r.kind = 0 || r.kind = 3 with
  | some r => r.off
  | none => tail

/-- A record is taken (05 R104): its room comes back when HEAD passes it. -/
def inboxTake (k i : Nat) (r : InRec) : M Unit := do
  let b := FMap.get {} (← getC k).inboxes i
  if r.off = b.head then
    let rest := (inboxRecs (← getS) k b).drop 1
    onCore k fun c => { c with inboxes := FMap.set c.inboxes i { b with head := advance rest b.tail } }
  else
    let key := inboxKey k b r.off + 8
    storeBytes key (leBytes 8 (putBits (← readDw key) 63 62 2).toNat)

/-! ## Credits and audits (25 R381, R382) -/

def creditOf (c : Core) (target chan : Nat) : Credit :=
  (c.creditTab.find? fun x => x.target = target && x.chan = chan).getD { target := target, chan := chan }

def setCredit (k : Nat) (x : Credit) : M Unit :=
  onCore k fun c => { c with creditTab := x :: c.creditTab.filter fun y => !(y.target = x.target && y.chan = x.chan) }

def takenOf (c : Core) (sender chan : Nat) : Taken :=
  (c.takenTab.find? fun x => x.sender = sender && x.chan = chan).getD { sender := sender, chan := chan }

/-- Whether an audit of a sender and channel is due already. -/
def auditDue (s : State) (k src chan : Nat) : Bool := s.clock.events.any fun e => e.act = .channelAudit k src chan

/-- A take is counted, a credit returns to the sender, and every 64 takes an audit follows it (25 R381, R382). -/
def tookFrom (k sender chan : Nat) : M Unit := do
  let x := takenOf (← getC k) sender chan
  let n := (x.cons + 1) % 2 ^ 32
  onCore k fun c => { c with
    takenTab := { x with cons := n } :: c.takenTab.filter fun y => !(y.sender = sender && y.chan = chan) }
  -- a sender of another package: its counters are there
  if 2 ^ 13 ≤ sender then pure () else
  plan (Config.transit k sender) (.creditReturn sender k chan)
  if n % 64 = 0 then plan (Config.transit k sender) (.channelAudit k sender chan) else pure ()

/-- CREDIT_RETURN (25 R381) -/
def execCreditReturn (k dst chan : Nat) (s : State) : Out :=
  event (do
    let x := creditOf (← getC k) dst chan
    setCredit k { x with crd := x.crd + 1 }
    plan 0 (.sendQueueDeliver k)) s

/-- Records of a sender on a channel that stand untaken (25 R382). -/
def untaken (s : State) (k src chan : Nat) : Nat :=
  let b := FMap.get {} (s.coreOf k).inboxes (chan % 4)
  ((inboxRecs s k b).filter fun r => r.kind = 0 && r.chan = chan && FMap.get? b.senders r.off = some src).length

/-- CHANNEL_AUDIT (25 R382): the receiver k's CONS checked by the sender. Credits on their way count as returned, since audits and
returns keep their order. -/
def execChannelAudit (k src chan : Nat) (s : State) : Out :=
  event (do
    let s ← getS
    let x := creditOf (s.coreOf src) k chan
    let cons := (takenOf (s.coreOf k) src chan).cons
    let coming := (s.clock.events.filter fun e => e.act = .creditReturn src k chan).length
    let flying := (s.coreOf src).sendq.any fun m => m.2 && m.1.toCore = k && m.1.chan = chan
    if (x.sent + 2 ^ 32 - cons + x.crd + coming) % 2 ^ 32 = 8 then setCredit src { x with quiet := false }
    else if flying then
      setCredit src { x with quiet := true }
      plan 1 (.channelAudit k src chan)
    else
      let n := untaken s k src chan
      setCredit src { x with crd := 8 - n, sent := (cons + n) % 2 ^ 32, quiet := false }
      countErr src 10
      plan 0 (.sendQueueDeliver src)
    if untaken s k src chan ≠ 0 && !(auditDue (← getS) k src chan) then plan (2 ^ 20) (.channelAudit k src chan) else pure ()) s

/-! ## Receiving (13 R242) -/

/-- The order in which messages are taken: stamp, then SRC, then placement. -/
def best : List InRec → Option InRec
  | [] => none
  | r :: rs =>
    match best rs with
    | none => some r
    | some q => if q.stamp.toNat < r.stamp.toNat || (q.stamp = r.stamp && q.src < r.src) then some q else some r

/-- The released messages of a channel (13 R242). -/
def released (s : State) (k chan : Nat) : List InRec :=
  let b := FMap.get {} (s.coreOf k).inboxes (chan % 4)
  (inboxRecs s k b).filter fun r => r.kind = 0 && r.chan = chan && r.stamp.toNat < seenGlb s k

/-- Whether a key lies in the buffer of an inbox. -/
def inInbox (k : Nat) (b : Inbox) (key : Nat) : Bool := inboxKey k b 0 ≤ key && key < inboxKey k b b.bytes

/-- The record's words written to the buffer as plain stores, with their poison bits; words that overlap the inbox are undefined
(13 R242). -/
def copyRecord (id : Nat) (b : Inbox) (src : Nat) : List (Word × Place) → M Unit
  | [] => pure ()
  | (ea, p) :: ps => do
    findEcc src
    let w ← readDw src
    let bad := (← getS).poisonAt src
    let stale := match p.key? with | some key => inInbox (id / 16) b key | none => false
    let v ← if stale then free else pure w
    let _ ← performStore id ea p (leBytes 8 v.toNat) bad
    copyRecord id b (src + 8) ps

/-- The result of a RECV comes to its destination. -/
def recvResult (id : Nat) (dest : Dest) (v : Word) (st : Bool) : M Unit := do
  emit (.pw id (setBit (← getT id).pw 18 st))
  claim id dest
  expect id dest v 0 0

/-- A message goes to a RECV (13 R242): too long a record stays in the inbox. -/
def deliverTo (id : Nat) (r : InRec) (buf : List (Word × Place)) (dest : Dest) : M Unit := do
  let k := id / 16
  let i := r.chan % 4
  let b := FMap.get {} (← getC k).inboxes i
  let len := recLen r.plen
  if 8 * buf.length < len then recvResult id dest r.stamp true
  else
    copyRecord id b (inboxKey k b r.off) (buf.take (len / 8))
    inboxTake k i r
    match FMap.get? b.senders r.off with
    | some sender => tookFrom k sender r.chan
    | none => pure ()
    let c ← getC k
    if c.vt ≠ BitVec.allOnes 64 && c.vt.toNat < r.stamp.toNat then onCore k fun c => { c with vt := r.stamp } else pure ()
    glbChanged k
    recvResult id dest r.stamp false
    count k 18 ((← getT id).level == .u)

/-- The message that is left when each of n earlier receivers has one. -/
def nthBest (rs : List InRec) : Nat → Option InRec
  | 0 => best rs
  | n + 1 => match best rs with | some r => nthBest (rs.filter (· ≠ r)) n | none => none

/-- The first receiver of a channel that does not come back by itself, and its place in the order. -/
def parkedReceiver (rs : List Receiver) : Option (Receiver × Nat) := rs.zipIdx.find? fun p => !p.1.polls

/-- The waiting receivers of a channel are served in the order in which they began to wait (13 R242); one that its thread tries again takes its message
when its thread comes to it. Structural on a number of receivers that is enough. -/
def serveReceivers (k chan : Nat) : Nat → M Unit
  | 0 => pure ()
  | n + 1 => do
    let s ← getS
    match parkedReceiver ((s.coreOf k).receivers.filter fun r => r.chan = chan) with
    | some (w, i) =>
      match nthBest (released s k chan) i with
      | some r =>
        let id := tidOf k w.slot
        onCore k fun c => { c with receivers := c.receivers.filter (· != w) }
        let t ← getT id
        deliverTo id r w.buf w.dest
        thr id fun t => { t with status := .ready, bound := .none, lastIssue := some s.clock.now }
        emit (.pc id (t.pc + 4#16))
        serveReceivers k chan n
      | none => pure ()
    | none => pure ()

def serveChannels (k : Nat) : List Receiver → M Unit
  | [] => pure ()
  | r :: rs => do
    serveReceivers k r.chan ((← getC k).receivers.length)
    serveChannels k rs

/-- Input ports of the array whose records may be taken now (08 R155). -/
def planTakes (k : Nat) : List Nat → M Unit
  | [] => pure ()
  | p :: ps => do
    if (released (← getS) k (0xF8 + p)).isEmpty then pure () else plan 0 (.integratorRecordTake k p)
    planTakes k ps

/-- Whatever waits for a message on a core looks again. -/
def messagesMoved (k : Nat) : M Unit := do
  serveChannels k (← getC k).receivers
  planTakes k (List.range 8)

/-- MESSAGE_RELEASE (13 R242): a message of a channel has become releasable. -/
def execMessageRelease (k chan : Nat) (s : State) : Out :=
  event (do
    serveReceivers k chan ((← getC k).receivers.length)
    if 0xF8 ≤ chan then planTakes k [chan - 0xF8] else pure ()) s

/-- GLB_UPDATE (13 R240): the tree's bound reaches a core. -/
def execGlbUpdate (k : Nat) (s : State) : Out :=
  event (do
    let s ← getS
    onCore k fun c => { c with glb := BitVec.ofNat 64 (treeGlb s (corePart s k)) }
    messagesMoved k) s

/-- RECV (13 R242) -/
def execRecv (d a b : Code) (x y : Bool) (s : State) : Out :=
  instr { srcs := [a, b], dst := some d } (do
    let va ← readSrc a x
    let vb ← readSrc b y
    let cap := bits va 14 8
    let chan := bits va 7 0
    check (bits va 63 16 = 0 && 2 ≤ cap && cap ≤ 64 && chan < 0xF8) Cause.illegalOperand
    check (vb.toNat % 8 = 0) Cause.illegalOperand
    let st ← segment vb (8 * cap) .store
    let parts ← locateParts vb .store st ((List.range cap).map fun i => (8 * i, 8))
    admitAll vb true 8 parts
    waitOldest
    awaitReads
    let dest ← destOf d
    let id ← me
    let k := id / 16
    let buf := parts.zipIdx.map fun p => (vb + BitVec.ofNat 64 (8 * p.2), p.1.place)
    let s ← getS
    let mine (r : Receiver) : Bool := r.slot = id % 16
    let queue := (s.coreOf k).receivers
    let early := ((queue.takeWhile fun r => !(mine r)).filter fun r => r.chan = chan).length
    match nthBest (released s k chan) early with
    | some r =>
      onCore k fun c => { c with receivers := c.receivers.filter fun r => !(mine r) }
      deliverTo id r buf dest
      return .next
    | none =>
      if bit va 15 then
        recvResult id dest (BitVec.allOnes 64) true
        return .next
      else
        let polls ← isPolled [a, b]
        let add : Eff := .core k fun c => { c with
          receivers := c.receivers ++ [{ slot := id % 16, chan := chan, buf := buf, dest := dest, polls := polls }] }
        if polls then stop (.wait true (if queue.any mine then [] else [add]))
        else
          let n ← now
          emit add
          thr id fun t => { t with status := .parked .registered (some n) }
          let lim := (← controlT).wlim
          if lim = 0 then pure () else plan lim.toNat (.waitLimit k (id % 16) n)
          return .park) s

/-! ## Sending (13 R241) -/

/-- The doublewords of a payload. -/
def payloadWords (n : Nat) (bs : List Byte) : List Word :=
  (List.range n).map fun i => BitVec.ofNat 64 (leValue ((bs.drop (8 * i)).take 8))

/-- The payload of a SEND, read as plain loads, after its checks (13 R241): the stamp and the doublewords; none while other packages are asked. -/
def readMessage (va vb : Word) : M (Option (Word × List Word)) := do
  match (← self).sending with
  | some m => return some m
  | none =>
    let la := bits va 55 48
    let ndw := bits va 45 40
    let vt := (← getC (← myCore)).vt
    check (bits va 63 56 = 0 && bits va 47 46 = 0 && bits va 31 24 = 0 && la ≠ 0 && 1 ≤ ndw && ndw ≤ 62 && bits va 39 32 < 0xF8)
      Cause.illegalOperand
    let _ ← targetCore (BitVec.ofNat 64 (bits va 23 0))
    check (vt ≠ BitVec.allOnes 64 && vt.toNat + la ≤ 2 ^ 64 - 2) Cause.illegalOperand
    waitOldest
    awaitPoint
    check (vb.toNat % 8 = 0) Cause.illegalOperand
    let ps ← locateWords vb ndw
    match ← gather [va, vb] ps with
    | none => return none
    | some bs => return some (BitVec.ofNat 64 (vt.toNat + la), payloadWords ndw bs)

/-- A message enters the send queue of its core, if that has room; the SEND keeps it otherwise (13 R241). -/
def queueMessage (va vb stamp : Word) (words : List Word) : M Word := do
  let id ← me
  let k := id / 16
  let (dst, pkg, there) ← targetCore (BitVec.ofNat 64 (bits va 23 0))
  if 8 ≤ (← getC k).sendq.length then
    stop (.wait false [.thr id fun t => { t with sending := some (stamp, words), mwaitToken := 0, gathered := 0 }])
  else pure ()
  let c ← controlT
  let out ← outbound (BitVec.ofNat 64 10 :: va :: vb :: words) .poisonIt fun bad => do
    let n := (← getS).pkg.nextMessage
    onPkg fun p => { p with nextMessage := n + 1 }
    let m : Message :=
      { fromCore := k, toCore := dst.getD 0, src := c.cid, chan := bits va 39 32, stamp := stamp, data := words.map fun w => (w, bad),
        away := if dst.isNone then some (pkg, there) else none, ctx := c.ctx, num := n }
    onCore k fun c => { c with sendq := c.sendq ++ [(m, false)] }
    plan 0 (.sendQueueDeliver k)
    glbChanged k
    count k 17 (c.level == .u)
    return some [stamp]
  return (out.getD []).headD stamp

/-- SEND (13 R241) -/
def execSend (d a b : Code) (x y : Bool) (s : State) : Out :=
  instr { srcs := [a, b], dst := some d } (do
    let (va, vb) ← operands2 a b x y
    match ← readMessage va vb with
    | none => return .stay
    | some (stamp, words) =>
      let dest ← destOf d
      let v ← queueMessage va vb stamp words
      let id ← me
      thr id fun t => { t with sending := none, held := [] }
      claim id dest
      expect id dest v 0 0
      return .next) s

/-- Messages of the queue that have a credit leave it for their inboxes, in order (13 R241, 25 R381). -/
def launchMessages (k : Nat) : List (Message × Bool) → M Unit
  | [] => pure ()
  | (m, sent) :: ms => do
    if sent then pure ()
    else
      match m.away with
      | some (pkg, n) =>
        let s ← getS
        let port := firstPort (routeMask s (dieOf k) m.ctx pkg)
        sendFlit port (.message { m with toCore := n })
        onCore k fun c => { c with sendq := c.sendq.map fun e => if e.1.num = m.num then (e.1, true) else e }
      | none =>
        let x := creditOf (← getC k) m.toCore m.chan
        if x.crd = 0 || x.quiet then pure ()
        else
          setCredit k { x with crd := x.crd - 1, sent := (x.sent + 1) % 2 ^ 32 }
          onCore k fun c => { c with sendq := c.sendq.map fun e => if e.1.num = m.num then (e.1, true) else e }
          plan (Config.transit k m.toCore) (.inboxPlace m.toCore m)
    launchMessages k ms

/-- SEND_QUEUE_DELIVER (13 R241) -/
def execSendQueueDeliver (k : Nat) (s : State) : Out := event (do launchMessages k (← getC k).sendq) s

/-- A message has left its sender's queue: placed, or dropped because the target is sealed. The sender of another package is told. -/
def messageGone (m : Message) : M Unit := do
  if 2 ^ 13 ≤ m.fromCore then
    sendFlit (m.fromCore / 2 ^ 13 - 1) (.placed m.num)
    glbChanged m.toCore
  else
  onCore m.fromCore fun c => { c with
    sendq := c.sendq.filter fun e => e.1.num ≠ m.num, ddaq := c.ddaq.filter fun e => e.num ≠ m.num }
  glbChanged m.fromCore

/-- INBOX_PLACE (05 R103): placed whole, or refused and resent. -/
def execInboxPlace (k : Nat) (m : Message) (s : State) : Out :=
  event (do
    let s ← getS
    if (s.coreOf k).isSealed then
      if m.fromCore < 2 ^ 13 then countErr m.fromCore 13 else pure ()
      messageGone m
    else if underTest s (inboxKey k (FMap.get {} (s.coreOf k).inboxes (m.chan % 4)) 0) then plan 1 (.inboxPlace k m)
    else if ← inboxPut k m then
      messageGone m
      if m.chan < 0xF8 && m.fromCore < 2 ^ 13 && !(auditDue (← getS) k m.fromCore m.chan) then plan (2 ^ 20) (.channelAudit k m.fromCore m.chan) else pure ()
      messagesMoved k
    else
      countErr k 2
      plan 16 (.messageResend m)) s

/-- MESSAGE_RESEND (05 R103): a refused message comes again one rotation after it was refused. -/
def execMessageResend (m : Message) (s : State) : Out := event (plan 0 (.inboxPlace m.toCore m)) s

/-! ## Inbox descriptors (05 R101) -/

/-- An inbox of a size in units of 64 bytes at a base in the same units: in range, in one bank, outside the code window (05 R101). -/
def goodInbox (k size base : Nat) : Bool :=
  let a := 64 * base
  8 ≤ size && size ≤ 1536 && 0x10000 ≤ a && a + 64 * size ≤ lsSize k && bankOf k a = bankOf k (a + 64 * size - 1)

/-- A descriptor half written, under the rules of R101. A write that fails to set EN takes BASE and SIZE all the same, since EN was 0 (R101 says only that
EN stays 0; DESIGN CHOICE, assumption 65). -/
def setIbd (k n : Nat) (high : Bool) (v : Word) : M Unit := do
  let b := FMap.get {} (← getC k).inboxes n
  if high then pure ()
  else
    let en := bit v 63
    let put (b : Inbox) : M Unit := onCore k fun c => { c with inboxes := FMap.set c.inboxes n b }
    if b.en then put { b with en := en }
    else
      let size := bits v 42 32
      let base := bits v 14 0
      put (if en && goodInbox k size base then { en := true, size := size, base := base } else { b with size := size, base := base })

/-- IBD_WRITE (05 R101) -/
def execIbdWrite (k n : Nat) (high : Bool) (v : Word) (s : State) : Out := event (setIbd k n high v) s

def ibdLow (b : Inbox) : Word := BitVec.ofNat 64 (b2n b.en * 2 ^ 63 + b.size * 2 ^ 32 + b.base)
def ibdHigh (b : Inbox) : Word := BitVec.ofNat 64 (b.tail * 2 ^ 32 + b.head)

/-! ## Virtual time (13 R239, R240) -/

/-- VTADV (13 R239) -/
def execVtadv (d a : Code) (x : Bool) (s : State) : Out :=
  instr { srcs := [a], dst := some d } (do
    let t ← readSrc a x
    waitOldest
    let k ← myCore
    let s ← getS
    let vt := (s.coreOf k).vt
    let new : Word :=
      if t = BitVec.allOnes 64 then t
      else if vt = BitVec.allOnes 64 then BitVec.ofNat 64 (max t.toNat (treeGlb s (corePart s k)))
      else if vt.toNat < t.toNat then t else vt
    onCore k fun c => { c with vt := new }
    glbChanged k
    writeDst d new
    return .next) s

/-- GLBRD (13 R240) -/
def execGlbrd (d : Code) (s : State) : Out :=
  instr { dst := some d } (do
    writeDst d (BitVec.ofNat 64 (seenGlb (← getS) (← myCore)))
    return .next) s

/-! ## Links (04 R76, 13 R244) -/

def returnCredits (k : Nat) (d : Dir) : Nat → M Unit
  | 0 => pure ()
  | n + 1 => do
    plan (linkLatency k d) (.linkCreditReturn (neighbour k d) d.opp)
    returnCredits k d n

/-- LCFG (13 R244) -/
def execLcfg (d a b : Code) (x y : Bool) (s : State) : Out :=
  instr { srcs := [a, b], dst := some d, unit := hasLinks } (do
    let va ← readSrc a x
    let vb ← readSrc b y
    check (va.toNat ≤ 3 && vb.toNat ≤ 1) Cause.illegalOperand
    let flush := vb = 1
    if flush then
      check (!(← inFurrow)) Cause.nesting
      waitOldest
    else pure ()
    let k ← myCore
    let dir := Dir.ofIdx va.toNat
    let s ← getS
    let c := s.coreOf k
    let held := (FMap.get [] c.links dir.idx).length
    let sealed_ := (s.coreOf (neighbour k dir)).isSealed
    let room := if sealed_ then 32 else FMap.get 32 c.credits dir.idx
    if flush then
      onCore k fun c => { c with links := FMap.set c.links dir.idx [] }
      returnCredits k dir held
    else pure ()
    writeDst d (BitVec.ofNat 64 (b2n sealed_ * 2 ^ 16 + room % 64 * 2 ^ 8 + held % 64))
    return .next) s

/-- LINK_WORD_ARRIVAL (04 R76): a word pushed by the neighbour joins the inbound queue. -/
def execLinkWordArrival (k : Nat) (dir : Dir) (w : Word) (s : State) : Out :=
  event (do
    let c ← getC k
    if c.isSealed then pure ()
    else if c.bist.any fun b => b.test = 4 then plan 1 (.linkWordArrival k dir w)
    else onCore k fun c => { c with links := FMap.set c.links dir.idx (FMap.get [] c.links dir.idx ++ [w]) }) s

/-- LINK_CREDIT_RETURN (04 R76) -/
def execLinkCreditReturn (k : Nat) (dir : Dir) (s : State) : Out :=
  event (onCore k fun c => { c with credits := FMap.set c.credits dir.idx (min 32 (FMap.get 32 c.credits dir.idx + 1)) }) s

end Sys2Proof.Machine
end

