-- ==== Sys2Proof/Machine/Dda.lean ====
section
/-! DEFINITION. Majors 0x34 to 0x37: the integrator array, its domains, crossings and records, and the narrow packing instructions (08,
16). -/

namespace Sys2Proof.Machine

/-! ## Cells (08 R148 to R150) -/

def Cell.en (c : Cell) : Bool := bit c.patch 63
def Cell.dom (c : Cell) : Nat := bits c.patch 62 61
/-- M = 2^m. -/
def Cell.modulus (c : Cell) : Nat := 2 ^ bits c.patch 60 56
/-- Source code of a slot: 0 dx, 1 to 3 dy. -/
def Cell.source (c : Cell) (k : Nat) : Nat := bits c.patch (10 * k + 9) (10 * k)
def Cell.negates (c : Cell) (k : Nat) : Bool := bit c.patch (52 + k)

def Dda.cell (g : Dda) (i : Nat) : Cell := FMap.get {} g.cells i
def Dda.dom (g : Dda) (d : Nat) : Domain := FMap.get {} g.doms d
/-- The enabled cells of a domain. -/
def Dda.members (g : Dda) (d : Nat) : List (Nat × Cell) := g.cells.filter fun p => p.2.en && p.2.dom = d

def noSource : Nat := 0x3FF
def tickCode (d : Nat) : Nat := 0x100 + d
def portCode (p : Nat) : Nat := 0x108 + p

/-- A source code that PATCH takes. -/
def goodSource (c : Nat) : Bool := c < 0x104 || (0x108 ≤ c && c ≤ 0x10F) || c = noSource

/-- A patch entry within R149. -/
def goodEntry (e : Word) : Bool :=
  8 ≤ bits e 60 56 && bits e 51 40 = 0 && (List.range 4).all fun k => goodSource (bits e (10 * k + 9) (10 * k))

/-- One unit added to a crossing counter: beyond 7 it is dropped and SAT is set (08 R154). -/
def Cell.unit (c : Cell) (k : Nat) (v : Int) : Cell :=
  let n := c.cc.getD k 0 + v
  if n < -7 || 7 < n then { c with sat := true } else { c with cc := c.cc.set k n }

def Cell.units (c : Cell) (k : Nat) (v : Int) : Nat → Cell
  | 0 => c
  | n + 1 => (c.unit k v).units k v n

/-- Units from a source added to every slot of a cell that names it; a disabled cell gains nothing. -/
def Cell.gain (c : Cell) (src : Nat) (v : Int) : Cell :=
  if c.en then
    (List.range 4).foldl (fun c k => if c.source k = src then c.units k (if v < 0 then -1 else 1) v.natAbs else c) c
  else c

def Dda.gain (g : Dda) (p : Cell → Bool) (src : Nat) (v : Int) : Dda :=
  { g with cells := g.cells.map fun (i, c) => (i, if p c then c.gain src v else c) }

def onDda (k : Nat) (f : Dda → Dda) : M Unit := onCore k fun c => { c with dda := f c.dda }
def onDomain (k d : Nat) (f : Domain → Domain) : M Unit := onDda k fun g => { g with doms := FMap.set g.doms d (f (g.dom d)) }

/-! ## The step (08 R151) -/

def signOf (n : Int) : Int := if n < 0 then -1 else if 0 < n then 1 else 0

/-- What a slot delivers at a step of its domain, and its counter afterwards. -/
def Dda.sample (g : Dda) (c : Cell) (k : Nat) : Int × Int :=
  let n := c.cc.getD k 0
  let draw := (signOf n, n - signOf n)
  let src := c.source k
  let (v, rest) :=
    if src < 0x100 then
      let x := g.cell src
      if x.dom = c.dom then (if x.en then x.dz else 0, n) else draw
    else if src = tickCode c.dom then (1, n)
    else if src = noSource then (0, n)
    else draw
  (if c.negates k then -v else v, rest)

/-- A cell after a step; none: it faults (08 R156). -/
def Dda.stepCell (g : Dda) (c : Cell) : Option Cell :=
  let xs := (List.range 4).map (g.sample c)
  let dx := (xs.getD 0 (0, 0)).1
  let dy := ((xs.drop 1).map Prod.fst).sum
  let m : Int := c.modulus
  if m ≤ c.r || m ≤ c.y.natAbs then none
  else
    let r : Int := c.r + dx * c.y
    let (r, dz) : Int × Int := if m ≤ r then (r - m, 1) else if r < 0 then (r + m, -1) else (r, 0)
    let y := c.y + dy
    if m ≤ y.natAbs then none
    else some { c with y := y, r := r.toNat, dz := dz, cc := xs.map Prod.snd }

/-- EVAL of an overrun. -/
def overrunValue (d cell s : Nat) : Word := BitVec.ofNat 64 (d * 2 ^ 56 + cell * 2 ^ 48 + s)

/-- A domain halts with a fault to its owner (08 R156, R157). -/
def haltFault (k d cell cause : Nat) : M Unit := do
  let x := ((← getC k).dda.dom d)
  onDomain k d fun x => { x with run := false, why := 3, halting := false, newCtl := none }
  deliverAsync x.owner k x.own x.ownerCtx cause (overrunValue d cell x.cnt)
  glbChanged k

/-- A step of a domain in progress: from its sampling cycle until its increments have reached the counters (08 R152), also of one that has
reached DSTOP. -/
def Domain.busy (x : Domain) (n : Nat) : Bool := n < x.stepEnd

/-! ## Records (08 R155) -/

/-- Domains whose cells read an input port. -/
def Dda.readers (g : Dda) (port : Nat) : List Nat :=
  ((g.cells.filter fun p => p.2.en && (List.range 4).any fun k => p.2.source k = portCode port).map fun p => p.2.dom).eraseDups

/-- A record is taken: its count is added, or it is counted as an inbox error. -/
def takeRecord (k port : Nat) (r : InRec) : M Unit := do
  let chan := 0xF8 + port
  let b := FMap.get {} (← getC k).inboxes (chan % 4)
  let w ← readDw (inboxKey k b r.off + 16)
  inboxTake k (chan % 4) r
  count k 18
  if r.plen = 8 && bits w 63 11 = 0 && bits w 10 8 = port && bits w 7 4 = 0 && bits w 3 0 ≠ 8 && hasDda k then
    onDda k fun g => g.gain (fun _ => true) (portCode port) (BitVec.ofNat 4 (bits w 3 0)).toInt
  else countErr k 3

/-- Records of a port with stamps up to a step number, taken in their order. Structural on a number of records that is enough. -/
def takeUpTo (k port s : Nat) : Nat → M Unit
  | 0 => pure ()
  | n + 1 => do
    match best ((released (← getS) k (0xF8 + port)).filter fun r => r.stamp.toNat ≤ s) with
    | some r => do takeRecord k port r; takeUpTo k port s n
    | none => pure ()

def takeDue (k s : Nat) : List Nat → M Unit
  | [] => pure ()
  | p :: ps => do
    takeUpTo k p s ((released (← getS) k (0xF8 + p)).length)
    takeDue k s ps

/-- INTEGRATOR_RECORD_TAKE (08 R155): a released record is taken at once unless only gated domains read its port;
during a self-test of the integrator array it waits (26 R391). -/
def execIntegratorRecordTake (k port : Nat) (s : State) : Out :=
  event (do
    let c ← getC k
    let g := c.dda
    let rs := g.readers port
    if !rs.isEmpty && rs.all (fun d => (g.dom d).gate) then pure ()
    else if c.bist.any fun b => b.test = 3 then plan 1 (.integratorRecordTake k port)
    else takeUpTo k port (2 ^ 64) ((released (← getS) k (0xF8 + port)).length)) s

/-- The record that an output port sends for an increment: a core outside the core table drops it (08 R155). -/
def sendIncrement (k ctx : Nat) (o : OutPort) (stamp : Word) (dz : Int) : M Unit := do
  let s ← getS
  let d := dieOf k
  let n := s.pkg.nextMessage
  let w := BitVec.ofNat 64 (o.port * 2 ^ 8 + (dz % 16).toNat)
  let m : Message :=
    { fromCore := k, toCore := 0, src := (logicalOf s d ctx k).getD 0, chan := 0xF8 + o.port, stamp := stamp, data := [(w, false)], ctx := ctx, num := n }
  let send (m : Message) : M Unit := do
    onPkg fun p => { p with nextMessage := n + 1 }
    count k 17
    onCore k fun x => { x with ddaq := x.ddaq ++ [m] }
  match coreEntry s d ctx o.core with
  | none => countErr k 7
  | some e =>
    if entryPkg e ≠ s.pkg.number then
      -- a package with no route, or with a mask of 0, lies outside the core table (24 R359)
      let mask := routeMask s d ctx (entryPkg e)
      if mask = 0 then countErr k 7
      else
        let there := (entryCore e).getD 0
        send { m with away := some (entryPkg e, there) }
        sendFlit (firstPort mask) (.message { m with toCore := there })
    else
      match entryCore e with
      | some c =>
        send { m with toCore := c }
        plan (Config.transit k c) (.inboxPlace c { m with toCore := c })
      | none => countErr k 7

/-- The stamp of a record: its domain's step number, or the core's VT, plus LA; the spec states none where that passes the range of
stamps. -/
def portStamp (vt : Word) (x : Domain) (s la : Nat) : M Word := do
  if x.gate then return BitVec.ofNat 64 (s + la)
  else if vt.toNat + la ≤ 2 ^ 64 - 2 then return BitVec.ofNat 64 (vt.toNat + la)
  else free

def sendIncrements (k : Nat) (x : Domain) (s : Nat) (emitted : FMap Int) : List (Nat × OutPort) → M Unit
  | [] => pure ()
  | (_, o) :: os => do
    match o.en, FMap.get? emitted o.cell with
    | true, some dz => do
      let stamp ← portStamp (← getC k).vt x s o.la
      sendIncrement k x.ownerCtx o stamp dz
    | _, _ => pure ()
    sendIncrements k x s emitted os

/-! ## Steps as events (08 R151 to R154) -/

/-- A committed step: cells, count, units on their way, records and taps. -/
def commitStep (k d : Nat) (cells : List (Nat × Cell)) : M Unit := do
  let n ← now
  let c ← getC k
  let x := c.dda.dom d
  let emitted : FMap Int := (cells.filter fun p => p.2.dz ≠ 0).map fun p => (p.1, p.2.dz)
  let next := (x.cnt + 1) % 2 ^ 48
  let ended := next = x.stop
  onDda k fun g => { g with
    cells := cells.foldl (fun m p => FMap.set m p.1 p.2) g.cells
    taps := g.taps.map fun (i, t) => (i, if t.en then { t with net := t.net + FMap.get 0 emitted t.cell } else t) }
  onDomain k d fun x =>
    if ended then { x with cnt := next, lastStep := some n, stepEnd := n + 3, run := false, why := 1, halting := false, newCtl := none }
    else { x with cnt := next, lastStep := some n, stepEnd := n + 3, dueStep := n + x.per }
  plan 2 (.crossingArrival k ({ source := tickCode d, dom := d, unit := 1 } ::
    emitted.map fun p => { source := p.1, dom := d, unit := p.2 }))
  sendIncrements k x x.cnt emitted c.dda.outs
  count k 19
  if ended then pure () else plan x.per (.domainStep k d)
  glbChanged k

/-- DOMAIN_STEP (08 R151, R153) -/
def execDomainStep (k d : Nat) (s : State) : Out :=
  event (do
    let n ← now
    let s ← getS
    let c := s.coreOf k
    let x := c.dda.dom d
    if c.isSealed || !x.run || x.dueStep ≠ n then pure ()
    else if x.gate && seenGlb s k ≤ x.cnt then
      onDomain k d fun x => { x with dueStep := n + 1 }
      plan 1 (.domainStep k d)
    else
      if x.gate then takeDue k x.cnt ((List.range 8).filter fun p => (c.dda.readers p).contains d) else pure ()
      let g := (← getC k).dda
      match (g.members d).find? fun p => p.2.sat with
      | some (i, _) => haltFault k d i Cause.increment
      | none =>
        let rs := (g.members d).map fun p => (p.1, g.stepCell p.2)
        match rs.find? fun p => p.2.isNone with
        | some (i, _) => haltFault k d i Cause.integrand
        | none => commitStep k d (rs.filterMap fun p => p.2.map fun c => (p.1, c))) s

def applyUnits (k : Nat) : List Crossing → M Unit
  | [] => pure ()
  | u :: us => do
    onDda k fun g => g.gain (fun c => c.dom ≠ u.dom) u.source u.unit
    applyUnits k us

/-- CROSSING_ARRIVAL (08 R152, R154): units of a step reach the counters of slots in other domains, after every step that samples in
the same cycle. -/
def execCrossingArrival (k : Nat) (units : List Crossing) (s : State) : Out :=
  event (do
    let s ← getS
    let n := s.clock.now
    let sampling := s.clock.events.any fun e => e.at_ ≤ n && (match e.act with | .domainStep k' _ => k' = k | _ => false)
    if sampling then plan 0 (.crossingArrival k units) else applyUnits k units) s

/-! ## Step boundaries (08 R152, R160) -/

/-- A new DCTL takes effect: the next step comes PER cycles after the last (16 R297). -/
def applyCtl (k d : Nat) (v : Word) : M Unit := do
  let n ← now
  let x := (← getC k).dda.dom d
  let per := max 4 (bits v 15 0)
  let due := if x.run then (match x.lastStep with | some l => max (n + 1) (l + per) | none => x.dueStep) else x.dueStep
  onDomain k d fun x => { x with gate := bit v 62, per := per, newCtl := none, dueStep := due }
  if x.run && due ≠ x.dueStep then plan (due - n) (.domainStep k d) else pure ()
  glbChanged k
  planTakes k (List.range 8)

def haltNow (k d : Nat) : M Unit := do
  onDomain k d fun x => { x with run := false, why := 2, halting := false, newCtl := none }
  glbChanged k

/-- The record of a cell (08 R159), or its patch entry. -/
def Cell.words (c : Cell) (pe : Bool) : List Word :=
  if pe then [c.patch]
  else
    let cc := (List.range 4).map fun k => (c.cc.getD k 0 % 16).toNat * 16 ^ k
    [BitVec.ofNat 64 (c.r * 2 ^ 32 + (c.y % 2 ^ 32).toNat),
     BitVec.ofNat 64 ((c.dz % 4).toNat * 2 ^ 22 + b2n c.sat * 2 ^ 21 + cc.sum)]

/-- The cells of a saved range that lie in some domains, as they stand, added to those captured before. -/
def RangeSave.capture (r : RangeSave) (g : Dda) (p : Nat → Bool) : RangeSave :=
  { r with got := ((List.range r.count).map (r.first + ·)).foldl (fun m i =>
      if (FMap.get? m i).isNone && p (g.cell i).dom then FMap.set m i ((g.cell i).words r.pe) else m) r.got }

/-- Captures for every thread of a core whose RSAVE waits for a boundary of a domain. -/
def captureAll (k d : Nat) : List Nat → M Unit
  | [] => pure ()
  | t :: ts => do
    let id := tidOf k t
    match (← getT id).rsave with
    | some r =>
      let g := (← getC k).dda
      thr id fun th => { th with rsave := some (r.capture g (· = d)) }
    | none => pure ()
    captureAll k d ts

/-- DOMAIN_HALT_BOUNDARY (08 R152): what waits for a step boundary of a domain is done. -/
def execDomainHaltBoundary (k d : Nat) (s : State) : Out :=
  event (do
    captureAll k d (List.range 16)
    let x := (← getC k).dda.dom d
    match x.newCtl with
    | some v => applyCtl k d v
    | none => pure ()
    if x.run && x.halting then haltNow k d else pure ()) s

/-- Cycles until the boundary after the step in progress. -/
def Domain.boundary (x : Domain) (n : Nat) : Nat := x.stepEnd - n

/-! ## PATCH, RSAVE, RLOAD (16 R293 to R296) -/

/-- What the shared checks yield: address, key, first cell, number of cells, PE. -/
structure RangeRef where
  ea : Word
  key : Nat
  first : Nat
  count : Nat
  pe : Bool

/-- Another thread's RSAVE or DHALT is being performed (16 R292). -/
def awaitRange (k : Nat) : M Unit := do
  let s ← getS
  let id ← me
  let begun (t : Thread) : Bool := t.rsave.isSome || t.dhalt
  if (List.range 16).any fun t => tidOf k t ≠ id && begun (s.thread (tidOf k t)) then wait false else pure ()

/-- Steps 1 to 5 of R293. -/
def rangeRef (a b : Code) (x y save : Bool) (size : Bool → Nat) : M RangeRef := do
  let ea ← readSrc a x
  let vb ← readSrc b y
  let pe := bit vb 16
  let first := bits vb 7 0
  let n := bits vb 15 8 + 1
  check (bits vb 63 17 = 0 && (save || !pe) && first + n ≤ 256) Cause.illegalOperand
  let segs := (← controlT).segs
  let z := size pe
  check (segKind (FMap.get 0 segs (bits ea 63 61)) = 1) Cause.segmentRights ea
  check (ea.toNat % z = 0) Cause.illegalOperand
  let k ← myCore
  let key ← localSpan segs k ea 0 (n * z - 1 : Nat) (if save then .store else .load)
  waitOldest
  admitAccess ea save (n * z) (.own key)
  awaitSlot 2
  awaitRange k
  return { ea := ea, key := key, first := first, count := n, pe := pe }

/-- Poisoned words of a range trap, in order. -/
def refuseWords (ea : Word) (key : Nat) : Nat → M Unit
  | 0 => pure ()
  | n + 1 => do
    refusePoison key 8 ea
    refuseWords (ea + 8) (key + 8) n

/-- The records of a range as the thread reads them. -/
def rangeWords (r : RangeRef) (n : Nat) : M (List Word) := do
  refuseWords r.ea r.key n
  awaitCuts { place := .own r.key, len := 8 * n, go := false }
  let buf := match (← self).iter with | some it => it.buf | none => []
  return wordsOf (overlay r.key (← readBytes r.key (8 * n)) buf) n

def runningDom (g : Dda) (d : Nat) : Bool := (g.dom d).run

/-- PATCH (16 R294) -/
def execPatch (a b : Code) (x y : Bool) (s : State) : Out :=
  instr { unit := hasDda, srcs := [a, b] } (do
    let r ← rangeRef a b x y false fun _ => 8
    let ws ← rangeWords r r.count
    let k ← myCore
    let g := (← getC k).dda
    let cells := (List.range r.count).map fun i => r.first + i
    check (ws.all goodEntry) Cause.illegalOperand
    check (!(cells.any fun i => runningDom g (g.cell i).dom) && !(ws.any fun w => runningDom g (bits w 62 61))) Cause.illegalOperand
    onDda k fun g => { g with
      cells := (cells.zip ws).foldl (fun m (i, w) => FMap.set m i { FMap.get {} m i with patch := w, sat := false }) g.cells }
    countAccess 2
    glbChanged k
    planTakes k (List.range 8)
    return .next) s

/-- The domains of a range whose step is in progress. -/
def busyDomains (g : Dda) (n : Nat) (cells : List Nat) : List Nat :=
  ((cells.map fun i => (g.cell i).dom).eraseDups).filter fun d => (g.dom d).busy n

def planBoundaries (k n : Nat) (g : Dda) : List Nat → M Unit
  | [] => pure ()
  | d :: ds => do
    plan ((g.dom d).boundary n) (.domainHaltBoundary k d)
    planBoundaries k n g ds

/-- RSAVE (16 R295, 08 R160) -/
def execRsave (a b : Code) (x y : Bool) (s : State) : Out :=
  instr { unit := hasDda, srcs := [a, b] } (do
    let r ← rangeRef a b x y true fun pe => if pe then 8 else 16
    awaitReads
    let k ← myCore
    let id ← me
    let n ← now
    let g := (← getC k).dda
    let cells := (List.range r.count).map fun i => r.first + i
    let busy := busyDomains g n cells
    let sv := (((← self).rsave).getD { first := r.first, count := r.count, pe := r.pe }).capture g fun d => !(busy.contains d)
    if sv.got.length < r.count then
      let begun := (← self).rsave.isSome
      let es ← effectsOf (do
        thr id fun t => { t with rsave := some sv }
        if begun then pure () else planBoundaries k n g busy)
      stop (.wait false es)
    else
      thr id fun t => { t with rsave := none }
      storeRecord r.key (sv.got.flatMap Prod.snd)
      countAccess 2
      return .next) s

/-- A record within R159. -/
def goodRecord (w0 w1 : Word) : Bool :=
  !bit w0 63 && bits w1 23 22 ≠ 2 && bits w1 63 24 = 0 && bits w1 20 16 = 0 && (List.range 4).all fun k => bits w1 (4 * k + 3) (4 * k) ≠ 8

/-- A cell with the fields of a record. -/
def Cell.load (c : Cell) (w0 w1 : Word) : Cell :=
  { c with
    r := bits w0 63 32
    y := (BitVec.ofNat 32 (bits w0 31 0)).toInt
    dz := (BitVec.ofNat 2 (bits w1 23 22)).toInt
    sat := bit w1 21
    cc := (List.range 4).map fun k => (BitVec.ofNat 4 (bits w1 (4 * k + 3) (4 * k))).toInt }

/-- RLOAD (16 R296) -/
def execRload (a b : Code) (x y : Bool) (s : State) : Out :=
  instr { unit := hasDda, srcs := [a, b] } (do
    let r ← rangeRef a b x y false fun _ => 16
    let ws ← rangeWords r (2 * r.count)
    let k ← myCore
    let g := (← getC k).dda
    let recs := (List.range r.count).map fun i => (r.first + i, ws.getD (2 * i) 0, ws.getD (2 * i + 1) 0)
    check (recs.all fun p => goodRecord p.2.1 p.2.2) Cause.illegalOperand
    check (!(recs.any fun p => runningDom g (g.cell p.1).dom)) Cause.illegalOperand
    onDda k fun g => { g with
      cells := recs.foldl (fun m p => FMap.set m p.1 ((FMap.get {} m p.1).load p.2.1 p.2.2)) g.cells }
    countAccess 2
    return .next) s

/-! ## DCFG, DSTART, DHALT (16 R297 to R299) -/

def dctlWord (x : Domain) : Word :=
  BitVec.ofNat 64 (b2n x.run * 2 ^ 63 + b2n x.gate * 2 ^ 62 + x.why * 2 ^ 60 + x.own * 2 ^ 48 + x.per)

def dobsWord (t : Tap) : Word := BitVec.ofNat 64 (t.cell * 2 ^ 56 + b2n t.en * 2 ^ 55 + (t.net % 2 ^ 48).toNat)

def doutWord (o : OutPort) : Word :=
  BitVec.ofNat 64 (b2n o.en * 2 ^ 63 + o.port * 2 ^ 56 + o.cell * 2 ^ 48 + o.core * 2 ^ 16 + o.la)

/-- DCFG (16 R297) -/
def execDcfg (d a b : Code) (x y : Bool) (s : State) : Out :=
  instr { unit := hasDda, srcs := [a, b], dst := some d } (do
    let va ← readSrc a x
    let vb ← readSrc b y
    let wr := bit va 6
    let reg := bits va 5 3
    let i := bits va 2 0
    check (bits va 63 7 = 0 && reg ≤ 3 && (reg = 3 || i ≤ 3) && !(wr && reg = 3)) Cause.illegalOperand
    waitOldest
    let k ← myCore
    awaitRange k
    let g := (← getC k).dda
    let dm := g.dom i
    let old := match reg with
      | 0 => dctlWord dm
      | 1 => BitVec.ofNat 64 dm.cnt
      | 2 => BitVec.ofNat 64 dm.stop
      | _ => dobsWord (FMap.get {} g.taps i)
    let n ← now
    if wr then
      match reg with
      | 0 =>
        if dm.busy n then
          onDomain k i fun z => { z with newCtl := some vb }
          plan (dm.boundary n) (.domainHaltBoundary k i)
        else applyCtl k i vb
      | 1 => if dm.run then pure () else onDomain k i fun z => { z with cnt := bits vb 47 0 }
      | _ => if dm.run then pure () else onDomain k i fun z => { z with stop := bits vb 47 0 }
    else pure ()
    writeDst d old
    writeSt (wr && reg ≠ 0 && dm.run)
    return .next) s

/-- The domains that a mask names (16 R298, R299). -/
def maskDomains (m : Word) : List Nat := (List.range 4).filter fun e => bit m e

def startDomains (k id n : Nat) (ctx : Nat) : List Nat → M Unit
  | [] => pure ()
  | e :: es => do
    onDomain k e fun z => { z with
      run := true, own := id % 16, owner := some (k, id % 16), ownerCtx := ctx, lastStep := none, dueStep := n + 1, halting := false }
    plan 1 (.domainStep k e)
    startDomains k id n ctx es

/-- The lowest of some cells, with its domain. -/
def lowestCell : List (Nat × Nat) → Option (Nat × Nat)
  | [] => none
  | p :: ps =>
    match lowestCell ps with
    | some q => some (if p.2 ≤ q.2 then p else q)
    | none => some p

/-- DSTART (16 R298) -/
def execDstart (a : Code) (x : Bool) (s : State) : Out :=
  instr { unit := hasDda, srcs := [a] } (do
    let va ← readSrc a x
    check (bits va 63 4 = 0) Cause.illegalOperand
    waitOldest
    let k ← myCore
    awaitRange k
    let g := (← getC k).dda
    let named := (maskDomains va).filter fun e => !runningDom g e
    let bad := named.flatMap fun e => ((g.members e).filter fun p => p.2.sat).map fun p => (e, p.1)
    match lowestCell bad with
    | some (e, i) => trap Cause.increment (overrunValue e i (g.dom e).cnt)
    | none =>
      startDomains k (← control) (← now) (← controlT).ctx named
      glbChanged k
      return .next) s

/-- Halts of running domains: at once at a boundary, or asked for at the next one. -/
def haltDomains (k n : Nat) (g : Dda) : List Nat → M Unit
  | [] => pure ()
  | e :: es => do
    let z := g.dom e
    if !z.run || z.halting then pure ()
    else if z.busy n then
      onDomain k e fun z => { z with halting := true }
      plan (z.boundary n) (.domainHaltBoundary k e)
    else haltNow k e
    haltDomains k n g es

/-- DHALT (16 R299) -/
def execDhalt (a : Code) (x : Bool) (s : State) : Out :=
  instr { unit := hasDda, srcs := [a] } (do
    let va ← readSrc a x
    check (bits va 63 4 = 0) Cause.illegalOperand
    waitOldest
    let k ← myCore
    awaitRange k
    let id ← me
    let n ← now
    let g := (← getC k).dda
    let named := maskDomains va
    if (← self).dhalt then
      if named.any fun e => (g.dom e).run then wait false
      else
        thr id fun t => { t with dhalt := false }
        return .next
    else if named.any fun e => (g.dom e).run && (g.dom e).busy n then
      stop (.wait false (← effectsOf (do
        thr id fun t => { t with dhalt := true }
        haltDomains k n g named)))
    else
      haltDomains k n g named
      return .next) s

/-! ## DIN, DTAP, DPORT (16 R300 to R302) -/

/-- DIN (16 R300) -/
def execDin (a b : Code) (x y : Bool) (s : State) : Out :=
  instr { unit := hasDda, srcs := [a, b] } (do
    let va ← readSrc a x
    let vb ← readSrc b y
    check (va.toNat ≤ 7 && -7 ≤ vb.toInt && vb.toInt ≤ 7) Cause.illegalOperand
    waitOldest
    let k ← myCore
    awaitRange k
    onDda k fun g => g.gain (fun _ => true) (portCode va.toNat) vb.toInt
    return .next) s

/-- DTAP (16 R301) -/
def execDtap (d a b : Code) (x y : Bool) (s : State) : Out :=
  instr { unit := hasDda, srcs := [a, b], dst := some d } (do
    let va ← readSrc a x
    let vb ← readSrc b y
    check (va.toNat ≤ 7 && bits vb 63 9 = 0) Cause.illegalOperand
    waitOldest
    let k ← myCore
    awaitRange k
    let t := FMap.get {} (← getC k).dda.taps va.toNat
    let new : Tap := if bit vb 8 then { t with en := false } else { cell := bits vb 7 0, en := true, net := 0 }
    onDda k fun g => { g with taps := FMap.set g.taps va.toNat new }
    writeDst d (dobsWord t)
    return .next) s

/-- DOUT as a written word gives it (08 R155). -/
def outPortOf (w : Word) : OutPort :=
  { en := bit w 63 && bits w 7 0 ≠ 0, port := bits w 58 56, cell := bits w 55 48, core := bits w 39 16, la := bits w 7 0 }

/-- DPORT (16 R302) -/
def execDport (d a b : Code) (x y : Bool) (s : State) : Out :=
  instr { unit := hasDda, srcs := [a, b], dst := some d } (do
    let va ← readSrc a x
    let vb ← readSrc b y
    check (va.toNat ≤ 7) Cause.illegalOperand
    waitOldest
    let k ← myCore
    awaitRange k
    let o := FMap.get {} (← getC k).dda.outs va.toNat
    onDda k fun g => { g with outs := FMap.set g.outs va.toNat (outPortOf vb) }
    glbChanged k
    writeDst d (doutWord o)
    return .next) s

/-! ## Narrow packing (16 R303 to R307) -/

/-- Shift of a value by a signed count: left, or right with truncation. -/
def shiftBy (v : Nat) (h : Int) : Nat := if h < 0 then v / 2 ^ h.natAbs else v * 2 ^ h.natAbs

/-- The signed count of b. -/
def packCount (b : Word) : Int := (BitVec.ofNat 8 (bits b 7 0)).toInt

/-- Eight n-bit codes as a packed stream, shifted (16 R304). -/
def packOf (n : Nat) (a b : Word) : Word :=
  BitVec.ofNat 64 (shiftBy (((List.range 8).map fun i => bits a (8 * i + n - 1) (8 * i) * 2 ^ (n * i)).sum) (packCount b))

/-- Eight codes of a shifted stream, one in each byte (16 R305). -/
def unpackOf (n : Nat) (a b : Word) : Word :=
  let x := shiftBy a.toNat (-(packCount b)) % 2 ^ 64
  BitVec.ofNat 64 (((List.range 8).map fun i => x / 2 ^ (n * i) % 2 ^ n * 2 ^ (8 * i)).sum)

/-- PACK6 (16 R304) -/
def execPack6 (d a b : Code) (x y : Bool) (s : State) : Out := binary (packOf 6) d a b x y s

/-- UNPK6 (16 R305) -/
def execUnpk6 (d a b : Code) (x y : Bool) (s : State) : Out := binary (unpackOf 6) d a b x y s

/-- PACK4 (16 R304) -/
def execPack4 (d a b : Code) (x y : Bool) (s : State) : Out := binary (packOf 4) d a b x y s

/-- UNPK4 (16 R305) -/
def execUnpk4 (d a b : Code) (x y : Bool) (s : State) : Out := binary (unpackOf 4) d a b x y s

/-- LGENC (16 R306) -/
def execLgenc (d a b : Code) (x y : Bool) (s : State) : Out :=
  instr { srcs := [a, b], dst := some d } (do
    let va ← readSrc a x
    let vb ← readSrc b y
    check (bits vb 63 2 = 0) Cause.illegalOperand
    let lo := NumFmt.lg6.convert 0 (bits vb 1 0) (Fmt.f32.decode (bits va 31 0))
    let hi := NumFmt.lg6.convert 0 (bits vb 1 0) (Fmt.f32.decode (bits va 63 32))
    check (!lo.trap && !hi.trap) Cause.conversion
    writeDst d (BitVec.ofNat 64 (hi.code % 64 * 2 ^ 8 + lo.code % 64))
    raiseFlags (← me) (lo.flags ||| hi.flags)
    return .next) s

/-- An LG6 code as FP32 (16 R307). -/
def lgToF32 (c : Nat) : Nat := (Fmt.f32.convert 0 0 (lgDecode (c % 64))).code

/-- LGDEC (16 R307) -/
def execLgdec (d a b : Code) (x y : Bool) (s : State) : Out :=
  instr { srcs := [a, b], dst := some d } (do
    let va ← readSrc a x
    let vb ← readSrc b y
    check (vb.toNat ≤ 6) Cause.illegalOperand
    let k := vb.toNat
    writeDst d (BitVec.ofNat 64 (lgToF32 (va.toNat / 2 ^ (8 * k + 8)) * 2 ^ 32 + lgToF32 (va.toNat / 2 ^ (8 * k))))
    return .next) s

end Sys2Proof.Machine
end

