-- ==== Sys2Proof/WellFormed.lean ====
section
/-! DEFINITION. Which terms of Instr stand for a word of the opcode table or for an event of the package's own units: literal fields that
have an encoding (10 R179, R186), and numbers of cores, slots, dies, ports, domains and channels in their ranges (01 R8 to R12). -/

namespace Sys2Proof

/-- A core of the identity table (01 R12). -/
def coreOk (k : Nat) : Bool := k < 4480

/-- A thread slot (01 R9). -/
def slotOk (t : Nat) : Bool := t < 16

/-- A die (01 R12). -/
def dieOk (d : Nat) : Bool := d < 8

/-- A cluster of a die (01 R11). -/
def clusterOk (c : Nat) : Bool := c < 28

/-- A scale-up port of the package, 4 * die + port (01 R12). -/
def portOk (p : Nat) : Bool := p < 32

/-- A lane of a port (26 R392). -/
def laneOk (l : Nat) : Bool := l < 8

/-- A step domain (08 R152). -/
def domainOk (d : Nat) : Bool := d < 4

/-- An inbox (05 R101). -/
def inboxOk (n : Nat) : Bool := n < 4

/-- A channel of a message (13 R241). -/
def channelOk (c : Nat) : Bool := c < 256

/-- An output port of the integrator array (08 R155). -/
def outPortOk (p : Nat) : Bool := p < 8

/-- A publish group (07 R141). -/
def groupOk (g : Nat) : Bool := g < 128

/-- The size code of a load: 7 has no load (12 R213). -/
def loadSizeOk (s : BitVec 3) : Bool := s != 7

/-- Well-formed terms. -/
def Instr.wellFormed : Instr → Bool
  | .add _ _ _ _ _ => true
  | .sub _ _ _ _ _ => true
  | .addc _ _ _ _ _ => true
  | .subb _ _ _ _ _ => true
  | .and _ _ _ _ _ => true
  | .or _ _ _ _ _ => true
  | .xor _ _ _ _ _ => true
  | .andn _ _ _ _ _ => true
  | .sll _ _ _ _ _ => true
  | .srl _ _ _ _ _ => true
  | .sra _ _ _ _ _ => true
  | .rol _ _ _ _ _ => true
  | .ror _ _ _ _ _ => true
  | .mul _ _ _ _ _ => true
  | .mulh _ _ _ _ _ => true
  | .mulhu _ _ _ _ _ => true
  | .mulhsu _ _ _ _ _ => true
  | .div _ _ _ _ _ => true
  | .divu _ _ _ _ _ => true
  | .rem _ _ _ _ _ => true
  | .remu _ _ _ _ _ => true
  | .min _ _ _ _ _ => true
  | .max _ _ _ _ _ => true
  | .minu _ _ _ _ _ => true
  | .maxu _ _ _ _ _ => true
  | .clz _ _ _ => true
  | .ctz _ _ _ => true
  | .popc _ _ _ => true
  | .exts _ _ _ _ _ => true
  | .extz _ _ _ _ _ => true
  | .bswap _ _ _ => true
  | .cmov _ _ _ _ _ => true
  | .pwset _ _ _ _ _ => true
  | .addi _ _ _ => true
  | .andi _ _ _ => true
  | .ori _ _ _ => true
  | .xori _ _ _ => true
  | .slli _ _ _ => true
  | .srli _ _ _ => true
  | .srai _ _ _ => true
  | .rori _ _ _ => true
  | .muli _ _ _ => true
  | .ldi _ _ => true
  | .ldih _ _ => true
  | .sk _ _ _ _ _ _ _ => true
  | .ski _ _ _ _ _ => true
  | .br _ => true
  | .call _ => true
  | .brp _ _ _ => true
  | .jr _ _ _ => true
  | .loop _ _ _ _ => true
  | .ldOrd _ _ _ s => loadSizeOk s
  | .ld _ _ _ s => loadSizeOk s
  | .st _ _ _ _ => true
  | .ldf _ _ _ => true
  | .stf _ _ _ => true
  | .ldff _ _ _ => true
  | .purge _ _ => true
  | .amoSwap _ _ _ _ _ => true
  | .amoAdd _ _ _ _ _ => true
  | .amoAnd _ _ _ _ _ => true
  | .amoOr _ _ _ _ _ => true
  | .amoXor _ _ _ _ _ => true
  | .amoMin _ _ _ _ _ => true
  | .amoMax _ _ _ _ _ => true
  | .amoMinu _ _ _ _ _ => true
  | .amoMaxu _ _ _ _ _ => true
  | .cas _ _ _ _ _ => true
  | .incw _ _ _ _ _ => true
  | .faddb _ _ _ _ _ => true
  | .redAdd _ _ _ _ => true
  | .redAnd _ _ _ _ => true
  | .redOr _ _ _ _ => true
  | .redXor _ _ _ _ => true
  | .redMin _ _ _ _ => true
  | .redMax _ _ _ _ => true
  | .redMinu _ _ _ _ => true
  | .redMaxu _ _ _ _ => true
  | .fence _ => true
  | .marm _ _ _ _ => true
  | .mdis _ _ => true
  | .mwait _ _ _ => true
  | .bari _ _ _ _ => true
  | .barv _ _ _ _ _ => true
  | .barw _ _ _ _ _ => true
  | .spawn _ _ _ _ => true
  | .graft _ _ => true
  | .wfld _ _ _ _ _ => true
  | .send _ _ _ _ _ => true
  | .recv _ _ _ _ _ => true
  | .vtadv _ _ _ => true
  | .glbrd _ => true
  | .lcfg _ _ _ _ _ => true
  | .furrow _ => true
  | .fadd _ _ _ _ _ => true
  | .fsub _ _ _ _ _ => true
  | .fmul _ _ _ _ _ => true
  | .fdiv _ _ _ _ _ => true
  | .fsqrt _ _ _ => true
  | .fmin _ _ _ _ _ => true
  | .fmax _ _ _ _ _ => true
  | .fmadd _ _ _ _ _ => true
  | .fmsub _ _ _ _ _ => true
  | .fnmadd _ _ _ _ _ => true
  | .fnmsub _ _ _ _ _ => true
  | .fcvt _ _ _ _ _ _ => true
  | .fsk _ _ _ _ _ _ _ => true
  | .fclass _ _ _ => true
  | .ffrd _ => true
  | .ffclr _ _ _ => true
  | .frmset _ _ _ => true
  | .frmrd _ => true
  | .shape _ _ _ _ _ => true
  | .tld _ _ _ _ => true
  | .tst _ _ _ _ => true
  | .tadd _ _ _ _ _ _ => true
  | .tsub _ _ _ _ _ _ => true
  | .tmul _ _ _ _ _ _ => true
  | .tmin _ _ _ _ _ _ => true
  | .tmax _ _ _ _ _ _ => true
  | .tand _ _ _ _ => true
  | .tor _ _ _ _ => true
  | .txor _ _ _ _ => true
  | .tneg _ _ _ _ _ => true
  | .tabs _ _ _ _ _ => true
  | .tfma _ _ _ _ _ _ => true
  | .tfms _ _ _ _ _ _ => true
  | .tfnma _ _ _ _ _ _ => true
  | .tfnms _ _ _ _ _ _ => true
  | .tcvt _ _ _ _ _ => true
  | .trsum _ _ _ _ _ _ => true
  | .trmax _ _ _ _ _ _ => true
  | .trmin _ _ _ _ _ _ => true
  | .tbcs _ _ _ => true
  | .tbrow _ _ _ _ => true
  | .tbcol _ _ _ _ => true
  | .ttrn _ _ _ => true
  | .tshuf _ _ _ _ => true
  | .trot _ _ _ _ => true
  | .tmov _ _ _ => true
  | .tsel _ _ _ _ => true
  | .tget _ _ _ => true
  | .tset _ _ _ => true
  | .mma _ _ _ _ => true
  | .azero _ _ => true
  | .awr _ _ => true
  | .ard _ _ => true
  | .achk _ _ _ => true
  | .tilemm _ _ _ => true
  | .bsum _ _ => true
  | .xred _ _ _ _ => true
  | .xrnd _ _ _ => true
  | .xclr _ _ _ => true
  | .cpy _ _ _ => true
  | .publ _ _ => true
  | .chain _ _ _ _ => true
  | .nbmv _ _ _ => true
  | .estat _ _ _ _ => true
  | .patch _ _ _ _ => true
  | .rsave _ _ _ _ => true
  | .rload _ _ _ _ => true
  | .dcfg _ _ _ _ _ => true
  | .dstart _ _ => true
  | .dhalt _ _ => true
  | .din _ _ _ _ => true
  | .dtap _ _ _ _ _ => true
  | .dport _ _ _ _ _ => true
  | .pack6 _ _ _ _ _ => true
  | .unpk6 _ _ _ _ _ => true
  | .pack4 _ _ _ _ _ => true
  | .unpk4 _ _ _ _ _ => true
  | .lgenc _ _ _ _ _ => true
  | .lgdec _ _ _ _ _ => true
  | .crrd _ _ => true
  | .crwr _ _ => true
  | .crset _ _ _ => true
  | .crclr _ _ _ => true
  | .trap _ _ => true
  | .scall _ _ => true
  | .hcall _ _ => true
  | .segld _ _ _ _ => true
  | .segrd _ _ _ => true
  | .shoot _ _ _ _ => true
  | .bist _ _ _ => true
  | .ecrd _ _ _ => true
  | .eccfg _ _ _ _ _ => true
  | .imm _ => true
  | .rlx _ _ => true
  | .sched _ => true
  | .producerResultArrival k t _ => coreOk k && slotOk t
  | .waitLimit k t _ => coreOk k && slotOk t
  | .seedPacketArrival k _ => coreOk k
  | .spawnPacketArrival k _ => coreOk k
  | .spawnReply k t _ => coreOk k && slotOk t
  | .graftArrival k _ => coreOk k
  | .graftQueuePlace k => coreOk k
  | .graftAccepted k t dst => coreOk k && slotOk t && coreOk dst
  | .graftResend k t => coreOk k && slotOk t
  | .mwaitWake k t => coreOk k && slotOk t
  | .mwaitTimeout k t _ => coreOk k && slotOk t
  | .linkWordArrival k _ _ => coreOk k
  | .linkCreditReturn k _ => coreOk k
  | .furrowStart k => coreOk k
  | .furrowStep k => coreOk k
  | .trapQueueRecord k _ => coreOk k
  | .inboxPlace k _ => coreOk k
  | .messageResend _ => true
  | .sendQueueDeliver k => coreOk k
  | .glbUpdate k => coreOk k
  | .creditReturn k dst inbox => coreOk k && coreOk dst && channelOk inbox
  | .channelAudit k src inbox => coreOk k && coreOk src && channelOk inbox
  | .domainStep k dom => coreOk k && domainOk dom
  | .domainHaltBoundary k dom => coreOk k && domainOk dom
  | .crossingArrival k _ => coreOk k
  | .integratorRecordTake k port => coreOk k && outPortOk port
  | .arrayCommandExecute k => coreOk k
  | .tilemmDescriptorCopy k => coreOk k
  | .tilemmStep k => coreOk k
  | .copyAccept k t => coreOk k && slotOk t
  | .copyElementLand _ => true
  | .copyComplete _ => true
  | .nbmvAccept k t => coreOk k && slotOk t
  | .nbmvComplete _ => true
  | .publFlip _ group => groupOk group
  | .eventRecordPlace k _ => coreOk k
  | .cuttingApply _ => true
  | .cuttingResend _ => true
  | .linkTimeout k t _ => coreOk k && (slotOk t || t == 16)
  | .twinHashArrival k t _ _ => coreOk k && slotOk t
  | .twinHashTimeout k t _ => coreOk k && slotOk t
  | .refreshPhase die => dieOk die
  | .refreshBusyEnd die => dieOk die
  | .wsmodeDrainEnd die => dieOk die
  | .schedulerDispatch die => dieOk die
  | .threadPlacement die _ => dieOk die
  | .launchEnq _ => true
  | .launchDec _ => true
  | .contextKill die => dieOk die
  | .killDrainComplete die => dieOk die
  | .coreRemove die => dieOk die
  | .shootdownPort port _ => dieOk port
  | .bistComplete k t => coreOk k && slotOk t
  | .laneMarginDwellEnd port lane => portOk port && laneOk lane
  | .wideBeatArrival k _ _ => coreOk k
  | .annulledWordPass k t => coreOk k && slotOk t
  | .fetchFault k t => coreOk k && slotOk t
  | .windowSpill k => coreOk k
  | .windowFill k => coreOk k
  | .seedPacketReturn k _ => coreOk k
  | .asyncEventDelivery k t => coreOk k && slotOk t
  | .messageRelease k chan => coreOk k && channelOk chan
  | .remoteAccessRequest _ => true
  | .remoteAccessResponse k t _ _ _ => coreOk k && slotOk t
  | .flitReceive port _ => portOk port
  | .linkRetrain port => portOk port
  | .coreSeal k => coreOk k
  | .scrubRead _ _ => true
  | .wsmodeWrite die _ => dieOk die
  | .tcbDecrement die _ => dieOk die
  | .taskRetire die _ => dieOk die
  | .taskFail die _ => dieOk die
  | .cxSaveThread c => coreOk c.core && slotOk c.slot
  | .cxRestoreThread c => coreOk c.core && slotOk c.slot
  | .cxSaveCore c => coreOk c.core && slotOk c.slot
  | .cxRestoreCore c => coreOk c.core && slotOk c.slot
  | .laneMarginDwell port lane => portOk port && laneOk lane
  | .svnfuseWrite die _ => dieOk die
  | .smargWrite die _ => dieOk die
  | .ibdWrite k n _ _ => coreOk k && inboxOk n
  | .tqbWrite k _ _ => coreOk k
  | .clpartWrite die cl _ => dieOk die && clusterOk cl
  | .registerWrite _ _ => true
  | .packageReset _ => true
  | .getVersion _ => true
  | .getCapabilities _ => true
  | .negotiateAlgorithms _ => true
  | .getDigests _ => true
  | .getCertificate _ => true
  | .challenge _ => true
  | .getMeasurements _ => true
  | .dieReset die => dieOk die
  | .framePageIn k _ => coreOk k
  | .eventCounterAdd k => coreOk k
  | .marginingEnable _ => true
  | .ret => true
  | .iend => true
  | .ileave => true
  | .yield => true
  | .done => true
  | .fend => true
  | .eret => true
  | .uiret => true
  | .nop => true

end Sys2Proof
end

