-- ==== Sys2Proof/Decode.lean ====
section
/-! DEFINITION. The decoder of instruction words (10 R179, R186, R188), total on any bytes and rejecting by name; and the
encoder, written from the same formats. -/

namespace Sys2Proof

/-- Why bytes are no instruction word (10 R188 steps 1 and 2). -/
inductive Reject where
  /-- fewer than four bytes -/
  | short
  /-- a major opcode that selects no format -/
  | reservedMajor (major : Nat)
  /-- an unassigned function code, or a nonzero bit in a field that must be 0 -/
  | unassigned (major : Nat)
deriving DecidableEq, Repr

/-- Major 0x01 (10 R186). -/
def decodeMajor01 (w : BitVec 32) : Option Instr :=
  if w &&& 0xFC000007#32 = 0x04000000#32 then some (.add (w.extractLsb' 19 7) (w.extractLsb' 12 7) (w.extractLsb' 5 7) (bit w 4) (bit w 3))
  else if w &&& 0xFC000007#32 = 0x04000001#32 then some (.sub (w.extractLsb' 19 7) (w.extractLsb' 12 7) (w.extractLsb' 5 7) (bit w 4) (bit w 3))
  else if w &&& 0xFC000007#32 = 0x04000002#32 then some (.addc (w.extractLsb' 19 7) (w.extractLsb' 12 7) (w.extractLsb' 5 7) (bit w 4) (bit w 3))
  else if w &&& 0xFC000007#32 = 0x04000003#32 then some (.subb (w.extractLsb' 19 7) (w.extractLsb' 12 7) (w.extractLsb' 5 7) (bit w 4) (bit w 3))
  else if w &&& 0xFC000007#32 = 0x04000004#32 then some (.and (w.extractLsb' 19 7) (w.extractLsb' 12 7) (w.extractLsb' 5 7) (bit w 4) (bit w 3))
  else if w &&& 0xFC000007#32 = 0x04000005#32 then some (.or (w.extractLsb' 19 7) (w.extractLsb' 12 7) (w.extractLsb' 5 7) (bit w 4) (bit w 3))
  else if w &&& 0xFC000007#32 = 0x04000006#32 then some (.xor (w.extractLsb' 19 7) (w.extractLsb' 12 7) (w.extractLsb' 5 7) (bit w 4) (bit w 3))
  else if w &&& 0xFC000007#32 = 0x04000007#32 then some (.andn (w.extractLsb' 19 7) (w.extractLsb' 12 7) (w.extractLsb' 5 7) (bit w 4) (bit w 3))
  else none

/-- Major 0x02 (10 R186). -/
def decodeMajor02 (w : BitVec 32) : Option Instr :=
  if w &&& 0xFC000007#32 = 0x08000000#32 then some (.sll (w.extractLsb' 19 7) (w.extractLsb' 12 7) (w.extractLsb' 5 7) (bit w 4) (bit w 3))
  else if w &&& 0xFC000007#32 = 0x08000001#32 then some (.srl (w.extractLsb' 19 7) (w.extractLsb' 12 7) (w.extractLsb' 5 7) (bit w 4) (bit w 3))
  else if w &&& 0xFC000007#32 = 0x08000002#32 then some (.sra (w.extractLsb' 19 7) (w.extractLsb' 12 7) (w.extractLsb' 5 7) (bit w 4) (bit w 3))
  else if w &&& 0xFC000007#32 = 0x08000003#32 then some (.rol (w.extractLsb' 19 7) (w.extractLsb' 12 7) (w.extractLsb' 5 7) (bit w 4) (bit w 3))
  else if w &&& 0xFC000007#32 = 0x08000004#32 then some (.ror (w.extractLsb' 19 7) (w.extractLsb' 12 7) (w.extractLsb' 5 7) (bit w 4) (bit w 3))
  else none

/-- Major 0x03 (10 R186). -/
def decodeMajor03 (w : BitVec 32) : Option Instr :=
  if w &&& 0xFC000007#32 = 0x0C000000#32 then some (.mul (w.extractLsb' 19 7) (w.extractLsb' 12 7) (w.extractLsb' 5 7) (bit w 4) (bit w 3))
  else if w &&& 0xFC000007#32 = 0x0C000001#32 then some (.mulh (w.extractLsb' 19 7) (w.extractLsb' 12 7) (w.extractLsb' 5 7) (bit w 4) (bit w 3))
  else if w &&& 0xFC000007#32 = 0x0C000002#32 then some (.mulhu (w.extractLsb' 19 7) (w.extractLsb' 12 7) (w.extractLsb' 5 7) (bit w 4) (bit w 3))
  else if w &&& 0xFC000007#32 = 0x0C000003#32 then some (.mulhsu (w.extractLsb' 19 7) (w.extractLsb' 12 7) (w.extractLsb' 5 7) (bit w 4) (bit w 3))
  else if w &&& 0xFC000007#32 = 0x0C000004#32 then some (.div (w.extractLsb' 19 7) (w.extractLsb' 12 7) (w.extractLsb' 5 7) (bit w 4) (bit w 3))
  else if w &&& 0xFC000007#32 = 0x0C000005#32 then some (.divu (w.extractLsb' 19 7) (w.extractLsb' 12 7) (w.extractLsb' 5 7) (bit w 4) (bit w 3))
  else if w &&& 0xFC000007#32 = 0x0C000006#32 then some (.rem (w.extractLsb' 19 7) (w.extractLsb' 12 7) (w.extractLsb' 5 7) (bit w 4) (bit w 3))
  else if w &&& 0xFC000007#32 = 0x0C000007#32 then some (.remu (w.extractLsb' 19 7) (w.extractLsb' 12 7) (w.extractLsb' 5 7) (bit w 4) (bit w 3))
  else none

/-- Major 0x04 (10 R186). -/
def decodeMajor04 (w : BitVec 32) : Option Instr :=
  if w &&& 0xFC000FEF#32 = 0x10000004#32 then some (.clz (w.extractLsb' 19 7) (w.extractLsb' 12 7) (bit w 4))
  else if w &&& 0xFC000FEF#32 = 0x10000005#32 then some (.ctz (w.extractLsb' 19 7) (w.extractLsb' 12 7) (bit w 4))
  else if w &&& 0xFC000FEF#32 = 0x10000006#32 then some (.popc (w.extractLsb' 19 7) (w.extractLsb' 12 7) (bit w 4))
  else if w &&& 0xFC000007#32 = 0x10000000#32 then some (.min (w.extractLsb' 19 7) (w.extractLsb' 12 7) (w.extractLsb' 5 7) (bit w 4) (bit w 3))
  else if w &&& 0xFC000007#32 = 0x10000001#32 then some (.max (w.extractLsb' 19 7) (w.extractLsb' 12 7) (w.extractLsb' 5 7) (bit w 4) (bit w 3))
  else if w &&& 0xFC000007#32 = 0x10000002#32 then some (.minu (w.extractLsb' 19 7) (w.extractLsb' 12 7) (w.extractLsb' 5 7) (bit w 4) (bit w 3))
  else if w &&& 0xFC000007#32 = 0x10000003#32 then some (.maxu (w.extractLsb' 19 7) (w.extractLsb' 12 7) (w.extractLsb' 5 7) (bit w 4) (bit w 3))
  else none

/-- Major 0x05 (10 R186). -/
def decodeMajor05 (w : BitVec 32) : Option Instr :=
  if w &&& 0xFC000FEF#32 = 0x14000002#32 then some (.bswap (w.extractLsb' 19 7) (w.extractLsb' 12 7) (bit w 4))
  else if w &&& 0xFC000007#32 = 0x14000000#32 then some (.exts (w.extractLsb' 19 7) (w.extractLsb' 12 7) (w.extractLsb' 5 7) (bit w 4) (bit w 3))
  else if w &&& 0xFC000007#32 = 0x14000001#32 then some (.extz (w.extractLsb' 19 7) (w.extractLsb' 12 7) (w.extractLsb' 5 7) (bit w 4) (bit w 3))
  else if w &&& 0xFC000007#32 = 0x14000003#32 then some (.cmov (w.extractLsb' 19 7) (w.extractLsb' 12 7) (w.extractLsb' 5 7) (bit w 4) (bit w 3))
  else if w &&& 0xFC000007#32 = 0x14000004#32 then some (.pwset (w.extractLsb' 19 7) (w.extractLsb' 12 7) (w.extractLsb' 5 7) (bit w 4) (bit w 3))
  else none

/-- Major 0x06 (10 R186). -/
def decodeMajor06 (w : BitVec 32) : Option Instr :=
  if w &&& 0xFC000000#32 = 0x18000000#32 then some (.addi (w.extractLsb' 19 7) (w.extractLsb' 12 7) (w.extractLsb' 0 12))
  else none

/-- Major 0x07 (10 R186). -/
def decodeMajor07 (w : BitVec 32) : Option Instr :=
  if w &&& 0xFC000000#32 = 0x1C000000#32 then some (.andi (w.extractLsb' 19 7) (w.extractLsb' 12 7) (w.extractLsb' 0 12))
  else none

/-- Major 0x08 (10 R186). -/
def decodeMajor08 (w : BitVec 32) : Option Instr :=
  if w &&& 0xFC000000#32 = 0x20000000#32 then some (.ori (w.extractLsb' 19 7) (w.extractLsb' 12 7) (w.extractLsb' 0 12))
  else none

/-- Major 0x09 (10 R186). -/
def decodeMajor09 (w : BitVec 32) : Option Instr :=
  if w &&& 0xFC000000#32 = 0x24000000#32 then some (.xori (w.extractLsb' 19 7) (w.extractLsb' 12 7) (w.extractLsb' 0 12))
  else none

/-- Major 0x0A (10 R186). -/
def decodeMajor0A (w : BitVec 32) : Option Instr :=
  if w &&& 0xFC000FC0#32 = 0x28000000#32 then some (.slli (w.extractLsb' 19 7) (w.extractLsb' 12 7) (w.extractLsb' 0 6))
  else if w &&& 0xFC000FC0#32 = 0x28000040#32 then some (.srli (w.extractLsb' 19 7) (w.extractLsb' 12 7) (w.extractLsb' 0 6))
  else if w &&& 0xFC000FC0#32 = 0x28000080#32 then some (.srai (w.extractLsb' 19 7) (w.extractLsb' 12 7) (w.extractLsb' 0 6))
  else if w &&& 0xFC000FC0#32 = 0x280000C0#32 then some (.rori (w.extractLsb' 19 7) (w.extractLsb' 12 7) (w.extractLsb' 0 6))
  else none

/-- Major 0x0B (10 R186). -/
def decodeMajor0B (w : BitVec 32) : Option Instr :=
  if w &&& 0xFC000000#32 = 0x2C000000#32 then some (.muli (w.extractLsb' 19 7) (w.extractLsb' 12 7) (w.extractLsb' 0 12))
  else none

/-- Major 0x0C (10 R186). -/
def decodeMajor0C (w : BitVec 32) : Option Instr :=
  if w &&& 0xFC000000#32 = 0x30000000#32 then some (.ldi (w.extractLsb' 19 7) (w.extractLsb' 0 19))
  else none

/-- Major 0x0D (10 R186). -/
def decodeMajor0D (w : BitVec 32) : Option Instr :=
  if w &&& 0xFC000000#32 = 0x34000000#32 then some (.ldih (w.extractLsb' 19 7) (w.extractLsb' 0 19))
  else none

/-- Major 0x0E (10 R186). -/
def decodeMajor0E (w : BitVec 32) : Option Instr :=
  if w &&& 0xFC000000#32 = 0x38000000#32 then some (.sk (w.extractLsb' 19 7) (w.extractLsb' 12 7) (w.extractLsb' 8 4) (w.extractLsb' 6 2) (w.extractLsb' 2 4) (bit w 1) (bit w 0))
  else none

/-- Major 0x0F (10 R186). -/
def decodeMajor0F (w : BitVec 32) : Option Instr :=
  if w &&& 0xFC000000#32 = 0x3C000000#32 then some (.ski (w.extractLsb' 19 7) (w.extractLsb' 7 12) (w.extractLsb' 3 4) (w.extractLsb' 1 2) (bit w 0))
  else none

/-- Major 0x10 (10 R186). -/
def decodeMajor10 (w : BitVec 32) : Option Instr :=
  if w &&& 0xFC000000#32 = 0x40000000#32 then some (.br (w.extractLsb' 0 26))
  else none

/-- Major 0x11 (10 R186). -/
def decodeMajor11 (w : BitVec 32) : Option Instr :=
  if w &&& 0xFC000000#32 = 0x44000000#32 then some (.call (w.extractLsb' 0 26))
  else none

/-- Major 0x12 (10 R186). -/
def decodeMajor12 (w : BitVec 32) : Option Instr :=
  if w &&& 0xFC000000#32 = 0x48000000#32 then some (.brp (bit w 25) (w.extractLsb' 21 4) (w.extractLsb' 0 21))
  else none

/-- Major 0x13 (10 R186). -/
def decodeMajor13 (w : BitVec 32) : Option Instr :=
  if w &&& 0xFFFFFFFF#32 = 0x4C000001#32 then some (.ret)
  else if w &&& 0xFC000FEF#32 = 0x4C000000#32 then some (.jr (w.extractLsb' 19 7) (w.extractLsb' 12 7) (bit w 4))
  else none

/-- Major 0x14 (10 R186). -/
def decodeMajor14 (w : BitVec 32) : Option Instr :=
  if w &&& 0xFC080000#32 = 0x50000000#32 then some (.loop (w.extractLsb' 23 3) (w.extractLsb' 20 3) (w.extractLsb' 12 7) (w.extractLsb' 0 12))
  else none

/-- Major 0x15 (10 R186). -/
def decodeMajor15 (w : BitVec 32) : Option Instr :=
  if w &&& 0xFFFFFFFF#32 = 0x54000007#32 then some (.iend)
  else if w &&& 0xFFFFFFFF#32 = 0x54080007#32 then some (.ileave)
  else if w &&& 0xFC000000#32 = 0x54000000#32 ∧ w.extractLsb' 0 3 ≠ 7#3 then some (.ldOrd (w.extractLsb' 19 7) (w.extractLsb' 12 7) (w.extractLsb' 3 9) (w.extractLsb' 0 3))
  else none

/-- Major 0x16 (10 R186). -/
def decodeMajor16 (w : BitVec 32) : Option Instr :=
  if w &&& 0xFC000000#32 = 0x58000000#32 ∧ w.extractLsb' 0 3 ≠ 7#3 then some (.ld (w.extractLsb' 19 7) (w.extractLsb' 12 7) (w.extractLsb' 3 9) (w.extractLsb' 0 3))
  else none

/-- Major 0x17 (10 R186). -/
def decodeMajor17 (w : BitVec 32) : Option Instr :=
  if w &&& 0xFC000001#32 = 0x5C000000#32 then some (.st (w.extractLsb' 19 7) (w.extractLsb' 12 7) (w.extractLsb' 3 9) (w.extractLsb' 1 2))
  else none

/-- Major 0x18 (10 R186). -/
def decodeMajor18 (w : BitVec 32) : Option Instr :=
  if w &&& 0xFFF80007#32 = 0x60000003#32 then some (.purge (w.extractLsb' 12 7) (w.extractLsb' 3 9))
  else if w &&& 0xFC000007#32 = 0x60000000#32 then some (.ldf (w.extractLsb' 19 7) (w.extractLsb' 12 7) (w.extractLsb' 3 9))
  else if w &&& 0xFC000007#32 = 0x60000001#32 then some (.stf (w.extractLsb' 19 7) (w.extractLsb' 12 7) (w.extractLsb' 3 9))
  else if w &&& 0xFC000007#32 = 0x60000002#32 then some (.ldff (w.extractLsb' 19 7) (w.extractLsb' 12 7) (w.extractLsb' 3 9))
  else none

/-- Major 0x19 (10 R186). -/
def decodeMajor19 (w : BitVec 32) : Option Instr :=
  if w &&& 0xFC000007#32 = 0x64000000#32 then some (.amoSwap (w.extractLsb' 19 7) (w.extractLsb' 12 7) (w.extractLsb' 5 7) (bit w 4) (bit w 3))
  else if w &&& 0xFC000007#32 = 0x64000001#32 then some (.amoAdd (w.extractLsb' 19 7) (w.extractLsb' 12 7) (w.extractLsb' 5 7) (bit w 4) (bit w 3))
  else if w &&& 0xFC000007#32 = 0x64000002#32 then some (.amoAnd (w.extractLsb' 19 7) (w.extractLsb' 12 7) (w.extractLsb' 5 7) (bit w 4) (bit w 3))
  else if w &&& 0xFC000007#32 = 0x64000003#32 then some (.amoOr (w.extractLsb' 19 7) (w.extractLsb' 12 7) (w.extractLsb' 5 7) (bit w 4) (bit w 3))
  else if w &&& 0xFC000007#32 = 0x64000004#32 then some (.amoXor (w.extractLsb' 19 7) (w.extractLsb' 12 7) (w.extractLsb' 5 7) (bit w 4) (bit w 3))
  else if w &&& 0xFC000007#32 = 0x64000005#32 then some (.amoMin (w.extractLsb' 19 7) (w.extractLsb' 12 7) (w.extractLsb' 5 7) (bit w 4) (bit w 3))
  else if w &&& 0xFC000007#32 = 0x64000006#32 then some (.amoMax (w.extractLsb' 19 7) (w.extractLsb' 12 7) (w.extractLsb' 5 7) (bit w 4) (bit w 3))
  else if w &&& 0xFC000007#32 = 0x64000007#32 then some (.amoMinu (w.extractLsb' 19 7) (w.extractLsb' 12 7) (w.extractLsb' 5 7) (bit w 4) (bit w 3))
  else none

/-- Major 0x1A (10 R186). -/
def decodeMajor1A (w : BitVec 32) : Option Instr :=
  if w &&& 0xFC000007#32 = 0x68000000#32 then some (.amoMaxu (w.extractLsb' 19 7) (w.extractLsb' 12 7) (w.extractLsb' 5 7) (bit w 4) (bit w 3))
  else if w &&& 0xFC000007#32 = 0x68000001#32 then some (.cas (w.extractLsb' 19 7) (w.extractLsb' 12 7) (w.extractLsb' 5 7) (bit w 4) (bit w 3))
  else if w &&& 0xFC000007#32 = 0x68000002#32 then some (.incw (w.extractLsb' 19 7) (w.extractLsb' 12 7) (w.extractLsb' 5 7) (bit w 4) (bit w 3))
  else if w &&& 0xFC000007#32 = 0x68000003#32 then some (.faddb (w.extractLsb' 19 7) (w.extractLsb' 12 7) (w.extractLsb' 5 7) (bit w 4) (bit w 3))
  else none

/-- Major 0x1B (10 R186). -/
def decodeMajor1B (w : BitVec 32) : Option Instr :=
  if w &&& 0xFFF80007#32 = 0x6C000000#32 then some (.redAdd (w.extractLsb' 12 7) (w.extractLsb' 5 7) (bit w 4) (bit w 3))
  else if w &&& 0xFFF80007#32 = 0x6C000001#32 then some (.redAnd (w.extractLsb' 12 7) (w.extractLsb' 5 7) (bit w 4) (bit w 3))
  else if w &&& 0xFFF80007#32 = 0x6C000002#32 then some (.redOr (w.extractLsb' 12 7) (w.extractLsb' 5 7) (bit w 4) (bit w 3))
  else if w &&& 0xFFF80007#32 = 0x6C000003#32 then some (.redXor (w.extractLsb' 12 7) (w.extractLsb' 5 7) (bit w 4) (bit w 3))
  else if w &&& 0xFFF80007#32 = 0x6C000004#32 then some (.redMin (w.extractLsb' 12 7) (w.extractLsb' 5 7) (bit w 4) (bit w 3))
  else if w &&& 0xFFF80007#32 = 0x6C000005#32 then some (.redMax (w.extractLsb' 12 7) (w.extractLsb' 5 7) (bit w 4) (bit w 3))
  else if w &&& 0xFFF80007#32 = 0x6C000006#32 then some (.redMinu (w.extractLsb' 12 7) (w.extractLsb' 5 7) (bit w 4) (bit w 3))
  else if w &&& 0xFFF80007#32 = 0x6C000007#32 then some (.redMaxu (w.extractLsb' 12 7) (w.extractLsb' 5 7) (bit w 4) (bit w 3))
  else none

/-- Major 0x1C (10 R186). -/
def decodeMajor1C (w : BitVec 32) : Option Instr :=
  if w &&& 0xFFF80FFF#32 = 0x70000000#32 then some (.fence (w.extractLsb' 12 7))
  else if w &&& 0xFFF80FEF#32 = 0x70000002#32 then some (.mdis (w.extractLsb' 12 7) (bit w 4))
  else if w &&& 0xFC000FEF#32 = 0x70000003#32 then some (.mwait (w.extractLsb' 19 7) (w.extractLsb' 12 7) (bit w 4))
  else if w &&& 0xFFF80007#32 = 0x70000001#32 then some (.marm (w.extractLsb' 12 7) (w.extractLsb' 5 7) (bit w 4) (bit w 3))
  else if w &&& 0xFFF80007#32 = 0x70000004#32 then some (.bari (w.extractLsb' 12 7) (w.extractLsb' 5 7) (bit w 4) (bit w 3))
  else if w &&& 0xFC000007#32 = 0x70000005#32 then some (.barv (w.extractLsb' 19 7) (w.extractLsb' 12 7) (w.extractLsb' 5 7) (bit w 4) (bit w 3))
  else if w &&& 0xFC000007#32 = 0x70000006#32 then some (.barw (w.extractLsb' 19 7) (w.extractLsb' 12 7) (w.extractLsb' 5 7) (bit w 4) (bit w 3))
  else none

/-- Major 0x1D (10 R186). -/
def decodeMajor1D (w : BitVec 32) : Option Instr :=
  if w &&& 0xFFFFFFFF#32 = 0x74000002#32 then some (.yield)
  else if w &&& 0xFFFFFFFF#32 = 0x74000003#32 then some (.done)
  else if w &&& 0xFFF80FEF#32 = 0x74000001#32 then some (.graft (w.extractLsb' 12 7) (bit w 4))
  else if w &&& 0xFFF80007#32 = 0x74000000#32 then some (.spawn (w.extractLsb' 12 7) (w.extractLsb' 5 7) (bit w 4) (bit w 3))
  else if w &&& 0xFC000007#32 = 0x74000004#32 then some (.wfld (w.extractLsb' 19 7) (w.extractLsb' 12 7) (w.extractLsb' 5 7) (bit w 4) (bit w 3))
  else none

/-- Major 0x1E (10 R186). -/
def decodeMajor1E (w : BitVec 32) : Option Instr :=
  if w &&& 0xFFFFFFFF#32 = 0x78000006#32 then some (.fend)
  else if w &&& 0xFC07FFFF#32 = 0x78000003#32 then some (.glbrd (w.extractLsb' 19 7))
  else if w &&& 0xFFF80FFF#32 = 0x78000005#32 then some (.furrow (w.extractLsb' 12 7))
  else if w &&& 0xFC000FEF#32 = 0x78000002#32 then some (.vtadv (w.extractLsb' 19 7) (w.extractLsb' 12 7) (bit w 4))
  else if w &&& 0xFC000007#32 = 0x78000000#32 then some (.send (w.extractLsb' 19 7) (w.extractLsb' 12 7) (w.extractLsb' 5 7) (bit w 4) (bit w 3))
  else if w &&& 0xFC000007#32 = 0x78000001#32 then some (.recv (w.extractLsb' 19 7) (w.extractLsb' 12 7) (w.extractLsb' 5 7) (bit w 4) (bit w 3))
  else if w &&& 0xFC000007#32 = 0x78000004#32 then some (.lcfg (w.extractLsb' 19 7) (w.extractLsb' 12 7) (w.extractLsb' 5 7) (bit w 4) (bit w 3))
  else none

/-- Major 0x1F (10 R186). -/
def decodeMajor1F (w : BitVec 32) : Option Instr :=
  if w &&& 0xFC000FEF#32 = 0x7C000004#32 then some (.fsqrt (w.extractLsb' 19 7) (w.extractLsb' 12 7) (bit w 4))
  else if w &&& 0xFC000007#32 = 0x7C000000#32 then some (.fadd (w.extractLsb' 19 7) (w.extractLsb' 12 7) (w.extractLsb' 5 7) (bit w 4) (bit w 3))
  else if w &&& 0xFC000007#32 = 0x7C000001#32 then some (.fsub (w.extractLsb' 19 7) (w.extractLsb' 12 7) (w.extractLsb' 5 7) (bit w 4) (bit w 3))
  else if w &&& 0xFC000007#32 = 0x7C000002#32 then some (.fmul (w.extractLsb' 19 7) (w.extractLsb' 12 7) (w.extractLsb' 5 7) (bit w 4) (bit w 3))
  else if w &&& 0xFC000007#32 = 0x7C000003#32 then some (.fdiv (w.extractLsb' 19 7) (w.extractLsb' 12 7) (w.extractLsb' 5 7) (bit w 4) (bit w 3))
  else if w &&& 0xFC000007#32 = 0x7C000005#32 then some (.fmin (w.extractLsb' 19 7) (w.extractLsb' 12 7) (w.extractLsb' 5 7) (bit w 4) (bit w 3))
  else if w &&& 0xFC000007#32 = 0x7C000006#32 then some (.fmax (w.extractLsb' 19 7) (w.extractLsb' 12 7) (w.extractLsb' 5 7) (bit w 4) (bit w 3))
  else none

/-- Major 0x20 (10 R186). -/
def decodeMajor20 (w : BitVec 32) : Option Instr :=
  if w &&& 0xFC000007#32 = 0x80000000#32 then some (.fmadd (w.extractLsb' 19 7) (w.extractLsb' 12 7) (w.extractLsb' 5 7) (bit w 4) (bit w 3))
  else if w &&& 0xFC000007#32 = 0x80000001#32 then some (.fmsub (w.extractLsb' 19 7) (w.extractLsb' 12 7) (w.extractLsb' 5 7) (bit w 4) (bit w 3))
  else if w &&& 0xFC000007#32 = 0x80000002#32 then some (.fnmadd (w.extractLsb' 19 7) (w.extractLsb' 12 7) (w.extractLsb' 5 7) (bit w 4) (bit w 3))
  else if w &&& 0xFC000007#32 = 0x80000003#32 then some (.fnmsub (w.extractLsb' 19 7) (w.extractLsb' 12 7) (w.extractLsb' 5 7) (bit w 4) (bit w 3))
  else none

/-- Major 0x21 (10 R186). -/
def decodeMajor21 (w : BitVec 32) : Option Instr :=
  if w &&& 0xFC000800#32 = 0x84000000#32 then some (.fcvt (w.extractLsb' 19 7) (w.extractLsb' 12 7) (w.extractLsb' 8 3) (w.extractLsb' 5 3) (w.extractLsb' 3 2) (w.extractLsb' 0 3))
  else none

/-- Major 0x22 (10 R186). -/
def decodeMajor22 (w : BitVec 32) : Option Instr :=
  if w &&& 0xFC000000#32 = 0x88000000#32 then some (.fsk (w.extractLsb' 19 7) (w.extractLsb' 12 7) (w.extractLsb' 8 4) (w.extractLsb' 6 2) (w.extractLsb' 2 4) (bit w 1) (bit w 0))
  else none

/-- Major 0x23 (10 R186). -/
def decodeMajor23 (w : BitVec 32) : Option Instr :=
  if w &&& 0xFC07FFFF#32 = 0x8C000001#32 then some (.ffrd (w.extractLsb' 19 7))
  else if w &&& 0xFC07FFFF#32 = 0x8C000004#32 then some (.frmrd (w.extractLsb' 19 7))
  else if w &&& 0xFC000FEF#32 = 0x8C000000#32 then some (.fclass (w.extractLsb' 19 7) (w.extractLsb' 12 7) (bit w 4))
  else if w &&& 0xFC000FEF#32 = 0x8C000002#32 then some (.ffclr (w.extractLsb' 19 7) (w.extractLsb' 12 7) (bit w 4))
  else if w &&& 0xFC000FEF#32 = 0x8C000003#32 then some (.frmset (w.extractLsb' 19 7) (w.extractLsb' 12 7) (bit w 4))
  else none

/-- Major 0x24 (10 R186). -/
def decodeMajor24 (w : BitVec 32) : Option Instr :=
  if w &&& 0xFC000007#32 = 0x90000000#32 then some (.shape (w.extractLsb' 19 7) (w.extractLsb' 12 7) (w.extractLsb' 5 7) (bit w 4) (bit w 3))
  else none

/-- Major 0x25 (10 R186). -/
def decodeMajor25 (w : BitVec 32) : Option Instr :=
  if w &&& 0xFC7E03E0#32 = 0x94000000#32 then some (.tld (w.extractLsb' 23 3) (w.extractLsb' 10 7) (w.extractLsb' 3 2) (w.extractLsb' 0 3))
  else if w &&& 0xFC7E03E0#32 = 0x94000040#32 then some (.tst (w.extractLsb' 23 3) (w.extractLsb' 10 7) (w.extractLsb' 3 2) (w.extractLsb' 0 3))
  else none

/-- Major 0x26 (10 R186). -/
def decodeMajor26 (w : BitVec 32) : Option Instr :=
  if w &&& 0xFC0FFFE0#32 = 0x98000200#32 then some (.tneg (w.extractLsb' 23 3) (w.extractLsb' 20 3) (bit w 4) (bit w 3) (w.extractLsb' 0 3))
  else if w &&& 0xFC0FFFE0#32 = 0x98000240#32 then some (.tabs (w.extractLsb' 23 3) (w.extractLsb' 20 3) (bit w 4) (bit w 3) (w.extractLsb' 0 3))
  else if w &&& 0xFC01FFF8#32 = 0x98000140#32 then some (.tand (w.extractLsb' 23 3) (w.extractLsb' 20 3) (w.extractLsb' 17 3) (w.extractLsb' 0 3))
  else if w &&& 0xFC01FFF8#32 = 0x98000180#32 then some (.tor (w.extractLsb' 23 3) (w.extractLsb' 20 3) (w.extractLsb' 17 3) (w.extractLsb' 0 3))
  else if w &&& 0xFC01FFF8#32 = 0x980001C0#32 then some (.txor (w.extractLsb' 23 3) (w.extractLsb' 20 3) (w.extractLsb' 17 3) (w.extractLsb' 0 3))
  else if w &&& 0xFC01FFE0#32 = 0x98000000#32 then some (.tadd (w.extractLsb' 23 3) (w.extractLsb' 20 3) (w.extractLsb' 17 3) (bit w 4) (bit w 3) (w.extractLsb' 0 3))
  else if w &&& 0xFC01FFE0#32 = 0x98000040#32 then some (.tsub (w.extractLsb' 23 3) (w.extractLsb' 20 3) (w.extractLsb' 17 3) (bit w 4) (bit w 3) (w.extractLsb' 0 3))
  else if w &&& 0xFC01FFE0#32 = 0x98000080#32 then some (.tmul (w.extractLsb' 23 3) (w.extractLsb' 20 3) (w.extractLsb' 17 3) (bit w 4) (bit w 3) (w.extractLsb' 0 3))
  else if w &&& 0xFC01FFE0#32 = 0x980000C0#32 then some (.tmin (w.extractLsb' 23 3) (w.extractLsb' 20 3) (w.extractLsb' 17 3) (bit w 4) (bit w 3) (w.extractLsb' 0 3))
  else if w &&& 0xFC01FFE0#32 = 0x98000100#32 then some (.tmax (w.extractLsb' 23 3) (w.extractLsb' 20 3) (w.extractLsb' 17 3) (bit w 4) (bit w 3) (w.extractLsb' 0 3))
  else none

/-- Major 0x27 (10 R186). -/
def decodeMajor27 (w : BitVec 32) : Option Instr :=
  if w &&& 0xFC01FFE0#32 = 0x9C000000#32 then some (.tfma (w.extractLsb' 23 3) (w.extractLsb' 20 3) (w.extractLsb' 17 3) (bit w 4) (bit w 3) (w.extractLsb' 0 3))
  else if w &&& 0xFC01FFE0#32 = 0x9C000040#32 then some (.tfms (w.extractLsb' 23 3) (w.extractLsb' 20 3) (w.extractLsb' 17 3) (bit w 4) (bit w 3) (w.extractLsb' 0 3))
  else if w &&& 0xFC01FFE0#32 = 0x9C000080#32 then some (.tfnma (w.extractLsb' 23 3) (w.extractLsb' 20 3) (w.extractLsb' 17 3) (bit w 4) (bit w 3) (w.extractLsb' 0 3))
  else if w &&& 0xFC01FFE0#32 = 0x9C0000C0#32 then some (.tfnms (w.extractLsb' 23 3) (w.extractLsb' 20 3) (w.extractLsb' 17 3) (bit w 4) (bit w 3) (w.extractLsb' 0 3))
  else none

/-- Major 0x28 (10 R186). -/
def decodeMajor28 (w : BitVec 32) : Option Instr :=
  if w &&& 0xFC0E03C0#32 = 0xA0000000#32 then some (.tcvt (w.extractLsb' 23 3) (w.extractLsb' 20 3) (w.extractLsb' 10 7) (w.extractLsb' 3 3) (w.extractLsb' 0 3))
  else none

/-- Major 0x29 (10 R186). -/
def decodeMajor29 (w : BitVec 32) : Option Instr :=
  if w &&& 0xFC0FFFC0#32 = 0xA4000000#32 then some (.trsum (w.extractLsb' 23 3) (w.extractLsb' 20 3) (bit w 5) (bit w 4) (bit w 3) (w.extractLsb' 0 3))
  else if w &&& 0xFC0FFFC0#32 = 0xA4000040#32 then some (.trmax (w.extractLsb' 23 3) (w.extractLsb' 20 3) (bit w 5) (bit w 4) (bit w 3) (w.extractLsb' 0 3))
  else if w &&& 0xFC0FFFC0#32 = 0xA4000080#32 then some (.trmin (w.extractLsb' 23 3) (w.extractLsb' 20 3) (bit w 5) (bit w 4) (bit w 3) (w.extractLsb' 0 3))
  else if w &&& 0xFC7E03F8#32 = 0xA40000C0#32 then some (.tbcs (w.extractLsb' 23 3) (w.extractLsb' 10 7) (w.extractLsb' 0 3))
  else if w &&& 0xFC0E03F8#32 = 0xA4000100#32 then some (.tbrow (w.extractLsb' 23 3) (w.extractLsb' 20 3) (w.extractLsb' 10 7) (w.extractLsb' 0 3))
  else if w &&& 0xFC0E03F8#32 = 0xA4000140#32 then some (.tbcol (w.extractLsb' 23 3) (w.extractLsb' 20 3) (w.extractLsb' 10 7) (w.extractLsb' 0 3))
  else none

/-- Major 0x2A (10 R186). -/
def decodeMajor2A (w : BitVec 32) : Option Instr :=
  if w &&& 0xFC0FFFF8#32 = 0xA8000000#32 then some (.ttrn (w.extractLsb' 23 3) (w.extractLsb' 20 3) (w.extractLsb' 0 3))
  else if w &&& 0xFC01FFF8#32 = 0xA8000040#32 then some (.tshuf (w.extractLsb' 23 3) (w.extractLsb' 20 3) (w.extractLsb' 17 3) (w.extractLsb' 0 3))
  else if w &&& 0xFC0E03F8#32 = 0xA8000080#32 then some (.trot (w.extractLsb' 23 3) (w.extractLsb' 20 3) (w.extractLsb' 10 7) (w.extractLsb' 0 3))
  else none

/-- Major 0x2B (10 R186). -/
def decodeMajor2B (w : BitVec 32) : Option Instr :=
  if w &&& 0xFC0FFFF8#32 = 0xAC000000#32 then some (.tmov (w.extractLsb' 23 3) (w.extractLsb' 20 3) (w.extractLsb' 0 3))
  else if w &&& 0xFC01FFF8#32 = 0xAC000040#32 then some (.tsel (w.extractLsb' 23 3) (w.extractLsb' 20 3) (w.extractLsb' 17 3) (w.extractLsb' 0 3))
  else if w &&& 0xFF8E03F8#32 = 0xAC000080#32 then some (.tget (w.extractLsb' 20 3) (w.extractLsb' 10 7) (w.extractLsb' 0 3))
  else if w &&& 0xFC7E03F8#32 = 0xAC0000C0#32 then some (.tset (w.extractLsb' 23 3) (w.extractLsb' 10 7) (w.extractLsb' 0 3))
  else none

/-- Major 0x2C (10 R186). -/
def decodeMajor2C (w : BitVec 32) : Option Instr :=
  if w &&& 0xFFF80007#32 = 0xB0000000#32 then some (.mma (w.extractLsb' 12 7) (w.extractLsb' 5 7) (bit w 4) (bit w 3))
  else none

/-- Major 0x2D (10 R186). -/
def decodeMajor2D (w : BitVec 32) : Option Instr :=
  if w &&& 0xFFF80FEF#32 = 0xB4000000#32 then some (.azero (w.extractLsb' 12 7) (bit w 4))
  else if w &&& 0xFFF80FEF#32 = 0xB4000001#32 then some (.awr (w.extractLsb' 12 7) (bit w 4))
  else if w &&& 0xFFF80FEF#32 = 0xB4000002#32 then some (.ard (w.extractLsb' 12 7) (bit w 4))
  else if w &&& 0xFFF80FE7#32 = 0xB4000003#32 then some (.achk (w.extractLsb' 12 7) (bit w 4) (bit w 3))
  else none

/-- Major 0x2E (10 R186). -/
def decodeMajor2E (w : BitVec 32) : Option Instr :=
  if w &&& 0xFC000FEF#32 = 0xB8000000#32 then some (.tilemm (w.extractLsb' 19 7) (w.extractLsb' 12 7) (bit w 4))
  else none

/-- Major 0x2F (10 R186). -/
def decodeMajor2F (w : BitVec 32) : Option Instr :=
  if w &&& 0xFFF80FEF#32 = 0xBC000000#32 then some (.bsum (w.extractLsb' 12 7) (bit w 4))
  else if w &&& 0xFC000FEF#32 = 0xBC000002#32 then some (.xrnd (w.extractLsb' 19 7) (w.extractLsb' 12 7) (bit w 4))
  else if w &&& 0xFC000FEF#32 = 0xBC000003#32 then some (.xclr (w.extractLsb' 19 7) (w.extractLsb' 12 7) (bit w 4))
  else if w &&& 0xFFF80007#32 = 0xBC000001#32 then some (.xred (w.extractLsb' 12 7) (w.extractLsb' 5 7) (bit w 4) (bit w 3))
  else none

/-- Major 0x30 (10 R186). -/
def decodeMajor30 (w : BitVec 32) : Option Instr :=
  if w &&& 0xFC000FEF#32 = 0xC0000000#32 then some (.cpy (w.extractLsb' 19 7) (w.extractLsb' 12 7) (bit w 4))
  else none

/-- Major 0x31 (10 R186). -/
def decodeMajor31 (w : BitVec 32) : Option Instr :=
  if w &&& 0xFFF80F1F#32 = 0xC4000000#32 then some (.publ (w.extractLsb' 12 7) (w.extractLsb' 5 3))
  else if w &&& 0xFFF80007#32 = 0xC4000001#32 then some (.chain (w.extractLsb' 12 7) (w.extractLsb' 5 7) (bit w 4) (bit w 3))
  else none

/-- Major 0x32 (10 R186). -/
def decodeMajor32 (w : BitVec 32) : Option Instr :=
  if w &&& 0xFC000FEF#32 = 0xC8000000#32 then some (.nbmv (w.extractLsb' 19 7) (w.extractLsb' 12 7) (bit w 4))
  else none

/-- Major 0x33 (10 R186). -/
def decodeMajor33 (w : BitVec 32) : Option Instr :=
  if w &&& 0xFC000FE7#32 = 0xCC000000#32 then some (.estat (w.extractLsb' 19 7) (w.extractLsb' 12 7) (bit w 4) (bit w 3))
  else none

/-- Major 0x34 (10 R186). -/
def decodeMajor34 (w : BitVec 32) : Option Instr :=
  if w &&& 0xFFF80007#32 = 0xD0000000#32 then some (.patch (w.extractLsb' 12 7) (w.extractLsb' 5 7) (bit w 4) (bit w 3))
  else if w &&& 0xFFF80007#32 = 0xD0000001#32 then some (.rsave (w.extractLsb' 12 7) (w.extractLsb' 5 7) (bit w 4) (bit w 3))
  else if w &&& 0xFFF80007#32 = 0xD0000002#32 then some (.rload (w.extractLsb' 12 7) (w.extractLsb' 5 7) (bit w 4) (bit w 3))
  else none

/-- Major 0x35 (10 R186). -/
def decodeMajor35 (w : BitVec 32) : Option Instr :=
  if w &&& 0xFFF80FEF#32 = 0xD4000001#32 then some (.dstart (w.extractLsb' 12 7) (bit w 4))
  else if w &&& 0xFFF80FEF#32 = 0xD4000002#32 then some (.dhalt (w.extractLsb' 12 7) (bit w 4))
  else if w &&& 0xFC000007#32 = 0xD4000000#32 then some (.dcfg (w.extractLsb' 19 7) (w.extractLsb' 12 7) (w.extractLsb' 5 7) (bit w 4) (bit w 3))
  else none

/-- Major 0x36 (10 R186). -/
def decodeMajor36 (w : BitVec 32) : Option Instr :=
  if w &&& 0xFFF80007#32 = 0xD8000000#32 then some (.din (w.extractLsb' 12 7) (w.extractLsb' 5 7) (bit w 4) (bit w 3))
  else if w &&& 0xFC000007#32 = 0xD8000001#32 then some (.dtap (w.extractLsb' 19 7) (w.extractLsb' 12 7) (w.extractLsb' 5 7) (bit w 4) (bit w 3))
  else if w &&& 0xFC000007#32 = 0xD8000002#32 then some (.dport (w.extractLsb' 19 7) (w.extractLsb' 12 7) (w.extractLsb' 5 7) (bit w 4) (bit w 3))
  else none

/-- Major 0x37 (10 R186). -/
def decodeMajor37 (w : BitVec 32) : Option Instr :=
  if w &&& 0xFC000007#32 = 0xDC000000#32 then some (.pack6 (w.extractLsb' 19 7) (w.extractLsb' 12 7) (w.extractLsb' 5 7) (bit w 4) (bit w 3))
  else if w &&& 0xFC000007#32 = 0xDC000001#32 then some (.unpk6 (w.extractLsb' 19 7) (w.extractLsb' 12 7) (w.extractLsb' 5 7) (bit w 4) (bit w 3))
  else if w &&& 0xFC000007#32 = 0xDC000002#32 then some (.pack4 (w.extractLsb' 19 7) (w.extractLsb' 12 7) (w.extractLsb' 5 7) (bit w 4) (bit w 3))
  else if w &&& 0xFC000007#32 = 0xDC000003#32 then some (.unpk4 (w.extractLsb' 19 7) (w.extractLsb' 12 7) (w.extractLsb' 5 7) (bit w 4) (bit w 3))
  else if w &&& 0xFC000007#32 = 0xDC000004#32 then some (.lgenc (w.extractLsb' 19 7) (w.extractLsb' 12 7) (w.extractLsb' 5 7) (bit w 4) (bit w 3))
  else if w &&& 0xFC000007#32 = 0xDC000005#32 then some (.lgdec (w.extractLsb' 19 7) (w.extractLsb' 12 7) (w.extractLsb' 5 7) (bit w 4) (bit w 3))
  else none

/-- Major 0x38 (10 R186). -/
def decodeMajor38 (w : BitVec 32) : Option Instr :=
  if w &&& 0xFC07FC00#32 = 0xE0000000#32 then some (.crrd (w.extractLsb' 19 7) (w.extractLsb' 0 10))
  else if w &&& 0xFFF80C00#32 = 0xE0000400#32 then some (.crwr (w.extractLsb' 12 7) (w.extractLsb' 0 10))
  else if w &&& 0xFC000C00#32 = 0xE0000800#32 then some (.crset (w.extractLsb' 19 7) (w.extractLsb' 12 7) (w.extractLsb' 0 10))
  else if w &&& 0xFC000C00#32 = 0xE0000C00#32 then some (.crclr (w.extractLsb' 19 7) (w.extractLsb' 12 7) (w.extractLsb' 0 10))
  else none

/-- Major 0x39 (10 R186). -/
def decodeMajor39 (w : BitVec 32) : Option Instr :=
  if w &&& 0xFFFFFFFF#32 = 0xE4000003#32 then some (.eret)
  else if w &&& 0xFFFFFFFF#32 = 0xE4000004#32 then some (.uiret)
  else if w &&& 0xFFF80FEF#32 = 0xE4000000#32 then some (.trap (w.extractLsb' 12 7) (bit w 4))
  else if w &&& 0xFFF80FEF#32 = 0xE4000001#32 then some (.scall (w.extractLsb' 12 7) (bit w 4))
  else if w &&& 0xFFF80FEF#32 = 0xE4000002#32 then some (.hcall (w.extractLsb' 12 7) (bit w 4))
  else none

/-- Major 0x3A (10 R186). -/
def decodeMajor3A (w : BitVec 32) : Option Instr :=
  if w &&& 0xFC000FEF#32 = 0xE8000001#32 then some (.segrd (w.extractLsb' 19 7) (w.extractLsb' 12 7) (bit w 4))
  else if w &&& 0xFFF80007#32 = 0xE8000000#32 then some (.segld (w.extractLsb' 12 7) (w.extractLsb' 5 7) (bit w 4) (bit w 3))
  else if w &&& 0xFFF80007#32 = 0xE8000002#32 then some (.shoot (w.extractLsb' 12 7) (w.extractLsb' 5 7) (bit w 4) (bit w 3))
  else none

/-- Major 0x3B (10 R186). -/
def decodeMajor3B (w : BitVec 32) : Option Instr :=
  if w &&& 0xFC000FEF#32 = 0xEC000000#32 then some (.bist (w.extractLsb' 19 7) (w.extractLsb' 12 7) (bit w 4))
  else if w &&& 0xFC000FEF#32 = 0xEC000001#32 then some (.ecrd (w.extractLsb' 19 7) (w.extractLsb' 12 7) (bit w 4))
  else if w &&& 0xFC000007#32 = 0xEC000002#32 then some (.eccfg (w.extractLsb' 19 7) (w.extractLsb' 12 7) (w.extractLsb' 5 7) (bit w 4) (bit w 3))
  else none

/-- Major 0x3F (10 R186). -/
def decodeMajor3F (w : BitVec 32) : Option Instr :=
  if w &&& 0xFFFFFFFF#32 = 0xFC000000#32 then some (.nop)
  else if w &&& 0xFFFFFFE0#32 = 0xFC800000#32 then some (.rlx (w.extractLsb' 2 3) (w.extractLsb' 0 2))
  else if w &&& 0xFFC00000#32 = 0xFC400000#32 then some (.imm (w.extractLsb' 0 22))
  else if w &&& 0xFFC00000#32 = 0xFCC00000#32 then some (.sched (w.extractLsb' 0 22))
  else none

/-- The instruction of a word, or why there is none. -/
def decode (w : BitVec 32) : Except Reject Instr :=
  let major := (w.extractLsb' 26 6).toNat
  let found (i : Option Instr) : Except Reject Instr := match i with
    | some i => .ok i
    | none => .error (.unassigned major)
  match major with
  | 1 => found (decodeMajor01 w)
  | 2 => found (decodeMajor02 w)
  | 3 => found (decodeMajor03 w)
  | 4 => found (decodeMajor04 w)
  | 5 => found (decodeMajor05 w)
  | 6 => found (decodeMajor06 w)
  | 7 => found (decodeMajor07 w)
  | 8 => found (decodeMajor08 w)
  | 9 => found (decodeMajor09 w)
  | 10 => found (decodeMajor0A w)
  | 11 => found (decodeMajor0B w)
  | 12 => found (decodeMajor0C w)
  | 13 => found (decodeMajor0D w)
  | 14 => found (decodeMajor0E w)
  | 15 => found (decodeMajor0F w)
  | 16 => found (decodeMajor10 w)
  | 17 => found (decodeMajor11 w)
  | 18 => found (decodeMajor12 w)
  | 19 => found (decodeMajor13 w)
  | 20 => found (decodeMajor14 w)
  | 21 => found (decodeMajor15 w)
  | 22 => found (decodeMajor16 w)
  | 23 => found (decodeMajor17 w)
  | 24 => found (decodeMajor18 w)
  | 25 => found (decodeMajor19 w)
  | 26 => found (decodeMajor1A w)
  | 27 => found (decodeMajor1B w)
  | 28 => found (decodeMajor1C w)
  | 29 => found (decodeMajor1D w)
  | 30 => found (decodeMajor1E w)
  | 31 => found (decodeMajor1F w)
  | 32 => found (decodeMajor20 w)
  | 33 => found (decodeMajor21 w)
  | 34 => found (decodeMajor22 w)
  | 35 => found (decodeMajor23 w)
  | 36 => found (decodeMajor24 w)
  | 37 => found (decodeMajor25 w)
  | 38 => found (decodeMajor26 w)
  | 39 => found (decodeMajor27 w)
  | 40 => found (decodeMajor28 w)
  | 41 => found (decodeMajor29 w)
  | 42 => found (decodeMajor2A w)
  | 43 => found (decodeMajor2B w)
  | 44 => found (decodeMajor2C w)
  | 45 => found (decodeMajor2D w)
  | 46 => found (decodeMajor2E w)
  | 47 => found (decodeMajor2F w)
  | 48 => found (decodeMajor30 w)
  | 49 => found (decodeMajor31 w)
  | 50 => found (decodeMajor32 w)
  | 51 => found (decodeMajor33 w)
  | 52 => found (decodeMajor34 w)
  | 53 => found (decodeMajor35 w)
  | 54 => found (decodeMajor36 w)
  | 55 => found (decodeMajor37 w)
  | 56 => found (decodeMajor38 w)
  | 57 => found (decodeMajor39 w)
  | 58 => found (decodeMajor3A w)
  | 59 => found (decodeMajor3B w)
  | 63 => found (decodeMajor3F w)
  | _ => .error (.reservedMajor major)

/-- The word of four bytes, little-endian (10 R178). -/
def wordOf (b0 b1 b2 b3 : Byte) : BitVec 32 := b3 ++ b2 ++ b1 ++ b0

/-- The bytes of a word as the code window holds them (10 R178). -/
def bytesOf (w : BitVec 32) : List Byte :=
  [w.extractLsb' 0 8, w.extractLsb' 8 8, w.extractLsb' 16 8, w.extractLsb' 24 8]

/-- The instruction at the start of a list of bytes and the bytes after it, or why there is none. -/
def decodeBytes : List Byte → Except Reject (Instr × List Byte)
  | b0 :: b1 :: b2 :: b3 :: rest =>
    match decode (wordOf b0 b1 b2 b3) with
    | .ok i => .ok (i, rest)
    | .error r => .error r
  | _ => .error .short

/-- The instruction that the decoder reads from an instruction whose bits are w, numbered as spec/opcode_table.json numbers
them; every instruction has 32 bits. -/
def decodeTableWord (_nbits w : Nat) : Option Instr :=
  match decodeBytes (bytesOf (BitVec.ofNat 32 w)) with
  | .ok (i, _) => some i
  | .error _ => none

/-- A field put at its lowest bit in a word. -/
def putField {n : Nat} (x : BitVec n) (lo : Nat) : BitVec 32 := x.setWidth 32 <<< lo

/-- The word of an instruction, field by field as 10 R179 lays the formats out; none for an event, which has no word. -/
def encode : Instr → Option (BitVec 32)
  | .add d a b x y => some (0x04000000#32 ||| putField d 19 ||| putField a 12 ||| putField b 5 ||| putField (BitVec.ofBool x) 4 ||| putField (BitVec.ofBool y) 3)
  | .sub d a b x y => some (0x04000001#32 ||| putField d 19 ||| putField a 12 ||| putField b 5 ||| putField (BitVec.ofBool x) 4 ||| putField (BitVec.ofBool y) 3)
  | .addc d a b x y => some (0x04000002#32 ||| putField d 19 ||| putField a 12 ||| putField b 5 ||| putField (BitVec.ofBool x) 4 ||| putField (BitVec.ofBool y) 3)
  | .subb d a b x y => some (0x04000003#32 ||| putField d 19 ||| putField a 12 ||| putField b 5 ||| putField (BitVec.ofBool x) 4 ||| putField (BitVec.ofBool y) 3)
  | .and d a b x y => some (0x04000004#32 ||| putField d 19 ||| putField a 12 ||| putField b 5 ||| putField (BitVec.ofBool x) 4 ||| putField (BitVec.ofBool y) 3)
  | .or d a b x y => some (0x04000005#32 ||| putField d 19 ||| putField a 12 ||| putField b 5 ||| putField (BitVec.ofBool x) 4 ||| putField (BitVec.ofBool y) 3)
  | .xor d a b x y => some (0x04000006#32 ||| putField d 19 ||| putField a 12 ||| putField b 5 ||| putField (BitVec.ofBool x) 4 ||| putField (BitVec.ofBool y) 3)
  | .andn d a b x y => some (0x04000007#32 ||| putField d 19 ||| putField a 12 ||| putField b 5 ||| putField (BitVec.ofBool x) 4 ||| putField (BitVec.ofBool y) 3)
  | .sll d a b x y => some (0x08000000#32 ||| putField d 19 ||| putField a 12 ||| putField b 5 ||| putField (BitVec.ofBool x) 4 ||| putField (BitVec.ofBool y) 3)
  | .srl d a b x y => some (0x08000001#32 ||| putField d 19 ||| putField a 12 ||| putField b 5 ||| putField (BitVec.ofBool x) 4 ||| putField (BitVec.ofBool y) 3)
  | .sra d a b x y => some (0x08000002#32 ||| putField d 19 ||| putField a 12 ||| putField b 5 ||| putField (BitVec.ofBool x) 4 ||| putField (BitVec.ofBool y) 3)
  | .rol d a b x y => some (0x08000003#32 ||| putField d 19 ||| putField a 12 ||| putField b 5 ||| putField (BitVec.ofBool x) 4 ||| putField (BitVec.ofBool y) 3)
  | .ror d a b x y => some (0x08000004#32 ||| putField d 19 ||| putField a 12 ||| putField b 5 ||| putField (BitVec.ofBool x) 4 ||| putField (BitVec.ofBool y) 3)
  | .mul d a b x y => some (0x0C000000#32 ||| putField d 19 ||| putField a 12 ||| putField b 5 ||| putField (BitVec.ofBool x) 4 ||| putField (BitVec.ofBool y) 3)
  | .mulh d a b x y => some (0x0C000001#32 ||| putField d 19 ||| putField a 12 ||| putField b 5 ||| putField (BitVec.ofBool x) 4 ||| putField (BitVec.ofBool y) 3)
  | .mulhu d a b x y => some (0x0C000002#32 ||| putField d 19 ||| putField a 12 ||| putField b 5 ||| putField (BitVec.ofBool x) 4 ||| putField (BitVec.ofBool y) 3)
  | .mulhsu d a b x y => some (0x0C000003#32 ||| putField d 19 ||| putField a 12 ||| putField b 5 ||| putField (BitVec.ofBool x) 4 ||| putField (BitVec.ofBool y) 3)
  | .div d a b x y => some (0x0C000004#32 ||| putField d 19 ||| putField a 12 ||| putField b 5 ||| putField (BitVec.ofBool x) 4 ||| putField (BitVec.ofBool y) 3)
  | .divu d a b x y => some (0x0C000005#32 ||| putField d 19 ||| putField a 12 ||| putField b 5 ||| putField (BitVec.ofBool x) 4 ||| putField (BitVec.ofBool y) 3)
  | .rem d a b x y => some (0x0C000006#32 ||| putField d 19 ||| putField a 12 ||| putField b 5 ||| putField (BitVec.ofBool x) 4 ||| putField (BitVec.ofBool y) 3)
  | .remu d a b x y => some (0x0C000007#32 ||| putField d 19 ||| putField a 12 ||| putField b 5 ||| putField (BitVec.ofBool x) 4 ||| putField (BitVec.ofBool y) 3)
  | .min d a b x y => some (0x10000000#32 ||| putField d 19 ||| putField a 12 ||| putField b 5 ||| putField (BitVec.ofBool x) 4 ||| putField (BitVec.ofBool y) 3)
  | .max d a b x y => some (0x10000001#32 ||| putField d 19 ||| putField a 12 ||| putField b 5 ||| putField (BitVec.ofBool x) 4 ||| putField (BitVec.ofBool y) 3)
  | .minu d a b x y => some (0x10000002#32 ||| putField d 19 ||| putField a 12 ||| putField b 5 ||| putField (BitVec.ofBool x) 4 ||| putField (BitVec.ofBool y) 3)
  | .maxu d a b x y => some (0x10000003#32 ||| putField d 19 ||| putField a 12 ||| putField b 5 ||| putField (BitVec.ofBool x) 4 ||| putField (BitVec.ofBool y) 3)
  | .clz d a x => some (0x10000004#32 ||| putField d 19 ||| putField a 12 ||| putField (BitVec.ofBool x) 4)
  | .ctz d a x => some (0x10000005#32 ||| putField d 19 ||| putField a 12 ||| putField (BitVec.ofBool x) 4)
  | .popc d a x => some (0x10000006#32 ||| putField d 19 ||| putField a 12 ||| putField (BitVec.ofBool x) 4)
  | .exts d a b x y => some (0x14000000#32 ||| putField d 19 ||| putField a 12 ||| putField b 5 ||| putField (BitVec.ofBool x) 4 ||| putField (BitVec.ofBool y) 3)
  | .extz d a b x y => some (0x14000001#32 ||| putField d 19 ||| putField a 12 ||| putField b 5 ||| putField (BitVec.ofBool x) 4 ||| putField (BitVec.ofBool y) 3)
  | .bswap d a x => some (0x14000002#32 ||| putField d 19 ||| putField a 12 ||| putField (BitVec.ofBool x) 4)
  | .cmov d a b x y => some (0x14000003#32 ||| putField d 19 ||| putField a 12 ||| putField b 5 ||| putField (BitVec.ofBool x) 4 ||| putField (BitVec.ofBool y) 3)
  | .pwset d a b x y => some (0x14000004#32 ||| putField d 19 ||| putField a 12 ||| putField b 5 ||| putField (BitVec.ofBool x) 4 ||| putField (BitVec.ofBool y) 3)
  | .addi d a i => some (0x18000000#32 ||| putField d 19 ||| putField a 12 ||| putField i 0)
  | .andi d a i => some (0x1C000000#32 ||| putField d 19 ||| putField a 12 ||| putField i 0)
  | .ori d a i => some (0x20000000#32 ||| putField d 19 ||| putField a 12 ||| putField i 0)
  | .xori d a i => some (0x24000000#32 ||| putField d 19 ||| putField a 12 ||| putField i 0)
  | .slli d a n => some (0x28000000#32 ||| putField d 19 ||| putField a 12 ||| putField n 0)
  | .srli d a n => some (0x28000040#32 ||| putField d 19 ||| putField a 12 ||| putField n 0)
  | .srai d a n => some (0x28000080#32 ||| putField d 19 ||| putField a 12 ||| putField n 0)
  | .rori d a n => some (0x280000C0#32 ||| putField d 19 ||| putField a 12 ||| putField n 0)
  | .muli d a i => some (0x2C000000#32 ||| putField d 19 ||| putField a 12 ||| putField i 0)
  | .ldi d i => some (0x30000000#32 ||| putField d 19 ||| putField i 0)
  | .ldih d i => some (0x34000000#32 ||| putField d 19 ||| putField i 0)
  | .sk a b c k p x y => some (0x38000000#32 ||| putField a 19 ||| putField b 12 ||| putField c 8 ||| putField k 6 ||| putField p 2 ||| putField (BitVec.ofBool x) 1 ||| putField (BitVec.ofBool y) 0)
  | .ski a i c k x => some (0x3C000000#32 ||| putField a 19 ||| putField i 7 ||| putField c 3 ||| putField k 1 ||| putField (BitVec.ofBool x) 0)
  | .br i => some (0x40000000#32 ||| putField i 0)
  | .call i => some (0x44000000#32 ||| putField i 0)
  | .brp s n i => some (0x48000000#32 ||| putField (BitVec.ofBool s) 25 ||| putField n 21 ||| putField i 0)
  | .jr d a x => some (0x4C000000#32 ||| putField d 19 ||| putField a 12 ||| putField (BitVec.ofBool x) 4)
  | .ret => some (0x4C000001#32)
  | .loop q r a o => some (0x50000000#32 ||| putField q 23 ||| putField r 20 ||| putField a 12 ||| putField o 0)
  | .ldOrd d b i s => some (0x54000000#32 ||| putField d 19 ||| putField b 12 ||| putField i 3 ||| putField s 0)
  | .iend => some (0x54000007#32)
  | .ileave => some (0x54080007#32)
  | .ld d b i s => some (0x58000000#32 ||| putField d 19 ||| putField b 12 ||| putField i 3 ||| putField s 0)
  | .st d b i s => some (0x5C000000#32 ||| putField d 19 ||| putField b 12 ||| putField i 3 ||| putField s 1)
  | .ldf d b i => some (0x60000000#32 ||| putField d 19 ||| putField b 12 ||| putField i 3)
  | .stf d b i => some (0x60000001#32 ||| putField d 19 ||| putField b 12 ||| putField i 3)
  | .ldff d b i => some (0x60000002#32 ||| putField d 19 ||| putField b 12 ||| putField i 3)
  | .purge b i => some (0x60000003#32 ||| putField b 12 ||| putField i 3)
  | .amoSwap d a b x y => some (0x64000000#32 ||| putField d 19 ||| putField a 12 ||| putField b 5 ||| putField (BitVec.ofBool x) 4 ||| putField (BitVec.ofBool y) 3)
  | .amoAdd d a b x y => some (0x64000001#32 ||| putField d 19 ||| putField a 12 ||| putField b 5 ||| putField (BitVec.ofBool x) 4 ||| putField (BitVec.ofBool y) 3)
  | .amoAnd d a b x y => some (0x64000002#32 ||| putField d 19 ||| putField a 12 ||| putField b 5 ||| putField (BitVec.ofBool x) 4 ||| putField (BitVec.ofBool y) 3)
  | .amoOr d a b x y => some (0x64000003#32 ||| putField d 19 ||| putField a 12 ||| putField b 5 ||| putField (BitVec.ofBool x) 4 ||| putField (BitVec.ofBool y) 3)
  | .amoXor d a b x y => some (0x64000004#32 ||| putField d 19 ||| putField a 12 ||| putField b 5 ||| putField (BitVec.ofBool x) 4 ||| putField (BitVec.ofBool y) 3)
  | .amoMin d a b x y => some (0x64000005#32 ||| putField d 19 ||| putField a 12 ||| putField b 5 ||| putField (BitVec.ofBool x) 4 ||| putField (BitVec.ofBool y) 3)
  | .amoMax d a b x y => some (0x64000006#32 ||| putField d 19 ||| putField a 12 ||| putField b 5 ||| putField (BitVec.ofBool x) 4 ||| putField (BitVec.ofBool y) 3)
  | .amoMinu d a b x y => some (0x64000007#32 ||| putField d 19 ||| putField a 12 ||| putField b 5 ||| putField (BitVec.ofBool x) 4 ||| putField (BitVec.ofBool y) 3)
  | .amoMaxu d a b x y => some (0x68000000#32 ||| putField d 19 ||| putField a 12 ||| putField b 5 ||| putField (BitVec.ofBool x) 4 ||| putField (BitVec.ofBool y) 3)
  | .cas d a b x y => some (0x68000001#32 ||| putField d 19 ||| putField a 12 ||| putField b 5 ||| putField (BitVec.ofBool x) 4 ||| putField (BitVec.ofBool y) 3)
  | .incw d a b x y => some (0x68000002#32 ||| putField d 19 ||| putField a 12 ||| putField b 5 ||| putField (BitVec.ofBool x) 4 ||| putField (BitVec.ofBool y) 3)
  | .faddb d a b x y => some (0x68000003#32 ||| putField d 19 ||| putField a 12 ||| putField b 5 ||| putField (BitVec.ofBool x) 4 ||| putField (BitVec.ofBool y) 3)
  | .redAdd a b x y => some (0x6C000000#32 ||| putField a 12 ||| putField b 5 ||| putField (BitVec.ofBool x) 4 ||| putField (BitVec.ofBool y) 3)
  | .redAnd a b x y => some (0x6C000001#32 ||| putField a 12 ||| putField b 5 ||| putField (BitVec.ofBool x) 4 ||| putField (BitVec.ofBool y) 3)
  | .redOr a b x y => some (0x6C000002#32 ||| putField a 12 ||| putField b 5 ||| putField (BitVec.ofBool x) 4 ||| putField (BitVec.ofBool y) 3)
  | .redXor a b x y => some (0x6C000003#32 ||| putField a 12 ||| putField b 5 ||| putField (BitVec.ofBool x) 4 ||| putField (BitVec.ofBool y) 3)
  | .redMin a b x y => some (0x6C000004#32 ||| putField a 12 ||| putField b 5 ||| putField (BitVec.ofBool x) 4 ||| putField (BitVec.ofBool y) 3)
  | .redMax a b x y => some (0x6C000005#32 ||| putField a 12 ||| putField b 5 ||| putField (BitVec.ofBool x) 4 ||| putField (BitVec.ofBool y) 3)
  | .redMinu a b x y => some (0x6C000006#32 ||| putField a 12 ||| putField b 5 ||| putField (BitVec.ofBool x) 4 ||| putField (BitVec.ofBool y) 3)
  | .redMaxu a b x y => some (0x6C000007#32 ||| putField a 12 ||| putField b 5 ||| putField (BitVec.ofBool x) 4 ||| putField (BitVec.ofBool y) 3)
  | .fence s => some (0x70000000#32 ||| putField s 12)
  | .marm a b x y => some (0x70000001#32 ||| putField a 12 ||| putField b 5 ||| putField (BitVec.ofBool x) 4 ||| putField (BitVec.ofBool y) 3)
  | .mdis a x => some (0x70000002#32 ||| putField a 12 ||| putField (BitVec.ofBool x) 4)
  | .mwait d a x => some (0x70000003#32 ||| putField d 19 ||| putField a 12 ||| putField (BitVec.ofBool x) 4)
  | .bari a b x y => some (0x70000004#32 ||| putField a 12 ||| putField b 5 ||| putField (BitVec.ofBool x) 4 ||| putField (BitVec.ofBool y) 3)
  | .barv d a b x y => some (0x70000005#32 ||| putField d 19 ||| putField a 12 ||| putField b 5 ||| putField (BitVec.ofBool x) 4 ||| putField (BitVec.ofBool y) 3)
  | .barw d a b x y => some (0x70000006#32 ||| putField d 19 ||| putField a 12 ||| putField b 5 ||| putField (BitVec.ofBool x) 4 ||| putField (BitVec.ofBool y) 3)
  | .spawn a b x y => some (0x74000000#32 ||| putField a 12 ||| putField b 5 ||| putField (BitVec.ofBool x) 4 ||| putField (BitVec.ofBool y) 3)
  | .graft a x => some (0x74000001#32 ||| putField a 12 ||| putField (BitVec.ofBool x) 4)
  | .yield => some (0x74000002#32)
  | .done => some (0x74000003#32)
  | .wfld d a b x y => some (0x74000004#32 ||| putField d 19 ||| putField a 12 ||| putField b 5 ||| putField (BitVec.ofBool x) 4 ||| putField (BitVec.ofBool y) 3)
  | .send d a b x y => some (0x78000000#32 ||| putField d 19 ||| putField a 12 ||| putField b 5 ||| putField (BitVec.ofBool x) 4 ||| putField (BitVec.ofBool y) 3)
  | .recv d a b x y => some (0x78000001#32 ||| putField d 19 ||| putField a 12 ||| putField b 5 ||| putField (BitVec.ofBool x) 4 ||| putField (BitVec.ofBool y) 3)
  | .vtadv d a x => some (0x78000002#32 ||| putField d 19 ||| putField a 12 ||| putField (BitVec.ofBool x) 4)
  | .glbrd d => some (0x78000003#32 ||| putField d 19)
  | .lcfg d a b x y => some (0x78000004#32 ||| putField d 19 ||| putField a 12 ||| putField b 5 ||| putField (BitVec.ofBool x) 4 ||| putField (BitVec.ofBool y) 3)
  | .furrow e => some (0x78000005#32 ||| putField e 12)
  | .fend => some (0x78000006#32)
  | .fadd d a b x y => some (0x7C000000#32 ||| putField d 19 ||| putField a 12 ||| putField b 5 ||| putField (BitVec.ofBool x) 4 ||| putField (BitVec.ofBool y) 3)
  | .fsub d a b x y => some (0x7C000001#32 ||| putField d 19 ||| putField a 12 ||| putField b 5 ||| putField (BitVec.ofBool x) 4 ||| putField (BitVec.ofBool y) 3)
  | .fmul d a b x y => some (0x7C000002#32 ||| putField d 19 ||| putField a 12 ||| putField b 5 ||| putField (BitVec.ofBool x) 4 ||| putField (BitVec.ofBool y) 3)
  | .fdiv d a b x y => some (0x7C000003#32 ||| putField d 19 ||| putField a 12 ||| putField b 5 ||| putField (BitVec.ofBool x) 4 ||| putField (BitVec.ofBool y) 3)
  | .fsqrt d a x => some (0x7C000004#32 ||| putField d 19 ||| putField a 12 ||| putField (BitVec.ofBool x) 4)
  | .fmin d a b x y => some (0x7C000005#32 ||| putField d 19 ||| putField a 12 ||| putField b 5 ||| putField (BitVec.ofBool x) 4 ||| putField (BitVec.ofBool y) 3)
  | .fmax d a b x y => some (0x7C000006#32 ||| putField d 19 ||| putField a 12 ||| putField b 5 ||| putField (BitVec.ofBool x) 4 ||| putField (BitVec.ofBool y) 3)
  | .fmadd d a b x y => some (0x80000000#32 ||| putField d 19 ||| putField a 12 ||| putField b 5 ||| putField (BitVec.ofBool x) 4 ||| putField (BitVec.ofBool y) 3)
  | .fmsub d a b x y => some (0x80000001#32 ||| putField d 19 ||| putField a 12 ||| putField b 5 ||| putField (BitVec.ofBool x) 4 ||| putField (BitVec.ofBool y) 3)
  | .fnmadd d a b x y => some (0x80000002#32 ||| putField d 19 ||| putField a 12 ||| putField b 5 ||| putField (BitVec.ofBool x) 4 ||| putField (BitVec.ofBool y) 3)
  | .fnmsub d a b x y => some (0x80000003#32 ||| putField d 19 ||| putField a 12 ||| putField b 5 ||| putField (BitVec.ofBool x) 4 ||| putField (BitVec.ofBool y) 3)
  | .fcvt d a s t p r => some (0x84000000#32 ||| putField d 19 ||| putField a 12 ||| putField s 8 ||| putField t 5 ||| putField p 3 ||| putField r 0)
  | .fsk a b c k p x y => some (0x88000000#32 ||| putField a 19 ||| putField b 12 ||| putField c 8 ||| putField k 6 ||| putField p 2 ||| putField (BitVec.ofBool x) 1 ||| putField (BitVec.ofBool y) 0)
  | .fclass d a x => some (0x8C000000#32 ||| putField d 19 ||| putField a 12 ||| putField (BitVec.ofBool x) 4)
  | .ffrd d => some (0x8C000001#32 ||| putField d 19)
  | .ffclr d a x => some (0x8C000002#32 ||| putField d 19 ||| putField a 12 ||| putField (BitVec.ofBool x) 4)
  | .frmset d a x => some (0x8C000003#32 ||| putField d 19 ||| putField a 12 ||| putField (BitVec.ofBool x) 4)
  | .frmrd d => some (0x8C000004#32 ||| putField d 19)
  | .shape d a b x y => some (0x90000000#32 ||| putField d 19 ||| putField a 12 ||| putField b 5 ||| putField (BitVec.ofBool x) 4 ||| putField (BitVec.ofBool y) 3)
  | .tld d a p t => some (0x94000000#32 ||| putField d 23 ||| putField a 10 ||| putField p 3 ||| putField t 0)
  | .tst d a p t => some (0x94000040#32 ||| putField d 23 ||| putField a 10 ||| putField p 3 ||| putField t 0)
  | .tadd d m n u s t => some (0x98000000#32 ||| putField d 23 ||| putField m 20 ||| putField n 17 ||| putField (BitVec.ofBool u) 4 ||| putField (BitVec.ofBool s) 3 ||| putField t 0)
  | .tsub d m n u s t => some (0x98000040#32 ||| putField d 23 ||| putField m 20 ||| putField n 17 ||| putField (BitVec.ofBool u) 4 ||| putField (BitVec.ofBool s) 3 ||| putField t 0)
  | .tmul d m n u s t => some (0x98000080#32 ||| putField d 23 ||| putField m 20 ||| putField n 17 ||| putField (BitVec.ofBool u) 4 ||| putField (BitVec.ofBool s) 3 ||| putField t 0)
  | .tmin d m n u s t => some (0x980000C0#32 ||| putField d 23 ||| putField m 20 ||| putField n 17 ||| putField (BitVec.ofBool u) 4 ||| putField (BitVec.ofBool s) 3 ||| putField t 0)
  | .tmax d m n u s t => some (0x98000100#32 ||| putField d 23 ||| putField m 20 ||| putField n 17 ||| putField (BitVec.ofBool u) 4 ||| putField (BitVec.ofBool s) 3 ||| putField t 0)
  | .tand d m n t => some (0x98000140#32 ||| putField d 23 ||| putField m 20 ||| putField n 17 ||| putField t 0)
  | .tor d m n t => some (0x98000180#32 ||| putField d 23 ||| putField m 20 ||| putField n 17 ||| putField t 0)
  | .txor d m n t => some (0x980001C0#32 ||| putField d 23 ||| putField m 20 ||| putField n 17 ||| putField t 0)
  | .tneg d m u s t => some (0x98000200#32 ||| putField d 23 ||| putField m 20 ||| putField (BitVec.ofBool u) 4 ||| putField (BitVec.ofBool s) 3 ||| putField t 0)
  | .tabs d m u s t => some (0x98000240#32 ||| putField d 23 ||| putField m 20 ||| putField (BitVec.ofBool u) 4 ||| putField (BitVec.ofBool s) 3 ||| putField t 0)
  | .tfma d m n u s t => some (0x9C000000#32 ||| putField d 23 ||| putField m 20 ||| putField n 17 ||| putField (BitVec.ofBool u) 4 ||| putField (BitVec.ofBool s) 3 ||| putField t 0)
  | .tfms d m n u s t => some (0x9C000040#32 ||| putField d 23 ||| putField m 20 ||| putField n 17 ||| putField (BitVec.ofBool u) 4 ||| putField (BitVec.ofBool s) 3 ||| putField t 0)
  | .tfnma d m n u s t => some (0x9C000080#32 ||| putField d 23 ||| putField m 20 ||| putField n 17 ||| putField (BitVec.ofBool u) 4 ||| putField (BitVec.ofBool s) 3 ||| putField t 0)
  | .tfnms d m n u s t => some (0x9C0000C0#32 ||| putField d 23 ||| putField m 20 ||| putField n 17 ||| putField (BitVec.ofBool u) 4 ||| putField (BitVec.ofBool s) 3 ||| putField t 0)
  | .tcvt d m a y t => some (0xA0000000#32 ||| putField d 23 ||| putField m 20 ||| putField a 10 ||| putField y 3 ||| putField t 0)
  | .trsum d m c u s t => some (0xA4000000#32 ||| putField d 23 ||| putField m 20 ||| putField (BitVec.ofBool c) 5 ||| putField (BitVec.ofBool u) 4 ||| putField (BitVec.ofBool s) 3 ||| putField t 0)
  | .trmax d m c u s t => some (0xA4000040#32 ||| putField d 23 ||| putField m 20 ||| putField (BitVec.ofBool c) 5 ||| putField (BitVec.ofBool u) 4 ||| putField (BitVec.ofBool s) 3 ||| putField t 0)
  | .trmin d m c u s t => some (0xA4000080#32 ||| putField d 23 ||| putField m 20 ||| putField (BitVec.ofBool c) 5 ||| putField (BitVec.ofBool u) 4 ||| putField (BitVec.ofBool s) 3 ||| putField t 0)
  | .tbcs d a t => some (0xA40000C0#32 ||| putField d 23 ||| putField a 10 ||| putField t 0)
  | .tbrow d m a t => some (0xA4000100#32 ||| putField d 23 ||| putField m 20 ||| putField a 10 ||| putField t 0)
  | .tbcol d m a t => some (0xA4000140#32 ||| putField d 23 ||| putField m 20 ||| putField a 10 ||| putField t 0)
  | .ttrn d m t => some (0xA8000000#32 ||| putField d 23 ||| putField m 20 ||| putField t 0)
  | .tshuf d m n t => some (0xA8000040#32 ||| putField d 23 ||| putField m 20 ||| putField n 17 ||| putField t 0)
  | .trot d m a t => some (0xA8000080#32 ||| putField d 23 ||| putField m 20 ||| putField a 10 ||| putField t 0)
  | .tmov d m t => some (0xAC000000#32 ||| putField d 23 ||| putField m 20 ||| putField t 0)
  | .tsel d m n t => some (0xAC000040#32 ||| putField d 23 ||| putField m 20 ||| putField n 17 ||| putField t 0)
  | .tget m a t => some (0xAC000080#32 ||| putField m 20 ||| putField a 10 ||| putField t 0)
  | .tset d a t => some (0xAC0000C0#32 ||| putField d 23 ||| putField a 10 ||| putField t 0)
  | .mma a b x k => some (0xB0000000#32 ||| putField a 12 ||| putField b 5 ||| putField (BitVec.ofBool x) 4 ||| putField (BitVec.ofBool k) 3)
  | .azero a x => some (0xB4000000#32 ||| putField a 12 ||| putField (BitVec.ofBool x) 4)
  | .awr a x => some (0xB4000001#32 ||| putField a 12 ||| putField (BitVec.ofBool x) 4)
  | .ard a x => some (0xB4000002#32 ||| putField a 12 ||| putField (BitVec.ofBool x) 4)
  | .achk a x f => some (0xB4000003#32 ||| putField a 12 ||| putField (BitVec.ofBool x) 4 ||| putField (BitVec.ofBool f) 3)
  | .tilemm d a h => some (0xB8000000#32 ||| putField d 19 ||| putField a 12 ||| putField (BitVec.ofBool h) 4)
  | .bsum a x => some (0xBC000000#32 ||| putField a 12 ||| putField (BitVec.ofBool x) 4)
  | .xred a b x y => some (0xBC000001#32 ||| putField a 12 ||| putField b 5 ||| putField (BitVec.ofBool x) 4 ||| putField (BitVec.ofBool y) 3)
  | .xrnd d a x => some (0xBC000002#32 ||| putField d 19 ||| putField a 12 ||| putField (BitVec.ofBool x) 4)
  | .xclr d a x => some (0xBC000003#32 ||| putField d 19 ||| putField a 12 ||| putField (BitVec.ofBool x) 4)
  | .cpy d a h => some (0xC0000000#32 ||| putField d 19 ||| putField a 12 ||| putField (BitVec.ofBool h) 4)
  | .publ g s => some (0xC4000000#32 ||| putField g 12 ||| putField s 5)
  | .chain a b x y => some (0xC4000001#32 ||| putField a 12 ||| putField b 5 ||| putField (BitVec.ofBool x) 4 ||| putField (BitVec.ofBool y) 3)
  | .nbmv d a h => some (0xC8000000#32 ||| putField d 19 ||| putField a 12 ||| putField (BitVec.ofBool h) 4)
  | .estat d a x r => some (0xCC000000#32 ||| putField d 19 ||| putField a 12 ||| putField (BitVec.ofBool x) 4 ||| putField (BitVec.ofBool r) 3)
  | .patch a b x y => some (0xD0000000#32 ||| putField a 12 ||| putField b 5 ||| putField (BitVec.ofBool x) 4 ||| putField (BitVec.ofBool y) 3)
  | .rsave a b x y => some (0xD0000001#32 ||| putField a 12 ||| putField b 5 ||| putField (BitVec.ofBool x) 4 ||| putField (BitVec.ofBool y) 3)
  | .rload a b x y => some (0xD0000002#32 ||| putField a 12 ||| putField b 5 ||| putField (BitVec.ofBool x) 4 ||| putField (BitVec.ofBool y) 3)
  | .dcfg d a b x y => some (0xD4000000#32 ||| putField d 19 ||| putField a 12 ||| putField b 5 ||| putField (BitVec.ofBool x) 4 ||| putField (BitVec.ofBool y) 3)
  | .dstart a x => some (0xD4000001#32 ||| putField a 12 ||| putField (BitVec.ofBool x) 4)
  | .dhalt a x => some (0xD4000002#32 ||| putField a 12 ||| putField (BitVec.ofBool x) 4)
  | .din a b x y => some (0xD8000000#32 ||| putField a 12 ||| putField b 5 ||| putField (BitVec.ofBool x) 4 ||| putField (BitVec.ofBool y) 3)
  | .dtap d a b x y => some (0xD8000001#32 ||| putField d 19 ||| putField a 12 ||| putField b 5 ||| putField (BitVec.ofBool x) 4 ||| putField (BitVec.ofBool y) 3)
  | .dport d a b x y => some (0xD8000002#32 ||| putField d 19 ||| putField a 12 ||| putField b 5 ||| putField (BitVec.ofBool x) 4 ||| putField (BitVec.ofBool y) 3)
  | .pack6 d a b x y => some (0xDC000000#32 ||| putField d 19 ||| putField a 12 ||| putField b 5 ||| putField (BitVec.ofBool x) 4 ||| putField (BitVec.ofBool y) 3)
  | .unpk6 d a b x y => some (0xDC000001#32 ||| putField d 19 ||| putField a 12 ||| putField b 5 ||| putField (BitVec.ofBool x) 4 ||| putField (BitVec.ofBool y) 3)
  | .pack4 d a b x y => some (0xDC000002#32 ||| putField d 19 ||| putField a 12 ||| putField b 5 ||| putField (BitVec.ofBool x) 4 ||| putField (BitVec.ofBool y) 3)
  | .unpk4 d a b x y => some (0xDC000003#32 ||| putField d 19 ||| putField a 12 ||| putField b 5 ||| putField (BitVec.ofBool x) 4 ||| putField (BitVec.ofBool y) 3)
  | .lgenc d a b x y => some (0xDC000004#32 ||| putField d 19 ||| putField a 12 ||| putField b 5 ||| putField (BitVec.ofBool x) 4 ||| putField (BitVec.ofBool y) 3)
  | .lgdec d a b x y => some (0xDC000005#32 ||| putField d 19 ||| putField a 12 ||| putField b 5 ||| putField (BitVec.ofBool x) 4 ||| putField (BitVec.ofBool y) 3)
  | .crrd d r => some (0xE0000000#32 ||| putField d 19 ||| putField r 0)
  | .crwr a r => some (0xE0000400#32 ||| putField a 12 ||| putField r 0)
  | .crset d a r => some (0xE0000800#32 ||| putField d 19 ||| putField a 12 ||| putField r 0)
  | .crclr d a r => some (0xE0000C00#32 ||| putField d 19 ||| putField a 12 ||| putField r 0)
  | .trap a x => some (0xE4000000#32 ||| putField a 12 ||| putField (BitVec.ofBool x) 4)
  | .scall a x => some (0xE4000001#32 ||| putField a 12 ||| putField (BitVec.ofBool x) 4)
  | .hcall a x => some (0xE4000002#32 ||| putField a 12 ||| putField (BitVec.ofBool x) 4)
  | .eret => some (0xE4000003#32)
  | .uiret => some (0xE4000004#32)
  | .segld a b x y => some (0xE8000000#32 ||| putField a 12 ||| putField b 5 ||| putField (BitVec.ofBool x) 4 ||| putField (BitVec.ofBool y) 3)
  | .segrd d a x => some (0xE8000001#32 ||| putField d 19 ||| putField a 12 ||| putField (BitVec.ofBool x) 4)
  | .shoot a b x y => some (0xE8000002#32 ||| putField a 12 ||| putField b 5 ||| putField (BitVec.ofBool x) 4 ||| putField (BitVec.ofBool y) 3)
  | .bist d a x => some (0xEC000000#32 ||| putField d 19 ||| putField a 12 ||| putField (BitVec.ofBool x) 4)
  | .ecrd d a x => some (0xEC000001#32 ||| putField d 19 ||| putField a 12 ||| putField (BitVec.ofBool x) 4)
  | .eccfg d a b x y => some (0xEC000002#32 ||| putField d 19 ||| putField a 12 ||| putField b 5 ||| putField (BitVec.ofBool x) 4 ||| putField (BitVec.ofBool y) 3)
  | .nop => some (0xFC000000#32)
  | .imm p => some (0xFC400000#32 ||| putField p 0)
  | .rlx s m => some (0xFC800000#32 ||| putField s 2 ||| putField m 0)
  | .sched p => some (0xFCC00000#32 ||| putField p 0)
  | .annulledWordPass _ _ => none
  | .fetchFault _ _ => none
  | .producerResultArrival _ _ _ => none
  | .waitLimit _ _ _ => none
  | .windowSpill _ => none
  | .windowFill _ => none
  | .seedPacketArrival _ _ => none
  | .seedPacketReturn _ _ => none
  | .spawnPacketArrival _ _ => none
  | .spawnReply _ _ _ => none
  | .graftArrival _ _ => none
  | .graftQueuePlace _ => none
  | .graftAccepted _ _ _ => none
  | .graftResend _ _ => none
  | .mwaitWake _ _ => none
  | .mwaitTimeout _ _ _ => none
  | .linkWordArrival _ _ _ => none
  | .linkCreditReturn _ _ => none
  | .furrowStart _ => none
  | .furrowStep _ => none
  | .asyncEventDelivery _ _ => none
  | .trapQueueRecord _ _ => none
  | .inboxPlace _ _ => none
  | .messageResend _ => none
  | .sendQueueDeliver _ => none
  | .glbUpdate _ => none
  | .messageRelease _ _ => none
  | .creditReturn _ _ _ => none
  | .channelAudit _ _ _ => none
  | .domainStep _ _ => none
  | .domainHaltBoundary _ _ => none
  | .crossingArrival _ _ => none
  | .integratorRecordTake _ _ => none
  | .arrayCommandExecute _ => none
  | .tilemmDescriptorCopy _ => none
  | .tilemmStep _ => none
  | .copyAccept _ _ => none
  | .copyElementLand _ => none
  | .copyComplete _ => none
  | .nbmvAccept _ _ => none
  | .nbmvComplete _ => none
  | .publFlip _ _ => none
  | .eventRecordPlace _ _ => none
  | .remoteAccessRequest _ => none
  | .remoteAccessResponse _ _ _ _ _ => none
  | .cuttingApply _ => none
  | .cuttingResend _ => none
  | .linkTimeout _ _ _ => none
  | .flitReceive _ _ => none
  | .linkRetrain _ => none
  | .twinHashArrival _ _ _ _ => none
  | .twinHashTimeout _ _ _ => none
  | .coreSeal _ => none
  | .scrubRead _ _ => none
  | .refreshPhase _ => none
  | .refreshBusyEnd _ => none
  | .wsmodeWrite _ _ => none
  | .wsmodeDrainEnd _ => none
  | .tcbDecrement _ _ => none
  | .schedulerDispatch _ => none
  | .threadPlacement _ _ => none
  | .taskRetire _ _ => none
  | .taskFail _ _ => none
  | .launchEnq _ => none
  | .launchDec _ => none
  | .contextKill _ => none
  | .killDrainComplete _ => none
  | .coreRemove _ => none
  | .cxSaveThread _ => none
  | .cxRestoreThread _ => none
  | .cxSaveCore _ => none
  | .cxRestoreCore _ => none
  | .shootdownPort _ _ => none
  | .bistComplete _ _ => none
  | .laneMarginDwell _ _ => none
  | .laneMarginDwellEnd _ _ => none
  | .svnfuseWrite _ _ => none
  | .smargWrite _ _ => none
  | .ibdWrite _ _ _ _ => none
  | .tqbWrite _ _ _ => none
  | .clpartWrite _ _ _ => none
  | .registerWrite _ _ => none
  | .packageReset _ => none
  | .getVersion _ => none
  | .getCapabilities _ => none
  | .negotiateAlgorithms _ => none
  | .getDigests _ => none
  | .getCertificate _ => none
  | .challenge _ => none
  | .getMeasurements _ => none
  | .dieReset _ => none
  | .framePageIn _ _ => none
  | .wideBeatArrival _ _ _ => none
  | .eventCounterAdd _ => none
  | .marginingEnable _ => none

end Sys2Proof
end

