-- ==== Sys2Proof/Machine/Furrow.lean ====
section
/-! DEFINITION. Fetching a word (03 R54, 10 R188), and furrows: their start, their steps and their end (04 R79 to R86, 13 R245, R246). -/

namespace Sys2Proof.Machine

/-! ## Fetch -/

/-- The word at an offset of a core's code window, if its frame holds the thread's text (03 R54). -/
def fetchAt (s : State) (k sid : Nat) (pc : BitVec 16) : Option (BitVec 32) :=
  if loaded s k sid pc then
    match Memory.readList s.mem (lsKey k pc.toNat) 4 with
    | [b0, b1, b2, b3] => some (wordOf b0 b1 b2 b3)
    | _ => none
  else none

/-- A word executed: the instruction it decodes to, or Illegal Instruction (10 R188 steps 1 and 2). -/
def runWord (ex : Instr → State → Out) (w : BitVec 32) (s : State) : Out :=
  match decode w with
  | .ok i => ex i s
  | .error _ => finish (trap Cause.illegalInstruction) s

/-- FETCH_FAULT (22 R323, 01 R16): the frame of a thread's next word holds no text of its seed. -/
def execFetchFault (k t : Nat) (s : State) : Out :=
  event (do
    let id := tidOf k t
    let th ← getT id
    takeTrap id Cause.fetchFault (fetchValue th th.pc) th.faultPc) s

/-! ## Starting a furrow (13 R245, 04 R79) -/

/-- The columns 1 to e that a head reserves. -/
def spanCores (h e : Nat) : List Nat := (List.range e).map fun i => h + i + 1

/-- FURROW (13 R245) -/
def execFurrow (e : Code) (s : State) : Out :=
  instr { literals := e.toNat ≤ 27, unit := hasArray } (do
    let id ← me
    let k := id / 16
    check (id % 16 = 15 && colOf k = 0) Cause.illegalInstruction
    let t ← self
    check (t.iter.isNone && t.col.isNone && t.twin.isNone) Cause.nesting
    let s ← getS
    check ((k :: spanCores k e.toNat).all fun c => (logicalOf s (dieOf k) t.ctx c).isSome) Cause.illegalOperand
    awaitAll
    onPkg fun p => { p with furrows := FMap.set p.furrows k { last := e.toNat } }
    thr id fun t => { t with status := .parked .furrow none }
    plan 0 (.furrowStart k)
    return .stay) s

/-- The thread of a column (04 R79): the head's registers and versions, at depth 0 of its own slot 15. -/
def columnThread (s : State) (h k : Nat) (t : Thread) (j uid : Nat) : Thread :=
  { status := .parked .column none, level := t.level, ctx := t.ctx, cid := (logicalOf s (dieOf k) t.ctx k).getD 0, tcb := t.tcb,
    tcbKey := t.tcbKey, sid := t.sid, uid := uid, pc := t.pc + 4#16, pw := t.pw,
    regs := t.window.zipIdx.map fun p => (p.2, p.1),
    vers := t.vers, rm := t.rm, fflags := t.fflags, wlim := t.wlim, wsp := startWsp k 15, uih := t.uih,
    uctl := t.uctl, segs := t.segs, shape := t.shape, col := some { head := h, j := j, idx := 0 } }

def placeColumns (h : Nat) (t : Thread) : List Nat → M Unit
  | [] => pure ()
  | k :: ks => do
    let s ← getS
    noteContext k t.ctx
    emit (.place (tidOf k 15) (columnThread s h k t (k - h) s.pkg.nextUid))
    undefineTiles (tidOf k 15)
    onPkg fun p => { p with nextUid := p.nextUid + 1 }
    placeColumns h t ks

/-- Monitors of a restored thread: those that its homes still hold, latched if their line was written meanwhile (03 R61). -/
def rebindMonitors (id uid : Nat) : List (Nat × Core) → M Unit
  | [] => pure ()
  | (h, c) :: cs => do
    let mine := c.monRegs.filter fun m => m.away == some uid
    if mine.isEmpty then pure ()
    else
      let back (m : MonReg) : MonReg :=
        if m.away == some uid then { m with core := id / 16, slot := id % 16, away := none, hit := false } else m
      onCore h fun c => { c with monRegs := c.monRegs.map back }
      thr id fun t => { t with monitors := mine.foldl (fun ms m =>
        FMap.set ms m.index { line := m.line, addr := (FMap.get? ms m.index).map (·.addr) |>.getD 0, latched := m.hit }) t.monitors }
    rebindMonitors id uid cs

/-- The monitors of a restored thread are those of its record that still have a home. -/
def takeMonitors (id : Nat) : M Unit := do
  rebindMonitors id (← getT id).uid (← getS).cores
  thr id fun t => { t with monitors := t.monitors.filter fun p => p.2.line ≠ 0 || p.2.away.isSome }

/-- The columns of a restored furrow, head first, put into their slots (22 R331). -/
def placeSaved : List Thread → M Unit
  | [] => pure ()
  | t :: ts => do
    match t.col with
    | some c => do
      if c.j = 0 then emit (.place (tidOf c.head 15) { t with monitors := (← getT (tidOf c.head 15)).monitors })
      else
        placeThread (c.head + c.j) 15 t
        takeMonitors (tidOf (c.head + c.j) 15)
    | none => pure ()
    placeSaved ts

/-- FURROW_START (04 R79): every reserved slot is empty, and the columns start; otherwise the head goes on waiting. -/
def execFurrowStart (k : Nat) (s : State) : Out :=
  event (do
    let id := tidOf k 15
    let s ← getS
    let t := s.thread id
    match FMap.get? s.pkg.furrows k, t.status with
    | some f, .parked .furrow _ =>
      if f.started then pure ()
      else if (spanCores k f.last).all fun c => !(s.occupied (tidOf c 15)) then
        onPkg fun p => { p with furrows := FMap.set p.furrows k { f with started := true, cols := [] } }
        if f.cols.isEmpty then
          placeColumns k t (spanCores k f.last)
          thr id fun t => { t with status := .parked .column none, col := some { head := k, j := 0, idx := 0 }, bound := .none }
          emit (.pc id (t.pc + 4#16))
        else placeSaved f.cols
        plan (nextPosition s.clock.now 15 - s.clock.now) (.furrowStep k)
      else plan 1 (.furrowStart k)
    | _, _ => pure ()) s

/-- FURROW_STEP (04 R80): a step of the furrow is due in this cycle. Its columns are tried in this cycle (Machine/Step.lean), and the
next step is due one rotation later. -/
def execFurrowStep (k : Nat) (s : State) : Out :=
  event (do
    match FMap.get? (← getS).pkg.furrows k with
    | some f =>
      onPkg fun p => { p with furrows := FMap.set p.furrows k { f with turn := true } }
      plan 16 (.furrowStep k)
    | none => pure ()) s

/-! ## Steps (04 R80 to R82, R85) -/

/-- What a column does in a step: nothing, nothing because it is held, or a word at an offset. -/
inductive Turn where
  | idle
  | held
  | miss
  | word (pc : BitVec 16) (w : BitVec 32)
deriving DecidableEq, Repr

/-- A column may issue: it stands between its steps or waits to issue its word. -/
def Thread.inStep (t : Thread) : Bool :=
  match t.status with
  | .parked .column _ => true
  | .waiting _ => !(t.col.any (·.inHandler))
  | _ => false

/-- Column j's turn in the present step s (04 R80): index s - j, or an earlier one that it has still to execute. -/
def turnOf (s : State) (h : Nat) (f : Furrow) (j : Nat) : Turn :=
  let t := s.thread (tidOf (h + j) 15)
  match t.col with
  | none => if (s.coreOf (h + j)).isSealed && f.gone < j then .held else .idle
  | some c =>
    if c.ended || f.step < c.idx + j || (f.fendAt.any fun x => x < c.idx) then .idle
    else
      let here : Option (BitVec 16 × BitVec 32) :=
        if j = 0 then (fetchAt s h t.sid t.pc).map fun w => (t.pc, w) else (f.stream.drop (c.idx - f.base)).head?
      if j = 0 && f.draining && t.bound == .none then .idle
      else if j ≠ 0 && f.base + f.stream.length ≤ c.idx then .idle
      else if !t.inStep || s.clock.now < t.yieldTo || (s.coreOf (h + j)).isSealed then .held
      else
        match here with
        | some (pc, w) => .word pc w
        | none => .miss

/-- Whether a column has still to execute an index before that of the present step. -/
def isBehind (s : State) (h : Nat) (f : Furrow) (j : Nat) : Bool :=
  (s.thread (tidOf (h + j) 15)).col.any fun c => c.idx + j < f.step

/-- The word of the head at an index joins the stream, in the place of one that it has fetched for that index before. -/
def joinStream (h idx : Nat) (pc : BitVec 16) (w : BitVec 32) (fend : Bool) : M Unit :=
  onPkg fun p =>
    match FMap.get? p.furrows h with
    | some f => { p with furrows := FMap.set p.furrows h { f with
        stream := f.stream.take (idx - f.base) ++ [(pc, w)], fendAt := if fend then some idx else f.fendAt } }
    | none => p

/-- The word of a column still holds its thread (03 R42, 04 R81). -/
def Status.holds : Status → Bool
  | .ready | .waiting _ | .parked .column _ | .parked .furrow _ => false
  | _ => true

/-- A column has issued its word: its index goes up; the head's word joins the stream (04 R80). -/
def passed (h j : Nat) (pc : BitVec 16) (w : BitVec 32) (annulled : Bool) : M Unit := do
  let id := tidOf (h + j) 15
  let idx := ((← getT id).col.map (·.idx)).getD 0
  thr id fun t => { t with
    col := t.col.map fun c => { c with idx := c.idx + 1, holding := t.status.holds },
    status := match t.status with
      | .ready => if t.col.isSome then .parked .column none else .ready
      | st => st }
  if j = 0 then joinStream h idx pc w (w.toNat = fendWord && !annulled) else pure ()

/-- An annulled copy of a word is passed over (04 R81, 03 R40). -/
def passAnnulled (id : Nat) : M Unit := do
  let n ← now
  thr id fun t => { t with annul := t.annul - 1, lastIssue := some n }
  emit (.pc id ((← getT id).pc + 4#16))
  count (id / 16) 6

/-- Whether a column could not issue: it waits, or its word has trapped (04 R81, R85). -/
def blocked (t : Thread) : Bool :=
  match t.status with
  | .waiting _ => true
  | .parked .held _ => true
  | .parked (.upward _ _ _ _) _ => true
  | _ => t.col.any (·.inHandler)

/-- A word that its column executes again when what it reads has come (05 R97): it has not passed yet. -/
def Thread.rereads (t : Thread) : Bool := t.asking && t.gatherFn = 10

/-- One column's word executed: the state, and whether the column could not issue it. A trap instruction of the head has issued, and joins the stream. -/
def runColumn (ex : Instr → State → Out) (h j : Nat) (pc : BitVec 16) (w : BitVec 32) (s : State) : Out × Bool :=
  let id := tidOf (h + j) 15
  match event (do
      emit (.clock fun c => { c with core := h + j, slot := 15 })
      emit (.pc id pc)) s with
  | .next s0 =>
    if (s0.thread id).annul ≠ 0 then (event (do passAnnulled id; passed h j pc w true) s0, false)
    else
      let idx := ((s0.thread id).col.map (·.idx)).getD 0
      match runWord ex w s0 with
      | .next s1 =>
        if s1.occupied id && blocked (s1.thread id) then
          (if j = 0 && (s1.thread id).col.any (fun c => c.idx = idx + 1) then event (joinStream h idx pc w false) s1 else .next s1, true)
        else if (s1.thread id).rereads then (.next s1, false)
        else (event (passed h j pc w false) s1, false)
      | out => (out, true)
  | out => (out, true)

/-- The columns that have a word, each executed after the others. -/
def runColumns (ex : Instr → State → Out) (h : Nat) (s : State) : List (Nat × BitVec 16 × BitVec 32) → Out
  | [] => .next s
  | (j, pc, w) :: rest =>
    match (runColumn ex h j pc w s).1 with
    | .next s1 => runColumns ex h s1 rest
    | out => out

/-- The columns that could not issue in a state wait or take their traps; the others do nothing (04 R81, R85). -/
def runBlocked (ex : Instr → State → Out) (h : Nat) (s : State) : List (Nat × BitVec 16 × BitVec 32) → Out
  | [] => .next s
  | (j, pc, w) :: rest =>
    match runColumn ex h j pc w s with
    | (.next s1, true) => runBlocked ex h s1 rest
    | (.next _, false) => runBlocked ex h s rest
    | (out, _) => out

/-- The stream index to which a trap of a column may take it back. -/
def Thread.lowIndex (t : Thread) (c : Column) : Nat := if c.holding || t.bound != .none then c.idx - 1 else c.idx

/-- The stream keeps the words that some column has still to execute. -/
def tidyStream (h e : Nat) : M Unit := do
  let s ← getS
  match FMap.get? s.pkg.furrows h with
  | none => pure ()
  | some f =>
    let idxs := (List.range (e + 1)).filterMap fun j =>
      let t := s.thread (tidOf (h + j) 15)
      t.col.map t.lowIndex
    let low := match idxs with
      | [] => f.base
      | i :: is => is.foldl min i
    onPkg fun p => { p with furrows := FMap.set p.furrows h { f with stream := f.stream.drop (low - f.base), base := max low f.base } }

/-- Each column that stands between its steps has the offset of its next word. -/
def aimColumns (h : Nat) (f : Furrow) : List Nat → M Unit
  | [] => pure ()
  | j :: js => do
    let id := tidOf (h + j + 1) 15
    let t ← getT id
    match t.col, t.status with
    | some c, .parked .column _ =>
      match f.stream.drop (c.idx - f.base) with
      | (pc, _) :: _ => emit (.pc id pc)
      | [] => pure ()
    | _, _ => pure ()
    aimColumns h f js

/-- The furrow after its columns have executed words: the next step, unless columns only came up to the others. -/
def stepDone (h e : Nat) (advance : Bool) : M Unit := do
  if advance then
    onPkg fun p =>
      match FMap.get? p.furrows h with
      | some f => { p with furrows := FMap.set p.furrows h { f with step := f.step + 1 } }
      | none => p
  else pure ()
  tidyStream h e
  match FMap.get? (← getS).pkg.furrows h with
  | some f => aimColumns h f (List.range e)
  | none => pure ()

/-- A step of a furrow (04 R80, R81): it advances when every column that has a word in it can issue that word; each then does. A column that has to
wait or traps as the step finds it holds the step, which is tried again one rotation later. A column that is behind, since its trap took it back, or
since an earlier column of its step left it nothing to take, comes up to the others alone. -/
def furrowAttempt (ex : Instr → State → Out) (h : Nat) (s : State) : Out :=
  match FMap.get? s.pkg.furrows h with
  | none => .next s
  | some f =>
    let s := { s with pkg := { s.pkg with furrows := FMap.set s.pkg.furrows h { f with turn := false } } }
    let turns := (List.range (f.last + 1)).map fun j => (j, turnOf s h f j)
    if turns.any fun p => p.2 = .held then .next s
    else if turns.any fun p => p.2 = .miss then execFetchFault h 15 s
    else
      let words := turns.filterMap fun p => match p.2 with | .word pc w => some (p.1, pc, w) | _ => none
      let late := words.filter fun p => isBehind s h f p.1
      let now := if late.isEmpty then words else late
      let stuck := now.filter fun (j, pc, w) => (runColumn ex h j pc w s).2
      if stuck.isEmpty then
        match runColumns ex h s now with
        | .next s1 => event (stepDone h f.last late.isEmpty) s1
        | out => out
      else runBlocked ex h s stuck

/-! ## The end (04 R83, 13 R246) -/

/-- The furrow has ended in its last column: the head goes on as an ordinary thread, in the next rotation. -/
def endFurrow (h : Nat) : M Unit := do
  let n ← now
  onPkg fun p => { p with furrows := FMap.erase p.furrows h }
  thr (tidOf h 15) fun t => { t with status := .ready, col := none, yieldTo := max t.yieldTo (nextRotation n) }

/-- FEND (13 R246) -/
def execFend (s : State) : Out :=
  instr {} (do
    let id ← me
    let t ← self
    match t.col with
    | none => trap Cause.nesting
    | some c =>
      check (!c.inHandler) Cause.nesting
      awaitAll
      settle .next
      let last := ((FMap.get? (← getS).pkg.furrows c.head).map (·.last)).getD 0
      if c.j = 0 then
        if last = 0 then endFurrow c.head
        else thr id fun t => { t with status := .parked .furrow none, col := t.col.map fun c => { c with ended := true } }
      else
        thr (tidOf c.head 15) fun h => { h with fflags := h.fflags ||| t.fflags }
        disarmAll id
        vacate id
        recordsOf t.ctx (id / 16) t.pend.xc
        onPkg fun p =>
          match FMap.get? p.furrows c.head with
          | some f => { p with furrows := FMap.set p.furrows c.head { f with gone := c.j } }
          | none => p
        if c.j = last then endFurrow c.head else pure ()
      return .park) s

end Sys2Proof.Machine
end

