-- ==== Sys2Proof/Machine/System.lean ====
section
/-! DEFINITION. Control registers, the system instructions, asynchronous events, trap queues, segment instructions and shoot-downs (22
R319 to R329, 23 R335, R336, R348 to R350). -/

namespace Sys2Proof.Machine

/-! ## Access to control registers (22 R320) -/

/-- What a level may do with a register. -/
inductive CrAccess where
  | none | ro | rw
deriving DecidableEq, Repr

/-- An assigned register number, views apart. -/
def ownNumber (n : Nat) : Bool := (n ≤ 0x18 || n = 0x19 || n = 0x1A || (0x20 ≤ n && n ≤ 0x27))

/-- The number of the register of its target that a view names; 0x40 and above: s0 to s31. -/
def viewNumber (n : Nat) : Nat := n - 0x200

def assigned (n : Nat) : Bool := ownNumber n || (0x200 ≤ n && n ≤ 0x25F && (0x40 ≤ viewNumber n || ownNumber (viewNumber n)))

/-- Registers of all levels that no instruction writes. -/
def readOnly (n : Nat) : Bool := [0x4, 0x7, 0x8, 0xA, 0xF, 0x11, 0x12, 0x17].contains n

/-- The access of a level, given UCTL, and whether VT is withdrawn. -/
def accessOf (lv : Level) (uctl : Word) (withdrawn : Bool) (n : Nat) : CrAccess :=
  if 0x200 ≤ n then (if lv = .u then .none else .rw)
  else if readOnly n then (if n = 0x17 && lv = .u then .none else .ro)
  else if n = 0x9 then (if lv = .h && withdrawn then .rw else .ro)
  else if lv ≠ .u then .rw
  else if n = 0x2 then (if bit uctl 0 then .rw else .ro)
  else if n = 0x5 then (if bit uctl 1 then .rw else .ro)
  else if [0x0, 0x1, 0x6, 0xC, 0xE].contains n then .rw
  else if 0x13 ≤ n && n ≤ 0x1A then .none
  else .ro

/-- The level of the issuing thread may make an access. -/
def mayAccess (s : State) (write : Bool) (n : Nat) : Bool :=
  let id := tidOf s.clock.core s.clock.slot
  let c := s.thread (s.control id)
  match accessOf c.level c.uctl ((s.coreOf s.clock.core).vt = BitVec.allOnes 64) n with
  | .none => false
  | .ro => !write
  | .rw => true

/-! ## Values (22 R320 to R327) -/

/-- IPEND (22 R324) -/
def ipendWord (t : Thread) : Word :=
  BitVec.ofNat 64 (b2n t.inh * 2 ^ 8 + t.pend.xc.length * 2 ^ 3 + b2n t.pend.ic.isSome * 4 + b2n t.pend.io.isSome * 2 + b2n t.pend.bb.isSome)

/-- SEQST (07 R135) -/
def seqstWord (a : Array) : Word :=
  BitVec.ofNat 64 (b2n a.busy * 2 ^ 63 + b2n a.held * 2 ^ 62 + a.ph * 2 ^ 60 + a.mb * 2 ^ 42 + a.nb * 2 ^ 28 + a.kb * 2 ^ 14)

/-- REFPH (05 R100) -/
def refphWord (s : State) (d : Nat) : Word :=
  let n := s.clock.now - (s.dieOf d).resetAt
  BitVec.ofNat 64 (n / 8192 % 2 ^ 32 * 2 ^ 32 + n % 512 * 2 ^ 4 + n / 512 % 16)

/-- WSMODE (05 R99) -/
def wsmodeWord (x : Die) : Word := BitVec.ofNat 64 (b2n x.wsPend * 2 + b2n x.wsServing)

/-- CXST (22 R331) -/
def cxstWord (c : Core) : Word := BitVec.ofNat 64 (b2n c.cxNow.isSome * 2 ^ 63 + c.cxRes * 2 ^ 56)

/-- The WSP and WDEP of a thread: inside a loop those of the issuing thread as they stand at the loop's depth (04 R66), in a handler of an
iteration those of its windows (04 R74). -/
def windowOf (s : State) (id : Nat) : Word × Nat :=
  let t := s.thread id
  match s.ringOf id with
  | some (it, r) =>
    if it.inHandler then (t.wsp, t.depth) else (((s.thread (s.control id)).dropFrames r.snap.depth).wsp, r.snap.depth)
  | none => (t.wsp, t.depth)

/-- A written WSP goes to the thread whose windows it is of; the frames that the issuing thread has above the loop's depth stay below it. -/
def putWsp (id : Nat) (v : Word) : M Unit := do
  let s ← getS
  let c := match s.ringOf id with
    | some (it, _) => if it.inHandler then id else s.control id
    | none => id
  let below := (windowOf s id).1 - (s.thread c).wsp
  thr c fun t => { t with wsp := BitVec.ofNat 64 (v.toNat / 128 * 128) - below }

/-- The value of a control register for the thread in a slot. Inside a loop RM and FFLAGS are the iteration's own, and the others the issuing thread's
(04 R66). -/
def crValue (s : State) (lv : Level) (id n : Nat) : Word :=
  let t := s.thread id
  let c := s.thread (s.control id)
  let k := id / 16
  let core := s.coreOf k
  match n with
  | 0x0 => t.rm.setWidth 64
  | 0x1 => t.fflags.setWidth 64
  | 0x2 => c.wlim
  | 0x3 => (windowOf s id).1
  | 0x4 => c.xfid
  | 0x5 => c.uih.setWidth 64
  | 0x6 => c.epc.setWidth 64
  | 0x7 => c.ecause
  | 0x8 => c.evalue
  | 0x9 => core.vt
  | 0xA => refphWord s (dieOf k)
  | 0xB => seqstWord core.array
  | 0xC => core.bankfmt
  | 0xD => wsmodeWord (s.dieOf (dieOf k))
  | 0xE => if lv = .u then 0 else core.clflags
  | 0xF => BitVec.ofNat 64 (windowOf s id).2
  | 0x10 => c.uctl
  | 0x11 => BitVec.ofNat 64 c.level.code
  | 0x12 => ipendWord c
  | 0x13 => c.tsel
  | 0x14 => recBase core.tqb
  | 0x15 => recHt core.tqb
  | 0x16 => core.cxcmd
  | 0x17 => cxstWord core
  | 0x18 => c.sepc.setWidth 64
  | 0x19 => c.scause
  | 0x1A => c.sval
  | n => if n % 2 = 0 then ibdLow (FMap.get {} core.inboxes ((n - 0x20) / 2)) else ibdHigh (FMap.get {} core.inboxes ((n - 0x20) / 2))

/-! ## Writes -/

/-- A counted wait starts its count again under a limit (22 R328). -/
def recount (k t n lim : Nat) : M Unit := do
  let id := tidOf k t
  let again (st : Status) : M Unit := do
    thr id fun t => { t with status := st }
    if lim = 0 then pure () else plan lim (.waitLimit k t n)
  match (← getT id).status with
  | .waiting (some _) => again (.waiting (some n))
  | .parked why (some _) => again (.parked why (some n))
  | _ => pure ()

/-- The waits in progress in the other iterations of a thread. -/
def recountAll (k own ctl n lim : Nat) : List Nat → M Unit
  | [] => pure ()
  | t :: ts => do
    let s ← getS
    if tidOf k t ≠ own && s.occupied (tidOf k t) && s.control (tidOf k t) = ctl then recount k t n lim else pure ()
    recountAll k own ctl n lim ts

/-- BANKFMT written field by field; a core with four banks has four fields (05 R94). -/
def bankFmtOfWrite (k : Nat) (old v : Word) : Word :=
  (List.range (if lsSize k = 0x180000 then 16 else 4)).foldl (fun w b => setBankFmt w b (bits v (4 * b + 3) (4 * b))) old

/-- WSMODE written: a change drains first (05 R99). -/
def setWsmode (d : Nat) (v : Word) : M Unit := do
  let x ← getD d
  if bit v 0 = x.wsServing || x.wsPend then pure ()
  else
    onDie d fun x => { x with wsPend := true }
    plan 0 (.wsmodeDrainEnd d)

/-- SEQST written: only while no TILEMM runs (07 R135). -/
def setSeqst (k : Nat) (v : Word) : M Unit :=
  onCore k fun c =>
    if c.array.busy || !hasArray k then c
    else { c with array := { c.array with
      held := bit v 62, ph := bits v 61 60, mb := bits v 55 42, nb := bits v 41 28, kb := bits v 27 14 } }

/-! ## Acting on another thread (22 R327) -/

/-- Whether a core lies in what a thread at a level may act on: an S thread's partition, an H thread's die. -/
def inScope (s : State) (lv : Level) (k ctx target : Nat) : Bool :=
  match lv with
  | .u => false
  | .h => dieOf target = dieOf k
  | .s =>
    match kindOf target with
    | .compute | .cluster => corePart s target = some (ctxPart s (dieOf k) ctx)
    | _ => true

/-- The core that TSEL names, if it is in scope. -/
def tselCore (s : State) (t : Thread) (k : Nat) : Option Nat :=
  match coreEntry s (dieOf k) t.ctx (bits t.tsel 39 16) with
  | none => none
  | some e =>
    match (if entryPkg e = s.pkg.number then entryCore e else none) with
    | some c => if inScope s t.level k t.ctx c then some c else none
    | none => none

/-- CXCMD written (22 R331): ignored while a command runs; a command for a core out of the issuer's scope traps as a view would. -/
def setCxcmd (lv : Level) (k : Nat) (v : Word) : M Unit := do
  let s ← getS
  if (s.coreOf k).cxNow.isSome then pure ()
  else
    let op := bits v 2 0
    let now_ : Option CxCommand ← do
      if 1 ≤ op && op ≤ 4 then
        let t ← controlT
        match tselCore s t k with
        | none => trap Cause.illegalOperand
        | some c =>
          let slot := bits t.tsel 3 0
          pure (some { core := c, slot := slot, uid := (s.thread (tidOf c slot)).uid, grafting := false, ctx := t.ctx, level := lv.code,
                       issuer := k, addr := bits v 47 8 * 256 })
      else pure none
    onCore k fun c => { c with cxcmd := BitVec.ofNat 64 (bits v 47 8 * 2 ^ 8 + op), cxNow := now_ }

/-- The register of a thread's slot written, under its own field map. -/
def crPut (lv : Level) (id n : Nat) (v : Word) : M Unit := do
  let s ← getS
  let c := s.control id
  let k := id / 16
  match n with
  | 0x0 => thr id fun t => { t with rm := v.setWidth 2 }
  | 0x1 => thr id fun t => { t with fflags := v.setWidth 5 }
  | 0x2 =>
    thr c fun t => { t with wlim := v }
    recountAll k id c s.clock.now v.toNat (List.range 16)
  | 0x3 => putWsp id v
  | 0x5 => thr c fun t => { t with uih := pcNorm (v.setWidth 16) }
  | 0x6 => thr c fun t => { t with epc := pcNorm (v.setWidth 16) }
  | 0x9 =>
    if lv = .h && (s.coreOf k).vt = BitVec.allOnes 64 then do
      onCore k fun c => { c with vt := v }
      glbChanged k
    else pure ()
  | 0xB => setSeqst k v
  | 0xC => onCore k fun c => { c with bankfmt := bankFmtOfWrite k c.bankfmt v }
  | 0xD => setWsmode (dieOf k) v
  | 0xE => if lv = .u then pure () else onCore k fun c => { c with clflags := c.clflags &&& ~~~v }
  | 0x10 => thr c fun t => { t with uctl := uctlNorm v }
  | 0x13 => thr c fun t => { t with tsel := BitVec.ofNat 64 (bits v 39 16 * 2 ^ 16 + bits v 3 0) }
  | 0x14 => setTqb k false v
  | 0x15 => onCore k fun c => { c with tqb := { c.tqb with head := bits v 15 0 } }
  | 0x16 => setCxcmd lv k v
  | 0x18 => thr c fun t => { t with sepc := pcNorm (v.setWidth 16) }
  | 0x19 => thr c fun t => { t with scause := BitVec.ofNat 64 (bits v 63 63 * 2 ^ 63 + bits v 7 0) }
  | 0x1A => thr c fun t => { t with sval := v }
  | n => if 0x20 ≤ n && n ≤ 0x27 then setIbd k ((n - 0x20) / 2) (n % 2 = 1) v else pure ()

/-- A held thread of a lower level that TSEL names. On a core that partitions share, it must be of the issuer's partition. -/
def tselThread (s : State) (t : Thread) (k : Nat) : Option Nat :=
  match tselCore s t k with
  | none => none
  | some c =>
    let id := tidOf c (bits t.tsel 3 0)
    let x := s.thread id
    match x.status with
    | .parked .held _ =>
      let mine := t.level = .h || ctxPart s (dieOf c) x.ctx = ctxPart s (dieOf k) t.ctx
      if s.occupied id && x.level.code < t.level.code && mine then some id else none
    | _ => none

/-- The target of a view; a core out of scope traps, any other failure gives none. -/
def viewTarget : M (Option Nat) := do
  let s ← getS
  let c ← controlT
  let k ← myCore
  check (tselCore s c k).isSome Cause.illegalOperand
  return tselThread s c k

/-- The old value of the register that an instruction names, and for a view its target; a view sets or clears ST. -/
def crOld (n : Nat) : M (Word × Option Nat) := do
  let id ← me
  let s ← getS
  let lv := (← controlT).level
  if n < 0x200 then return (crValue s lv id n, some id)
  else
    check (!(0x213 ≤ n && n ≤ 0x217)) Cause.illegalOperand
    let target ← viewTarget
    writeSt target.isNone
    match target with
    | none => return (0, none)
    | some x =>
      let v := viewNumber n
      return (if 0x40 ≤ v then ((s.thread x).sreg (BitVec.ofNat 7 (v - 0x40)).toNat).val else crValue s lv x v, some x)

/-- A value written to the register that an instruction names. -/
def crStore (n : Nat) (target : Option Nat) (v : Word) : M Unit := do
  let lv := (← controlT).level
  match target with
  | none => pure ()
  | some x =>
    if n < 0x200 then crPut lv x n v
    else
      let r := viewNumber n
      if 0x40 ≤ r then emit (.reg x ((← getT x).place (r - 0x40)) { val := v, full := true }) else crPut lv x r v

/-- Private to an iteration: RM and FFLAGS (22 R328). -/
def awaitControl (n : Nat) : M Unit := if n = 0 || n = 1 then pure () else waitOldest

/-! ## CRRD, CRWR, CRSET, CRCLR (22 R328) -/

/-- CRRD (22 R328) -/
def execCrrd (d : Code) (r : BitVec 10) (s : State) : Out :=
  instr { dst := some d, literals := assigned r.toNat, allowed := mayAccess s false r.toNat } (do
    let (v, _) ← crOld r.toNat
    writeDst d v
    return .next) s

/-- CRWR (22 R328) -/
def execCrwr (a : Code) (r : BitVec 10) (s : State) : Out :=
  instr { srcs := [a], literals := assigned r.toNat, allowed := mayAccess s true r.toNat } (do
    let v ← readSrc a
    awaitControl r.toNat
    let (_, target) ← crOld r.toNat
    crStore r.toNat target v
    return .next) s

/-- CRSET and CRCLR: d := the old value, the register takes a function of it and of a. -/
def crModify (f : Word → Word → Word) (d a : Code) (r : BitVec 10) (s : State) : Out :=
  instr { srcs := [a], dst := some d, literals := assigned r.toNat, allowed := mayAccess s true r.toNat } (do
    let v ← readSrc a
    awaitControl r.toNat
    let (old, target) ← crOld r.toNat
    crStore r.toNat target (f old v)
    writeDst d old
    return .next) s

/-- CRSET (22 R328) -/
def execCrset (d a : Code) (r : BitVec 10) (s : State) : Out := crModify (fun old v => old ||| v) d a r s

/-- CRCLR (22 R328) -/
def execCrclr (d a : Code) (r : BitVec 10) (s : State) : Out := crModify (fun old v => old &&& ~~~v) d a r s

/-! ## TRAP, SCALL, HCALL, ERET, UIRET (22 R329) -/

/-- TRAP (22 R329) -/
def execTrap (a : Code) (x : Bool) (s : State) : Out :=
  instr { srcs := [a] } (do
    let v ← readSrc a x
    stop (.call Cause.trapCall v)) s

/-- SCALL (22 R329) -/
def execScall (a : Code) (x : Bool) (s : State) : Out :=
  instr { srcs := [a] } (do
    check ((← controlT).level ≠ .h) Cause.illegalInstruction
    let v ← readSrc a x
    stop (.call Cause.systemCall v)) s

/-- HCALL (22 R329) -/
def execHcall (a : Code) (x : Bool) (s : State) : Out :=
  instr { srcs := [a], level := .s } (do
    let v ← readSrc a x
    stop (.call Cause.hypervisorCall v)) s

/-- Slots issue nothing before a cycle. -/
def delayAll (k n : Nat) : List Nat → M Unit
  | [] => pure ()
  | t :: ts => do
    thr (tidOf k t) fun th => { th with yieldTo := max th.yieldTo n }
    delayAll k n ts

/-- A loop goes on after a handler or a hold; a restored one that has no ring set yet takes one first (04 R74, 22 R331). -/
def continueLoop (id : Nat) : M Unit := do
  if (← getT id).rebind.isSome then tryBind id else resumeLoop id

/-- A held thread resumes at its SEPC in the next rotation; a loop goes on unless its handler was running (22 R329, 04 R74). -/
def endHold (id : Nat) : M Unit := do
  let loop := ((← getT id).iter.map fun it => !it.inHandler).getD false
  resumeHeld id
  if loop then
    continueLoop id
    match ← ringOf id with
    | some (_, r) => delayAll (id / 16) (nextRotation (← now)) r.slots
    | none => pure ()
  else pure ()

/-- ERET (22 R329) -/
def execEret (s : State) : Out :=
  instr { level := .s } (do
    match tselThread (← getS) (← controlT) (← myCore) with
    | some id =>
      endHold id
      writeSt false
    | none => writeSt true
    return .next) s

/-- A column whose handler returns stands again between its steps, at the index that trapped (04 R85). -/
def columnReturn (id : Nat) : M Unit :=
  thr id fun t => { t with status := if t.col.isSome then .parked .column none else t.status }

/-- UIRET (22 R329, 04 R74, R85) -/
def execUiret (s : State) : Out :=
  instr { literals := (s.thread (s.control (tidOf s.clock.core s.clock.slot))).inh } (do
    awaitPoint
    let id ← me
    let n ← now
    let u := (← self).level == .u
    returnFromHandler id
    thr id fun t => t.issued n .none
    count (id / 16) 2 u
    continueLoop id
    columnReturn id
    return .park) s

/-! ## Asynchronous events (22 R324, R330) -/

/-- A thread stands at a pre-emption point (22 R330). -/
def atBoundary (t : Thread) : Bool :=
  let here := match t.status with
    | .ready => t.bound == .none
    | .waiting _ => true
    | .parked .fetch _ | .parked .ringSet _ | .parked .mwait _ | .parked .registered _ => true
    | .parked .furrow _ => t.col.isNone
    | .parked .column _ => t.bound == .none && !(t.col.any (·.ended))
    | _ => false
  here && (t.annul = 0 || t.col.isSome) && (t.iter.all fun it => it.trapped.isNone)

/-- The slot in which an event for a thread is taken: its own, or its oldest iteration's (04 R75). -/
def pointOf (s : State) (id : Nat) : Option Nat :=
  let t := s.thread id
  match t.iter with
  | some it => if it.inHandler || t.rebind.isSome then some id else oldestSlot s id it.ring
  | none =>
    match (s.coreOf (id / 16)).rings.find? fun p => p.2.owner = id % 16 && !p.2.slots.isEmpty with
    | some (ri, _) => oldestSlot s id ri
    | none => some id
where
  oldestSlot (s : State) (id ri : Nat) : Option Nat :=
    match FMap.get? (s.coreOf (id / 16)).rings ri with
    | none => some id
    | some r =>
      (r.slots.map (tidOf (id / 16))).find? fun x => (s.thread x).iter.any fun it => it.ring = ri && it.idx = r.oldest

/-- The event that is delivered next: upward, or in the thread while INH is 0; lowest cause first. -/
inductive NextEvent where
  | none
  | up (cause : Nat) (value : Word) (core : Nat)
  | own (cause : Nat) (value : Word)
  | done (c : Completion)
deriving DecidableEq, Repr

def nextEvent (t : Thread) : NextEvent :=
  match t.pendUp with
  | (c, v, k) :: _ => .up c v k
  | [] =>
    if t.inh then .none
    else
      match t.pend.io, t.pend.ic, t.pend.bb, t.pend.xc with
      | some v, _, _, _ => .own Cause.integrand v
      | none, some v, _, _ => .own Cause.increment v
      | none, none, some v, _ => .own Cause.barrierBroken v
      | none, none, none, c :: _ => .done c
      | none, none, none, [] => .none

/-- Something can be done now toward the delivery of an event to the thread in a slot. An MWAIT that has begun returns first (12 R225); a wait registered
in another package is withdrawn there first (12 R217); the oldest iteration of a loop completes its producers before it moves to the issuing slot (04
R74, R75). -/
def deliverable (s : State) (id : Nat) : Bool :=
  let t := s.thread id
  nextEvent t != .none && s.control id = id &&
  (match pointOf s id with
   | some p =>
     let q := s.thread p
     atBoundary q && (match q.status with | .parked .mwait _ => false | _ => true) && !(q.col.any (·.mwaiting)) &&
     !(q.asking && q.recalled.isSome) && (p = id || q.producers.isEmpty || !q.draining)
   | none => false)

/-- A loop reduced to its oldest iteration, on the issuing slot (04 R75): the address at which a frame did not fit, if one did not. -/
def reduceLoop (p : Nat) : M (Option Nat) := do
  let t ← getT p
  match t.iter with
  | some it =>
    if it.inHandler || t.rebind.isSome then return none
    else
      match FMap.get? (← getC (p / 16)).rings it.ring with
      | some r =>
        cancelYounger (p / 16) it.idx r.slots
        moveToIssuing p
      | none => return none
  | none => return none

/-- Delivery of the next event of a thread at its pre-emption point: inside a loop the younger iterations are cancelled and the
oldest moves to the issuing slot first. -/
def deliverNext (id : Nat) : M Unit := do
  let s ← getS
  match pointOf s id with
  | none => pure ()
  | some p =>
   if (s.thread p).asking then takeBack p false
   else if p ≠ id && !((s.thread p).producers.isEmpty) then thr p fun t => { t with draining := true }
   else
    let e := nextEvent (s.thread id)
    release p
    let epc := (← getT p).resumePc
    thr p fun t => { t with bound := .none, status := .ready }
    match ← reduceLoop p with
    | some a => deliverSync id Cause.segmentLimit (BitVec.ofNat 64 a) epc
    | none =>
      match e with
      | .none => pure ()
      | .up c v _ =>
        thr id fun t => { t with pendUp := t.pendUp.drop 1 }
        upward id c v epc true
      | .own c v =>
        thr id fun t => { t with pend := t.pend.put c none }
        inThread id c v epc true (← getT id).uih
      | .done c =>
        thr id fun t => { t with
          pend := { t.pend with xc := t.pend.xc.drop 1 },
          xfid := BitVec.ofNat 64 (c.status * 2 ^ 16 + c.xid) }
        inThread id Cause.transfer 0 epc true c.handler

/-- ASYNC_EVENT_DELIVERY (22 R324) -/
def execAsyncEventDelivery (k t : Nat) (s : State) : Out :=
  if deliverable s (tidOf k t) then event (deliverNext (tidOf k t)) s else .next s

/-! ## The trap queue (22 R326) -/

/-- TRAP_QUEUE_RECORD (22 R326): placed, or refused, counted and sent again one rotation later while its thread is held. -/
def execTrapQueueRecord (k : Nat) (r : TrapRecord) (s : State) : Out :=
  event (do
    let q := (← getC k).tqb
    if q.hasRoom && q.placed k 32 && !(← getC k).isSealed then
      storeRecord (lsKey k (q.base + 32 * q.tail)) [r.w0, r.w1, r.w2, r.w3]
      onCore k fun c => { c with tqb := { q with tail := (q.tail + 1) % q.size } }
    else
      countErr k 8
      match r.sender with
      | none => plan 16 (.trapQueueRecord k r)
      | some (c, t) =>
        match (← getT (tidOf c t)).status with
        | .parked .held _ => plan 16 (.trapQueueRecord k r)
        | _ => pure ()) s

/-- TQB_WRITE (22 R326, 24 R357) -/
def execTqbWrite (k : Nat) (eq : Bool) (v : Word) (s : State) : Out := event (setTqb k eq v) s

/-- WSMODE_WRITE (05 R99) -/
def execWsmodeWrite (die : Nat) (v : Word) (s : State) : Out := event (setWsmode die v) s

/-- REGISTER_WRITE (00 R4): a register takes the bits that its field map lets a write change. -/
def execRegisterWrite (r : DevReg) (v : Word) (s : State) : Out :=
  event (do
    match r with
    | .control k t n => crPut .h (tidOf k t) n v
    | .device addr =>
      match devName addr with
      | some (d, name) => devSet d name 0 none v
      | none => stop (.refuse (.unspecifiedDevice addr))) s

/-! ## SEGLD, SEGRD (23 R335, R336) -/

/-- The segment selector: no bit of it but the named ones. -/
def goodSelector (v : Word) (half : Bool) : Bool := bits v 63 9 = 0 && bits v 7 4 = 0 && (half || !bit v 3)

/-- An image that SEGLD takes. -/
def goodImage (v : BitVec 128) : Bool := segKind v ≠ 3 && segNorm v = v

/-- SEGLD (23 R335) -/
def execSegld (a b : Code) (x y : Bool) (s : State) : Out :=
  instr { srcs := [a, b], level := .s } (do
    let (va, vb) ← operands2 a b x y
    check (goodSelector vb false) Cause.illegalOperand
    check (va.toNat % 16 = 0) Cause.illegalOperand
    waitOldest
    awaitSlot 1
    let ps ← locateWords va 2
    match ← gather [va, vb] ps with
    | none => return .stay
    | some bs =>
      let ws := wordsOf bs 2
      let image : BitVec 128 := ws.getD 1 0 ++ ws.getD 0 0
      check (goodImage image) Cause.illegalOperand
      let i := bits vb 2 0
      let put (id : Nat) : M Unit := thr id fun t => { t with segs := FMap.set t.segs i image }
      if bit vb 8 then
        match tselThread (← getS) (← controlT) (← myCore) with
        | some id => do put id; writeSt false
        | none => writeSt true
      else
        put (← control)
        writeSt false
      return .next) s

/-- SEGRD (23 R336) -/
def execSegrd (d a : Code) (x : Bool) (s : State) : Out :=
  instr { srcs := [a], dst := some d } (do
    let va ← readSrc a x
    check (goodSelector va true) Cause.illegalOperand
    check (!bit va 8 || (← controlT).level ≠ .u) Cause.privileged
    let half (id : Nat) : M Word := do
      let v := FMap.get 0 (← getT id).segs (bits va 2 0)
      return BitVec.ofNat 64 (if bit va 3 then bits v 127 64 else bits v 63 0)
    if bit va 8 then
      match tselThread (← getS) (← controlT) (← myCore) with
      | some id => do writeDst d (← half id); writeSt false
      | none => do writeDst d 0; writeSt true
    else
      writeDst d (← half (← control))
      writeSt false
    return .next) s

/-! ## Shoot-downs (23 R348 to R350) -/

/-- Largest page, by which a request is widened to whole pages where the page's size is not kept. -/
def widest : Nat := 2 ^ 25

/-- Whether a request covers a page of a size that may hold a linear address. -/
def shootHits (r : Shoot) (page ctx a : Nat) : Bool :=
  match r.sc with
  | 3 => true
  | 2 => r.ctx = ctx
  | 1 => r.ctx = ctx && r.addr / page ≤ a / page && a / page ≤ (r.addr + (r.cnt + 1) * 65536 - 1) / page
  | _ => r.ctx = ctx && r.addr / page = a / page

def covers (r : Shoot) (ctx a : Nat) : Bool := shootHits r widest ctx a

/-- The request removes a cached translation. -/
def shootRemoves (r : Shoot) (e : TlbEntry) : Bool := shootHits r (pageSize (bits e.dw0 61 60)) e.ctx e.lin

/-- The ports of the load-store domain (23 R348), 32 * die + number: the memory ports of the 28 clusters, the last-level TLB, the streamers, the copy ports
and the port cores. -/
def allPorts : List Nat := List.range 256

/-- The port through which the accesses of a core are translated. -/
def accessPort (k : Nat) : Nat :=
  32 * dieOf k + (match kindOf k with | .compute => clusterOf k | .port => 31 | _ => 28)

/-- The port of the master of an engine command. -/
def masterPort (k : Nat) : Nat :=
  32 * dieOf k + (match kindOf k with | .memSide => 29 | .port => 31 | _ => 30)

/-- The core at which a port stands. -/
def portPlace (port : Nat) : Nat :=
  let d := port / 32
  if port % 32 < 28 then clusterCore d (port % 32) else 3808 + 4 * d

/-- An engine command that holds a translation the request covers (07 R140). -/
def commandHolds (r : Shoot) (cmd : Command) : Bool :=
  let pages (sd : Side) : Bool := sd.pages.any fun p => covers r cmd.rep.ctx (p.1 * 65536)
  !cmd.held && (match cmd.work with
    | .copy c => pages c.src || pages c.dst
    | .nearBank n => pages n.w || pages n.y
    | .tile _ _ _ => false)

/-- A buffered store of a thread's iteration that the request covers. -/
def bufferHolds (s : State) (r : Shoot) (id : Nat) (t : Thread) : Bool :=
  t.iter.any fun it => it.buf.any fun b => (linearOf (s.thread (s.control id)) b.addr).any fun a => covers r t.ctx a

/-- Accesses in progress of the threads that a request concerns. -/
def openAccesses (s : State) (ctx sc : Nat) : List (Nat × Nat) :=
  s.threads.flatMap fun (id, t) => if sc = 3 || t.ctx = ctx then t.outstanding.map fun p => (id, p.1) else []

/-- Nothing at a port still uses a translation that was removed (23 R349 steps 3 and 4). -/
def shootQuiet (s : State) (p : Pendant) (port : Nat) : Bool :=
  (p.accesses.all fun (id, n) => accessPort (id / 16) ≠ port || (FMap.get? (s.thread id).outstanding n).isNone) &&
  (s.cores.all fun (_, c) => c.commands.all fun q => masterPort q.2.master ≠ port || !(commandHolds p.req q.2)) &&
  (s.threads.all fun (id, t) =>
    accessPort (id / 16) ≠ port || s.control id = tidOf p.req.fromCore p.req.fromSlot || !(bufferHolds s p.req id t))

/-- Waits registered in this package whose word a removed translation named are withdrawn (23 R349 step 5). -/
def retryWaiters (r : Shoot) (port : Nat) : List Waiter → M Unit
  | [] => pure ()
  | w :: ws => do
    let s ← getS
    let id := tidOf w.core w.slot
    let c := s.thread (s.control id)
    if w.remote.isNone && accessPort w.core = port && (linearOf c w.addr).any fun a => covers r c.ctx a then
      match w.polls, (s.thread id).status with
      | true, _ => withdraw id
      | false, .parked .registered _ => executeAgain id
      | _, _ => pure ()
    else pure ()
    retryWaiters r port ws

/-- Waits registered in other packages likewise. -/
def retryAway (r : Shoot) (port : Nat) : List (Nat × Thread) → M Unit
  | [] => pure ()
  | (id, t) :: ts => do
    let c := (← getS).thread ((← getS).control id)
    match t.status with
    | .parked .registered _ =>
      if t.asking && accessPort (id / 16) = port && (linearOf c t.gatherEa).any fun a => covers r c.ctx a then takeBack id false else pure ()
    | _ => pure ()
    retryAway r port ts

/-- Step 1 at a port: its generation goes up and it drops what matches; the selectors of the context, which the package holds once, go with RS at the
first port. -/
def shootPort (r : Shoot) (port : Nat) (first : Bool) : M Unit := do
  onDie (port / 32) fun x =>
    let q := FMap.get {} x.memPorts (port % 32)
    { x with memPorts := FMap.set x.memPorts (port % 32) {
        gen := q.gen + 1, banks := q.banks.map fun b => (b.1, b.2.filter fun e => !(shootRemoves r e)) } }
  if r.rs && first then onPkg fun q => { q with selectors := q.selectors.filter fun x => x / 128 ≠ r.ctx } else pure ()

/-- SHOOTDOWN_PORT (23 R349): a port takes a request: once, its effect on what it holds; then, once nothing uses a removed
translation, the acknowledgement. The thread goes on when every port has acknowledged. -/
def execShootdownPort (port : Nat) (r : Shoot) (s : State) : Out :=
  event (do
    match (← getS).pkg.shoots.find? fun p => p.req = r && p.waiting.contains port with
    | none => pure ()
    | some p =>
      if p.begun.contains port then pure ()
      else
        shootPort r port p.begun.isEmpty
        let s ← getS
        retryWaiters r port (s.cores.flatMap fun (_, c) => c.waiters)
        retryAway r port s.threads
      let p := { p with begun := NSet.insert p.begun port }
      let done := shootQuiet (← getS) p port
      let p := if done then { p with waiting := NSet.erase p.waiting port } else p
      onPkg fun q => { q with shoots := q.shoots.filterMap fun x => if x.req = r then (if p.waiting.isEmpty then none else some p) else some x }
      if !done then plan 1 (.shootdownPort port r)
      else if p.waiting.isEmpty then
        let id := tidOf r.fromCore r.fromSlot
        match (← getT id).status with
        | .parked .engine _ => goOn id
        | _ => pure ()
      else pure ()) s

def planPorts (r : Shoot) : List Nat → M Unit
  | [] => pure ()
  | p :: ps => do
    plan (Config.transit r.fromCore (portPlace p)) (.shootdownPort p r)
    planPorts r ps

/-- SHOOT (23 R348) -/
def execShoot (a b : Code) (x y : Bool) (s : State) : Out :=
  instr { srcs := [a, b], level := .s } (do
    let va ← readSrc a x
    let vb ← readSrc b y
    let sc := bits vb 43 42
    let ctx := bits vb 63 48
    let cnt := bits vb 15 0
    check (bits vb 47 45 = 0 && bits vb 41 16 = 0 && bits va 63 48 = 0 && (!bit vb 44 || sc = 2) && (sc ≠ 3 || ctx = 0) && (sc = 1 || cnt = 0))
      Cause.illegalOperand
    let c ← controlT
    check (sc ≠ 3 || c.level = .h) Cause.privileged
    let k ← myCore
    let s ← getS
    check (c.level ≠ .s || ctxPart s (dieOf k) ctx = ctxPart s (dieOf k) c.ctx) Cause.illegalOperand
    waitOldest
    awaitPoint
    let id ← me
    let r : Shoot := { ctx := ctx, addr := va.toNat, sc := sc, cnt := cnt, rs := bit vb 44, fromCore := k, fromSlot := id % 16 }
    onPkg fun p => { p with shoots := p.shoots ++ [{ req := r, waiting := allPorts, accesses := openAccesses s ctx sc }] }
    planPorts r allPorts
    thr id fun t => { t with status := .parked .engine none }
    return .stay) s

end Sys2Proof.Machine
end

