-- ==== Sys2Proof/Machine/Save.lean ====
section
/-! DEFINITION. Pre-emption: thread records and core records, saving and restoring (22 R330 to R333, 04 R75, R86). -/

namespace Sys2Proof.Machine

/-! ## The record in memory (22 R331) -/

/-- Bytes of a thread record and of a core record. -/
def threadBytes : Nat := 0x4800
def coreBytes : Nat := 0x12400

/-- The 256-byte blocks of n bytes from a linear address: places, by the issuer's translation; none where a block has none in memory
of this package that takes the access. -/
def recordPlaces (s : State) (c : CxCommand) (a : Nat) (need : Need) : Nat → Option (List Place)
  | 0 => some []
  | n + 1 =>
    match (translate (BitVec.ofNat 64 a) c.issuer c.ctx (Level.ofCode c.level) (a % 2 ^ 48) need hwSegment).eval s with
    | .ok ((p, _), _) =>
      let fits := match p with
        | .hbm _ _ | .host _ => true
        | .ls k _ => !(s.coreOf k).isSealed
        | .ws d _ _ => !(s.dieOf d).wsPend && (s.dieOf d).wsServing != need.wr
        | _ => false
      if fits then (recordPlaces s c (a + 256) need n).map (p :: ·) else none
    | .error _ => none

def writeBlocks : List Place → List Byte → M Unit
  | [], _ => pure ()
  | p :: ps, bs => do
    writePart p (bs.take 256)
    writeBlocks ps (bs.drop 256)

def readBlocks : List Place → M (List Byte × Bool)
  | [] => return ([], false)
  | p :: ps => do
    let (bs, bad) ← readPart p 256
    let (rest, more) ← readBlocks ps
    return (bs ++ rest, bad || more)

def wordBytes (ws : List Word) : List Byte := ws.flatMap fun w => leBytes 8 w.toNat

/-- Doublewords with zeros after them up to a number. -/
def padded (n : Nat) (ws : List Word) : List Word := ws ++ List.replicate (n - ws.length) 0

/-- The words of a record at a distance from the command's address; none after a translation or poison fault. -/
def readRecord (c : CxCommand) (off n : Nat) : M (Option (List Word)) := do
  match recordPlaces (← getS) c (c.addr + off) .load (n / 256) with
  | none => return none
  | some ps =>
    let (bs, bad) ← readBlocks ps
    return if bad then none else some (wordsOf bs (n / 8))

/-- The place that identifies a record. -/
def recordKey (s : State) (c : CxCommand) (off : Nat) : Nat :=
  match recordPlaces s c (c.addr + off) .load 1 with
  | some (p :: _) => p.flat
  | _ => 0

/-! ## Thread records (22 R332) -/

/-- A loop that a thread is in: bound, or waiting for a ring set after a restore. -/
def loopOf (s : State) (t : Thread) (k : Nat) : Option (IterCtx × Ring) :=
  match t.iter with
  | none => none
  | some it =>
    match t.rebind with
    | some r => some (it, r)
    | none => (FMap.get? (s.coreOf k).rings it.ring).map fun r => (it, r)

/-- Part of a furrow that a record describes. -/
structure FurrowPart where
  last : Nat
  next : Nat
  col : Nat
deriving DecidableEq, Repr

def isHeld (t : Thread) : Bool :=
  match t.status with
  | .parked .held _ => true
  | _ => false

def valueOr (v : Option Word) : Word := v.getD 0

def completionWord (c : Completion) : Word := BitVec.ofNat 64 (c.handler.toNat * 2 ^ 32 + c.status * 2 ^ 16 + c.xid)

def monitorWord (t : Thread) (i : Nat) : Word :=
  match FMap.get? t.monitors i with
  | some m => (m.addr &&& ~~~63#64) ||| 1#64
  | none => 0

/-- Doublewords 0x000 to 0x0F8. -/
def headWords (t : Thread) (pc : BitVec 16) (loop : Bool) (f : Option FurrowPart) : List Word :=
  padded 32 ([
    BitVec.ofNat 64 (t.ctx % 2 ^ 16 * 2 ^ 32 + b2n t.inh * 2 ^ 24 + t.annul % 4 * 2 ^ 22 + b2n (isHeld t) * 2 ^ 21 +
      b2n (f.any fun x => x.col ≠ 0) * 2 ^ 20 + b2n (f.any fun x => x.col = 0) * 2 ^ 19 + b2n loop * 2 ^ 18 + t.level.code * 2 ^ 16 + pc.toNat),
    BitVec.ofNat 64 (t.fflags.toNat * 2 ^ 34 + t.rm.toNat * 2 ^ 32 + t.pw.toNat),
    t.wlim, t.wsp, BitVec.ofNat 64 t.depth, t.uih.setWidth 64, t.epc.setWidth 64, t.ecause, t.evalue, t.xfid, t.uctl, ipendWord t,
    t.sepc.setWidth 64, t.scause, t.sval, valueOr t.pend.bb, valueOr t.pend.io, valueOr t.pend.ic] ++
    padded 4 ((t.pend.xc.take 4).map completionWord) ++
    [t.shape.word, BitVec.ofNat 64 (t.shape.es * 2 ^ 62)] ++
    (List.range 4).map (monitorWord t) ++
    [BitVec.ofNat 64 (((List.range 64).filter fun i => i ≤ t.depth && t.spawnWindows.contains (t.depth - i)).map (2 ^ ·)).sum,
     match f with
     | some x => BitVec.ofNat 64 (x.col * 2 ^ 32 + x.next % 2 ^ 16 * 2 ^ 16 + x.last)
     | none => 0,
     BitVec.ofNat 64 t.icnt])

/-- An entry of the write buffer: the thread address of its first byte, with the mask of the bytes from there, and its data. -/
def bufferWords (b : Buffered) : List Word :=
  let bs := b.parts.flatMap (·.2)
  [BitVec.ofNat 64 (b.addr.toNat + (2 ^ bs.length - 1) * 2 ^ 48 + b2n b.relaxed * 2 ^ 56), BitVec.ofNat 64 (leValue bs)]

/-- Doublewords 0x400 to 0x7F8. -/
def loopWords (l : Option (IterCtx × Ring)) : List Word :=
  match l with
  | none => List.replicate 128 0
  | some (it, r) =>
    padded 32 ([BitVec.ofNat 64 r.n, BitVec.ofNat 64 it.idx,
      BitVec.ofNat 64 (r.snap.depth * 2 ^ 32 + r.exit.toNat * 2 ^ 16 + (r.q - 1) % 8 * 2 ^ 4 + r.r % 8), 0, 0, 0, 0, 0] ++
      (List.range 8).map (fun n => (FMap.get {} it.written n).val) ++
      [BitVec.ofNat 64 ((it.written.map fun p => 2 ^ p.1).sum)]) ++
    padded 64 (padded 32 (r.snap.regs.map Reg.val) ++
      [r.snap.pw.setWidth 64, r.snap.rm.setWidth 64, r.snap.fflags.setWidth 64, BitVec.ofNat 64 r.snap.depth]) ++
    padded 32 ((it.buf.take 16).flatMap bufferWords)

def tileWords (t : Thread) : List Word :=
  wordsOf ((List.range 0x4000).map t.tileByte) 0x800

/-- The record of a thread. -/
def threadRecord (t : Thread) (pc : BitVec 16) (l : Option (IterCtx × Ring)) (f : Option FurrowPart) : List Word :=
  headWords t pc l.isSome f ++ t.window.map Reg.val ++
  (List.range 64).map (fun i => (FMap.get {} t.vers i).val) ++ loopWords l ++ tileWords t

/-- What the record has no field for. -/
def savedOf (t : Thread) (k slot : Nat) (l : Option (IterCtx × Ring)) : Saved :=
  let base : Saved := {
    uid := t.uid, tcb := t.tcb, tcbKey := t.tcbKey, sid := t.sid, twin := t.twin, core := k, slot := slot,
    monitors := t.monitors.filter fun p => p.2.away.isSome }
  match l with
  | none => base
  | some (it, r) =>
    { base with body := r.body, flags := r.flags, shape := r.snap.shape, direct := it.direct, inHandler := it.inHandler }

/-! ## Saving a thread (22 R330, R331) -/

/-- A thread may be taken for saving: an instruction boundary, a wait, or held (22 R330). -/
def savePoint (t : Thread) : Bool := atBoundary t || isHeld t

/-- A thread taken for saving issues nothing more. -/
def holdBack (id : Nat) : M Unit := do
  let n ← now
  thr id fun t => { t with yieldTo := max t.yieldTo (n + 1) }

/-- The monitors of a saved thread stay at their homes, latched where they have latched (03 R61). -/
def leaveMonitors (k slot : Nat) (t : Thread) : List (Nat × Core) → M Unit
  | [] => pure ()
  | (h, c) :: cs => do
    let mine (m : MonReg) : Bool := m.core = k && m.slot = slot && m.away.isNone && m.remote.isNone
    let latched (m : MonReg) : Bool := (FMap.get? t.monitors m.index).any (·.latched)
    if c.monRegs.any mine then
      onCore h fun c => { c with monRegs := c.monRegs.map fun m => if mine m then { m with away := some t.uid, hit := latched m } else m }
    else pure ()
    leaveMonitors k slot t cs

/-- A saved thread leaves its slot; events that were pending go upward or become records (22 R323, 07 R143). -/
def leaveSlot (id : Nat) : M Unit := do
  let t ← getT id
  leaveMonitors (id / 16) (id % 16) t (← getS).cores
  vacate id
  recordsOf t.ctx (id / 16) t.pend.xc

/-- A wait of a thread that is registered in another package is withdrawn there first. -/
def recallWait (id : Nat) : M Unit := do
  let t ← getT id
  match t.status with
  | .parked .registered _ => if t.asking && t.recalled.isNone then takeBack id false else pure ()
  | _ => pure ()

def recallWaits : List Nat → M Unit
  | [] => pure ()
  | id :: ids => do recallWait id; recallWaits ids

/-- The slot with a thread that an ordinary save would take, once it is at a pre-emption point with nothing outstanding: none while it
has still to come there. The thread issues nothing more meanwhile. -/
def readyToSave (id : Nat) : M (Option Nat) := do
  match pointOf (← getS) id with
  | none => return none
  | some p =>
    if savePoint (← getT p) then
      holdBack p
      recallWait p
      return if drained (← getT p) && drained (← getT id) then some p else none
    else return none

/-- A thread brought to the state that its record holds: registrations withdrawn, a loop reduced to its oldest iteration, windows
spilled (22 R331). False: the loop's frames did not fit, and its trap is taken first (04 R74). -/
def settleForSave (id p : Nat) : M Bool := do
  let epc := (← getT p).resumePc
  let held := isHeld (← getT p)
  if held then pure () else
    release p
    thr p fun t => { t with bound := .none, status := .ready }
    emit (.pc p epc)
  match ← (if held then pure none else reduceLoop p) with
  | none =>
    let t ← getT id
    spillBelow id (t.depth - t.wbase)
    return true
  | some a =>
    deliverSync id Cause.segmentLimit (BitVec.ofNat 64 a) epc
    return false

/-- The thread of a slot that is settled: its record and what goes with it; then its slot is empty and its ring set free. -/
def takeOut (id : Nat) : M (List Word × Saved) := do
  let s ← getS
  let k := id / 16
  let t := s.thread id
  let l := loopOf s t k
  leaveSlot id
  match t.iter with
  | some it => if t.rebind.isNone then freeRing k it.ring else pure ()
  | none => pure ()
  return (threadRecord t t.pc l none, savedOf t k (id % 16) l)

/-- A slot without a thread of its own: a helper of a loop, or a column of a furrow other than the head's. -/
def noThread (s : State) (id : Nat) : Bool :=
  s.control id ≠ id || (s.thread id).col.any (fun c => c.j ≠ 0) ||
  (match (s.thread id).status with
   | .parked .loopEnd _ => !((s.coreOf (id / 16)).rings.any fun p => p.2.owner = id % 16)
   | _ => false)

/-- The columns of a furrow that has come to a common index: head first; none while it has still to come there (04 R86). -/
def furrowReady (s : State) (h : Nat) (f : Furrow) : Option (List Nat) :=
  let ids := (List.range (f.last + 1)).map fun j => tidOf (h + j) 15
  let n := ((s.thread (tidOf h 15)).col.map (·.idx)).getD 0
  if ids.all fun id =>
      let t := s.thread id
      t.col.any (fun c => c.idx = n && !c.inHandler) && (savePoint t) && drained t
  then some ids else none

/-- Records of the columns, and their slots emptied. -/
def takeColumns (pc : BitVec 16) (f : FurrowPart) : List Nat → M (List (List Word × Saved))
  | [] => return []
  | id :: ids => do
    if isHeld (← getT id) then pure () else release id
    spillBelow id ((← getT id).depth - (← getT id).wbase)
    let t ← getT id
    leaveSlot id
    let rest ← takeColumns pc { f with col := f.col + 1 } ids
    return (threadRecord t pc none (some f), savedOf t (id / 16) 15 none) :: rest

/-- A thread of a slot, or the furrow that it heads, taken out once it can be: its records, head first. -/
def takeThread (id : Nat) : M (Option (List (List Word × Saved))) := do
  let s ← getS
  let t := s.thread id
  match t.col with
  | some c =>
    match FMap.get? s.pkg.furrows c.head with
    | none => return none
    | some f =>
      if !f.started || f.fendAt.isSome then return none
      else
        onPkg fun p => { p with furrows := FMap.set p.furrows c.head { f with draining := true } }
        recallWaits ((List.range (f.last + 1)).map fun j => tidOf (c.head + j) 15)
        match furrowReady s c.head f with
        | none => return none
        | some ids =>
          let rs ← takeColumns (if isHeld t then t.pc else t.resumePc) { last := f.last, next := c.idx, col := 0 } ids
          onPkg fun p => { p with furrows := FMap.erase p.furrows c.head }
          return some rs
  | none =>
    match ← readyToSave id with
    | none => return none
    | some p =>
      if ← settleForSave id p then return some [← takeOut id] else return none

/-- Records written one after another, with what goes with each. -/
def writeRecords (c : CxCommand) (off : Nat) : List (List Word × Saved) → M Unit
  | [] => pure ()
  | (ws, sv) :: rest => do
    match recordPlaces (← getS) c (c.addr + off) .store (threadBytes / 256) with
    | some ps => writeBlocks ps (wordBytes ws)
    | none => pure ()
    let key := recordKey (← getS) c off
    onPkg fun p => { p with saved := FMap.set p.saved key { sv with record := ws } }
    writeRecords c (off + threadBytes) rest

/-- Records that a save of a thread will write. -/
def recordCount (s : State) (t : Thread) : Nat :=
  match t.col with
  | some c => ((FMap.get? s.pkg.furrows c.head).map (·.last + 1)).getD 1
  | none => 1

/-- The command is kept with its thread on its way by a graft, or not. -/
def markGraft (c : CxCommand) (on : Bool) : M Unit :=
  if c.grafting = on then pure ()
  else onCore c.issuer fun x => { x with cxNow := x.cxNow.map fun y => { y with grafting := on } }

/-- One attempt at the save of a thread: its result code once it has ended. -/
def saveThread (c : CxCommand) : M (Option Nat) := do
  let s ← getS
  let id := tidOf c.core c.slot
  let t := s.thread id
  let mine := c.level ≠ 1 || ctxPart s (dieOf c.core) t.ctx = ctxPart s (dieOf c.issuer) c.ctx
  if !(s.occupied id) || t.uid ≠ c.uid || !mine then return some (if c.grafting then 4 else 1)
  else
    let going := match t.status with | .parked .graft _ => true | _ => false
    markGraft c going
    if going || noThread s id then return none
    else
      match recordPlaces s c c.addr .store (recordCount s t * (threadBytes / 256)) with
      | none => return some 3
      | some _ =>
        match ← takeThread id with
        | none => return none
        | some rs => do
          writeRecords c 0 rs
          return some 0

/-! ## Restoring a thread (22 R331, R332) -/

/-- The limits of the registers of a record, for an issuer's level and a target core. -/
def goodThreadRecord (k lv : Nat) (w : List Word) : Bool :=
  let d (i : Nat) : Word := w.getD i 0
  let lvl := bits (d 0) 17 16
  let off (i : Nat) : Bool := (d i).toNat < 2 ^ 16 && (d i).toNat % 4 = 0
  let cause (i : Nat) : Bool := bits (d i) 62 8 = 0
  let sh : Shape :=
    { es := bits (d 23) 63 62, gc := bits (d 22) 63 48, gr := bits (d 22) 47 32, ac := bits (d 22) 31 16, ar := bits (d 22) 15 0 }
  bits (d 0) 15 0 % 4 = 0 && lvl ≤ lv && (lvl ≠ 1 || kindOf k = .cluster) && (lvl ≠ 2 || kindOf k = .dieCtl) &&
  bits (d 0) 31 25 = 0 && bits (d 0) 63 48 = 0 && bits (d 1) 63 39 = 0 && pwNorm (BitVec.ofNat 32 (bits (d 1) 31 0)) = BitVec.ofNat 32 (bits (d 1) 31 0) &&
  (d 3).toNat % 128 = 0 && (d 4).toNat < 2 ^ 32 && off 5 && off 6 && cause 7 && bits (d 9) 63 24 = 0 && off 12 && cause 13 &&
  sh.es ≤ 2 && sh.gc * 2 ^ sh.es ≤ 256 && sh.gr ≤ 64 && sh.gc * sh.gr * 2 ^ sh.es ≤ 2048 && sh.ac ≤ sh.gc && sh.ar ≤ sh.gr &&
  (d 30).toNat ≤ 8 &&
  (!bit (d 0) 18 || (d 129).toNat < (d 128).toNat && bits (d 130) 19 16 % 4 = 0 && !bit (d 0) 19 && !bit (d 0) 20)

/-- The runs of bytes of a mask, by first byte and length, each within an aligned doubleword of its address. -/
def maskRuns (mask ea i : Nat) : Nat → List (Nat × Nat)
  | 0 => []
  | n + 1 =>
    let rest := maskRuns mask ea (i + 1) n
    if mask / 2 ^ i % 2 = 0 then rest
    else
      match rest with
      | (j, l) :: more => if j = i + 1 && (ea + j) % 8 ≠ 0 then (i, l + 1) :: more else (i, 1) :: rest
      | [] => [(i, 1)]

/-- The buffered stores of a record: address, runs of bytes, data, kind. -/
def recordBuffer (w : List Word) : List (Nat × List (Nat × Nat) × Word × Bool) :=
  ((List.range 16).map fun e =>
    let a := w.getD (224 + 2 * e) 0
    let ea := bits a 63 61 * 2 ^ 61 + bits a 47 0
    (ea, maskRuns (bits a 55 48) ea 0 8, w.getD (225 + 2 * e) 0, bit a 56)).filter fun p => !p.2.1.isEmpty

/-- A buffered store's place for the restored thread. -/
def bufferPlace (s : State) (k : Nat) (t : Thread) (ea : Nat) : Option Place :=
  let a : Word := BitVec.ofNat 64 ea
  let sg := FMap.get 0 t.segs (bits a 63 61)
  let lin := (segBase sg + bits a 47 0) % 2 ^ 48
  if segKind sg = 1 then some (.own (lsKey k lin))
  else if segKind sg = 2 then
    match (translate a k t.ctx t.level lin .store sg).eval s with
    | .ok ((p, _), _) => some (match p with | .ls c key => if c = k then .own key else p | p => p)
    | .error _ => none
  else none

/-- The parts of a buffered store, and all buffered stores; none where a part has no place. -/
def bufferParts (s : State) (k : Nat) (t : Thread) (ea : Nat) (data : Word) : List (Nat × Nat) → Option (List (Place × List Byte))
  | [] => some []
  | (i, n) :: rest =>
    match bufferPlace s k t (ea + i), bufferParts s k t ea data rest with
    | some p, some out => some ((p, leBytes n (data.toNat / 2 ^ (8 * i))) :: out)
    | _, _ => none

def bufferPlaces (s : State) (k : Nat) (t : Thread) : List (Nat × List (Nat × Nat) × Word × Bool) → Option (List Buffered)
  | [] => some []
  | (ea, runs, data, rl) :: rest =>
    match bufferParts s k t ea data runs, bufferPlaces s k t rest with
    | some ps, some out => some ({ addr := BitVec.ofNat 64 ea, parts := ps, relaxed := rl } :: out)
    | _, _ => none

def tilesOf (ws : List Word) : FMap Byte :=
  ((wordBytes ws).zipIdx.filter fun p => p.1 ≠ 0).map fun p => (p.2, p.1)

/-- The thread of a record in a slot, without its loop (22 R332). -/
def recordThread (s : State) (k slot : Nat) (w : List Word) (sv : Option Saved) : Thread :=
  let d (i : Nat) : Word := w.getD i 0
  let ctx := bits (d 0) 47 32
  let pc : BitVec 16 := (d 0).setWidth 16
  let depth := (d 4).toNat
  let marks := (List.range 64).filter fun i => bit (d 28) i && i ≤ depth
  let sid := match sv with
    | some x => x.sid
    | none => FMap.get 0 (s.coreOf k).sids (frameOf pc)
  { newThread s k slot (Level.ofCode (bits (d 0) 17 16)) ctx ((logicalOf s (dieOf k) ctx k).getD 0) pc with
    status := if bit (d 0) 21 then .parked .held none else .ready
    tcb := (sv.map (·.tcb)).getD 0
    tcbKey := (sv.map (·.tcbKey)).getD 0
    sid := sid
    uid := (sv.map (·.uid)).getD 0
    twin := sv.bind (·.twin)
    annul := bits (d 0) 23 22
    inh := bit (d 0) 24
    pw := (d 1).setWidth 32
    rm := BitVec.ofNat 2 (bits (d 1) 33 32)
    fflags := BitVec.ofNat 5 (bits (d 1) 38 34)
    wlim := d 2
    wsp := d 3
    depth := depth
    wbase := depth
    uih := (d 5).setWidth 16
    epc := (d 6).setWidth 16
    ecause := d 7
    evalue := d 8
    xfid := d 9
    sepc := (d 12).setWidth 16
    scause := d 13
    sval := d 14
    shape := { es := bits (d 23) 63 62, gc := bits (d 22) 63 48, gr := bits (d 22) 47 32, ac := bits (d 22) 31 16, ar := bits (d 22) 15 0 }
    spawnWindows := marks.map (depth - ·)
    icnt := (d 30).toNat
    regs := ((List.range 32).map fun c => (if c < 8 then c else 8 + 16 * depth + (c - 8), { val := d (32 + c), full := true }))
    vers := (List.range 64).map fun i => (i, { val := d (64 + i), full := true })
    monitors := ((List.range 4).filter fun i => bit (d (24 + i)) 0).map fun i =>
      (i, ((sv.bind fun x => FMap.get? x.monitors i).getD { line := 0, addr := d (24 + i) &&& ~~~63#64, latched := false }))
    tiles := tilesOf (w.drop 256) }

/-- The loop of a record: its iteration and its ring, for the issuing slot. -/
def recordLoop (slot : Nat) (w : List Word) (sv : Saved) (buf : List Buffered) : IterCtx × Ring :=
  let d (i : Nat) : Word := w.getD i 0
  let snap : Snapshot :=
    { regs := (List.range 32).map fun c => { val := d (160 + c), full := true }
      pw := (d 192).setWidth 32, rm := (d 193).setWidth 2, fflags := (d 194).setWidth 5, depth := (d 195).toNat, shape := sv.shape }
  let written : FMap Reg := ((List.range 8).filter fun n => bit (d 144) n).map fun n => (n, { val := d (136 + n), full := true })
  let o := (d 129).toNat
  ({ ring := 2, owner := slot, idx := o, written := written, buf := buf, direct := sv.direct, inHandler := sv.inHandler },
   { owner := slot, n := (d 128).toNat, q := bits (d 130) 6 4 + 1, r := bits (d 130) 2 0, body := sv.body,
     exit := BitVec.ofNat 16 (bits (d 130) 31 16), g := 1, slots := [slot], snap := snap, oldest := o, base := o, flags := sv.flags,
     stopped := true })

/-- The other copy of a twinned thread learns where this one now is. -/
def retwin (id : Nat) (sv : Saved) : M Unit := do
  match sv.twin with
  | none => pure ()
  | some tw =>
    let moved (q : Twin) : Twin := if q.peerCore = sv.core && q.peerSlot = sv.slot then { q with peerCore := id / 16, peerSlot := id % 16 } else q
    thr (tidOf tw.peerCore tw.peerSlot) fun p => { p with twin := if p.tcbKey = sv.tcbKey then p.twin.map moved else p.twin }
    onPkg fun p => { p with saved := p.saved.map fun x =>
      (x.1, if x.2.tcbKey = sv.tcbKey && x.2.core = tw.peerCore && x.2.slot = tw.peerSlot then { x.2 with twin := x.2.twin.map moved } else x.2) }

/-- What a record of a single thread becomes in a slot: false where its buffered stores have no place. -/
def putThread (k slot : Nat) (w : List Word) (sv : Option Saved) : M Bool := do
  let s ← getS
  let id := tidOf k slot
  let t := recordThread s k slot w sv
  let loop := bit (w.getD 0 0) 18
  match (if loop then bufferPlaces s k t (recordBuffer w) else some []) with
  | none => return false
  | some buf =>
    match loop, sv with
    | true, some x =>
      let (it, r) := recordLoop slot w x buf
      placeThread k slot { t with iter := some it, rebind := some r }
      if isHeld (← getT id) then pure () else tryBind id
    | _, _ => placeThread k slot t
    takeMonitors id
    match sv with
    | some x => retwin id x
    | none => pure ()
    return true

/-- The threads of a furrow's records, head first, in the slots they are to have. -/
def furrowThreads (s : State) (h n : Nat) (j : Nat) : List (List Word × Option Saved) → List Thread
  | [] => []
  | (w, sv) :: rest =>
    let t := recordThread s (h + j) 15 w sv
    { t with
      status := if bit (w.getD 0 0) 21 then t.status else .parked .column none
      col := some { head := h, j := j, idx := n } } :: furrowThreads s h n (j + 1) rest

/-- A furrow re-made (04 R86, 22 R331): its head waits in slot 15 until every reserved slot is empty. -/
def putFurrow (h : Nat) (rs : List (List Word × Option Saved)) : M Unit := do
  let s ← getS
  let x := ((rs.head?.map Prod.fst).getD []).getD 29 0
  let n := bits x 31 16
  match furrowThreads s h n 0 rs with
  | [] => pure ()
  | t :: ts =>
    placeThread h 15 { t with status := .parked .furrow none }
    takeMonitors (tidOf h 15)
    let head := { (← getT (tidOf h 15)) with status := t.status }
    onPkg fun p => { p with furrows := FMap.set p.furrows h { last := bits x 4 0, step := n, base := n, cols := head :: ts } }
    plan 0 (.furrowStart h)

/-- What goes with a record: by its words, and by its place where they have been changed. Answers its key. -/
def findSaved {α : Type} (m : FMap α) (record : α → List Word) (key : Nat) (w : List Word) : Option (Nat × α) :=
  let here := (FMap.get? m key).map fun x => (key, x)
  match here with
  | some x => if record x.2 = w then some x else (m.find? fun p => record p.2 = w).orElse fun _ => some x
  | none => m.find? fun p => record p.2 = w

/-- The records from the command's address on, each with what goes with it. -/
def readRecords (c : CxCommand) (off : Nat) : Nat → M (Option (List (List Word × Option (Nat × Saved))))
  | 0 => return some []
  | n + 1 => do
    match ← readRecord c off threadBytes with
    | none => return none
    | some w =>
      let sv := findSaved (← getS).pkg.saved (·.record) (recordKey (← getS) c off) w
      match ← readRecords c (off + threadBytes) n with
      | some rest => return some ((w, sv) :: rest)
      | none => return none

/-- The identity of a record goes with the thread that it has become. -/
def forget (ks : List Nat) : M Unit := onPkg fun p => { p with saved := ks.foldl FMap.erase p.saved }

/-- The restore of a thread: its result code. -/
def restoreThread (c : CxCommand) : M Nat := do
  match ← readRecord c 0 threadBytes with
  | none => return 3
  | some w =>
    let s ← getS
    let head := bit (w.getD 0 0) 19
    let sv := findSaved s.pkg.saved (·.record) (recordKey s c 0) w
    let open_ := if leaving s (bits (w.getD 0 0) 47 32) c.core then [] else openSlots s c.core
    if !goodThreadRecord c.core c.level w || bit (w.getD 0 0) 20 || (bit (w.getD 0 0) 18 && sv.isNone) then return 5
    else if head then
      let e := bits (w.getD 29 0) 4 0
      if 27 < e || !hasLinks c.core || colOf c.core ≠ 0 || bits (w.getD 29 0) 39 32 ≠ 0 then return 5
      else if !(open_.contains 15) || (FMap.get? s.pkg.furrows c.core).isSome then return 2
      else
        match ← readRecords c 0 (e + 1) with
        | none => return 3
        | some rs =>
          let good (p : (List Word × Option (Nat × Saved)) × Nat) : Bool :=
            goodThreadRecord (c.core + p.2) c.level p.1.1 && bits (p.1.1.getD 29 0) 39 32 = p.2 && (p.2 = 0 || bit (p.1.1.getD 0 0) 20)
          if rs.zipIdx.all good then
            putFurrow c.core (rs.map fun p => (p.1, p.2.map Prod.snd))
            forget (rs.filterMap fun p => p.2.map Prod.fst)
            return 0
          else return 5
    else
      match (if open_.contains c.slot then some c.slot else open_.head?) with
      | none => return 2
      | some slot =>
        if ← putThread c.core slot w (sv.map Prod.snd) then
          forget (sv.toList.map Prod.fst)
          return 0
        else return 3

/-! ## Core records (22 R333) -/

/-- An exact accumulator in 64 bytes: A in 40 bytes, B, CLS and PSN, COUNT. -/
def exactWords (x : Exact) : List Word :=
  wordsOf (leBytes 40 (x.a % 2 ^ 320).toNat) 5 ++ [BitVec.ofInt 64 x.b, BitVec.ofNat 64 (b2n x.psn * 2 ^ 2 + x.cls), BitVec.ofNat 64 x.count]

def exactOf (w : List Word) : Exact :=
  let a : Nat := leValue (wordBytes (w.take 5))
  { a := if a < 2 ^ 319 then (a : Int) else (a : Int) - 2 ^ 320
    b := (w.getD 5 0).toInt
    cls := bits (w.getD 6 0) 1 0
    psn := bit (w.getD 6 0) 2
    count := bits (w.getD 7 0) 31 0 }

/-- A queued array command in 32 bytes: kind and option, control word, keys of its operands. -/
def queuedWords : ArrayCmd → List Word
  | .mma ctl a b chk _ => [BitVec.ofNat 64 (b2n chk * 2 ^ 8), ctl, BitVec.ofNat 64 a, BitVec.ofNat 64 b]
  | .azero ctl _ => [1, ctl, 0, 0]
  | .awr ctl key _ => [2, ctl, BitVec.ofNat 64 key, 0]
  | .ard ctl key _ => [3, ctl, BitVec.ofNat 64 key, 0]
  | .achk ctl key fix _ => [BitVec.ofNat 64 (4 + b2n fix * 2 ^ 8), ctl, BitVec.ofNat 64 key, 0]
  | .bsum ctl key _ => [5, ctl, BitVec.ofNat 64 key, 0]
  | .tilemm i _ => [6, BitVec.ofNat 64 i, 0, 0]

/-- A queued command from its words, its operands on a core. -/
def queuedOf (k : Nat) (w : List Word) (task : Nat) : ArrayCmd :=
  let on := bit (w.getD 0 0) 8
  let ctl := w.getD 1 0
  let key (i : Nat) : Nat := lsKey k ((w.getD i 0).toNat % 0x200000)
  match bits (w.getD 0 0) 7 0 with
  | 0 => .mma ctl (key 2) (key 3) on task
  | 1 => .azero ctl task
  | 2 => .awr ctl (key 2) task
  | 3 => .ard ctl (key 2) task
  | 4 => .achk ctl (key 2) on task
  | 5 => .bsum ctl (key 2) task
  | _ => .tilemm ctl.toNat task

def stickyWord (a : Array) : Word := BitVec.ofNat 64 (b2n a.psn * 8 + b2n a.nx * 4 + b2n a.ovf * 2 + b2n a.nv)

def accWords (a : Array) : List Word :=
  wordsOf (((List.range 4225).flatMap fun i => leBytes 4 (FMap.get 0 a.acc i).toNat) ++ List.replicate 4 0) 2113

def domainWords (c : Core) (d : Nat) : List Word :=
  let x := c.dda.dom d
  [FMap.get (dctlWord x) c.cxDctl d, BitVec.ofNat 64 x.cnt, BitVec.ofNat 64 x.stop]

/-- The record of a core. -/
def coreRecord (c : Core) : List Word :=
  let a := c.array
  padded 32 ([c.vt, c.bankfmt, seqstWord { a with held := a.busy || a.held }] ++
    ((List.range 4).flatMap fun i => [ibdLow (FMap.get {} c.inboxes i), ibdHigh (FMap.get {} c.inboxes i)]) ++
    [stickyWord a, BitVec.ofNat 64 a.queue.length] ++
    ([0, 1, 2, 3].map fun d => BitVec.ofNat 64 (FMap.get [] c.links d).length) ++
    [BitVec.ofNat 64 a.west.length, BitVec.ofNat 64 a.north.length]) ++
  ([0, 1, 2, 3].flatMap fun d => padded 32 ((FMap.get [] c.links d).take 32)) ++
  ((List.range 4).flatMap fun i => exactWords (FMap.get {} c.exact i)) ++
  padded 32 (padded 8 (a.desc.take 8) ++ a.queue.flatMap queuedWords) ++
  padded 32 (((List.range 4).flatMap (domainWords c)) ++
    ((List.range 8).map fun i => dobsWord (FMap.get {} c.dda.taps i)) ++
    ((List.range 8).map fun i => doutWord (FMap.get {} c.dda.outs i))) ++
  ((List.range 256).map fun i => (c.dda.cell i).patch) ++
  ((List.range 256).flatMap fun i => (c.dda.cell i).words false) ++
  padded 0x880 (accWords a) ++
  padded 0xC00 (wordsOf (a.west ++ List.replicate (24576 - a.west.length) 0) 0xC00) ++
  padded 0xC00 (wordsOf (a.north ++ List.replicate (24576 - a.north.length) 0) 0xC00)

/-- Events of a core's array and domains that no longer have an object. -/
def ownedBy (k : Nat) (i : Instr) : Bool :=
  match i with
  | .arrayCommandExecute c | .tilemmDescriptorCopy c | .tilemmStep c => c = k
  | .domainStep c _ | .domainHaltBoundary c _ => c = k
  | _ => false

def dropEvents (k : Nat) : M Unit := emit (.clock fun c => { c with events := c.events.filter fun e => !(ownedBy k e.act) })

/-- TILEMM commands of a core. -/
def tileCommands (c : Core) : FMap Command :=
  c.commands.filter fun p => match p.2.work with | .tile _ _ _ => true | _ => false

/-- The room of a queue's words goes back to the neighbours. -/
def emptyLinks (k : Nat) : List Nat → M Unit
  | [] => pure ()
  | d :: ds => do
    returnCredits k (Dir.ofIdx d) (FMap.get [] (← getC k).links d).length
    onCore k fun c => { c with links := FMap.erase c.links d }
    emptyLinks k ds

/-- The saved state of a core set to its reset values (22 R333 step 4). -/
def clearCore (k : Nat) : M Unit := do
  emptyLinks k [0, 1, 2, 3]
  dropEvents k
  let tiles := (tileCommands (← getC k)).map Prod.fst
  onCore k fun c => { c with
    vt := BitVec.allOnes 64, bankfmt := 0, inboxes := [], exact := [], dda := {}, array := {}, cxDctl := [],
    commands := c.commands.filter fun p => !(tiles.contains p.1) }
  glbChanged k

def savedCoreOf (c : Core) : SavedCore :=
  { tasks := c.array.queue.map ArrayCmd.task, tiles := tileCommands c, running := c.array.running, segs := c.array.segs,
    queued := c.array.queued, finished := c.array.finished, ctxs := (List.range 4).map fun d => (c.dda.dom d).ownerCtx,
    senders := (List.range 4).map fun i => (FMap.get {} c.inboxes i).senders }

/-- A core's slots are empty. -/
def slotsEmpty (s : State) (k : Nat) : Bool := (List.range 16).all fun t => !(s.occupied (tidOf k t))

/-- The domains of a core halted at their boundaries, each DCTL kept as it stood, and its array at a boundary; whether all stand still (22 R333 steps 1
and 2). -/
def quietDomains (k : Nat) : M Bool := do
  let c ← getC k
  let n ← now
  if c.cxDctl.isEmpty then
    onCore k fun c => { c with cxDctl := (List.range 4).map fun d => (d, if hasDda k then dctlWord (c.dda.dom d) else 0) }
    haltDomains k n c.dda (List.range 4)
  else pure ()
  let c ← getC k
  return !(c.dda.doms.any fun p => p.2.run || p.2.busy n) && c.array.run.isNone && c.array.freeAt ≤ n && c.array.settledAt ≤ n

/-- The record of a core whose domains stand still, and what goes with it; its saved state is then reset. -/
def takeCore (k : Nat) : M (List Word × SavedCore) := do
  let c ← getC k
  clearCore k
  return (coreRecord c, savedCoreOf c)

/-- A save of a core that fails lets its array go on. -/
def goOnCore (k : Nat) : M Unit := do
  if (← getC k).saving then
    onCore k fun x => { x with cxDctl := [] }
    planHead k
    if (← getC k).array.busy then plan 0 (.tilemmStep k) else pure ()
  else pure ()

/-- One attempt at the save of a core: its result code once it has ended. -/
def saveCore (c : CxCommand) : M (Option Nat) := do
  let s ← getS
  if !(slotsEmpty s c.core) then
    goOnCore c.core
    return some 2
  else
    match recordPlaces s c c.addr .store (coreBytes / 256) with
    | none =>
      goOnCore c.core
      return some 3
    | some ps =>
      if ← quietDomains c.core then
        let (ws, sv) ← takeCore c.core
        writeBlocks ps (wordBytes ws)
        let key := recordKey (← getS) c 0
        onPkg fun p => { p with savedCores := FMap.set p.savedCores key { sv with record := ws } }
        return some 0
      else return none

/-- The inbox descriptor of two doublewords on a core, under the rules of 05 R101. -/
def inboxOf (k : Nat) (lo hi : Word) : Inbox :=
  let size := bits lo 42 32
  let base := bits lo 14 0
  { en := bit lo 63 && goodInbox k size base, size := size, base := base, tail := bits hi 48 36 * 16, head := bits hi 16 4 * 16 }

def accOf (ws : List Word) : FMap (BitVec 32) :=
  ((List.range 4225).map fun i => (i, BitVec.ofNat 32 ((ws.getD (i / 2) 0).toNat / 2 ^ (32 * (i % 2))))).filter fun p => p.2 ≠ 0

/-- A cell from its patch entry and its record. -/
def cellFrom (w : List Word) (i : Nat) : Cell :=
  { ({} : Cell).load (w.getD (512 + 2 * i) 0) (w.getD (513 + 2 * i) 0) with patch := w.getD (256 + i) 0 }

def domainFrom (w : List Word) (n d ctx : Nat) : Domain :=
  let x := w.getD (224 + 3 * d) 0
  let per := max 4 (bits x 15 0)
  { run := bit x 63, gate := bit x 62, why := bits x 61 60, own := bits x 51 48, ownerCtx := ctx, per := per,
    cnt := bits (w.getD (225 + 3 * d) 0) 47 0, stop := bits (w.getD (226 + 3 * d) 0) 47 0, dueStep := n + per }

def tapFrom (x : Word) : Tap :=
  { cell := bits x 63 56, en := bit x 55, net := (BitVec.ofNat 48 (bits x 47 0)).toInt }

def ddaFrom (w : List Word) (doms : FMap Domain) : Dda :=
  { cells := (List.range 256).map fun i => (i, cellFrom w i)
    doms := doms
    taps := (List.range 8).map fun i => (i, tapFrom (w.getD (236 + i) 0))
    outs := (List.range 8).map fun i => (i, outPortOf (w.getD (244 + i) 0)) }

def wideFromWords (n : Nat) (ws : List Word) : List Byte := (wordBytes ws).take n

/-- The limits of a core record. -/
def goodCoreRecord (w : List Word) : Bool :=
  (List.range 256).all (fun i => goodEntry (w.getD (256 + i) 0) && goodRecord (w.getD (512 + 2 * i) 0) (w.getD (513 + 2 * i) 0)) &&
  (w.getD 12 0).toNat ≤ 4 && ((List.range 4).all fun i => (w.getD (13 + i) 0).toNat ≤ 32) &&
  (w.getD 17 0).toNat ≤ 24576 && (w.getD 18 0).toNat ≤ 24576 &&
  (List.range 4).all fun i => -192 ≤ (w.getD (165 + 8 * i) 0).toInt && (w.getD (165 + 8 * i) 0).toInt ≤ 31

/-- The array of a record, with what goes with it; its operands lie on core k. -/
def arrayFrom (k : Nat) (w : List Word) (sv : Option SavedCore) : Array :=
  let q := w.getD 2 0
  let st := w.getD 11 0
  let n := (w.getD 12 0).toNat
  let tasks := (sv.map (·.tasks)).getD []
  let cmds := (List.range n).map fun i => queuedOf k ((w.drop (200 + 4 * i)).take 4) (tasks.getD i 0)
  let known (c : ArrayCmd) : Bool := match c with
    | .tilemm i _ => (sv.any fun x => (FMap.get? x.tiles i).isSome)
    | _ => true
  { acc := accOf (w.drop 1024)
    nv := bit st 0, ovf := bit st 1, nx := bit st 2, psn := bit st 3
    queue := cmds.filter known
    queued := (sv.map (·.queued)).getD 0
    finished := (sv.map (·.finished)).getD 0
    west := wideFromWords (w.getD 17 0).toNat (w.drop 3200)
    north := wideFromWords (w.getD 18 0).toNat (w.drop 6272)
    busy := bit q 63 && sv.any (·.running.isSome)
    held := bit q 62 && !bit q 63
    ph := bits q 61 60, mb := bits q 55 42, nb := bits q 41 28, kb := bits q 27 14
    desc := (w.drop 192).take 8
    segs := (sv.map (·.segs)).getD []
    running := sv.bind (·.running) }

/-- Words that a restore puts back into a queue take their room again. -/
def refill (k d n : Nat) : M Unit :=
  let nb := neighbour k (Dir.ofIdx d)
  let back := (Dir.ofIdx d).opp.idx
  onCore nb fun c => { c with credits := FMap.set c.credits back (FMap.get 32 c.credits back - n) }

def refillAll (k : Nat) (w : List Word) : List Nat → M Unit
  | [] => pure ()
  | d :: ds => do
    let n := (w.getD (13 + d) 0).toNat
    let ws := (w.drop (32 + 32 * d)).take n
    if n = 0 then pure ()
    else
      onCore k fun c => { c with links := FMap.set c.links d (ws ++ FMap.get [] c.links d) }
      refill k d n
    refillAll k w ds

def planDomains (k : Nat) : List (Nat × Domain) → M Unit
  | [] => pure ()
  | (d, x) :: ds => do
    if x.run then plan x.per (.domainStep k d) else pure ()
    planDomains k ds

/-- The state of a core record written back; domains go on one PER later (22 R333). -/
def putCore (k : Nat) (w : List Word) (sv : Option SavedCore) : M Unit := do
  let n ← now
  let doms : FMap Domain := (List.range 4).map fun d => (d, domainFrom w n d (((sv.map (·.ctxs)).getD []).getD d 0))
  let tiles := (sv.map (·.tiles)).getD []
  onCore k fun c => { c with
    vt := w.getD 0 0,
    bankfmt := bankFmtOfWrite k c.bankfmt (w.getD 1 0),
    inboxes := (List.range 4).map fun i =>
      (i, { inboxOf k (w.getD (3 + 2 * i) 0) (w.getD (4 + 2 * i) 0) with senders := ((sv.map (·.senders)).getD []).getD i [] }),
    exact := (List.range 4).map (fun i => (i, exactOf ((w.drop (160 + 8 * i)).take 8))),
    array := if hasArray k then arrayFrom k w sv else {},
    dda := if hasDda k then ddaFrom w doms else {},
    commands := tiles.foldl (fun m p => FMap.set m p.1 p.2) c.commands }
  if hasLinks k then refillAll k w [0, 1, 2, 3] else pure ()
  if hasDda k then planDomains k doms else pure ()
  planHead k
  if (← getC k).array.busy then plan 0 (.tilemmStep k) else pure ()
  feedQueue k 4
  glbChanged k
  messagesMoved k

/-- The restore of a core: its result code. -/
def restoreCore (c : CxCommand) : M Nat := do
  match ← readRecord c 0 coreBytes with
  | none => return 3
  | some w =>
    if !goodCoreRecord w then return 5
    else if (← getC c.core).isSealed then return 2
    else
      let sv := findSaved (← getS).pkg.savedCores (·.record) (recordKey (← getS) c 0) w
      putCore c.core w (sv.map Prod.snd)
      onPkg fun p => { p with savedCores := sv.toList.foldl (fun m x => FMap.erase m x.1) p.savedCores }
      return 0

/-! ## The commands as events -/

/-- A command that has ended reports its result (22 R331). -/
def cxEnd (c : CxCommand) (res : Nat) : M Unit := onCore c.issuer fun x => { x with cxNow := none, cxRes := res }

def cxTry (c : CxCommand) (m : M (Option Nat)) : M Unit := do
  match ← m with
  | some r => cxEnd c r
  | none => pure ()

/-- CX_SAVE_THREAD (22 R331): the thread is saved once it stands at a pre-emption point with nothing outstanding. -/
def execCxSaveThread (c : CxCommand) (s : State) : Out := event (cxTry c (saveThread c)) s

/-- CX_RESTORE_THREAD (22 R331) -/
def execCxRestoreThread (c : CxCommand) (s : State) : Out := event (do cxEnd c (← restoreThread c)) s

/-- CX_SAVE_CORE (22 R333) -/
def execCxSaveCore (c : CxCommand) (s : State) : Out := event (cxTry c (saveCore c)) s

/-- CX_RESTORE_CORE (22 R333) -/
def execCxRestoreCore (c : CxCommand) (s : State) : Out := event (do cxEnd c (← restoreCore c)) s

/-- The command of a core that is in progress goes on. -/
def cxPoll (k : Nat) (s : State) : Out :=
  match (s.coreOf k).cxNow with
  | none => .next s
  | some c =>
    match bits (s.coreOf k).cxcmd 2 0 with
    | 1 => execCxSaveThread c s
    | 2 => execCxRestoreThread c s
    | 3 => execCxSaveCore c s
    | _ => execCxRestoreCore c s

end Sys2Proof.Machine
end

