-- ==== Sys2Proof/Machine/Sched.lean ====
section
/-! DEFINITION. The region schedulers: launch records, dispatch, placement of threads, failure and replay, kills and core removal (24
R350 to R364, 25 R375, R376, 03 R50, R51). -/

namespace Sys2Proof.Machine

/-! ## Launch records (24 R356) -/

/-- A refused record is counted. -/
def refuseLaunch (d : Nat) : M Unit := onDie d fun x => { x with lstat := min (2 ^ 32 - 1) (x.lstat + 1) }

/-- The partition of the writer of a record: that to which a virtual function is bound, if it is to one (24 R361), or that of the port core. -/
def writerPart (s : State) (r : LaunchRecord) : Option Nat :=
  match r.vf with
  | some v => FMap.get? s.pkg.vfPart v
  | none => r.part

/-- The TCB that a record names and its linear address, unless the record is refused (24 R356, R361). -/
def launchTcb (s : State) (r : LaunchRecord) : Option (Nat × Word) :=
  let lin : Word := BitVec.ofNat 64 (bits r.word 47 8 * 256)
  if bits r.word 61 48 = 0 && bits r.word 7 0 = 0 && bits r.word 63 62 < 2 then
    match tcbAt s r.die r.ctx lin with
    | some key => if writerPart s r = some (bits (memDw s (key + 0x58)) 31 16) then some (key, lin) else none
    | none => none
  else none

/-- LAUNCH_ENQ (24 R356): the task is queued when it waits for nothing. -/
def execLaunchEnq (r : LaunchRecord) (s : State) : Out :=
  event (do
    let s ← getS
    match launchTcb s r with
    | some (key, lin) =>
      if bits r.word 63 62 = 0 && tcbState s key = 0 && bits (memDw s (key + 8)) 31 0 = 0 then enqueueTask key lin else refuseLaunch r.die
    | none => refuseLaunch r.die) s

/-- LAUNCH_DEC (24 R356): a decrement. -/
def execLaunchDec (r : LaunchRecord) (s : State) : Out :=
  event (do
    match launchTcb (← getS) r with
    | some (key, lin) => if bits r.word 63 62 = 1 then decrementKey key lin else refuseLaunch r.die
    | none => refuseLaunch r.die) s

/-- TCB_DECREMENT (24 R352) -/
def execTcbDecrement (_die tcb : Nat) (s : State) : Out :=
  event (do decrementKey tcb (FMap.get 0 (← getS).pkg.tcbLin tcb)) s

/-- TASK_RETIRE (24 R353): a task whose last condition holds. -/
def execTaskRetire (_die tcb : Nat) (s : State) : Out := event (checkRetire tcb) s

/-- CLPART_WRITE (24 R361) -/
def execClpartWrite (die cl : Nat) (v : Word) (s : State) : Out := event (setClpart die cl v) s

/-! ## Dispatch (24 R351, R354, R376) -/

/-- Largest extent and width of a field by grain (02 R35). -/
def grainLimits (grain width : Nat) : Nat × Nat :=
  match grain with
  | 0 => (8, 3)
  | 1 => (28, 5)
  | 2 => (16, 4)
  | 3 => (28, 5)
  | 4 => (16, 4)
  | 5 => (2 ^ 32, 32)
  | _ => (2 ^ width, 64)

/-- The fields of a TCB, outermost first (24 R351). -/
def tcbFields (s : State) (key : Nat) : List WorkField :=
  (List.range (bits (memDw s (key + 0x18)) 55 48)).map fun i =>
    { width := bits (memDw s (key + 0x18)) (8 * i + 7) (8 * i),
      grain := bits (memDw s (key + 0x20)) (8 * i + 7) (8 * i),
      extent := (memDw s (key + 0x28 + 8 * i)).toNat + 1 }

def rising : List Nat → Bool
  | a :: b :: xs => a < b && rising (b :: xs)
  | _ => true

/-- Fields that 02 R35 allows. -/
def goodFields (fs : List WorkField) : Bool :=
  let bound := (fs.map (·.grain)).filter (· ≠ 6)
  (fs.all fun f => f.grain ≤ 6 && f.width ≤ (grainLimits f.grain f.width).2 && f.extent ≤ 2 ^ f.width && f.extent ≤ (grainLimits f.grain f.width).1) &&
  (fs.map (·.width)).sum ≤ 64 && rising bound && !(bound.contains 2 && bound.contains 3)

/-- A TCB that its first dispatch takes (24 R351). -/
def goodTcb (s : State) (key : Nat) : Bool :=
  let w (off : Nat) : Word := memDw s (key + off)
  let nf := bits (w 0x18) 55 48
  bits (w 0) 59 58 = 0 && !bit (w 0) 51 && bits (w 0) 47 3 = 0 && bits (w 8) 63 32 = 0 && bits (w 0x18) 63 56 = 0 && bits (w 0x58) 63 39 = 0 &&
  bits (w 0) 53 52 ≠ 3 && 1 ≤ nf && nf ≤ 6 && goodFields (tcbFields s key) &&
  ctxValid s (tcbDie s key) (bits (w 0x58) 15 0) && ctxPart s (tcbDie s key) (bits (w 0x58) 15 0) = bits (w 0x58) 31 16

/-- The cluster whose event queue takes the record of a failed dispatch (24 R351). -/
def partCluster (s : State) (d part : Nat) : Nat :=
  ((List.range 28).find? fun cl => FMap.get 0 (s.dieOf d).clpart cl = BitVec.ofNat 64 (2 ^ 63 + part)).getD 0

/-- STATE 6 with its record (24 R351, 25 R375). -/
def failRecord (key stat ctx : Nat) (lin : Word) : M Unit := do
  let s ← getS
  let d := tcbDie s key
  setTcbState key 6
  plan 0 (.eventRecordPlace (clusterCore d (partCluster s d (bits (memDw s (key + 0x58)) 31 16))) (taskRecord stat 0 0 ctx lin))

/-- Effective priority of a queued task (24 R354). -/
def effective3 (s : State) (d prio key : Nat) : Nat :=
  let q := (s.dieOf d).ageq
  if q = 0 then prio else min 3 (prio + (s.clock.now - (memDw s (key + 0xA0)).toNat) / (1024 * q))

/-- The queued tasks of a die with their queues. -/
def queuedTasks (s : State) (d : Nat) : List (Nat × Nat) :=
  (List.range 4).flatMap fun p => (FMap.get [] (s.dieOf d).queues p).map fun key => (p, key)

/-- The task that is taken next: greatest effective priority, least ENQT, least address (24 R354). -/
def nextTask (s : State) (d : Nat) : Option (Nat × Nat) :=
  let better (a b : Nat × Nat) : Bool :=
    let ea := effective3 s d a.1 a.2
    let eb := effective3 s d b.1 b.2
    let ta := (memDw s (a.2 + 0xA0)).toNat
    let tb := (memDw s (b.2 + 0xA0)).toNat
    let la := (FMap.get 0 s.pkg.tcbLin a.2).toNat
    let lb := (FMap.get 0 s.pkg.tcbLin b.2).toNat
    ea > eb || (ea = eb && (ta < tb || (ta = tb && la < lb)))
  (queuedTasks s d).foldl (fun acc x => match acc with | none => some x | some y => if better x y then some x else some y) none

/-- A task leaves its queue; NEXT of the task before it names the one after it. -/
def unqueue (d p key : Nat) : M Unit := do
  let q := FMap.get [] (← getD d).queues p
  match (q.takeWhile (· ≠ key)).getLast? with
  | some before => hwWrite (before + 0x98) (← readDw (key + 0x98))
  | none => pure ()
  hwWrite (key + 0x98) 0
  onDie d fun x => { x with queues := FMap.set x.queues p ((FMap.get [] x.queues p).filter (· ≠ key)) }

/-- Tasks of a die in STATE 2. -/
def dispatching (s : State) (d : Nat) : Nat := (s.pkg.tasks.filter fun p => p.2.die = d && p.2.dispatching).length

/-- The seed identifier of an image: a nonzero 32-bit value of its own (03 R54). -/
def seedIdOf (image : Nat) : M Nat := do
  let p := (← getS).pkg
  match FMap.get? p.sidOf image with
  | some n => return n
  | none =>
    onPkg fun p => { p with sidOf := FMap.set p.sidOf image p.nextSid, nextSid := p.nextSid % (2 ^ 32 - 1) + 1 }
    return p.nextSid

/-- Threads of a launch: one for each combination of the values of its fields, `iteration` apart (03 R50). -/
def threadTotal (fs : List WorkField) : Nat := (fs.map fun f => if f.grain = 5 then 1 else f.extent).foldl (· * ·) 1

/-- The number of the seed image that a task names, in its context (02 R38). -/
def imageOf (ctx : Nat) (lin : Word) : Nat := ctx * 2 ^ 48 + bits lin 47 0

/-- A queued task becomes a dispatching one (24 R351, R355, R376). -/
def dispatchTask (d key : Nat) : M Unit := do
  let s ← getS
  let w (off : Nat) : Word := memDw s (key + off)
  let lin := FMap.get 0 s.pkg.tcbLin key
  let ctx := bits (w 0x58) 15 0
  let first := bits (w 0xB0) 63 48 = 0
  if first && !(goodTcb s key) then failRecord key 0x02 ctx lin
  else
    let fs := tcbFields s key
    let image := imageOf ctx (w 0x10)
    let sid ← seedIdOf image
    setTcbState key 2
    if first then setField (key + 0xB0) 47 0 s.clock.now else pure ()
    hwWrite (key + 0xB8) (BitVec.ofNat 64 (s.clock.now % 2 ^ 48))
    setField (key + 0xC8) 31 0 sid
    let task : Task :=
      { die := d, tcbLin := lin, ctx := ctx, part := bits (w 0x58) 31 16, sid := sid, image := image,
        fields := fs, next := 0, total := threadTotal fs * (if bit (w 0) 54 then 2 else 1), started := 0, returned := [], chosen := [],
        placed := [], created := 0, live := 0, vf := bits (w 0x58) 38 32, replay := bit (w 0) 55,
        twin := bit (w 0) 54 }
    onPkg fun p => { p with tasks := FMap.set p.tasks key task, layoutOf := FMap.set p.layoutOf sid fs }
    plan 0 (.threadPlacement d key)

/-- SCHEDULER_DISPATCH (24 R354): while fewer than 16 tasks dispatch, the next queued task is taken. -/
def execSchedulerDispatch (d : Nat) (s : State) : Out :=
  event (do
    let s ← getS
    if dispatching s d < 16 then
      match nextTask s d with
      | none => pure ()
      | some (p, key) =>
        unqueue d p key
        dispatchTask d key
        plan 0 (.schedulerDispatch d)
    else pure ()) s

/-! ## Placement (03 R50, R51, 24 R355) -/

/-- The values of the fields of the n-th thread, in rising order of work identifier. -/
def fieldValues : List WorkField → Nat → List Nat
  | [], _ => []
  | f :: fs, n =>
    let below := threadTotal fs
    (if f.grain = 5 then 0 else n / below) :: fieldValues fs (n % below)

/-- The work identifier of some values (02 R35). -/
def widOf : List WorkField → List Nat → Nat
  | _ :: fs, v :: vs => v * 2 ^ (fs.map (·.width)).sum + widOf fs vs
  | _, _ => 0

/-- The values that a work identifier holds. -/
def valuesOf : List WorkField → Nat → List Nat
  | [], _ => []
  | f :: fs, w => w / 2 ^ (fs.map (·.width)).sum % 2 ^ f.width :: valuesOf fs w

/-- The value of the field that binds a grain. -/
def boundTo (grain : Nat) : List WorkField → List Nat → Option Nat
  | f :: fs, v :: vs => if f.grain = grain then some v else boundTo grain fs vs
  | _, _ => none

/-- The fields above an unbound grain, as the bits of the work identifier that hold them: all down to the first field that binds a
lower grain; a bound column counts as above the cluster and core (03 R51, 02 R35). -/
def aboveBits (fs : List WorkField) (grain wid : Nat) : Nat :=
  let low := if grain ≠ 0 && fs.any (·.grain = 3) then 3 else grain
  let rest := fs.dropWhile fun f => f.grain ≤ low || f.grain = 6 || f.grain = 5
  wid / 2 ^ (rest.map (·.width)).sum

/-- A choice made before for an unbound grain. -/
def chosenFor (t : Task) (grain wid : Nat) : Option Nat :=
  (t.chosen.find? fun c => c.1 = grain && c.2.1 = aboveBits t.fields grain wid).map (·.2.2)

/-- Seeds on their way to a core that will take one of its empty slots. -/
def coming (s : State) (k : Nat) : Nat :=
  (s.clock.events.filter fun e =>
    match e.act with
    | .seedPacketArrival c p => c = k && p.slot.all fun t => !(s.occupied (tidOf k t))
    | _ => false).length

/-- Empty slots of a core that no thread is on its way to. -/
def roomOf (s : State) (k : Nat) : Nat := (openSlots s k).length - coming s k

/-- Compute cores of a context's table to which a scheduler may send a seed, with their logical numbers (24 R355, R361, 01 R16). -/
def eligible (s : State) (d ctx : Nat) : List (Nat × Nat) :=
  (List.range (bits (memDw s (ctxKey d ctx 0xA8)) 23 0)).filterMap fun n =>
    match coreEntry s d ctx n with
    | some e =>
      match (if entryPkg e = s.pkg.number && !(entryLeaving e) then entryCore e else none) with
      | some c => if kindOf c = .compute && takesSeed s c ctx then some (n, c) else none
      | none => none
    | none => none

/-- The index of a compute core within its cluster (03 R51). -/
def indexInCluster (k : Nat) : Nat := rowOf k % 4 * 4 + colOf k % 4

/-- Whether a core lies where the bound fields, and the choices made before, put a thread (03 R51). A bound die field names the die by its physical number:
the spec maps no logical dies (DESIGN CHOICE, assumption 66). -/
def fits (t : Task) (wid k : Nat) : Bool :=
  let vs := valuesOf t.fields wid
  let want (grain : Nat) : Option Nat := match boundTo grain t.fields vs with | some v => some v | none => if grain < 2 then chosenFor t grain wid else none
  (want 0).all (· = dieOf k) && (want 1).all (· = clusterOf k) && (boundTo 2 t.fields vs).all (· = indexInCluster k) && (want 3).all (· = colOf k) &&
  ((boundTo 2 t.fields vs).isSome || (chosenFor t 2 wid).all (· = k))

/-- The core with the most empty slots; among equals the lowest logical number (24 R355). -/
def mostRoom (s : State) (cs : List (Nat × Nat)) : Option Nat :=
  let best := cs.foldl (fun (acc : Option (Nat × Nat × Nat)) (n, k) =>
    let r := roomOf s k
    if r = 0 then acc
    else match acc with
      | some (r', n', k') => if r > r' || (r = r' && n < n') then some (r, n, k) else some (r', n', k')
      | none => some (r, n, k)) none
  best.map (·.2.2)

/-- Two clusters of the package's 8 by 28 torus of clusters are the same or neighbours (01 R13). -/
def nearClusters (a b : Nat) : Bool :=
  let row (k : Nat) : Nat := (dieOf k / 4 * 16 + rowOf k) / 4
  let col (k : Nat) : Nat := (dieOf k % 4 * 28 + colOf k) / 4
  let apart (x y n : Nat) : Nat := min ((x + n - y) % n) ((y + n - x) % n)
  apart (row a) (row b) 8 + apart (col a) (col b) 28 ≤ 1

/-- Cores on which one copy of a twinned thread may run beside the other's core (03 R51, 25 R372). -/
def partners (k : Nat) (cs : List (Nat × Nat)) : List (Nat × Nat) :=
  cs.filter fun c => indexInCluster c.2 = indexInCluster k && !(nearClusters c.2 k)

/-- The choices that the placement of a thread fixes for grains that are unbound (03 R51). -/
def recordChoices (key wid k : Nat) : M Unit :=
  onTask key fun t =>
    let vs := valuesOf t.fields wid
    let add (g v : Nat) (cs : List (Nat × Nat × Nat)) : List (Nat × Nat × Nat) :=
      if (boundTo g t.fields vs).isSome || (chosenFor t g wid).isSome then cs else cs ++ [(g, aboveBits t.fields g wid, v)]
    { t with chosen := add 2 k (add 1 (clusterOf k) (add 0 (dieOf k) t.chosen)) }

/-- A thread of a task sent to a core: its seed packet, which carries the seed's contents when it is the task's first there. -/
def sendSeed (key wid copy k : Nat) : M Unit := do
  let s ← getS
  match FMap.get? s.pkg.tasks key with
  | none => pure ()
  | some t =>
    let carries := !((s.coreOf k).seeded.contains key)
    let p : SeedPacket :=
      { slot := boundTo 4 t.fields (valuesOf t.fields wid), image := t.image, sid := t.sid, wid := BitVec.ofNat 64 wid, tcb := t.tcbLin,
        tcbKey := key, ctx := t.ctx, cid := cidIn s t.ctx k, carries := carries, twin := if t.twin then some copy else none }
    onCore k fun c => if carries then { c with seeded := c.seeded ++ [key] } else c
    if t.twin then onTask key fun t => { t with placed := t.placed.filter (fun x => !(x.1 = wid && x.2.1 = copy)) ++ [(wid, copy, k)] } else pure ()
    joinTask key
    plan (Config.transit (clusterCore t.die 0) k) (.seedPacketArrival k p)

/-- One thread, or one returned copy, placed: whether it found a core. -/
def placeOne (d key : Nat) (t : Task) (wid : Nat) (only : Option Nat) : M Bool := do
  let s ← getS
  let cs := eligible s d t.ctx
  let here := cs.filter fun c => fits t wid c.2
  if !t.twin then
    match mostRoom s here with
    | some k => do recordChoices key wid k; sendSeed key wid 0 k; return true
    | none => return false
  else
    match only with
    | some copy =>
      let other := (t.placed.find? fun x => x.1 = wid && x.2.1 ≠ copy).map (·.2.2)
      let mine := if copy = 0 then here else cs
      match mostRoom s (match other with | some o => partners o mine | none => mine) with
      | some k => do sendSeed key wid copy k; return true
      | none => return false
    | none =>
      match mostRoom s (here.filter fun c => (mostRoom s (partners c.2 cs)).isSome) with
      | some k =>
        match mostRoom s (partners k cs) with
        | some k1 => do
          recordChoices key wid k
          sendSeed key wid 0 k
          sendSeed key wid 1 k1
          return true
        | none => return false
      | none => return false

/-- THREAD_PLACEMENT (24 R355): the next thread of a dispatching task, in rising order of work identifier and returned ones first, goes to
a core; one that finds none waits in the scheduler. -/
def execThreadPlacement (d key : Nat) (s : State) : Out :=
  event (do
    match FMap.get? (← getS).pkg.tasks key with
    | none => pure ()
    | some t =>
      match t.returned with
      | (wid, copy) :: rest =>
        if ← placeOne d key t wid (some copy) then
          onTask key fun t => { t with returned := rest }
          plan 0 (.threadPlacement d key)
        else plan 16 (.threadPlacement d key)
      | [] =>
        if t.next < threadTotal t.fields then
          let wid := widOf t.fields (fieldValues t.fields t.next)
          if ← placeOne d key t wid none then
            onTask key fun t => { t with next := t.next + 1 }
            plan 0 (.threadPlacement d key)
          else plan 16 (.threadPlacement d key)
        else pure ()) s

/-! ## Dropping the work of a context or task (24 R363, 25 R375) -/

/-- What is dropped: everything of a context, or of one of its tasks only. -/
structure Purge where
  ctx : Nat
  task : Option Nat

def Purge.thread (p : Purge) (t : Thread) : Bool := t.ctx = p.ctx && p.task.all (· = t.tcbKey)
def Purge.command (p : Purge) (c : Command) : Bool := c.rep.ctx = p.ctx && p.task.all (· = c.rep.task)

/-- Slots whose threads are dropped. -/
def Purge.slots (p : Purge) (s : State) : List Nat := (s.threads.filter fun x => p.thread x.2).map Prod.fst

/-- Tasks whose array commands are dropped. -/
def Purge.tasks (p : Purge) (s : State) : List Nat :=
  match p.task with
  | some key => [key]
  | none => (s.pkg.tasks.filter fun x => x.2.ctx = p.ctx).map Prod.fst

/-- An event of the calendar that carries something dropped. -/
def Purge.due (p : Purge) (gone : List Nat) (i : Instr) : Bool :=
  match i with
  | .seedPacketArrival _ q | .seedPacketReturn _ q => q.ctx = p.ctx && p.task.all (· = q.tcbKey)
  | .spawnPacketArrival _ q => q.ctx = p.ctx && p.task.all (· = q.tcbKey)
  | .graftArrival _ q => q.ctx = p.ctx && p.task.all (· = q.tcbKey)
  | .cuttingApply c | .cuttingResend c => gone.contains (tidOf c.fromCore c.fromSlot)
  | .inboxPlace _ m | .messageResend m => p.task.isNone && m.ctx = p.ctx
  | .trapQueueRecord _ r => r.sender.any fun x => gone.contains (tidOf x.1 x.2)
  | .twinHashArrival k t _ _ | .twinHashTimeout k t _ => gone.contains (tidOf k t)
  | .bistComplete _ _ => false
  | .threadPlacement _ key => (p.task.any (· = key))
  | _ => false

/-- What a thread has registered in other packages is taken back. -/
def dropAway (id : Nat) : M Unit := do
  disarmAll id
  unbindAway (id / 16) (id % 16) (← getS).pkg.armedAway
  match (← getT id).status with
  | .parked .registered _ => takeBack id false
  | _ => pure ()

/-- Slots emptied at once; nothing is awaited and no event of theirs goes upward. -/
def clearSlots : List Nat → M Unit
  | [] => pure ()
  | id :: ids => do
    dropAway id
    emptySlot id
    clearSlots ids

/-- Commands completed with 0x81 and no action of their own; a successor that stays is cancelled (07 R145). -/
def dropCommands (p : Purge) (k : Nat) : List (Nat × Command) → M Unit
  | [] => pure ()
  | (i, cmd) :: cs => do
    onCore k fun c => { c with
      commands := FMap.erase c.commands i
      xids := if (FMap.get? c.xids i).isSome then FMap.set c.xids i (some 0x81) else c.xids }
    noteCloche cmd.rep.ctx 0x81 cmd.cloche
    planFlips cmd.rep.ctx (cmd.cloche ++ cmd.groups)
    let rec after : List Nat → M Unit
      | [] => pure ()
      | j :: js => do
        match FMap.get? (← getC k).commands j with
        | some succ => if p.command succ then pure () else complete k j 0x80
        | none => pure ()
        after js
    after cmd.after
    dropCommands p k cs

/-- Array commands of dropped tasks leave the queue, and a TILEMM of theirs that runs ends. -/
def dropArray (k : Nat) (gone : List (Nat × Command)) (tasks : List Nat) : M Unit := do
  let mine (a : ArrayCmd) : Bool :=
    match a with
    | .tilemm i _ => gone.any fun x => x.1 = i
    | a => tasks.contains a.task && a.task ≠ 0
  let a := (← getC k).array
  if a.queue.any mine then
    let headGone := a.queue.head?.any mine
    onCore k fun c => { c with array := { c.array with
      queue := c.array.queue.filter fun x => !(mine x),
      finished := c.array.finished + (c.array.queue.filter mine).length,
      stalled := if headGone then none else c.array.stalled,
      run := if headGone then none else c.array.run,
      busy := c.array.busy && !headGone, held := c.array.held && !headGone,
      running := if headGone then none else c.array.running } }
    if headGone then
      emit (.clock fun c => { c with events := c.events.filter fun e =>
        match e.act with
        | .tilemmDescriptorCopy x | .tilemmStep x => x ≠ k
        | _ => true })
      planHead k
    else pure ()
    feedQueue k 4
  else pure ()

/-- Credits of messages that were on their way and are dropped come back. -/
def dropMessages (ctx : Nat) : List (Message × Bool) → M Unit
  | [] => pure ()
  | (m, sent) :: ms => do
    if m.ctx = ctx then
      if sent && m.away.isNone then
        let x := creditOf (← getC m.fromCore) m.toCore m.chan
        setCredit m.fromCore { x with crd := x.crd + 1, sent := (x.sent + 2 ^ 32 - 1) % 2 ^ 32 }
      else pure ()
      messageGone m
    else pure ()
    dropMessages ctx ms

/-- What a core holds for dropped threads: registered waits, monitors, barriers, receivers, queued grafts, domains, ring sets. -/
def dropCore (p : Purge) (gone : List Nat) (tasks : List Nat) (k : Nat) (c : Core) : M Unit := do
  let mineSlot (a b : Nat) : Bool := gone.contains (tidOf a b)
  onCore k fun c => { c with
    waiters := c.waiters.filter fun w => !(w.remote.isNone && mineSlot w.core w.slot),
    monRegs := c.monRegs.filter fun m => !(m.away.isNone && m.remote.isNone && mineSlot m.core m.slot),
    barriers := c.barriers.filter fun b => !((p.task.isNone && b.ctx = p.ctx) || b.owner.any fun o => mineSlot o.1 o.2),
    receivers := c.receivers.filter fun r => !(mineSlot k r.slot),
    graftq := c.graftq.filter fun g => !(g.ctx = p.ctx && p.task.all (· = g.tcbKey)),
    cuttings := c.cuttings.filter fun x => !(mineSlot x.fromCore x.fromSlot),
    rings := c.rings.filter fun r => !(mineSlot k r.2.owner) }
  let cmds := c.commands.filter fun x => p.command x.2
  dropCommands p k cmds
  dropArray k cmds tasks
  let owned (d : Nat) : Bool :=
    let z := c.dda.dom d
    z.run && ((p.task.isNone && z.ownerCtx = p.ctx) || z.owner.any fun o => mineSlot o.1 o.2)
  haltDomains k (← now) c.dda ((List.range 4).filter owned)
  if p.task.isNone then
    dropMessages p.ctx c.sendq
    dropMessages p.ctx (c.ddaq.map fun m => (m, false))
  else pure ()
  if c.rings.any fun r => mineSlot k r.2.owner then wakeRings k (List.range 16) else pure ()

def dropCores (p : Purge) (gone tasks : List Nat) : List (Nat × Core) → M Unit
  | [] => pure ()
  | (k, c) :: cs => do dropCore p gone tasks k c; dropCores p gone tasks cs

/-- Everything of a context or task dropped: threads, waits, commands, packets. -/
def dropWork (p : Purge) : M Unit := do
  let s ← getS
  let gone := p.slots s
  let tasks := p.tasks s
  clearSlots gone
  emit (.clock fun c => { c with events := c.events.filter fun e => !(p.due gone e.act) })
  dropCores p gone tasks s.cores
  onPkg fun q => { q with
    furrows := q.furrows.filter fun f => !(gone.contains (tidOf f.1 15)),
    publs := q.publs.filter fun x => !(gone.contains x.2.1),
    shoots := q.shoots.filter fun x => !(gone.contains (tidOf x.req.fromCore x.req.fromSlot)) }

/-! ## Kill and reclaim (24 R363, R364) -/

/-- Queued tasks of a context leave their queues, and its dispatched tasks end: STATE 5. -/
def killQueued (d ctx : Nat) : List (Nat × Nat) → M Unit
  | [] => pure ()
  | (p, key) :: ks => do
    if bits (memDw (← getS) (key + 0x58)) 15 0 = ctx then
      unqueue d p key
      setTcbState key 5
    else pure ()
    killQueued d ctx ks

def killDies (ctx : Nat) : List Nat → M Unit
  | [] => pure ()
  | d :: ds => do
    killQueued d ctx (queuedTasks (← getS) d)
    killDies ctx ds

def killTasks (ctx : Nat) : List (Nat × Task) → M Unit
  | [] => pure ()
  | (key, t) :: ts => do
    if t.ctx = ctx then
      setTcbState key 5
      onPkg fun p => { p with tasks := FMap.erase p.tasks key }
      forgetSeeds key (← getS).cores
      emit (.clock fun c => { c with events := c.events.filter fun e => match e.act with | .threadPlacement _ x => x ≠ key | _ => true })
      plan 0 (.schedulerDispatch t.die)
    else pure ()
    killTasks ctx ts

/-- Drain tokens of a kill: one for every cluster port, streamer, near-bank engine and link port (24 R363). -/
def drainTokens : Nat := 224 + 512 + 512 + 32

/-- CONTEXT_KILL (24 R363): the context named by KILL loses its tasks, threads, waits, commands and packets; the drain tokens go out. -/
def execContextKill (d : Nat) (s : State) : Out :=
  event (do
    let x ← getD d
    let ctx := bits x.kill 15 0
    if x.killBusy then pure ()
    else
      onDie d fun x => { x with killBusy := true, killDone := false, tokens := drainTokens }
      dropWork { ctx := ctx, task := none }
      killDies ctx (List.range 8)
      killTasks ctx (← getS).pkg.tasks
      plan (Config.engineTime 8 ctx) (.killDrainComplete d)) s

/-- Something of a context that is still to be performed: a record on its way, or a domain that has not reached its boundary. -/
def stillDraining (s : State) (ctx : Nat) : Bool :=
  (s.clock.events.any fun e => match e.act with
    | .eventRecordPlace _ r => r.ctx = ctx
    | .crossingArrival _ _ => true
    | _ => false) ||
  s.cores.any fun x => x.2.dda.doms.any fun z => z.2.run && z.2.halting && z.2.ownerCtx = ctx

/-- KILL_DRAIN_COMPLETE (24 R363, R364): every token has returned. -/
def execKillDrainComplete (d : Nat) (s : State) : Out :=
  event (do
    if stillDraining (← getS) (bits (← getD d).kill 15 0) then plan 1 (.killDrainComplete d)
    else onDie d fun x => { x with killBusy := false, killDone := true, tokens := 0 }) s

/-! ## Failure and replay (25 R375, R376) -/

/-- A task fails: cause 1 a sealed core, 2 an abandoned thread; `core` is the sealed core's logical number. -/
def failTask (key cause core : Nat) : M Unit := do
  match FMap.get? (← getS).pkg.tasks key with
  | none => pure ()
  | some t =>
    dropWork { ctx := t.ctx, task := some key }
    onPkg fun p => { p with tasks := FMap.erase p.tasks key }
    forgetSeeds key (← getS).cores
    let rcnt := bits (← readDw (key + 0xB0)) 63 56
    setField (key + 0xB0) 55 48 cause
    hwWrite (key + 0xC0) (BitVec.ofNat 64 (if cause = 1 then core else 0))
    if t.replay && rcnt < 3 then
      setField (key + 0xB0) 63 56 (rcnt + 1)
      hwWrite (key + 0xA8) 0
      enqueueTask key t.tcbLin
    else failRecord key (if cause = 1 then 0x0D else 0x82) t.ctx t.tcbLin
    plan 0 (.schedulerDispatch t.die)

/-- TASK_FAIL (25 R375): one of the task's threads is abandoned. -/
def execTaskFail (_die tcb : Nat) (s : State) : Out := event (failTask tcb 2 0) s

/-! ## Core removal (24 R362) -/

/-- Key of an entry of a context's core table. -/
def entryKey (s : State) (d ctx n : Nat) : Nat := frameKey (memDw s (ctxKey d ctx 0xA0)) + 8 * n

/-- The lowest-numbered valid compute core of a context that can take a thread, or, for a furrow, its head (24 R362). -/
def refuge (s : State) (d ctx : Nat) (furrow : Bool) : Option Nat :=
  (List.range (bits (memDw s (ctxKey d ctx 0xA8)) 23 0)).findSome? fun n =>
    match coreEntry s d ctx n with
    | some e =>
      match (if entryPkg e = s.pkg.number && !(entryLeaving e) then entryCore e else none) with
      | some c =>
        let open_ := openSlots s c
        let room := if furrow then colOf c = 0 && open_.contains 15 && (FMap.get? s.pkg.furrows c).isNone else !open_.isEmpty
        if kindOf c = .compute && !(s.coreOf c).isSealed && room then some c else none
      | none => none
    | none => none

/-- A thread taken from a removed core goes to its new place, or is abandoned; answers the core. -/
def rehome (d ctx : Nat) (rs : List (List Word × Saved)) : M (Option Nat) := do
  let s ← getS
  match rs with
  | [] => return none
  | (w, sv) :: _ =>
    let furrow := bit (w.getD 0 0) 19
    let taken ← match refuge s d ctx furrow with
      | some c =>
        if furrow then
          putFurrow c (rs.map fun r => (r.1, some r.2))
          pure (some c)
        else
          pure (if ← putThread c ((openSlots s c).headD 0) w (some sv) then some c else none)
      | none => pure none
    if taken.isNone then failTask sv.tcbKey 2 0 else pure ()
    return taken

/-- Threads of a context on a core taken as they come to their pre-emption points; the cores to which owners of domains went. -/
def removeThreads (d ctx : Nat) (owner : Option Nat) : List Nat → M (Option Nat)
  | [] => return none
  | id :: ids => do
    let s ← getS
    let head := match (s.thread id).col with | some c => tidOf c.head 15 | none => id
    let taker ← do
      if s.occupied id && (s.thread id).ctx = ctx && !(noThread s head) then
        match ← takeThread head with
        | some rs => rehome d ctx rs
        | none => pure none
      else pure none
    let rest ← removeThreads d ctx owner ids
    return if owner = some id then taker else rest

/-- The slot of the thread that started the lowest-numbered running domain of a core. -/
def arrayOwner (c : Core) : Option Nat :=
  (List.range 4).findSome? fun d => (c.dda.dom d).owner.map fun o => tidOf o.1 o.2

/-- CORE_REMOVE (24 R362): one attempt in each cycle until the core is empty; then its array state moves, and its entry ends. -/
def execCoreRemove (d : Nat) (s : State) : Out :=
  event (do
    let x ← getD d
    let ctx := bits x.corecmd 55 40
    let n := bits x.corecmd 39 16
    let s ← getS
    let finish_ : M Unit := onDie d fun x => { x with coreBusy := false, coreDone := true, coreDest := none }
    if !x.coreBusy then pure ()
    else
      match coreEntry s d ctx n with
      | none => finish_
      | some e =>
        let key := entryKey s d ctx n
        if entryLeaving e then pure () else hwWrite key (putBits e 62 62 1)
        match (if entryPkg e = s.pkg.number then entryCore e else none) with
        | none => do setField key 63 63 0; finish_
        | some k =>
          let taker ← removeThreads d ctx (arrayOwner (s.coreOf k)) ((List.range 16).map (tidOf k))
          if taker.isSome then onDie d fun x => { x with coreDest := taker } else pure ()
          let s ← getS
          if (List.range 16).any fun t => s.occupied (tidOf k t) && (s.thread (tidOf k t)).ctx = ctx then plan 1 (.coreRemove d)
          else if slotsEmpty s k then
            if ← quietDomains k then
              let (w, sv) ← takeCore k
              match (← getD d).coreDest with
              | some c => putCore c w (some sv)
              | none => do
                let at_ := hbmKey d ((← getD d).corera.toNat)
                storeRecord at_ w
                onPkg fun p => { p with savedCores := FMap.set p.savedCores at_ { sv with record := w } }
              setField key 63 63 0
              finish_
            else plan 1 (.coreRemove d)
          else do setField key 63 63 0; finish_) s

end Sys2Proof.Machine
end

