-- ==== Sys2Proof/Machine/Rel.lean ====
section
/-! DEFINITION. Errors and scrub, sealing, twinned hashes, the links to other packages, error and event counters, self-test, refresh and weight
store modes (05 R99, R100, 25 R365 to R386, 26 R390, R391). -/

namespace Sys2Proof.Machine

/-! ## Scrub (25 R366) -/

/-- SCRUB_READ (25 R366): the scrub comes to a word and finds an error in it, or finds what earlier errors have left. -/
def execScrubRead (key : Nat) (found : EccFound) (s : State) : Out :=
  event (do
    let a := dwKey key
    match found with
    | .clean => pure ()
    | .single => onPkg fun p => { p with eccBad := FMap.set p.eccBad a (FMap.get false p.eccBad a) }
    | .double => onPkg fun p => { p with eccBad := FMap.set p.eccBad a true }
    findEcc a) s

/-! ## Sealing (25 R368 to R371) -/

/-- Waiters at a home that is sealed are withdrawn, then trap (25 R369): their threads execute the word again, which meets the seal. -/
def sealWaiters : List Waiter → M Unit
  | [] => pure ()
  | w :: ws => do
    match w.remote with
    | some (port, n) => respond port n (BitVec.ofNat 64 Cause.neighbourSealed) true
    | none => if w.polls then pure () else thr (tidOf w.core w.slot) fun t => { t with status := .ready }
    sealWaiters ws

def failAll (core : Nat → Nat) : List (Nat × Nat) → M Unit
  | [] => pure ()
  | (key, ctx) :: ks => do failTask key 1 (core ctx); failAll core ks

/-- Domains that run stand still at once. -/
def stopDomains (k : Nat) (g : Dda) : List Nat → M Unit
  | [] => pure ()
  | d :: ds => do
    if (g.dom d).run then haltNow k d else pure ()
    stopDomains k g ds

/-- The core whose trap queue takes the record of a sealed core: its cluster's control core, or the die's for every other core and for a
sealed control core. -/
def sealSupervisor (k : Nat) : Nat :=
  match kindOf k with
  | .compute => clusterCore (dieOf k) (clusterOf k)
  | _ => 3808 + 4 * dieOf k

/-- Every slot of a core becomes empty, with the furrows and ring sets that stood in them. -/
def loseSlots (k : Nat) : M Unit := do
  clearSlots ((List.range 16).map (tidOf k))
  onPkg fun p => { p with furrows := p.furrows.filter fun f => f.1 ≠ k }
  onCore k fun c => { c with rings := [], receivers := [], graftq := [] }

/-- CORE_SEAL (25 R368): a core has consumed an uncorrectable error of its own state. -/
def execCoreSeal (k : Nat) (s : State) : Out :=
  event (do
    let s ← getS
    let c := s.coreOf k
    if c.isSealed then pure ()
    else
      let mine := (s.threads.filter fun t => t.1 / 16 = k).map Prod.snd
      let tasks := (mine.map fun t => (t.tcbKey, t.ctx)) ++ c.graftq.map fun g => (g.tcbKey, g.ctx)
      let ctx := ((tasks.map Prod.snd).head?)
      let number (x : Nat) : Nat := (logicalOf s (dieOf k) x k).getD k
      countErr k 1
      loseSlots k
      stopDomains k c.dda (List.range 4)
      dropEvents k
      onCore k fun c => { c with isSealed := true, waiters := [], sendq := [], ddaq := [] }
      sealWaiters c.waiters
      latchAll c.monRegs
      let r : TrapRecord :=
        { sender := none
          w0 := BitVec.ofNat 64 (Cause.neighbourSealed * 2 ^ 56 + 2 ^ 55 + (ctx.map number).getD k % 2 ^ 24 * 2 ^ 24 + ctx.getD 0)
          w1 := 0, w2 := BitVec.ofNat 64 (indexOf k), w3 := 0 }
      plan 0 (.trapQueueRecord (sealSupervisor k) r)
      failAll number tasks
      if hasLinks k then
        wakeArray (neighbour k .n); wakeArray (neighbour k .e); wakeArray (neighbour k .s); wakeArray (neighbour k .w)
      else pure ()) s

/-- Link words and credits on their way to a core, or back to a neighbour from it. -/
def linkDue (k : Nat) (i : Instr) : Bool :=
  match i with
  | .linkWordArrival c _ _ => c = k
  | .linkCreditReturn c d => c = k || neighbour c d = k
  | _ => false

/-- Words that a core has pushed toward a direction and that its neighbour has not popped. -/
def unpopped (s : State) (k : Nat) (d : Dir) : Nat :=
  let nb := neighbour k d
  (FMap.get [] (s.coreOf nb).links d.opp.idx).length +
  (s.clock.events.filter fun e => match e.act with | .linkWordArrival c x _ => c = nb && x = d.opp | _ => false).length

/-- Room on both sides of the links of a core whose queues are empty. -/
def resetLinks (k : Nat) : List Dir → M Unit
  | [] => pure ()
  | d :: ds => do
    let s ← getS
    onCore k fun c => { c with credits := FMap.set c.credits d.idx (32 - unpopped s k d) }
    onCore (neighbour k d) fun c => { c with credits := FMap.set c.credits d.opp.idx 32 }
    resetLinks k ds

/-- Every piece of a core's state at its reset value, local store kept (25 R371). -/
def clearSeal (k : Nat) : M Unit := do
  loseSlots k
  dropEvents k
  emit (.core k fun _ => {})
  if hasLinks k then
    emit (.clock fun c => { c with events := c.events.filter fun e => !(linkDue k e.act) })
    resetLinks k [.n, .e, .s, .w]
  else pure ()
  glbChanged k

/-! ## Twinned hashes (25 R373, R374) -/

/-- Whether copy 0 of a twinned thread was last known in a slot: its task and work identifier. -/
def copyZeroAt (s : State) (k t : Nat) : Option (Nat × Twin) :=
  match FMap.get? s.threads (tidOf k t) with
  | some x => match x.twin with | some q => if q.copy = 0 then some (x.tcbKey, q) else none | none => none
  | none =>
    s.pkg.saved.findSome? fun p =>
      if p.2.core = k && p.2.slot = t then
        match p.2.twin with | some q => if q.copy = 0 then some (p.2.tcbKey, q) else none | none => none
      else none

/-- TWIN_HASH_ARRIVAL (25 R373): copy 0 performs its item when it comes to it, or treats it as a mismatch. -/
def execTwinHashArrival (k t item : Nat) (hash : Word) (s : State) : Out :=
  event (do
    match copyZeroAt (← getS) k t with
    | some (task, q) => emitAll (twinEffs k t task q.wid fun q => { q with hashes := FMap.set q.hashes item hash })
    | none => pure ()) s

/-- TWIN_HASH_TIMEOUT (25 R373): no hash has come within 2^20 cycles. -/
def execTwinHashTimeout (k t item : Nat) (s : State) : Out :=
  event (do
    match copyZeroAt (← getS) k t with
    | some (task, q) =>
      if q.item = item && (FMap.get? q.hashes item).isNone then
        emitAll (twinEffs k t task q.wid fun q => { q with bad := NSet.insert q.bad item })
      else pure ()
    | none => pure ()) s

/-! ## Requests of other packages (05 R97, 23 R341, 25 R379) -/

/-- A full/empty or barrier operation of another package waits at its home. -/
def registerAway (q : AccessRequest) (key : Nat) : M Unit :=
  onCore (homeOf key) fun c => { c with
    waiters := c.waiters ++ [{ core := 0, slot := 16, remote := some (q.origin, q.id), key := key, kind := q.kind, data := q.data, dest := .none }] }

/-- A read finds the errors of its words: whether it delivers poison. -/
def readErrors (key n : Nat) : M Bool := do
  findEccs (touched key n)
  poisonedAt key n

/-- An operation of another package that waits here is given up, and those behind it are served (12 R217); one that has been served is answered
already. -/
def withdrawRemote (origin n : Nat) : List (Nat × Core) → M Unit
  | [] => pure ()
  | (h, c) :: cs => do
    let mine (w : Waiter) : Bool := w.remote = some (origin, n)
    let late (q : AccessRequest) : Bool := q.origin = origin && q.id = n
    if c.waiters.any mine || c.arrivals.any late then
      onCore h fun c => { c with waiters := c.waiters.filter (!mine ·), arrivals := c.arrivals.filter (!late ·) }
      serveAllOf ((c.waiters.filter mine).map (·.key))
      respond origin n 0 true
    else pure ()
    withdrawRemote origin n cs

/-- A monitor that another package has registered is taken back, or a barrier that it has armed loses its owner (12 R224, R229). -/
def unwatch (origin n : Nat) (barrier : Bool) : List (Nat × Core) → M Unit
  | [] => pure ()
  | (h, c) :: cs => do
    if barrier then
      if c.barriers.any fun b => b.remote = some (origin, n) then
        onCore h fun c => { c with barriers := c.barriers.map fun b => if b.remote = some (origin, n) then { b with remote := none, owner := none } else b }
      else pure ()
    else if c.monRegs.any fun m => m.remote = some (origin, n) then
      onCore h fun c => { c with monRegs := c.monRegs.filter fun m => m.remote ≠ some (origin, n) }
    else pure ()
    unwatch origin n barrier cs

/-- A monitor of another package registered at its home (12 R224): 1 when the home has no room. -/
def registerMonitor (q : AccessRequest) (key : Nat) : M Word := do
  let line := key / 64 * 64
  if monitorRoom ≤ ((← getC (homeOf line)).monRegs).length then return 1
  else
    onCore (homeOf line) fun c => { c with
      monRegs := c.monRegs ++ [{ core := 0, slot := 16, index := 0, line := line, remote := some (q.origin, q.id) }] }
    return 0

/-- Whether an engine sent a request. -/
def engineSent (q : AccessRequest) : Bool := 71680 ≤ q.id % 2 ^ 17

/-- No earlier waiter of a word may proceed before an operation that comes now (12 R217). -/
def nobodyFirst (s : State) (key : Nat) : Bool :=
  !((s.coreOf (homeOf key)).waiters.any fun w => w.key = key && w.kind != .barw && tagAllows w.kind (s.fullAt key))

/-- What a request does at its place: the answer, a cause when it is refused, or none: it waits. -/
def performRequest (q : AccessRequest) (place : Place) (key : Nat) : M (Option (Except Nat Word)) := do
  let local_ := isLs key
  let bad (c : Nat) : M (Option (Except Nat Word)) := return some (.error c)
  let ok (v : Word) : M (Option (Except Nat Word)) := return some (.ok v)
  match q.kind with
  | .load =>
    if ← readErrors key q.size then bad Cause.poisoned
    else ok (BitVec.ofNat 64 (← readLe key q.size))
  | .store =>
    writePart place (leBytes q.size q.data.toNat)
    if q.bound ≠ 0 then poisonWords (touched key q.size) else pure ()
    if engineSent q then fullWords (touched key q.size) else pure ()
    ok 0
  | .amo fn =>
    if isWs key then bad Cause.weightStore
    else if ← readErrors key 8 then bad Cause.poisoned
    else
      let (old, _) ← performAmo fn key q.data q.bound
      ok old
  | .ldf | .stf | .ldff =>
    if !local_ then bad Cause.protection
    else if tagAllows q.kind ((← getS).fullAt key) && nobodyFirst (← getS) key then
      if ← readErrors key 8 then bad Cause.poisoned
      else
        let v ← fullEmptyAct q.kind key q.data
        if q.bound ≠ 0 then poisonWords (touched key 8) else pure ()
        serveAll key
        ok v
    else do
      registerAway q key
      return none
  | .purge =>
    if !local_ then bad Cause.protection
    else do
      purgeAt key (q.bound ≠ 0)
      ok 0
  | .bari =>
    if isWs key then bad Cause.protection
    else do ok (b2w (← performBari key none q.data.toNat none q.slot q.ctx q.bound (some (q.origin, q.id))))
  | .barv =>
    if isWs key then bad Cause.protection
    else if ← readErrors key 8 then bad Cause.poisoned
    else do ok (← performBarv key q.data)
  | .barw =>
    if isWs key then bad Cause.protection
    else if ← readErrors key 8 then bad Cause.poisoned
    else
      match ← performBarw key q.data with
      | some v => ok v
      | none => do
        registerAway q key
        return none
  | .monitor => do ok (← registerMonitor q key)
  | .withdraw | .unmonitor => return none

/-- A request served at its home: performed and answered, or waiting for a self-test, a mode change or a refresh of its place. -/
def serveRequest (q : AccessRequest) : M Unit := do
  let s ← getS
  let refuse (c : Nat) : M Unit := respond q.origin q.id (BitVec.ofNat 64 c) true
  match q.kind, framePlace (q.key / 2 ^ 48) (q.key % 2 ^ 48) with
  | .withdraw, _ => withdrawRemote q.origin q.data.toNat s.cores
  | .unmonitor, _ => unwatch q.origin q.id (q.data = 1) s.cores
  | _, none => refuse Cause.protection
  | _, some place =>
    let key := place.key?.getD 0
    let home := homeOf key
    let d := (key - 2 ^ 42) / 2 ^ 30 % 8
    if isLs key && (s.coreOf home).isSealed then refuse Cause.neighbourSealed
    else if q.kind = .monitor then respond q.origin q.id (← registerMonitor q key) false
    else if underTest s key ||
        (isWs key && ((s.dieOf d).wsPend || (s.dieOf d).busyGroup = some ((key - 2 ^ 42) % 2 ^ 30 / 2 ^ 26))) then
      onCore home fun c => { c with arrivals := c.arrivals ++ [q] }
    else if isWs key && ((q.kind = .load) != (s.dieOf d).wsServing) then refuse Cause.weightStore
    else
      match ← performRequest q place key with
      | some (.ok v) => respond q.origin q.id v false
      | some (.error c) => refuse c
      | none => pure ()

/-- REMOTE_ACCESS_REQUEST (05 R97) -/
def execRemoteAccessRequest (q : AccessRequest) (s : State) : Out := event (serveRequest q) s

def serveRequests : List AccessRequest → M Unit
  | [] => pure ()
  | q :: qs => do serveRequest q; serveRequests qs

/-- Requests that waited at a core are tried again. -/
def serveArrivals (k : Nat) : M Unit := do
  let qs := (← getC k).arrivals
  if qs.isEmpty then pure ()
  else
    onCore k fun c => { c with arrivals := [] }
    serveRequests qs

/-! ## Responses (05 R97, 25 R379, R380) -/

/-- An item of a twinned thread fails after both copies have agreed on it (25 R374). -/
def failTwin (id : Nat) : M Unit := do
  let own := (← getS).control id
  let o ← getT own
  match o.twin with
  | some tw => if tw.copy = 0 then emitAll (twinTrapEffs own o.tcbKey tw) else pure ()
  | none => pure ()

/-- An access of a thread to another package fails: nothing more of it is awaited, and its word traps, precisely. -/
def failAccess (id cause : Nat) : M Unit := do
  let t ← getT id
  thr id fun t => { t with outstanding := t.outstanding.filter fun p => (FMap.get? t.gatherAt p.1).isNone, gatherAt := [], gathered := 0 }
  if t.gatherFn = 9 then
    onPkg fun p => { p with armedAway := p.armedAway.filter fun x => (FMap.get? t.gatherAt x.1).isNone }
  else pure ()
  failTwin id
  takeTrap id cause t.gatherEa t.faultPc

/-- The word being executed is that of a thread. -/
def actFor (id : Nat) : M Unit := emit (.clock fun c => { c with core := id / 16, slot := id % 16 })

/-- The store in progress goes on once another package has performed the first of its parts; answers whether it is done. -/
def restOfStore (id fn : Nat) : M Bool := do
  actFor id
  let t ← getT id
  let rest := t.storing.drop 1
  thr id fun t => { t with storing := [] }
  performParts id t.gatherEa fn rest

/-- The first store of the write buffer has been performed (04 R70): its thread goes on with the word that has it performed. -/
def bufferedDone (id : Nat) : M Unit :=
  thr id fun t => { t with status := .ready, iter := t.iter.map fun it => { it with buf := it.buf.drop 1 } }

/-- MARM has its answer: the monitor is registered, through a port by a number, or the home has no room (12 R224). -/
def finishMarm (id port : Nat) (full : Bool) : M Unit := do
  let t ← getT id
  let own := (← getS).control id
  match full, t.held with
  | false, [i, line, n] =>
    thr own fun o => { o with
      monitors := FMap.set o.monitors i.toNat { line := line.toNat, addr := t.gatherEa &&& ~~~63#64, latched := false, away := some (port, n.toNat) } }
  | _, _ => pure ()
  emit (.pw id (setBit t.pw 18 full))
  goOn id

/-- An access whose parts have all come, the last through a port by a number: its result is filled and the thread goes on (12 R213 to R217, R224,
R227). -/
def finishAccess (id port n : Nat) : M Unit := do
  let t ← getT id
  let v := BitVec.ofNat 64 t.gathered
  match t.gatherFn with
  | 10 =>
    thr id fun t => { t with status := if t.col.any fun c => !c.inHandler then .parked .column none else .ready, mwaitToken := 3 }
  | 11 => do
    if ← restOfStore id 11 then goOn id else pure ()
  | 13 => do
    if ← restOfStore id 13 then bufferedDone id else pure ()
  | 12 => do
    twinAnswer id [] false
    bufferedDone id
  | 14 => finishMarm id port (v = 1)
  | 7 => do
    goOn id
    twinAnswer id [] false
  | 8 => do
    emit (.pw id (setBit t.pw 18 (2 ≤ bits v 2 0)))
    fill id t.mwaitDst v
    goOn id
    twinAnswer id [v] false
  | 9 => do
    emit (.pw id (setBit t.pw 18 (v = 1)))
    if v = 1 then onPkg fun p => { p with armedAway := FMap.erase p.armedAway n, armedPort := FMap.erase p.armedPort n } else pure ()
    goOn id
    twinAnswer id [v] false
  | fn => do
    fill id t.mwaitDst (widen fn t.gathered)
    goOn id
    twinAnswer id [v] false

/-- The operation of a thread has been withdrawn at its home (12 R217): Wait Limit is taken, or the word is executed again, at which an interrupt or a
pre-emption then finds the thread. -/
def withdrawnAway (id : Nat) : M Unit := do
  let t ← getT id
  thr id fun t => { t with
    outstanding := t.outstanding.filter fun p => (FMap.get? t.gatherAt p.1).isNone, gatherAt := [], gathered := 0, recalled := none }
  match t.recalled, t.status with
  | some true, .parked .registered (some n) => limitTrap id n
  | _, _ => do
    rewind id
    release id
    thr id fun t => { t with status := if t.col.any fun c => !c.inHandler then .parked .column none else .ready }

/-- The producer that a request of a thread works for. -/
def awayProducer (t : Thread) (n : Nat) : Option (Nat × Producer × Away) :=
  t.producers.findSome? fun p =>
    match p.2.away with
    | some a => if (FMap.get? a.asked n).isSome then some (p.1, p.2, a) else none
    | none => none

/-- The value of a result of which everything has come: the bytes of the iteration's own buffer over those that were sent (04 R70, 12 R213). -/
def Away.value (a : Away) : Word :=
  if a.fn = 8 then BitVec.ofNat 64 a.got
  else widen a.fn (leValue (replaceBytes (leBytes (loadSize a.fn) a.got) a.own))

/-- A result from another package has come whole: its destination is filled (03 R42); BARV tells its status in ST as well (12 R227). -/
def landAway (id p : Nat) (pr : Producer) (a : Away) : M Unit := do
  thr id fun t => { t with producers := FMap.erase t.producers p }
  if a.fn = 8 then emit (.pw id (setBit (← getT id).pw 18 (2 ≤ bits a.value 2 0))) else pure ()
  fill id pr.dest a.value
  if a.holds then
    goOn id
    twinAnswer id [a.value] false
  else pure ()
  settleUpward id
  settleTrapped id

/-- A result from another package does not come: the word that asked for it traps, and what has happened to the thread since stands (assumption 59). An
event that was to go upward first is still to come. -/
def failAway (id p : Nat) (pr : Producer) (a : Away) (cause : Nat) : M Unit := do
  let t ← getT id
  thr id fun t => { t with producers := FMap.erase t.producers p, outstanding := t.outstanding.filter fun o => (FMap.get? a.asked o.1).isNone }
  unclaim id pr.dest
  if a.holds then failTwin id else pure ()
  match t.status with
  | .parked (.upward c v _ true) _ => thr id fun t => { t with pendUp := (c, v, id / 16) :: t.pendUp }
  | .parked .registered _ => if t.asking then recallAll id t.gatherAt else pure ()
  | _ => pure ()
  takeTrap id cause a.ea a.epc

/-- A request of a producer is answered. -/
def answerAwayProducer (id n p : Nat) (pr : Producer) (a : Away) (value : Word) (error : Bool) : M Unit := do
  if error then failAway id p pr a value.toNat
  else
    let a := { a with got := a.got + value.toNat * 2 ^ (8 * FMap.get 0 a.asked n), asked := FMap.erase a.asked n }
    thr id fun t => { t with
      outstanding := FMap.erase t.outstanding n, producers := FMap.set t.producers p { pr with away := some a } }
    if a.asked.isEmpty then landAway id p pr a else pure ()

/-- The answer to a graft or a spawn of another package: 0 refused, 1 accepted, 2 sealed, 3 queue full. -/
def answerMove (k t : Nat) (v : Nat) : M Unit := do
  let id := tidOf k t
  let th ← getT id
  match th.status with
  | .parked .graft _ =>
    if v = 1 then
      let port := th.graftTo / 2 ^ 13 - 1
      vacate id
      onPkg fun p => { p with moved := FMap.set p.moved th.uid port }
      sendCompletions port th.uid th.pend.xc
    else if v = 2 then takeTrap id Cause.neighbourSealed 0 th.faultPc
    else plan 16 (.graftResend k t)
  | .parked .spawn _ => plan 0 (.spawnReply k t (v = 1))
  | _ => pure ()

/-- An access that nothing waits for is performed: a reduction (12 R221). -/
def accessDone (id n : Nat) : M Unit := do
  thr id fun t => { t with outstanding := FMap.erase t.outstanding n }
  settleUpward id
  settleTrapped id

/-- A response that has come for a thread or an engine; one in error gives a cause, none when its operation has been withdrawn. -/
def takeResponse (k t n : Nat) (value : Word) (error : Bool) : M Unit := do
  if 71680 ≤ n % 2 ^ 17 then engineResponse (n % 2 ^ 17 - 71680) n value error
  else if n = 0 then answerMove k t value.toNat
  else
    let id := tidOf k t
    let th ← getT id
    match FMap.get? th.outstanding n, awayProducer th n, FMap.get? th.gatherAt n with
    | none, _, _ => pure ()
    | some _, some (p, pr, a), _ => answerAwayProducer id n p pr a value error
    | some _, none, none => accessDone id n
    | some acc, none, some off =>
      if error then
        if value = 0 then withdrawnAway id else failAccess id value.toNat
      else
        thr id fun t => { t with
          outstanding := FMap.erase t.outstanding n, gatherAt := FMap.erase t.gatherAt n, recalled := none
          gathered := t.gathered + value.toNat * 2 ^ (8 * off) }
        if (← getT id).gatherAt.isEmpty then finishAccess id (acc.port - 1) n else pure ()

/-- REMOTE_ACCESS_RESPONSE (05 R97, 12 R211): a response in error traps with the cause that it gives. -/
def execRemoteAccessResponse (k t n : Nat) (value : Word) (poison : Bool) (s : State) : Out := event (takeResponse k t n value poison) s

/-- The first port core of a port, which counts what goes wrong on it (25 R383). -/
def portCore (port : Nat) : Nat := 4352 + 4 * port

/-- The port by which the engine of a core reaches the package that a part of a command lies in. -/
def enginePort (s : State) (k n : Nat) : Nat :=
  let pkgOf (c : Copy) : Nat :=
    let side := if c.phase = 1 then c.src else c.dst
    (side.pages.findSome? fun p => match p.2 with | .remote pkg _ _ => some pkg | _ => none).getD 0
  match (s.coreOf k).commands.findSome? fun p => (p.2.copy.filter fun c => (FMap.get? c.asked n).isSome).map fun c => (p.2.rep.ctx, pkgOf c) with
  | some (ctx, pkg) => firstPort (routeMask s (dieOf k) ctx pkg)
  | none => 0

/-- LINK_TIMEOUT (25 R380): a request has had no response within DLTO; it is counted at the port that sent it. -/
def execLinkTimeout (k t n : Nat) (s : State) : Out :=
  event (do
    let s ← getS
    let id := tidOf k t
    let th := s.thread id
    if t = 16 then
      if (s.coreOf k).commands.any fun p => p.2.copy.any fun c => (FMap.get? c.asked n).isSome then
        countErr (portCore (enginePort s k n)) 12
        engineTimeout k n
      else pure ()
    else
      match FMap.get? th.outstanding n with
      | none => pure ()
      | some acc =>
        let port := portCore (acc.port - 1)
        countErr port 12
        match awayProducer th n, FMap.get? th.gatherAt n with
        | some (p, pr, a), _ => failAway id p pr a Cause.linkTimeout
        | none, some _ => failAccess id Cause.linkTimeout
        | none, none => do
          countErr port 6
          accessDone id n) s

/-! ## Flits (25 R377 to R379) -/

def onPort (port : Nat) (f : LinkPort → LinkPort) : M Unit :=
  onDie (port / 4) fun x => { x with ports := FMap.set x.ports (port % 4) (f (FMap.get {} x.ports (port % 4))) }

/-- A core of another package that sent something through a port, as this package keeps it. -/
def awayCore (port k : Nat) : Nat := 2 ^ 13 * (port + 1) + k

/-- Flits that the other end asks for go out again. -/
def sendAgain (port : Nat) : List Flit → M Unit
  | [] => pure ()
  | f :: fs => do
    onPkg fun q => { q with outbox := q.outbox ++ [.flit port f.payload] }
    sendAgain port fs

/-- A monitor that a thread here has registered in another package has latched, or a barrier that it armed there is broken (03 R60, 12 R229). -/
def takeNotice (port n : Nat) : M Unit := do
  let s ← getS
  let mine (p : Nat × Monitor) : Bool := p.2.away = some (port, n)
  let set (ms : FMap Monitor) : FMap Monitor := ms.map fun p => if mine p then (p.1, { p.2 with latched := true }) else p
  match s.threads.find? (fun t => t.2.monitors.any mine), FMap.get? s.pkg.armedAway n with
  | some (id, _), _ => do
    thr id fun t => { t with monitors := set t.monitors }
    wakeMwait id
  | none, some (owner, id, ctx, ea) => do
    onPkg fun p => { p with armedAway := FMap.erase p.armedAway n, armedPort := FMap.erase p.armedPort n }
    deliverAsync owner (id / 16) (id % 16) ctx Cause.barrierBroken ea
  | none, none => onPkg fun p => { p with saved := p.saved.map fun x => (x.1, { x.2 with monitors := set x.2.monitors }) }

/-- A message of this package has left its sender's queue (13 R240). -/
def forgetMessage (num : Nat) : List (Nat × Core) → M Unit
  | [] => pure ()
  | (k, c) :: cs => do
    if c.sendq.any (fun e => e.1.num = num) || c.ddaq.any (fun e => e.num = num) then
      onCore k fun c => { c with sendq := c.sendq.filter fun e => e.1.num ≠ num, ddaq := c.ddaq.filter fun e => e.num ≠ num }
      glbChanged k
      plan 0 (.sendQueueDeliver k)
    else pure ()
    forgetMessage num cs

/-- A cutting of another package comes to its home here; one to a weight store, or to no memory, is dropped, counted and acknowledged (12 R222, 05 R97,
assumption 60). -/
def takeCutting (port : Nat) (c : Cutting) : M Unit := do
  match framePlace (c.key / 2 ^ 48) (c.key % 2 ^ 48) with
  | some place =>
    let key := place.key?.getD 0
    if isWs key then
      countErr (homeOf key) 6
      respond port c.id 0 false
    else plan 0 (.cuttingApply { c with fromCore := awayCore port c.fromCore, key := key })
  | none => do
    countErr (portCore port) 6
    respond port c.id 0 false

/-- What an accepted flit brings about here (25 R379). -/
def takePayload (port : Nat) (p : FlitPayload) : M Unit := do
  match p with
  | .request q => serveRequest { q with origin := port }
  | .response k t n v bad => takeResponse k t n v bad
  | .graftHead bs => onPort port fun q => { q with half := bs }
  | .graft k bs g => do
    let q := FMap.get {} (← getD (port / 4)).ports (port % 4)
    onPort port fun q => { q with half := [] }
    plan 0 (.graftArrival k (graftOf (q.half ++ bs)
      { g with fromCore := awayCore port g.fromCore, tcbKey := foreignKey port g.tcbKey, uid := foreignKey port g.uid }))
  | .spawn k g => plan 0 (.spawnPacketArrival k { g with fromCore := awayCore port g.fromCore, tcbKey := foreignKey port g.tcbKey })
  | .message m => plan 0 (.inboxPlace m.toCore { m with fromCore := awayCore port m.fromCore, away := none })
  | .cutting c => takeCutting port c
  | .notice n => takeNotice port n
  | .completion uid c => takeCompletion (clusterCore (port / 4) 0) (foreignKey port uid) c
  | .taskJoined key => joinTask key
  | .taskLeft key => leaveTask key none
  | .placed num => forgetMessage num (← getS).cores
  | .retry n => sendAgain port ((FMap.get {} (← getD (port / 4)).ports (port % 4)).sent.filter fun f => n ≤ f.seq)

/-- The port asks again for every flit from the first not accepted (25 R378). -/
def askAgain (port : Nat) : M Unit := do
  let n := (FMap.get {} (← getD (port / 4)).ports (port % 4)).rxSeq
  onPkg fun q => { q with outbox := q.outbox ++ [.flit port (.retry n)] }

/-- A retrain: counted; the link is then trained, on lanes that no rule gives, and resumes from the first flit not yet accepted (25 R378, R380). -/
def retrain (port : Nat) : M Unit := do
  onPort port fun q => { q with
    trn := (q.trn + 1) % 2 ^ 16, fails := 0, up := true, lanes := (Config.trainedLanes port q.trn).toNat }
  askAgain port

/-- LINK_RETRAIN (25 R378) -/
def execLinkRetrain (port : Nat) (s : State) : Out := event (retrain port) s

/-- A flit retried is counted in the port's DLSTAT and on its core (25 R378, R380, R383). -/
def countRetry (port : Nat) : M Unit := do
  onPort port fun q => { q with rtry := min (2 ^ 32 - 1) (q.rtry + 1) }
  countErr (portCore port) 11

/-- FLIT_RECEIVE (25 R378, R379): a flit is accepted in order, discarded when it has been accepted before, and asked for again when its
check fails or a flit before it is missing. -/
def execFlitReceive (port : Nat) (f : Flit) (s : State) : Out :=
  event (do
    let q := FMap.get {} (← getD (port / 4)).ports (port % 4)
    if !f.crcOk then
      countRetry port
      if 16 ≤ q.fails + 1 then retrain port
      else
        onPort port fun q => { q with fails := q.fails + 1 }
        askAgain port
    else if f.seq < q.rxSeq then pure ()
    else if q.rxSeq < f.seq then countRetry port
    else
      onPort port fun q => { q with rxSeq := q.rxSeq + 1, fails := 0 }
      takePayload port f.payload) s

/-! ## Counters (25 R383 to R386) -/

/-- Threads of a core that wait, or are parked. -/
def countThreads (s : State) (k : Nat) (parked u : Bool) : Nat :=
  ((List.range 16).filter fun t =>
    match FMap.get? s.threads (tidOf k t) with
    | none => false
    | some x =>
      (!u || x.level = .u) &&
      (match x.status with
       | .ready => false
       | .waiting _ => !parked
       | .parked _ _ => parked)).length

/-- Events of a source in the present cycle. -/
def eventsOf (s : State) (k src : Nat) (u : Bool) : Nat :=
  let c := s.coreOf k
  match src with
  | 0 => 0
  | 1 => 1
  | 7 => countThreads s k false u
  | 8 => countThreads s k true u
  | n => if 21 < n then 0 else FMap.get 0 (if u then c.tallyU else c.tally) n

/-- One counter after a cycle: modulo 2^48, with OVF when it wraps. -/
def EvCounter.add (x : EvCounter) (n : Nat) : EvCounter :=
  if x.en then { x with count := (x.count + n) % 2 ^ 48, ovf := x.ovf || 2 ^ 48 ≤ x.count + n } else x

/-- EVENT_COUNTER_ADD (25 R384): at the end of a cycle each counter adds its source's events. -/
def execEventCounterAdd (k : Nat) (s : State) : Out :=
  event (do
    let s ← getS
    onCore k fun c => { c with
      evs := c.evs.map fun p => (p.1, p.2.add (eventsOf s k p.2.src p.2.uo)), tally := [], tallyU := [] }) s

/-- ECSEL (25 R384) -/
def ecselWord (x : EvCounter) : Word := BitVec.ofNat 64 (b2n x.en * 2 ^ 63 + b2n x.uo * 2 ^ 62 + b2n x.ovf * 2 ^ 61 + x.src)

/-- ECRD (25 R385) -/
def execEcrd (d a : Code) (x : Bool) (s : State) : Out :=
  instr { srcs := [a], dst := some d } (do
    let va ← readSrc a x
    check (bits va 63 9 = 0 && bits va 7 4 = 0) Cause.illegalOperand
    let n := bits va 3 0
    let c ← getC (← myCore)
    if bit va 8 then
      check (n ≤ 13) Cause.illegalOperand
      check ((← controlT).level ≠ .u) Cause.privileged
      produce d (BitVec.ofNat 64 (FMap.get 0 c.errs n)) 8
    else
      let ev := FMap.get {} c.evs (n % 8)
      produce d (if n ≤ 7 then BitVec.ofNat 64 ev.count else ecselWord ev) 8
    return .next) s

/-- ECCFG (25 R386) -/
def execEccfg (d a b : Code) (x y : Bool) (s : State) : Out :=
  instr { level := .s, srcs := [a, b], dst := some d } (do
    let va ← readSrc a x
    let vb ← readSrc b y
    let op := bits va 7 4
    let n := bits va 3 0
    let limit := match op with | 0 | 1 => 7 | 2 => 13 | _ => 0
    check (bits va 63 8 = 0 && op ≤ 3 && n ≤ limit) Cause.illegalOperand
    let t ← controlT
    check (op ≠ 3 || t.level = .h) Cause.privileged
    waitOldest
    let k ← myCore
    let c ← getC k
    let ev := FMap.get {} c.evs n
    match op with
    | 0 => do
      let new : EvCounter := { ev with en := bit vb 63, uo := bit vb 62, ovf := ev.ovf && !bit vb 61, src := bits vb 7 0 }
      onCore k fun c => { c with evs := FMap.set c.evs n new }
      writeDst d (ecselWord ev)
      writeSt false
    | 1 => do
      onCore k fun c => { c with evs := FMap.set c.evs n { ev with count := bits vb 47 0 } }
      writeDst d (BitVec.ofNat 64 ev.count)
      writeSt false
    | 2 => do
      onCore k fun c => { c with errs := FMap.set c.errs n 0 }
      writeDst d (BitVec.ofNat 64 (FMap.get 0 c.errs n))
      writeSt false
    | _ => do
      writeDst d 0
      match tselCore (← getS) t k with
      | some target =>
        if ((← getS).coreOf target).isSealed then
          clearSeal target
          writeSt false
        else writeSt true
      | none => writeSt true
    return .next) s

/-! ## Self-test (26 R390, R391) -/

/-- The unit of a test is there on a core. -/
def hasUnit (k test : Nat) : Bool :=
  match test with
  | 0 => true
  | 1 => hasTiles k
  | 2 => hasArray k
  | 3 => hasDda k
  | 4 => hasLinks k
  | _ => true

/-- Cycles of a test. -/
def testCycles (test : Nat) : Nat :=
  match test with
  | 0 => 131072
  | 1 => 32768
  | 2 => 65536
  | 3 => 16384
  | 4 => 8192
  | _ => 1024

/-- Local-store banks of a core (05 R90). -/
def banksOf (k : Nat) : Nat := if lsSize k = 0x180000 then 16 else 4

/-- A copy or NBMV, accepted anywhere, that touches a core: issued there, or with a side in its local store. -/
def touchesCore (k : Nat) (p : Nat × Core) : Bool :=
  let side (sd : Side) : Bool := (sd.own && p.1 = k) || sd.pages.any fun x => match x.2 with | .ls c _ => c = k | _ => false
  p.2.commands.any fun x =>
    match x.2.work with
    | .copy c => side c.src || side c.dst
    | .nearBank n => side n.x || side n.w || side n.y
    | .tile _ _ _ => false

/-- The tested core is idle (26 R391). -/
def idleForTest (s : State) (k : Nat) (issuer : Option Nat) : Bool :=
  ((List.range 16).all fun t => !(s.occupied (tidOf k t)) || issuer = some (tidOf k t)) &&
  (s.coreOf k).array.queue.isEmpty && !((s.coreOf k).dda.doms.any fun z => z.2.run) && !(s.cores.any (touchesCore k)) &&
  (s.coreOf k).bist.isNone

/-- The tested core has the unit of the test, as far as the selector tells (01 R8, 26 R390): a core that lacks it traps before the level is checked. -/
def testable (a : Code) (x : Bool) (s : State) : Bool :=
  let found : M Bool := do
    let va ← readSrc a x
    let k ← myCore
    let s ← getS
    let t ← controlT
    let target := if bit va 16 then tselCore s t k else some k
    return target.all fun c => hasUnit c (bits va 7 0)
  match found.eval s with
  | .ok (b, _) => b
  | .error _ => true

/-- BIST (26 R390, R391) -/
def execBist (d a : Code) (x : Bool) (s : State) : Out :=
  instr { level := .s, srcs := [a], dst := some d, unit := fun _ => testable a x s } (do
    let va ← readSrc a x
    let test := bits va 7 0
    let unit := bits va 11 8
    check (bits va 63 17 = 0 && bits va 15 12 = 0) Cause.illegalOperand
    let k ← myCore
    let other := bit va 16
    let target ← do
      if other then
        match tselCore (← getS) (← controlT) k with
        | some c => pure c
        | none => trap Cause.illegalOperand
      else pure k
    check (test ≤ 5 && (test = 0 || unit = 0)) Cause.illegalOperand
    check (test ≠ 0 || (unit < banksOf target && (other || (unit ≠ 0 && unit ≠ banksOf target - 1)))) Cause.illegalOperand
    let dest ← destOf d
    let id ← me
    if idleForTest (← getS) target (if other then none else some id) then
      let n := (← self).nextProducer
      claim id dest
      thr id fun t => { t with
        producers := FMap.set t.producers n { dest := dest, value := 0 }, nextProducer := n + 1 }
      onCore target fun c => { c with bist := some { test := test, unit := unit, core := k, slot := id % 16, producer := n } }
      plan (testCycles test) (.bistComplete target test)
    else
      claim id dest
      expect id dest (BitVec.ofNat 64 (2 * 2 ^ 56)) 1 0
    return .next) s

/-- What a test leaves of its unit (26 R390). -/
def testedState (k : Nat) (b : SelfTest) : M Unit := do
  match b.test with
  | 0 =>
    let size := lsSize k / banksOf k
    let key := lsKey k (b.unit * size)
    emit (.wipe key size)
    onPkg fun p => { p with eccBad := p.eccBad.filter fun x => x.1 < key || key + size ≤ x.1 }
    wrote key size
    serveAllOf (((← getC k).waiters.filter fun w => key ≤ w.key && w.key < key + size).map (·.key))
  | 1 => thr (tidOf b.core b.slot) fun t => if b.core = k then { t with tiles := [], tileFree := none } else t
  | 2 => onCore k fun c => { c with array := { c.array with acc := [], nv := false, ovf := false, nx := false, psn := false } }
  | 3 => onCore k fun c => { c with dda := { c.dda with cells := [], taps := [], outs := [] } }
  | 4 => do
    emptyLinks k [0, 1, 2, 3]
    onCore k fun c => { c with array := { c.array with west := [], north := [] } }
  | _ => onCore k fun c => { c with exact := [] }

/-- The result word of a test (26 R391). -/
def testResult (k : Nat) (b : SelfTest) : Word :=
  match Config.bistFault k b.test b.unit with
  | none => BitVec.ofNat 64 0xFFFFFFFF
  | some (n, first) => BitVec.ofNat 64 (2 ^ 56 + min n (2 ^ 24 - 1) * 2 ^ 32 + first % 2 ^ 32)

/-- BIST_COMPLETE (26 R391): the tested unit is as the test leaves it, d is filled, and what has waited goes on. -/
def execBistComplete (k _t : Nat) (s : State) : Out :=
  event (do
    match (← getC k).bist with
    | none => pure ()
    | some b =>
      testedState k b
      onCore k fun c => { c with bist := none }
      let id := tidOf b.core b.slot
      match FMap.get? (← getT id).producers b.producer with
      | some pr =>
        thr id fun t => { t with producers := FMap.erase t.producers b.producer }
        fill id pr.dest (testResult k b)
        settleUpward id
        settleTrapped id
      | none => pure ()
      serveArrivals k) s

/-- A self-test that a thread has issued and that has not ended: its interrupts wait (26 R391). -/
def testing (s : State) (id : Nat) : Bool := s.cores.any fun c => c.2.bist.any fun b => tidOf b.core b.slot = id

/-! ## Refresh and weight-store modes (05 R99, R100) -/

/-- REFRESH_PHASE (05 R100): a phase begins and its group is busy. -/
def execRefreshPhase (d : Nat) (s : State) : Out :=
  event (do
    let n := (← now) - (← getD d).resetAt
    onDie d fun x => { x with busyGroup := some (n / 512 % 16) }
    plan 128 (.refreshBusyEnd d)
    plan 512 (.refreshPhase d)) s

/-- REFRESH_BUSY_END (05 R100) -/
def execRefreshBusyEnd (d : Nat) (s : State) : Out :=
  event (do
    onDie d fun x => { x with busyGroup := none }
    serveArrivals (3808 + 4 * d)) s

/-- A place in the weight store of a die. -/
def Place.inStore (d : Nat) : Place → Bool
  | .ws e _ _ => e = d
  | _ => false

/-- An engine command that has been accepted and uses the weight store of a die, held after another or not. -/
def usesStore (d : Nat) (cmd : Command) : Bool :=
  let side (sd : Side) : Bool := sd.pages.any fun x => x.2.inStore d
  match cmd.work with
  | .copy c => side c.src || side c.dst
  | .nearBank n => side n.w || side n.y
  | .tile _ _ _ => false

/-- An iteration holds a store to the weight store of a die in its write buffer (04 R70). -/
def buffersStore (d : Nat) (t : Thread) : Bool := t.iter.any fun it => it.buf.any fun b => b.parts.any fun p => p.1.inStore d

/-- WSMODE_DRAIN_END (05 R99): MODE changes once everything that came before the write is performed. -/
def execWsmodeDrainEnd (d : Nat) (s : State) : Out :=
  event (do
    let s ← getS
    if !(s.dieOf d).wsPend then pure ()
    else if (s.cores.any fun c => c.2.commands.any fun p => usesStore d p.2) || s.threads.any (fun t => buffersStore d t.2) then
      plan 1 (.wsmodeDrainEnd d)
    else
      onDie d fun x => { x with wsServing := !x.wsServing, wsPend := false }
      serveArrivals (3808 + 4 * d)) s

end Sys2Proof.Machine
end

