-- ==== Sys2Proof/Machine/Boot.lean ====
section
/-! DEFINITION. Package and die reset, the signed images, attestation over the management port and margining (26 R387 to R393, 25 R371). -/

namespace Sys2Proof.Machine

/-! ## Images (26 R388) -/

/-- A little-endian field of an image. -/
def field (im : List Byte) (off n : Nat) : Nat := leValue ((im.drop off).take n)

def blen (im : List Byte) : Nat := field im 16 8
def imageBody (im : List Byte) : List Byte := (im.drop 8192).take (blen im)

/-- An image with the header of R388 for a kind, and its whole body. -/
def goodHeader (im : List Byte) (kind : Nat) : Bool :=
  field im 0 4 = 0x48344649 && field im 4 4 = kind && 2 ^ 20 ≤ blen im && blen im ≤ 2 ^ 26 && blen im % 2048 = 0 && 8192 + blen im ≤ im.length

/-- The reserved bytes of the header are 0. -/
def reservedZero (im : List Byte) : Bool :=
  ((im.drop 28).take 36).all (fun b => b = 0) && ((im.drop 7283).take 909).all (fun b => b = 0)

/-- Why an image is refused: 2 its header, 3 its key, 4 its signature, 5 its security version, 6 a reserved byte; none: it is accepted. -/
def imageRefused (im : List Byte) (kind : Nat) (key : List Byte) (rollback : Nat) : Option Nat :=
  let pk := (im.drop 64).take 2592
  let sig := (im.drop 2656).take 4627
  if !goodHeader im kind then some 2
  else if Config.sha3 pk ≠ key then some 3
  else if !Config.verify pk sig (Config.sha3 (im.take 64 ++ imageBody im)) then some 4
  else if field im 8 8 < rollback then some 5
  else if !reservedZero im then some 6
  else none

/-- The check of a partition image, under the key digest registered for the partition. -/
def partitionAccepted (s : State) (d part : Nat) (im : List Byte) : Bool :=
  (imageRefused im 2 (FMap.get [] s.pkg.partDigests part) (s.dieOf d).svnfuse).isNone

/-! ## Boot (26 R387) -/

/-- The identifier of the text that a boot places: no seed's (03 R54). -/
def firmwareSid : Nat := 2 ^ 32

/-- The firmware's text in the code window of a control core, which is released at an offset, at level H in slot 0. -/
def releaseCore (text : List Byte) (entry : BitVec 16) (k : Nat) : M Unit := do
  storeBytes (lsKey k 0) text
  markFrames k firmwareSid (List.range ((text.length + 2047) / 2048))
  let s ← getS
  let t : Thread := { newThread s k 0 .h 0 k entry with sid := firmwareSid, uid := s.pkg.nextUid }
  onPkg fun p => { p with nextUid := p.nextUid + 1 }
  emit (.place (tidOf k 0) t)

def releaseCores (text : List Byte) (entry : BitVec 16) : List Nat → M Unit
  | [] => pure ()
  | k :: ks => do releaseCore text entry k; releaseCores text entry ks

/-- Die-local address of the firmware area (26 R387). -/
def firmwareArea : Nat := 0x1000000

/-- A die that stays held: its failure code is set and reported. -/
def bootFails (d code : Nat) : M Unit := do
  onDie d fun x => { x with booted := false, bootFail := code }
  onPkg fun p => { p with outbox := p.outbox ++ [.report (3808 + 4 * d) 0 code 0] }

/-- One die boots: map, image, check, copy, release. Failure codes: 1 the map, 7 no image, and those of `imageRefused`. -/
def bootDie (d : Nat) (image : Option (List Byte)) : M Unit := do
  if !mapHolds d then bootFails d 1
  else
    match image with
    | none => bootFails d 7
    | some im =>
      match imageRefused im 1 (Config.keyDigest d) (← getD d).svnfuse with
      | some code => bootFails d code
      | none =>
        let body := imageBody im
        emit (.mem (hbmKey d firmwareArea) body)
        onPkg fun p => { p with
          firmware := im.take (8192 + blen im),
          eccBad := p.eccBad.filter fun x => x.1 < hbmKey d firmwareArea || hbmKey d firmwareArea + body.length ≤ x.1 }
        onDie d fun x => { x with
          booted := true, bootFail := 0,
          bypass := (List.range 16).map fun r => (r, retMask d r),
          repairs := (List.range 64).map fun c => (c, (defectWord d (0x100 + 8 * c)).toNat) }
        releaseCores (body.take 0x10000) (pcNorm (BitVec.ofNat 16 (field im 24 4))) ((List.range 4).map fun i => 3808 + 4 * d + i)

/-! ## Reset -/

/-- Every register of a core at its reset value. -/
def wipeCores : List Nat → M Unit
  | [] => pure ()
  | k :: ks => do emit (.core k fun _ => {}); wipeCores ks

/-- A die as it is after reset; its fuses stay. Its refresh rounds start when it leaves reset. -/
def resetDie (d : Nat) : M Unit := do
  let n ← now
  let late := Config.engineTime 10 d
  emit (.die d fun x => { svnfuse := x.svnfuse, resetAt := n + late })
  plan late (.refreshPhase d)

def resetDies : List Nat → M Unit
  | [] => pure ()
  | d :: ds => do resetDie d; resetDies ds

def bootDies (image : Option (List Byte)) : List Nat → M Unit
  | [] => pure ()
  | d :: ds => do bootDie d image; bootDies image ds

/-- Every slot is empty, with nothing sent for its thread. -/
def emptyAll : List Nat → M Unit
  | [] => pure ()
  | id :: ids => do emptySlot id; emptyAll ids

/-- PACKAGE_RESET (26 R387): everything but memory and fuses is as after reset, and every die boots. -/
def execPackageReset (image : BootImage) (s : State) : Out :=
  event (do
    let s ← getS
    emptyAll (s.threads.map Prod.fst)
    wipeCores (s.cores.map Prod.fst)
    emit (.clock fun c => { c with todo := [], events := [] })
    emit (.pkg fun p => {
      seeds := p.seeds, outbox := p.outbox, eccBad := p.eccBad, number := p.number, nextUid := p.nextUid, nextAccess := p.nextAccess,
      nextMessage := p.nextMessage, saved := p.saved, savedCores := p.savedCores })
    resetDies (List.range 8)
    bootDies (match image.storage with | some im => some im | none => image.management) (List.range 8)) s

/-- The cores of a die (01 R12). -/
def coresOfDie (d : Nat) : List Nat :=
  (List.range 448).map (d * 448 + ·) ++ (List.range 28).map (3584 + d * 28 + ·) ++ (List.range 4).map (3808 + d * 4 + ·) ++
  (List.range 64).map (3840 + d * 64 + ·) ++ (List.range 16).map (4352 + d * 16 + ·)

/-- Waiters of other dies at a home that is reset execute their words again. -/
def retryAll (d : Nat) : List Waiter → M Unit
  | [] => pure ()
  | w :: ws => do
    if w.remote.isNone && dieOf w.core ≠ d then
      match (← getT (tidOf w.core w.slot)).status with
      | .parked .registered _ => executeAgain (tidOf w.core w.slot)
      | _ => pure ()
    else pure ()
    retryAll d ws

def clearSeals : List Nat → M Unit
  | [] => pure ()
  | k :: ks => do clearSeal k; clearSeals ks

/-- An event of a die's own scheduler, ports or refresh. -/
def dieDue (d : Nat) (i : Instr) : Bool :=
  match i with
  | .schedulerDispatch x | .killDrainComplete x | .coreRemove x | .refreshPhase x | .refreshBusyEnd x | .wsmodeDrainEnd x => x = d
  | .threadPlacement x _ => x = d
  | .laneMarginDwellEnd p _ => p / 4 = d
  | _ => false

/-- DIE_RESET (25 R371, 05 R100): the die's cores, scheduler and ports are as after reset, local stores kept, and it boots from the image
that was accepted. -/
def execDieReset (d : Nat) (s : State) : Out :=
  event (do
    let s ← getS
    let mine := coresOfDie d
    retryAll d (s.cores.flatMap fun c => if dieOf c.1 = d then c.2.waiters else [])
    clearSeals mine
    emit (.clock fun c => { c with events := c.events.filter fun e => !(dieDue d e.act) })
    onPkg fun p => { p with tasks := p.tasks.filter fun t => t.2.die ≠ d }
    resetDie d
    bootDie d (if s.pkg.firmware.isEmpty then none else some s.pkg.firmware)) s

/-- SVNFUSE_WRITE (26 R388): the fused rollback value only rises. -/
def execSvnfuseWrite (d : Nat) (v : Word) (s : State) : Out :=
  event (onDie d fun x => { x with svnfuse := max x.svnfuse (min 64 v.toNat) }) s

/-! ## Attestation (26 R389) -/

/-- A response of the management port. -/
def respondSpdm (code : Nat) (err : Bool) (content : List Byte) : M Unit :=
  onPkg fun p => { p with outbox := p.outbox ++ [.spdm code err content] }

/-- The endpoint is served by the die control complex of die 0, which must run. -/
def endpoint (m : M Unit) (s : State) : Out := event (if (s.dieOf 0).booted then m else pure ()) s

/-- The map of a die as bytes: header, rows, channels (26 R394). -/
def mapBytes (d : Nat) : List Byte :=
  ((List.range 17).map (8 * ·) ++ (List.range 64).map (fun c => 0x100 + 8 * c)).flatMap fun off => leBytes 8 (defectWord d off).toNat

/-- What measurement n is the digest of (26 R389). -/
def measured (s : State) (n : Nat) : Option (List Byte) :=
  match n with
  | 1 => some Config.bootRom
  | 2 => some s.pkg.firmware
  | 3 => some ((List.range 8).flatMap mapBytes)
  | 4 => some ((List.range 8).flatMap fun d => leBytes 8 (s.dieOf d).svnfuse ++ Config.keyDigest d)
  | n => FMap.get? s.pkg.partImages (n - 5)

/-- A measurement: 64 bytes, all zeros where no image is loaded. -/
def measurement (s : State) (n : Nat) : List Byte :=
  match measured s n with
  | some bs => Config.sha3 bs
  | none => List.replicate 64 0

/-- A signature under the attestation key of this boot. -/
def signed (s : State) (bs : List Byte) : List Byte := Config.attest (Config.sha3 s.pkg.firmware) bs

/-- GET_VERSION (26 R389) -/
def execGetVersion (_q : SpdmRequest) (s : State) : Out := endpoint (respondSpdm 0 false (Config.spdmBody 0)) s

/-- GET_CAPABILITIES (26 R389) -/
def execGetCapabilities (_q : SpdmRequest) (s : State) : Out := endpoint (respondSpdm 1 false (Config.spdmBody 1)) s

/-- NEGOTIATE_ALGORITHMS (26 R389): only ML-DSA-87 and SHA3-512. -/
def execNegotiateAlgorithms (q : SpdmRequest) (s : State) : Out :=
  endpoint (if q.sigAlg = 0 && q.hashAlg = 0 then respondSpdm 2 false (Config.spdmBody 2) else respondSpdm 2 true []) s

/-- GET_DIGESTS (26 R389) -/
def execGetDigests (_q : SpdmRequest) (s : State) : Out := endpoint (respondSpdm 3 false (Config.spdmBody 3)) s

/-- GET_CERTIFICATE (26 R389) -/
def execGetCertificate (_q : SpdmRequest) (s : State) : Out := endpoint (respondSpdm 4 false (Config.spdmBody 4)) s

/-- CHALLENGE (26 R389): signed over the requester's nonce. -/
def execChallenge (q : SpdmRequest) (s : State) : Out := endpoint (respondSpdm 5 false (signed s (Config.spdmBody 5 ++ q.nonce))) s

/-- GET_MEASUREMENTS (26 R389): the digest of an index from 1 to 228, signed over the nonce; any other index is an error. -/
def execGetMeasurements (q : SpdmRequest) (s : State) : Out :=
  endpoint (if 1 ≤ q.index && q.index ≤ 228 then
      let m := measurement s q.index
      respondSpdm 6 false (m ++ signed s (m ++ q.nonce))
    else respondSpdm 6 true []) s

/-! ## Margining (26 R392, R393) -/

/-- MARGINING_ENABLE (26 R393): the management port enables or disables margining. -/
def execMarginingEnable (on : Bool) (s : State) : Out := event (onPkg fun p => { p with margining := on }) s

/-- SMARG_WRITE (26 R393) -/
def execSmargWrite (d : Nat) (v : Word) (s : State) : Out := event (setSmarg d v) s

/-- LANE_MARGIN_DWELL (26 R392): a 1 is written to GO, the offsets as they stand. -/
def execLaneMarginDwell (port lane : Nat) (s : State) : Out :=
  event (do
    let v := FMap.get 0 (FMap.get {} (← getD (port / 4)).ports (port % 4)).lmarg lane
    setLmarg (port / 4) (port % 4) lane (putBits v 63 63 1)) s

/-- LANE_MARGIN_DWELL_END (26 R392): GO clears, DONE is set, ERR holds the errors of the dwell. -/
def execLaneMarginDwellEnd (port lane : Nat) (s : State) : Out :=
  event (onPort port fun q =>
    let v := FMap.get 0 q.lmarg lane
    let new : Word := BitVec.ofNat 64 (2 ^ 62 + bits v 55 40 * 2 ^ 40 + (Config.marginErrors port lane v).toNat)
    { q with lmarg := FMap.set q.lmarg lane new }) s

end Sys2Proof.Machine
end

