-- ==== Sys2Proof/Machine/Issue.lean ====
section
/-! DEFINITION. The rotation of a core: which thread issues, annulled words, the spill engine, and the order of what happens in a cycle (03
R39 to R41, R47, R48, 22 R330). -/

namespace Sys2Proof.Machine

/-! ## Eligibility (03 R39) -/

/-- A thread may issue in this cycle: it is ready, or tries its waiting instruction again; its last issue lies 8 cycles back; a column of a
furrow issues by itself only in its trap handler (04 R80, R85). -/
def eligibleThread (n : Nat) (t : Thread) : Bool :=
  (match t.status with
   | .ready => true
   | .waiting _ => true
   | .parked _ _ => false) &&
  (match t.lastIssue with
   | none => true
   | some l => l + 8 ≤ n) &&
  t.yieldTo ≤ n && (!t.draining || drained t) && (t.iter.all fun it => it.trapped.isNone) && (t.col.all fun c => c.inHandler)

/-- The unit that a word uses, as BIST numbers units, by its major opcode (10 R186, 26 R390). -/
def unitOfWord (w : BitVec 32) : Option Nat :=
  let major := w.toNat / 2 ^ 26
  if 0x25 ≤ major ∧ major ≤ 0x2B then some 1
  else if 0x2C ≤ major ∧ major ≤ 0x2E then some 2
  else if major = 0x2F then some (if w.toNat % 8 = 0 then 2 else 5)
  else if 0x34 ≤ major ∧ major ≤ 0x36 then some 3
  else none

/-- The next word of a thread is for a unit of its core that a self-test has: it waits for the end of the test (26 R391). -/
def testHolds (s : State) (k : Nat) (th : Thread) : Bool :=
  (s.coreOf k).bist.any fun b => ((fetchAt s k th.sid th.pc).bind unitOfWord) = some b.test

def eligibleSlot (s : State) (k t : Nat) : Bool :=
  match FMap.get? s.threads (tidOf k t) with
  | some th => eligibleThread s.clock.now th && !(testHolds s k th)
  | none => false

/-- A column of a furrow has issued its step's word on the core in this cycle: nothing else uses the position (04 R80). -/
def columnIssued (s : State) (k : Nat) : Bool :=
  match FMap.get? s.threads (tidOf k 15) with
  | some t => t.col.isSome && t.lastIssue = some s.clock.now
  | none => false

/-- The slot of place i in the search of this cycle: it starts at the owner of the position (03 R39). -/
def slotAt (n i : Nat) : Nat := (n + i) % 16

/-- The first place from i on whose slot is eligible, of those still to be searched; 16: none. -/
def firstFrom (s : State) (k : Nat) : Nat → Nat → Nat
  | i, 0 => i
  | i, n + 1 => if eligibleSlot s k (slotAt s.clock.now i) then i else firstFrom s k (i + 1) n

/-! ## Annulled words (03 R40) -/

/-- ANNULLED_WORD_PASS (03 R40, 10 R189): one annulled word of an eligible thread is passed over. -/
def execAnnulledWordPass (k t : Nat) (s : State) : Out :=
  if eligibleSlot s k t && (s.thread (tidOf k t)).annul ≠ 0 then event (passAnnulled (tidOf k t)) s else .next s

/-- The next slot whose thread passes an annulled word. -/
def nextAnnulled (s : State) (k : Nat) : Option Nat :=
  (List.range 16).find? fun t => eligibleSlot s k t && (s.thread (tidOf k t)).annul ≠ 0

/-! ## The spill engine (03 R47, R48, 11 R210) -/

/-- WINDOW_SPILL (03 R47): one doubleword of the oldest request goes to the window stack. -/
def execWindowSpill (k : Nat) (s : State) : Out :=
  match oldestRequest s k with
  | some (t, .spill) => event (do spillOne (tidOf k t); count k 4) s
  | _ => .next s

/-- WINDOW_FILL (03 R47): one doubleword of the oldest request comes back. -/
def execWindowFill (k : Nat) (s : State) : Out :=
  match oldestRequest s k with
  | some (t, .fill) => event (do fillOne (tidOf k t); count k 4) s
  | _ => .next s

/-- A position that no thread takes goes to the spill engine, or is idle (03 R39). -/
def sparePosition (k : Nat) (s : State) : Out :=
  match oldestRequest s k with
  | some (_, .spill) => execWindowSpill k s
  | some (_, .fill) => execWindowFill k s
  | none => event (count k 5) s

/-! ## What a core does in a cycle -/

/-- The phases of a core's cycle: events delivered, a save or restore carried on, the furrow's step, annulled words, the search from place 0
on, and the spare position; annulled words alone, where a column has used the position. `todo` holds 32 * core + phase. -/
def phaseDeliver : Nat := 0
def phasePoll : Nat := 1
def phaseFurrow : Nat := 2
def phaseAnnul : Nat := 3
def phaseIssue (i : Nat) : Nat := 4 + i
def phaseLast : Nat := 21

/-- A slot with an event to be delivered now; an interrupt of a thread that runs a self-test waits (22 R324, 26 R391). -/
def nextDelivery (s : State) (k : Nat) : Option Nat :=
  (List.range 16).find? fun t => s.occupied (tidOf k t) && deliverable s (tidOf k t) && !(testing s (tidOf k t))

/-- The state in which the word of a slot is executed. -/
def State.issuing (s : State) (k t : Nat) (rest : List Nat) : State :=
  { s with clock := { s.clock with core := k, slot := t, todo := rest } }

/-- The word of a slot fetched, decoded and executed (10 R188). -/
def runSlot (ex : Instr → State → Out) (k t : Nat) (s : State) : Out :=
  let th := s.thread (tidOf k t)
  match fetchAt s k th.sid th.pc with
  | some w => runWord ex w s
  | none => execFetchFault k t s

/-- The thread of a slot has used its position; one that waits has not (03 R43). -/
def usedPosition (s : State) (k t : Nat) : Bool :=
  match FMap.get? s.threads (tidOf k t) with
  | some th => th.lastIssue = some s.clock.now
  | none => true

/-- After a word of place i: the search goes on when its thread waits, and a position used by another than its owner is donated. -/
def afterWord (k i : Nat) (s : State) : State :=
  if usedPosition s k (slotAt s.clock.now i) then
    if i = 0 then s else (Eff.core k fun c => c.tallyAdd 3 1 true).apply s
  else { s with clock := { s.clock with todo := (32 * k + phaseIssue (i + 1)) :: s.clock.todo } }

def mapNext (f : State → State) : Out → Out
  | .next s => .next (f s)
  | .fault f => .fault f
  | .refused r => .refused r

/-- After the furrow's turn: annulled words, and the search unless a column has used the position. -/
def afterFurrow (k : Nat) (rest : List Nat) (s : State) : State :=
  { s with clock := { s.clock with todo := (32 * k + if columnIssued s k then phaseLast else phaseAnnul) :: rest } }

/-- One phase of a core's cycle. -/
def corePhase (ex : Instr → State → Out) (k p : Nat) (rest : List Nat) (s : State) : Out :=
  let go (q : Nat) (s : State) : State := { s with clock := { s.clock with todo := (32 * k + q) :: rest } }
  match p with
  | 0 =>
    match nextDelivery s k with
    | some t => execAsyncEventDelivery k t s
    | none => .next (go phasePoll s)
  | 1 => cxPoll k (go phaseFurrow s)
  | 2 =>
    mapNext (afterFurrow k rest) (if (FMap.get? s.pkg.furrows k).any fun f => f.turn && f.started then furrowAttempt ex k s else .next s)
  | 3 =>
    match nextAnnulled s k with
    | some t => execAnnulledWordPass k t s
    | none => .next (go (phaseIssue 0) s)
  | 21 =>
    match nextAnnulled s k with
    | some t => execAnnulledWordPass k t s
    | none => .next { s with clock := { s.clock with todo := rest } }
  | p =>
    let i := firstFrom s k (p - 4) (16 - (p - 4))
    if i < 16 then
      let t := slotAt s.clock.now i
      mapNext (afterWord k i) (runSlot ex k t (s.issuing k t rest))
    else sparePosition k { s with clock := { s.clock with todo := rest } }

/-! ## The end of a cycle -/

def countEvents : List (Nat × Core) → State → Out
  | [], s => .next s
  | (k, c) :: cs, s =>
    if c.evs.isEmpty then countEvents cs s
    else
      match execEventCounterAdd k s with
      | .next s1 => countEvents cs s1
      | out => out

/-- Cores that have something to do in the next cycle: those with threads, and those that carry on a save or restore; all on dies that have
booted. -/
def busyCores (s : State) : List Nat :=
  let held : List Nat := s.threads.map fun t => t.1 / 16
  let carrying : List Nat := (s.cores.filter fun c => c.2.cxNow.isSome).map Prod.fst
  (held ++ carrying).eraseDups.filter fun k => (s.dieOf (dieOf k)).booted

/-- The next cycle begins. Cores that have nothing to do in it count an idle position (25 R384). -/
def nextCycle (s : State) : State :=
  let busy := busyCores s
  { s with
    cores := s.cores.map fun p => (p.1, if busy.contains p.1 then p.2 else p.2.tallyAdd 5 1 true)
    clock := { s.clock with now := s.clock.now + 1, todo := busy.map fun k => 32 * k + phaseDeliver } }

/-- The cycle ends: the event counters add, and the next cycle begins. -/
def endCycle (s : State) : Out := mapNext nextCycle (countEvents s.cores s)

/-- An event that is due is taken from the calendar. -/
def dueNow (s : State) : Option (Instr × State) :=
  match s.clock.events with
  | e :: es => if e.at_ ≤ s.clock.now then some (e.act, { s with clock := { s.clock with events := es } }) else none
  | [] => none

/-- One step: an event that is due; otherwise one phase of a core's cycle; otherwise the end of the cycle. -/
def stepWith (ex : Instr → State → Out) (s : State) : Out :=
  match dueNow s with
  | some (i, s1) => ex i s1
  | none =>
    match s.clock.todo with
    | x :: rest => corePhase ex (x / 32) (x % 32) rest s
    | [] => endCycle s

/-! ## A word put where the next one is fetched -/

/-- Offset at which a word is put: that of the thread in slot 0 of core 0, or 0. -/
def fetchPc (s : State) : BitVec 16 := (s.thread 0).pc

/-- The thread whose word is fetched next: the one in slot 0 of core 0, or a new one. -/
def fetchThread (s : State) : Thread :=
  { (s.thread 0) with
    sid := 1, pc := pcNorm (fetchPc s), pw := pwNorm (s.thread 0).pw, status := .ready, annul := 0, bound := .none, lastIssue := none, yieldTo := 0,
    draining := false, iter := none, col := none, rebind := none }

/-- A word stored where the next step fetches: in the code window of core 0, for the thread in its slot 0, whose turn it is. -/
def State.putWord (s : State) (w : BitVec 32) : State :=
  let pc := pcNorm (fetchPc s)
  { s with
    mem := Memory.writeList s.mem (lsKey 0 pc.toNat) (leBytes 4 w.toNat)
    threads := FMap.set s.threads 0 (fetchThread s)
    cores := FMap.set s.cores 0 { (s.coreOf 0) with sids := FMap.set (s.coreOf 0).sids (frameOf pc) 1 }
    dies := FMap.set s.dies 0 { (s.dieOf 0) with booted := true }
    clock := { s.clock with
      todo := [phaseIssue ((16 - s.clock.now % 16) % 16)],
      events := s.clock.events.filter fun e => s.clock.now < e.at_ } }

end Sys2Proof.Machine
end

