-- ==== Sys2Proof/Machine/Dispatch.lean ====
section
/-! DEFINITION. The meaning of each instruction and event: one arm per constructor. -/

namespace Sys2Proof.Machine

/-- What each instruction word and each event of spec/opcode_table.json does. -/
def exec (i : Instr) (s : State) : Host.Outcome State Fault Refusal :=
  match i with
  | .add d a b x y => Sys2Proof.Machine.execAdd d a b x y s
  | .sub d a b x y => Sys2Proof.Machine.execSub d a b x y s
  | .addc d a b x y => Sys2Proof.Machine.execAddc d a b x y s
  | .subb d a b x y => Sys2Proof.Machine.execSubb d a b x y s
  | .and d a b x y => Sys2Proof.Machine.execAnd d a b x y s
  | .or d a b x y => Sys2Proof.Machine.execOr d a b x y s
  | .xor d a b x y => Sys2Proof.Machine.execXor d a b x y s
  | .andn d a b x y => Sys2Proof.Machine.execAndn d a b x y s
  | .sll d a b x y => Sys2Proof.Machine.execSll d a b x y s
  | .srl d a b x y => Sys2Proof.Machine.execSrl d a b x y s
  | .sra d a b x y => Sys2Proof.Machine.execSra d a b x y s
  | .rol d a b x y => Sys2Proof.Machine.execRol d a b x y s
  | .ror d a b x y => Sys2Proof.Machine.execRor d a b x y s
  | .mul d a b x y => Sys2Proof.Machine.execMul d a b x y s
  | .mulh d a b x y => Sys2Proof.Machine.execMulh d a b x y s
  | .mulhu d a b x y => Sys2Proof.Machine.execMulhu d a b x y s
  | .mulhsu d a b x y => Sys2Proof.Machine.execMulhsu d a b x y s
  | .div d a b x y => Sys2Proof.Machine.execDiv d a b x y s
  | .divu d a b x y => Sys2Proof.Machine.execDivu d a b x y s
  | .rem d a b x y => Sys2Proof.Machine.execRem d a b x y s
  | .remu d a b x y => Sys2Proof.Machine.execRemu d a b x y s
  | .min d a b x y => Sys2Proof.Machine.execMin d a b x y s
  | .max d a b x y => Sys2Proof.Machine.execMax d a b x y s
  | .minu d a b x y => Sys2Proof.Machine.execMinu d a b x y s
  | .maxu d a b x y => Sys2Proof.Machine.execMaxu d a b x y s
  | .clz d a x => Sys2Proof.Machine.execClz d a x s
  | .ctz d a x => Sys2Proof.Machine.execCtz d a x s
  | .popc d a x => Sys2Proof.Machine.execPopc d a x s
  | .exts d a b x y => Sys2Proof.Machine.execExts d a b x y s
  | .extz d a b x y => Sys2Proof.Machine.execExtz d a b x y s
  | .bswap d a x => Sys2Proof.Machine.execBswap d a x s
  | .cmov d a b x y => Sys2Proof.Machine.execCmov d a b x y s
  | .pwset d a b x y => Sys2Proof.Machine.execPwset d a b x y s
  | .addi d a im => Sys2Proof.Machine.execAddi d a im s
  | .andi d a im => Sys2Proof.Machine.execAndi d a im s
  | .ori d a im => Sys2Proof.Machine.execOri d a im s
  | .xori d a im => Sys2Proof.Machine.execXori d a im s
  | .slli d a n => Sys2Proof.Machine.execSlli d a n s
  | .srli d a n => Sys2Proof.Machine.execSrli d a n s
  | .srai d a n => Sys2Proof.Machine.execSrai d a n s
  | .rori d a n => Sys2Proof.Machine.execRori d a n s
  | .muli d a im => Sys2Proof.Machine.execMuli d a im s
  | .ldi d im => Sys2Proof.Machine.execLdi d im s
  | .ldih d im => Sys2Proof.Machine.execLdih d im s
  | .sk a b c k p x y => Sys2Proof.Machine.execSk a b c k p x y s
  | .ski a im c k x => Sys2Proof.Machine.execSki a im c k x s
  | .br im => Sys2Proof.Machine.execBr im s
  | .call im => Sys2Proof.Machine.execCall im s
  | .brp sz n im => Sys2Proof.Machine.execBrp sz n im s
  | .jr d a x => Sys2Proof.Machine.execJr d a x s
  | .loop q r a o => Sys2Proof.Machine.execLoop q r a o s
  | .ldOrd d b im sz => Sys2Proof.Machine.execLdOrd d b im sz s
  | .ld d b im sz => Sys2Proof.Machine.execLd d b im sz s
  | .st d b im sz => Sys2Proof.Machine.execSt d b im sz s
  | .ldf d b im => Sys2Proof.Machine.execLdf d b im s
  | .stf d b im => Sys2Proof.Machine.execStf d b im s
  | .ldff d b im => Sys2Proof.Machine.execLdff d b im s
  | .purge b im => Sys2Proof.Machine.execPurge b im s
  | .amoSwap d a b x y => Sys2Proof.Machine.execAmoSwap d a b x y s
  | .amoAdd d a b x y => Sys2Proof.Machine.execAmoAdd d a b x y s
  | .amoAnd d a b x y => Sys2Proof.Machine.execAmoAnd d a b x y s
  | .amoOr d a b x y => Sys2Proof.Machine.execAmoOr d a b x y s
  | .amoXor d a b x y => Sys2Proof.Machine.execAmoXor d a b x y s
  | .amoMin d a b x y => Sys2Proof.Machine.execAmoMin d a b x y s
  | .amoMax d a b x y => Sys2Proof.Machine.execAmoMax d a b x y s
  | .amoMinu d a b x y => Sys2Proof.Machine.execAmoMinu d a b x y s
  | .amoMaxu d a b x y => Sys2Proof.Machine.execAmoMaxu d a b x y s
  | .cas d a b x y => Sys2Proof.Machine.execCas d a b x y s
  | .incw d a b x y => Sys2Proof.Machine.execIncw d a b x y s
  | .faddb d a b x y => Sys2Proof.Machine.execFaddb d a b x y s
  | .redAdd a b x y => Sys2Proof.Machine.execRedAdd a b x y s
  | .redAnd a b x y => Sys2Proof.Machine.execRedAnd a b x y s
  | .redOr a b x y => Sys2Proof.Machine.execRedOr a b x y s
  | .redXor a b x y => Sys2Proof.Machine.execRedXor a b x y s
  | .redMin a b x y => Sys2Proof.Machine.execRedMin a b x y s
  | .redMax a b x y => Sys2Proof.Machine.execRedMax a b x y s
  | .redMinu a b x y => Sys2Proof.Machine.execRedMinu a b x y s
  | .redMaxu a b x y => Sys2Proof.Machine.execRedMaxu a b x y s
  | .fence sz => Sys2Proof.Machine.execFence sz s
  | .marm a b x y => Sys2Proof.Machine.execMarm a b x y s
  | .mdis a x => Sys2Proof.Machine.execMdis a x s
  | .mwait d a x => Sys2Proof.Machine.execMwait d a x s
  | .bari a b x y => Sys2Proof.Machine.execBari a b x y s
  | .barv d a b x y => Sys2Proof.Machine.execBarv d a b x y s
  | .barw d a b x y => Sys2Proof.Machine.execBarw d a b x y s
  | .spawn a b x y => Sys2Proof.Machine.execSpawn a b x y s
  | .graft a x => Sys2Proof.Machine.execGraft a x s
  | .wfld d a b x y => Sys2Proof.Machine.execWfld d a b x y s
  | .send d a b x y => Sys2Proof.Machine.execSend d a b x y s
  | .recv d a b x y => Sys2Proof.Machine.execRecv d a b x y s
  | .vtadv d a x => Sys2Proof.Machine.execVtadv d a x s
  | .glbrd d => Sys2Proof.Machine.execGlbrd d s
  | .lcfg d a b x y => Sys2Proof.Machine.execLcfg d a b x y s
  | .furrow e => Sys2Proof.Machine.execFurrow e s
  | .fadd d a b x y => Sys2Proof.Machine.execFadd d a b x y s
  | .fsub d a b x y => Sys2Proof.Machine.execFsub d a b x y s
  | .fmul d a b x y => Sys2Proof.Machine.execFmul d a b x y s
  | .fdiv d a b x y => Sys2Proof.Machine.execFdiv d a b x y s
  | .fsqrt d a x => Sys2Proof.Machine.execFsqrt d a x s
  | .fmin d a b x y => Sys2Proof.Machine.execFmin d a b x y s
  | .fmax d a b x y => Sys2Proof.Machine.execFmax d a b x y s
  | .fmadd d a b x y => Sys2Proof.Machine.execFmadd d a b x y s
  | .fmsub d a b x y => Sys2Proof.Machine.execFmsub d a b x y s
  | .fnmadd d a b x y => Sys2Proof.Machine.execFnmadd d a b x y s
  | .fnmsub d a b x y => Sys2Proof.Machine.execFnmsub d a b x y s
  | .fcvt d a sz t p r => Sys2Proof.Machine.execFcvt d a sz t p r s
  | .fsk a b c k p x y => Sys2Proof.Machine.execFsk a b c k p x y s
  | .fclass d a x => Sys2Proof.Machine.execFclass d a x s
  | .ffrd d => Sys2Proof.Machine.execFfrd d s
  | .ffclr d a x => Sys2Proof.Machine.execFfclr d a x s
  | .frmset d a x => Sys2Proof.Machine.execFrmset d a x s
  | .frmrd d => Sys2Proof.Machine.execFrmrd d s
  | .shape d a b x y => Sys2Proof.Machine.execShape d a b x y s
  | .tld d a p t => Sys2Proof.Machine.execTld d a p t s
  | .tst d a p t => Sys2Proof.Machine.execTst d a p t s
  | .tadd d m n u sz t => Sys2Proof.Machine.execTadd d m n u sz t s
  | .tsub d m n u sz t => Sys2Proof.Machine.execTsub d m n u sz t s
  | .tmul d m n u sz t => Sys2Proof.Machine.execTmul d m n u sz t s
  | .tmin d m n u sz t => Sys2Proof.Machine.execTmin d m n u sz t s
  | .tmax d m n u sz t => Sys2Proof.Machine.execTmax d m n u sz t s
  | .tand d m n t => Sys2Proof.Machine.execTand d m n t s
  | .tor d m n t => Sys2Proof.Machine.execTor d m n t s
  | .txor d m n t => Sys2Proof.Machine.execTxor d m n t s
  | .tneg d m u sz t => Sys2Proof.Machine.execTneg d m u sz t s
  | .tabs d m u sz t => Sys2Proof.Machine.execTabs d m u sz t s
  | .tfma d m n u sz t => Sys2Proof.Machine.execTfma d m n u sz t s
  | .tfms d m n u sz t => Sys2Proof.Machine.execTfms d m n u sz t s
  | .tfnma d m n u sz t => Sys2Proof.Machine.execTfnma d m n u sz t s
  | .tfnms d m n u sz t => Sys2Proof.Machine.execTfnms d m n u sz t s
  | .tcvt d m a y t => Sys2Proof.Machine.execTcvt d m a y t s
  | .trsum d m c u sz t => Sys2Proof.Machine.execTrsum d m c u sz t s
  | .trmax d m c u sz t => Sys2Proof.Machine.execTrmax d m c u sz t s
  | .trmin d m c u sz t => Sys2Proof.Machine.execTrmin d m c u sz t s
  | .tbcs d a t => Sys2Proof.Machine.execTbcs d a t s
  | .tbrow d m a t => Sys2Proof.Machine.execTbrow d m a t s
  | .tbcol d m a t => Sys2Proof.Machine.execTbcol d m a t s
  | .ttrn d m t => Sys2Proof.Machine.execTtrn d m t s
  | .tshuf d m n t => Sys2Proof.Machine.execTshuf d m n t s
  | .trot d m a t => Sys2Proof.Machine.execTrot d m a t s
  | .tmov d m t => Sys2Proof.Machine.execTmov d m t s
  | .tsel d m n t => Sys2Proof.Machine.execTsel d m n t s
  | .tget m a t => Sys2Proof.Machine.execTget m a t s
  | .tset d a t => Sys2Proof.Machine.execTset d a t s
  | .mma a b x k => Sys2Proof.Machine.execMma a b x k s
  | .azero a x => Sys2Proof.Machine.execAzero a x s
  | .awr a x => Sys2Proof.Machine.execAwr a x s
  | .ard a x => Sys2Proof.Machine.execArd a x s
  | .achk a x f => Sys2Proof.Machine.execAchk a x f s
  | .tilemm d a h => Sys2Proof.Machine.execTilemm d a h s
  | .bsum a x => Sys2Proof.Machine.execBsum a x s
  | .xred a b x y => Sys2Proof.Machine.execXred a b x y s
  | .xrnd d a x => Sys2Proof.Machine.execXrnd d a x s
  | .xclr d a x => Sys2Proof.Machine.execXclr d a x s
  | .cpy d a h => Sys2Proof.Machine.execCpy d a h s
  | .publ g sz => Sys2Proof.Machine.execPubl g sz s
  | .chain a b x y => Sys2Proof.Machine.execChain a b x y s
  | .nbmv d a h => Sys2Proof.Machine.execNbmv d a h s
  | .estat d a x r => Sys2Proof.Machine.execEstat d a x r s
  | .patch a b x y => Sys2Proof.Machine.execPatch a b x y s
  | .rsave a b x y => Sys2Proof.Machine.execRsave a b x y s
  | .rload a b x y => Sys2Proof.Machine.execRload a b x y s
  | .dcfg d a b x y => Sys2Proof.Machine.execDcfg d a b x y s
  | .dstart a x => Sys2Proof.Machine.execDstart a x s
  | .dhalt a x => Sys2Proof.Machine.execDhalt a x s
  | .din a b x y => Sys2Proof.Machine.execDin a b x y s
  | .dtap d a b x y => Sys2Proof.Machine.execDtap d a b x y s
  | .dport d a b x y => Sys2Proof.Machine.execDport d a b x y s
  | .pack6 d a b x y => Sys2Proof.Machine.execPack6 d a b x y s
  | .unpk6 d a b x y => Sys2Proof.Machine.execUnpk6 d a b x y s
  | .pack4 d a b x y => Sys2Proof.Machine.execPack4 d a b x y s
  | .unpk4 d a b x y => Sys2Proof.Machine.execUnpk4 d a b x y s
  | .lgenc d a b x y => Sys2Proof.Machine.execLgenc d a b x y s
  | .lgdec d a b x y => Sys2Proof.Machine.execLgdec d a b x y s
  | .crrd d r => Sys2Proof.Machine.execCrrd d r s
  | .crwr a r => Sys2Proof.Machine.execCrwr a r s
  | .crset d a r => Sys2Proof.Machine.execCrset d a r s
  | .crclr d a r => Sys2Proof.Machine.execCrclr d a r s
  | .trap a x => Sys2Proof.Machine.execTrap a x s
  | .scall a x => Sys2Proof.Machine.execScall a x s
  | .hcall a x => Sys2Proof.Machine.execHcall a x s
  | .segld a b x y => Sys2Proof.Machine.execSegld a b x y s
  | .segrd d a x => Sys2Proof.Machine.execSegrd d a x s
  | .shoot a b x y => Sys2Proof.Machine.execShoot a b x y s
  | .bist d a x => Sys2Proof.Machine.execBist d a x s
  | .ecrd d a x => Sys2Proof.Machine.execEcrd d a x s
  | .eccfg d a b x y => Sys2Proof.Machine.execEccfg d a b x y s
  | .imm p => Sys2Proof.Machine.execImm p s
  | .rlx sz m => Sys2Proof.Machine.execRlx sz m s
  | .sched p => Sys2Proof.Machine.execSched p s
  | .producerResultArrival k t id => Sys2Proof.Machine.execProducerResultArrival k t id s
  | .waitLimit k t token => Sys2Proof.Machine.execWaitLimit k t token s
  | .seedPacketArrival k p => Sys2Proof.Machine.execSeedPacketArrival k p s
  | .spawnPacketArrival k p => Sys2Proof.Machine.execSpawnPacketArrival k p s
  | .spawnReply k t accepted => Sys2Proof.Machine.execSpawnReply k t accepted s
  | .graftArrival k p => Sys2Proof.Machine.execGraftArrival k p s
  | .graftQueuePlace k => Sys2Proof.Machine.execGraftQueuePlace k s
  | .graftAccepted k t dst => Sys2Proof.Machine.execGraftAccepted k t dst s
  | .graftResend k t => Sys2Proof.Machine.execGraftResend k t s
  | .mwaitWake k t => Sys2Proof.Machine.execMwaitWake k t s
  | .mwaitTimeout k t token => Sys2Proof.Machine.execMwaitTimeout k t token s
  | .linkWordArrival k dir w => Sys2Proof.Machine.execLinkWordArrival k dir w s
  | .linkCreditReturn k dir => Sys2Proof.Machine.execLinkCreditReturn k dir s
  | .furrowStart k => Sys2Proof.Machine.execFurrowStart k s
  | .furrowStep k => Sys2Proof.Machine.execFurrowStep k s
  | .trapQueueRecord k r => Sys2Proof.Machine.execTrapQueueRecord k r s
  | .inboxPlace k m => Sys2Proof.Machine.execInboxPlace k m s
  | .messageResend m => Sys2Proof.Machine.execMessageResend m s
  | .sendQueueDeliver k => Sys2Proof.Machine.execSendQueueDeliver k s
  | .glbUpdate k => Sys2Proof.Machine.execGlbUpdate k s
  | .creditReturn k dst inbox => Sys2Proof.Machine.execCreditReturn k dst inbox s
  | .channelAudit k src inbox => Sys2Proof.Machine.execChannelAudit k src inbox s
  | .domainStep k dom => Sys2Proof.Machine.execDomainStep k dom s
  | .domainHaltBoundary k dom => Sys2Proof.Machine.execDomainHaltBoundary k dom s
  | .crossingArrival k units => Sys2Proof.Machine.execCrossingArrival k units s
  | .integratorRecordTake k port => Sys2Proof.Machine.execIntegratorRecordTake k port s
  | .arrayCommandExecute k => Sys2Proof.Machine.execArrayCommandExecute k s
  | .tilemmDescriptorCopy k => Sys2Proof.Machine.execTilemmDescriptorCopy k s
  | .tilemmStep k => Sys2Proof.Machine.execTilemmStep k s
  | .copyAccept k t => Sys2Proof.Machine.execCopyAccept k t s
  | .copyElementLand id => Sys2Proof.Machine.execCopyElementLand id s
  | .copyComplete id => Sys2Proof.Machine.execCopyComplete id s
  | .nbmvAccept k t => Sys2Proof.Machine.execNbmvAccept k t s
  | .nbmvComplete id => Sys2Proof.Machine.execNbmvComplete id s
  | .publFlip ctx group => Sys2Proof.Machine.execPublFlip ctx group s
  | .eventRecordPlace k r => Sys2Proof.Machine.execEventRecordPlace k r s
  | .cuttingApply c => Sys2Proof.Machine.execCuttingApply c s
  | .cuttingResend c => Sys2Proof.Machine.execCuttingResend c s
  | .linkTimeout k t id => Sys2Proof.Machine.execLinkTimeout k t id s
  | .twinHashArrival k t item hash => Sys2Proof.Machine.execTwinHashArrival k t item hash s
  | .twinHashTimeout k t item => Sys2Proof.Machine.execTwinHashTimeout k t item s
  | .refreshPhase die => Sys2Proof.Machine.execRefreshPhase die s
  | .refreshBusyEnd die => Sys2Proof.Machine.execRefreshBusyEnd die s
  | .wsmodeDrainEnd die => Sys2Proof.Machine.execWsmodeDrainEnd die s
  | .schedulerDispatch die => Sys2Proof.Machine.execSchedulerDispatch die s
  | .threadPlacement die tcb => Sys2Proof.Machine.execThreadPlacement die tcb s
  | .launchEnq r => Sys2Proof.Machine.execLaunchEnq r s
  | .launchDec r => Sys2Proof.Machine.execLaunchDec r s
  | .contextKill die => Sys2Proof.Machine.execContextKill die s
  | .killDrainComplete die => Sys2Proof.Machine.execKillDrainComplete die s
  | .coreRemove die => Sys2Proof.Machine.execCoreRemove die s
  | .shootdownPort port sz => Sys2Proof.Machine.execShootdownPort port sz s
  | .bistComplete k t => Sys2Proof.Machine.execBistComplete k t s
  | .laneMarginDwellEnd port lane => Sys2Proof.Machine.execLaneMarginDwellEnd port lane s
  | .wideBeatArrival k west bytes => Sys2Proof.Machine.execWideBeatArrival k west bytes s
  | .annulledWordPass k t => Sys2Proof.Machine.execAnnulledWordPass k t s
  | .fetchFault k t => Sys2Proof.Machine.execFetchFault k t s
  | .windowSpill k => Sys2Proof.Machine.execWindowSpill k s
  | .windowFill k => Sys2Proof.Machine.execWindowFill k s
  | .seedPacketReturn k p => Sys2Proof.Machine.execSeedPacketReturn k p s
  | .asyncEventDelivery k t => Sys2Proof.Machine.execAsyncEventDelivery k t s
  | .messageRelease k chan => Sys2Proof.Machine.execMessageRelease k chan s
  | .remoteAccessRequest q => Sys2Proof.Machine.execRemoteAccessRequest q s
  | .remoteAccessResponse k t id value poison => Sys2Proof.Machine.execRemoteAccessResponse k t id value poison s
  | .flitReceive port f => Sys2Proof.Machine.execFlitReceive port f s
  | .linkRetrain port => Sys2Proof.Machine.execLinkRetrain port s
  | .coreSeal k => Sys2Proof.Machine.execCoreSeal k s
  | .scrubRead key found => Sys2Proof.Machine.execScrubRead key found s
  | .wsmodeWrite die v => Sys2Proof.Machine.execWsmodeWrite die v s
  | .tcbDecrement die tcb => Sys2Proof.Machine.execTcbDecrement die tcb s
  | .taskRetire die tcb => Sys2Proof.Machine.execTaskRetire die tcb s
  | .taskFail die tcb => Sys2Proof.Machine.execTaskFail die tcb s
  | .cxSaveThread c => Sys2Proof.Machine.execCxSaveThread c s
  | .cxRestoreThread c => Sys2Proof.Machine.execCxRestoreThread c s
  | .cxSaveCore c => Sys2Proof.Machine.execCxSaveCore c s
  | .cxRestoreCore c => Sys2Proof.Machine.execCxRestoreCore c s
  | .laneMarginDwell port lane => Sys2Proof.Machine.execLaneMarginDwell port lane s
  | .svnfuseWrite die v => Sys2Proof.Machine.execSvnfuseWrite die v s
  | .smargWrite die v => Sys2Proof.Machine.execSmargWrite die v s
  | .ibdWrite k n high v => Sys2Proof.Machine.execIbdWrite k n high v s
  | .tqbWrite k eq v => Sys2Proof.Machine.execTqbWrite k eq v s
  | .clpartWrite die cl v => Sys2Proof.Machine.execClpartWrite die cl v s
  | .registerWrite r v => Sys2Proof.Machine.execRegisterWrite r v s
  | .packageReset image => Sys2Proof.Machine.execPackageReset image s
  | .getVersion q => Sys2Proof.Machine.execGetVersion q s
  | .getCapabilities q => Sys2Proof.Machine.execGetCapabilities q s
  | .negotiateAlgorithms q => Sys2Proof.Machine.execNegotiateAlgorithms q s
  | .getDigests q => Sys2Proof.Machine.execGetDigests q s
  | .getCertificate q => Sys2Proof.Machine.execGetCertificate q s
  | .challenge q => Sys2Proof.Machine.execChallenge q s
  | .getMeasurements q => Sys2Proof.Machine.execGetMeasurements q s
  | .dieReset die => Sys2Proof.Machine.execDieReset die s
  | .framePageIn k f => Sys2Proof.Machine.execFramePageIn k f s
  | .eventCounterAdd k => Sys2Proof.Machine.execEventCounterAdd k s
  | .marginingEnable on => Sys2Proof.Machine.execMarginingEnable on s
  | .ret => Sys2Proof.Machine.execRet s
  | .iend => Sys2Proof.Machine.execIend s
  | .ileave => Sys2Proof.Machine.execIleave s
  | .yield => Sys2Proof.Machine.execYield s
  | .done => Sys2Proof.Machine.execDone s
  | .fend => Sys2Proof.Machine.execFend s
  | .eret => Sys2Proof.Machine.execEret s
  | .uiret => Sys2Proof.Machine.execUiret s
  | .nop => Sys2Proof.Machine.execNop s

end Sys2Proof.Machine
end

