-- ==== Sys2Proof/Machine/Step.lean ====
section
/-! DEFINITION. One step of the package, and the placing of a word where the next step fetches. -/

namespace Sys2Proof.Machine

/-- One step: an event that is due, one phase of one core's cycle (an instruction word of the thread whose turn it is), or the end of a cycle
(03 R39, 10 R188). -/
def step (s : State) : Host.Outcome State Fault Refusal := stepWith exec s

/-- The state with an instruction word in the code window of core 0, at the program counter of the thread in its slot 0, whose turn it is: the
next step runs that word. -/
def State.withFetchWord (s : State) (_nbits w : Nat) : State := s.putWord (BitVec.ofNat 32 w)

end Sys2Proof.Machine
end

