-- ==== Sys2Proof/Safety.lean ====
section
/-! DEFINITION. The terms in which statements are made: what a meaning does in a state, when a word passes its checks, the state after an
instruction has issued, and the invariant that every step keeps. -/

namespace Sys2Proof.Safety

open Sys2Proof.Machine

/-- A meaning goes through in a state, whatever has happened before: its result and the state after it. -/
def Performs {α : Type} (m : M α) (s : State) (a : α) (s1 : State) : Prop :=
  ∃ es, s1 = applyAll es s ∧ ∀ before, m.run { cur := s, effs := before } = .ok (a, { cur := s1, effs := es.reverse ++ before })

/-- A meaning ends early in a state, whatever has happened before. -/
def Stops {α : Type} (m : M α) (s : State) (e : Stop) : Prop := ∀ before, m.run { cur := s, effs := before } = .error e

/-- A source operand gives a value; a pop of a link port leaves the state after the pop (02 R22, 04 R76). -/
def Reads (s : State) (c : Code) (trapBit : Bool) (v : Word) (s1 : State) : Prop := Performs (readSrc c trapBit) s v s1

/-- A value can be written to a destination operand at once, with the state after it (02 R22, 03 R43). -/
def Writes (s : State) (c : Code) (v : Word) (s1 : State) : Prop := Performs (writeDst c v) s () s1

/-- The place that a destination operand names can take a value (03 R43). -/
def Takes (s : State) (c : Code) (d : Dest) : Prop := Performs (destOf c) s d s

/-- A result on its way to a destination operand, with the state after it was claimed (03 R42). -/
def Owes (s : State) (c : Code) (v : Word) (delay access : Nat) (s1 : State) : Prop := Performs (produce c v delay access) s () s1

/-- Number of the thread whose word is executed, and that thread. -/
def tid (s : State) : Nat := tidOf s.clock.core s.clock.slot
def current (s : State) : Thread := s.thread (tid s)

/-- The thread whose control registers the instruction uses: an iteration's issuing thread (04 R66). -/
def owner (s : State) : Thread := s.thread (s.control (tid s))

/-- The checks that come before an instruction's own meaning (10 R188 steps 2 to 6, 09 R162, 25 R372), as one condition. -/
def admits (f : Form) (s : State) : Bool :=
  (f.literals && (!(current s).bound.isImm || f.ext)) &&
  (f.unit s.clock.core && (hasLinks s.clock.core || !(f.codes.any isLink))) &&
  (decide (f.level.code ≤ (current s).level.code) && f.allowed) &&
  (!(f.srcs.any badSrc) && !(f.dst.any (badDst · f.readsDst)) && !(f.base.any fun c => badSrc c || isLink c)) &&
  !(badMark f.marked (current s).bound) &&
  !((owner s).twin.isSome && f.codes.any isLink)

/-- A link word that a word has popped is gone: its room returns to the neighbour, and a forwarded one leaves (04 R76, R77). -/
def paidFor (k : Nat) (s : State) (p : Nat × Word × Bool) : State :=
  let d := Dir.ofIdx p.1
  let u := (Eff.clock fun c => c.plan (linkLatency k d) (.linkCreditReturn (neighbour k d) d.opp)).apply s
  if p.2.2 then (Eff.clock fun c => c.plan (linkLatency k d.opp) (.linkWordArrival (neighbour k d.opp) d p.2.1)).apply u else u

/-- The state in which the link words that the current thread's word has popped are gone. -/
def paid (s : State) : State :=
  if (current s).lent.isEmpty then s
  else (Eff.thr (tid s) fun t => { t with lent := [] }).apply ((current s).lent.foldl (paidFor (tid s / 16)) s)

/-- The core counts a word of the current thread (25 R384). -/
def counted (u : Bool) (s : State) : State := (Eff.core (tid s / 16) fun c => c.tallyAdd 2 1 u).apply s

/-- The state after a word of the current thread that goes on at an offset, with what is bound to the next word: its last issue is this
cycle (03 R39), the link words that it popped are gone, and the core has counted it (25 R384). -/
def goes (b : Bound) (a : BitVec 16) (s : State) : State :=
  counted ((current s).level == .u) (paid (applyAll [.thr (tid s) (·.issued s.clock.now b), .pc (tid s) a] s))


/-- The state after an instruction that goes on at the next word, or at an offset, or that stays at its word. -/
def advance (s : State) : State := goes .none ((current s).pc + 4#16) s
def jump (a : BitVec 16) (s : State) : State := goes .none a s
def stays (s : State) : State :=
  let u := (Eff.thr (tid s) (·.issued s.clock.now (current s).bound)).apply s
  counted ((current s).level == .u) (if (current s).keepsWords then u else paid u)

/-- The predicate word of the current thread replaced; bit 0 stays 1 and bits 31:20 stay 0 (03 R49). -/
def withPw (v : BitVec 32) (s : State) : State := (Eff.pw (tid s) v).apply s

/-- The carry and overflow bits replaced (03 R49, 11 R191). -/
def withCV (c v : Bool) (s : State) : State := withPw (setBit (setBit (current s).pw 16 c) 17 v) s

/-- The status bit replaced (03 R49). -/
def withSt (on : Bool) (s : State) : State := withPw (setBit (current s).pw 18 on) s

/-- The keys of a map rise. -/
def Ordered {α : Type} (m : FMap α) : Prop := m.Pairwise fun a b => a.1 < b.1

/-- What every step keeps: memory is in its canonical form; a slot holds one thread; every predicate word has bit 0 set and bits 31:20 clear (03
R49); every program counter is a multiple of 4 (10 R178). -/
def Inv (s : State) : Prop :=
  Memory.wf s.mem = true ∧ Ordered s.threads ∧
  ∀ p ∈ s.threads, p.2.pw = pwNorm p.2.pw ∧ p.2.pc = pcNorm p.2.pc

/-- The iteration that the current thread executes, with its ring set (04 R63). -/
def loopNow (s : State) : Option (IterCtx × Ring) := s.ringOf (tid s)

/-- The current thread executes outside a loop, or in the oldest iteration (04 R71). -/
def oldestOrOutside (s : State) : Prop := ∀ it r, loopNow s = some (it, r) → it.idx = r.oldest

/-- The version that iteration i - k, not yet retired, has written to vn, if it has (04 R67). -/
def olderVersion (s : State) (it : IterCtx) (r : Ring) (n k : Nat) : Option Reg :=
  r.slots.findSome? fun sl =>
    match (s.thread (tidOf (tid s / 16) sl)).iter with
    | some o => if o.ring = it.ring && o.idx + k = it.idx then FMap.get? o.written n else none
    | none => none

/-- Distance 0 of vn, or the iteration's version of it, replaced (04 R62, R68). -/
def versionPut (n : Nat) (v : Word) (s : State) : State :=
  (Eff.thr (tid s) fun t =>
    match t.iter with
    | some it => { t with iter := some { it with written := FMap.set it.written n { val := v, full := true } } }
    | none => { t with vers := FMap.set t.vers (8 * n) { val := v, full := true } }).apply s

/-- A queue after a pop by the current thread, whose word goes back to it unless the thread's instruction completes; whether it goes on to the
opposite side as well (04 R76 to R78). -/
def popped (d : Dir) (v : Word) (rest : List Word) (on : Bool) (s : State) : State :=
  applyAll [.core s.clock.core fun c => { c with links := FMap.set c.links d.idx rest },
            .thr (tid s) fun t => { t with lent := t.lent ++ [(d.idx, v, on)] }] s

/-- A credit toward a direction taken (04 R76). -/
def spent (d : Dir) (s : State) : State :=
  (Eff.core s.clock.core fun c => { c with credits := FMap.set c.credits d.idx (FMap.get 32 (s.coreOf s.clock.core).credits d.idx - 1) }).apply s

/-- A word on its way to the neighbour in a direction (01 R13). -/
def sentTo (d : Dir) (v : Word) (s : State) : State :=
  let k := s.clock.core
  (Eff.clock fun c => c.plan (linkLatency k d) (.linkWordArrival (neighbour k d) d.opp v)).apply s

/-- A word pushed toward a neighbour: a credit less, and the word there after the latency of the link (04 R76, 01 R13). -/
def pushed (d : Dir) (v : Word) (s : State) : State :=
  let k := tid s / 16
  applyAll [.core k fun c => { c with credits := FMap.set c.credits d.idx (FMap.get 32 c.credits d.idx - 1) },
            .clock fun c => c.plan (linkLatency k d) (.linkWordArrival (neighbour k d) d.opp v)] s

/-! ## Results of the register forms, as their rules word them (11 R190 to R201) -/

/-- The result written to a 64-bit register. -/
def w (x : Int) : Word := BitVec.ofInt 64 x

/-- The count or field number in bits 5:0 of an operand. -/
def low6 (b : Word) : Nat := b.toNat % 64

/-- The value of the field from bit 0 to bit n. -/
def field (a : Word) (n : Nat) : Nat := a.toNat % 2 ^ (n + 1)

/-- Instructions d := f(a, b) that record nothing, with f (11 R192 to R196). -/
def binaryForms : List ((Code → Code → Code → Bool → Bool → Instr) × (Word → Word → Word)) :=
  [(.and, fun a b => a &&& b), (.or, fun a b => a ||| b), (.xor, fun a b => a ^^^ b), (.andn, fun a b => a &&& ~~~b)] ++
  [(.sll, fun a b => w (a.toNat * 2 ^ low6 b)),
   (.srl, fun a b => w (a.toNat / 2 ^ low6 b)),
   (.sra, fun a b => w (a.toInt / 2 ^ low6 b)),
   (.rol, fun a b => if low6 b = 0 then a else w (a.toNat * 2 ^ low6 b) ||| w (a.toNat / 2 ^ (64 - low6 b))),
   (.ror, fun a b => if low6 b = 0 then a else w (a.toNat / 2 ^ low6 b) ||| w (a.toNat * 2 ^ (64 - low6 b)))] ++
  [(.mulh, fun a b => w (a.toInt * b.toInt / 2 ^ 64)),
   (.mulhu, fun a b => w (a.toNat * b.toNat / 2 ^ 64)),
   (.mulhsu, fun a b => w (a.toInt * b.toNat / 2 ^ 64))] ++
  [(.min, fun a b => if a.toInt ≤ b.toInt then a else b),
   (.max, fun a b => if a.toInt ≥ b.toInt then a else b),
   (.minu, fun a b => if a.toNat ≤ b.toNat then a else b),
   (.maxu, fun a b => if a.toNat ≥ b.toNat then a else b)] ++
  [(.exts, fun a b => if a.getLsbD (low6 b) then w (field a (low6 b) - 2 ^ (low6 b + 1)) else w (field a (low6 b))),
   (.extz, fun a b => w (field a (low6 b)))]

/-- Instructions d := f(a), with f (11 R195, R196). -/
def unaryForms : List ((Code → Code → Bool → Instr) × (Word → Word)) :=
  [(.clz, fun a => if a = 0 then 64 else w (63 - a.toNat.log2)),
   (.ctz, fun a => w (((List.range 64).find? a.getLsbD).getD 64)),
   (.popc, fun a => w ((List.range 64).filter a.getLsbD).length),
   (.bswap, fun a => a.extractLsb' 0 8 ++ a.extractLsb' 8 8 ++ a.extractLsb' 16 8 ++ a.extractLsb' 24 8 ++ a.extractLsb' 32 8 ++
     a.extractLsb' 40 8 ++ a.extractLsb' 48 8 ++ a.extractLsb' 56 8)]

/-- Whether an exact signed result does not fit 64 bits. -/
def overflows (x : Int) : Bool := decide (¬(-(2 ^ 63) ≤ x ∧ x ≤ 2 ^ 63 - 1))

/-- Instructions that record C and V: the result, C and V by the operands and C as it stood before (11 R191, R192, R194). -/
def recordedForms : List ((Code → Code → Code → Bool → Bool → Instr) × (Word → Word → Bool → Word × Bool × Bool)) :=
  [(.add, fun a b _ => (a + b, decide (a.toNat + b.toNat ≥ 2 ^ 64), overflows (a.toInt + b.toInt))),
   (.sub, fun a b _ => (a - b, decide (a.toNat < b.toNat), overflows (a.toInt - b.toInt))),
   (.addc, fun a b c => (a + b + b2w c, decide (a.toNat + b.toNat + b2n c ≥ 2 ^ 64), overflows (a.toInt + b.toInt + b2n c))),
   (.subb, fun a b c => (a - b - b2w c, decide (a.toNat < b.toNat + b2n c), overflows (a.toInt - b.toInt - b2n c))),
   (.mul, fun a b _ => (a * b, decide (a.toNat * b.toNat ≥ 2 ^ 64), overflows (a.toInt * b.toInt)))]

/-- Divides and remainders (11 R194, 06 R105). -/
def divideForms : List ((Code → Code → Code → Bool → Bool → Instr) × (Word → Word → Word)) :=
  [(.div, fun a b => if b = 0 then BitVec.allOnes 64 else w (a.toInt.tdiv b.toInt)),
   (.divu, fun a b => if b = 0 then BitVec.allOnes 64 else a / b),
   (.rem, fun a b => if b = 0 then a else w (a.toInt.tmod b.toInt)),
   (.remu, fun a b => if b = 0 then a else a % b)]

/-- The value of an immediate field with what a bound IMM word puts above it (10 R180, R185). -/
def immediateOf {n : Nat} (b : Bound) (i : BitVec n) : Word :=
  match b with
  | .imm p => (p ++ i).signExtend 64
  | _ => i.signExtend 64

/-- Immediate forms, with the function of the register form (11 R199). -/
def immediateForms : List ((Code → Code → BitVec 12 → Instr) × (Word → Word → Word)) :=
  [(.andi, fun a b => a &&& b), (.ori, fun a b => a ||| b), (.xori, fun a b => a ^^^ b)]

/-- Immediate forms that record C and V (11 R199). -/
def immediateRecordedForms : List ((Code → Code → BitVec 12 → Instr) × (Word → Word → Word × Bool × Bool)) :=
  [(.addi, fun a b => (a + b, decide (a.toNat + b.toNat ≥ 2 ^ 64), overflows (a.toInt + b.toInt))),
   (.muli, fun a b => (a * b, decide (a.toNat * b.toNat ≥ 2 ^ 64), overflows (a.toInt * b.toInt)))]

/-- Shifts by a constant (11 R200). -/
def shiftForms : List ((Code → Code → BitVec 6 → Instr) × (Word → Nat → Word)) :=
  [(.slli, fun a n => a <<< n), (.srli, fun a n => a >>> n), (.srai, fun a n => a.sshiftRight n), (.rori, fun a n => a >>> n ||| a <<< (64 - n))]

/-! ## Control flow (11 R202 to R210, 03 R46) -/

/-- Conditions 0 to 11 of compare-skips, in the order of their codes (10 R182). -/
def conditions : List (Word → Word → Bool) :=
  [fun a b => a == b, fun a b => a != b, fun a b => a.slt b, fun a b => b.sle a, fun a b => a.ult b, fun a b => b.ule a, fun a b => b.slt a,
   fun a b => a.sle b, fun a b => b.ult a, fun a b => a.ule b, fun a b => (a &&& b) != 0, fun a b => (a &&& b) == 0]

/-- The next n words are annulled unless the condition holds (11 R202). -/
def annulled (cond : Bool) (n : Nat) (s : State) : State :=
  if cond then s else (Eff.thr (tid s) fun t => { t with annul := n }).apply s

/-- Predicate bit n replaced; p0 stays 1 (03 R49). -/
def withPredicate (n : Nat) (on : Bool) (s : State) : State := if n = 0 then s else withPw (setBit (current s).pw n on) s

/-- A compare-skip over n words may stand here: outside a furrow, and the last word of a loop's body is not among the n (11 R202). -/
def skipFits (s : State) (n : Nat) : Prop :=
  (current s).col = none ∧ ∀ it r, loopNow s = some (it, r) → within (current s).pc (r.exit - 4#16) n = false

/-- The target of a branch: 4 * i words on, modulo the code window (10 R180). -/
def branchTarget {n : Nat} (s : State) (i : BitVec n) : BitVec 16 := (current s).pc + (i.setWidth 16 <<< 2)

/-- The word is executed as the copy in a column other than the head's, where a branch has no effect (04 R82). -/
def isCopy (s : State) : Bool :=
  match (current s).col with
  | some c => c.j != 0 && !c.inHandler
  | none => false

/-- A target that the loop's entry depth confines lies in the body (04 R72, R74). -/
def staysInBody (s : State) (a : BitVec 16) : Bool :=
  match loopNow s with
  | some (it, r) => it.inHandler || (current s).depth != r.snap.depth || (decide (r.body ≤ a) && decide (a < r.exit))
  | none => true

/-- A value that is a code-window offset (11 R205, R207). -/
def isOffset (v : Word) : Bool := v.extractLsb' 16 48 == 0 && v.extractLsb' 0 2 == 0

/-! ## Events, threads and packets -/

/-- An event stands in the calendar for a cycle. -/
def Due (s : State) (at_ : Nat) (i : Instr) : Prop := ∃ d ∈ s.clock.events, d.at_ = at_ ∧ d.act = i

/-- The threads of the slots other than one are the same in two states. -/
def OthersSame (id : Nat) (s t : State) : Prop := ∀ n, n ≠ id → t.thread n = s.thread n

/-- What the instructions of one thread leave unchanged in it, unless they are written by name: control registers, registers that a trap
saves into, segment registers, monitors, accumulating flags, the 2-D registers, windows, level, context and task. -/
def ControlSame (a b : Thread) : Prop :=
  (b.level = a.level ∧ b.ctx = a.ctx ∧ b.cid = a.cid ∧ b.tcb = a.tcb ∧ b.sid = a.sid) ∧
  (b.uctl = a.uctl ∧ b.tsel = a.tsel ∧ b.uih = a.uih ∧ b.wlim = a.wlim ∧ b.wsp = a.wsp ∧ b.xfid = a.xfid) ∧
  (b.epc = a.epc ∧ b.ecause = a.ecause ∧ b.evalue = a.evalue ∧ b.inh = a.inh ∧ b.pend = a.pend) ∧
  (b.sepc = a.sepc ∧ b.scause = a.scause ∧ b.sval = a.sval) ∧
  (b.segs = a.segs ∧ b.monitors = a.monitors ∧ b.depth = a.depth ∧ b.icnt = a.icnt) ∧
  (b.rm = a.rm ∧ b.fflags = a.fflags ∧ b.shape = a.shape ∧ b.tiles = a.tiles)

/-- The slot's own position next comes round in this cycle (13 R236). -/
def isPosition (n slot c : Nat) : Prop := n < c ∧ c % 16 = slot ∧ c ≤ n + 16

/-- No access of the thread is outstanding, and none of its issuing thread's in an iteration (12 R211). -/
def accessesDone (s : State) : Prop := Performs awaitAccesses s () s

/-- A logical core number names a core of this package (24 R359). -/
def Names (s : State) (n : Word) (core : Nat) : Prop := Performs (targetCore n) s (some core, s.pkg.number, core) s

/-- The slot into which a core takes a new thread of a context: the lowest open one, unless the core is leaving it (03 R55, R58, 24 R362). -/
def takingSlot (s : State) (k ctx : Nat) : Option Nat := if leaving s ctx k then none else (openSlots s k).head?

/-- The thread of a graft packet as it stands in a slot: what the packet carries, depth 0, every register full (03 R57, R58). -/
def Landed (c : Thread) (p : GraftPacket) : Prop :=
  c.status = .ready ∧ c.pc = pcNorm p.pc ∧ c.pw = pwNorm p.pw ∧ c.depth = 0 ∧ c.level = Level.ofCode p.level ∧ c.ctx = p.ctx ∧ c.tcb = p.tcb ∧
  c.inh = p.inh ∧ c.epc = p.epc ∧ c.ecause = p.ecause ∧ c.evalue = p.evalue ∧ c.uih = p.uih ∧ c.wlim = p.wlim ∧ c.xfid = p.xfid ∧
  c.rm = p.rm ∧ c.fflags = p.fflags ∧ c.sepc = 0 ∧ c.scause = 0 ∧ c.sval = 0 ∧
  (∀ i, i < 10 → c.sreg i = { val := p.regs.getD i 0, full := true }) ∧ ∀ i, i < 32 → (c.sreg i).full = true

/-- A thread as dispatch starts it (03 R52). -/
def Started (s : State) (k slot : Nat) (c : Thread) (p : SeedPacket) (entry : BitVec 16) : Prop :=
  c.status = .ready ∧ c.pc = pcNorm entry ∧ c.pw = 1 ∧ c.level = .u ∧ c.ctx = p.ctx ∧ c.cid = p.cid ∧ c.sid = p.sid ∧ c.depth = 0 ∧
  c.wsp = BitVec.ofNat 64 (lsSize k - slot * 0x400) ∧ c.rm = 0 ∧ c.fflags = 0 ∧ c.wlim = 0 ∧ c.uih = 0 ∧ c.epc = 0 ∧ c.ecause = 0 ∧
  c.evalue = 0 ∧ c.xfid = 0 ∧ c.inh = false ∧ c.pend = {} ∧ c.monitors = [] ∧ c.segs = contextSegs s (dieOf k) p.ctx ∧
  c.sreg 0 = { val := p.wid, full := true } ∧ c.sreg 1 = { val := p.tcb, full := true } ∧
  (∀ i, 2 ≤ i → i < 32 → c.sreg i = { val := 0, full := true }) ∧
  ∀ n j, c.version n j = { val := 0, full := true }

/-! ## Memory (12 R211 to R222) -/

/-- The parts of an access after the segment stage and translation, and the state after it, in which a walk may have cached a leaf (05 R87,
23 R341, R346, 09 R165). -/
def Locates (s : State) (ea : Word) (size : Nat) (need : Need) (ps : List Part) (u : State) : Prop := Performs (locate ea size need) s ps u

/-- The targets of the parts allow the access (05 R97, R99, R100). -/
def Admitted (s : State) (ea : Word) (write : Bool) (size : Nat) (ps : List Part) : Prop := Performs (admitAll ea write size ps) s () s

/-- An access of a class may issue: fewer than one plain or four other accesses are outstanding (12 R211). -/
def roomFor (s : State) (cls : Nat) : Prop := Performs (awaitSlot cls) s () s

/-- The class of an access: 2 for one that an RLX word marks in a segment with RL, else 1 (05 R89, 12 R211). -/
def classOf (s : State) (ea : Word) : Nat :=
  match (current s).bound with
  | .rlx _ _ => if (FMap.get 0 (owner s).segs (ea.extractLsb' 61 3).toNat).getLsbD 56 then 2 else 1
  | _ => 1

/-- Plain, uncompressed memory of this package. -/
def plainPlace : Place → Bool
  | .own _ | .ls _ _ | .host _ | .hbm _ none | .ws _ _ none => true
  | _ => false

/-- The key of a plain part. -/
def keyOfPart (p : Part) : Nat := p.place.key?.getD 0

/-- No doubleword that n bytes touch is poisoned or holds an ECC error (05 R91, R92). -/
def Clean (s : State) (key n : Nat) : Prop := ∀ a ∈ touched key n, s.poisonAt a = false ∧ FMap.get? s.pkg.eccBad a = none

/-- No monitor watches a byte of the n bytes (03 R60). -/
def Unmonitored (s : State) (key n : Nat) : Prop :=
  ∀ m ∈ (s.coreOf (homeOf key)).monRegs, ¬(m.line < key + n ∧ key < m.line + 64)

/-- No monitor watches a byte of the n bytes, and no armed barrier holds one (03 R60, 12 R229). -/
def Unwatched (s : State) (key n : Nat) : Prop :=
  Unmonitored s key n ∧ ∀ b ∈ (s.coreOf (homeOf key)).barriers, ¬(b.key < key + n ∧ key < b.key + 8)

/-- No full/empty operation waits for the doubleword (12 R217). -/
def Unwaited (s : State) (key : Nat) : Prop := ∀ x ∈ (s.coreOf (homeOf key)).waiters, x.key ≠ key

/-- No part is an outbound item of a twinned thread (25 R373). -/
def notOutbound (s : State) (ps : List Part) : Prop := (owner s).twin = none ∨ ∀ p ∈ ps, p.place.outside (tid s / 16) = false

/-- The thread of a slot has no operation registered at a home (12 R217). -/
def Unregistered (s : State) (id : Nat) : Prop := ∀ p ∈ s.cores, ∀ x ∈ p.2.waiters, x.isOf (id / 16) (id % 16) = false

/-- The registration of the current thread's operation at a home, which serves it or, where the thread tries it again itself, keeps its turn (12
R217). -/
def ownWaiter (s : State) (kind : AccessKind) (key : Nat) (ea data : Word) (dest : Dest) (polls : Bool) : Waiter :=
  { core := s.clock.core, slot := s.clock.slot, addr := ea, key := key, kind := kind, data := data, dest := dest, polls := polls }

/-- What a thread that tries its operation again leaves at the home when it has to wait: its registration, once (12 R217). -/
def pollKeep (s : State) (w : Waiter) : List Eff :=
  if (s.coreOf (homeOf w.key)).waiters.any (·.isOf s.clock.core s.clock.slot) then []
  else [.core (homeOf w.key) fun c => { c with waiters := c.waiters ++ [w] }]

/-- Stores that the iteration has buffered (04 R70). -/
def bufferOf (s : State) : List Buffered := ((current s).iter.map (·.buf)).getD []

/-- The bytes that a read of parts gives: memory, under what the iteration has buffered (04 R70, 09 R165). -/
def bytesAt (s : State) (ps : List Part) : List Byte :=
  ps.flatMap fun p => overlay p.place.flat (Memory.readList s.mem (keyOfPart p) p.len) (bufferOf s)

/-- A loaded value by its size code: bytes, halfwords and words signed and unsigned, doublewords (12 R213). -/
def widened (fn : BitVec 3) (bs : List Byte) : Word :=
  match fn.toNat with
  | 0 => (BitVec.ofNat 8 (leValue bs)).signExtend 64
  | 2 => (BitVec.ofNat 16 (leValue bs)).signExtend 64
  | 4 => (BitVec.ofNat 32 (leValue bs)).signExtend 64
  | _ => BitVec.ofNat 64 (leValue bs)

/-- Bytes that a load moves, by its size code (12 R213). -/
def loadBytes (fn : BitVec 3) : Nat := [1, 1, 2, 2, 4, 4, 8].getD fn.toNat 8

/-- Memory after the bytes of a store are written part by part. -/
def storedAt (m : Memory) (bs : List Byte) : List Part → Memory
  | [] => m
  | p :: ps => storedAt (Memory.writeList m (keyOfPart p) (bs.take p.len)) (bs.drop p.len) ps

/-- A result on its way to a destination: outstanding in the thread, its arrival due after a number of cycles, and a register that awaits
it empty (03 R42). -/
def Awaits (s t : State) (d : Dest) (v : Word) (cls delay : Nat) : Prop :=
  ∃ n, FMap.get? (current t).producers n = some { dest := d, value := v, access := cls, isFloat := false, flags := 0 } ∧
    Due t (s.clock.now + delay) (.producerResultArrival (tid s / 16) (tid s % 16) n) ∧
    ∀ r, d = .reg r → (FMap.get {} (current t).regs r).full = false

/-- The one doubleword of a full/empty operation or an atomic, after its checks (12 R216, R219). -/
def FullEmptyAt (s : State) (ea : Word) (need : Need) (p : Part) (u : State) : Prop := Performs (fullEmptyPart ea need) s p u
def AtomicAt (s : State) (ea : Word) (p : Part) (u : State) : Prop := Performs (atomicPart ea) s p u
def ReductionAt (s : State) (ea : Word) (p : Part) (u : State) : Prop := Performs (reducePart ea) s p u

/-- Every read of the thread has its answer (09 R168). -/
def readsDone (s : State) : Prop := Performs awaitReads s () s

/-- An atomic in a linear segment stands outside loops and furrows, in a thread that is not twinned, and names s0 to s9 or zero (12 R219, 03
R59). -/
def linearOk (s : State) (ea : Word) (codes : List Code) : Prop :=
  segKind (FMap.get 0 (owner s).segs (bits ea 63 61)) = 2 →
    (current s).iter = none ∧ (current s).col = none ∧ (owner s).twin = none ∧ codes.all graftable = true

/-- Atomics: whether d is an implied operand, and by the old word, b and that operand the new word and the status bit (12 R218, R220). -/
def atomicForms : List ((Code → Code → Code → Bool → Bool → Instr) × Bool × (Word → Word → Word → Word × Option Bool)) :=
  [(.amoSwap, false, fun _ b _ => (b, none)), (.amoAdd, false, fun o b _ => (o + b, none)), (.amoAnd, false, fun o b _ => (o &&& b, none)),
   (.amoOr, false, fun o b _ => (o ||| b, none)), (.amoXor, false, fun o b _ => (o ^^^ b, none)),
   (.amoMin, false, fun o b _ => (if o.sle b then o else b, none)), (.amoMax, false, fun o b _ => (if b.sle o then o else b, none)),
   (.amoMinu, false, fun o b _ => (if o.ule b then o else b, none)), (.amoMaxu, false, fun o b _ => (if b.ule o then o else b, none)),
   (.cas, true, fun o b c => (if o = c then b else o, some (o != c))),
   (.incw, false, fun o b _ => (if b.ule o then 0 else o + 1, none)),
   (.faddb, true, fun o b c => (if c.ult o then o else if c.toNat ≤ o.toNat + b.toNat then c else o + b, some (c.ult o)))]

/-- Reductions, by the old word and b (12 R221). -/
def reduceForms : List ((Code → Code → Bool → Bool → Instr) × AmoFn × (Word → Word → Word)) :=
  [(.redAdd, .add, fun o b => o + b), (.redAnd, .and, fun o b => o &&& b), (.redOr, .or, fun o b => o ||| b), (.redXor, .xor, fun o b => o ^^^ b),
   (.redMin, .min, fun o b => if o.sle b then o else b), (.redMax, .max, fun o b => if b.sle o then o else b),
   (.redMinu, .minu, fun o b => if o.ule b then o else b), (.redMaxu, .maxu, fun o b => if b.ule o then o else b)]

/-! ## Monitors and barriers (03 R60, R61, 12 R224 to R229) -/

/-- The result word of MWAIT: the monitors that latched, whether the timeout expired, whether an interrupt is pending (03 R61). -/
def mwaitWord (t : Thread) (timedOut : Bool) : Word :=
  BitVec.ofNat 64 (b2n (t.pend.some || !t.pendUp.isEmpty) * 2 ^ 9 + b2n timedOut * 2 ^ 8 +
    ((List.range 4).map fun n => b2n ((FMap.get? t.monitors n).any (·.latched)) * 2 ^ n).sum)

/-- A latched write or a pending interrupt ends an MWAIT of a thread (03 R61). -/
def mwaitEnds (t : Thread) : Bool :=
  ((List.range 4).any fun n => (FMap.get? t.monitors n).any (·.latched)) || t.pend.some || !t.pendUp.isEmpty

/-- The word of a barrier operation after its checks (12 R227). -/
def BarrierAt (s : State) (ea : Word) (need : Need) (p : Part) (u : State) : Prop := Performs (barrierPart ea need) s p u

/-- PHASE, EXP and ARR of a barrier word (12 R226). -/
def phaseOf (v : Word) : Nat := v.toNat / 2 ^ 40
def expectedOf (v : Word) : Nat := v.toNat / 2 ^ 20 % 2 ^ 20
def arrivedOf (v : Word) : Nat := v.toNat % 2 ^ 20

/-- What BARV leaves of a word and returns, in the order of 12 R228: STAT, new PHASE, new ARR. -/
def barvOutcome (bar : Option Barrier) (v b : Word) : Nat × Nat × Nat :=
  match bar with
  | none => (4, 0, arrivedOf v)
  | some r =>
    if r.broken then (3, phaseOf v, arrivedOf v)
    else if b.toNat % 2 ^ 24 ≠ phaseOf v then (2, phaseOf v, arrivedOf v)
    else if (arrivedOf v + 1) % 2 ^ 20 = expectedOf v then (1, (phaseOf v + 1) % 2 ^ 24, 0)
    else (0, phaseOf v, (arrivedOf v + 1) % 2 ^ 20)

/-! ## Scalar floats (14 R247 to R256, 06 R113 to R118) -/

/-- Where the flag tree records that a core of a cluster has raised flags: its cluster control core and the bit (06 R114). -/
def flagTree (k : Nat) : Option (Nat × Nat) :=
  match kindOf k with
  | .compute => some (clusterCore (dieOf k) (clusterOf k), 8 + k % 448 / 28 % 4 * 4 + k % 28 % 4)
  | .cluster => some (clusterCore (dieOf k) (clusterOf k), 24)
  | _ => none

/-- Flags raised by the current thread: they accumulate in it and its cluster's flag tree sees them (06 R113, R114). -/
def withFlags (f : BitVec 5) (s : State) : State :=
  if f = 0 then s
  else
    let u := (Eff.thr (tid s) fun t => { t with fflags := t.fflags ||| f }).apply s
    match flagTree (tid s / 16) with
    | some (c, b) => (Eff.core c fun c => { c with clflags := c.clflags ||| BitVec.ofNat 64 (2 ^ b) ||| f.setWidth 64 }).apply u
    | none => u

/-- The bits of an FP32 result as a register holds them (14 R247). -/
def f32Word (c : Cvt) : Word := BitVec.ofNat 64 c.code

/-- An exact result rounded once to FP32, overflow to infinity or by the mode, with the flags of its operation (06 R115, 14 R248). -/
def once (mode : Nat) (r : Machine.Num × Flags) : Word × Flags :=
  let c := Fmt.f32.convert mode 1 r.1
  (f32Word c, r.2 ||| c.flags)

/-- Float instructions d := f(a, b) that complete at once, by the rounding mode (14 R249, R250). -/
def floatForms : List ((Code → Code → Code → Bool → Bool → Instr) × (Nat → Word → Word → Word × Flags)) :=
  [(.fadd, fun m a b => once m (addNum m (f32Of a) (f32Of b))), (.fsub, fun m a b => once m (addNum m (f32Of a) (f32Of b).neg)),
   (.fmul, fun m a b => once m (mulNum (f32Of a) (f32Of b))),
   (.fmin, fun _ a b => let r := minMaxCode .f32 false (a.toNat % 2 ^ 32) (b.toNat % 2 ^ 32); (BitVec.ofNat 64 r.1, r.2)),
   (.fmax, fun _ a b => let r := minMaxCode .f32 true (a.toNat % 2 ^ 32) (b.toNat % 2 ^ 32); (BitVec.ofNat 64 r.1, r.2))]

/-- Fused forms: whether the product and the addend are negated (14 R251). -/
def fusedForms : List ((Code → Code → Code → Bool → Bool → Instr) × Bool × Bool) :=
  [(.fmadd, false, false), (.fmsub, false, true), (.fnmadd, true, true), (.fnmsub, true, false)]

/-- Conditions 0 to 7 of FSK, in the order of their codes (10 R182). -/
def floatConditions : List (Machine.Num → Machine.Num → Bool) :=
  let un (x y : Machine.Num) : Bool := x.isNan || y.isNan
  [fun x y => !un x y && cmpNum x y == 0, fun x y => un x y || cmpNum x y != 0, fun x y => !un x y && decide (cmpNum x y < 0),
   fun x y => !un x y && decide (cmpNum x y ≤ 0), fun x y => !un x y && decide (0 < cmpNum x y), fun x y => !un x y && decide (0 ≤ cmpNum x y),
   fun x y => un x y, fun x y => !un x y]

/-- NV of a comparison: signalling NaNs always, any NaN under the conditions that order (14 R254). -/
def compareFlags (c : BitVec 4) (x y : Machine.Num) : Flags :=
  if (2 ≤ c.toNat ∧ c.toNat ≤ 5 ∧ (x.isNan || y.isNan) = true) ∨ (x.isSig || y.isSig) = true then 16#5 else 0

/-- No divide or square root of the thread is outstanding (14 R256). -/
def floatsDone (s : State) : Prop := ∀ p ∈ (current s).producers, p.2.isFloat = false

/-- A finite value as an integer in units of 2^e0, for e0 not above its exponent. -/
def unitsOf (x : Machine.Num) (e0 : Int) : Int :=
  match x with
  | .fin s m e => (if s then -1 else 1) * (m : Int) * 2 ^ (e - e0).toNat
  | _ => 0

/-- The exponent of a finite value. -/
def exponentOf : Machine.Num → Int
  | .fin _ _ e => e
  | _ => 0

def isFinite : Machine.Num → Bool
  | .fin _ _ _ => true
  | _ => false

/-! ## Messages (13 R239 to R243, 05 R101 to R104, 25 R381) -/

/-- A result comes to a destination at once: a register takes it and is full. -/
def Filled (t : State) (d : Dest) (v : Word) : Prop := ∀ r, d = .reg r → FMap.get? (current t).regs r = some { val := v, full := true }

/-- Memory after doublewords from a key upward are copied one by one to the keys of parts. -/
def copiedAt (m : Memory) (src : Nat) : List Part → Memory
  | [] => m
  | p :: ps => copiedAt (Memory.writeList m (keyOfPart p) (Memory.readList m src 8)) (src + 8) ps

/-- The virtual time that a VTADV leaves, by the time as it stands, the operand and the lower bound of the tree (13 R239). -/
def virtualTime (vt t : Word) (glb : Nat) : Word :=
  if t = BitVec.allOnes 64 then t
  else if vt = BitVec.allOnes 64 then (if t.toNat < glb then BitVec.ofNat 64 glb else t)
  else if vt.ult t then t else vt

/-- The status word of LCFG for a direction (13 R244). -/
def linkStatus (s : State) (k : Nat) (d : Dir) : Word :=
  let sealed_ := (s.coreOf (neighbour k d)).isSealed
  let room := if sealed_ then 32 else FMap.get 32 (s.coreOf k).credits d.idx
  BitVec.ofNat 64 ((if sealed_ then 2 ^ 16 else 0) + room % 64 * 2 ^ 8 + (FMap.get [] (s.coreOf k).links d.idx).length % 64)

/-- Every doubleword of n bytes from a key is watched by nothing and awaited by nothing. -/
def Untouched (s : State) (key n : Nat) : Prop :=
  Unwatched s key n ∧ ∀ i, 8 * i < n → Unwaited s (key + 8 * i)

/-- Room for a record of a message at the tail of an inbox, without a pad (05 R103). -/
def recordFits (b : Inbox) (m : Message) : Bool :=
  let len := 16 + 16 * ((8 * m.data.length + 15) / 16)
  b.en && decide (len < 64 * b.size - (b.tail + 64 * b.size - b.head) % max 1 (64 * b.size)) && decide (b.tail + len ≤ 64 * b.size)

/-- The error count of a core, one more, saturating (25 R383). -/
def oneMore (s : State) (k i : Nat) : Nat := min (2 ^ 32 - 1) (FMap.get 0 (s.coreOf k).errs i + 1)

/-! ## Tiles (14 R257 to R271) -/

/-- The code in lane (i, j) of tile register m, for lanes of w bytes (14 R257). -/
def laneOf (t : Thread) (m w i j : Nat) : Nat := leValue ((List.range w).map fun b => t.tileByte (2048 * m + (i * t.shape.gc + j) * w + b))

/-- The thread's shape has lanes of w bytes and its active lanes lie within a register (14 R258, R260). -/
def laneFit (t : Thread) (w : Nat) : Prop :=
  t.shape.ac ≤ t.shape.gc ∧ t.shape.ar * t.shape.gc * w ≤ 2048 ∧ t.shape.idle = false

/-- What a tile instruction leaves: the lanes of a rectangle of register d hold f, every other byte of the tile registers is as it was, and so are
registers, predicates, shape, memory and the other threads. -/
def TileWritten (s u : State) (d w rows cols : Nat) (f : Nat → Nat → Nat) : Prop :=
  (∀ i j, i < rows → j < cols → laneOf (current u) d w i j = f i j % 2 ^ (8 * w)) ∧
  (∀ k, (∀ i j b, i < rows → j < cols → b < w → k ≠ 2048 * d + (i * (current s).shape.gc + j) * w + b) →
    (current u).tileByte k = (current s).tileByte k) ∧
  (current u).shape = (current s).shape ∧ (current u).regs = (current s).regs ∧ (current u).pw = (current s).pw ∧
  (current u).pc = pcNorm ((current s).pc + 4#16) ∧ u.mem = s.mem ∧ OthersSame (tid s) s u

/-- The flags that lanes of a rectangle raise accumulate in the thread (06 R113). -/
def LaneFlags (s u : State) (rows cols : Nat) (f : Nat → Nat → Flags) : Prop :=
  ∀ b, (current u).fflags.getLsbD b = true ↔ (current s).fflags.getLsbD b = true ∨ ∃ i j, i < rows ∧ j < cols ∧ (f i j).getLsbD b = true

/-- An integer result wrapped, or clamped to its type (14 R260). -/
def intLane (w : Nat) (u sat : Bool) (v : Int) : Nat :=
  let lo : Int := if u then 0 else -(2 ^ (8 * w - 1))
  let hi : Int := if u then 2 ^ (8 * w) - 1 else 2 ^ (8 * w - 1) - 1
  ((if sat then max lo (min hi v) else v) % 2 ^ (8 * w)).toNat

/-- A lane as an integer of its type. -/
def asInt (w : Nat) (u : Bool) (c : Nat) : Int := if u then (c : Int) else (BitVec.ofNat (8 * w) c).toInt

/-- A float result rounded once to its type, with its flags (14 R260). -/
def laneOnce (f : Fmt) (mode : Nat) (r : Machine.Num × Flags) : Nat × Flags :=
  let c := f.convert mode 1 r.1
  (c.code, r.2 ||| c.flags)

/-- A lane of a binary instruction, by what it computes on integers and on codes of a float format (14 R265). -/
def laneResult (ints : Int → Int → Int) (floats : Fmt → Nat → Nat → Nat → Nat × Flags) (t : Nat) (u sat : Bool) (mode x y : Nat) : Nat × Flags :=
  match tyFloat t with
  | some f => floats f mode x y
  | none => (intLane (tyWidth t) u sat (ints (asInt (tyWidth t) u x) (asInt (tyWidth t) u y)), 0)

/-- TADD, TSUB, TMUL, TMIN and TMAX (14 R265). -/
def laneForms : List ((BitVec 3 → BitVec 3 → BitVec 3 → Bool → Bool → BitVec 3 → Instr) × (Nat → Bool → Bool → Nat → Nat → Nat → Nat × Flags)) :=
  [(.tadd, laneResult (· + ·) fun f m x y => laneOnce f m (addNum m (f.decode x) (f.decode y))),
   (.tsub, laneResult (· - ·) fun f m x y => laneOnce f m (addNum m (f.decode x) (f.decode y).neg)),
   (.tmul, laneResult (· * ·) fun f m x y => laneOnce f m (mulNum (f.decode x) (f.decode y))),
   (.tmin, laneResult min fun f _ x y => minMaxCode f false x y), (.tmax, laneResult max fun f _ x y => minMaxCode f true x y)]

/-- TAND, TOR and TXOR (14 R265). -/
def laneLogicForms : List ((BitVec 3 → BitVec 3 → BitVec 3 → BitVec 3 → Instr) × (Nat → Nat → Nat)) :=
  [(.tand, fun x y => x &&& y), (.tor, fun x y => x ||| y), (.txor, fun x y => x ^^^ y)]

/-- TFMA, TFMS, TFNMA and TFNMS: whether product and addend are negated (14 R266). -/
def laneFusedForms : List ((BitVec 3 → BitVec 3 → BitVec 3 → Bool → Bool → BitVec 3 → Instr) × Bool × Bool) :=
  [(.tfma, false, false), (.tfms, false, true), (.tfnma, true, true), (.tfnms, true, false)]

/-- A lane of a fused instruction. -/
def laneFusedResult (np na : Bool) (t : Nat) (u sat : Bool) (mode x y c : Nat) : Nat × Flags :=
  match tyFloat t with
  | some f => laneOnce f mode (fmaNum mode np na (f.decode x) (f.decode y) (f.decode c))
  | none =>
    let i := asInt (tyWidth t) u
    (intLane (tyWidth t) u sat ((if np then -1 else 1) * (i x * i y) + (if na then -1 else 1) * i c), 0)

/-- TNEG and TABS: on integers, and on the sign bit of floats (14 R265). -/
def laneUnaryForms : List ((BitVec 3 → BitVec 3 → Bool → Bool → BitVec 3 → Instr) × (Nat → Bool → Nat → Nat)) :=
  [(.tneg, fun t sat x => if t ≤ 2 then intLane (tyWidth t) false sat (-(asInt (tyWidth t) false x)) else x ^^^ 2 ^ (8 * tyWidth t - 1)),
   (.tabs, fun t sat x => if t ≤ 2 then intLane (tyWidth t) false sat (asInt (tyWidth t) false x).natAbs else x % 2 ^ (8 * tyWidth t - 1))]

/-- The options of saturation and unsigned reading go with integer types (14 R260). -/
def optionsFit (t : BitVec 3) (u s : Bool) : Bool := (!u && !s) || decide (t.toNat ≤ 2)

/-- A row or a column of active lanes. -/
def laneRow (t : Thread) (m w i : Nat) : List Nat := (List.range t.shape.ac).map fun j => laneOf t m w i j
def laneColumn (t : Thread) (m w j : Nat) : List Nat := (List.range t.shape.ar).map fun i => laneOf t m w i j

/-- Reductions (14 R268). -/
def laneReduceForms : List ((BitVec 3 → BitVec 3 → Bool → Bool → Bool → BitVec 3 → Instr) × Reduce) := [(.trsum, .sum), (.trmax, .max), (.trmin, .min)]

/-! ## The matrix array and engine commands (07 R127 to R147, 15 R272 to R291) -/

/-- A command has joined the array queue of the current core; the head of an empty queue begins as soon as the array is free (07 R127). -/
def Queued (s t : State) (cmd : ArrayCmd) : Prop :=
  let k := s.clock.core
  let a := (s.coreOf k).array
  (t.coreOf k).array.queue = a.queue ++ [cmd] ∧ (t.coreOf k).array.queued = a.queued + 1 ∧ (t.coreOf k).array.acc = a.acc ∧
  (a.queue = [] → Due t (s.clock.now + (a.gate cmd - s.clock.now)) (.arrayCommandExecute k)) ∧
  t.mem = s.mem ∧ OthersSame (tid s) s t ∧ (current t).regs = (current s).regs ∧ (current t).pw = (current s).pw

/-- The queue of the current core's array has room. -/
def arrayRoom (s : State) : Prop := ((s.coreOf s.clock.core).array.queue).length < 4

/-- The head of a core's array queue may execute now: the array stands neither sealed, nor under the sequencer, nor before its time; no TILEMM
waits for the queue and no task ends with the command (07 R127, R131). -/
def HeadRuns (s : State) (k : Nat) (cmd : ArrayCmd) : Prop :=
  let a := (s.coreOf k).array
  (∃ rest, a.queue = cmd :: rest) ∧ (s.coreOf k).isSealed = false ∧ a.busy = false ∧ a.gate cmd ≤ s.clock.now ∧ a.stalled = none ∧
  (s.coreOf k).saving = false ∧ (s.coreOf k).commands = [] ∧ FMap.get? s.pkg.tasks cmd.task = none

/-- The head has left the queue. -/
def HeadDone (s t : State) (k : Nat) : Prop :=
  (t.coreOf k).array.queue = (s.coreOf k).array.queue.drop 1 ∧ (t.coreOf k).array.finished = (s.coreOf k).array.finished + 1 ∧ t.threads = s.threads

/-- One cell of an MMA: in each cycle its value and the exact sum of the cycle's products, rounded once to nearest even (07 R129). -/
def mmaCell (v g ka : Nat) (product : Nat → List Machine.Num) : Nat :=
  (List.range ((ka + g - 1) / g)).foldl (fun v c =>
    (Fmt.f32.convert 0 1 (exactSum 0 (Fmt.f32.decode v :: ((List.range g).map (c * g + ·) |>.filter (· < ka)).flatMap product)).1).code) v

/-- A value of class 0 whose exponent an exact accumulator takes (06 R124). -/
def takesTerm (w1 : Word) : Bool :=
  bits w1 17 16 = 0 && decide (-192 ≤ (BitVec.ofNat 16 (bits w1 15 0)).toInt) && decide ((BitVec.ofNat 16 (bits w1 15 0)).toInt ≤ 31)

/-- An exact accumulator of a core replaced. -/
def withExact (k i : Nat) (x : Exact) (s : State) : State := (Eff.core k fun c => { c with exact := FMap.set c.exact i x }).apply s

/-- The completion of a command that its thread takes (07 R143). -/
def completionOf (r : Reporter) (stat : Nat) : Completion :=
  { xid := r.xid % 2 ^ 16, status := stat, handler := r.target.setWidth 16, kind := r.kind, pb := r.pb, cid := r.cid, slot := r.slot, ctx := r.ctx }

/-- A completion is told as the command's mode says: as an event record, or pending for its thread (07 R143). -/
def Told (s t : State) (r : Reporter) (stat : Nat) : Prop :=
  (r.mode = 1 → Due t s.clock.now (.eventRecordPlace (recordCore s r.ctx r.core) (commandRecord r stat false))) ∧
  (r.mode = 0 → ∀ p, s.threads.find? (fun p => p.2.uid = r.uid && p.2.status ≠ .parked .graft none) = some p → (s.thread p.1).pend.xc.length < 4 →
    p.2.pend.xc.length < 4 → (t.thread p.1).pend.xc = (s.thread p.1).pend.xc ++ [completionOf r stat])

/-- A command that nothing follows: no successor, follow-on, group or ending task. -/
def Single (s : State) (cmd : Command) : Prop :=
  cmd.after = [] ∧ cmd.cloche = [] ∧ cmd.groups = [] ∧ FMap.get? s.pkg.tasks cmd.rep.task = none ∧ cmd.rep.mode ≤ 1 ∧
  ∀ c, cmd.work = .copy c → c.follow = none

/-- A command has completed with a status: it is no longer open, its identifier has the status, and it is told (07 R139, R143). -/
def Ended (s t : State) (k i stat : Nat) (r : Reporter) : Prop :=
  FMap.get? (t.coreOf k).commands i = none ∧
  ((FMap.get? (s.coreOf k).xids i).isSome = true → FMap.get? (t.coreOf k).xids i = some (some stat)) ∧ Told s t r stat

/-- The state in which the master of a core answers the thread of a slot. -/
def answering (s : State) (k slot : Nat) : State := { s with clock := { s.clock with core := k, slot := slot } }

/-- The words of a copy's parameter block are in range (15 R285, R286). -/
def goodCopyBlock (ea : Word) (w : List Word) : Bool :=
  let ctl := w.getD 2 0
  decide (ea.toNat % 64 = 0) && bits ctl 63 10 = 0 && bits (w.getD 4 0) 63 21 = 0 && w.getD 5 0 = 0 && w.getD 6 0 = 0 && w.getD 7 0 = 0 &&
  ((List.range (bits ctl 1 0 + 1)).all fun i => bits (w.getD (9 + 4 * i) 0) 63 32 = 0) && goodTarget (bits ctl 9 8) (w.getD 3 0) &&
  (bit ctl 7 || w.getD 4 0 = 0)

/-- The spans of a copy's sides pass the checks of 07 R138. -/
def SpansPass (s : State) (c : Copy) : Prop :=
  let (so, (dlo, dhi)) := cornerOffsets c.dims
  (∀ lo hi, so = some (lo, hi) → Performs (checkSpan c.src (c.src.span lo hi).1 (c.src.span lo hi).2 .load) s () s) ∧
  Performs (checkSpan c.dst (c.dst.span dlo dhi).1 (c.dst.span dlo dhi).2 .store) s () s

/-- A thread that waits for its master: parked with its operands, its destination claimed (07 R137). -/
def Departed (s t : State) (dest : Dest) (master : Nat) (held : List Word) (accept : Instr) : Prop :=
  (current t).status = .parked .engine none ∧ (current t).mwaitDst = dest ∧ (current t).held = held ∧
  (∀ r, dest = .reg r → (FMap.get {} (current t).regs r).full = false) ∧
  Due t (s.clock.now + Config.transit (tid s / 16) master) accept ∧ (current t).pc = (current s).pc ∧ t.mem = s.mem ∧ OthersSame (tid s) s t

/-- An accepted command stands among its core's, its thread has the identifier and goes on at the next word (07 R137). -/
def TakenUp (s t : State) (k slot : Nat) (work : Work) (master : Nat) (held : Bool) (wg rg : List Nat) : Prop :=
  let id := tidOf k slot
  let n := (s.coreOf k).nextXid
  (t.thread id).status = .ready ∧ (t.thread id).pc = pcNorm ((s.thread id).pc + 4#16) ∧ (t.coreOf k).nextXid = n + 1 ∧
  (∀ r, (s.thread id).mwaitDst = .reg r → FMap.get? (t.thread id).regs r = some { val := BitVec.ofNat 64 (n % 2 ^ 16), full := true }) ∧
  (∃ cmd, FMap.get? (t.coreOf k).commands n = some cmd ∧ cmd.work = work ∧ cmd.master = master ∧ cmd.held = held ∧ cmd.cloche = wg ∧ cmd.groups = rg ∧ cmd.status = 0 ∧
    cmd.rep.xid = n) ∧ t.mem = s.mem

/-! ## The integrator array and narrow packing (08, 16) -/

/-- The integrator array of a core. -/
def ddaOf (s : State) (k : Nat) : Dda := (s.coreOf k).dda

/-- No other thread of the core performs an RSAVE (16 R292). -/
def rangeFree (s : State) : Prop := Performs (awaitRange s.clock.core) s () s

/-- The cells of a range. -/
def rangeCells (r : RangeRef) : List Nat := (List.range r.count).map fun i => r.first + i

/-- Codes of n bits in the bytes of a as a packed stream, shifted by the signed count in b (16 R304). -/
def packed (n : Nat) (a b : Word) : Word :=
  let h := (b.setWidth 8).toInt
  let stream := ((List.range 8).map fun i => a.toNat / 2 ^ (8 * i) % 2 ^ n * 2 ^ (n * i)).sum
  BitVec.ofNat 64 (if 0 ≤ h then stream * 2 ^ h.toNat else stream / 2 ^ (-h).toNat)

/-- The inverse: codes of a shifted stream, one in each byte (16 R305). -/
def unpacked (n : Nat) (a b : Word) : Word :=
  let h := (b.setWidth 8).toInt
  let x := (if 0 ≤ h then a.toNat / 2 ^ h.toNat else a.toNat * 2 ^ (-h).toNat) % 2 ^ 64
  BitVec.ofNat 64 (((List.range 8).map fun i => x / 2 ^ (n * i) % 2 ^ n * 2 ^ (8 * i)).sum)

/-- PACK6, UNPK6, PACK4 and UNPK4. -/
def packForms : List ((Code → Code → Code → Bool → Bool → Instr) × (Word → Word → Word)) :=
  [(.pack6, packed 6), (.unpk6, unpacked 6), (.pack4, packed 4), (.unpk4, unpacked 4)]

/-- What the four slots of a cell sample at a step, dx first. -/
def sampled (g : Dda) (c : Cell) (k : Nat) : Int := (g.sample c k).1

/-! ## Schedulers (24 R350 to R364) -/

/-- A key at which a task control block may stand: a multiple of 256 (24 R351). -/
def isBlock (key : Nat) : Prop := key % 256 = 0

/-- The queue of its die and priority that a task joins. -/
def queueOf (s : State) (key : Nat) : List Nat := FMap.get [] (s.dieOf (tcbDie s key)).queues (bits (memDw s key) 57 56)

/-- Tasks of a queue stand at blocks of their own. -/
def queueFit (s : State) (key : Nat) : Prop := isBlock key ∧ ∀ x ∈ queueOf s key, isBlock x ∧ x ≠ key

/-- A task has been queued: STATE 1, ENQT this cycle, the last of its queue, NEXT of the task before it names it, and its scheduler looks at its
queues (24 R351, R352, R354). -/
def Enqueued (s t : State) (key : Nat) (lin : Word) : Prop :=
  tcbState t key = 1 ∧ memDw t (key + 0xA0) = BitVec.ofNat 64 s.clock.now ∧ memDw t (key + 0x98) = 0 ∧
  FMap.get [] (t.dieOf (tcbDie s key)).queues (bits (memDw s key) 57 56) = queueOf s key ++ [key] ∧
  (∀ last, (queueOf s key).getLast? = some last → memDw t (last + 0x98) = lin) ∧ FMap.get? t.pkg.tcbLin key = some lin ∧
  Due t s.clock.now (.schedulerDispatch (tcbDie s key)) ∧
  ∀ a, ¬(key ≤ a ∧ a < key + 256) → (∀ last ∈ queueOf s key, ¬(last ≤ a ∧ a < last + 256)) → Memory.read t.mem a = Memory.read s.mem a

/-- A core that has no command, message, ring set or running domain of its own in progress. -/
def quietCore (c : Core) : Prop :=
  c.commands = [] ∧ c.array.queue = [] ∧ c.sendq = [] ∧ c.ddaq = [] ∧ c.rings = [] ∧ ∀ d, (c.dda.dom d).run = false

/-- A saturating count of a die, one more (24 R356, R352). -/
def oneUp (n : Nat) : Nat := min (2 ^ 32 - 1) (n + 1)

/-! ## A thread by itself -/

/-- The thread whose word is executed stands in no loop and no furrow, with nothing outstanding, nothing bound to its word and no word half done. -/
def Alone (s : State) : Prop :=
  s.occupied (tid s) = true ∧ s.clock.slot < 16 ∧ (current s).iter = none ∧ (current s).col = none ∧ (current s).bound = .none ∧
  (current s).status = .ready ∧ (current s).producers = [] ∧ (current s).outstanding = [] ∧ (current s).lent = [] ∧ (current s).held = [] ∧
  (current s).mwaitToken = 0 ∧ (current s).twin = none ∧ (current s).rsave = none ∧ (current s).dhalt = false

/-- A register operand holds a value (03 R42). -/
def Holds (s : State) (c : Code) (v : Word) : Prop := c.toNat < 32 ∧ (current s).sreg c.toNat = { val := v, full := true }

/-- A word of a thread has completed: the thread goes on at the next word, and no other thread has changed. -/
def Completed (s t : State) : Prop :=
  (current t).pc = pcNorm ((current s).pc + 4#16) ∧ (current t).lastIssue = some s.clock.now ∧ (current t).status = .ready ∧ OthersSame (tid s) s t

/-- A span of bytes of the thread's local store that a segment allows, with its key: KIND 1, aligned as a range of cells asks, within the limit and the
store, outside the code window (05 R87 to R89, 16 R293). -/
def LocalSpan (s : State) (ea : Word) (size align : Nat) (write : Bool) (key : Nat) : Prop :=
  let k := s.clock.core
  let sg := FMap.get 0 (current s).segs (bits ea 63 61)
  let a := (segBase sg + bits ea 47 0) % 2 ^ 48
  segKind sg = 1 ∧ bits ea 60 48 = 0 ∧ ea.toNat % align = 0 ∧ 0 < size ∧ bits ea 47 0 + size ≤ segLimit sg + 1 ∧
  (if write then bit sg 53 else bit sg 52) = true ∧ 0x10000 ≤ a ∧ a + size ≤ lsSize k ∧ key = lsKey k a ∧
  ∀ i, i < size → underTest s (key + i) = false

/-- No other thread of the core has an RSAVE or a DHALT in progress (16 R293). -/
def ranges (s : State) : Prop :=
  ∀ t, t < 16 → tidOf s.clock.core t ≠ tid s → (s.thread (tidOf s.clock.core t)).rsave = none ∧ (s.thread (tidOf s.clock.core t)).dhalt = false

/-! ## Boot (26 R387, R388) -/

/-- The thread that a boot releases on a control core: level H, at the image's entry offset (26 R387). -/
def ReleasedCore (t : State) (k : Nat) (im : List Byte) : Prop :=
  (t.thread (tidOf k 0)).level = .h ∧ (t.thread (tidOf k 0)).status = .ready ∧ (t.thread (tidOf k 0)).pw = 1 ∧
  (t.thread (tidOf k 0)).pc = pcNorm (BitVec.ofNat 16 (leValue ((im.drop 24).take 4)))

/-- A die boots, or stays held with a failure code (26 R387, R388). -/
def BootOutcome (s t : State) (d : Nat) (image : Option (List Byte)) : Prop :=
  (mapHolds d = false → (t.dieOf d).booted = false ∧ (t.dieOf d).bootFail = 1) ∧
  (mapHolds d = true → image = none → (t.dieOf d).booted = false ∧ (t.dieOf d).bootFail = 7) ∧
  ∀ im, mapHolds d = true → image = some im →
    (∀ c, imageRefused im 1 (Config.keyDigest d) (s.dieOf d).svnfuse = some c → (t.dieOf d).booted = false ∧ (t.dieOf d).bootFail = c) ∧
    (imageRefused im 1 (Config.keyDigest d) (s.dieOf d).svnfuse = none →
      (t.dieOf d).booted = true ∧ (t.dieOf d).bootFail = 0 ∧ ∀ i, i < 4 → ReleasedCore t (3808 + 4 * d + i) im)

/-! ## Traps and control registers (22 R319 to R329) -/

/-- A trap or event delivered in the thread: EPC, ECAUSE, EVAL and INH written, the program counter at the handler, and no register or
predicate changed (22 R323). -/
def InHandler (s t : State) (id cause : Nat) (v : Word) (epc handler : BitVec 16) (async : Bool) : Prop :=
  let h := s.thread id
  let u := t.thread id
  u.epc = pcNorm epc ∧ u.ecause = BitVec.ofNat 64 (b2n async * 2 ^ 63 + cause) ∧ u.evalue = v ∧ u.inh = true ∧ u.pc = pcNorm handler ∧
  u.status = .ready ∧ u.regs = h.regs ∧ u.pw = h.pw ∧ u.depth = h.depth ∧ u.vers = h.vers ∧ u.level = h.level ∧
  u.sepc = h.sepc ∧ u.scause = h.scause ∧ u.sval = h.sval

/-- A trap or event delivered upward: the thread is held, SEPC, SCAUSE and SVAL are written, its own trap registers stay, and a record is on
its way to its supervisor (22 R325, R326). -/
def HeldUpward (s t : State) (id cause : Nat) (v : Word) (epc : BitVec 16) (async : Bool) : Prop :=
  let h := s.thread id
  let u := t.thread id
  u.status = .parked .held none ∧ u.sepc = pcNorm epc ∧ u.scause = BitVec.ofNat 64 (b2n async * 2 ^ 63 + cause) ∧ u.sval = v ∧
  u.epc = h.epc ∧ u.ecause = h.ecause ∧ u.evalue = h.evalue ∧ u.inh = h.inh ∧ u.pc = h.pc ∧ u.regs = h.regs ∧ u.pw = h.pw ∧
  ∀ k, supervisor s h.level h.ctx (id / 16) = some k → Due t s.clock.now (.trapQueueRecord k (trapRecord h id cause async (pcNorm epc) v))

/-- A thread outside loops and furrows that holds no claim of an instruction it waits in. -/
def Free (t : Thread) : Prop := t.iter = none ∧ t.col = none ∧ t.mwaitDst = .none ∧ ∀ since, t.status ≠ .parked .furrow since

/-- A synchronous trap taken: in the thread where its cause is delegated and no handler runs, else upward once its producers are done. -/
def TrapTaken (s t : State) (id cause : Nat) (v : Word) (epc : BitVec 16) : Prop :=
  (delegated (s.thread id).uctl cause = true ∧ (s.thread id).inh = false → InHandler s t id cause v epc (s.thread id).uih false) ∧
  (¬(delegated (s.thread id).uctl cause = true ∧ (s.thread id).inh = false) → drained (s.thread id) = true → HeldUpward s t id cause v epc false)

/-- WSP and WDEP: in a loop those of the issuing thread as they stand at the loop's depth, in a handler those of the iteration (04 R66, R74). -/
def windowWsp (s : State) : Word :=
  match loopNow s with
  | some (it, r) =>
    let o := owner s
    if it.inHandler then (current s).wsp else if r.snap.depth < o.wbase then o.wsp + BitVec.ofNat 64 (128 * (o.wbase - r.snap.depth)) else o.wsp
  | none => (current s).wsp

def windowDepth (s : State) : Nat :=
  match loopNow s with
  | some (it, r) => if it.inHandler then (current s).depth else r.snap.depth
  | none => (current s).depth

/-- Control registers and what they read as (22 R320). -/
def controlReads : List (Nat × (State → Word)) :=
  [(0x00, fun s => (current s).rm.setWidth 64), (0x01, fun s => (current s).fflags.setWidth 64), (0x02, fun s => (owner s).wlim),
   (0x03, windowWsp), (0x04, fun s => (owner s).xfid), (0x05, fun s => (owner s).uih.setWidth 64),
   (0x06, fun s => (owner s).epc.setWidth 64), (0x07, fun s => (owner s).ecause), (0x08, fun s => (owner s).evalue)] ++
  [(0x09, fun s => (s.coreOf (tid s / 16)).vt), (0x0C, fun s => (s.coreOf (tid s / 16)).bankfmt),
   (0x0F, fun s => BitVec.ofNat 64 (windowDepth s)), (0x10, fun s => (owner s).uctl),
   (0x11, fun s => BitVec.ofNat 64 (owner s).level.code), (0x13, fun s => (owner s).tsel), (0x18, fun s => (owner s).sepc.setWidth 64),
   (0x19, fun s => (owner s).scause), (0x1A, fun s => (owner s).sval)] ++
  [(0x12, fun s => let t := owner s
     BitVec.ofNat 64 (b2n t.inh * 256 + t.pend.xc.length * 8 + b2n t.pend.ic.isSome * 4 + b2n t.pend.io.isSome * 2 + b2n t.pend.bb.isSome)),
   (0x0D, fun s => let d := s.dieOf (dieOf (tid s / 16)); BitVec.ofNat 64 (b2n d.wsPend * 2 + b2n d.wsServing)),
   (0x0E, fun s => if (owner s).level = .u then 0 else (s.coreOf (tid s / 16)).clflags)]

/-- Control registers that a write changes: what they read as, and the bits of the value that they keep (22 R320 to R327). -/
def controlWrites : List (Nat × (State → Word) × (Word → Word)) :=
  [(0x00, fun s => (current s).rm.setWidth 64, fun v => v &&& 3), (0x01, fun s => (current s).fflags.setWidth 64, fun v => v &&& 31),
   (0x02, fun s => (owner s).wlim, id), (0x03, windowWsp, fun v => v &&& ~~~127),
   (0x05, fun s => (owner s).uih.setWidth 64, fun v => v &&& 0xFFFC), (0x06, fun s => (owner s).epc.setWidth 64, fun v => v &&& 0xFFFC)] ++
  [(0x10, fun s => (owner s).uctl, fun v => v &&& 0xF95FFDFE00000003), (0x13, fun s => (owner s).tsel, fun v => v &&& 0xFFFFFF000F),
   (0x18, fun s => (owner s).sepc.setWidth 64, fun v => v &&& 0xFFFC), (0x19, fun s => (owner s).scause, fun v => v &&& 0x80000000000000FF),
   (0x1A, fun s => (owner s).sval, id)]

/-- A record queue has room, and lies outside the code window within one bank (22 R326). -/
def queueTakes (q : RecQueue) (k bytes : Nat) : Bool := q.hasRoom && q.placed k bytes

end Sys2Proof.Safety
end

