-- ==== Sys2Proof/Certificates/Slice0/Obligations.lean ====
section
/-! DEFINITION. The statements for the provers, family by family. What they are stated in is Sys2Proof/Safety.lean. -/

open Sys2Proof Sys2Proof.Machine Sys2Proof.Safety

/-! ## Operands -/

/-- Reading s0 to s31: a full register gives its value; an empty one is a wait that does not count, or Empty Operand with the trap bit (03
R43, R44, 02 R22). -/
def Claim.ScalarSources : Prop :=
  ∀ (s : State) (c : Code) (x : Bool), c.toNat < 32 →
    let r := (current s).sreg c.toNat
    (r.full = true → Reads s c x r.val s) ∧
    (r.full = false → x = true → Stops (readSrc c x) s (.trap 0x03 0 [])) ∧
    (r.full = false → x = false → Stops (readSrc c x) s (.wait false []))

/-- Reading v0 to v7 at distances 0 to 7, outside a loop from the version file (04 R62), in an iteration as the table of 04 R67 gives; a wait for a
version counts (03 R44). -/
def Claim.VersionSources : Prop :=
  ∀ (s : State) (n k : Nat) (x : Bool), n < 8 → k < 8 →
    let c : Code := BitVec.ofNat 7 (32 + 8 * n + k)
    (loopNow s = none →
      let r := (current s).version n k
      (r.full = true → Reads s c x r.val s) ∧
      (r.full = false → Stops (readSrc c x) s (if x then .trap 0x03 0 [] else .wait true []))) ∧
    (∀ it r, loopNow s = some (it, r) →
      (r.r < k → Stops (readSrc c x) s (.trap 0x02 0 [])) ∧
      (k = 0 → FMap.get? it.written n = none → Stops (readSrc c x) s (.trap 0x03 0 [])) ∧
      (∀ v, k = 0 → FMap.get? it.written n = some v → v.full = true → Reads s c x v.val s) ∧
      (∀ v, k = 0 → FMap.get? it.written n = some v → v.full = false → Stops (readSrc c x) s (if x then .trap 0x03 0 [] else .wait true [])) ∧
      (0 < k → k ≤ r.r → it.idx < r.oldest + k →
        Reads s c x ((s.thread (tidOf (tid s / 16) it.owner)).version n (r.oldest + k - it.idx - 1)).val s) ∧
      (0 < k → k ≤ r.r → r.oldest + k ≤ it.idx →
        match olderVersion s it r n k with
        | some v => if v.full then Reads s c x v.val s else Stops (readSrc c x) s (if x then .trap 0x03 0 [] else .wait true [])
        | none => Stops (readSrc c x) s (if x then .trap 0x03 0 [] else .wait true [])))

/-- Popping a link queue, with and without forwarding, outside a loop or in the oldest iteration (04 R76, R77, 25 R370): the oldest word;
with an empty queue a counted wait, Empty Operand, or the error word of a sealed neighbour. A forwarding pop needs room on the opposite side, as a push
does: without it there is a counted wait, or Empty Operand; a sealed core there takes nothing. -/
def Claim.LinkSources : Prop :=
  ∀ (s : State) (d : Dir) (x : Bool), oldestOrOutside s →
    let k := s.clock.core
    let q := FMap.get [] (s.coreOf k).links d.idx
    let pop : Code := BitVec.ofNat 7 (96 + d.idx)
    let fwd : Code := BitVec.ofNat 7 (100 + d.idx)
    let opposite (f : State → Bool → Prop) (out : State) : Prop :=
      if (s.coreOf (neighbour k d.opp)).isSealed then f out false
      else if FMap.get 32 (s.coreOf k).credits d.opp.idx = 0 then Stops (readSrc fwd x) s (if x then .trap 0x03 0 [] else .wait true [])
      else f (spent d.opp out) true
    (∀ v rest, q = v :: rest → Reads s pop x v (popped d v rest false s)) ∧
    (∀ v rest, q = v :: rest → (current s).pushing d.opp = false →
      opposite (fun out on => Reads s fwd x v ((Eff.thr (tid s) fun t => { t with lent := t.lent ++ [(d.idx, v, on)] }).apply out))
        ((Eff.core k fun c => { c with links := FMap.set c.links d.idx rest }).apply s)) ∧
    (q = [] → (s.coreOf (neighbour k d)).isSealed = false →
      Stops (readSrc pop x) s (if x then .trap 0x03 0 [] else .wait true []) ∧ Stops (readSrc fwd x) s (if x then .trap 0x03 0 [] else .wait true [])) ∧
    (q = [] → (s.coreOf (neighbour k d)).isSealed = true →
      if x then Stops (readSrc pop x) s (.trap 0x0D 0 []) ∧ Stops (readSrc fwd x) s (.trap 0x0D 0 [])
      else Reads s pop x 0x0D0D0D0D0D0D0D0D (withSt true s) ∧
        opposite (fun out on => Reads s fwd x 0x0D0D0D0D0D0D0D0D (if on then sentTo d.opp 0x0D0D0D0D0D0D0D0D out else out)) (withSt true s))

/-- The operands that are never empty, and the codes that no source may hold (02 R22, 04 R66, 03 R49, R53, 10 R181). The predicate word may have to wait
for the status that a barrier of another package sends (12 R227). -/
def Claim.SpecialSources : Prop :=
  ∀ (s : State) (x : Bool),
    Reads s 104 x 0 s ∧
    Reads s 105 x (BitVec.ofNat 64 (itxValue (current s))) s ∧
    (loopNow s = none → Reads s 106 x (BitVec.ofNat 64 (current s).icnt) s) ∧
    (∀ it r, loopNow s = some (it, r) → Reads s 106 x (BitVec.ofNat 64 r.g) s) ∧
    Reads s 107 x (BitVec.ofNat 64 s.clock.slot) s ∧
    Reads s 108 x (BitVec.ofNat 64 (current s).cid) s ∧
    Reads s 109 x (s.coreOf s.clock.core).vt s ∧
    ((∀ p ∈ (current s).producers, p.2.away = none) → Reads s 110 x ((current s).pw.setWidth 64) s) ∧
    ∀ c : Code, 110 < c.toNat → Stops (readSrc c x) s (.trap 0x02 0 [])

/-- Writing a destination at once: a full register, a version outside a loop or not yet written in the iteration, a link with room, and
`zero`; an empty register waits, and a second write of a version in one iteration is Illegal Operand (03 R43, 04 R62, R68, R76). -/
def Claim.DestinationWrites : Prop :=
  ∀ (s : State) (c : Code) (v : Word),
    (c.toNat < 32 → ((current s).sreg c.toNat).full = true →
      Writes s c v ((Eff.reg (tid s) ((current s).place c.toNat) { val := v, full := true }).apply s)) ∧
    (c.toNat < 32 → ((current s).sreg c.toNat).full = false → Stops (writeDst c v) s (.wait false [])) ∧
    (∀ n, c.toNat = 32 + 8 * n → n < 8 → (current s).iter = none →
      (((current s).version n 0).full = true → Writes s c v (versionPut n v s)) ∧
      (((current s).version n 0).full = false → Stops (writeDst c v) s (.wait false []))) ∧
    (∀ n it, c.toNat = 32 + 8 * n → n < 8 → (current s).iter = some it →
      (FMap.get? it.written n = none → Writes s c v (versionPut n v s)) ∧
      (∀ r, FMap.get? it.written n = some r → Stops (writeDst c v) s (.trap 0x02 0 []))) ∧
    (∀ d : Dir, c.toNat = 96 + d.idx → oldestOrOutside s → (current s).pushing d = false →
      let nb := neighbour (tid s / 16) d
      ((s.coreOf nb).isSealed = true → Writes s c v s) ∧
      ((s.coreOf nb).isSealed = false → FMap.get 32 (s.coreOf (tid s / 16)).credits d.idx = 0 → Stops (writeDst c v) s (.wait true [])) ∧
      ((s.coreOf nb).isSealed = false → FMap.get 32 (s.coreOf (tid s / 16)).credits d.idx ≠ 0 → Writes s c v (pushed d v s))) ∧
    (c = 104 → Writes s c v s)

/-- A long-latency producer marks its destination empty and its value comes after its delay; a producer into `zero` marks nothing (03 R42). -/
def Claim.ProducerIssue : Prop :=
  ∀ (s : State) (c : Code) (v : Word) (delay access : Nat),
    (c.toNat < 32 → ((current s).sreg c.toNat).full = true → s.occupied (tid s) = true →
      ∃ s1, Owes s c v delay access s1 ∧
        (current s1).sreg c.toNat = { val := ((current s).sreg c.toNat).val, full := false } ∧
        FMap.get? (current s1).producers (current s).nextProducer =
          some { dest := .reg ((current s).place c.toNat), value := v, access := access, isFloat := false, flags := 0 } ∧
        s1.clock.events = insertDue ⟨s.clock.now + delay, s.clock.seq,
          .producerResultArrival (tid s / 16) (tid s % 16) (current s).nextProducer⟩ s.clock.events ∧
        s1.mem = s.mem ∧ s1.cores = s.cores) ∧
    (c = 104 → Owes s c v delay 0 s)

/-- The result of a producer arrives: it is written to its register, which becomes full, and the producer is no longer outstanding (03 R42). -/
def Claim.ProducerArrival : Prop :=
  ∀ (s : State) (k t p n : Nat) (v : Word) (a : Nat), t < 16 →
    FMap.get? (s.thread (tidOf k t)).producers p = some { dest := .reg n, value := v, access := a, isFloat := false, flags := 0 } →
    (∀ cause value epc async since, (s.thread (tidOf k t)).status ≠ .parked (.upward cause value epc async) since) →
    (∀ it, (s.thread (tidOf k t)).iter = some it → it.trapped = none) →
    ∃ s1, exec (.producerResultArrival k t p) s = .next s1 ∧
      FMap.get? (s1.thread (tidOf k t)).regs n = some { val := v, full := true } ∧
      (s1.thread (tidOf k t)).producers = FMap.erase (s.thread (tidOf k t)).producers p ∧
      s1.mem = s.mem ∧ s1.cores = s.cores ∧ s1.clock = s.clock ∧
      ∀ id, id ≠ tidOf k t → s1.thread id = s.thread id

/-! ## Integer arithmetic and logic -/

/-- Logic, shifts, high products, minimum and maximum, and extensions give d := f(a, b), sources read in the order a, then b, for every
operand form (11 R190, R192 to R196). -/
def Claim.BinaryResults : Prop :=
  ∀ p ∈ binaryForms, ∀ (s s1 s2 s3 : State) (d a b : Code) (x y : Bool) (va vb : Word),
    admits { srcs := [a, b], dst := some d } s = true → Reads s a x va s1 → Reads s1 b y vb s2 → Writes s2 d (p.2 va vb) s3 →
      exec (p.1 d a b x y) s = .next (advance s3)

/-- Counts and byte swap (11 R195, R196). -/
def Claim.UnaryResults : Prop :=
  ∀ p ∈ unaryForms, ∀ (s s1 s2 : State) (d a : Code) (x : Bool) (va : Word),
    admits { srcs := [a], dst := some d } s = true → Reads s a x va s1 → Writes s1 d (p.2 va) s2 →
      exec (p.1 d a x) s = .next (advance s2)

/-- Add, subtract and multiply record C and V on every execution; ADDC and SUBB use C as it stood before (11 R191, R192, R194). -/
def Claim.RecordedResults : Prop :=
  ∀ p ∈ recordedForms, ∀ (s s1 s2 s3 : State) (d a b : Code) (x y : Bool) (va vb : Word),
    let r := p.2 va vb ((current s2).pw.getLsbD 16)
    admits { srcs := [a, b], dst := some d } s = true → Reads s a x va s1 → Reads s1 b y vb s2 → Writes s2 d r.1 s3 →
      exec (p.1 d a b x y) s = .next (advance (withCV r.2.1 r.2.2 s3))

/-- Divide and remainder are producers whose value arrives 40 cycles after issue; a divisor of 0 gives all ones and the dividend (11 R194). -/
def Claim.DivideResults : Prop :=
  ∀ p ∈ divideForms, ∀ (s s1 s2 s3 : State) (d a b : Code) (x y : Bool) (va vb : Word),
    admits { srcs := [a, b], dst := some d } s = true → Reads s a x va s1 → Reads s1 b y vb s2 → Owes s2 d (p.2 va vb) 40 0 s3 →
      exec (p.1 d a b x y) s = .next (advance s3)

/-- The immediate forms: the register form's effect with the sign-extended immediate, or with what a bound IMM word puts above the field, for
b; an empty source makes them wait, not counted (11 R199, 10 R185). -/
def Claim.ImmediateResults : Prop :=
  ∀ p ∈ immediateForms, ∀ (s s1 s2 : State) (d a : Code) (i : BitVec 12) (va : Word),
    admits { ext := true, srcs := [a], dst := some d } s = true →
    (Reads s a false va s1 → Writes s1 d (p.2 va (immediateOf (current s1).bound i)) s2 → exec (p.1 d a i) s = .next (advance s2)) ∧
    (a.toNat < 32 → ((current s).sreg a.toNat).full = false → exec (p.1 d a i) s = event (enterWait false []) s)

/-- ADDI and MULI record C and V as ADD and MUL do; an empty source makes them wait (11 R199, R191). -/
def Claim.ImmediateRecords : Prop :=
  ∀ p ∈ immediateRecordedForms, ∀ (s s1 s2 : State) (d a : Code) (i : BitVec 12) (va : Word),
    let r := p.2 va (immediateOf (current s1).bound i)
    admits { ext := true, srcs := [a], dst := some d } s = true →
    (Reads s a false va s1 → Writes s1 d r.1 s2 → exec (p.1 d a i) s = .next (advance (withCV r.2.1 r.2.2 s2))) ∧
    (a.toNat < 32 → ((current s).sreg a.toNat).full = false → exec (p.1 d a i) s = event (enterWait false []) s)

/-- The shifts by a constant (11 R200). -/
def Claim.ShiftResults : Prop :=
  ∀ p ∈ shiftForms, ∀ (s s1 s2 : State) (d a : Code) (n : BitVec 6) (va : Word),
    admits { srcs := [a], dst := some d } s = true → Reads s a false va s1 → Writes s1 d (p.2 va n.toNat) s2 →
      exec (p.1 d a n) s = .next (advance s2)

/-- CMOV, PWSET, LDI and LDIH (11 R197, R198, R201). -/
def Claim.MoveResults : Prop :=
  ∀ (s s1 s2 s3 s4 : State) (d a b : Code) (x y : Bool) (va vb old : Word) (i : BitVec 19),
    (admits { srcs := [a, b], dst := some d, readsDst := true } s = true → Reads s a x va s1 → Reads s1 b y vb s2 → Reads s2 d false old s3 →
      Writes s3 d (if vb ≠ 0 then va else old) s4 → exec (.cmov d a b x y) s = .next (advance s4)) ∧
    (admits { srcs := [a, b], dst := some d } s = true → Reads s a x va s1 → Reads s1 b y vb s2 →
      Writes s2 d ((current s2).pw.setWidth 64) s3 →
      let mask : BitVec 32 := vb.setWidth 32 &&& 0x000FFFFE#32
      exec (.pwset d a b x y) s =
        .next (advance (withPw (((current s2).pw &&& ~~~mask) ||| (va.setWidth 32 &&& mask)) s3))) ∧
    (admits { ext := true, dst := some d } s = true → Writes s d (immediateOf (current s).bound i) s1 →
      exec (.ldi d i) s = .next (advance s1)) ∧
    (admits { ext := true, dst := some d, readsDst := true } s = true → Reads s d false old s1 →
      Writes s1 d ((immediateOf (current s1).bound i).extractLsb' 0 32 ++ old.extractLsb' 0 32) s2 →
      exec (.ldih d i) s = .next (advance s2))

/-! ## Control flow -/

/-- SK and SKI: sources read after the nesting checks, the condition to its predicate bit, and the next words annulled when it fails (11
R202, 10 R182). -/
def Claim.SkipResults : Prop :=
  ∀ (s s1 s2 : State) (a b : Code) (cc : BitVec 4) (k : BitVec 2) (p : BitVec 4) (i : BitVec 12) (x y : Bool) (va vb : Word)
    (f : Word → Word → Bool), conditions[cc.toNat]? = some f → skipFits s k.toNat →
    (admits { srcs := [a, b], literals := cc.toNat < 12 } s = true → Reads s a x va s1 → Reads s1 b y vb s2 →
      exec (.sk a b cc k p x y) s = .next (advance (annulled (f va vb) k.toNat (withPredicate p.toNat (f va vb) s2)))) ∧
    (admits { ext := true, srcs := [a], literals := cc.toNat < 12 } s = true → Reads s a x va s1 →
      exec (.ski a i cc k x) s = .next (advance (annulled (f va (immediateOf (current s1).bound i)) k.toNat s1)))

/-- A compare-skip whose range takes in the last word of a loop's body, or FEND in a furrow slot, is Illegal Nesting before any pop (11
R202). -/
def Claim.SkipNesting : Prop :=
  ∀ (s : State) (a b : Code) (cc : BitVec 4) (k : BitVec 2) (p : BitVec 4) (i : BitVec 12) (x y : Bool),
    (∃ it r, loopNow s = some (it, r) ∧ within (current s).pc (r.exit - 4#16) k.toNat = true) ∨
    (loopNow s = none ∧ ∃ c, (current s).col = some c ∧
      ∃ n, n < k.toNat ∧ Memory.readList s.mem (lsKey (if c.inHandler then tid s / 16 else c.head)
        ((current s).pc + BitVec.ofNat 16 (4 * (n + 1))).toNat) 4 = leBytes 4 0x78000006) →
    (admits { srcs := [a, b], literals := cc.toNat < 12 } s = true →
      exec (.sk a b cc k p x y) s = trapOr (takeTrap (tid s) 0x13 0 (current s).faultPc) s) ∧
    (admits { ext := true, srcs := [a], literals := cc.toNat < 12 } s = true →
      exec (.ski a i cc k x) s = trapOr (takeTrap (tid s) 0x13 0 (current s).faultPc) s)

/-- BR, BRP and JR: where they go, what JR links, and that the copy of a branch in another column has no effect (11 R204, R205, R208). -/
def Claim.BranchResults : Prop :=
  ∀ (s s1 s2 : State) (d a : Code) (n : BitVec 4) (sense : Bool) (i : BitVec 26) (j : BitVec 21) (x : Bool) (v : Word),
    (isCopy s = true →
      (admits {} s = true → exec (.br i) s = .next (advance s)) ∧
      (admits {} s = true → exec (.brp sense n j) s = .next (advance s)) ∧
      (admits { srcs := [a], dst := some d } s = true → exec (.jr d a x) s = .next (advance s))) ∧
    (isCopy s = false →
      (admits {} s = true → staysInBody s (branchTarget s i) = true → exec (.br i) s = .next (jump (branchTarget s i) s)) ∧
      (admits {} s = true → (current s).pw.getLsbD n.toNat = !sense → staysInBody s (branchTarget s j) = true →
        exec (.brp sense n j) s = .next (jump (branchTarget s j) s)) ∧
      (admits {} s = true → (current s).pw.getLsbD n.toNat = sense → staysInBody s (branchTarget s j) = true →
        exec (.brp sense n j) s = .next (advance s)) ∧
      (admits { srcs := [a], dst := some d } s = true → Reads s a x v s1 → isOffset v = true → staysInBody s1 (v.setWidth 16) = true →
        Writes s1 d (((current s1).pc + 4#16).setWidth 64) s2 → exec (.jr d a x) s = .next (jump (v.setWidth 16) s2)))

/-- A branch at the loop's entry depth whose target lies outside the body is Illegal Nesting, taken or not; a JR to a value that is no offset is
Illegal Operand; CALL and RET in a furrow, and RET at the loop's entry depth, are Illegal Nesting; RET at depth 0 elsewhere is Illegal Instruction (11
R205, R207, R208, 04 R72, R82). -/
def Claim.BranchTraps : Prop :=
  ∀ (s s1 : State) (d a : Code) (n : BitVec 4) (sense : Bool) (i : BitVec 26) (j : BitVec 21) (x : Bool) (v : Word), isCopy s = false →
    (admits {} s = true → staysInBody s (branchTarget s i) = false →
      exec (.br i) s = trapOr (takeTrap (tid s) 0x13 0 (current s).faultPc) s) ∧
    (admits {} s = true → staysInBody s (branchTarget s j) = false →
      exec (.brp sense n j) s = trapOr (takeTrap (tid s) 0x13 0 (current s).faultPc) s) ∧
    (admits { srcs := [a], dst := some d } s = true → Reads s a x v s1 → isOffset v = false →
      exec (.jr d a x) s = trapOr (takeTrap (tid s) 0x02 0 (current s).faultPc) s) ∧
    (admits { srcs := [a], dst := some d } s = true → Reads s a x v s1 → isOffset v = true → staysInBody s1 (v.setWidth 16) = false →
      exec (.jr d a x) s = trapOr (takeTrap (tid s) 0x13 0 (current s).faultPc) s) ∧
    (admits {} s = true → (current s).col.isSome = true →
      exec (.call i) s = trapOr (takeTrap (tid s) 0x13 0 (current s).faultPc) s ∧ exec .ret s = trapOr (takeTrap (tid s) 0x13 0 (current s).faultPc) s) ∧
    (∀ it r, admits {} s = true → loopNow s = some (it, r) → (current s).depth = r.snap.depth →
      exec .ret s = trapOr (takeTrap (tid s) 0x13 0 (current s).faultPc) s) ∧
    (admits {} s = true → (current s).col = none → loopNow s = none → (current s).depth = 0 →
      exec .ret s = trapOr (takeTrap (tid s) 0x01 0 (current s).faultPc) s)

/-- CALL writes the return address, rotates the window and adds 1 to the depth: the caller's s24 to s31 are the callee's s8 to s15, and its
globals stay (11 R206, 03 R46). -/
def Claim.CallResult : Prop :=
  ∀ (s : State) (i : BitVec 26), admits {} s = true → s.occupied (tid s) = true → (current s).col = none → (current s).depth ≠ 2 ^ 32 - 1 →
    (current s).resident < 4 → ((current s).sreg 31).full = true →
    ∃ t, exec (.call i) s = .next t ∧
      (current t).pc = pcNorm (branchTarget s i) ∧
      (current t).depth = (current s).depth + 1 ∧
      (current t).sreg 15 = { val := ((current s).pc + 4#16).setWidth 64, full := true } ∧
      (∀ c, c < 7 → (current t).sreg (8 + c) = (current s).sreg (24 + c)) ∧
      (∀ c, c < 8 → (current t).sreg c = (current s).sreg c) ∧
      (∀ c, 16 ≤ c → c < 32 → ((current t).sreg c).full = true) ∧
      (current t).pw = (current s).pw ∧
      t.mem = s.mem ∧ ∀ id, id ≠ tid s → t.thread id = s.thread id

/-- RET returns through s15 with the window rotated back; in a spawn window it sets IN (11 R207, 03 R46, R55). -/
def Claim.ReturnResult : Prop :=
  ∀ (s : State), admits {} s = true → s.occupied (tid s) = true → (current s).col = none → (current s).wbase < (current s).depth →
    (∀ it r, loopNow s = some (it, r) → (current s).depth ≠ r.snap.depth) →
    ((current s).sreg 15).full = true → isOffset ((current s).sreg 15).val = true →
    ∃ t, exec .ret s = .next t ∧
      (current t).pc = pcNorm (((current s).sreg 15).val.setWidth 16) ∧
      (current t).depth = (current s).depth - 1 ∧
      (∀ c, c < 8 → (current t).sreg (24 + c) = (current s).sreg (8 + c)) ∧
      (∀ c, c < 8 → (current t).sreg c = (current s).sreg c) ∧
      (current t).pw = (if (current s).spawnWindows.contains (current s).depth then pwNorm (setBit (current s).pw 19 true) else (current s).pw) ∧
      t.mem = s.mem ∧ ∀ id, id ≠ tid s → t.thread id = s.thread id

/-- NOP has no effect; IMM and RLX bind to the following word; SCHED changes no register, predicate, memory or other thread (11 R209,
R210, 10 R184). -/
def Claim.HintResults : Prop :=
  ∀ (s : State) (p : BitVec 22) (scope : BitVec 3) (mark : BitVec 2), admits {} s = true →
    exec .nop s = .next (advance s) ∧
    exec (.imm p) s = .next (goes (.imm p) ((current s).pc + 4#16) s) ∧
    exec (.rlx scope mark) s = .next (goes (.rlx scope mark) ((current s).pc + 4#16) s) ∧
    ∃ t, exec (.sched p) s = .next t ∧ (current t).regs = (current s).regs ∧ (current t).pw = (current s).pw ∧ t.mem = s.mem ∧
      (current t).pc = (current (advance s)).pc ∧ ∀ id, id ≠ tid s → t.thread id = s.thread id

/-! ## Overlapped loops -/

/-- LOOP re-bases every version; with a trip count of 0 it goes on at the exit; otherwise a ring set is bound and iterations 0 to g - 1
begin at the first word of the body, on the issuing slot and the lowest empty slots (13 R230, 04 R64, R66). -/
def Claim.LoopStarts : Prop :=
  ∀ (s : State) (q r : BitVec 3) (a : Code) (o : BitVec 12) (ri : Nat),
    let me := current s
    let k := tid s / 16
    let exit := me.pc + BitVec.ofNat 16 (4 * o.toNat)
    let g := min (q.toNat + 1) (min (8 - r.toNat) (1 + (openSlots s k).length))
    admits { literals := 2 ≤ o.toNat && me.pc.toNat + 4 * o.toNat ≤ 0xFFFC } s = true → s.clock.slot < 16 → s.occupied (tid s) = true →
    a.toNat < 32 → (me.sreg a.toNat).full = true → me.iter = none → me.col = none → me.producers = [] →
    loaded s k me.sid (exit - 4#16) = true → Memory.readList s.mem (lsKey k (exit - 4#16).toNat) 4 = leBytes 4 0x54000007 →
    ringFree s k = some ri →
    ∃ t, exec (.loop q r a o) s = .next t ∧
      (∀ n, n < 8 → ∀ j, j < 8 → (current t).version n j = me.version n 0) ∧ (current t).icnt = g ∧ t.mem = s.mem ∧
      ((me.sreg a.toNat).val = 0 → (current t).pc = pcNorm exit ∧ (current t).iter = none ∧ (t.coreOf k).rings = (s.coreOf k).rings) ∧
      ((me.sreg a.toNat).val ≠ 0 →
        (∃ ring, FMap.get? (t.coreOf k).rings ri = some ring ∧ ring.n = (me.sreg a.toNat).val.toNat ∧ ring.g = g ∧ ring.r = r.toNat ∧
          ring.oldest = 0 ∧ ring.exit = exit ∧ ring.body = me.pc + 4#16 ∧ ring.owner = s.clock.slot) ∧
        ∀ j, j < min g (me.sreg a.toNat).val.toNat →
          let id := tidOf k ((s.clock.slot :: openSlots s k).getD j 0)
          (t.thread id).iter = some { ring := ri, owner := s.clock.slot, idx := j } ∧ (t.thread id).pc = pcNorm (me.pc + 4#16) ∧
          (t.thread id).status = .ready ∧ (t.thread id).depth = me.depth ∧ (t.thread id).pw = pwNorm me.pw ∧
          ∀ c, c < 32 → (t.thread id).sreg c = me.sreg c)

/-- IEND and ILEAVE retire the oldest iteration: every version moves one distance on, and distance 0 holds what the iteration wrote, or what
was there. After the last iteration, or ILEAVE, the thread goes on at the exit with the loop's snapshot, and the ring set is free (13 R231,
04 R69, R73). -/
def Claim.IterationEnds : Prop :=
  ∀ (s : State) (it : IterCtx) (r : Ring) (leave : Bool),
    let k := tid s / 16
    let oid := tidOf k it.owner
    let before := s.thread oid
    admits {} s = true → s.clock.slot < 16 → it.owner < 16 → s.occupied (tid s) = true → s.occupied oid = true →
    (current s).col = none → loopNow s = some (it, r) → r.owner = it.owner →
    (current s).depth = r.snap.depth → it.idx = r.oldest → (current s).producers = [] → it.buf = [] →
    (∀ n ∈ r.slots, n < 16 ∧ Unregistered s (tidOf k n)) → (∀ n, n < 16 → ∀ o, (s.thread (tidOf k n)).iter = some o → o.trapped = none) →
    (∀ n, n < 16 → ∀ since, (s.thread (tidOf k n)).status ≠ .parked .ringSet since) →
    ∃ t, exec (if leave then .ileave else .iend) s = .next t ∧
      (∀ n, n < 8 → (t.thread oid).version n 0 = (FMap.get? it.written n).getD (before.version n 0)) ∧
      (∀ n, n < 8 → ∀ j, j < 7 → (t.thread oid).version n (j + 1) = before.version n j) ∧
      t.mem = s.mem ∧
      (leave = true ∨ it.idx + 1 = r.n →
        (t.thread oid).pc = pcNorm r.exit ∧ (t.thread oid).iter = none ∧ FMap.get? (t.coreOf k).rings it.ring = none ∧
        (t.thread oid).fflags = (r.snap.fflags ||| r.flags) ||| (current s).fflags ∧ (t.thread oid).depth = r.snap.depth) ∧
      (leave = false → it.idx + 1 ≠ r.n →
        (∃ r', FMap.get? (t.coreOf k).rings it.ring = some r' ∧ r'.oldest = it.idx + 1 ∧ r'.flags = r.flags ||| (current s).fflags) ∧
        (it.idx + r.g < r.n → r.stopped = false →
          (current t).iter = some { ring := it.ring, owner := r.owner, idx := it.idx + r.g } ∧ (current t).pc = pcNorm r.body))

/-- IEND and ILEAVE outside an iteration, or in a furrow slot, are Illegal Nesting (13 R231). -/
def Claim.IterationNesting : Prop :=
  ∀ (s : State), admits {} s = true → ((current s).col.isSome = true ∨ loopNow s = none) →
    exec .iend s = trapOr (takeTrap (tid s) 0x13 0 (current s).faultPc) s ∧
    exec .ileave s = trapOr (takeTrap (tid s) 0x13 0 (current s).faultPc) s

/-! ## Threads -/

/-- YIELD keeps its thread from issuing until its slot's own position next comes round, and changes nothing else; in a furrow it has no
further effect (13 R236). -/
def Claim.YieldResult : Prop :=
  ∀ (s : State), admits {} s = true →
    ((current s).col.isSome = true → exec .yield s = .next (advance s)) ∧
    ((current s).col = none → s.clock.slot < 16 →
      ∃ c, isPosition s.clock.now s.clock.slot c ∧ exec .yield s = .next (advance ((Eff.thr (tid s) fun t => { t with yieldTo := c }).apply s)))

/-- DONE outside loops, furrows and spawn windows empties its slot once its accesses are complete; a thread whose task the scheduler does not
hold touches no memory. In a spawn window it returns as RET does (13 R237, 03 R55). -/
def Claim.DoneResult : Prop :=
  ∀ (s : State), admits {} s = true → (current s).iter = none → (current s).col = none →
    ((current s).spawnWindows.contains (current s).depth = false → accessesDone s → FMap.get? s.pkg.tasks (current s).tcbKey = none →
      (current s).monitors = [] → Unregistered s (tid s) →
      ∃ t, exec .done s = .next t ∧ t.occupied (tid s) = false ∧ t.mem = s.mem ∧ OthersSame (tid s) s t) ∧
    ((current s).spawnWindows.contains (current s).depth = true → exec .done s = exec .ret s)

/-- GRAFT to the thread's own core goes on at the next word with all state kept; to another core of the package the packet leaves with the
next word's offset and the thread parks in its slot (13 R235, 03 R57, R58). -/
def Claim.GraftResult : Prop :=
  ∀ (s s1 : State) (a : Code) (x : Bool) (v : Word) (c : Nat), admits { srcs := [a] } s = true →
    (current s).iter = none → (current s).col = none → (current s).twin = none → Reads s a x v s1 → Names s1 v c →
    s1.clock.slot < 16 → levelAllows (current s1).level s1.clock.core c = true →
    (c = s1.clock.core → drained (current s1) = true → exec (.graft a x) s = .next (advance s1)) ∧
    (c ≠ s1.clock.core → drained (current s1) = true → (s1.coreOf c).isSealed = false → (current s1).monitors = [] →
      s1.occupied (tid s1) = true →
      ∃ t, exec (.graft a x) s = .next t ∧ (current t).status = .parked .graft none ∧ (current t).pc = (current s1).pc ∧
        Due t (s1.clock.now + Config.transit s1.clock.core c)
          (.graftArrival c (graftPacket (current s1) (tid s1) ((current s1).pc + 4#16))) ∧
        t.mem = s1.mem ∧ OthersSame (tid s1) s1 t)

/-- SPAWN sends its packet with the child's offset and the spawner's s24 to s27, and parks (13 R233, 03 R55). -/
def Claim.SpawnResult : Prop :=
  ∀ (s s1 s2 : State) (a b : Code) (x y : Bool) (va vb : Word) (c : Nat), admits { srcs := [a, b] } s = true →
    (current s).mwaitToken ≠ 2 → (current s).col = none → (owner s).twin = none → Reads s a x va s1 → Reads s1 b y vb s2 → Names s2 va c →
    levelAllows (owner s2).level s2.clock.core c = true → isOffset vb = true → oldestOrOutside s2 → Performs awaitAll s2 () s2 →
    (∀ i, i < 8 → ((current s2).sreg (24 + i)).full = true) → s2.occupied (tid s2) = true → s2.clock.slot < 16 →
    ∃ t p, exec (.spawn a b x y) s = .next t ∧ (current t).status = .parked .spawn none ∧
      Due t (s2.clock.now + Config.transit s2.clock.core c) (.spawnPacketArrival c p) ∧
      p.pc = vb.setWidth 16 ∧ p.args = [((current s2).sreg 24).val, ((current s2).sreg 25).val, ((current s2).sreg 26).val, ((current s2).sreg 27).val] ∧
      p.level = (owner s2).level.code ∧ p.ctx = (owner s2).ctx ∧ p.tcb = (owner s2).tcb ∧ p.fromCore = s2.clock.core ∧ p.fromSlot = s2.clock.slot ∧
      t.mem = s2.mem ∧ OthersSame (tid s2) s2 t

/-- WFLD reads a field of a work identifier by the layout of the thread's seed; an iteration field reads the iteration (13 R238, 03 R50). -/
def Claim.WorkFieldResult : Prop :=
  ∀ (s s1 s2 s3 : State) (d a b : Code) (x y : Bool) (va vb : Word) (f : WorkField) (before after : List WorkField),
    admits { srcs := [a, b], dst := some d } s = true → Reads s a x va s1 → Reads s1 b y vb s2 →
    (owner s2).sid ≠ 0 → ((s2.coreOf s2.clock.core).sids.any fun p => p.2 = (owner s2).sid) = true →
    FMap.get [] s2.pkg.layoutOf (owner s2).sid = before ++ f :: after → vb.toNat = before.length →
    Writes s2 d (BitVec.ofNat 64 (if f.grain = 5 then (((current s2).iter.map (·.idx)).getD 0) % 2 ^ f.width
      else va.toNat / 2 ^ (after.map (·.width)).sum % 2 ^ f.width)) s3 →
    exec (.wfld d a b x y) s = .next (advance s3)

/-- A spawned child starts in the lowest open slot with its arguments in s8 to s11 at depth 0, at the spawner's level, and the spawner is
told; without an open slot the spawn is refused (13 R234, 03 R55). -/
def Claim.SpawnArrival : Prop :=
  ∀ (s : State) (k : Nat) (p : SpawnPacket), p.args.length = 4 → s.occupied (tidOf p.fromCore p.fromSlot) = true →
    FMap.get? s.pkg.tasks p.tcbKey = none → ctxValid s (dieOf k) p.ctx = true →
    (∀ slot, takingSlot s k p.ctx = some slot → p.pc = pcNorm p.pc →
      ∃ t, exec (.spawnPacketArrival k p) s = .next t ∧
        let c := t.thread (tidOf k slot)
        c.status = .ready ∧ c.pc = p.pc ∧ c.depth = 0 ∧ c.level = Level.ofCode p.level ∧ c.ctx = p.ctx ∧ c.pw = 1 ∧
        (∀ i, i < 4 → c.sreg (8 + i) = { val := p.args.getD i 0, full := true }) ∧
        (∀ i, i < 32 → ¬(8 ≤ i ∧ i < 12) → c.sreg i = { val := 0, full := true }) ∧
        Due t (s.clock.now + Config.transit k p.fromCore) (.spawnReply p.fromCore p.fromSlot true)) ∧
    (takingSlot s k p.ctx = none →
      ∃ t, exec (.spawnPacketArrival k p) s = .next t ∧ t.threads = s.threads ∧
        Due t (s.clock.now + Config.transit k p.fromCore) (.spawnReply p.fromCore p.fromSlot false))

/-- The answer to a SPAWN: accepted, s31 has the return address, IN is 0, and the spawner goes on; refused, it executes its word again as a
call (03 R55). -/
def Claim.SpawnReply : Prop :=
  ∀ (s : State) (k t : Nat) (since : Option Nat), let id := tidOf k t; let h := s.thread id
    s.occupied id = true → h.status = .parked .spawn since →
    (∃ u, exec (.spawnReply k t true) s = .next u ∧ (u.thread id).sreg 31 = { val := (h.pc + 4#16).setWidth 64, full := true } ∧
      (u.thread id).pw = pwNorm (setBit h.pw 19 false) ∧ (u.thread id).pc = pcNorm (h.pc + 4#16) ∧ (u.thread id).status = .ready ∧
      u.mem = s.mem ∧ OthersSame id s u) ∧
    (∃ u, exec (.spawnReply k t false) s = .next u ∧ (u.thread id).status = .ready ∧ (u.thread id).pc = h.pc ∧ (u.thread id).regs = h.regs ∧
      u.mem = s.mem ∧ OthersSame id s u)

/-- A graft packet is placed at once in the lowest empty slot when no packet is queued; otherwise it joins a queue of eight; a full queue
refuses it, and it comes again one rotation later (03 R58). -/
def Claim.GraftArrival : Prop :=
  ∀ (s : State) (k : Nat) (p : GraftPacket), s.occupied (tidOf p.fromCore p.fromSlot) = true → (s.coreOf k).isSealed = false →
    leaving s p.ctx k = false → ctxValid s (dieOf k) p.ctx = true → p.uid ≠ 0 → p.regs.length = 10 →
    (∀ slot, (s.coreOf k).graftq = [] → (emptySlots s k).head? = some slot →
      ∃ t, exec (.graftArrival k p) s = .next t ∧ Landed (t.thread (tidOf k slot)) p ∧
        Due t s.clock.now (.graftAccepted p.fromCore p.fromSlot k) ∧ t.mem = s.mem) ∧
    ((s.coreOf k).graftq ≠ [] ∨ emptySlots s k = [] → (s.coreOf k).graftq.length < 8 →
      ∃ t, exec (.graftArrival k p) s = .next t ∧ (t.coreOf k).graftq = (s.coreOf k).graftq ++ [p] ∧
        Due t s.clock.now (.graftAccepted p.fromCore p.fromSlot k) ∧ t.threads = s.threads ∧ t.mem = s.mem) ∧
    (8 ≤ (s.coreOf k).graftq.length →
      ∃ t, exec (.graftArrival k p) s = .next t ∧ Due t (s.clock.now + 16) (.graftResend p.fromCore p.fromSlot) ∧
        t.threads = s.threads ∧ (t.coreOf k).graftq = (s.coreOf k).graftq ∧ t.mem = s.mem)

/-- The oldest queued graft takes an empty slot; the origin's slot empties on acceptance; a refused packet is sent again (03 R58). -/
def Claim.GraftHandshake : Prop :=
  ∀ (s : State) (k t dst : Nat) (since : Option Nat),
    (∀ p q slot, (s.coreOf k).graftq = p :: q → (emptySlots s k).head? = some slot → ctxValid s (dieOf k) p.ctx = true → p.uid ≠ 0 →
      p.regs.length = 10 →
      ∃ u, exec (.graftQueuePlace k) s = .next u ∧ Landed (u.thread (tidOf k slot)) p ∧ (u.coreOf k).graftq = q ∧ u.mem = s.mem) ∧
    ((s.thread (tidOf k t)).status = .parked .graft since → (s.thread (tidOf k t)).pend.xc = [] →
      ∃ u, exec (.graftAccepted k t dst) s = .next u ∧ u.occupied (tidOf k t) = false ∧ OthersSame (tidOf k t) s u ∧ u.mem = s.mem) ∧
    ((s.thread (tidOf k t)).status = .parked .graft since → (s.thread (tidOf k t)).graftTo < 2 ^ 13 →
      ∃ u, exec (.graftResend k t) s = .next u ∧ u.threads = s.threads ∧ u.mem = s.mem ∧
        Due u s.clock.now (.graftArrival (s.thread (tidOf k t)).graftTo
          (graftPacket (s.thread (tidOf k t)) (tidOf k t) (s.thread (tidOf k t)).graftPc)))

/-- A seed packet that its core may take starts a thread with the state of R52, in the slot it is bound to or the lowest open one; with no
such slot it waits at its core (03 R51, R52, 02 R38). -/
def Claim.SeedArrival : Prop :=
  ∀ (s s1 : State) (k : Nat) (p : SeedPacket) (im : SeedImage), takesSeed s k p.ctx = true → FMap.get? s.pkg.seeds p.image = some im →
    (if p.carries then Performs (placeSeed k p.sid im) s () s1 else s1 = s) → p.twin = none → FMap.get? s1.pkg.tasks p.tcbKey = none →
    ctxValid s1 (dieOf k) p.ctx = true →
    (∀ slot, (match p.slot with
      | some t => if (openSlots s1 k).contains t then some t else none
      | none => (openSlots s1 k).head?) = some slot →
      ∃ t, exec (.seedPacketArrival k p) s = .next t ∧ Started s k slot (t.thread (tidOf k slot)) p im.entry ∧ t.mem = s1.mem) ∧
    ((match p.slot with
      | some t => if (openSlots s1 k).contains t then some t else none
      | none => (openSlots s1 k).head?) = none →
      ∃ t, exec (.seedPacketArrival k p) s = .next t ∧ Due t (s1.clock.now + 1) (.seedPacketArrival k { p with carries := false }) ∧
        t.threads = s1.threads ∧ t.mem = s1.mem)

/-- A seed packet that its core cannot take goes back to its task's waiting set; a page-in marks its frame with the seed (01 R16, R17, 03
R54). -/
def Claim.SeedHandling : Prop :=
  ∀ (s : State) (k : Nat) (p : SeedPacket) (t : Task) (f : FrameText),
    (FMap.get? s.pkg.tasks p.tcbKey = some t →
      ∃ u t', exec (.seedPacketReturn k p) s = .next u ∧ FMap.get? u.pkg.tasks p.tcbKey = some t' ∧
        t'.returned = t.returned ++ [(p.wid.toNat, p.twin.getD 0)] ∧ t'.live = t.live - 1 ∧ t'.created = t.created - 1) ∧
    (∃ u, exec (.framePageIn k f) s = .next u ∧ FMap.get? (u.coreOf k).sids (f.frame % 32) = some f.sid)

/-- A counted wait that has reached the limit traps with Wait Limit at its own word, once no result of another package is still to come; a limit that a
later wait has outlived does nothing (03 R44). -/
def Claim.WaitLimit : Prop :=
  ∀ (s : State) (k t n : Nat), let h := s.thread (tidOf k t)
    (h.status = .waiting (some n) ∨ h.status = .parked .registered (some n) ∧ h.asking = false → t < 16 →
      (h.expecting = false → exec (.waitLimit k t n) s = event (takeTrap (tidOf k t) 0x04 0 h.faultPc) s) ∧
      (h.expecting = true → exec (.waitLimit k t n) s = event (plan 1 (.waitLimit k t n)) s)) ∧
    (h.status = .parked .registered (some n) → h.asking = true → exec (.waitLimit k t n) s = event (takeBack (tidOf k t) true) s) ∧
    (h.status ≠ .waiting (some n) → h.status ≠ .parked .registered (some n) → exec (.waitLimit k t n) s = .next s)

/-! ## Memory accesses -/

/-- The segment stage: an access in a local-store segment is to the issuing core's own local store, and each check of R87 traps with its
cause, in order (05 R87 to R89). -/
def Claim.SegmentStage : Prop :=
  ∀ (s : State) (ea : Word) (size : Nat) (need : Need), 0 < size → size ≤ 8 →
    let sg := FMap.get 0 (owner s).segs (bits ea 63 61)
    let off := bits ea 47 0
    let a := (segBase sg + off) % 2 ^ 48
    let formOk := bits ea 60 48 = 0
    let kindOk := segKind sg = 1 ∨ segKind sg = 2
    let limitOk := off + size - 1 ≤ segLimit sg
    let rightsOk := (need.rd = true → sg.getLsbD 52 = true) ∧ (need.wr = true → sg.getLsbD 53 = true) ∧ (need.at_ = true → sg.getLsbD 55 = true) ∧
      (need.writes = true → segKind sg = 1 → a < 0x10000 → sg.getLsbD 54 = true)
    (formOk → segKind sg = 1 → limitOk → rightsOk → a + size - 1 < lsSize s.clock.core → size ≤ 8 - ea.toNat % 8 →
      Locates s ea size need [{ place := .own (lsKey s.clock.core a), len := size, go := false }] s) ∧
    (¬formOk → Stops (locate ea size need) s (.trap 0x07 ea [])) ∧
    (formOk → ¬kindOk → Stops (locate ea size need) s (.trap 0x06 ea [])) ∧
    (formOk → kindOk → ¬limitOk → Stops (locate ea size need) s (.trap 0x05 ea [])) ∧
    (formOk → kindOk → limitOk → ¬rightsOk → Stops (locate ea size need) s (.trap 0x06 ea [])) ∧
    (formOk → segKind sg = 1 → limitOk → rightsOk → lsSize s.clock.core ≤ a + size - 1 → Stops (locate ea size need) s (.trap 0x05 ea []))

/-- An access is translated by a cached entry where one is held, by a walk where none is; a walk that succeeds is cached in each bank on the way, one that
faults is not; an entry that the tables no longer hold may still be used (23 R346). -/
def Claim.CachedTranslations : Prop :=
  ∀ (s s1 u : State) (ea : Word) (k ctx a : Nat) (via : Via) (lf found : Leaf) (lfs : List Leaf) (c : Nat) (v : Word) (keep : List Eff),
    let banks := banksFor k via
    let w := walk ea a (rootKey s (dieOf k) ctx) 0 4
    let entry : TlbEntry := { ctx := ctx, lin := a / lf.page * lf.page, dw0 := lf.dw0, dw1 := lf.dw1 }
    (cachedLeaves s ctx a banks = [] → Stops w s (.trap c v keep) → Stops (findLeaf ea k ctx a via) s (.trap c v keep)) ∧
    (cachedLeaves s ctx a banks = [] → Performs w s lf s1 →
      ∃ t, Performs (findLeaf ea k ctx a via) s lf t ∧ (∀ b ∈ banks, entry ∈ t.bank b) ∧ t.mem = s1.mem ∧ t.threads = s1.threads ∧ t.clock = s1.clock) ∧
    (cachedLeaves s ctx a banks = lf :: lfs → (∀ x ∈ lfs, x = lf) → Performs w s lf s1 → Performs (findLeaf ea k ctx a via) s lf s) ∧
    (Performs (findLeaf ea k ctx a via) s found u →
      found ∈ cachedLeaves s ctx a banks ∨ ∃ s0 s2, s0.mem = s.mem ∧ Performs (walk ea a (rootKey s (dieOf k) ctx) 0 4) s0 found s2)

/-- Finding a translation, and locating an access, leave every thread, the calendar and the cycle; where no word that the walk reads holds an error they
leave memory, poison and every core as well (23 R341, R346, 05 R91). -/
def Claim.TranslationFrames : Prop :=
  ∀ (s u : State) (ea : Word) (size : Nat) (need : Need) (ps : List Part), Locates s ea size need ps u →
    u.threads = s.threads ∧ u.empties = s.empties ∧ u.clock.now = s.clock.now ∧ u.clock.events = s.clock.events ∧
    (s.pkg.eccBad = [] → u.mem = s.mem ∧ u.poisons = s.poisons ∧ u.cores = s.cores ∧ u.pkg = s.pkg)

/-- Loads, ordered or not: d is marked empty and filled with the widened bytes, little-endian; own local store takes 12 cycles. An ordered
load waits for the older iterations (12 R213, 13 R232, 04 R70). -/
def Claim.LoadResults : Prop :=
  ∀ (s s1 u : State) (d b : Code) (i : BitVec 9) (fn : BitVec 3) (ordered : Bool) (vb : Word) (ps : List Part) (dest : Dest),
    let ea := vb + immediateOf (current s1).bound i * BitVec.ofNat 64 (loadBytes fn)
    admits { ext := true, dst := some d, base := some b, marked := .load, literals := fn ≠ 7 } s = true →
    (ordered = true → oldestOrOutside s) → Reads s b false vb s1 → roomFor s1 (classOf s1 ea) → Takes s1 d dest →
    Locates s1 ea (loadBytes fn) .load ps u → Admitted u ea false (loadBytes fn) ps → ps ≠ [] →
    (∀ p ∈ ps, plainPlace p.place = true ∧ p.go = false ∧ Clean u (keyOfPart p) p.len ∧ Performs (awaitCuts p) u () u) → notOutbound u ps →
    u.occupied (tid u) = true → u.clock.slot < 16 →
    ∃ t, exec (if ordered then .ldOrd d b i fn else .ld d b i fn) s = .next t ∧
      Awaits u t dest (widened fn (bytesAt u ps)) (classOf u ea) (longestWay u.clock.core ps) ∧
      (current t).pc = pcNorm ((current u).pc + 4#16) ∧ t.mem = u.mem ∧ t.empties = u.empties ∧ t.poisons = u.poisons ∧ OthersSame (tid u) u t

/-- Stores: outside iterations, or after an early flush of the write buffer, the low bytes of the source are written at the address, little-endian; in an iteration they enter its write
buffer and memory is unchanged. Tags are unchanged (12 R214, 04 R70). -/
def Claim.StoreResults : Prop :=
  ∀ (s s1 s2 u : State) (d b : Code) (i : BitVec 9) (fn : BitVec 2) (v vb : Word) (ps : List Part),
    let size := 2 ^ fn.toNat
    let ea := vb + immediateOf (current s2).bound i * BitVec.ofNat 64 size
    let bs := leBytes size v.toNat
    admits { ext := true, srcs := [d], base := some b, marked := .store } s = true → Reads s d false v s1 → Reads s1 b false vb s2 →
    roomFor s2 (classOf s2 ea) → Performs awaitRelease s2 () s2 → Locates s2 ea size .store ps u → Admitted u ea true size ps →
    (∀ p ∈ ps, plainPlace p.place = true ∧ p.go = false ∧ Clean u (keyOfPart p) p.len ∧ Unwatched u (keyOfPart p) p.len) → notOutbound u ps →
    u.occupied (tid u) = true →
    ((∀ it, (current u).iter = some it → it.direct = true) → readsDone u →
      ∃ t, exec (.st d b i fn) s = .next t ∧ t.mem = storedAt u.mem bs ps ∧ t.empties = u.empties ∧
        (current t).regs = (current u).regs ∧ (current t).pc = pcNorm ((current u).pc + 4#16) ∧ OthersSame (tid u) u t) ∧
    (∀ it, (current u).iter = some it → it.direct = false → it.buf.length < 16 →
      ∃ t, exec (.st d b i fn) s = .next t ∧ t.mem = u.mem ∧ t.empties = u.empties ∧
        (current t).iter = some { it with buf := it.buf ++ [{ addr := ea, parts := splitBytes bs ps, relaxed := decide (classOf u ea = 2) }] } ∧
        (current t).pc = pcNorm ((current u).pc + 4#16) ∧ OthersSame (tid u) u t)

/-- LDF takes a full word and leaves it empty, LDFF leaves it full, STF fills an empty one, PURGE writes 0 and leaves it empty (12 R215). -/
def Claim.FullEmptyResults : Prop :=
  ∀ (s s1 s2 u : State) (d b : Code) (i : BitVec 9) (v vb : Word) (p : Part) (dest : Dest),
    let ea1 := vb + immediateOf (current s1).bound i * 8
    let ea2 := vb + immediateOf (current s2).bound i * 8
    let ready (u : State) : Prop := oldestOrOutside u ∧ plainPlace p.place = true ∧ p.go = false ∧ Clean u (keyOfPart p) 8 ∧
      Unwatched u (keyOfPart p) 8 ∧ Unwaited u (keyOfPart p) ∧ keyOfPart p % 8 = 0 ∧ notOutbound u [p] ∧ Performs (awaitCuts p) u () u ∧
      u.occupied (tid u) = true ∧ u.clock.slot < 16
    (admits { ext := true, dst := some d, base := some b } s = true → Takes s d dest → Reads s b false vb s1 → roomFor s1 2 → FullEmptyAt s1 ea1 .tagged p u →
      ready u → u.fullAt (keyOfPart p) = true →
      ∃ t, exec (.ldf d b i) s = .next t ∧ Awaits u t dest (memDw u (keyOfPart p)) 2 (arrival u.clock.core p.place) ∧
        t.fullAt (keyOfPart p) = false ∧ t.mem = u.mem ∧ OthersSame (tid u) u t) ∧
    (admits { ext := true, dst := some d, base := some b } s = true → Takes s d dest → Reads s b false vb s1 → roomFor s1 1 → FullEmptyAt s1 ea1 .tagged p u →
      ready u → u.fullAt (keyOfPart p) = true →
      ∃ t, exec (.ldff d b i) s = .next t ∧ Awaits u t dest (memDw u (keyOfPart p)) 1 (arrival u.clock.core p.place) ∧
        t.empties = u.empties ∧ t.mem = u.mem ∧ OthersSame (tid u) u t) ∧
    (admits { ext := true, srcs := [d], base := some b } s = true → Reads s d false v s1 → Reads s1 b false vb s2 → roomFor s2 2 → readsDone s2 →
      FullEmptyAt s2 ea2 .both p u → ready u → u.fullAt (keyOfPart p) = false →
      ∃ t, exec (.stf d b i) s = .next t ∧ t.fullAt (keyOfPart p) = true ∧ t.mem = Memory.writeList u.mem (keyOfPart p) (leBytes 8 v.toNat) ∧
        t.poisonAt (keyOfPart p) = false ∧ OthersSame (tid u) u t) ∧
    (admits { ext := true, base := some b } s = true → Reads s b false vb s1 → roomFor s1 1 → readsDone s1 → FullEmptyAt s1 ea1 .both p u → ready u →
      ∃ t, exec (.purge b i) s = .next t ∧ t.fullAt (keyOfPart p) = false ∧ t.mem = Memory.writeList u.mem (keyOfPart p) (leBytes 8 0) ∧
        t.poisonAt (keyOfPart p) = false ∧ OthersSame (tid u) u t)

/-- An LDF, LDFF or STF whose tag does not allow it registers at the word's home and holds its thread, or, in a furrow or with a link source, leaves its
registration there and tries again; word and tag are unchanged (12 R215, R217, 04 R78, R81). -/
def Claim.FullEmptyWaits : Prop :=
  ∀ (s s1 s2 u : State) (d b : Code) (i : BitVec 9) (v vb : Word) (p : Part) (dest : Dest),
    let ea1 := vb + immediateOf (current s1).bound i * 8
    let ea2 := vb + immediateOf (current s2).bound i * 8
    let ready (u : State) : Prop := oldestOrOutside u ∧ plainPlace p.place = true ∧ p.go = false ∧ notOutbound u [p] ∧
      Performs (awaitCuts p) u () u ∧ u.occupied (tid u) = true ∧ u.clock.slot < 16
    let own (u : State) (kind : AccessKind) (ea data : Word) (dst : Dest) : Waiter := ownWaiter u kind (keyOfPart p) ea data dst true
    let waits (u t : State) (kind : AccessKind) (ea data : Word) (dst : Dest) : Prop :=
      (current t).status = .parked .registered (some u.clock.now) ∧ (current t).pc = (current u).pc ∧
      (∃ x ∈ (t.coreOf (homeOf (keyOfPart p))).waiters, x.core = u.clock.core ∧ x.slot = u.clock.slot ∧ x.key = keyOfPart p ∧ x.kind = kind ∧
        x.addr = ea ∧ x.data = data ∧ x.dest = dst) ∧
      t.mem = u.mem ∧ t.empties = u.empties ∧ OthersSame (tid u) u t
    (∀ kind : AccessKind, kind = .ldf ∨ kind = .ldff → admits { ext := true, dst := some d, base := some b } s = true → Takes s d dest → Reads s b false vb s1 →
      roomFor s1 (if kind = .ldf then 2 else 1) → FullEmptyAt s1 ea1 .tagged p u → ready u → u.fullAt (keyOfPart p) = false →
      ((current u).col = none → ∃ t, exec (if kind = .ldf then .ldf d b i else .ldff d b i) s = .next t ∧ waits u t kind ea1 0 dest) ∧
      ((current u).col.isSome = true →
        exec (if kind = .ldf then .ldf d b i else .ldff d b i) s = event (enterWait true (pollKeep u (own u kind ea1 0 dest))) s)) ∧
    (admits { ext := true, srcs := [d], base := some b } s = true → Reads s d false v s1 → Reads s1 b false vb s2 → roomFor s2 2 → readsDone s2 →
      FullEmptyAt s2 ea2 .both p u → ready u → u.fullAt (keyOfPart p) = true →
      ((current u).col = none → isLink d = false → ∃ t, exec (.stf d b i) s = .next t ∧ waits u t .stf ea2 v .none) ∧
      ((current u).col.isSome = true ∨ isLink d = true →
        exec (.stf d b i) s = event (enterWait true (pollKeep u (own u .stf ea2 v .none))) s))

/-- An atomic whose home is the issuing core writes the new word, returns the old one, and CAS and FADDB set ST (12 R218 to R220). -/
def Claim.AtomicResults : Prop :=
  ∀ q ∈ atomicForms, ∀ (s s0 s1 s2 u : State) (d a b : Code) (x y : Bool) (ea vb bound : Word) (p : Part) (dest : Dest),
    let old := memDw u (keyOfPart p)
    let r := q.2.2 old vb bound
    admits { srcs := [a, b], dst := some d, readsDst := q.2.1, marked := .atomic } s = true →
    (if q.2.1 then Reads s d false bound s0 else s0 = s) → Reads s0 a x ea s1 → Reads s1 b y vb s2 → linearOk s2 ea [d, a, b] →
    AtomicAt s2 ea p u → plainPlace p.place = true → atomicCore p.place = some u.clock.core → oldestOrOutside u → roomFor u (classOf u ea) →
    readsDone u → Takes u d dest → Clean u (keyOfPart p) 8 → Unwatched u (keyOfPart p) 8 → u.occupied (tid u) = true → u.clock.slot < 16 →
    ∃ t, exec (q.1 d a b x y) s = .next t ∧ t.mem = Memory.writeList u.mem (keyOfPart p) (leBytes 8 r.1.toNat) ∧
      Awaits u t dest old (classOf u ea) 12 ∧
      (current t).pw = (match r.2 with | some st => pwNorm (setBit (current u).pw 18 st) | none => (current u).pw) ∧
      t.empties = u.empties ∧ OthersSame (tid u) u t

/-- An atomic whose home is on another core moves its thread there: it parks, and the packet names the atomic's own word, or its prefix (12
R219, 03 R58). -/
def Claim.AtomicGrafts : Prop :=
  ∀ q ∈ atomicForms, ∀ (s s0 s1 s2 u : State) (d a b : Code) (x y : Bool) (ea vb bound : Word) (p : Part) (c : Nat),
    admits { srcs := [a, b], dst := some d, readsDst := q.2.1, marked := .atomic } s = true →
    (if q.2.1 then Reads s d false bound s0 else s0 = s) → Reads s0 a x ea s1 → Reads s1 b y vb s2 → linearOk s2 ea [d, a, b] →
    AtomicAt s2 ea p u → atomicCore p.place = some c → c ≠ u.clock.core → oldestOrOutside u → roomFor u (classOf u ea) →
    levelAllows (current u).level u.clock.core c = true → drained (current u) = true → (u.coreOf c).isSealed = false →
    (current u).monitors = [] → u.occupied (tid u) = true → u.clock.slot < 16 →
    ∃ t, exec (q.1 d a b x y) s = .next t ∧ (current t).status = .parked .graft none ∧
      Due t (u.clock.now + Config.transit u.clock.core c) (.graftArrival c (graftPacket (current u) (tid u) (current u).faultPc)) ∧
      t.mem = u.mem ∧ OthersSame (tid u) u t

/-- A RED whose home is the issuing core updates the word; one whose home lies on another core leaves as a cutting, and the thread goes on
(12 R221). -/
def Claim.ReductionResults : Prop :=
  ∀ q ∈ reduceForms, ∀ (s s1 s2 u : State) (a b : Code) (x y : Bool) (ea vb : Word) (p : Part),
    let cls := if (current u).bound ≠ .none ∧ (FMap.get 0 (owner u).segs (bits ea 63 61)).getLsbD 56 = false then 1 else 2
    admits { srcs := [a, b], marked := .red } s = true → Reads s a x ea s1 → Reads s1 b y vb s2 → ReductionAt s2 ea p u →
    plainPlace p.place = true → oldestOrOutside u → roomFor u cls → readsDone u → (owner u).twin = none →
    (homeOf (keyOfPart p) = u.clock.core → underTest u (keyOfPart p) = false → keyOfPart p % 8 = 0 → Clean u (keyOfPart p) 8 → Unwatched u (keyOfPart p) 8 →
      ∃ t, exec (q.1 a b x y) s = .next t ∧
        t.mem = Memory.writeList u.mem (keyOfPart p) (leBytes 8 (q.2.2 (memDw u (keyOfPart p)) vb).toNat) ∧
        (current t).pw = (current u).pw ∧ (current t).regs = (current u).regs ∧ OthersSame (tid u) u t) ∧
    (homeOf (keyOfPart p) ≠ u.clock.core → (u.coreOf (homeOf (keyOfPart p))).isSealed = false →
      ∃ t c, exec (q.1 a b x y) s = .next t ∧ c.key = keyOfPart p ∧ c.fn = q.2.1 ∧ c.data = vb ∧ c.poison = false ∧
        Due t (u.clock.now + Config.transit (u.control (tid u) / 16) (homeOf (keyOfPart p))) (.cuttingApply c) ∧ t.mem = u.mem ∧
        (current t).pc = (current (advance u)).pc ∧ (current t).regs = (current u).regs)

/-- A cutting is applied at its home as the atomic of its name would, and acknowledged; a marked one, or one that meets poison, is dropped and
counted, and the word is unchanged (12 R221, R222). A refused one comes again. -/
def Claim.CuttingArrival : Prop :=
  ∀ q ∈ reduceForms, ∀ (s : State) (c : Cutting), c.fn = q.2.1 → c.cmp = none → c.key % 8 = 0 → c.fromCore < 2 ^ 13 →
    (s.coreOf (homeOf c.key)).isSealed = false → underTest s c.key = false → FMap.get? s.pkg.eccBad c.key = none →
    (∀ cause v epc a since, (s.thread (tidOf c.fromCore c.fromSlot)).status ≠ .parked (.upward cause v epc a) since) →
    (c.poison = false → s.poisonAt c.key = false → Unwatched s c.key 8 →
      ∃ t, exec (.cuttingApply c) s = .next t ∧
        t.mem = Memory.writeList s.mem c.key (leBytes 8 (q.2.2 (memDw s c.key) c.data).toNat) ∧
        FMap.get? (t.thread (tidOf c.fromCore c.fromSlot)).outstanding c.id = none) ∧
    (c.poison = true ∨ s.poisonAt c.key = true →
      ∃ t, exec (.cuttingApply c) s = .next t ∧ t.mem = s.mem ∧ FMap.get? (t.thread (tidOf c.fromCore c.fromSlot)).outstanding c.id = none ∧
        FMap.get 0 (t.coreOf (homeOf c.key)).errs 6 = min (2 ^ 32 - 1) (FMap.get 0 (s.coreOf (homeOf c.key)).errs 6 + 1)) ∧
    (∃ t, exec (.cuttingResend c) s = .next t ∧ Due t s.clock.now (.cuttingApply c) ∧ t.mem = s.mem ∧ t.threads = s.threads)

/-! ## Fences, monitors and barriers -/

/-- FENCE goes on once every earlier access is complete, and waits, not counted, until then (12 R223). -/
def Claim.FenceResult : Prop :=
  ∀ (s : State) (sc : Code), admits { literals := sc.toNat ≤ 5 } s = true →
    (accessesDone s → exec (.fence sc) s = .next (advance s)) ∧
    (Stops awaitAccesses s (.wait false []) → exec (.fence sc) s = event (enterWait false []) s)

/-- MARM arms a monitor at the home of the line that holds the address and clears ST; a full home leaves the index disarmed and sets ST. MDIS
disarms the monitors it names (12 R224, 03 R60). -/
def Claim.MonitorResults : Prop :=
  ∀ (s s1 s2 u : State) (a b : Code) (x y : Bool) (ea vb v : Word) (p : Part),
    let own := u.control (tid u)
    let line := keyOfPart p / 64 * 64
    (admits { srcs := [a, b] } s = true → Reads s a x ea s1 → Reads s1 b y vb s2 → Locates s2 ea 1 .load [p] u → plainPlace p.place = true →
      (∀ key, p.place ≠ .host key) → (∀ c key, p.place = .ls c key → (u.coreOf c).isSealed = false) → vb.toNat ≤ 3 → oldestOrOutside u →
      u.occupied own = true →
      (((u.coreOf (homeOf line)).monRegs).length < 1024 →
        ∃ t, exec (.marm a b x y) s = .next t ∧
          FMap.get? (t.thread own).monitors vb.toNat = some { line := line, addr := ea &&& ~~~63#64, latched := false } ∧
          ({ core := own / 16, slot := own % 16, index := vb.toNat, line := line, lin := (linearOf (owner u) ea).map ((owner u).ctx, ·) } : MonReg) ∈ (t.coreOf (homeOf line)).monRegs ∧
          (current t).pw = pwNorm (setBit (current u).pw 18 false) ∧ t.mem = u.mem) ∧
      (FMap.get? (u.thread own).monitors vb.toNat = none → 1024 ≤ ((u.coreOf (homeOf line)).monRegs).length →
        ∃ t, exec (.marm a b x y) s = .next t ∧ FMap.get? (t.thread own).monitors vb.toNat = none ∧
          (current t).pw = pwNorm (setBit (current u).pw 18 true) ∧ t.mem = u.mem)) ∧
    (admits { srcs := [a] } s = true → Reads s a x v s1 →
      ∃ t, exec (.mdis a x) s = .next t ∧ t.mem = s1.mem ∧
        ∀ n, n < 4 → FMap.get? (t.thread (s1.control (tid s1))).monitors n =
          if v.getLsbD n then none else FMap.get? (s1.thread (s1.control (tid s1))).monitors n)

/-- MWAIT returns at once when a monitor has latched, an interrupt is pending or the timeout is 0; otherwise the thread parks until its timeout
is due. The word reports the latches and clears them; the monitors stay armed (12 R225, 03 R61). -/
def Claim.MwaitResults : Prop :=
  ∀ (s s1 : State) (d a : Code) (x : Bool) (limit : Word) (dest : Dest),
    let own := s1.control (tid s1)
    admits { srcs := [a], dst := some d } s = true → Reads s a x limit s1 → oldestOrOutside s1 → Takes s1 d dest → (current s1).col = none →
    s1.occupied (tid s1) = true → s1.occupied own = true → s1.clock.slot < 16 →
    (limit = 0 ∨ mwaitEnds (s1.thread own) = true →
      ∃ t, exec (.mwait d a x) s = .next t ∧ Awaits s1 t dest (mwaitWord (s1.thread own) (limit == 0)) 0 0 ∧
        (∀ n, FMap.get? (t.thread own).monitors n = (FMap.get? (s1.thread own).monitors n).map fun m => { m with latched := false }) ∧
        t.mem = s1.mem) ∧
    (limit ≠ 0 → mwaitEnds (s1.thread own) = false →
      ∃ t token, exec (.mwait d a x) s = .next t ∧ (current t).status = .parked .mwait none ∧ (current t).mwaitDst = dest ∧
        (current t).mwaitToken = token ∧ (current t).pc = (current s1).pc ∧
        Due t (s1.clock.now + limit.toNat) (.mwaitTimeout (tid s1 / 16) (tid s1 % 16) token) ∧ t.mem = s1.mem ∧
        (t.thread own).monitors = (s1.thread own).monitors)

/-- A parked MWAIT returns on a latched write, on a pending interrupt, or at its timeout, with its result word in its destination; a wake
without cause, or the timeout of an earlier MWAIT, does nothing (03 R61). -/
def Claim.MwaitReturns : Prop :=
  ∀ (s : State) (k n token : Nat) (since : Option Nat) (r : Nat),
    let id := tidOf k n
    let own := s.control id
    let ended (t : State) (timedOut : Bool) : Prop :=
      FMap.get? (t.thread id).regs r = some { val := mwaitWord (s.thread own) timedOut, full := true } ∧ (t.thread id).status = .ready ∧
      (t.thread id).pc = pcNorm ((s.thread id).pc + 4#16) ∧ t.mem = s.mem
    s.occupied id = true → (s.thread id).status = .parked .mwait since → (s.thread id).mwaitDst = .reg r →
    (mwaitEnds (s.thread own) = true → ∃ t, exec (.mwaitWake k n) s = .next t ∧ ended t false) ∧
    (mwaitEnds (s.thread own) = false → exec (.mwaitWake k n) s = .next s) ∧
    ((s.thread id).mwaitToken = token → ∃ t, exec (.mwaitTimeout k n token) s = .next t ∧ ended t true) ∧
    ((s.thread id).mwaitToken ≠ token → exec (.mwaitTimeout k n token) s = .next s)

/-- BARI arms a barrier word with its count, phase 0, for its thread, and clears ST; a count of 0 disarms it; a 257th armed barrier of a home
leaves the word unchanged and sets ST (12 R228). -/
def Claim.BarrierArming : Prop :=
  ∀ (s s1 s2 u : State) (a b : Code) (x y : Bool) (ea vb : Word) (p : Part),
    let key := keyOfPart p
    let own := u.control (tid u)
    let others := (u.coreOf (homeOf key)).barriers.filter fun r => r.key != key
    admits { srcs := [a, b] } s = true → Reads s a x ea s1 → Reads s1 b y vb s2 → BarrierAt s2 ea .atomic p u → plainPlace p.place = true →
    vb.toNat < 2 ^ 20 → oldestOrOutside u → accessesDone u → notOutbound u [p] → barWaiters u key = [] → Unmonitored u key 8 →
    u.occupied (tid u) = true →
    (vb = 0 ∨ others.length < 256 →
      ∃ t, exec (.bari a b x y) s = .next t ∧ t.mem = Memory.writeList u.mem key (leBytes 8 (vb.toNat * 2 ^ 20)) ∧
        (current t).pw = pwNorm (setBit (current u).pw 18 false) ∧ OthersSame (tid u) u t ∧
        (t.coreOf (homeOf key)).barriers = (if vb = 0 then others else others ++
          [{ key := key, owner := some (own / 16, own % 16), ownerSlot := own % 16, ctx := (owner u).ctx, addr := ea, lin := linearOf (owner u) ea }])) ∧
    (vb ≠ 0 → 256 ≤ others.length →
      ∃ t, exec (.bari a b x y) s = .next t ∧ t.mem = u.mem ∧ (current t).pw = pwNorm (setBit (current u).pw 18 true) ∧
        (t.coreOf (homeOf key)).barriers = (u.coreOf (homeOf key)).barriers ∧ OthersSame (tid u) u t)

/-- BARV counts an arrival of the present phase, completes the phase with the last one, and reports a mismatch, a broken or an unarmed barrier
in STAT and ST (12 R227, R228). -/
def Claim.BarrierArrival : Prop :=
  ∀ (s s1 s2 u : State) (d a b : Code) (x y : Bool) (ea vb : Word) (p : Part) (dest : Dest),
    let key := keyOfPart p
    let old := memDw u key
    let bar := barrierAt u key
    let r := barvOutcome bar old vb
    admits { srcs := [a, b], dst := some d } s = true → Reads s a x ea s1 → Reads s1 b y vb s2 → Takes s2 d dest → BarrierAt s2 ea .atomic p u →
    plainPlace p.place = true → oldestOrOutside u → accessesDone u → notOutbound u [p] → barWaiters u key = [] → Unmonitored u key 8 →
    Clean u key 8 → (∀ q, bar = some q → q.cmp = none) → u.occupied (tid u) = true → u.clock.slot < 16 →
    ∃ t, exec (.barv d a b x y) s = .next t ∧
      Awaits u t dest (BitVec.ofNat 64 (r.2.1 * 2 ^ 40 + r.1)) 1 (arrival u.clock.core p.place) ∧
      t.mem = (if r.1 ≤ 1 then Memory.writeList u.mem key (leBytes 8 (r.2.1 * 2 ^ 40 + expectedOf old * 2 ^ 20 + r.2.2)) else u.mem) ∧
      (current t).pw = pwNorm (setBit (current u).pw 18 (2 ≤ r.1)) ∧ OthersSame (tid u) u t

/-- BARW returns once its phase has passed, or at once on a broken or unarmed barrier; while its phase runs it registers and its thread is held, or, in a
furrow or with a link source, tries again until its registration has an answer (12 R217, R228, 04 R78). -/
def Claim.BarrierWait : Prop :=
  ∀ (s s1 s2 u : State) (d a b : Code) (x y : Bool) (ea vb : Word) (p : Part) (dest : Dest),
    let key := keyOfPart p
    let old := memDw u key
    let bar := barrierAt u key
    let want := vb.toNat % 2 ^ 24
    let returns (v : Word) : Prop := ∃ t, exec (.barw d a b x y) s = .next t ∧
      Awaits u t dest v 1 (arrival u.clock.core p.place) ∧ t.mem = u.mem ∧
      (current t).pw = pwNorm (setBit (current u).pw 18 (2 ≤ v.toNat % 8)) ∧ OthersSame (tid u) u t
    let result (phase stat : Nat) : Prop := returns (BitVec.ofNat 64 (phase * 2 ^ 40 + stat))
    let mine := ((u.coreOf (homeOf key)).waiters.find? (·.isOf u.clock.core u.clock.slot)).bind (·.result)
    admits { srcs := [a, b], dst := some d } s = true → Reads s a x ea s1 → Reads s1 b y vb s2 → Takes s2 d dest → BarrierAt s2 ea .barw p u →
    plainPlace p.place = true → oldestOrOutside u → accessesDone u → notOutbound u [p] → Clean u key 8 →
    (∀ q, bar = some q → q.cmp = none) → u.occupied (tid u) = true → u.clock.slot < 16 →
    (∀ v, mine = some v → returns v) ∧
    (mine = none → bar = none → result 0 4) ∧
    (∀ q, mine = none → bar = some q → q.broken = true → result (phaseOf old) 3) ∧
    (∀ q, mine = none → bar = some q → q.broken = false → want ≠ phaseOf old → (phaseOf old + 2 ^ 24 - want) % 2 ^ 24 < 2 ^ 23 →
      result (phaseOf old) 1) ∧
    (∀ q, mine = none → bar = some q → q.broken = false → want ≠ phaseOf old → 2 ^ 23 ≤ (phaseOf old + 2 ^ 24 - want) % 2 ^ 24 →
      result (phaseOf old) 2) ∧
    (∀ q, mine = none → bar = some q → q.broken = false → want = phaseOf old →
      (current u).col.isSome = true ∨ isLink a = true ∨ isLink b = true →
      exec (.barw d a b x y) s = event (enterWait true (pollKeep u (ownWaiter u .barw key ea vb dest true))) s) ∧
    (∀ q, mine = none → bar = some q → q.broken = false → want = phaseOf old → (current u).col = none → isLink a = false → isLink b = false →
      ∃ t, exec (.barw d a b x y) s = .next t ∧ (current t).status = .parked .registered (some u.clock.now) ∧
        (∃ w ∈ (t.coreOf (homeOf key)).waiters, w.core = u.clock.core ∧ w.slot = u.clock.slot ∧ w.key = key ∧ w.kind = .barw ∧ w.dest = dest) ∧
        t.mem = u.mem ∧ OthersSame (tid u) u t)

/-! ## Traps, privilege and control registers -/

/-- The checks of a word come in the order of 10 R188, and the first that fails traps with its cause at the word, or its prefix; nothing else
of the word happens. -/
def Claim.CheckOrder : Prop :=
  ∀ (f : Form) (body : M Flow) (s : State),
    let t := current s
    let c1 := f.literals && (!t.bound.isImm || f.ext)
    let c2 := f.unit s.clock.core && (hasLinks s.clock.core || !(f.codes.any isLink))
    let c3 := decide (f.level.code ≤ t.level.code) && f.allowed
    let c4 := !(f.srcs.any badSrc) && !(f.dst.any (badDst · f.readsDst)) && !(f.base.any fun c => badSrc c || isLink c)
    let c5 := !(badMark f.marked t.bound)
    let c6 := !((owner s).twin.isSome && f.codes.any isLink)
    let cause := if !c1 then 0x01 else if !c2 then 0x01 else if !c3 then 0x15 else if !c4 then 0x02 else if !c5 then 0x01 else 0x13
    (c1 && c2 && c3 && c4 && c5 && c6) = false → instr f body s = trapOr (takeTrap (tid s) cause 0 t.faultPc) s

/-- Taking a synchronous trap: in the thread, with EPC, ECAUSE, EVAL, INH and the handler's offset; or upward, with the thread held, SEPC,
SCAUSE and SVAL written and a record on its way to its supervisor (22 R323, R325). -/
def Claim.TrapEntry : Prop :=
  ∀ (s : State) (id cause : Nat) (v : Word) (epc : BitVec 16), s.occupied id = true → Free (s.thread id) → Unregistered s id →
    ∃ t, Performs (takeTrap id cause v epc) s () t ∧ TrapTaken s t id cause v epc ∧ t.mem = s.mem ∧ OthersSame id s t

/-- A wait: a counted one begins in this cycle and has its limit due, one that does not count has none; no register and no word of memory
changes, and the program counter stays (03 R43, R44). -/
def Claim.WaitEntry : Prop :=
  ∀ (s : State) (counts : Bool), s.occupied (tid s) = true → s.clock.slot < 16 → (∀ since, (current s).status ≠ .waiting (some since)) →
    ∃ t, event (enterWait counts []) s = .next t ∧ (current t).status = .waiting (if counts then some s.clock.now else none) ∧
      (current t).pc = (current s).pc ∧ (current t).regs = (current s).regs ∧ (current t).lastIssue = (current s).lastIssue ∧
      (counts = true → (owner s).wlim ≠ 0 →
        Due t (s.clock.now + (owner s).wlim.toNat) (.waitLimit s.clock.core s.clock.slot s.clock.now)) ∧
      t.mem = s.mem ∧ t.cores = s.cores ∧ OthersSame (tid s) s t

/-- TRAP, SCALL and HCALL raise their causes with the value of a, at the word after the instruction; TRAP may be delegated, SCALL and HCALL go
upward (22 R323, R329). -/
def Claim.CallTraps : Prop :=
  ∀ (s s1 : State) (a : Code) (x : Bool) (v : Word), s.occupied (tid s) = true → Free (current s) → Unregistered s (tid s) →
    (current s).expecting = false → Reads s a x v s1 →
    (admits { srcs := [a] } s = true →
      ∃ t, exec (.trap a x) s = .next t ∧ TrapTaken s t (tid s) 0x18 v ((current s).pc + 4#16) ∧ t.mem = s.mem ∧ OthersSame (tid s) s t) ∧
    (admits { srcs := [a] } s = true → (current s).level ≠ .h →
      ∃ t, exec (.scall a x) s = .next t ∧ (drained (current s) = true → HeldUpward s t (tid s) 0x19 v ((current s).pc + 4#16) false) ∧
        t.mem = s.mem ∧ OthersSame (tid s) s t) ∧
    (admits { srcs := [a], level := .s } s = true →
      ∃ t, exec (.hcall a x) s = .next t ∧ (drained (current s) = true → HeldUpward s t (tid s) 0x1A v ((current s).pc + 4#16) false) ∧
        t.mem = s.mem ∧ OthersSame (tid s) s t)

/-- UIRET returns to EPC and clears INH once the thread's producers are done; with INH 0 it is Illegal Instruction (22 R329). -/
def Claim.HandlerReturn : Prop :=
  ∀ (s : State), s.occupied (tid s) = true → Free (current s) →
    ((current s).inh = true → admits {} s = true → drained (current s) = true →
      ∃ t, exec .uiret s = .next t ∧ (current t).pc = pcNorm (current s).epc ∧ (current t).inh = false ∧ (current t).regs = (current s).regs ∧
        (current t).pw = (current s).pw ∧ (current t).ecause = (current s).ecause ∧ t.mem = s.mem ∧ OthersSame (tid s) s t) ∧
    ((current s).inh = false → exec .uiret s = trapOr (takeTrap (tid s) 0x01 0 (current s).faultPc) s)

/-- ERET ends the hold of the thread that TSEL names, which resumes at its SEPC, and clears ST; without such a thread it sets ST (22 R329). -/
def Claim.HoldReturn : Prop :=
  ∀ (s : State), admits { level := .s } s = true → s.occupied (tid s) = true →
    (∀ id, tselThread s (owner s) s.clock.core = some id → id ≠ tid s → Free (s.thread id) → (s.thread id).rebind = none →
      ∃ t, exec .eret s = .next t ∧ (t.thread id).status = .ready ∧ (t.thread id).pc = pcNorm (s.thread id).sepc ∧
        (t.thread id).regs = (s.thread id).regs ∧ (current t).pw = pwNorm (setBit (current s).pw 18 false) ∧ t.mem = s.mem) ∧
    (tselThread s (owner s) s.clock.core = none → exec .eret s = .next (advance (withSt true s)))

/-- CRRD reads the register that its number names (22 R320, R328). -/
def Claim.ControlReads : Prop :=
  ∀ q ∈ controlReads, ∀ (s s1 : State) (d : Code) (r : BitVec 10), r.toNat = q.1 →
    admits { dst := some d, allowed := mayAccess s false r.toNat } s = true → Writes s d (q.2 s) s1 → exec (.crrd d r) s = .next (advance s1)

/-- A write of a control register leaves it with the bits that its field map keeps, and changes no general register and no memory (22 R320 to
R328). -/
def Claim.ControlWrites : Prop :=
  ∀ q ∈ controlWrites, ∀ (s : State) (v : Word), s.occupied (tid s) = true → s.occupied (s.control (tid s)) = true →
    ∃ t, Performs (crStore q.1 (some (tid s)) v) s () t ∧ q.2.1 t = q.2.2 v ∧ (current t).regs = (current s).regs ∧ (current t).pw = (current s).pw ∧
      t.mem = s.mem

/-- CRWR writes the register with a, CRSET and CRCLR set and clear the bits of a in it and return the old value. Registers that iterations share
are written by the oldest iteration (22 R328). -/
def Claim.ControlResults : Prop :=
  ∀ (s s1 s2 s3 : State) (d a : Code) (r : BitVec 10) (v : Word), r.toNat < 0x200 → assigned r.toNat = true →
    let old := crValue s1 (owner s1).level (tid s1) r.toNat
    Reads s a false v s1 → (1 < r.toNat → oldestOrOutside s1) →
    (admits { srcs := [a], allowed := mayAccess s true r.toNat } s = true → Performs (crStore r.toNat (some (tid s1)) v) s1 () s2 →
      exec (.crwr a r) s = .next (advance s2)) ∧
    (admits { srcs := [a], dst := some d, allowed := mayAccess s true r.toNat } s = true →
      Performs (crStore r.toNat (some (tid s1)) (old ||| v)) s1 () s2 → Writes s2 d old s3 → exec (.crset d a r) s = .next (advance s3)) ∧
    (admits { srcs := [a], dst := some d, allowed := mayAccess s true r.toNat } s = true →
      Performs (crStore r.toNat (some (tid s1)) (old &&& ~~~v)) s1 () s2 → Writes s2 d old s3 → exec (.crclr d a r) s = .next (advance s3))

/-- A U thread that names a supervisor's register, or writes one that its level only reads, takes Privileged Instruction; so does a U thread
that executes an instruction of level S (22 R320, R328, 10 R186). -/
def Claim.PrivilegeTraps : Prop :=
  ∀ (s : State) (d a b : Code) (x y : Bool) (r : BitVec 10), (current s).level = .u → (current s).iter = none → (current s).bound = .none →
    let trapped (i : Instr) : Prop := exec i s = trapOr (takeTrap (tid s) 0x15 0 (current s).pc) s
    (0x13 ≤ r.toNat → r.toNat ≤ 0x1A → isLink d = false → trapped (.crrd d r)) ∧
    (r.toNat ∈ [0x03, 0x04, 0x07, 0x08, 0x09, 0x0A, 0x0B, 0x0D, 0x0F, 0x10, 0x11, 0x12] → isLink a = false → trapped (.crwr a r)) ∧
    (isLink a = false → trapped (.hcall a x)) ∧ trapped .eret ∧
    (isLink a = false → isLink b = false → trapped (.segld a b x y) ∧ trapped (.shoot a b x y))

/-- Through a view an S or H thread reads and writes the registers of the held thread that TSEL names, and clears ST; without such a thread the
read gives 0, the write does nothing, and ST is set (22 R327, R328). -/
def Claim.ViewResults : Prop :=
  ∀ (s s1 s2 : State) (d a : Code) (r : BitVec 10) (v : Word), 0x240 ≤ r.toNat → r.toNat < 0x260 →
    (tselCore s (owner s) s.clock.core).isSome = true → (tselCore s1 (owner s1) s1.clock.core).isSome = true →
    (∀ id, tselThread s (owner s) s.clock.core = some id → admits { dst := some d, allowed := mayAccess s false r.toNat } s = true →
      Writes (withSt false s) d ((s.thread id).sreg (r.toNat - 0x240)).val s2 → exec (.crrd d r) s = .next (advance s2)) ∧
    (tselThread s (owner s) s.clock.core = none → admits { dst := some d, allowed := mayAccess s false r.toNat } s = true →
      Writes (withSt true s) d 0 s2 → exec (.crrd d r) s = .next (advance s2)) ∧
    (∀ id, tselThread s1 (owner s1) s1.clock.core = some id → admits { srcs := [a], allowed := mayAccess s true r.toNat } s = true →
      Reads s a false v s1 → oldestOrOutside s1 →
      exec (.crwr a r) s = .next (advance ((Eff.reg id ((s1.thread id).place (r.toNat - 0x240)) { val := v, full := true }).apply (withSt false s1)))) ∧
    (tselThread s1 (owner s1) s1.clock.core = none → admits { srcs := [a], allowed := mayAccess s true r.toNat } s = true →
      Reads s a false v s1 → oldestOrOutside s1 → exec (.crwr a r) s = .next (advance (withSt true s1)))

/-- SEGLD loads a segment register with a good image from two plain doublewords, SEGRD reads half of one; both clear ST (23 R335, R336). -/
def Claim.SegmentRegisters : Prop :=
  ∀ (s s1 s2 s3 u : State) (d a b : Code) (x y : Bool) (va vb v u0 u1 : Word) (p0 p1 : Part),
    (admits { srcs := [a, b], level := .s } s = true → (current s).held = [] → (current s).mwaitToken ≠ 3 → Reads s a x va s1 → Reads s1 b y vb s2 →
      vb.toNat < 8 → va.toNat % 16 = 0 → oldestOrOutside s2 → roomFor s2 1 → Performs (locateWords va 2) s2 [(u0, p0), (u1, p1)] u →
      (∀ p ∈ [p0, p1], plainPlace p.place = true ∧ p.len = 8 ∧ Clean u (keyOfPart p) 8 ∧ Performs (awaitCuts p) u () u) →
      (current u).mwaitToken ≠ 3 → u.occupied (u.control (tid u)) = true →
      let image : BitVec 128 := BitVec.ofNat 128 (leValue (bytesAt u [p0, p1]))
      goodImage image = true →
      ∃ t, exec (.segld a b x y) s = .next t ∧ FMap.get? (t.thread (u.control (tid u))).segs vb.toNat = some image ∧
        (current t).pw = pwNorm (setBit (current u).pw 18 false) ∧ t.mem = u.mem) ∧
    (admits { srcs := [a], dst := some d } s = true → Reads s a x v s1 → v.toNat < 16 →
      (let image := FMap.get 0 (owner s1).segs (v.toNat % 8);
       Writes s1 d (if v.toNat < 8 then image.extractLsb' 0 64 else image.extractLsb' 64 64) s3) →
      exec (.segrd d a x) s = .next (advance (withSt false s3)))

/-- A trap-queue record is placed at TAIL as 32 bytes, which then moves on; a queue without room counts a refusal, and the record comes again one
rotation later (22 R326). -/
def Claim.TrapQueue : Prop :=
  ∀ (s : State) (k : Nat) (r : TrapRecord), let q := (s.coreOf k).tqb
    let key := lsKey k (q.base + 32 * q.tail)
    (queueTakes q k 32 = true → (s.coreOf k).isSealed = false → Unwatched s key 32 → (∀ i, i < 4 → Unwaited s (key + 8 * i)) →
      ∃ t, exec (.trapQueueRecord k r) s = .next t ∧
        t.mem = Memory.writeList s.mem key (leBytes 8 r.w0.toNat ++ leBytes 8 r.w1.toNat ++ leBytes 8 r.w2.toNat ++ leBytes 8 r.w3.toNat) ∧
        (t.coreOf k).tqb = { q with tail := (q.tail + 1) % q.size } ∧ t.threads = s.threads) ∧
    (queueTakes q k 32 = false ∨ (s.coreOf k).isSealed = true →
      (r.sender = none ∨ ∃ c n since, r.sender = some (c, n) ∧ (s.thread (tidOf c n)).status = .parked .held since) →
      ∃ t, exec (.trapQueueRecord k r) s = .next t ∧ Due t (s.clock.now + 16) (.trapQueueRecord k r) ∧ t.mem = s.mem ∧ t.threads = s.threads ∧
        FMap.get 0 (t.coreOf k).errs 8 = min (2 ^ 32 - 1) (FMap.get 0 (s.coreOf k).errs 8 + 1))

/-- An event pending for a thread at a pre-emption point is delivered with ASYNC set at the word that it would execute next: upward events
first, then in the thread the lowest cause, transfer completions last with their identifier and status in XFID (22 R324, R330). -/
def Claim.EventDelivery : Prop :=
  ∀ (s : State) (k n : Nat), let id := tidOf k n; let h := s.thread id
    s.occupied id = true → Free h → Unregistered s id → h.asking = false → deliverable s id = true → pointOf s id = some id →
    (∀ c v core rest, h.pendUp = (c, v, core) :: rest →
      ∃ t, exec (.asyncEventDelivery k n) s = .next t ∧ (t.thread id).pendUp = rest ∧ t.mem = s.mem ∧
        (drained h = true → HeldUpward s t id c v h.resumePc true)) ∧
    (∀ v, h.pend.io = some v → h.pendUp = [] →
      ∃ t, exec (.asyncEventDelivery k n) s = .next t ∧ InHandler s t id 0x0F v h.resumePc h.uih true ∧ (t.thread id).pend.io = none ∧ t.mem = s.mem) ∧
    (∀ v, h.pend.ic = some v → h.pendUp = [] → h.pend.io = none →
      ∃ t, exec (.asyncEventDelivery k n) s = .next t ∧ InHandler s t id 0x10 v h.resumePc h.uih true ∧ (t.thread id).pend.ic = none ∧ t.mem = s.mem) ∧
    (∀ v, h.pend.bb = some v → h.pendUp = [] → h.pend.io = none → h.pend.ic = none →
      ∃ t, exec (.asyncEventDelivery k n) s = .next t ∧ InHandler s t id 0x12 v h.resumePc h.uih true ∧ (t.thread id).pend.bb = none ∧ t.mem = s.mem) ∧
    (∀ c rest, h.pend.xc = c :: rest → h.pendUp = [] → h.pend.io = none → h.pend.ic = none → h.pend.bb = none →
      ∃ t, exec (.asyncEventDelivery k n) s = .next t ∧ InHandler s t id 0x20 0 h.resumePc c.handler true ∧ (t.thread id).pend.xc = rest ∧
        (t.thread id).xfid = BitVec.ofNat 64 (c.status * 2 ^ 16 + c.xid) ∧ t.mem = s.mem)

/-- SHOOT, when its request is well formed and in the issuer's right, waits for the thread's accesses, sends the request to every port of the
load-store domain and holds the thread (23 R348). -/
def Claim.ShootResult : Prop :=
  ∀ (s s1 s2 : State) (a b : Code) (x y : Bool) (va vb : Word), admits { srcs := [a, b], level := .s } s = true →
    Reads s a x va s1 → Reads s1 b y vb s2 →
    bits vb 47 45 = 0 → bits vb 41 16 = 0 → bits va 63 48 = 0 → (vb.getLsbD 44 = true → bits vb 43 42 = 2) →
    (bits vb 43 42 = 3 → bits vb 63 48 = 0 ∧ (owner s2).level = .h) → (bits vb 43 42 ≠ 1 → bits vb 15 0 = 0) →
    ((owner s2).level = .s → ctxPart s2 (dieOf s2.clock.core) (bits vb 63 48) = ctxPart s2 (dieOf s2.clock.core) (owner s2).ctx) →
    oldestOrOutside s2 → Performs awaitPoint s2 () s2 → s2.occupied (tid s2) = true → s2.clock.slot < 16 →
    let r : Shoot := { ctx := bits vb 63 48, addr := va.toNat, sc := bits vb 43 42, cnt := bits vb 15 0, rs := vb.getLsbD 44,
                       fromCore := s2.clock.core, fromSlot := s2.clock.slot }
    ∃ t, exec (.shoot a b x y) s = .next t ∧ (current t).status = .parked .engine none ∧
      (∀ p, p < 256 → Due t (s2.clock.now + Config.transit s2.clock.core (portPlace p)) (.shootdownPort p r)) ∧
      t.mem = s2.mem ∧ OthersSame (tid s2) s2 t

/-- A port that has a request and no use of a removed translation left acknowledges it; the last acknowledgement lets the thread go on. A request
that no longer waits for the port has no effect (23 R349). -/
def Claim.ShootAcknowledged : Prop :=
  ∀ (s : State) (port : Nat) (r : Shoot) (p : Pendant), let id := tidOf r.fromCore r.fromSlot
    ((s.pkg.shoots.find? fun p => p.req = r && p.waiting.contains port) = none → exec (.shootdownPort port r) s = .next s) ∧
    (s.pkg.shoots = [p] → p.req = r → p.waiting = [port] → p.begun.contains port = true → shootQuiet s { p with begun := NSet.insert p.begun port } port = true →
      (s.thread id).status = .parked .engine none → (s.thread id).col = none → s.occupied id = true →
      ∃ t, exec (.shootdownPort port r) s = .next t ∧ t.pkg.shoots = [] ∧ (t.thread id).status = .ready ∧
        (t.thread id).pc = pcNorm ((s.thread id).pc + 4#16) ∧ t.mem = s.mem ∧ OthersSame id s t) ∧
    (s.pkg.shoots = [p] → p.req = r → p.waiting.contains port = true → p.begun.contains port = true →
      shootQuiet s { p with begun := NSet.insert p.begun port } port = false →
      ∃ t, exec (.shootdownPort port r) s = .next t ∧ Due t (s.clock.now + 1) (.shootdownPort port r) ∧ t.mem = s.mem ∧ t.threads = s.threads)

/-! ## Scalar floats -/

/-- FADD, FSUB, FMUL, FMIN and FMAX write the FP32 result of the exact value rounded once under the thread's mode, and raise its flags (14
R248 to R250, 06 R113 to R115). -/
def Claim.FloatResults : Prop :=
  ∀ p ∈ floatForms, ∀ (s s1 s2 s3 : State) (d a b : Code) (x y : Bool) (va vb : Word),
    let r := p.2 (current s2).rm.toNat va vb
    admits { srcs := [a, b], dst := some d } s = true → Reads s a x va s1 → Reads s1 b y vb s2 → Writes s2 d r.1 s3 →
      exec (p.1 d a b x y) s = .next (advance (withFlags r.2 s3))

/-- The fused forms round product plus addend once; d is read as the addend (14 R251). -/
def Claim.FusedResults : Prop :=
  ∀ p ∈ fusedForms, ∀ (s s1 s2 s3 s4 : State) (d a b : Code) (x y : Bool) (va vb vd : Word),
    let r := once (current s3).rm.toNat (fmaNum (current s3).rm.toNat p.2.1 p.2.2 (f32Of va) (f32Of vb) (f32Of vd))
    admits { srcs := [a, b], dst := some d, readsDst := true } s = true → Reads s a x va s1 → Reads s1 b y vb s2 → Reads s2 d false vd s3 →
      Writes s3 d r.1 s4 → exec (p.1 d a b x y) s = .next (advance (withFlags r.2 s4))

/-- FDIV and FSQRT are producers: value and flags come 28 cycles after issue (14 R249, R256). -/
def Claim.FloatDivides : Prop :=
  ∀ (s s1 s2 : State) (d a b : Code) (x y : Bool) (va vb : Word) (dest : Dest),
    let comes (u t : State) (r : Word × Flags) : Prop := ∃ n,
      FMap.get? (current t).producers n = some { dest := dest, value := r.1, access := 0, isFloat := true, flags := r.2 } ∧
      Due t (u.clock.now + 28) (.producerResultArrival (tid u / 16) (tid u % 16) n) ∧
      (∀ q, dest = .reg q → (FMap.get {} (current t).regs q).full = false) ∧ (current t).fflags = (current u).fflags ∧ t.mem = u.mem ∧ OthersSame (tid u) u t
    (admits { srcs := [a, b], dst := some d } s = true → Reads s a x va s1 → Reads s1 b y vb s2 → Takes s2 d dest → s2.occupied (tid s2) = true →
      ∃ t, exec (.fdiv d a b x y) s = .next t ∧ comes s2 t (once (current s2).rm.toNat (divNum (f32Of va) (f32Of vb)))) ∧
    (admits { srcs := [a], dst := some d } s = true → Reads s a x va s1 → Takes s1 d dest → s1.occupied (tid s1) = true →
      ∃ t, exec (.fsqrt d a x) s = .next t ∧ comes s1 t (once (current s1).rm.toNat (sqrtNum (f32Of va))))

/-- FCVT converts between the formats that its fields name, under the mode and the overflow policy it names, and traps with Conversion
Overflow where policy 3 says so (14 R252, R253, 06 R117 to R119). -/
def Claim.ConvertResults : Prop :=
  ∀ (s s1 s2 : State) (d a : Code) (f g : BitVec 3) (p : BitVec 2) (r : BitVec 3) (va : Word),
    let mode := if r.toNat = 4 then (current s1).rm.toNat else r.toNat
    let c := (cvtFmt g.toNat).convert mode p.toNat ((cvtFmt f.toNat).decode (va.toNat % 2 ^ (cvtFmt f.toNat).width))
    admits { srcs := [a], dst := some d, literals := decide (r.toNat ≤ 4 ∧ f ≠ g ∧ ¬(5 ≤ f.toNat ∧ 5 ≤ g.toNat)) } s = true → Reads s a false va s1 →
    (c.trap = false → Writes s1 d (if g = 7 then (BitVec.ofNat 32 c.code).signExtend 64 else BitVec.ofNat 64 c.code) s2 →
      exec (.fcvt d a f g p r) s = .next (advance (withFlags c.flags s2))) ∧
    (c.trap = true → exec (.fcvt d a f g p r) s = trapOr (takeTrap (tid s) 0x0E 0 (current s).faultPc) s)

/-- FSK compares FP32 values as SK compares words, and raises NV (14 R254, 10 R182). -/
def Claim.FloatSkips : Prop :=
  ∀ (s s1 s2 : State) (a b : Code) (c : BitVec 4) (k : BitVec 2) (p : BitVec 4) (x y : Bool) (va vb : Word) (f : Machine.Num → Machine.Num → Bool),
    floatConditions[c.toNat]? = some f → skipFits s k.toNat → admits { srcs := [a, b], literals := c.toNat < 8 } s = true →
    Reads s a x va s1 → Reads s1 b y vb s2 →
      let on := f (f32Of va) (f32Of vb)
      exec (.fsk a b c k p x y) s =
        .next (advance (withFlags (compareFlags c (f32Of va) (f32Of vb)) (annulled on k.toNat (withPredicate p.toNat on s2))))

/-- FCLASS, FFRD, FFCLR, FRMSET and FRMRD; those that read or write what divides raise wait for them, not counted (14 R255, R256). -/
def Claim.FloatControl : Prop :=
  ∀ (s s1 s2 : State) (d a : Code) (x : Bool) (v : Word),
    (admits { srcs := [a], dst := some d } s = true → Reads s a x v s1 →
      (Writes s1 d (BitVec.ofNat 64 (2 ^ fclassOf v)) s2 → exec (.fclass d a x) s = .next (advance s2)) ∧
      (floatsDone s → Writes s1 d ((current s1).fflags.setWidth 64) s2 →
        exec (.ffclr d a x) s = .next (advance ((Eff.thr (tid s2) fun t => { t with fflags := t.fflags &&& ~~~(v.setWidth 5) }).apply s2))) ∧
      (floatsDone s → v.toNat ≤ 3 → Writes s1 d ((current s1).rm.setWidth 64) s2 →
        exec (.frmset d a x) s = .next (advance ((Eff.thr (tid s2) fun t => { t with rm := v.setWidth 2 }).apply s2))) ∧
      (floatsDone s → 3 < v.toNat → exec (.frmset d a x) s = trapOr (takeTrap (tid s) 0x02 0 (current s).faultPc) s)) ∧
    (admits { dst := some d } s = true →
      (floatsDone s → Writes s d ((current s).fflags.setWidth 64) s1 → exec (.ffrd d) s = .next (advance s1)) ∧
      (¬floatsDone s → exec (.ffrd d) s = event (enterWait false []) s) ∧
      (Writes s d ((current s).rm.setWidth 64) s1 → exec (.frmrd d) s = .next (advance s1)))

/-- Sums, products and fused sums of finite values are exact before their one rounding (06 R115). -/
def Claim.ExactArithmetic : Prop :=
  ∀ (mode : Nat) (x y c : Machine.Num) (e0 e1 : Int), isFinite x = true → isFinite y = true → isFinite c = true → e0 ≤ exponentOf x → e1 ≤ exponentOf y →
    let m := mulNum x y;
    (isFinite m.1 = true ∧ m.2 = 0 ∧ unitsOf m.1 (e0 + e1) = unitsOf x e0 * unitsOf y e1) ∧
    (e0 ≤ exponentOf c → let r := addNum mode x c;
      isFinite r.1 = true ∧ r.2 = 0 ∧ unitsOf r.1 e0 = unitsOf x e0 + unitsOf c e0) ∧
    (e0 + e1 ≤ exponentOf c → ∀ negProd negAdd, let r := fmaNum mode negProd negAdd x y c;
      isFinite r.1 = true ∧ r.2 = 0 ∧
        unitsOf r.1 (e0 + e1) = (if negProd then -1 else 1) * (unitsOf x e0 * unitsOf y e1) + (if negAdd then -1 else 1) * unitsOf c (e0 + e1))

/-- Rounding a magnitude: to nearest with ties to even, toward zero, and toward minus and plus infinity (06 R112). -/
def Claim.RoundingModes : Prop :=
  ∀ (neg : Bool) (m drop : Nat),
    let u := 2 ^ drop;
    (let r := roundMag 0 neg m drop;
      2 * (r * u) ≤ 2 * m + u ∧ 2 * m ≤ 2 * (r * u) + u ∧ (2 * (r * u) = 2 * m + u ∨ 2 * m = 2 * (r * u) + u → r % 2 = 0)) ∧
    (let r := roundMag 1 neg m drop; r * u ≤ m ∧ m < (r + 1) * u) ∧
    (let r := roundMag 2 neg m drop; if neg then m ≤ r * u ∧ r * u < m + u else r * u ≤ m ∧ m < (r + 1) * u) ∧
    (let r := roundMag 3 neg m drop; if neg then r * u ≤ m ∧ m < (r + 1) * u else m ≤ r * u ∧ r * u < m + u)

/-! ## Messages, virtual time and links -/

/-- SEND takes its payload, stamps it with VT + LA, and puts the message in the core's send queue; d gets the stamp (13 R241). -/
def Claim.SendResult : Prop :=
  ∀ (s s1 s2 u : State) (d a b : Code) (x y : Bool) (va vb : Word) (c n : Nat) (ps : List (Word × Part)) (bs : List Byte) (dest : Dest),
    let k := tid s2 / 16
    let la := bits va 55 48
    let vt := (s2.coreOf k).vt
    admits { srcs := [a, b], dst := some d } s = true → (current s).held = [] → Reads s a x va s1 → Reads s1 b y vb s2 →
    va &&& 0xFF00C000FF000000 = 0 → la ≠ 0 → bits va 45 40 = n → 1 ≤ n → n ≤ 62 → bits va 39 32 < 0xF8 →
    Names s2 (va &&& 0xFFFFFF) c → vt ≠ BitVec.allOnes 64 → vt.toNat + la ≤ 2 ^ 64 - 2 → oldestOrOutside s2 → Performs awaitPoint s2 () s2 →
    vb.toNat % 8 = 0 → (current s2).sending = none → Performs (locateWords vb n) s2 ps u → Takes u d dest →
    (u.coreOf k).sendq.length < 8 → Performs (gather [va, vb] ps) u (some bs) u →
    (owner u).twin = none → u.occupied (tid u) = true →
    let stamp := vt + BitVec.ofNat 64 la
    let m : Message := { fromCore := k, toCore := c, src := (owner u).cid, chan := bits va 39 32, stamp := stamp,
                         data := (payloadWords n bs).map fun w => (w, false), away := none, ctx := (owner u).ctx, num := u.pkg.nextMessage }
    ∃ t, exec (.send d a b x y) s = .next t ∧ (t.coreOf k).sendq = (u.coreOf k).sendq ++ [(m, false)] ∧
      Due t u.clock.now (.sendQueueDeliver k) ∧ Awaits u t dest stamp 0 0 ∧ t.mem = u.mem

/-- SEND with LA 0, with virtual time withdrawn, or with a payload address that is not a multiple of 8 is Illegal Operand (13 R241). -/
def Claim.SendTraps : Prop :=
  ∀ (s s1 s2 : State) (d a b : Code) (x y : Bool) (va vb : Word) (c : Nat),
    admits { srcs := [a, b], dst := some d } s = true → (current s).held = [] → Reads s a x va s1 → Reads s1 b y vb s2 → (current s2).sending = none →
    (bits va 55 48 = 0 → exec (.send d a b x y) s = trapOr (takeTrap (tid s) 0x02 0 (current s).faultPc) s) ∧
    (Names s2 (va &&& 0xFFFFFF) c → (s2.coreOf (tid s2 / 16)).vt = BitVec.allOnes 64 →
      exec (.send d a b x y) s = trapOr (takeTrap (tid s) 0x02 0 (current s).faultPc) s) ∧
    (Names s2 (va &&& 0xFFFFFF) c → oldestOrOutside s2 → Performs awaitPoint s2 () s2 → vb.toNat % 8 ≠ 0 →
      exec (.send d a b x y) s = trapOr (takeTrap (tid s) 0x02 0 (current s).faultPc) s)

/-- RECV takes the released message of least stamp: its record goes to the buffer, d gets the stamp, ST is 0 and virtual time rises to it. A
record that is too long stays and sets ST. Without one, a polling RECV returns all ones with ST, another parks until one is released, or, in a
furrow or with a link source, keeps its turn and tries again (13 R242, 04 R78, R81). -/
def Claim.RecvResult : Prop :=
  ∀ (s s1 s2 u : State) (d a b : Code) (x y : Bool) (va vb : Word) (st : Staged) (parts : List Part) (dest : Dest),
    let k := tid s2 / 16
    let cap := bits va 14 8
    let chan := bits va 7 0
    let i := FMap.get {} (u.coreOf k).inboxes (chan % 4)
    let waits : Receiver := { slot := tid u % 16, chan := chan, dest := dest, polls := true, buf := parts.zipIdx.map fun p => (vb + BitVec.ofNat 64 (8 * p.2), p.1.place) }
    admits { srcs := [a, b], dst := some d } s = true → Reads s a x va s1 → Reads s1 b y vb s2 → bits va 63 16 = 0 → 2 ≤ cap → cap ≤ 64 → chan < 0xF8 →
    vb.toNat % 8 = 0 → Performs (segment vb (8 * cap) .store) s2 st s2 →
    Performs (locateParts vb .store st ((List.range cap).map fun i => (8 * i, 8))) s2 parts u → Admitted u vb true 8 parts → oldestOrOutside u →
    readsDone u → Takes u d dest → (∀ r ∈ (u.coreOf k).receivers, r.chan ≠ chan) → u.occupied (tid u) = true → u.clock.slot < 16 →
    (∀ r, best (released u k chan) = some r → 8 * parts.length < recLen r.plen →
      ∃ t, exec (.recv d a b x y) s = .next t ∧ Awaits u t dest r.stamp 0 0 ∧ (current t).pw = pwNorm (setBit (current u).pw 18 true) ∧
        t.mem = u.mem ∧ (t.coreOf k).inboxes = (u.coreOf k).inboxes ∧ (t.coreOf k).vt = (u.coreOf k).vt) ∧
    (∀ r, best (released u k chan) = some r → recLen r.plen ≤ 8 * parts.length → r.off = i.head →
      let src := inboxKey k i r.off
      let used := parts.take (recLen r.plen / 8)
      (∀ p ∈ used, plainPlace p.place = true ∧ Clean u (keyOfPart p) 8 ∧ Unwatched u (keyOfPart p) 8 ∧ inInbox k i (keyOfPart p) = false) →
      (∀ n, n < used.length → u.poisonAt (src + 8 * n) = false ∧ FMap.get? u.pkg.eccBad (src + 8 * n) = none) →
      ∃ t, exec (.recv d a b x y) s = .next t ∧ Awaits u t dest r.stamp 0 0 ∧ (current t).pw = pwNorm (setBit (current u).pw 18 false) ∧
        t.mem = copiedAt u.mem src used ∧
        (t.coreOf k).vt = (if (u.coreOf k).vt ≠ BitVec.allOnes 64 ∧ (u.coreOf k).vt.toNat < r.stamp.toNat then r.stamp else (u.coreOf k).vt)) ∧
    (released u k chan = [] → bit va 15 = true →
      ∃ t, exec (.recv d a b x y) s = .next t ∧ Awaits u t dest (BitVec.allOnes 64) 0 0 ∧ (current t).pw = pwNorm (setBit (current u).pw 18 true) ∧
        t.mem = u.mem) ∧
    (released u k chan = [] → bit va 15 = false → (current u).col.isSome = true ∨ isLink a = true ∨ isLink b = true →
      exec (.recv d a b x y) s = event (enterWait true (if (u.coreOf k).receivers.any (·.slot = tid u % 16) then [] else
        [.core k fun c => { c with receivers := c.receivers ++ [waits] }])) s) ∧
    (released u k chan = [] → bit va 15 = false → (current u).col = none → isLink a = false → isLink b = false →
      ∃ t, exec (.recv d a b x y) s = .next t ∧ (current t).status = .parked .registered (some u.clock.now) ∧ t.mem = u.mem ∧
        (current t).pc = (current u).pc ∧ ((t.coreOf k).receivers.map fun r => (r.slot, r.chan, r.dest)) =
          ((u.coreOf k).receivers.map fun r => (r.slot, r.chan, r.dest)) ++ [(tid u % 16, chan, dest)])

/-- VTADV raises virtual time, withdraws it or joins again; GLBRD reads the bound that the core sees, which never exceeds the tree's (13 R239,
R240). -/
def Claim.TimeResults : Prop :=
  ∀ (s s1 : State) (d a : Code) (x : Bool) (v : Word) (dest : Dest),
    (let k := s1.clock.core
     let new := virtualTime (s1.coreOf k).vt v (treeGlb s1 (corePart s1 k))
     admits { srcs := [a], dst := some d } s = true → Reads s a x v s1 → oldestOrOutside s1 → Takes s1 d dest → s1.occupied (tid s1) = true →
      ∃ t, exec (.vtadv d a x) s = .next t ∧ (t.coreOf k).vt = new ∧ Filled t dest new ∧ t.mem = s1.mem ∧ OthersSame (tid s1) s1 t) ∧
    (admits { dst := some d } s = true → Writes s d (BitVec.ofNat 64 (seenGlb s s.clock.core)) s1 → exec (.glbrd d) s = .next (advance s1)) ∧
    seenGlb s s.clock.core ≤ treeGlb s (corePart s s.clock.core)

/-- LCFG reads a link's queue and room, and flushes the queue where b is 1 (13 R244). -/
def Claim.LinkConfig : Prop :=
  ∀ (s s1 s2 s3 : State) (d a b : Code) (x y : Bool) (va vb : Word) (dest : Dest), 
    let dir := Dir.ofIdx va.toNat
    admits { srcs := [a, b], dst := some d, unit := hasLinks } s = true → Reads s a x va s1 → Reads s1 b y vb s2 →
    (va.toNat ≤ 3 → vb = 0 → Writes s2 d (linkStatus s2 s2.clock.core dir) s3 → exec (.lcfg d a b x y) s = .next (advance s3)) ∧
    (va.toNat ≤ 3 → vb = 1 → (current s2).col = none → oldestOrOutside s2 → Takes s2 d dest → s2.occupied (tid s2) = true →
      ∃ t, exec (.lcfg d a b x y) s = .next t ∧ FMap.get [] (t.coreOf s2.clock.core).links dir.idx = [] ∧
        Filled t dest (linkStatus s2 s2.clock.core dir) ∧ t.mem = s2.mem) ∧
    (3 < va.toNat ∨ 1 < vb.toNat → exec (.lcfg d a b x y) s = trapOr (takeTrap (tid s) 0x02 0 (current s).faultPc) s)

/-- A pushed word joins the inbound queue of the neighbour, a credit comes back to its sender, at most 32 in all; a sealed core takes no word
(04 R76, 25 R369). -/
def Claim.LinkEvents : Prop :=
  ∀ (s : State) (k : Nat) (d : Dir) (v : Word),
    ((s.coreOf k).isSealed = false → (∀ b, (s.coreOf k).bist = some b → b.test ≠ 4) →
      ∃ t, exec (.linkWordArrival k d v) s = .next t ∧ FMap.get [] (t.coreOf k).links d.idx = FMap.get [] (s.coreOf k).links d.idx ++ [v] ∧
        t.mem = s.mem ∧ t.threads = s.threads) ∧
    ((s.coreOf k).isSealed = true → exec (.linkWordArrival k d v) s = .next s) ∧
    ∃ t, exec (.linkCreditReturn k d) s = .next t ∧
      FMap.get 32 (t.coreOf k).credits d.idx = min 32 (FMap.get 32 (s.coreOf k).credits d.idx + 1) ∧ t.mem = s.mem ∧ t.threads = s.threads

/-- A message arrives: its record stands at the tail of the inbox of its channel; without room it is counted and comes again after a rotation; a
sealed core drops it (05 R102, R103, 25 R369). -/
def Claim.MessageArrival : Prop :=
  ∀ (s : State) (k : Nat) (m : Message),
    let i := m.chan % 4
    let b := FMap.get {} (s.coreOf k).inboxes i
    let words := m.stamp :: BitVec.ofNat 64 (m.chan % 256 * 2 ^ 40 + m.src % 2 ^ 24 * 2 ^ 16 + 8 * m.data.length) ::
      (m.data.map (·.1) ++ if m.data.length % 2 = 1 then [0] else [])
    ((s.coreOf k).isSealed = false → underTest s (inboxKey k b 0) = false → recordFits b m = true → Untouched s (inboxKey k b b.tail) (8 * words.length) →
      (s.coreOf k).receivers = [] →
      ∃ t, exec (.inboxPlace k m) s = .next t ∧
        t.mem = Memory.writeList s.mem (inboxKey k b b.tail) (words.flatMap fun w => leBytes 8 w.toNat) ∧
        (FMap.get {} (t.coreOf k).inboxes i).tail = (b.tail + 8 * words.length) % (64 * b.size) ∧ (FMap.get {} (t.coreOf k).inboxes i).head = b.head ∧
        t.threads = s.threads) ∧
    ((s.coreOf k).isSealed = false → underTest s (inboxKey k b 0) = false → b.en = false →
      ∃ t, exec (.inboxPlace k m) s = .next t ∧ Due t (s.clock.now + 16) (.messageResend m) ∧ FMap.get 0 (t.coreOf k).errs 2 = oneMore s k 2 ∧
        t.mem = s.mem ∧ t.threads = s.threads) ∧
    ((s.coreOf k).isSealed = true → m.fromCore < 2 ^ 13 →
      ∃ t, exec (.inboxPlace k m) s = .next t ∧ FMap.get 0 (t.coreOf m.fromCore).errs 13 = oneMore s m.fromCore 13 ∧ t.mem = s.mem ∧
        t.threads = s.threads) ∧
    ∃ t, exec (.messageResend m) s = .next t ∧ Due t s.clock.now (.inboxPlace m.toCore m) ∧ t.mem = s.mem ∧ t.threads = s.threads

/-- A message leaves the send queue when its channel has a credit and is on its way after that; without one it stays (13 R241, 25 R381). -/
def Claim.SendQueue : Prop :=
  ∀ (s : State) (k : Nat) (m : Message), (s.coreOf k).sendq = [(m, false)] → m.away = none →
    let c := creditOf (s.coreOf k) m.toCore m.chan
    (c.crd ≠ 0 → c.quiet = false →
      ∃ t, exec (.sendQueueDeliver k) s = .next t ∧ (t.coreOf k).sendq = [(m, true)] ∧ (creditOf (t.coreOf k) m.toCore m.chan).crd = c.crd - 1 ∧
        (creditOf (t.coreOf k) m.toCore m.chan).sent = (c.sent + 1) % 2 ^ 32 ∧ Due t (s.clock.now + Config.transit k m.toCore) (.inboxPlace m.toCore m) ∧
        t.mem = s.mem ∧ t.threads = s.threads) ∧
    (c.crd = 0 ∨ c.quiet = true → exec (.sendQueueDeliver k) s = .next s)

/-- A credit comes back to its sender; an audit that does not balance sets the credits to 8 less the untaken records and is counted (25 R381,
R382). -/
def Claim.CreditEvents : Prop :=
  ∀ (s : State) (k src chan : Nat),
    (∃ t, exec (.creditReturn k src chan) s = .next t ∧
      (creditOf (t.coreOf k) src chan).crd = (creditOf (s.coreOf k) src chan).crd + 1 ∧ Due t s.clock.now (.sendQueueDeliver k) ∧
      t.mem = s.mem ∧ t.threads = s.threads) ∧
    (let c := creditOf (s.coreOf src) k chan
     let cons := (takenOf (s.coreOf k) src chan).cons
     let coming := (s.clock.events.filter fun e => e.act = .creditReturn src k chan).length
     ((c.sent + 2 ^ 32 - cons + c.crd + coming) % 2 ^ 32 = 8 →
        ∃ t, exec (.channelAudit k src chan) s = .next t ∧ creditOf (t.coreOf src) k chan = { c with quiet := false, target := k, chan := chan } ∧
          (t.coreOf src).errs = (s.coreOf src).errs ∧ t.mem = s.mem ∧ t.threads = s.threads) ∧
     ((c.sent + 2 ^ 32 - cons + c.crd + coming) % 2 ^ 32 ≠ 8 → (∀ m ∈ (s.coreOf src).sendq, ¬(m.2 = true ∧ m.1.toCore = k ∧ m.1.chan = chan)) →
        ∃ t, exec (.channelAudit k src chan) s = .next t ∧ (creditOf (t.coreOf src) k chan).crd = 8 - untaken s k src chan ∧
          FMap.get 0 (t.coreOf src).errs 10 = oneMore s src 10 ∧ t.mem = s.mem ∧ t.threads = s.threads))

/-- The bound reaches a core; a released message goes to the RECV that has waited longest on its channel, which goes on at the next word (13
R240, R242). -/
def Claim.BoundEvents : Prop :=
  ∀ (s s1 : State) (k chan : Nat) (w : Receiver) (r : InRec),
    ((s.coreOf k).receivers = [] →
      ∃ t, exec (.glbUpdate k) s = .next t ∧ (t.coreOf k).glb = BitVec.ofNat 64 (treeGlb s (corePart s k)) ∧ t.mem = s.mem ∧ t.threads = s.threads) ∧
    ((∀ q ∈ (s.coreOf k).receivers, q.chan ≠ chan) →
      ∃ t, exec (.messageRelease k chan) s = .next t ∧ t.mem = s.mem ∧ t.threads = s.threads ∧ t.cores = s.cores) ∧
    ((s.coreOf k).receivers = [w] → w.chan = chan → w.polls = false → chan < 0xF8 → best (released s k chan) = some r →
      Performs (deliverTo (tidOf k w.slot) r w.buf w.dest) ((Eff.core k fun c => { c with receivers := [] }).apply s) () s1 →
      s1.occupied (tidOf k w.slot) = true →
      ∃ t, exec (.messageRelease k chan) s = .next t ∧ (t.thread (tidOf k w.slot)).status = .ready ∧
        (t.thread (tidOf k w.slot)).pc = pcNorm ((s.thread (tidOf k w.slot)).pc + 4#16) ∧ t.mem = s1.mem)

/-! ## Tiles -/

/-- SHAPE grants a shape and answers with it; a request that no register holds is cut to what it can hold (14 R258). -/
def Claim.ShapeResult : Prop :=
  ∀ (s s1 s2 s3 : State) (d a b : Code) (x y : Bool) (va vb : Word),
    let w := 2 ^ bits va 33 32
    let gc := min (bits va 31 16) (256 / w)
    let gr := min (min (bits va 15 0) 64) (2048 / (gc * w))
    let sh : Shape := { es := bits va 33 32, gc := gc, gr := gr, ac := min (bits vb 31 16) gc, ar := min (bits vb 15 0) gr }
    admits { unit := hasTiles, srcs := [a, b], dst := some d } s = true → Reads s a x va s1 → Reads s1 b y vb s2 →
    (bits va 63 34 = 0 → bits va 33 32 ≠ 3 → bits va 31 16 ≠ 0 → bits va 15 0 ≠ 0 → bits vb 63 32 = 0 →
      Writes s2 d (BitVec.ofNat 64 (gc * 2 ^ 48 + gr * 2 ^ 32 + sh.ac * 2 ^ 16 + sh.ar)) s3 →
      exec (.shape d a b x y) s = .next (advance ((Eff.thr (tid s3) fun t => { t with shape := sh }).apply s3)) ∧
      gc * w ≤ 256 ∧ gr * gc * w ≤ 2048) ∧
    (bits va 31 16 = 0 → exec (.shape d a b x y) s = trapOr (takeTrap (tid s) 0x02 0 (current s).faultPc) s)

/-- Arithmetic and logic of the lanes of two registers (14 R265, R266, R260). -/
def Claim.LaneResults : Prop :=
  ∀ (s : State) (d m n t : BitVec 3) (u sat : Bool),
    let h := current s
    let w := tyWidth t.toNat
    2 ^ h.shape.es = w → laneFit h w → s.occupied (tid s) = true →
    (∀ p ∈ laneForms, admits { unit := hasTiles, literals := t ≠ 7 && optionsFit t u sat } s = true →
      let f (i j : Nat) := p.2 t.toNat u sat h.rm.toNat (laneOf h m.toNat w i j) (laneOf h n.toNat w i j)
      ∃ v, exec (p.1 d m n u sat t) s = .next v ∧ TileWritten s v d.toNat w h.shape.ar h.shape.ac (fun i j => (f i j).1) ∧
        LaneFlags s v h.shape.ar h.shape.ac fun i j => (f i j).2) ∧
    (∀ p ∈ laneLogicForms, admits { unit := hasTiles, literals := t ≠ 7 } s = true →
      ∃ v, exec (p.1 d m n t) s = .next v ∧ (current v).fflags = h.fflags ∧
        TileWritten s v d.toNat w h.shape.ar h.shape.ac fun i j => p.2 (laneOf h m.toNat w i j) (laneOf h n.toNat w i j)) ∧
    (∀ p ∈ laneFusedForms, admits { unit := hasTiles, literals := t ≠ 7 && optionsFit t u sat } s = true →
      let f (i j : Nat) := laneFusedResult p.2.1 p.2.2 t.toNat u sat h.rm.toNat (laneOf h m.toNat w i j) (laneOf h n.toNat w i j) (laneOf h d.toNat w i j)
      ∃ v, exec (p.1 d m n u sat t) s = .next v ∧ TileWritten s v d.toNat w h.shape.ar h.shape.ac (fun i j => (f i j).1) ∧
        LaneFlags s v h.shape.ar h.shape.ac fun i j => (f i j).2) ∧
    (∀ p ∈ laneUnaryForms, admits { unit := hasTiles, literals := t ≠ 7 && !u && optionsFit t false sat } s = true → u = false →
      ∃ v, exec (p.1 d m u sat t) s = .next v ∧ (current v).fflags = h.fflags ∧
        TileWritten s v d.toNat w h.shape.ar h.shape.ac fun i j => p.2 t.toNat sat (laneOf h m.toNat w i j))

/-- A tile instruction whose shape has no active lane, and whose type has the width of the shape, changes nothing; one whose type has another
width is Illegal Operand (14 R259, R260). -/
def Claim.LaneChecks : Prop :=
  ∀ (s : State) (d m n t : BitVec 3), admits { unit := hasTiles, literals := t ≠ 7 } s = true →
    ((current s).shape.idle = true → 2 ^ (current s).shape.es = tyWidth t.toNat →
      exec (.tand d m n t) s = .next (advance s) ∧ exec (.tmov d m t) s = .next (advance s) ∧ exec (.tsel d m n t) s = .next (advance s) ∧
      exec (.tadd d m n false false t) s = .next (advance s)) ∧
    (2 ^ (current s).shape.es ≠ tyWidth t.toNat →
      exec (.tand d m n t) s = trapOr (takeTrap (tid s) 0x02 0 (current s).faultPc) s ∧
      exec (.tmov d m t) s = trapOr (takeTrap (tid s) 0x02 0 (current s).faultPc) s ∧
      exec (.tadd d m n false false t) s = trapOr (takeTrap (tid s) 0x02 0 (current s).faultPc) s)

/-- TCVT converts each lane under the mode and the policy of its control word; a lane that policy 3 refuses is Conversion Overflow and nothing is
written (14 R267). -/
def Claim.LaneConversion : Prop :=
  ∀ (s s1 : State) (d m : BitVec 3) (a : Code) (y t : BitVec 3) (ctl : Word),
    let h := current s
    let w := tyWidth t.toNat
    let wd := tyWidth y.toNat
    let mode := if bits ctl 4 2 = 4 then h.rm.toNat else bits ctl 4 2
    let f (i j : Nat) : Cvt :=
      if t = y then { code := laneOf h m.toNat w i j }
      else (tyFmt y.toNat).convert mode (bits ctl 1 0) ((tyFmt t.toNat).decode (laneOf h m.toNat w i j))
    admits { unit := hasTiles, literals := t ≠ 7 && y ≠ 7, srcs := [a] } s = true → 2 ^ h.shape.es = w → laneFit h w → s.occupied (tid s) = true →
    h.shape.gc * wd ≤ 256 → h.shape.gr * h.shape.gc * wd ≤ 2048 → h.shape.ar ≤ h.shape.gr → Reads s a false ctl s1 → bits ctl 63 5 = 0 → bits ctl 4 2 ≤ 4 →
    ((∀ i j, i < h.shape.ar → j < h.shape.ac → (f i j).trap = false) →
      ∃ v, exec (.tcvt d m a y t) s = .next v ∧ TileWritten s1 v d.toNat wd h.shape.ar h.shape.ac (fun i j => (f i j).code) ∧
        LaneFlags s1 v h.shape.ar h.shape.ac fun i j => (f i j).flags) ∧
    ((∃ i j, i < h.shape.ar ∧ j < h.shape.ac ∧ (f i j).trap = true) →
      exec (.tcvt d m a y t) s = trapOr (takeTrap (tid s) 0x0E 0 (current s).faultPc) s)

/-- Reductions into column 0 or row 0 (14 R268). -/
def Claim.LaneReductions : Prop :=
  ∀ p ∈ laneReduceForms, ∀ (s : State) (d m : BitVec 3) (c u sat : Bool) (t : BitVec 3),
    let h := current s
    let w := tyWidth t.toNat
    let f (i j : Nat) := reduceLanes p.2 t.toNat u sat h.rm.toNat (if c then laneColumn h m.toNat w j else laneRow h m.toNat w i)
    let rows := if c then 1 else h.shape.ar
    let cols := if c then h.shape.ac else 1
    admits { unit := hasTiles, literals := t ≠ 7 && optionsFit t u sat } s = true → 2 ^ h.shape.es = w → laneFit h w → s.occupied (tid s) = true →
    ∃ v, exec (p.1 d m c u sat t) s = .next v ∧ TileWritten s v d.toNat w rows cols (fun i j => (f i j).1) ∧
      LaneFlags s v rows cols fun i j => (f i j).2

/-- Broadcasts, permutations, moves, selects and single elements (14 R269 to R271). -/
def Claim.LaneMoves : Prop :=
  ∀ (s s1 : State) (d m n : BitVec 3) (a : Code) (t : BitVec 3) (v : Word),
    let h := current s
    let w := tyWidth t.toNat
    let lane (r : BitVec 3) (i j : Nat) := laneOf h r.toNat w i j
    let gives (after : State) (x : Instr) (f : Nat → Nat → Nat) : Prop :=
      ∃ u, exec x s = .next u ∧ (current u).fflags = h.fflags ∧ TileWritten after u d.toNat w h.shape.ar h.shape.ac f
    2 ^ h.shape.es = w → laneFit h w → s.occupied (tid s) = true →
    (admits { unit := hasTiles, literals := t ≠ 7 } s = true →
      gives s (.tmov d m t) (fun i j => lane m i j) ∧
      gives s (.ttrn d m t) (fun i j => if j < h.shape.ar ∧ i < h.shape.ac then lane m j i else 0) ∧
      gives s (.tshuf d m n t) (fun i j => if lane n i j < h.shape.ac then lane m i (lane n i j) else 0) ∧
      gives s (.tsel d m n t) (fun i j => if lane n i j = 0 then lane d i j else lane m i j)) ∧
    (admits { unit := hasTiles, literals := t ≠ 7, srcs := [a] } s = true → Reads s a false v s1 →
      gives s1 (.tbcs d a t) (fun _ _ => v.toNat) ∧
      (v.toNat < h.shape.ar → gives s1 (.tbrow d m a t) fun _ j => lane m v.toNat j) ∧
      (v.toNat < h.shape.ac → gives s1 (.tbcol d m a t) fun i _ => lane m i v.toNat) ∧
      gives s1 (.trot d m a t) (fun i j => lane m i ((j + v.toNat) % h.shape.ac)) ∧
      (h.shape.ar ≤ v.toNat → exec (.tbrow d m a t) s = trapOr (takeTrap (tid s) 0x02 0 h.faultPc) s)) ∧
    (admits { unit := hasTiles, literals := t ≠ 7 } s = true → a.toNat ≤ 30 → a.toNat % 2 = 0 → Reads s (a + 1) false v s →
      bits v 15 8 < h.shape.ar → bits v 7 0 < h.shape.ac →
      (Writes s a (if t.toNat ≤ 2 then BitVec.ofInt 64 (asInt w false (lane m (bits v 15 8) (bits v 7 0))) else BitVec.ofNat 64 (lane m (bits v 15 8) (bits v 7 0))) s1 →
        exec (.tget m a t) s = .next (advance s1)) ∧
      ∀ e, Reads s a false e s → ∃ u, exec (.tset d a t) s = .next u ∧ laneOf (current u) d.toNat w (bits v 15 8) (bits v 7 0) = e.toNat % 2 ^ (8 * w) ∧
        (current u).regs = h.regs ∧ u.mem = s.mem ∧
        ∀ k, (∀ b, b < w → k ≠ 2048 * d.toNat + (bits v 15 8 * h.shape.gc + bits v 7 0) * w + b) → (current u).tileByte k = h.tileByte k)

/-- TLD fills the active lanes from bank elements converted to the tile's type, after the checks of 14 R261. -/
def Claim.TileLoad : Prop :=
  ∀ (s : State) (d : BitVec 3) (a : Code) (p : BitVec 2) (t : BitVec 3) (ea st : Word) (r : TileRef),
    let h := current s
    let w := tyWidth t.toNat
    let bytes := overlay r.span (Memory.readList s.mem r.span r.len) (bufferOf s)
    let f (i j : Nat) := loadElement r.fmt (tyFmt t.toNat) h.rm.toNat p.toNat (bankCode bytes r (i * st.toInt + j))
    admits { unit := hasTiles, literals := t ≠ 7 } s = true → a.toNat ≤ 30 → a.toNat % 2 = 0 → 2 ^ h.shape.es = w → laneFit h w →
    s.occupied (tid s) = true → Reads s a false ea s → Reads s (a + 1) false st s → roomFor s 2 → Performs (tileRef ea st.toInt h.shape false) s r s →
    Performs (refuseElements ea r (elements h.shape st.toInt).flatten) s () s → Performs (awaitCuts { place := .own r.span, len := r.len, go := false }) s () s →
    ((∀ i j, i < h.shape.ar → j < h.shape.ac → (f i j).trap = false) →
      ∃ v, exec (.tld d a p t) s = .next v ∧ TileWritten s v d.toNat w h.shape.ar h.shape.ac (fun i j => (f i j).code) ∧
        LaneFlags s v h.shape.ar h.shape.ac fun i j => (f i j).flags) ∧
    ((∃ i j, i < h.shape.ar ∧ j < h.shape.ac ∧ (f i j).trap = true) →
      exec (.tld d a p t) s = trapOr (takeTrap (tid s) 0x0E 0 h.faultPc) s)

/-- TST to a bank whose elements have the tile's own type writes each active lane at its element, where no other element lies, and no other byte
(14 R263). -/
def Claim.TileStore : Prop :=
  ∀ (s : State) (d : BitVec 3) (a : Code) (p : BitVec 2) (t : BitVec 3) (ea st : Word) (r : TileRef),
    let h := current s
    let w := tyWidth t.toNat
    let at_ (i j : Nat) : Nat := ((r.key : Int) + (i * st.toInt + j) * w).toNat
    admits { unit := hasTiles, literals := t ≠ 7 } s = true → a.toNat ≤ 30 → a.toNat % 2 = 0 → 2 ^ h.shape.es = w → laneFit h w →
    s.occupied (tid s) = true → Reads s a false ea s → Reads s (a + 1) false st s → oldestOrOutside s → roomFor s 2 →
    Performs (tileRef ea st.toInt h.shape true) s r s → readsDone s → mxOf r.fmt = none → bankFmtOf r.fmt = tyFmt t.toNat →
    (∀ i j, i < h.shape.ar → j < h.shape.ac → 0 ≤ (r.key : Int) + (i * st.toInt + j) * w ∧
      ∀ x ∈ touched (at_ i j) w, Untouched s x 8 ∧ Clean s x 8) →
    ∃ v, exec (.tst d a p t) s = .next v ∧
      (∀ i j, i < h.shape.ar → j < h.shape.ac →
        (∀ i' j', i' < h.shape.ar → j' < h.shape.ac → (i, j) ≠ (i', j') → at_ i j ≠ at_ i' j') →
        Memory.readList v.mem (at_ i j) w = leBytes w (laneOf h d.toNat w i j)) ∧
      (∀ k, (∀ i j, i < h.shape.ar → j < h.shape.ac → ¬(at_ i j ≤ k ∧ k < at_ i j + w)) → Memory.read v.mem k = Memory.read s.mem k) ∧
      (∀ i j, i < h.shape.ar → j < h.shape.ac → ∀ x ∈ touched (at_ i j) w, v.fullAt x = true) ∧
      (current v).tiles = h.tiles ∧ (current v).regs = h.regs ∧ (current v).pc = pcNorm (h.pc + 4#16) ∧ OthersSame (tid s) s v

/-! ## The matrix array -/

/-- AZERO, AWR, ARD, ACHK and BSUM enter the queue of their core once the thread's accesses are done; a full queue makes them wait, not counted
(15 R272, R277, R278, R281). -/
def Claim.ArrayQueueing : Prop :=
  ∀ (s s1 : State) (a : Code) (x f : Bool) (ea ctl : Word) (key : Nat),
    let k := s.clock.core
    admits { unit := hasArray, srcs := [a] } s = true → oldestOrOutside s → accessesDone s →
    (Reads s a x ctl s1 → bits ctl 63 1 = 0 →
      (arrayRoom s1 → ∃ t, exec (.azero a x) s = .next t ∧ Queued s1 t (.azero ctl (owner s1).tcbKey)) ∧
      (¬arrayRoom s1 → exec (.azero a x) s = event (enterWait false []) s)) ∧
    (a.toNat ≤ 30 → a.toNat % 2 = 0 → Reads s a x ea s → Reads s (a + 1) false ctl s → arrayRoom s →
      (goodMove ctl false = true → Performs (moveSpan (owner s).segs k ea ctl false) s key s →
        ∃ t, exec (.awr a x) s = .next t ∧ Queued s t (.awr ctl key (owner s).tcbKey)) ∧
      (goodMove ctl true = true → Performs (moveSpan (owner s).segs k ea ctl true) s key s →
        ∃ t, exec (.ard a x) s = .next t ∧ Queued s t (.ard ctl key (owner s).tcbKey)) ∧
      (bits ctl 63 20 = 0 → bits ctl 19 12 ≤ 31 → Performs (localSpan (owner s).segs k ea 0 7 .store) s key s → ea.toNat % 8 = 0 →
        ∃ t, exec (.achk a x f) s = .next t ∧ Queued s t (.achk ctl key f (owner s).tcbKey)) ∧
      (bits ctl 63 12 = 0 → Performs (localSpan (owner s).segs k ea 0 15 .store) s key s → ea.toNat % 16 = 0 →
        ∃ t, exec (.bsum a x) s = .next t ∧ Queued s t (.bsum ctl key (owner s).tcbKey)))

/-- MMA enters the queue with its formats, counts and local-store operands checked; formats that do not pair and an address pair that is no even
register up to 30 are Illegal Operand, and an address pair that no operand needs is an illegal word (15 R274, R275). -/
def Claim.MmaQueueing : Prop :=
  ∀ (s s1 : State) (a b : Code) (x chk : Bool) (ctl ea eb : Word) (cls akey bkey : Nat),
    let m := mmaCtl ctl
    let local_ := decide (m.asrc = 2 ∨ m.bsrc = 2)
    let depth := [64, 128, 256, 256].getD cls 0
    admits { unit := hasArray, srcs := [a] } s = true → oldestOrOutside s → accessesDone s → Reads s a x ctl s1 →
    (bits ctl 63 36 = 0 → bits ctl 23 21 = 0 → m.asrc ≠ 3 → m.bsrc ≠ 3 → pairClass m.af m.bf = some cls → m.ka ≤ depth →
      (8 ≤ m.af ∧ m.af ≤ 10 ∨ 8 ≤ m.bf ∧ m.bf ≤ 10 → m.ka % 32 = 0) →
      (if local_ then b.toNat ≤ 30 ∧ b.toNat % 2 = 0 ∧ Reads s1 b false ea s1 ∧ Reads s1 (b + 1) false eb s1 else b = 0) →
      (if m.asrc = 2 then Performs (tileOperand (owner s1).segs s1.clock.core ea m.af ((m.ma - 1) * depth + (m.ka - 1))) s1 akey s1 else akey = 0) →
      (if m.bsrc = 2 then Performs (tileOperand (owner s1).segs s1.clock.core eb m.bf (m.lastB depth)) s1 bkey s1 else bkey = 0) → arrayRoom s1 →
      ∃ t, exec (.mma a b x chk) s = .next t ∧ Queued s1 t (.mma ctl akey bkey chk (owner s1).tcbKey)) ∧
    (local_ = false → b ≠ 0 → exec (.mma a b x chk) s = trapOr (takeTrap (tid s) 0x01 0 (current s).faultPc) s) ∧
    (local_ = true → 30 < b.toNat ∨ b.toNat % 2 = 1 → exec (.mma a b x chk) s = trapOr (takeTrap (tid s) 0x02 0 (current s).faultPc) s) ∧
    (local_ = false → b = 0 → pairClass m.af m.bf = none → exec (.mma a b x chk) s = trapOr (takeTrap (tid s) 0x02 0 (current s).faultPc) s)

/-- A command at the head executes: AZERO clears every cell, AWR writes cells from memory, ARD writes memory from cells (07 R132, R133, 15 R277). -/
def Claim.ArrayMoves : Prop :=
  ∀ (s : State) (k : Nat) (ctl : Word) (key task : Nat),
    let a := (s.coreOf k).array
    let rows := bits ctl 7 0
    let cols := bits ctl 15 8
    let at_ (i j : Nat) : Nat := key + 4 * (i * bits ctl 31 16 + j)
    (HeadRuns s k (.azero ctl task) →
      ∃ t, exec (.arrayCommandExecute k) s = .next t ∧ HeadDone s t k ∧ (∀ i j, (t.coreOf k).array.cell i j = 0) ∧
        (t.coreOf k).array.psn = (a.psn && ctl.getLsbD 0) ∧ (t.coreOf k).array.nv = (a.nv && ctl.getLsbD 0) ∧ t.mem = s.mem) ∧
    (HeadRuns s k (.awr ctl key task) → rows ≤ 65 → cols ≤ 65 → cols ≤ bits ctl 31 16 → key % 4 = 0 →
      (∀ i j, i < rows → j < cols → FMap.get? s.pkg.eccBad (at_ i j / 8 * 8) = none) →
      ∃ t, exec (.arrayCommandExecute k) s = .next t ∧ HeadDone s t k ∧
        (∀ i j, i < 65 → j < 65 → (t.coreOf k).array.cell i j =
          if i < rows ∧ j < cols then leValue (Memory.readList s.mem (at_ i j) 4) else a.cell i j) ∧
        ((t.coreOf k).array.psn = true ↔ a.psn = true ∨ ∃ i j, i < rows ∧ j < cols ∧ s.poisonAt (at_ i j) = true) ∧ t.mem = s.mem) ∧
    (HeadRuns s k (.ard ctl key task) → rows ≤ 65 → cols ≤ 65 → cols ≤ bits ctl 31 16 → key % 4 = 0 → bit ctl 63 = false → a.psn = false →
      (∀ i j, i < rows → j < cols → Untouched s (at_ i j / 8 * 8) 8 ∧ FMap.get? s.pkg.eccBad (at_ i j / 8 * 8) = none) →
      ∃ t, exec (.arrayCommandExecute k) s = .next t ∧ HeadDone s t k ∧
        (∀ i j, i < rows → j < cols → Memory.readList t.mem (at_ i j) 4 = leBytes 4 (a.cell i j)) ∧
        (∀ n, (∀ i j, i < rows → j < cols → ¬(at_ i j ≤ n ∧ n < at_ i j + 4)) → Memory.read t.mem n = Memory.read s.mem n) ∧
        (t.coreOf k).array.acc = a.acc)

/-- An MMA over two operands in local store: every active cell runs over its k-values, and no other cell changes; PSN records an operand in error
(07 R129, R130, 15 R274). -/
def Claim.MmaResult : Prop :=
  ∀ (s : State) (k : Nat) (ctl : Word) (akey bkey task cls : Nat) (x y : Operand),
    let m := mmaCtl ctl
    let a := (s.coreOf k).array
    let depth := [64, 128, 256, 256].getD cls 0
    HeadRuns s k (.mma ctl akey bkey false task) → m.asrc = 2 → m.bsrc = 2 → pairClass m.af m.bf = some cls → m.ka ≤ depth →
    Performs (fromStore akey m.af (aIndex depth) m.ma m.ka) s x s →
    Performs (fromStore bkey m.bf (fun j q => bIndex m.bf depth q j) m.na m.ka) s y s →
    ∃ t, exec (.arrayCommandExecute k) s = .next t ∧ HeadDone s t k ∧
      (∀ i j, i < 65 → j < 65 → (t.coreOf k).array.cell i j =
        if i < m.ma ∧ j < m.na then
          mmaCell (a.cell i j) (depth / 64) m.ka (fun q => [(prod m.af m.bf (x.at_ i q) (y.at_ j q)).1]) % 2 ^ 32
        else a.cell i j) ∧
      ((t.coreOf k).array.psn = (a.psn || x.bad || y.bad)) ∧ s.clock.now + 64 ≤ (t.coreOf k).array.freeAt ∧ t.mem = s.mem

/-- An MMA that needs a wide beat in a cycle takes it in that cycle and goes on in the next; one whose beat has not come holds the array; beats that
come join the buffer, and a sealed core takes none (07 R130). -/
def Claim.WideOperands : Prop :=
  ∀ (s : State) (k : Nat) (ctl : Word) (akey bkey task : Nat) (chk west : Bool) (bs : List Byte),
    let a := (s.coreOf k).array
    let r := a.run.getD {}
    let n := beatBytes (mmaCtl ctl).af r.cycle
    (HeadRuns s k (.mma ctl akey bkey chk task) → (mmaCtl ctl).asrc ≠ 2 → (s.coreOf (neighbour k .w)).isSealed = false → a.west.length < n →
      ∃ t, exec (.arrayCommandExecute k) s = .next t ∧ (t.coreOf k).array = { a with stalled := some s.clock.now } ∧ t.mem = s.mem ∧
        t.threads = s.threads) ∧
    (HeadRuns s k (.mma ctl akey bkey chk task) → (mmaCtl ctl).asrc = 0 → (mmaCtl ctl).bsrc = 2 → r.cycle < 63 → n ≤ a.west.length →
      ∃ t, exec (.arrayCommandExecute k) s = .next t ∧
        (t.coreOf k).array.run = some { cycle := r.cycle + 1, west := r.west ++ a.west.take n, north := r.north, bad := r.bad } ∧
        (t.coreOf k).array.west = a.west.drop n ∧ (t.coreOf k).array.acc = a.acc ∧ (t.coreOf k).array.queue = a.queue ∧
        Due t (s.clock.now + 1) (.arrayCommandExecute k) ∧ t.mem = s.mem ∧ t.threads = s.threads) ∧
    ((s.coreOf k).isSealed = false → (∀ b, (s.coreOf k).bist = some b → b.test ≠ 4) →
      ∃ t, exec (.wideBeatArrival k west bs) s = .next t ∧
        (t.coreOf k).array.west = (if west then (s.coreOf k).array.west ++ bs else (s.coreOf k).array.west) ∧
        (t.coreOf k).array.north = (if west then (s.coreOf k).array.north else (s.coreOf k).array.north ++ bs) ∧
        ((s.coreOf k).array.stalled.isSome = true → Due t s.clock.now (.arrayCommandExecute k)) ∧ t.mem = s.mem ∧ t.threads = s.threads) ∧
    ((s.coreOf k).isSealed = true → exec (.wideBeatArrival k west bs) s = .next s)

/-- ACHK writes the result word of its residues, BSUM the exact sum of its cells as two doublewords (15 R277, R281). -/
def Claim.ArrayChecks : Prop :=
  ∀ (s : State) (k : Nat) (ctl : Word) (key task : Nat) (fix : Bool),
    let a := (s.coreOf k).array
    let cells := (List.range (bits ctl 5 0 + 1)).flatMap fun i => (List.range (bits ctl 11 6 + 1)).map fun j => Fmt.f32.decode (a.cell i j)
    (HeadRuns s k (.achk ctl key fix task) → Untouched s key 8 →
      ∃ t, exec (.arrayCommandExecute k) s = .next t ∧ HeadDone s t k ∧
        t.mem = Memory.writeList s.mem key (leBytes 8 (checkResult a ctl fix).1.toNat) ∧
        ((checkResult a ctl fix).2 = none → (t.coreOf k).array.acc = a.acc)) ∧
    (HeadRuns s k (.bsum ctl key task) → Untouched s key 16 →
      ∃ t, exec (.arrayCommandExecute k) s = .next t ∧ HeadDone s t k ∧ (t.coreOf k).array.acc = a.acc ∧
        t.mem = Memory.writeList s.mem key (leBytes 8 (blockSum cells).1.toNat ++
          leBytes 8 ((if a.psn then 2 ^ 63 else 0) + (blockSum cells).2.1)))

/-- TILEMM is numbered and given its identifier at once, and enters the queue unless it is held (15 R279). -/
def Claim.TilemmResult : Prop :=
  ∀ (s s1 : State) (d a : Code) (h : Bool) (ea : Word) (key : Nat) (dest : Dest),
    let k := s1.clock.core
    let n := (s1.coreOf k).nextXid
    admits { unit := hasArray, srcs := [a], dst := some d } s = true → oldestOrOutside s → accessesDone s → Reads s a false ea s1 →
    Performs (localSpan (owner s1).segs k ea 0 63 .load) s1 key s1 → ea.toNat % 64 = 0 → Takes s1 d dest → s1.occupied (tid s1) = true →
    (h = false → arrayRoom s1) →
    ∃ t cmd, exec (.tilemm d a h) s = .next t ∧ FMap.get? (t.coreOf k).commands n = some cmd ∧ cmd.work = .tile key (owner s1).segs (!h) ∧ cmd.held = h ∧
      cmd.rep.xid = n ∧ (t.coreOf k).nextXid = n + 1 ∧ Filled t dest (BitVec.ofNat 64 (n % 2 ^ 16)) ∧
      (t.coreOf k).array.queue = (s1.coreOf k).array.queue ++ (if h then [] else [.tilemm n (owner s1).tcbKey]) ∧ t.mem = s1.mem

/-- The descriptor is copied and checked when the command comes to the head; one that fails completes with status 2 and an event record (15 R280). -/
def Claim.DescriptorCopy : Prop :=
  ∀ (s : State) (k i task key : Nat) (segs : FMap (BitVec 128)) (q : Bool) (cmd : Command) (rest : List ArrayCmd),
    let w := (List.range 8).map fun j => memDw s (key + 8 * j)
    (s.coreOf k).array.queue = .tilemm i task :: rest → FMap.get? (s.coreOf k).commands i = some cmd → cmd.work = .tile key segs q →
    (s.coreOf k).array.busy = false →
    (Performs (checkDescriptor k segs w) s () s →
      ∃ t, exec (.tilemmDescriptorCopy k) s = .next t ∧
        let a := (t.coreOf k).array
        a.busy = true ∧ a.held = false ∧ a.ph = 0 ∧ a.mb = 0 ∧ a.nb = 0 ∧ a.kb = 0 ∧ a.desc = w ∧ a.segs = segs ∧ a.running = some i ∧
        a.queue = (s.coreOf k).array.queue ∧ a.acc = (s.coreOf k).array.acc ∧
        Due t (s.clock.now + (max (s.coreOf k).array.freeAt (s.coreOf k).array.settledAt - s.clock.now)) (.tilemmStep k) ∧ t.mem = s.mem) ∧
    ((∃ c v keep, Stops (checkDescriptor k segs w) s (.trap c v keep)) → Single s cmd → FMap.get? s.pkg.tasks task = none → q = true →
      (s.coreOf k).commands = [(i, cmd)] →
      ∃ t, exec (.tilemmDescriptorCopy k) s = .next t ∧ (t.coreOf k).array.busy = false ∧ (t.coreOf k).array.queue = rest ∧
        Ended s t k i 2 { cmd.rep with mode := 1 } ∧ t.mem = s.mem)

/-- The sequencer's steps: C loaded or zeroed, the products over the depth, C stored, block by block in rows; the command completes once the last
step has settled (07 R134, R135). -/
def Claim.SequencerSteps : Prop :=
  ∀ (s s1 : State) (k : Nat) (bad : Option Bool),
    let a := (s.coreOf k).array
    let a1 := (s1.coreOf k).array
    let K := bits (a1.desc.getD 6 0) 41 28
    let N := bits (a1.desc.getD 6 0) 27 14
    (a.busy = false ∨ a.held = true → exec (.tilemmStep k) s = .next s) ∧
    (a.busy = true → a.held = false → (s.coreOf k).isSealed = false → (s.coreOf k).saving = false → a.mb < bits (a.desc.getD 6 0) 13 0 → a.gate (stepCommand k a) ≤ s.clock.now →
      Performs (runCommand k (stepCommand k a)) s bad s1 →
      ∃ t, exec (.tilemmStep k) s = .next t ∧
        let b := (t.coreOf k).array
        t.mem = s1.mem ∧ b.acc = a1.acc ∧ b.desc = a1.desc ∧ b.stepPsn = (a1.stepPsn || decide (bad = some true)) ∧
        (a1.ph = 0 → b.ph = 1 ∧ b.kb = 0 ∧ b.nb = a1.nb ∧ b.mb = a1.mb) ∧
        (a1.ph = 1 → a1.kb + 1 < K → b.ph = 1 ∧ b.kb = a1.kb + 1 ∧ b.nb = a1.nb ∧ b.mb = a1.mb) ∧
        (a1.ph = 1 → K ≤ a1.kb + 1 → b.ph = 2 ∧ b.kb = 0 ∧ b.nb = a1.nb ∧ b.mb = a1.mb) ∧
        (a1.ph = 2 → a1.nb + 1 < N → b.ph = 0 ∧ b.nb = a1.nb + 1 ∧ b.mb = a1.mb) ∧
        (a1.ph = 2 → N ≤ a1.nb + 1 → b.ph = 0 ∧ b.nb = 0 ∧ b.mb = a1.mb + 1)) ∧
    (∀ i cmd task rest, a.busy = true → a.held = false → (s.coreOf k).isSealed = false → (s.coreOf k).saving = false → bits (a.desc.getD 6 0) 13 0 ≤ a.mb →
      max a.freeAt a.settledAt ≤ s.clock.now → a.running = some i → a.queue = .tilemm i task :: rest → (s.coreOf k).commands = [(i, cmd)] →
      (∃ key segs, cmd.work = .tile key segs true) → Single s cmd → FMap.get? s.pkg.tasks task = none →
      ∃ t, exec (.tilemmStep k) s = .next t ∧ (t.coreOf k).array.busy = false ∧ (t.coreOf k).array.running = none ∧ (t.coreOf k).array.queue = rest ∧
        Ended s t k i (if a.stepPsn then 0x0C else 0) cmd.rep ∧ t.mem = s.mem)

/-- XRED adds a term exactly, XRND rounds the sum once, XCLR answers with the count and clears (15 R282 to R284, 06 R124, R125). -/
def Claim.ExactResults : Prop :=
  ∀ (s s1 s2 : State) (d a b : Code) (x y : Bool) (n w1 vb ctl : Word),
    (admits { unit := hasArray, srcs := [a, b] } s = true → a.toNat ≤ 30 → a.toNat % 2 = 0 → oldestOrOutside s → Reads s a x n s →
      Reads s (a + 1) false w1 s → Reads s b y vb s1 → vb.toNat ≤ 3 →
      let old := FMap.get {} (s1.coreOf s1.clock.core).exact vb.toNat
      let e := (BitVec.ofNat 16 (bits w1 15 0)).toInt
      ∃ t new, exec (.xred a b x y) s = .next t ∧ FMap.get? (t.coreOf s1.clock.core).exact vb.toNat = some new ∧
        new.psn = (old.psn || bit w1 63) ∧
        (old.count ≠ 2 ^ 32 - 1 → new.count = old.count + 1) ∧
        (old.count ≠ 2 ^ 32 - 1 → takesTerm w1 = true → new.cls = old.cls ∧ new.b = min old.b e ∧
          new.a = old.a * 2 ^ (old.b - min old.b e).toNat + n.toInt * 2 ^ (e - min old.b e).toNat ∧ (current t).fflags = (current s1).fflags) ∧
        t.mem = s1.mem) ∧
    (admits { unit := hasArray, srcs := [a], dst := some d } s = true → oldestOrOutside s → Reads s a x ctl s1 →
      let k := s1.clock.core
      (bits ctl 63 11 = 0 → bits ctl 4 2 ≤ 3 → bits ctl 9 7 ≤ 4 →
        let acc := FMap.get {} (s1.coreOf k).exact (bits ctl 1 0)
        let mode := if bits ctl 9 7 = 4 then (current s1).rm.toNat else bits ctl 9 7
        let c := (cvtFmt (bits ctl 4 2)).convert mode (bits ctl 6 5) (acc.num mode)
        (acc.psn = true → exec (.xrnd d a x) s = trapOr (takeTrap (tid s) 0x0C 0 (current s).faultPc) s) ∧
        (acc.psn = false → c.trap = true → exec (.xrnd d a x) s = trapOr (takeTrap (tid s) 0x0E 0 (current s).faultPc) s) ∧
        (acc.psn = false → c.trap = false → Writes s1 d (BitVec.ofNat 64 c.code) s2 →
          exec (.xrnd d a x) s = .next (advance (if bit ctl 10 then withExact k (bits ctl 1 0) {} (withFlags c.flags s2) else withFlags c.flags s2)))) ∧
      (ctl.toNat ≤ 3 → Writes s1 d (BitVec.ofNat 64 (FMap.get {} (s1.coreOf k).exact ctl.toNat).count) s2 →
        exec (.xclr d a x) s = .next (advance (withExact k ctl.toNat {} s2))))

/-! ## Engine commands -/

/-- CPY reads its parameter block and leaves for its master with its thread held (07 R137, R138, 15 R286). -/
def Claim.CopyIssue : Prop :=
  ∀ (s s1 s2 u : State) (d a : Code) (h : Bool) (ea : Word) (head tail : List Word) (c : Copy) (dest : Dest) (master : Nat),
    let w := head ++ tail
    let k := u.clock.core
    admits { srcs := [a], dst := some d } s = true → oldestOrOutside s → (current s).held = [] → Reads s a false ea s1 → Performs awaitPoint s1 () s1 →
    Performs (readBlockWords [ea] ea 8) s1 (some head) s2 →
    Performs (readBlockWords (ea :: head) (ea + 64) (4 * (bits (head.getD 2 0) 1 0 + 1))) s2 (some tail) u → head.length = 8 →
    goodCopyBlock ea w = true → Performs (copyOf w) u c u → goodDims c = true → SpansPass u c → goodGeometry c = true →
    openTransfers (u.coreOf k) < 64 → Takes u d dest → Performs c.src.master u master u → (master ≠ k → (owner u).twin = none) → u.occupied (tid u) = true →
    ∃ t, exec (.cpy d a h) s = .next t ∧ Departed u t dest master (ea :: (if h then 1 else 0) :: w) (.copyAccept k u.clock.slot)

/-- NBMV likewise (07 R146, R147, 15 R290). -/
def Claim.NearBankIssue : Prop :=
  ∀ (s s1 u : State) (d a : Code) (h : Bool) (ea : Word) (w : List Word) (nb : NearBank) (dest : Dest) (master : Nat),
    let k := u.clock.core
    let ctl := w.getD 4 0
    let f := bits ctl 29 26
    admits { srcs := [a], dst := some d } s = true → oldestOrOutside s → (current s).held = [] → Reads s a false ea s1 → Performs awaitPoint s1 () s1 →
    Performs (readBlockWords [ea] ea 8) s1 (some w) u → ea.toNat % 64 = 0 → bits ctl 63 33 = 0 → w.getD 6 0 = 0 → w.getD 7 0 = 0 →
    goodTarget (bits ctl 32 31) (w.getD 5 0) = true → 4 ≤ f → f ≤ 11 → w.getD 2 0 ≠ 0 → (w.getD 2 0).toNat % 256 = 0 →
    (8 ≤ f → (bits ctl 25 14 + 1) % 32 = 0) → Performs (nearBankOf w) u nb u → nb.x.own = true → (nb.y.own = true ∨ bit ctl 30 = true) → nb.w.own = false →
    (nb.x.fmt = some 4 ∨ nb.x.fmt = some 5) → (nb.y.own = true → nb.y.fmt = some 4) → (∀ m, mxOf f = some m → nb.w.base % m.rec_ = 0) →
    (∀ o x y z, (o, x, y, z) ∈ [(nb.x, (nbOffsets w nb.x nb.w).1, Need.load, 0), (nb.w, (nbOffsets w nb.x nb.w).2.1, Need.load, 1), (nb.y, (nbOffsets w nb.x nb.w).2.2, Need.store, 2)] →
      ∀ lo hi, extremes x = some (lo, hi) → Performs (checkSpan o lo hi y) u () u) →
    openTransfers (u.coreOf k) < 64 → Takes u d dest → Performs nb.w.master u master u → (master ≠ k → (owner u).twin = none) → u.occupied (tid u) = true →
    ∃ t, exec (.nbmv d a h) s = .next t ∧ Departed u t dest master (ea :: (if h then 1 else 0) :: w) (.nbmvAccept k u.clock.slot)

/-- A master accepts a command: it has the next transfer number, its thread the identifier; one that is not held starts (07 R137, R147). A master
that refuses traps the thread at its word; while 64 are open, or a publication of a group it writes waits, the command waits. -/
def Claim.Acceptance : Prop :=
  ∀ (s s1 : State) (k slot master : Nat) (ea h : Word) (w : List Word),
    let id := tidOf k slot
    let v := answering s k slot
    slot < 16 → s.occupied id = true → (∃ since, (s.thread id).status = .parked .engine since) → (s.thread id).held = ea :: h :: w →
    (s.thread id).twin = none → (s.thread id).iter = none → (s.thread id).col = none →
    (∀ c rg wg, openTransfers (s.coreOf k) < 64 → Performs (acceptCopy k w) v (c, rg, wg) s1 → Performs (awaitFlip wg) s1 () s1 →
      Performs c.src.master s1 master s1 →
      ∃ t, exec (.copyAccept k slot) s = .next t ∧ TakenUp s1 t k slot (.copy c) master (h ≠ 0) wg rg ∧
        (h = 0 → Due t (s.clock.now + Config.engineTime 0 (s.coreOf k).nextXid) (.copyElementLand (cmdId k (s.coreOf k).nextXid)))) ∧
    (∀ c x, openTransfers (s.coreOf k) < 64 → Stops (acceptCopy k w) v (.trap c x []) →
      exec (.copyAccept k slot) s = event (takeTrap id c x (s.thread id).faultPc) s) ∧
    (64 ≤ openTransfers (s.coreOf k) ∨ (∃ keep counts, Stops (acceptCopy k w) v (.wait counts keep)) →
      exec (.copyAccept k slot) s = event (plan 1 (.copyAccept k slot)) s) ∧
    (∀ nb rg wg, openTransfers (s.coreOf k) < 64 → Performs (acceptNear k w) v (nb, rg, wg) s1 → Performs (awaitFlip wg) s1 () s1 →
      Performs nb.w.master s1 master s1 →
      ∃ t, exec (.nbmvAccept k slot) s = .next t ∧ TakenUp s1 t k slot (.nearBank nb) master (h ≠ 0) wg rg ∧
        (h = 0 → Due t (s.clock.now + Config.engineTime 1 (nb.k * nb.n)) (.nbmvComplete (cmdId k (s.coreOf k).nextXid)))) ∧
    (∀ c x, openTransfers (s.coreOf k) < 64 → Stops (acceptNear k w) v (.trap c x []) →
      exec (.nbmvAccept k slot) s = event (takeTrap id c x (s.thread id).faultPc) s) ∧
    (64 ≤ openTransfers (s.coreOf k) ∨ (∃ keep counts, Stops (acceptNear k w) v (.wait counts keep)) →
      exec (.nbmvAccept k slot) s = event (plan 1 (.nbmvAccept k slot)) s)

/-- A copy lands unit by unit, each read, converted and written; a unit on a sealed core never lands and gives status 0x16 (07 R139, R140, 25 R369). -/
def Claim.CopyLands : Prop :=
  ∀ (s s1 s2 s3 : State) (k i : Nat) (cmd : Command) (c : Copy) (xs : List Taken1) (ls : List Machine.Landed),
    let pts := unitPoints c c.next
    let places := unitPlaces k c.src (pts.filterMap Prod.fst) ++ unitPlaces k c.dst (pts.map Prod.snd)
    let goesOn (t : State) : Prop := if c.next + 1 < units c then Due t (s.clock.now + Config.engineTime 0 (c.next + 1)) (.copyElementLand (cmdId k i))
      else Due t s.clock.now (.copyComplete (cmdId k i))
    k < 2 ^ 13 → FMap.get? (s.coreOf k).commands i = some cmd → cmd.work = .copy c → cmd.held = false → c.next < units c → c.phase = 0 → c.single = false →
    ((∀ p ∈ places, sealedPlace s p = false ∧ heldUp s p = false) → Performs (takeAll k c.src c.got c.marked (pts.map Prod.fst)) s xs s1 →
      Performs (landElements c (xs.zip (pts.map Prod.snd))) s1 ls s2 → Performs (landUnit k c.dst (c.reads k) ls) s2 () s3 → s3.clock.now = s.clock.now →
      ∃ t cmd' c', exec (.copyElementLand (cmdId k i)) s = .next t ∧ FMap.get? (t.coreOf k).commands i = some cmd' ∧ cmd'.work = .copy c' ∧
        t.mem = s3.mem ∧ c'.next = c.next + 1 ∧ goesOn t ∧
        cmd'.status = max cmd.status (max (if xs.any fun x => x.bad || x.badScale then 0x0C else 0) (if ls.any Landed.excess then 0x0E else 0))) ∧
    ((∃ p ∈ places, sealedPlace s p = true) →
      ∃ t cmd' c', exec (.copyElementLand (cmdId k i)) s = .next t ∧ FMap.get? (t.coreOf k).commands i = some cmd' ∧ cmd'.work = .copy c' ∧
        t.mem = s.mem ∧ c'.next = c.next + 1 ∧ cmd'.status = max cmd.status 0x16 ∧ goesOn t)

/-- A copy or near-bank command whose last element has landed completes with its status and is told; NBMV writes its sums first (07 R139, R146). -/
def Claim.EngineEnds : Prop :=
  ∀ (s s1 s2 s3 : State) (k i : Nat) (cmd : Command), k < 2 ^ 13 → FMap.get? (s.coreOf k).commands i = some cmd → Single s cmd →
    (∀ c, cmd.work = .copy c → units c ≤ c.next →
      ∃ t, exec (.copyComplete (cmdId k i)) s = .next t ∧ Ended s t k i cmd.status cmd.rep ∧ t.mem = s.mem) ∧
    (∀ nb, cmd.work = .nearBank nb → cmd.held = false → cmd.status ≠ 0 →
      ∃ t, exec (.nbmvComplete (cmdId k i)) s = .next t ∧ Ended s t k i cmd.status cmd.rep ∧ t.mem = s.mem) ∧
    (∀ nb xs rows, cmd.work = .nearBank nb → cmd.held = false → cmd.status = 0 → (∀ p ∈ nb.w.pages, heldUp s p.2 = false) →
      underTest s (lsKey k nb.x.base) = false → Performs (nbElements k nb.x 0 (List.range nb.k)) s xs s1 →
      Performs (nbRows k nb (List.range nb.k)) s1 rows s2 →
      let out := (List.range nb.n).map fun j => nbSum xs (rows.map fun r => r.getD j (.fin false 0 0, false))
      let land (q : (Nat × Bool) × Nat) : Machine.Landed :=
        { writes := [((32 * q.2 : Nat), 32, q.1.1)], bad := if q.1.2 then [((32 * q.2 : Nat), 32, q.1.1)] else [] }
      Performs (landUnit k nb.y (fun _ => false) (out.zipIdx.map land)) s2 () s3 →
      FMap.get? (s3.coreOf k).commands i = some cmd → Single s3 cmd →
      ∃ t, exec (.nbmvComplete (cmdId k i)) s = .next t ∧ Ended s3 t k i (if out.any Prod.snd then 0x0C else 0) cmd.rep ∧ t.mem = s3.mem)

/-- CHAIN ties a held command to another: counted while that is open, started at once if it is complete, cancelled with status 0x80 if it failed
(15 R288, 07 R144). -/
def Claim.ChainResult : Prop :=
  ∀ (s s1 s2 : State) (a b : Code) (x y : Bool) (va vb : Word) (p q : Nat) (st st' : Option Nat) (succ pred : Command),
    let k := s2.clock.core
    admits { srcs := [a, b] } s = true → oldestOrOutside s → Reads s a x va s1 → Reads s1 b y vb s2 → va.toNat < 2 ^ 16 → vb.toNat < 2 ^ 16 →
    transferOf (s2.coreOf k) va.toNat = some (p, st) → transferOf (s2.coreOf k) vb.toNat = some (q, st') →
    FMap.get? (s2.coreOf k).commands q = some succ → succ.held = true → p ≠ q →
    (st = none → succ.chains < 4 → FMap.get? (s2.coreOf k).commands p = some pred →
      ∃ t, exec (.chain a b x y) s = .next t ∧
        FMap.get? (t.coreOf k).commands q = some { succ with chains := succ.chains + 1, preds := succ.preds + 1 } ∧
        FMap.get? (t.coreOf k).commands p = some { pred with after := pred.after ++ [q] } ∧ t.mem = s2.mem) ∧
    (st = some 0 → succ.chains < 4 → 0 < succ.preds →
      ∃ t, exec (.chain a b x y) s = .next t ∧ FMap.get? (t.coreOf k).commands q = some { succ with chains := succ.chains + 1 } ∧ t.mem = s2.mem) ∧
    (4 ≤ succ.chains → exec (.chain a b x y) s = trapOr (takeTrap (tid s) 0x02 0 (current s).faultPc) s)

/-- PUBL holds its thread; the flip comes once every command of the group that was accepted before it is complete and no reduction of the context is
on its way, and reports in ST whether one failed (07 R142, 15 R287). -/
def Claim.Publication : Prop :=
  ∀ (s : State) (g : Code) (sc : BitVec 3) (ctx n id : Nat) (before : List (Nat × Nat)) (rest : List (Nat × Nat × List (Nat × Nat))),
    (admits { literals := decide (g ≠ 0 ∧ sc.toNat ≤ 5) } s = true → oldestOrOutside s → Performs awaitPoint s () s → s.occupied (tid s) = true →
      ∃ t, exec (.publ g sc) s = .next t ∧ (current t).status = .parked .engine none ∧ (current t).pc = (current s).pc ∧
        t.pkg.publs = s.pkg.publs ++ [((owner s).ctx * 128 + g.toNat, tid s, groupCommands s (owner s).ctx g.toNat)] ∧
        Due t s.clock.now (.publFlip (owner s).ctx g.toNat) ∧ t.mem = s.mem ∧ OthersSame (tid s) s t) ∧
    (let key := ctx * 128 + n
     s.pkg.publs = (key, id, before) :: rest →
      ((∃ p ∈ before, (FMap.get? (s.coreOf p.1).commands p.2).isSome = true) → exec (.publFlip ctx n) s = .next s) ∧
      ((∀ p ∈ before, FMap.get? (s.coreOf p.1).commands p.2 = none) → inFlight s ctx = true → exec (.publFlip ctx n) s = event (plan 1 (.publFlip ctx n)) s) ∧
      ((∀ p ∈ before, FMap.get? (s.coreOf p.1).commands p.2 = none) → inFlight s ctx = false →
        (∀ p ∈ s.cores, p.2.waiters = [] ∧ p.2.monRegs = [] ∧ p.2.barriers = []) → (∀ p ∈ s.threads, ∀ it, p.2.iter = some it → it.buf = []) → (∃ since, (s.thread id).status = .parked .engine since) → s.occupied id = true →
        (s.thread id).col = none →
        ∃ t, exec (.publFlip ctx n) s = .next t ∧ (t.pkg.selectors.contains key = !(s.pkg.selectors.contains key)) ∧
          (t.thread id).pw = pwNorm (setBit (s.thread id).pw 18 (s.pkg.clocheBad.contains key)) ∧ t.pkg.clocheBad.contains key = false ∧
          (t.thread id).status = .ready ∧ (t.thread id).pc = pcNorm ((s.thread id).pc + 4#16) ∧ t.mem = s.mem))

/-- ESTAT reports a transfer's status or the array's, as a producer, or at once when it drains and there is nothing left to wait for (15 R291). -/
def Claim.StatusResult : Prop :=
  ∀ (s s1 s2 : State) (d a : Code) (x : Bool) (va : Word) (n : Nat) (st : Option Nat),
    let k := s1.clock.core
    let c := s1.coreOf k
    let v : Word := match st with
      | some v => BitVec.ofNat 64 (2 ^ 24 + v * 2 ^ 16 + bits va 15 0)
      | none => BitVec.ofNat 64 (bits va 15 0)
    let whole := BitVec.ofNat 64 (openTransfers c * 2 ^ 40 + c.array.queue.length * 2 ^ 32 + (if c.array.busy then 2 ^ 31 else 0) +
      ((if c.array.psn then 8 else 0) + (if c.array.nv then 4 else 0) + (if c.array.ovf then 2 else 0) + if c.array.nx then 1 else 0))
    admits { srcs := [a], dst := some d } s = true → oldestOrOutside s → Reads s a x va s1 → bits va 63 17 = 0 →
    (bit va 16 = true → transferOf c (bits va 15 0) = some (n, st) →
      (Owes s1 d v estatTime 0 s2 → exec (.estat d a x false) s = .next (advance s2)) ∧
      (st ≠ none → Writes s1 d v s2 → exec (.estat d a x true) s = .next (advance s2)) ∧
      (st = none → exec (.estat d a x true) s = event (enterWait false []) s)) ∧
    (bit va 16 = false → bits va 15 0 = 0 → hasArray k = true →
      (Owes s1 d whole estatTime 0 s2 → exec (.estat d a x false) s = .next (advance s2)) ∧
      ((current s1).mwaitToken = 0 → c.array.queued ≤ c.array.finished → c.array.freeAt ≤ s1.clock.now → c.array.settledAt ≤ s1.clock.now →
        Writes ((Eff.thr (tid s1) fun t => { t with mwaitToken := 0 }).apply s1) d whole s2 → exec (.estat d a x true) s = .next (advance s2)))

/-! ## The integrator array -/

/-- PATCH and RLOAD write a range of cells from memory, RSAVE writes a range to memory; a bad entry or record is Illegal Operand and nothing is
written (16 R293 to R296, 08 R159, R160). -/
def Claim.RangeResults : Prop :=
  ∀ (s s1 : State) (a b : Code) (x y : Bool) (r : RangeRef) (ws : List Word),
    let k := s1.clock.core
    let g := ddaOf s1 k
    let same (t : State) : Prop := ∀ i, i ∉ rangeCells r → (ddaOf t k).cell i = g.cell i
    admits { unit := hasDda, srcs := [a, b] } s = true →
    (Performs (rangeRef a b x y false fun _ => 8) s r s1 → Performs (rangeWords r r.count) s1 ws s1 → ws.length = r.count →
      ((∀ w ∈ ws, goodEntry w = true ∧ (g.dom (bits w 62 61)).run = false) → (∀ i ∈ rangeCells r, (g.dom (g.cell i).dom).run = false) →
        ∃ t, exec (.patch a b x y) s = .next t ∧ t.mem = s1.mem ∧ same t ∧
          ∀ i w, ws[i]? = some w → (ddaOf t k).cell (r.first + i) = { g.cell (r.first + i) with patch := w, sat := false }) ∧
      ((∃ w ∈ ws, goodEntry w = false) → exec (.patch a b x y) s = trapOr (takeTrap (tid s) 0x02 0 (current s).faultPc) s)) ∧
    (Performs (rangeRef a b x y false fun _ => 16) s r s1 → Performs (rangeWords r (2 * r.count)) s1 ws s1 → ws.length = 2 * r.count →
      (∀ i, i < r.count → goodRecord (ws.getD (2 * i) 0) (ws.getD (2 * i + 1) 0) = true ∧ (g.dom (g.cell (r.first + i)).dom).run = false) →
      ∃ t, exec (.rload a b x y) s = .next t ∧ t.mem = s1.mem ∧ same t ∧ ∀ i, i < r.count →
        let c := (ddaOf t k).cell (r.first + i)
        let w0 := ws.getD (2 * i) 0
        let w1 := ws.getD (2 * i + 1) 0
        c.r = bits w0 63 32 ∧ c.y = (w0.setWidth 32).toInt ∧ c.dz = (BitVec.ofNat 2 (bits w1 23 22)).toInt ∧ c.sat = bit w1 21 ∧
        c.patch = (g.cell (r.first + i)).patch) ∧
    (Performs (rangeRef a b x y true fun pe => if pe then 8 else 16) s r s1 → readsDone s1 → (current s1).rsave = none →
      busyDomains g s1.clock.now (rangeCells r) = [] → Untouched s1 r.key (r.count * if r.pe then 8 else 16) →
      ∃ t, exec (.rsave a b x y) s = .next t ∧ (t.coreOf k).dda = g ∧
        t.mem = Memory.writeList s1.mem r.key ((rangeCells r).flatMap fun i => ((g.cell i).words r.pe).flatMap fun w => leBytes 8 w.toNat))

/-- DCFG reads a domain's or tap's register and, with bit 6 set, writes DCTL, DCOUNT or DSTOP; a DCTL written while a step is in progress takes effect
at the boundary after it; the count of a running domain does not change and ST is set (16 R297). -/
def Claim.DomainConfig : Prop :=
  ∀ (s s1 s2 s3 : State) (d a b : Code) (x y : Bool) (va vb : Word) (dest : Dest),
    let k := s2.clock.core
    let i := bits va 2 0
    let reg := bits va 5 3
    let dm := (ddaOf s2 k).dom i
    let tap := FMap.get {} (ddaOf s2 k).taps i
    let old : Word := match reg with
      | 0 => BitVec.ofNat 64 ((if dm.run then 2 ^ 63 else 0) + (if dm.gate then 2 ^ 62 else 0) + dm.why * 2 ^ 60 + dm.own * 2 ^ 48 + dm.per)
      | 1 => BitVec.ofNat 64 dm.cnt
      | 2 => BitVec.ofNat 64 dm.stop
      | _ => BitVec.ofNat 64 (tap.cell * 2 ^ 56 + (if tap.en then 2 ^ 55 else 0) + (tap.net % 2 ^ 48).toNat)
    admits { unit := hasDda, srcs := [a, b], dst := some d } s = true → Reads s a x va s1 → Reads s1 b y vb s2 → bits va 63 7 = 0 → oldestOrOutside s2 →
    rangeFree s2 →
    (reg ≤ 3 → (reg = 3 ∨ i ≤ 3) → bit va 6 = false → Writes s2 d old s3 → exec (.dcfg d a b x y) s = .next (advance (withSt false s3))) ∧
    (i ≤ 3 → bit va 6 = true → dm.run = false → Takes s2 d dest → s2.occupied (tid s2) = true →
      (reg = 1 → ∃ t, exec (.dcfg d a b x y) s = .next t ∧ ((ddaOf t k).dom i).cnt = bits vb 47 0 ∧ Filled t dest old ∧ (current t).pw.getLsbD 18 = false) ∧
      (reg = 2 → ∃ t, exec (.dcfg d a b x y) s = .next t ∧ ((ddaOf t k).dom i).stop = bits vb 47 0 ∧ Filled t dest old ∧ (current t).pw.getLsbD 18 = false)) ∧
    (i ≤ 3 → bit va 6 = true → reg = 0 → Takes s2 d dest → s2.occupied (tid s2) = true →
      (dm.busy s2.clock.now = false → ∃ t, exec (.dcfg d a b x y) s = .next t ∧ ((ddaOf t k).dom i).gate = bit vb 62 ∧ ((ddaOf t k).dom i).run = dm.run ∧
        ((ddaOf t k).dom i).per = max 4 (bits vb 15 0) ∧ Filled t dest old ∧ (current t).pw.getLsbD 18 = false) ∧
      (dm.busy s2.clock.now = true → ∃ t, exec (.dcfg d a b x y) s = .next t ∧ ((ddaOf t k).dom i).newCtl = some vb ∧ ((ddaOf t k).dom i).per = dm.per ∧
        Due t (s2.clock.now + (dm.stepEnd - s2.clock.now)) (.domainHaltBoundary k i) ∧ Filled t dest old ∧ (current t).pw.getLsbD 18 = false)) ∧
    (i ≤ 3 → bit va 6 = true → dm.run = true → (reg = 1 ∨ reg = 2) → Writes s2 d old s3 → exec (.dcfg d a b x y) s = .next (advance (withSt true s3))) ∧
    (bit va 6 = true → reg = 3 → exec (.dcfg d a b x y) s = trapOr (takeTrap (tid s) 0x02 0 (current s).faultPc) s)

/-- DSTART starts the domains it names that stand still, unless an enabled cell of one has SAT set; DHALT halts at once the running ones if all stand
at a boundary, and otherwise asks each to halt at its next one and waits until none of them runs (16 R298, R299, 08 R152). -/
def Claim.DomainControl : Prop :=
  ∀ (s s1 : State) (a : Code) (x : Bool) (m : Word),
    let k := s1.clock.core
    let g := ddaOf s1 k
    admits { unit := hasDda, srcs := [a] } s = true → Reads s a x m s1 → bits m 63 4 = 0 → oldestOrOutside s1 → rangeFree s1 →
    ((∀ e, e < 4 → m.getLsbD e = true → (g.dom e).run = false → ∀ p ∈ g.members e, p.2.sat = false) →
      ∃ t, exec (.dstart a x) s = .next t ∧ t.mem = s1.mem ∧ (ddaOf t k).cells = g.cells ∧
        ∀ e, e < 4 →
          if m.getLsbD e = true ∧ (g.dom e).run = false then
            ((ddaOf t k).dom e).run = true ∧ ((ddaOf t k).dom e).own = s1.control (tid s1) % 16 ∧ ((ddaOf t k).dom e).cnt = (g.dom e).cnt ∧
              ((ddaOf t k).dom e).dueStep = s1.clock.now + 1 ∧ Due t (s1.clock.now + 1) (.domainStep k e)
          else (ddaOf t k).dom e = g.dom e) ∧
    ((current s1).dhalt = false → (∀ e, e < 4 → m.getLsbD e = true → (g.dom e).busy s1.clock.now = false) →
      ∃ t, exec (.dhalt a x) s = .next t ∧ t.mem = s1.mem ∧ (ddaOf t k).cells = g.cells ∧
        ∀ e, e < 4 →
          if m.getLsbD e = true ∧ (g.dom e).run = true ∧ (g.dom e).halting = false then ((ddaOf t k).dom e).run = false ∧ ((ddaOf t k).dom e).why = 2
          else (ddaOf t k).dom e = g.dom e) ∧
    ((current s1).dhalt = false → s.occupied (tid s) = true → ddaOf s k = g → s.clock.now = s1.clock.now →
      (∃ e, e < 4 ∧ m.getLsbD e = true ∧ (g.dom e).run = true ∧ (g.dom e).busy s1.clock.now = true) →
      ∃ t, exec (.dhalt a x) s = .next t ∧ (current t).dhalt = true ∧ (current t).pc = (current s).pc ∧ t.mem = s.mem ∧
        ∀ e, e < 4 → m.getLsbD e = true → (g.dom e).run = true → (g.dom e).halting = false → (g.dom e).busy s1.clock.now = true →
          ((ddaOf t k).dom e).halting = true ∧ Due t (s1.clock.now + ((g.dom e).stepEnd - s1.clock.now)) (.domainHaltBoundary k e)) ∧
    ((current s1).dhalt = true → (∀ e, e < 4 → m.getLsbD e = true → (g.dom e).run = false) →
      ∃ t, exec (.dhalt a x) s = .next t ∧ (s1.occupied (tid s1) = true → (current t).dhalt = false) ∧ ddaOf t k = g ∧ t.mem = s1.mem)

/-- DSTART of a domain whose enabled cell has SAT set is Increment Overrun, with the lowest such cell of the domains that it would start, its domain and
that domain's count in EVAL (16 R298). -/
def Claim.StartTrap : Prop :=
  ∀ (s s1 : State) (a : Code) (x : Bool) (m : Word) (e i : Nat) (c : Cell),
    let g := ddaOf s1 s1.clock.core
    let full (f j : Nat) (c : Cell) : Prop := f < 4 ∧ m.getLsbD f = true ∧ (g.dom f).run = false ∧ (j, c) ∈ g.members f ∧ c.sat = true
    admits { unit := hasDda, srcs := [a] } s = true → Reads s a x m s1 → bits m 63 4 = 0 → oldestOrOutside s1 → rangeFree s1 → full e i c →
    (∀ f j x, full f j x → i < j ∨ i = j ∧ e ≤ f) →
    exec (.dstart a x) s = trapOr (takeTrap (tid s) 0x10 (BitVec.ofNat 64 (e * 2 ^ 56 + i * 2 ^ 48 + (g.dom e).cnt)) (current s).faultPc) s

/-- DIN adds units to the slots that name an input port; DTAP and DPORT replace a tap and an output port and answer with the old one (16 R300 to
R302). -/
def Claim.PortResults : Prop :=
  ∀ (s s1 s2 : State) (d a b : Code) (x y : Bool) (va vb : Word) (dest : Dest),
    let k := s2.clock.core
    let g := ddaOf s2 k
    let t := FMap.get {} g.taps va.toNat
    let o := FMap.get {} g.outs va.toNat
    Reads s a x va s1 → Reads s1 b y vb s2 → va.toNat ≤ 7 → oldestOrOutside s2 → rangeFree s2 →
    (admits { unit := hasDda, srcs := [a, b] } s = true → -7 ≤ vb.toInt → vb.toInt ≤ 7 →
      ∃ u, exec (.din a b x y) s = .next u ∧ ddaOf u k = g.gain (fun _ => true) (0x108 + va.toNat) vb.toInt ∧ u.mem = s2.mem ∧ OthersSame (tid s2) s2 u) ∧
    (admits { unit := hasDda, srcs := [a, b] } s = true → 7 < vb.toInt → exec (.din a b x y) s = trapOr (takeTrap (tid s) 0x02 0 (current s).faultPc) s) ∧
    (admits { unit := hasDda, srcs := [a, b], dst := some d } s = true → Takes s2 d dest → s2.occupied (tid s2) = true →
      (bits vb 63 9 = 0 →
        ∃ u, exec (.dtap d a b x y) s = .next u ∧
          FMap.get? (ddaOf u k).taps va.toNat = some (if bit vb 8 then { t with en := false } else { cell := bits vb 7 0, en := true, net := 0 }) ∧
          (ddaOf u k).cells = g.cells ∧ Filled u dest (BitVec.ofNat 64 (t.cell * 2 ^ 56 + (if t.en then 2 ^ 55 else 0) + (t.net % 2 ^ 48).toNat)) ∧
          u.mem = s2.mem) ∧
      (∃ u, exec (.dport d a b x y) s = .next u ∧
        FMap.get? (ddaOf u k).outs va.toNat =
          some { en := bit vb 63 && bits vb 7 0 ≠ 0, port := bits vb 58 56, cell := bits vb 55 48, core := bits vb 39 16, la := bits vb 7 0 } ∧
        (ddaOf u k).cells = g.cells ∧
        Filled u dest (BitVec.ofNat 64 ((if o.en then 2 ^ 63 else 0) + o.port * 2 ^ 56 + o.cell * 2 ^ 48 + o.core * 2 ^ 16 + o.la)) ∧ u.mem = s2.mem))

/-- A cell's step is exact: Y takes the sum of its dy slots, and R with the emitted unit holds what the integral gives; a sum beyond the modulus is no
step (08 R148, R151, R156). -/
def Claim.CellStep : Prop :=
  ∀ (g : Dda) (c : Cell), c.r < c.modulus → c.y.natAbs < c.modulus → (∀ i, -1 ≤ (g.cell i).dz ∧ (g.cell i).dz ≤ 1) →
    let dx := sampled g c 0
    let dy := sampled g c 1 + sampled g c 2 + sampled g c 3
    ((c.y + dy).natAbs < c.modulus →
      ∃ n, g.stepCell c = some n ∧ n.y = c.y + dy ∧ (n.r : Int) + c.modulus * n.dz = c.r + dx * c.y ∧ n.r < c.modulus ∧ -1 ≤ n.dz ∧ n.dz ≤ 1 ∧
        n.patch = c.patch ∧ n.sat = c.sat) ∧
    ((c.modulus : Int) ≤ (c.y + dy).natAbs → g.stepCell c = none)

/-- A due step of a domain that is not gated: every enabled cell steps together, the count goes up, and the next step is due PER cycles on; the domain
halts when the count meets DSTOP. A cell that cannot step, or that has SAT set, halts it with a fault (08 R151 to R153, R156, R157). -/
def Claim.DomainSteps : Prop :=
  ∀ (s : State) (k d : Nat) (next : Nat → Cell),
    let g := ddaOf s k
    let x := g.dom d
    (s.coreOf k).isSealed = false → x.run = true → x.dueStep = s.clock.now → x.gate = false →
    ((∀ p ∈ g.members d, p.2.sat = false ∧ g.stepCell p.2 = some (next p.1) ∧ FMap.get? g.cells p.1 = some p.2) → g.outs = [] →
      ∃ t, exec (.domainStep k d) s = .next t ∧ t.mem = s.mem ∧ t.threads = s.threads ∧
        (∀ i, (ddaOf t k).cell i = if (∃ p ∈ g.members d, p.1 = i) then next i else g.cell i) ∧
        ((ddaOf t k).dom d).cnt = (x.cnt + 1) % 2 ^ 48 ∧ (∀ e, e ≠ d → (ddaOf t k).dom e = g.dom e) ∧
        (if (x.cnt + 1) % 2 ^ 48 = x.stop then ((ddaOf t k).dom d).run = false ∧ ((ddaOf t k).dom d).why = 1
          else ((ddaOf t k).dom d).run = true ∧ Due t (s.clock.now + x.per) (.domainStep k d)) ∧
        ∃ us, Due t (s.clock.now + 2) (.crossingArrival k us) ∧ (∃ u ∈ us, u.source = 0x100 + d ∧ u.unit = 1) ∧
          ∀ i, (∃ p ∈ g.members d, p.1 = i) → (next i).dz ≠ 0 → ∃ u ∈ us, u.source = i ∧ u.unit = (next i).dz ∧ u.dom = d) ∧
    ((∃ p ∈ g.members d, p.2.sat = true) →
      ∃ t, exec (.domainStep k d) s = .next t ∧ ((ddaOf t k).dom d).run = false ∧ ((ddaOf t k).dom d).why = 3 ∧ (ddaOf t k).cells = g.cells ∧ t.mem = s.mem) ∧
    ((∀ p ∈ g.members d, p.2.sat = false) → (∃ p ∈ g.members d, g.stepCell p.2 = none) →
      ∃ t, exec (.domainStep k d) s = .next t ∧ ((ddaOf t k).dom d).run = false ∧ ((ddaOf t k).dom d).why = 3 ∧ (ddaOf t k).cells = g.cells ∧ t.mem = s.mem)

/-- Units of a step reach the counters of the slots that name their source in other domains; a count beyond 7 is dropped and sets SAT (08 R154). -/
def Claim.CrossingUnits : Prop :=
  ∀ (s : State) (k i n : Nat) (u : Crossing) (c : Cell),
    (∀ e ∈ s.clock.events, s.clock.now < e.at_) → FMap.get? (ddaOf s k).cells i = some c → u.unit = 1 ∨ u.unit = -1 →
    ∃ t, exec (.crossingArrival k [u]) s = .next t ∧ t.mem = s.mem ∧ t.threads = s.threads ∧ (ddaOf t k).doms = (ddaOf s k).doms ∧
      (c.dom = u.dom ∨ c.en = false ∨ (∀ j, j < 4 → c.source j ≠ u.source) → FMap.get? (ddaOf t k).cells i = some c) ∧
      (c.dom ≠ u.dom → c.en = true → n < 4 → (∀ j, j < 4 → (c.source j = u.source ↔ j = n)) →
        let v := c.cc.getD n 0 + u.unit
        FMap.get? (ddaOf t k).cells i = some (if -7 ≤ v ∧ v ≤ 7 then { c with cc := c.cc.set n v } else { c with sat := true }))

/-- A released record of an input port is taken at once, unless only gated domains read its port: its count is added to the slots that name the port,
and one that is no increment record is counted as an error (08 R155). -/
def Claim.RecordTake : Prop :=
  ∀ (s : State) (k port : Nat) (r : InRec),
    let g := ddaOf s k
    let chan := 0xF8 + port
    let b := FMap.get {} (s.coreOf k).inboxes (chan % 4)
    let w := memDw s (inboxKey k b r.off + 16)
    let good := decide (r.plen = 8) && bits w 63 11 = 0 && bits w 10 8 = port && bits w 7 4 = 0 && bits w 3 0 ≠ 8 && hasDda k
    (g.readers port ≠ [] → (∀ e ∈ g.readers port, (g.dom e).gate = true) → exec (.integratorRecordTake k port) s = .next s) ∧
    ((g.readers port = [] ∨ ∃ e ∈ g.readers port, (g.dom e).gate = false) → (∀ b, (s.coreOf k).bist = some b → b.test ≠ 3) →
      released s k chan = [r] → r.off = b.head →
      ∃ t, exec (.integratorRecordTake k port) s = .next t ∧ t.mem = s.mem ∧ t.threads = s.threads ∧
        (good = true → ddaOf t k = g.gain (fun _ => true) (0x108 + port) (BitVec.ofNat 4 (bits w 3 0)).toInt) ∧
        (good = false → ddaOf t k = g ∧ FMap.get 0 (t.coreOf k).errs 3 = oneMore s k 3))

/-- What waits for a step boundary is done at it: a halt, and a new DCTL (08 R152). -/
def Claim.DomainBoundary : Prop :=
  ∀ (s : State) (k d : Nat),
    let x := (ddaOf s k).dom d
    (∀ slot, slot < 16 → (s.thread (tidOf k slot)).rsave = none) →
    (x.run = false → x.newCtl = none → exec (.domainHaltBoundary k d) s = .next s) ∧
    (x.run = true → x.halting = true → x.newCtl = none →
      ∃ t, exec (.domainHaltBoundary k d) s = .next t ∧ ((ddaOf t k).dom d).run = false ∧ ((ddaOf t k).dom d).why = 2 ∧
        (ddaOf t k).cells = (ddaOf s k).cells ∧ t.mem = s.mem ∧ t.threads = s.threads) ∧
    (∀ v, x.halting = false → x.newCtl = some v →
      ∃ t, exec (.domainHaltBoundary k d) s = .next t ∧ ((ddaOf t k).dom d).run = x.run ∧ ((ddaOf t k).dom d).gate = bit v 62 ∧
        ((ddaOf t k).dom d).per = max 4 (bits v 15 0) ∧ ((ddaOf t k).dom d).newCtl = none ∧ t.mem = s.mem ∧ t.threads = s.threads)

/-- PACK6, PACK4, UNPK6 and UNPK4: the codes as a stream, shifted by the signed count in bits 7:0 of b; bits above a code are ignored (16 R304,
R305). -/
def Claim.PackResults : Prop :=
  ∀ p ∈ packForms, ∀ (s s1 s2 s3 : State) (d a b : Code) (x y : Bool) (va vb : Word),
    admits { srcs := [a, b], dst := some d } s = true → Reads s a x va s1 → Reads s1 b y vb s2 → Writes s2 d (p.2 va vb) s3 →
      exec (p.1 d a b x y) s = .next (advance s3)

/-- LGENC and LGDEC between FP32 and LG6: two codes from two values under the overflow policy in b, two values from the codes that b selects; reserved bits
of b and a selector above 6 are Illegal Operand, an overflow under policy 3 is Conversion Overflow (16 R306, R307). -/
def Claim.LogResults : Prop :=
  ∀ (s s1 s2 s3 : State) (d a b : Code) (x y : Bool) (va vb : Word),
    let enc (v : Nat) := NumFmt.lg6.convert 0 (bits vb 1 0) (Fmt.f32.decode v)
    let dec (n : Nat) := (Fmt.f32.convert 0 0 (lgDecode (va.toNat / 2 ^ (8 * n) % 64))).code
    admits { srcs := [a, b], dst := some d } s = true → Reads s a x va s1 → Reads s1 b y vb s2 →
    (bits vb 63 2 ≠ 0 → exec (.lgenc d a b x y) s = trapOr (takeTrap (tid s) 0x02 0 (current s).faultPc) s) ∧
    (bits vb 63 2 = 0 → (enc (bits va 31 0)).trap = false → (enc (bits va 63 32)).trap = false →
      Writes s2 d (BitVec.ofNat 64 ((enc (bits va 63 32)).code % 64 * 2 ^ 8 + (enc (bits va 31 0)).code % 64)) s3 →
      exec (.lgenc d a b x y) s = .next (advance (withFlags ((enc (bits va 31 0)).flags ||| (enc (bits va 63 32)).flags) s3))) ∧
    (bits vb 63 2 = 0 → (enc (bits va 31 0)).trap = true ∨ (enc (bits va 63 32)).trap = true →
      exec (.lgenc d a b x y) s = trapOr (takeTrap (tid s) 0x0E 0 (current s).faultPc) s) ∧
    (vb.toNat ≤ 6 → Writes s2 d (BitVec.ofNat 64 (dec (vb.toNat + 1) * 2 ^ 32 + dec vb.toNat)) s3 → exec (.lgdec d a b x y) s = .next (advance s3)) ∧
    (6 < vb.toNat → exec (.lgdec d a b x y) s = trapOr (takeTrap (tid s) 0x02 0 (current s).faultPc) s)

/-! ## Furrows -/

/-- FURROW reserves slots 15 of its columns and parks its head until they are empty; outside slot 15 of a core at column 0 it is Illegal
Instruction (13 R245, 04 R79). -/
def Claim.FurrowReserves : Prop :=
  ∀ (s : State) (e : Code),
    let k := s.clock.core
    admits { literals := decide (e.toNat ≤ 27), unit := hasArray } s = true → s.clock.slot < 16 →
    (s.clock.slot ≠ 15 ∨ colOf k ≠ 0 → exec (.furrow e) s = trapOr (takeTrap (tid s) 0x01 0 (current s).faultPc) s) ∧
    (s.clock.slot = 15 → colOf k = 0 → (current s).iter.isSome ∨ (current s).col.isSome ∨ (current s).twin.isSome →
      exec (.furrow e) s = trapOr (takeTrap (tid s) 0x13 0 (current s).faultPc) s) ∧
    (s.clock.slot = 15 → colOf k = 0 → (current s).iter = none → (current s).col = none → (current s).twin = none →
      ((∃ c, k ≤ c ∧ c ≤ k + e.toNat ∧ logicalOf s (dieOf k) (current s).ctx c = none) →
        exec (.furrow e) s = trapOr (takeTrap (tid s) 0x02 0 (current s).faultPc) s) ∧
      ((∀ c, k ≤ c → c ≤ k + e.toNat → (logicalOf s (dieOf k) (current s).ctx c).isSome = true) → Performs awaitAll s () s → s.occupied (tid s) = true →
        ∃ t, exec (.furrow e) s = .next t ∧ FMap.get? t.pkg.furrows k = some { last := e.toNat } ∧ (current t).status = .parked .furrow none ∧
          (current t).pc = (current s).pc ∧ Due t s.clock.now (.furrowStart k) ∧ t.mem = s.mem ∧ OthersSame (tid s) s t))

/-- Once its columns' slots are empty a furrow starts: each column has the head's registers and versions at depth 0 and the next word's offset, and the
first step is due at the head's next position. Until then the head waits (04 R79, R80). -/
def Claim.FurrowStarts : Prop :=
  ∀ (s : State) (k : Nat) (f : Furrow) (since : Option Nat),
    let h := s.thread (tidOf k 15)
    FMap.get? s.pkg.furrows k = some f → f.started = false → h.status = .parked .furrow since → s.occupied (tidOf k 15) = true →
    ((∃ j, 1 ≤ j ∧ j ≤ f.last ∧ s.occupied (tidOf (k + j) 15) = true) →
      ∃ t, exec (.furrowStart k) s = .next t ∧ Due t (s.clock.now + 1) (.furrowStart k) ∧ t.threads = s.threads ∧ t.mem = s.mem) ∧
    ((∀ j, 1 ≤ j → j ≤ f.last → s.occupied (tidOf (k + j) 15) = false) → f.cols = [] →
      ∃ t c, exec (.furrowStart k) s = .next t ∧ isPosition s.clock.now 15 c ∧ Due t c (.furrowStep k) ∧
        FMap.get? t.pkg.furrows k = some { f with started := true } ∧ t.mem = s.mem ∧
        (let u := t.thread (tidOf k 15)
         u.status = .parked .column none ∧ u.col = some { head := k, j := 0, idx := 0 } ∧ u.pc = pcNorm (h.pc + 4#16) ∧ u.regs = h.regs) ∧
        ∀ j, 1 ≤ j → j ≤ f.last →
          let u := t.thread (tidOf (k + j) 15)
          u.status = .parked .column none ∧ u.col = some { head := k, j := j, idx := 0 } ∧ u.pc = pcNorm (h.pc + 4#16) ∧ u.depth = 0 ∧
          u.pw = pwNorm h.pw ∧ u.vers = h.vers ∧ u.level = h.level ∧ u.ctx = h.ctx ∧ u.tcb = h.tcb ∧ u.segs = h.segs ∧ u.icnt = 0 ∧
          ∀ i, i < 32 → u.sreg i = h.sreg i)

/-- A step of a furrow is due in the cycle of its event, and the next one rotation later (04 R80). -/
def Claim.FurrowTurns : Prop :=
  ∀ (s : State) (k : Nat),
    (FMap.get? s.pkg.furrows k = none → exec (.furrowStep k) s = .next s) ∧
    ∀ f, FMap.get? s.pkg.furrows k = some f →
      ∃ t, exec (.furrowStep k) s = .next t ∧ FMap.get? t.pkg.furrows k = some { f with turn := true } ∧ Due t (s.clock.now + 16) (.furrowStep k) ∧
        t.threads = s.threads ∧ t.mem = s.mem

/-- FEND: the head waits for its columns; each other column gives its flags to the head and leaves its slot, and the last one ends the furrow.
Outside a furrow it is Illegal Nesting (13 R246, 04 R83). -/
def Claim.FurrowEnds : Prop :=
  (∀ (s : State), admits {} s = true → (current s).col = none → exec .fend s = trapOr (takeTrap (tid s) 0x13 0 (current s).faultPc) s) ∧
  ∀ (s : State) (c : Column) (f : Furrow), admits {} s = true → (current s).col = some c → c.inHandler = false → Performs awaitAll s () s →
    FMap.get? s.pkg.furrows c.head = some f → s.occupied (tid s) = true →
    let h := tidOf c.head 15
    (c.j = 0 → f.last = 0 → h = tid s →
      ∃ t, exec .fend s = .next t ∧ FMap.get? t.pkg.furrows c.head = none ∧ (current t).status = .ready ∧ (current t).col = none ∧
        nextRotation s.clock.now ≤ (current t).yieldTo ∧ t.mem = s.mem ∧ OthersSame (tid s) s t) ∧
    (c.j = 0 → 0 < f.last →
      ∃ t, exec .fend s = .next t ∧ (current t).status = .parked .furrow none ∧ (current t).col = some { c with ended := true } ∧
        t.pkg.furrows = s.pkg.furrows ∧ t.mem = s.mem ∧ OthersSame (tid s) s t) ∧
    (c.j ≠ 0 → (current s).monitors = [] → h ≠ tid s → s.occupied h = true →
      ∃ t, exec .fend s = .next t ∧ t.occupied (tid s) = false ∧ (t.thread h).fflags = (s.thread h).fflags ||| (current s).fflags ∧
        (t.thread h).regs = (s.thread h).regs ∧ t.mem = s.mem ∧
        (if c.j = f.last then FMap.get? t.pkg.furrows c.head = none ∧ (t.thread h).status = .ready ∧ (t.thread h).col = none
         else FMap.get? t.pkg.furrows c.head = some { f with gone := c.j } ∧ (t.thread h).status = (s.thread h).status ∧
           (t.thread h).col = (s.thread h).col))

/-! ## Schedulers -/

/-- LAUNCH of op 0 queues a task that waits for nothing, and op 1 decrements it; a record that is refused is counted (24 R356). -/
def Claim.LaunchRecords : Prop :=
  ∀ (s : State) (r : LaunchRecord),
    let refused (t : State) : Prop := (t.dieOf r.die).lstat = oneUp (s.dieOf r.die).lstat ∧ t.mem = s.mem ∧ t.threads = s.threads
    (launchTcb s r = none → (∃ t, exec (.launchEnq r) s = .next t ∧ refused t) ∧ ∃ t, exec (.launchDec r) s = .next t ∧ refused t) ∧
    ∀ key lin, launchTcb s r = some (key, lin) →
      (bits r.word 63 62 = 0 → tcbState s key = 0 → bits (memDw s (key + 8)) 31 0 = 0 → queueFit s key →
        ∃ t, exec (.launchEnq r) s = .next t ∧ Enqueued s t key lin) ∧
      (bits r.word 63 62 ≠ 0 ∨ tcbState s key ≠ 0 ∨ bits (memDw s (key + 8)) 31 0 ≠ 0 → ∃ t, exec (.launchEnq r) s = .next t ∧ refused t) ∧
      (bits r.word 63 62 = 1 → ∀ t, Performs (decrementKey key lin) s () t → exec (.launchDec r) s = .next t) ∧
      (bits r.word 63 62 ≠ 1 → ∃ t, exec (.launchDec r) s = .next t ∧ refused t)

/-- A decrement takes 1 from PCNT of a task in STATE 0, and the one that reaches 0 queues the task; any other is counted (24 R352). -/
def Claim.Decrements : Prop :=
  ∀ (s : State) (d key : Nat),
    let n := bits (memDw s (key + 8)) 31 0
    (tcbState s key = 0 → 1 < n → isBlock key →
      ∃ t, exec (.tcbDecrement d key) s = .next t ∧ memDw t (key + 8) = putBits (memDw s (key + 8)) 31 0 (n - 1) ∧
        ∀ a, ¬(key + 8 ≤ a ∧ a < key + 16) → Memory.read t.mem a = Memory.read s.mem a) ∧
    (tcbState s key = 0 → n = 1 → queueFit s key →
      ∃ t, exec (.tcbDecrement d key) s = .next t ∧ Enqueued s t key (FMap.get 0 s.pkg.tcbLin key) ∧ bits (memDw t (key + 8)) 31 0 = 0) ∧
    (tcbState s key ≠ 0 ∨ n = 0 →
      ∃ t, exec (.tcbDecrement d key) s = .next t ∧ (t.dieOf (tcbDie s key)).serr = oneUp (s.dieOf (tcbDie s key)).serr ∧ t.mem = s.mem ∧
        t.threads = s.threads)

/-- A task retires once it has placed every thread, has none left and no engine holds a command of it: STATE 4, and its completion is told by
CMODE (24 R353). -/
def Claim.Retirement : Prop :=
  ∀ (s : State) (d key : Nat) (x : Task), FMap.get? s.pkg.tasks key = some x →
    (x.dispatching = true ∨ x.live ≠ 0 ∨ openCommands s key = true → exec (.taskRetire d key) s = .next s) ∧
    (x.dispatching = false → x.live = 0 → openCommands s key = false → isBlock key → bits (memDw s key) 50 48 = 0 → memDw s (key + 0x90) = 0 →
      let r := taskRecord 0 (cidIn s x.ctx x.lastCore) x.lastSlot x.ctx x.tcbLin
      let cmode := bits (memDw s key) 53 52
      ∃ t, exec (.taskRetire d key) s = .next t ∧ tcbState t key = 4 ∧ FMap.get? t.pkg.tasks key = none ∧
        (∀ a, ¬(key ≤ a ∧ a < key + 8) → Memory.read t.mem a = Memory.read s.mem a) ∧
        (cmode ≠ 0 → Due t s.clock.now (.eventRecordPlace (recordCore s x.ctx x.lastCore) r)) ∧
        (cmode = 2 → x.vf ≠ 127 → OutItem.hostRecord x.vf r ∈ t.pkg.outbox))

/-- The scheduler takes the queued task of greatest effective priority; among equals the one that was queued first (24 R354). -/
def Claim.TaskOrder : Prop :=
  ∀ (s : State) (d p key : Nat), nextTask s d = some (p, key) →
    (p, key) ∈ queuedTasks s d ∧
    ∀ q ∈ queuedTasks s d, effective3 s d q.1 q.2 ≤ effective3 s d p key ∧
      (effective3 s d q.1 q.2 = effective3 s d p key → (memDw s (key + 0xA0)).toNat ≤ (memDw s (q.2 + 0xA0)).toNat)

/-- While fewer than 16 tasks dispatch, the next queued task leaves its queue and dispatches: STATE 2, or STATE 6 with a record where its first
dispatch finds its block bad (24 R351, R354). -/
def Claim.Dispatching : Prop :=
  ∀ (s : State) (d : Nat),
    (16 ≤ dispatching s d → exec (.schedulerDispatch d) s = .next s) ∧
    (nextTask s d = none → exec (.schedulerDispatch d) s = .next s) ∧
    ∀ p key s1, dispatching s d < 16 → nextTask s d = some (p, key) → Performs (unqueue d p key) s () s1 → isBlock key →
      (key ∉ FMap.get [] (s1.dieOf d).queues p) ∧
      (bits (memDw s1 (key + 0xB0)) 63 48 ≠ 0 ∨ goodTcb s1 key = true →
        ∃ t x, exec (.schedulerDispatch d) s = .next t ∧ FMap.get? t.pkg.tasks key = some x ∧ tcbState t key = 2 ∧ x.die = d ∧ x.next = 0 ∧
          x.live = 0 ∧ x.created = 0 ∧ x.dispatching = true ∧ x.fields = tcbFields s1 key ∧ x.ctx = bits (memDw s1 (key + 0x58)) 15 0 ∧
          x.total = threadTotal x.fields * (if bit (memDw s1 key) 54 then 2 else 1) ∧ memDw t (key + 0xB8) = BitVec.ofNat 64 (s.clock.now % 2 ^ 48) ∧
          Due t s.clock.now (.threadPlacement d key) ∧ Due t s.clock.now (.schedulerDispatch d)) ∧
      (bits (memDw s1 (key + 0xB0)) 63 48 = 0 → goodTcb s1 key = false →
        ∃ t k, exec (.schedulerDispatch d) s = .next t ∧ tcbState t key = 6 ∧ FMap.get? t.pkg.tasks key = FMap.get? s1.pkg.tasks key ∧
          Due t s.clock.now (.eventRecordPlace k (taskRecord 0x02 0 0 (bits (memDw s1 (key + 0x58)) 15 0) (FMap.get 0 s.pkg.tcbLin key))) ∧
          Due t s.clock.now (.schedulerDispatch d))

/-- Of the cores that may take a thread the scheduler chooses the one with the most empty slots; among equals the one of lowest logical number (24 R355). -/
def Claim.CoreChoice : Prop :=
  ∀ (s : State) (cs : List (Nat × Nat)),
    (∀ k, mostRoom s cs = some k → ∃ n, (n, k) ∈ cs ∧ 0 < roomOf s k ∧
      ∀ c ∈ cs, roomOf s c.2 ≤ roomOf s k ∧ (roomOf s c.2 = roomOf s k → n ≤ c.1)) ∧
    (mostRoom s cs = none → ∀ c ∈ cs, roomOf s c.2 = 0)

/-- Threads are placed in rising order of work identifier: each goes to its core as a seed packet, which carries the seed's contents when it is its
task's first there; one that no core can take is tried again (24 R355, 03 R50, R51, 02 R38). -/
def Claim.Placement : Prop :=
  ∀ (s : State) (d key : Nat) (x : Task), FMap.get? s.pkg.tasks key = some x → x.returned = [] → x.twin = false → isForeign key = false →
    let id := widOf x.fields (fieldValues x.fields x.next)
    let cores := (eligible s d x.ctx).filter fun c => fits x id c.2
    (threadTotal x.fields ≤ x.next → exec (.threadPlacement d key) s = .next s) ∧
    (x.next < threadTotal x.fields → mostRoom s cores = none →
      ∃ t, exec (.threadPlacement d key) s = .next t ∧ Due t (s.clock.now + 16) (.threadPlacement d key) ∧ t.pkg = s.pkg ∧ t.threads = s.threads ∧
        t.mem = s.mem) ∧
    ∀ k, x.next < threadTotal x.fields → mostRoom s cores = some k →
      ∃ t y, exec (.threadPlacement d key) s = .next t ∧ FMap.get? t.pkg.tasks key = some y ∧ y.next = x.next + 1 ∧ y.live = x.live + 1 ∧
        y.created = x.created + 1 ∧ Due t s.clock.now (.threadPlacement d key) ∧ (t.coreOf k).seeded.contains key = true ∧
        Due t (s.clock.now + Config.transit (clusterCore x.die 0) k) (.seedPacketArrival k
          { slot := boundTo 4 x.fields (valuesOf x.fields id), image := x.image, sid := x.sid, wid := BitVec.ofNat 64 id, tcb := x.tcbLin, tcbKey := key,
            ctx := x.ctx, cid := cidIn s x.ctx k, carries := !((s.coreOf k).seeded.contains key), twin := none })

/-- A kill empties every slot of its context and sends its drain tokens; a kill in progress is not disturbed. It is done once nothing of the context
is still on its way (24 R363, R364). -/
def Claim.Kill : Prop :=
  ∀ (s : State) (d : Nat),
    let x := s.dieOf d
    let ctx := bits x.kill 15 0
    (x.killBusy = true → exec (.contextKill d) s = .next s) ∧
    (x.killBusy = false → Ordered s.threads → (∀ p ∈ s.cores, quietCore p.2) → (∀ p ∈ s.pkg.tasks, p.2.ctx ≠ ctx) → (∀ e, e < 8 → queuedTasks s e = []) →
      ∃ t, exec (.contextKill d) s = .next t ∧ (t.dieOf d).killBusy = true ∧ (t.dieOf d).killDone = false ∧ (t.dieOf d).tokens = 1280 ∧
        Due t (s.clock.now + Config.engineTime 8 ctx) (.killDrainComplete d) ∧ t.mem = s.mem ∧
        (∀ id, (s.thread id).ctx = ctx → t.occupied id = false) ∧ ∀ id, (s.thread id).ctx ≠ ctx → t.thread id = s.thread id) ∧
    (stillDraining s ctx = true →
      ∃ t, exec (.killDrainComplete d) s = .next t ∧ Due t (s.clock.now + 1) (.killDrainComplete d) ∧ t.dies = s.dies ∧ t.threads = s.threads) ∧
    (stillDraining s ctx = false →
      ∃ t, exec (.killDrainComplete d) s = .next t ∧ (t.dieOf d).killBusy = false ∧ (t.dieOf d).killDone = true ∧ (t.dieOf d).tokens = 0 ∧
        t.threads = s.threads ∧ t.mem = s.mem)

/-- A task of which a thread is abandoned loses its threads; with REPLAY set and fewer than three replays it is queued again, otherwise it ends in STATE 6
with a record (25 R375, R376). -/
def Claim.TaskFailure : Prop :=
  ∀ (s : State) (d key : Nat) (x : Task), FMap.get? s.pkg.tasks key = some x → (∀ p ∈ s.cores, quietCore p.2) → queueFit s key →
    let rcnt := bits (memDw s (key + 0xB0)) 63 56
    ∃ t, exec (.taskFail d key) s = .next t ∧ FMap.get? t.pkg.tasks key = none ∧ bits (memDw t (key + 0xB0)) 55 48 = 2 ∧ memDw t (key + 0xC0) = 0 ∧
      (∀ id, s.occupied id = true → (s.thread id).ctx = x.ctx → (s.thread id).tcbKey = key → t.occupied id = false) ∧
      Due t s.clock.now (.schedulerDispatch x.die) ∧
      if x.replay = true ∧ rcnt < 3 then
        Enqueued s t key x.tcbLin ∧ bits (memDw t (key + 0xB0)) 63 56 = rcnt + 1 ∧ memDw t (key + 0xA8) = 0
      else tcbState t key = 6 ∧ bits (memDw t (key + 0xB0)) 63 56 = rcnt ∧ ∃ k, Due t s.clock.now (.eventRecordPlace k (taskRecord 0x82 0 0 x.ctx x.tcbLin))

/-- Core removal: an entry that names no core is done with at once; while a thread of the context cannot leave yet, the removal goes on; once none is
there, the entry of a core that other contexts use becomes invalid (24 R362). -/
def Claim.CoreRemoval : Prop :=
  ∀ (s : State) (d : Nat),
    let x := s.dieOf d
    let ctx := bits x.corecmd 55 40
    let n := bits x.corecmd 39 16
    (x.coreBusy = false → exec (.coreRemove d) s = .next s) ∧
    (x.coreBusy = true → coreEntry s d ctx n = none →
      ∃ t, exec (.coreRemove d) s = .next t ∧ (t.dieOf d).coreBusy = false ∧ (t.dieOf d).coreDone = true ∧ t.mem = s.mem ∧ t.threads = s.threads) ∧
    ∀ e k, x.coreBusy = true → coreEntry s d ctx n = some e → entryLeaving e = true → entryPkg e = s.pkg.number → entryCore e = some k →
      (∀ s1 taker, Performs (removeThreads d ctx (arrayOwner (s.coreOf k)) ((List.range 16).map (tidOf k))) s taker s1 →
        (∃ slot, slot < 16 ∧ s1.occupied (tidOf k slot) = true ∧ (s1.thread (tidOf k slot)).ctx = ctx) →
        ∃ t, exec (.coreRemove d) s = .next t ∧ Due t (s1.clock.now + 1) (.coreRemove d) ∧ t.mem = s1.mem ∧ t.threads = s1.threads) ∧
      ((∀ slot, slot < 16 → s.occupied (tidOf k slot) = true → (s.thread (tidOf k slot)).ctx ≠ ctx) →
        (∃ slot, slot < 16 ∧ s.occupied (tidOf k slot) = true) →
        ∃ t, exec (.coreRemove d) s = .next t ∧ (t.dieOf d).coreBusy = false ∧ (t.dieOf d).coreDone = true ∧
          (memDw t (entryKey s d ctx n)).getLsbD 63 = false ∧
          ∀ a, ¬(entryKey s d ctx n ≤ a ∧ a < entryKey s d ctx n + 8) → Memory.read t.mem a = Memory.read s.mem a)

/-- The partition of a cluster changes only while its cores hold no thread, command or barrier; a partition above 223 is not taken (24 R361). -/
def Claim.ClusterPartition : Prop :=
  ∀ (s : State) (d cl : Nat) (v : Word),
    let new := BitVec.ofNat 64 (bits v 63 63 * 2 ^ 63 + bits v 15 0)
    (223 < bits v 15 0 → exec (.clpartWrite d cl v) s = .next s) ∧
    (new ≠ FMap.get 0 (s.dieOf d).clpart cl → (∃ k ∈ clusterCores d cl, coreQuiet s k = false) → exec (.clpartWrite d cl v) s = .next s) ∧
    (bits v 15 0 ≤ 223 → (∀ k ∈ clusterCores d cl, coreQuiet s k = true) →
      ∃ t, exec (.clpartWrite d cl v) s = .next t ∧ FMap.get? (t.dieOf d).clpart cl = some new ∧ t.mem = s.mem ∧ t.threads = s.threads ∧
        ∀ c, c ≠ cl → FMap.get? (t.dieOf d).clpart c = FMap.get? (s.dieOf d).clpart c)

/-! ## What happens between instructions -/

/-- One annulled word of an eligible thread is passed over: that counts as its issue, and nothing else of the thread changes (03 R40). -/
def Claim.AnnulledPass : Prop :=
  ∀ (s : State) (k t : Nat),
    let id := tidOf k t
    (eligibleSlot s k t = false ∨ (s.thread id).annul = 0 → exec (.annulledWordPass k t) s = .next s) ∧
    (eligibleSlot s k t = true → (s.thread id).annul ≠ 0 →
      ∃ u, exec (.annulledWordPass k t) s = .next u ∧ (u.thread id).annul = (s.thread id).annul - 1 ∧
        (u.thread id).pc = pcNorm ((s.thread id).pc + 4#16) ∧ (u.thread id).lastIssue = some s.clock.now ∧ (u.thread id).regs = (s.thread id).regs ∧
        (u.thread id).pw = (s.thread id).pw ∧ ControlSame (s.thread id) (u.thread id) ∧ u.mem = s.mem ∧ OthersSame id s u)

/-- The spill engine moves one doubleword of the oldest request: a spill writes a register of the oldest resident frame below WSP, tagged full and clean,
a fill reads it back; the sixteenth moves WSP (03 R47, R48). -/
def Claim.WindowMoves : Prop :=
  ∀ (s : State) (k t : Nat),
    let id := tidOf k t
    let h := s.thread id
    let i := h.movedOf h.wbase true
    let j := h.movedOf (h.wbase - 1) false
    let out := lsKey k (h.wsp.toNat - 128 + 8 * i)
    ((∀ n, oldestRequest s k ≠ some (n, .spill)) → exec (.windowSpill k) s = .next s) ∧
    ((∀ n, oldestRequest s k ≠ some (n, .fill)) → exec (.windowFill k) s = .next s) ∧
    (oldestRequest s k = some (t, .spill) → Untouched s out 8 →
      ∃ u, exec (.windowSpill k) s = .next u ∧
        u.mem = Memory.writeList s.mem out (leBytes 8 (FMap.get {} h.regs (8 + 16 * h.wbase + i)).val.toNat) ∧
        u.empties.contains out = false ∧ u.poisons.contains out = false ∧ (u.thread id).regs = h.regs ∧ (u.thread id).pc = h.pc ∧
        (if i < 15 then (u.thread id).moved = some (h.wbase, true, i + 1) ∧ (u.thread id).wsp = h.wsp ∧ (u.thread id).wbase = h.wbase
         else (u.thread id).moved = none ∧ (u.thread id).wsp = BitVec.ofNat 64 (h.wsp.toNat - 128) ∧ (u.thread id).wbase = h.wbase + 1 ∧
           (u.thread id).schedSpill = none) ∧
        OthersSame id s u) ∧
    (oldestRequest s k = some (t, .fill) → h.wbase ≠ 0 →
      ∃ u, exec (.windowFill k) s = .next u ∧ u.mem = s.mem ∧ (u.thread id).pc = h.pc ∧
        FMap.get? (u.thread id).regs (8 + 16 * (h.wbase - 1) + j) =
          some { val := memDw s (lsKey k (h.wsp.toNat + 8 * j)), full := true } ∧
        (∀ r, r ≠ 8 + 16 * (h.wbase - 1) + j → FMap.get? (u.thread id).regs r = FMap.get? h.regs r) ∧
        (if j < 15 then (u.thread id).moved = some (h.wbase - 1, false, j + 1) ∧ (u.thread id).wsp = h.wsp ∧ (u.thread id).wbase = h.wbase
         else (u.thread id).moved = none ∧ (u.thread id).wsp = h.wsp + 128 ∧ (u.thread id).wbase = h.wbase - 1 ∧ (u.thread id).schedFill = none) ∧
        OthersSame id s u)

/-- A fetch from a frame that does not hold the thread's text is Fetch Fault, with the seed and the frame in its value; it goes upward (01 R16, 03 R54,
22 R323). -/
def Claim.FetchFaults : Prop :=
  ∀ (s : State) (k t : Nat),
    let id := tidOf k t
    let h := s.thread id
    s.occupied id = true → Free h →
    ∃ u, exec (.fetchFault k t) s = .next u ∧ TrapTaken s u id 0x09 (BitVec.ofNat 64 (h.sid % 2 ^ 32 * 2 ^ 32 + h.pc.toNat / 2048)) h.faultPc ∧ u.mem = s.mem ∧
      OthersSame id s u

/-- At the end of a cycle each counter adds the events of its source, modulo 2^48, and OVF says that it has wrapped (25 R384). -/
def Claim.CounterAdds : Prop :=
  ∀ (s : State) (k : Nat), ∃ t, exec (.eventCounterAdd k) s = .next t ∧ t.threads = s.threads ∧ t.mem = s.mem ∧ (t.coreOf k).tally = [] ∧
    (∀ u, eventsOf s k 0 u = 0 ∧ eventsOf s k 1 u = 1) ∧
    ∀ i e, FMap.get? (s.coreOf k).evs i = some e →
      let n := e.count + eventsOf s k e.src e.uo
      FMap.get? (t.coreOf k).evs i = some (if e.en then { e with count := n % 2 ^ 48, ovf := e.ovf || decide (2 ^ 48 ≤ n) } else e)

/-! ## Errors, sealing and counters -/

/-- ECRD reads an event counter, its selection, or for S and H an error count, after 8 cycles (25 R385). -/
def Claim.CounterReads : Prop :=
  ∀ (s s1 s2 : State) (d a : Code) (x : Bool) (v : Word),
    let n := bits v 3 0
    let c := s1.coreOf s1.clock.core
    let e := FMap.get {} c.evs (n % 8)
    let sel := BitVec.ofNat 64 (b2n e.en * 2 ^ 63 + b2n e.uo * 2 ^ 62 + b2n e.ovf * 2 ^ 61 + e.src)
    admits { srcs := [a], dst := some d } s = true → Reads s a x v s1 → bits v 63 9 = 0 → bits v 7 4 = 0 →
    (bit v 8 = false → Owes s1 d (if n ≤ 7 then BitVec.ofNat 64 e.count else sel) 8 0 s2 → exec (.ecrd d a x) s = .next (advance s2)) ∧
    (bit v 8 = true → n ≤ 13 → (owner s1).level ≠ .u → Owes s1 d (BitVec.ofNat 64 (FMap.get 0 c.errs n)) 8 0 s2 → exec (.ecrd d a x) s = .next (advance s2)) ∧
    (bit v 8 = true → n ≤ 13 → (owner s1).level = .u → exec (.ecrd d a x) s = trapOr (takeTrap (tid s) 0x15 0 (current s).faultPc) s) ∧
    (bit v 8 = true → 13 < n → exec (.ecrd d a x) s = trapOr (takeTrap (tid s) 0x02 0 (current s).faultPc) s)

/-- ECCFG writes a selection or a counter, clears an error count, or, at H, clears the seal of the core that TSEL names: its state is at reset and its
local store stays (25 R386, R371). -/
def Claim.CounterWrites : Prop :=
  ∀ (s s1 s2 : State) (d a b : Code) (x y : Bool) (va vb : Word) (dest : Dest),
    let k := s2.clock.core
    let n := bits va 3 0
    let op := bits va 7 4
    let c := s2.coreOf k
    let e := FMap.get {} c.evs n
    let done (t : State) (old : Word) : Prop := Filled t dest old ∧ (current t).pw.getLsbD 18 = false ∧ t.mem = s2.mem
    admits { level := .s, srcs := [a, b], dst := some d } s = true → Reads s a x va s1 → Reads s1 b y vb s2 → bits va 63 8 = 0 → oldestOrOutside s2 →
    Takes s2 d dest → s2.occupied (tid s2) = true → s2.clock.slot < 16 →
    (op = 0 → n ≤ 7 →
      ∃ t, exec (.eccfg d a b x y) s = .next t ∧
        done t (BitVec.ofNat 64 (b2n e.en * 2 ^ 63 + b2n e.uo * 2 ^ 62 + b2n e.ovf * 2 ^ 61 + e.src)) ∧
        ∃ e1, FMap.get? (t.coreOf k).evs n = some e1 ∧ e1.en = bit vb 63 ∧ e1.uo = bit vb 62 ∧ e1.ovf = (e.ovf && !bit vb 61) ∧ e1.src = bits vb 7 0 ∧
          e1.count = e.count) ∧
    (op = 1 → n ≤ 7 →
      ∃ t e1, exec (.eccfg d a b x y) s = .next t ∧ FMap.get? (t.coreOf k).evs n = some e1 ∧ done t (BitVec.ofNat 64 e.count) ∧
        e1.count = bits vb 47 0 ∧ e1.en = e.en ∧ e1.src = e.src) ∧
    (op = 2 → n ≤ 13 →
      ∃ t, exec (.eccfg d a b x y) s = .next t ∧ done t (BitVec.ofNat 64 (FMap.get 0 c.errs n)) ∧ FMap.get? (t.coreOf k).errs n = some 0) ∧
    (op = 3 → n = 0 → (owner s2).level ≠ .h → exec (.eccfg d a b x y) s = trapOr (takeTrap (tid s) 0x15 0 (current s).faultPc) s) ∧
    (∀ target, op = 3 → n = 0 → (owner s2).level = .h → tselCore s2 (owner s2) k = some target → target ≠ k →
      ((s2.coreOf target).isSealed = true →
        ∃ t, exec (.eccfg d a b x y) s = .next t ∧ done t 0 ∧ (t.coreOf target).isSealed = false ∧ (t.coreOf target).exact = [] ∧
          ∀ slot, slot < 16 → t.occupied (tidOf target slot) = false) ∧
      ((s2.coreOf target).isSealed = false →
        ∃ t, exec (.eccfg d a b x y) s = .next t ∧ Filled t dest 0 ∧ (current t).pw.getLsbD 18 = true ∧ t.mem = s2.mem)) ∧
    (3 < op → exec (.eccfg d a b x y) s = trapOr (takeTrap (tid s) 0x02 0 (current s).faultPc) s)

/-- A scrub corrects and counts a single error; an uncorrectable error is counted, and in local store its word is rewritten with poison 1 (25 R366,
05 R91). -/
def Claim.ScrubResults : Prop :=
  ∀ (s : State) (key : Nat),
    let a := dwKey key
    let home := homeOf a
    (FMap.get? s.pkg.eccBad a = none → exec (.scrubRead key .clean) s = .next s) ∧
    (FMap.get? s.pkg.eccBad a ≠ some true →
      ∃ t, exec (.scrubRead key .single) s = .next t ∧ FMap.get? t.pkg.eccBad a = none ∧ FMap.get 0 (t.coreOf home).errs 0 = oneMore s home 0 ∧
        t.mem = s.mem ∧ t.poisons = s.poisons ∧ t.threads = s.threads) ∧
    (isLs a = true →
      ∃ t, exec (.scrubRead key .double) s = .next t ∧ FMap.get? t.pkg.eccBad a = none ∧ t.poisonAt a = true ∧
        FMap.get 0 (t.coreOf home).errs 1 = oneMore s home 1 ∧ t.threads = s.threads ∧
        ∀ b, ¬(a ≤ b ∧ b < a + 8) → Memory.read t.mem b = Memory.read s.mem b) ∧
    (isLs a = false →
      ∃ t, exec (.scrubRead key .double) s = .next t ∧ FMap.get? t.pkg.eccBad a = some true ∧ FMap.get 0 (t.coreOf home).errs 1 = oneMore s home 1 ∧
        t.mem = s.mem ∧ t.threads = s.threads)

/-- A core that is sealed loses its threads and stops; its supervisor has a record of cause 0x0D; its memory stays (25 R368, R369). -/
def Claim.Sealing : Prop :=
  ∀ (s : State) (k : Nat),
    let c := s.coreOf k
    (c.isSealed = true → exec (.coreSeal k) s = .next s) ∧
    (c.isSealed = false → c.graftq = [] → c.waiters = [] → c.monRegs = [] → (∀ d, (c.dda.dom d).run = false) →
      (∀ p ∈ s.threads, p.1 / 16 = k → FMap.get? s.pkg.tasks p.2.tcbKey = none) →
      ∃ t r, exec (.coreSeal k) s = .next t ∧ Due t s.clock.now (.trapQueueRecord (sealSupervisor k) r) ∧ (t.coreOf k).isSealed = true ∧
        (t.coreOf k).rings = [] ∧ t.mem = s.mem ∧ (∀ id, id / 16 = k → t.occupied id = false) ∧ (∀ id, id / 16 ≠ k → t.thread id = s.thread id) ∧
        bits r.w0 63 56 = 0x0D ∧ bit r.w0 55 = true ∧
        FMap.get 0 (t.coreOf k).errs 1 = oneMore s k 1)

/-- Copy 0 of a twinned thread keeps the hash of each item of the other copy; an item without a hash in time counts as a mismatch (25 R373). -/
def Claim.TwinHashes : Prop :=
  ∀ (s : State) (k t item : Nat) (hash : Word) (q : Twin),
    let id := tidOf k t
    s.occupied id = true → (s.thread id).twin = some q →
    (q.copy ≠ 0 → exec (.twinHashArrival k t item hash) s = .next s ∧ exec (.twinHashTimeout k t item) s = .next s) ∧
    (q.copy = 0 →
      (∃ u, exec (.twinHashArrival k t item hash) s = .next u ∧ (u.thread id).twin = some { q with hashes := FMap.set q.hashes item hash } ∧
        (u.thread id).regs = (s.thread id).regs ∧ u.mem = s.mem ∧ OthersSame id s u) ∧
      (q.item = item → FMap.get? q.hashes item = none →
        ∃ u, exec (.twinHashTimeout k t item) s = .next u ∧ (u.thread id).twin = some { q with bad := NSet.insert q.bad item } ∧
          (u.thread id).regs = (s.thread id).regs ∧ u.mem = s.mem ∧ OthersSame id s u) ∧
      (q.item ≠ item ∨ FMap.get? q.hashes item ≠ none → exec (.twinHashTimeout k t item) s = .next s))

/-! ## Other packages -/

/-- The answer to a request of another package leaves through the port that it came by. -/
def Claim.RemoteRequests : Prop :=
  ∀ (s : State) (q : AccessRequest) (place : Place) (key : Nat),
    let answers (t : State) (v : Word) (bad : Bool) : Prop :=
      t.pkg.outbox = s.pkg.outbox ++ [.flit q.origin (.response (q.id % 2 ^ 17 / 16) (q.id % 16) q.id v bad)]
    let refuses (c : Word) : Prop := ∃ t, exec (.remoteAccessRequest q) s = .next t ∧ answers t c true ∧ t.mem = s.mem ∧ t.threads = s.threads
    q.kind ≠ .withdraw → q.kind ≠ .unmonitor →
    (framePlace (q.key / 2 ^ 48) (q.key % 2 ^ 48) = none → refuses 0x0B) ∧
    (framePlace (q.key / 2 ^ 48) (q.key % 2 ^ 48) = some place → place.key? = some key →
      (isLs key = true → (s.coreOf (homeOf key)).isSealed = true → refuses 0x0D) ∧
      (∀ fn, isWs key = true → underTest s key = false → (s.dieOf ((key - 2 ^ 42) / 2 ^ 30 % 8)).wsPend = false →
        (s.dieOf ((key - 2 ^ 42) / 2 ^ 30 % 8)).busyGroup = none →
        q.kind = .amo fn ∨ q.kind = .load ∧ (s.dieOf ((key - 2 ^ 42) / 2 ^ 30 % 8)).wsServing = false ∨
          q.kind = .store ∧ (s.dieOf ((key - 2 ^ 42) / 2 ^ 30 % 8)).wsServing = true → refuses 0x14) ∧
      ((s.coreOf (homeOf key)).isSealed = false → underTest s key = false → isWs key = false →
        (q.kind = .load → Clean s key q.size →
          ∃ t, exec (.remoteAccessRequest q) s = .next t ∧ answers t (BitVec.ofNat 64 (leValue (Memory.readList s.mem key q.size))) false ∧ t.mem = s.mem) ∧
        (q.kind = .store → q.bound = 0 → Unwatched s key q.size → Clean s key q.size → (∀ a ∈ touched key q.size, Unwaited s a) →
          ∃ t, exec (.remoteAccessRequest q) s = .next t ∧ answers t 0 false ∧ t.mem = Memory.writeList s.mem key (leBytes q.size q.data.toNat) ∧
            (engineSent q = false → t.empties = s.empties) ∧
            (engineSent q = true → isLs key = true → ∀ a ∈ touched key q.size, t.fullAt a = true)) ∧
        (isLs key = true → key % 8 = 0 → q.kind = .ldf ∨ q.kind = .ldff ∨ q.kind = .stf → Clean s key 8 → Unwatched s key 8 → Unwaited s key →
          (s.fullAt key = (q.kind != .stf) → q.bound = 0 →
            ∃ t, exec (.remoteAccessRequest q) s = .next t ∧ answers t (memDw s key) false ∧ t.fullAt key = (q.kind != .ldf) ∧
              t.mem = if q.kind = .stf then Memory.writeList s.mem key (leBytes 8 q.data.toNat) else s.mem) ∧
          (s.fullAt key = (q.kind == .stf) →
            ∃ t, exec (.remoteAccessRequest q) s = .next t ∧ t.pkg.outbox = s.pkg.outbox ∧ t.mem = s.mem ∧ t.threads = s.threads ∧
              (t.coreOf (homeOf key)).waiters = (s.coreOf (homeOf key)).waiters ++
                [{ core := 0, slot := 16, remote := some (q.origin, q.id), key := key, kind := q.kind, data := q.data, dest := .none }])) ∧
        (∀ fn, q.kind = .amo fn → Clean s key 8 → Unwatched s key 8 →
          ∃ t, exec (.remoteAccessRequest q) s = .next t ∧ answers t (memDw s key) false ∧
            t.mem = Memory.writeList s.mem key (leBytes 8 (amoOf fn (memDw s key) q.data q.bound).1.toNat)) ∧
        (isLs key = false → q.kind = .ldf ∨ q.kind = .stf ∨ q.kind = .ldff ∨ q.kind = .purge → refuses 0x0B)))

/-- A response completes what its thread waits for: the last part of a load fills its register, a store is no longer outstanding, a graft leaves its
slot, a spawn is answered (05 R97, 12 R211, 03 R55, R58). -/
def Claim.RemoteResponses : Prop :=
  ∀ (s : State) (k t n : Nat) (v : Word) (since : Option Nat),
    let id := tidOf k t
    let h := s.thread id
    s.occupied id = true → n % 2 ^ 17 < 71680 →
    (∀ c w a b p, h.status ≠ .parked (.upward c w a b) p) → h.iter.bind (·.trapped) = none →
    (n ≠ 0 → FMap.get? h.outstanding n = none → ∀ bad, exec (.remoteAccessResponse k t n v bad) s = .next s) ∧
    (∀ p pr a off, n ≠ 0 → (FMap.get? h.outstanding n).isSome = true → awayProducer h n = some (p, pr, a) → a.asked = [(n, off)] → a.fn < 7 → a.own = [] →
      a.holds = false → ∀ r, pr.dest = .reg r →
      ∃ u, exec (.remoteAccessResponse k t n v false) s = .next u ∧ FMap.get? (u.thread id).outstanding n = none ∧
        FMap.get? (u.thread id).producers p = none ∧
        FMap.get? (u.thread id).regs r =
          some { val := widen a.fn (leValue (leBytes (loadSize a.fn) (a.got + v.toNat * 2 ^ (8 * off)))), full := true } ∧ (u.thread id).pc = h.pc ∧
        (u.thread id).status = h.status ∧ u.mem = s.mem ∧ OthersSame id s u) ∧
    (n ≠ 0 → (FMap.get? h.outstanding n).isSome = true → awayProducer h n = none → FMap.get? h.gatherAt n = none → ∀ bad,
      ∃ u, exec (.remoteAccessResponse k t n v bad) s = .next u ∧ FMap.get? (u.thread id).outstanding n = none ∧ (u.thread id).pc = h.pc ∧
        (u.thread id).regs = h.regs ∧ u.mem = s.mem ∧ OthersSame id s u) ∧
    (∀ off r, n ≠ 0 → (FMap.get? h.outstanding n).isSome = true → awayProducer h n = none → h.gatherAt = [(n, off)] → h.gatherFn < 7 → h.mwaitDst = .reg r →
      h.col = none →
      (s.thread (s.control id)).twin = none →
      ∃ u, exec (.remoteAccessResponse k t n v false) s = .next u ∧
        FMap.get? (u.thread id).regs r = some { val := widen h.gatherFn (h.gathered + v.toNat * 2 ^ (8 * off)), full := true } ∧
        (u.thread id).status = .ready ∧ (u.thread id).pc = pcNorm (h.pc + 4#16) ∧ u.mem = s.mem ∧ OthersSame id s u) ∧
    (∀ off, n ≠ 0 → (FMap.get? h.outstanding n).isSome = true → awayProducer h n = none → FMap.get? h.gatherAt n = some off → v ≠ 0 →
      ∀ u, Performs (failAccess id v.toNat) s () u → exec (.remoteAccessResponse k t n v true) s = .next u) ∧
    (n = 0 → h.status = .parked .graft since → v = 1 → h.pend.xc = [] →
      ∃ u, exec (.remoteAccessResponse k t n v false) s = .next u ∧ u.occupied id = false ∧
        FMap.get? u.pkg.moved h.uid = some (h.graftTo / 2 ^ 13 - 1) ∧ u.mem = s.mem ∧ OthersSame id s u) ∧
    (n = 0 → h.status = .parked .graft since → v = 3 →
      ∃ u, exec (.remoteAccessResponse k t n v false) s = .next u ∧ Due u (s.clock.now + 16) (.graftResend k t) ∧ u.threads = s.threads ∧ u.mem = s.mem) ∧
    (n = 0 → h.status = .parked .spawn since →
      ∃ u, exec (.remoteAccessResponse k t n v false) s = .next u ∧ Due u s.clock.now (.spawnReply k t (decide (v = 1))) ∧ u.threads = s.threads ∧
        u.mem = s.mem)

/-- A request without a response in time is counted at the port that sent it; a reduction is given up and counted, any other access traps with Link
Timeout (25 R380). -/
def Claim.LinkTimeouts : Prop :=
  ∀ (s : State) (k t n : Nat) (acc : Access),
    let id := tidOf k t
    let h := s.thread id
    let port := 4352 + 4 * (acc.port - 1)
    t < 16 → s.occupied id = true →
    (FMap.get? h.outstanding n = none → exec (.linkTimeout k t n) s = .next s) ∧
    (FMap.get? h.outstanding n = some acc → awayProducer h n = none → FMap.get? h.gatherAt n = none →
      (∀ c w a b p, h.status ≠ .parked (.upward c w a b) p) → h.iter.bind (·.trapped) = none →
      ∃ u, exec (.linkTimeout k t n) s = .next u ∧ FMap.get? (u.thread id).outstanding n = none ∧ FMap.get 0 (u.coreOf port).errs 12 = oneMore s port 12 ∧
        FMap.get 0 (u.coreOf port).errs 6 = oneMore s port 6 ∧ (u.thread id).regs = h.regs ∧ u.mem = s.mem ∧ OthersSame id s u) ∧
    (FMap.get? h.outstanding n = some acc → awayProducer h n = none → (FMap.get? h.gatherAt n).isSome = true → ∀ s1 u,
      Performs (countErr port 12) s () s1 → Performs (failAccess id 0x16) s1 () u → exec (.linkTimeout k t n) s = .next u) ∧
    (∀ p pr a, FMap.get? h.outstanding n = some acc → awayProducer h n = some (p, pr, a) → ∀ s1 u,
      Performs (countErr port 12) s () s1 → Performs (failAway id p pr a 0x16) s1 () u → exec (.linkTimeout k t n) s = .next u)

/-- A flit is accepted in order and once; one whose check fails is counted and asked for again, and the sixteenth failure in a row retrains the link,
which resumes from the first flit not accepted (25 R378, R379). -/
def Claim.FlitReception : Prop :=
  ∀ (s : State) (port : Nat) (f : Flit),
    let portOf (u : State) : LinkPort := FMap.get {} (u.dieOf (port / 4)).ports (port % 4)
    let q := portOf s
    let asks (t : State) : Prop := t.pkg.outbox = s.pkg.outbox ++ [.flit port (.retry q.rxSeq)] ∧ t.threads = s.threads ∧ t.mem = s.mem
    (f.crcOk = false →
      ∃ t, exec (.flitReceive port f) s = .next t ∧ asks t ∧ (portOf t).rxSeq = q.rxSeq ∧ (portOf t).rtry = oneUp q.rtry ∧
        (if 15 ≤ q.fails then (portOf t).trn = (q.trn + 1) % 2 ^ 16 ∧ (portOf t).fails = 0 else (portOf t).trn = q.trn ∧ (portOf t).fails = q.fails + 1)) ∧
    (f.crcOk = true → f.seq < q.rxSeq → exec (.flitReceive port f) s = .next s) ∧
    (f.crcOk = true → q.rxSeq < f.seq →
      ∃ t, exec (.flitReceive port f) s = .next t ∧ (portOf t).rxSeq = q.rxSeq ∧ (portOf t).rtry = oneUp q.rtry ∧ t.threads = s.threads ∧ t.mem = s.mem) ∧
    (f.crcOk = true → f.seq = q.rxSeq →
      (∀ m, f.payload = .message m →
        ∃ t, exec (.flitReceive port f) s = .next t ∧ (portOf t).rxSeq = q.rxSeq + 1 ∧ (portOf t).fails = 0 ∧ t.threads = s.threads ∧ t.mem = s.mem ∧
          Due t s.clock.now (.inboxPlace m.toCore { m with fromCore := awayCore port m.fromCore, away := none })) ∧
      (∀ n, f.payload = .retry n →
        ∃ t, exec (.flitReceive port f) s = .next t ∧ (portOf t).rxSeq = q.rxSeq + 1 ∧ t.threads = s.threads ∧ t.mem = s.mem ∧
          t.pkg.outbox = s.pkg.outbox ++ (q.sent.filter fun x => n ≤ x.seq).map fun x => .flit port x.payload) ∧
      (∀ bs, f.payload = .graftHead bs →
        ∃ t, exec (.flitReceive port f) s = .next t ∧ (portOf t).rxSeq = q.rxSeq + 1 ∧ (portOf t).half = bs ∧ t.threads = s.threads ∧ t.mem = s.mem) ∧
      (∀ k bs g, f.payload = .graft k bs g →
        let note : GraftNote := { g with fromCore := awayCore port g.fromCore, tcbKey := foreignKey port g.tcbKey, uid := foreignKey port g.uid }
        ∃ t, exec (.flitReceive port f) s = .next t ∧ Due t s.clock.now (.graftArrival k (graftOf (q.half ++ bs) note)) ∧
          (portOf t).rxSeq = q.rxSeq + 1 ∧ (portOf t).half = [] ∧ t.threads = s.threads ∧ t.mem = s.mem)) ∧
    ∃ t, exec (.linkRetrain port) s = .next t ∧ asks t ∧ (portOf t).trn = (q.trn + 1) % 2 ^ 16 ∧ (portOf t).fails = 0 ∧ (portOf t).rxSeq = q.rxSeq

/-! ## Self-tests, refresh and weight-store modes -/

/-- BIST starts a test of a unit of an idle core and gives its result when the test ends; a core that is not idle answers 2 in its top byte (26 R390, R391). -/
def Claim.SelfTests : Prop :=
  ∀ (s s1 : State) (d a : Code) (x : Bool) (v : Word) (dest : Dest),
    let test := bits v 7 0
    let unit := bits v 11 8
    let own := s1.clock.core
    let id := tid s1
    let other := bit v 16
    admits { level := .s, srcs := [a], dst := some d } s = true → Reads s a x v s1 → bits v 63 17 = 0 → bits v 15 12 = 0 → test ≤ 5 →
    ∀ k, (if other then tselCore s1 (owner s1) own else some own) = some k → hasUnit k test = true →
    (if test = 0 then unit < banksOf k ∧ (other = true ∨ unit ≠ 0 ∧ unit ≠ banksOf k - 1) else unit = 0) → Takes s1 d dest →
    s1.occupied id = true → s1.clock.slot < 16 →
    (idleForTest s1 k (if other then none else some id) = true →
      ∃ t, exec (.bist d a x) s = .next t ∧
        (t.coreOf k).bist = some { test := test, unit := unit, core := own, slot := s1.clock.slot, producer := (current s1).nextProducer } ∧
        FMap.get? (current t).producers (current s1).nextProducer = some { dest := dest, value := 0 } ∧
        Due t (s1.clock.now + [131072, 32768, 65536, 16384, 8192, 1024].getD test 1024) (.bistComplete k test) ∧
        (∀ r, dest = .reg r → (FMap.get {} (current t).regs r).full = false) ∧ (current t).pc = pcNorm ((current s1).pc + 4#16) ∧ t.mem = s1.mem) ∧
    (idleForTest s1 k (if other then none else some id) = false →
      ∃ t, exec (.bist d a x) s = .next t ∧ Awaits s1 t dest 0x200000000000000 0 1 ∧ (t.coreOf k).bist = (s1.coreOf k).bist ∧ t.mem = s1.mem)

/-- A test leaves its unit cleared and fills its destination: all ones in the low word where it found no fault, otherwise 1 in the top byte (26 R390,
R391). -/
def Claim.SelfTestResults : Prop :=
  ∀ (s : State) (k n : Nat) (b : SelfTest) (pr : Producer),
    let id := tidOf b.core b.slot
    ((s.coreOf k).bist = none → exec (.bistComplete k n) s = .next s) ∧
    ((s.coreOf k).bist = some b → FMap.get? (s.thread id).producers b.producer = some pr → (s.coreOf k).arrivals = [] → (s.coreOf k).waiters = [] →
      b.test ≤ 5 → (∀ c w a e p, (s.thread id).status ≠ .parked (.upward c w a e) p) → (s.thread id).iter.bind (·.trapped) = none →
      ∃ t, exec (.bistComplete k n) s = .next t ∧ (t.coreOf k).bist = none ∧ FMap.get? (t.thread id).producers b.producer = none ∧
        (∀ r, pr.dest = .reg r → ∃ v, FMap.get? (t.thread id).regs r = some { val := v, full := true } ∧
          (Config.bistFault k b.test b.unit = none → v = 0xFFFFFFFF) ∧ (Config.bistFault k b.test b.unit ≠ none → bits v 63 56 = 1)) ∧
        (b.test = 0 → ∀ x, Memory.read t.mem x =
          if lsKey k (b.unit * (lsSize k / banksOf k)) ≤ x ∧ x < lsKey k (b.unit * (lsSize k / banksOf k)) + lsSize k / banksOf k then 0 else Memory.read s.mem x) ∧
        (b.test ≠ 0 → t.mem = s.mem) ∧ (b.test = 2 → (t.coreOf k).array.acc = []) ∧ (b.test = 3 → (t.coreOf k).dda.cells = []) ∧
        (b.test = 5 → (t.coreOf k).exact = []))

/-- In each phase of 512 cycles one group of a weight store is busy for 128 cycles (05 R100). -/
def Claim.RefreshPhases : Prop :=
  ∀ (s : State) (d : Nat),
    (∃ t, exec (.refreshPhase d) s = .next t ∧ (t.dieOf d).busyGroup = some ((s.clock.now - (s.dieOf d).resetAt) / 512 % 16) ∧
      Due t (s.clock.now + 128) (.refreshBusyEnd d) ∧ Due t (s.clock.now + 512) (.refreshPhase d) ∧ t.mem = s.mem ∧ t.threads = s.threads) ∧
    ((s.coreOf (3808 + 4 * d)).arrivals = [] →
      ∃ t, exec (.refreshBusyEnd d) s = .next t ∧ (t.dieOf d).busyGroup = none ∧ t.mem = s.mem ∧ t.threads = s.threads)

/-- A weight store changes its mode once no command that uses it is open and no iteration holds a store to it (05 R99). -/
def Claim.StoreModes : Prop :=
  ∀ (s : State) (d : Nat),
    let open_ : Bool := (s.cores.any fun c => c.2.commands.any fun p => usesStore d p.2) || s.threads.any fun p => buffersStore d p.2
    ((s.dieOf d).wsPend = false → exec (.wsmodeDrainEnd d) s = .next s) ∧
    ((s.dieOf d).wsPend = true → open_ = true →
      ∃ t, exec (.wsmodeDrainEnd d) s = .next t ∧ Due t (s.clock.now + 1) (.wsmodeDrainEnd d) ∧ t.dies = s.dies ∧ t.mem = s.mem ∧ t.threads = s.threads) ∧
    ((s.dieOf d).wsPend = true → open_ = false → (s.coreOf (3808 + 4 * d)).arrivals = [] →
      ∃ t, exec (.wsmodeDrainEnd d) s = .next t ∧ (t.dieOf d).wsServing = !(s.dieOf d).wsServing ∧ (t.dieOf d).wsPend = false ∧ t.mem = s.mem ∧
        t.threads = s.threads)

/-! ## Registers written from outside, boot and attestation -/

/-- Registers that the management port, a supervisor or a store writes: each takes the bits of its field map (00 R4, 22 R326, 05 R99, R101, 26 R388, R392,
R393). -/
def Claim.RegisterWrites : Prop :=
  ∀ (s : State) (d k n lane : Nat) (v : Word),
    let x := s.dieOf d
    let same (t : State) : Prop := t.mem = s.mem ∧ t.threads = s.threads
    (∃ t, exec (.svnfuseWrite d v) s = .next t ∧ (t.dieOf d).svnfuse = max x.svnfuse (min 64 v.toNat) ∧ same t) ∧
    (∀ on, ∃ t, exec (.marginingEnable on) s = .next t ∧ t.pkg.margining = on ∧ same t) ∧
    (s.pkg.margining = false → exec (.smargWrite d v) s = .next s) ∧
    (s.pkg.margining = true →
      ∃ t, exec (.smargWrite d v) s = .next t ∧ same t ∧ bits (t.dieOf d).smarg 63 32 = 0 ∧ ∀ i, i < 4 →
        (BitVec.ofNat 8 (bits (t.dieOf d).smarg (8 * i + 7) (8 * i))).toInt = max (-10) (min 10 (BitVec.ofNat 8 (bits v (8 * i + 7) (8 * i))).toInt)) ∧
    (bit v 0 = x.wsServing ∨ x.wsPend = true → exec (.wsmodeWrite d v) s = .next s) ∧
    (bit v 0 ≠ x.wsServing → x.wsPend = false →
      ∃ t, exec (.wsmodeWrite d v) s = .next t ∧ (t.dieOf d).wsPend = true ∧ (t.dieOf d).wsServing = x.wsServing ∧
        Due t s.clock.now (.wsmodeDrainEnd d) ∧ same t) ∧
    (∃ t, exec (.tqbWrite k false v) s = .next t ∧ (t.coreOf k).tqb = { base := bits v 20 5 * 32, size := bits v 47 32, head := 0, tail := 0 } ∧ same t) ∧
    (∃ t, exec (.tqbWrite k true v) s = .next t ∧
      FMap.get? (t.dieOf (dieOf k)).eqb (clusterOf k) = some { base := bits v 20 5 * 32, size := bits v 47 32, head := 0, tail := 0 } ∧ same t) ∧
    (let b := FMap.get {} (s.coreOf k).inboxes n
     let size := bits v 42 32
     let a := 64 * bits v 14 0
     exec (.ibdWrite k n true v) s = .next s ∧
     ∃ t, exec (.ibdWrite k n false v) s = .next t ∧ same t ∧
       let u := FMap.get {} (t.coreOf k).inboxes n
       (b.en = true → u = { b with en := bit v 63 }) ∧
       (b.en = false → u.size = size ∧ u.base = bits v 14 0 ∧
         (u.en = true ↔ bit v 63 = true ∧ 8 ≤ size ∧ size ≤ 1536 ∧ 0x10000 ≤ a ∧ a + 64 * size ≤ lsSize k ∧ bankOf k a = bankOf k (a + 64 * size - 1)) ∧
         (u.en = true → u.head = 0 ∧ u.tail = 0))) ∧
    (let old := FMap.get 0 (FMap.get {} (s.dieOf (k / 4)).ports (k % 4)).lmarg lane
     (bit old 63 = true → exec (.laneMarginDwell k lane) s = .next s) ∧
     (bit old 63 = false →
       ∃ t, exec (.laneMarginDwell k lane) s = .next t ∧ same t ∧ Due t (s.clock.now + 2 ^ 20) (.laneMarginDwellEnd k lane) ∧
         let new := FMap.get 0 (FMap.get {} (t.dieOf (k / 4)).ports (k % 4)).lmarg lane
         bit new 63 = true ∧ bit new 62 = false ∧ bits new 55 40 = bits old 55 40) ∧
     ∃ t, exec (.laneMarginDwellEnd k lane) s = .next t ∧ same t ∧
       let new := FMap.get 0 (FMap.get {} (t.dieOf (k / 4)).ports (k % 4)).lmarg lane
       bit new 63 = false ∧ bit new 62 = true ∧ bits new 55 40 = bits old 55 40 ∧ bits new 31 0 = (Config.marginErrors k lane old).toNat)

/-- A write of a register by its name: control registers of a thread as CRWR at H writes them, device registers under their access codes; an address
to which no rule gives a register is refused by name (00 R4, 24 R358). -/
def Claim.NamedWrites : Prop :=
  ∀ (s : State) (v : Word),
    (∀ q ∈ controlWrites, ∀ k t, t < 16 → s.occupied (tidOf k t) = true → (s.thread (tidOf k t)).iter = none → (s.thread (tidOf k t)).col = none →
      q.1 ≠ 2 →
      ∃ u, exec (.registerWrite (.control k t q.1) v) s = .next u ∧ q.2.1 (answering u k t) = q.2.2 v ∧ OthersSame (tidOf k t) s u ∧ u.mem = s.mem) ∧
    (∀ addr d, devName addr = some (d, .ageq) →
      ∃ u, exec (.registerWrite (.device addr) v) s = .next u ∧ (u.dieOf d).ageq = bits v 15 0 ∧ u.mem = s.mem ∧ u.threads = s.threads) ∧
    (∀ addr d, devName addr = some (d, .serr) →
      ∃ u, exec (.registerWrite (.device addr) v) s = .next u ∧ (u.dieOf d).serr = (s.dieOf d).serr &&& (2 ^ 32 - 1 - bits v 31 0) ∧ u.mem = s.mem ∧
        u.threads = s.threads) ∧
    (∀ addr d p, devName addr = some (d, .dlto p) →
      ∃ u, exec (.registerWrite (.device addr) v) s = .next u ∧ (FMap.get {} (u.dieOf d).ports p).dlto = max 1 (bits v 19 0) ∧ u.mem = s.mem ∧
        u.threads = s.threads) ∧
    (∀ addr d, devName addr = some (d, .kill) →
      ((s.dieOf d).killBusy = true → exec (.registerWrite (.device addr) v) s = .next s) ∧
      ((s.dieOf d).killBusy = false → bit v 63 = true →
        ∃ u, exec (.registerWrite (.device addr) v) s = .next u ∧ bits (u.dieOf d).kill 15 0 = bits v 15 0 ∧ Due u s.clock.now (.contextKill d) ∧
          u.mem = s.mem ∧ u.threads = s.threads)) ∧
    ∀ addr, devName addr = none → exec (.registerWrite (.device addr) v) s = .refused (.unspecifiedDevice addr)

/-- Package reset: every slot but slot 0 of the control cores is empty, fuses stay, and each die boots from the image of the storage port, or else from
that of the management port; the failure codes are the model's (26 R387). -/
def Claim.PackageReset : Prop :=
  ∀ (s : State) (b : BootImage),
    ∃ t, exec (.packageReset b) s = .next t ∧
      (∀ id, (∀ i, i < 32 → id ≠ tidOf (3808 + i) 0) → t.occupied id = false) ∧ t.clock.todo = [] ∧ t.pkg.tasks = [] ∧
      ∀ d, d < 8 → (t.dieOf d).svnfuse = (s.dieOf d).svnfuse ∧ (t.dieOf d).wsServing = false ∧ (t.dieOf d).clpart = [] ∧
        Due t (s.clock.now + Config.engineTime 10 d) (.refreshPhase d) ∧
        BootOutcome s t d (match b.storage with | some im => some im | none => b.management)

/-- Die reset: the die's slots are empty, its fuses stay, and it boots from the image that was accepted; threads of other dies stay (25 R371). -/
def Claim.DieReset : Prop :=
  ∀ (s : State) (d : Nat), d < 8 → (∀ c ∈ s.cores, dieOf c.1 = d → c.2.waiters = []) →
    ∃ t, exec (.dieReset d) s = .next t ∧
      (∀ id, dieOf (id / 16) = d → (∀ i, i < 4 → id ≠ tidOf (3808 + 4 * d + i) 0) → t.occupied id = false) ∧
      (∀ id, dieOf (id / 16) ≠ d → t.thread id = s.thread id) ∧ (t.dieOf d).svnfuse = (s.dieOf d).svnfuse ∧ (t.dieOf d).clpart = [] ∧
      Due t (s.clock.now + Config.engineTime 10 d) (.refreshPhase d) ∧
      BootOutcome s t d (if s.pkg.firmware.isEmpty then none else some s.pkg.firmware)

/-- An image is accepted only with the header of its kind, the fused key, a signature that verifies over header and body, and a security version not below
the rollback value (26 R388). -/
def Claim.ImageChecks : Prop :=
  ∀ (im key : List Byte) (kind rollback : Nat),
    imageRefused im kind key rollback = none ↔
      (leValue (im.take 4) = 0x48344649 ∧ leValue ((im.drop 4).take 4) = kind ∧ 2 ^ 20 ≤ blen im ∧ blen im ≤ 2 ^ 26 ∧ blen im % 2048 = 0 ∧
        8192 + blen im ≤ im.length) ∧
      Config.sha3 ((im.drop 64).take 2592) = key ∧
      Config.verify ((im.drop 64).take 2592) ((im.drop 2656).take 4627) (Config.sha3 (im.take 64 ++ (im.drop 8192).take (blen im))) = true ∧
      rollback ≤ leValue ((im.drop 8).take 8) ∧ reservedZero im = true

/-- The management endpoint answers its requests while the control complex of die 0 runs: other algorithms and other measurements are errors (26 R389). -/
def Claim.Attestation : Prop :=
  ∀ (s : State) (q : SpdmRequest), (s.dieOf 0).booted = true →
    let answers (i : Instr) (code : Nat) (err : Bool) (content : List Byte) : Prop :=
      ∃ t, exec i s = .next t ∧ t.pkg.outbox = s.pkg.outbox ++ [.spdm code err content] ∧ t.mem = s.mem ∧ t.threads = s.threads ∧ t.cores = s.cores
    answers (.getVersion q) 0 false (Config.spdmBody 0) ∧ answers (.getCapabilities q) 1 false (Config.spdmBody 1) ∧
    (q.sigAlg = 0 → q.hashAlg = 0 → answers (.negotiateAlgorithms q) 2 false (Config.spdmBody 2)) ∧
    (q.sigAlg ≠ 0 ∨ q.hashAlg ≠ 0 → answers (.negotiateAlgorithms q) 2 true []) ∧
    answers (.getDigests q) 3 false (Config.spdmBody 3) ∧ answers (.getCertificate q) 4 false (Config.spdmBody 4) ∧
    answers (.challenge q) 5 false (Config.attest (Config.sha3 s.pkg.firmware) (Config.spdmBody 5 ++ q.nonce)) ∧
    (q.index = 0 ∨ 228 < q.index → answers (.getMeasurements q) 6 true []) ∧
    (1 ≤ q.index → q.index ≤ 228 →
      answers (.getMeasurements q) 6 false (measurement s q.index ++ Config.attest (Config.sha3 s.pkg.firmware) (measurement s q.index ++ q.nonce))) ∧
    measurement s 1 = Config.sha3 Config.bootRom ∧ measurement s 2 = Config.sha3 s.pkg.firmware ∧
    ∀ p, p ≤ 223 → FMap.get? s.pkg.partImages p = none → measurement s (p + 5) = List.replicate 64 0

/-! ## Pre-emption -/

/-- A thread record holds the state of its thread: what a restore makes of it has the same program counter, predicates, registers, versions, control
registers, shape and tile registers (22 R332). -/
def Claim.ThreadRecords : Prop :=
  ∀ (s : State) (k slot : Nat) (t : Thread) (pc : BitVec 16) (sv : Option Saved), t.ctx < 2 ^ 16 → t.annul < 4 → t.depth < 2 ^ 32 → t.icnt < 2 ^ 64 →
    t.shape.es < 4 → t.shape.gc < 2 ^ 16 → t.shape.gr < 2 ^ 16 → t.shape.ac < 2 ^ 16 → t.shape.ar < 2 ^ 16 →
    let ws := threadRecord t pc none none
    let u := recordThread s k slot ws sv
    ws.length = 0x900 ∧ u.pc = pc ∧ u.pw = t.pw ∧ u.level = t.level ∧ u.ctx = t.ctx ∧ u.inh = t.inh ∧ u.annul = t.annul ∧ u.depth = t.depth ∧
    u.rm = t.rm ∧ u.fflags = t.fflags ∧ u.wlim = t.wlim ∧ u.wsp = t.wsp ∧ u.uih = t.uih ∧ u.epc = t.epc ∧ u.ecause = t.ecause ∧ u.evalue = t.evalue ∧
    u.xfid = t.xfid ∧ u.sepc = t.sepc ∧ u.scause = t.scause ∧ u.sval = t.sval ∧ u.shape = t.shape ∧ u.icnt = t.icnt ∧
    (∀ i, i < 32 → u.sreg i = { val := (t.sreg i).val, full := true }) ∧
    (∀ n j, n < 8 → j < 8 → u.version n j = { val := (t.version n j).val, full := true }) ∧ ∀ i, i < 0x4000 → u.tileByte i = t.tileByte i

/-- A save of a thread: an empty slot, or another thread in it, gives RES 1, or 4 once it has left by a graft; a record without a place gives RES 3; a
thread that cannot be taken yet is tried again; otherwise its records are written and RES is 0 (22 R331). -/
def Claim.ThreadSave : Prop :=
  ∀ (s : State) (c : CxCommand),
    let id := tidOf c.core c.slot
    let h := s.thread id
    let mine : Bool := c.level ≠ 1 || ctxPart s (dieOf c.core) h.ctx = ctxPart s (dieOf c.issuer) c.ctx
    let ends (t : State) (r : Nat) : Prop := (t.coreOf c.issuer).cxNow = none ∧ (t.coreOf c.issuer).cxRes = r
    (s.occupied id = false ∨ h.uid ≠ c.uid ∨ mine = false →
      ∃ t, exec (.cxSaveThread c) s = .next t ∧ ends t (if c.grafting then 4 else 1) ∧ t.mem = s.mem ∧ t.threads = s.threads) ∧
    (s.occupied id = true → h.uid = c.uid → mine = true → (∀ n, h.status ≠ .parked .graft n) → noThread s id = false → c.grafting = false →
      (recordPlaces s c c.addr .store (recordCount s h * 72) = none →
        ∃ t, exec (.cxSaveThread c) s = .next t ∧ ends t 3 ∧ t.mem = s.mem ∧ t.threads = s.threads) ∧
      (∀ s1, (recordPlaces s c c.addr .store (recordCount s h * 72)).isSome = true → Performs (takeThread id) s none s1 →
        exec (.cxSaveThread c) s = .next s1) ∧
      ∀ rs s1 s2, (recordPlaces s c c.addr .store (recordCount s h * 72)).isSome = true → Performs (takeThread id) s (some rs) s1 →
        Performs (writeRecords c 0 rs) s1 () s2 →
        ∃ t, exec (.cxSaveThread c) s = .next t ∧ ends t 0 ∧ t.mem = s2.mem ∧ t.threads = s2.threads)

/-- A thread outside loops and furrows is taken at an instruction boundary with nothing outstanding: its record is that of its state, and its slot is
empty (22 R330, R331). -/
def Claim.ThreadTaken : Prop :=
  ∀ (s : State) (id : Nat), s.occupied id = true → (s.thread id).iter = none → (s.thread id).col = none → (s.thread id).mwaitDst = .none →
    ((s.coreOf (id / 16)).rings.find? fun p => p.2.owner = id % 16 && !p.2.slots.isEmpty) = none →
    (s.thread id).status = .ready → (s.thread id).bound = .none → (s.thread id).annul = 0 → (s.thread id).wbase = (s.thread id).depth → Unregistered s id →
    (drained (s.thread id) = false → ∃ s1, Performs (takeThread id) s none s1 ∧ s1.mem = s.mem ∧ OthersSame id s s1) ∧
    (drained (s.thread id) = true → (s.thread id).pc = pcNorm (s.thread id).pc →
      ∃ s1 ws sv, Performs (takeThread id) s (some [(ws, sv)]) s1 ∧ s1.occupied id = false ∧ s1.mem = s.mem ∧ OthersSame id s s1 ∧
        ws = threadRecord (s.thread id) (s.thread id).pc none none ∧ sv.uid = (s.thread id).uid ∧
        sv.tcbKey = (s.thread id).tcbKey)

/-- A restore of a thread: a record that cannot be read gives RES 3, a bad one RES 5, a core without an open slot RES 2; otherwise the thread stands in
the slot that TSEL names if it is open, or the lowest open one (22 R331). -/
def Claim.ThreadRestore : Prop :=
  ∀ (s s1 : State) (c : CxCommand) (w : List Word),
    let ends (t : State) (r : Nat) : Prop := (t.coreOf c.issuer).cxNow = none ∧ (t.coreOf c.issuer).cxRes = r
    (Performs (readRecord c 0 threadBytes) s none s1 → ∃ t, exec (.cxRestoreThread c) s = .next t ∧ ends t 3 ∧ t.mem = s1.mem ∧ t.threads = s1.threads) ∧
    (Performs (readRecord c 0 threadBytes) s (some w) s1 →
      let slots := if leaving s1 (bits (w.getD 0 0) 47 32) c.core then [] else openSlots s1 c.core
      (goodThreadRecord c.core c.level w = false ∨ bit (w.getD 0 0) 20 = true →
        ∃ t, exec (.cxRestoreThread c) s = .next t ∧ ends t 5 ∧ t.mem = s1.mem ∧ t.threads = s1.threads) ∧
      (goodThreadRecord c.core c.level w = true → bits (w.getD 0 0) 20 18 = 0 →
        (slots = [] → ∃ t, exec (.cxRestoreThread c) s = .next t ∧ ends t 2 ∧ t.mem = s1.mem ∧ t.threads = s1.threads) ∧
        ∀ slot, (if slots.contains c.slot then some c.slot else slots.head?) = some slot →
          findSaved s1.pkg.saved (·.record) (recordKey s1 c 0) w = none → ctxValid s1 (dieOf c.core) (bits (w.getD 0 0) 47 32) = true →
          ∃ t, exec (.cxRestoreThread c) s = .next t ∧ ends t 0 ∧ t.mem = s1.mem ∧
            let u := t.thread (tidOf c.core slot)
            let r := recordThread s1 c.core slot w none
            u.pc = pcNorm r.pc ∧ u.pw = pwNorm r.pw ∧ u.regs = r.regs ∧ u.vers = r.vers ∧ u.level = r.level ∧ u.ctx = r.ctx ∧ u.status = r.status ∧
            u.epc = r.epc ∧ u.segs = contextSegs s1 (dieOf c.core) r.ctx))

/-- A save of a core: threads on it give RES 2, a record without a place RES 3; while a domain runs to its boundary the save goes on; then the record is
written, RES is 0, and the core's saved state is at reset (22 R333). -/
def Claim.CoreSave : Prop :=
  (∀ (s : State) (c : CxCommand),
    let ends (t : State) (r : Nat) : Prop := (t.coreOf c.issuer).cxNow = none ∧ (t.coreOf c.issuer).cxRes = r
    (slotsEmpty s c.core = false → ∃ t, exec (.cxSaveCore c) s = .next t ∧ ends t 2 ∧ t.mem = s.mem ∧ t.threads = s.threads) ∧
    (slotsEmpty s c.core = true → recordPlaces s c c.addr .store 292 = none →
      ∃ t, exec (.cxSaveCore c) s = .next t ∧ ends t 3 ∧ t.mem = s.mem ∧ t.threads = s.threads) ∧
    (∀ s1, slotsEmpty s c.core = true → (recordPlaces s c c.addr .store 292).isSome = true → Performs (quietDomains c.core) s false s1 →
      exec (.cxSaveCore c) s = .next s1) ∧
    ∀ ps s1 s2 s3, slotsEmpty s c.core = true → recordPlaces s c c.addr .store 292 = some ps → Performs (quietDomains c.core) s true s1 →
      Performs (takeCore c.core) s1 (coreRecord (s1.coreOf c.core), savedCoreOf (s1.coreOf c.core)) s2 →
      Performs (writeBlocks ps (wordBytes (coreRecord (s1.coreOf c.core)))) s2 () s3 →
      ∃ t, exec (.cxSaveCore c) s = .next t ∧ ends t 0 ∧ t.mem = s3.mem ∧ t.threads = s3.threads) ∧
  ∀ (s : State) (k : Nat),
    ∃ t, Performs (takeCore k) s (coreRecord (s.coreOf k), savedCoreOf (s.coreOf k)) t ∧ t.mem = s.mem ∧ t.threads = s.threads ∧
      (t.coreOf k).vt = BitVec.allOnes 64 ∧ (t.coreOf k).bankfmt = 0 ∧ (t.coreOf k).inboxes = [] ∧ (t.coreOf k).exact = [] ∧ (t.coreOf k).dda = {} ∧
      (t.coreOf k).array = {} ∧ ∀ d, d < 4 → FMap.get? (t.coreOf k).links d = none

/-- A restore of a core: a record that cannot be read gives RES 3, a bad one RES 5; otherwise its state is written back and each domain whose RUN is 1 has
its first step one PER later (22 R333). -/
def Claim.CoreRestore : Prop :=
  ∀ (s s1 : State) (c : CxCommand) (w : List Word),
    let k := c.core
    let ends (t : State) (r : Nat) : Prop := (t.coreOf c.issuer).cxNow = none ∧ (t.coreOf c.issuer).cxRes = r
    (Performs (readRecord c 0 coreBytes) s none s1 → ∃ t, exec (.cxRestoreCore c) s = .next t ∧ ends t 3 ∧ t.mem = s1.mem ∧ t.threads = s1.threads) ∧
    (Performs (readRecord c 0 coreBytes) s (some w) s1 →
      (goodCoreRecord w = false → ∃ t, exec (.cxRestoreCore c) s = .next t ∧ ends t 5 ∧ t.mem = s1.mem ∧ t.threads = s1.threads) ∧
      (goodCoreRecord w = true → (s1.coreOf k).isSealed = false → (∀ p ∈ s1.cores, p.2.receivers = [] ∧ p.2.sendq = [] ∧ p.2.ddaq = []) →
        ∃ t, exec (.cxRestoreCore c) s = .next t ∧ ends t 0 ∧ (t.coreOf k).vt = w.getD 0 0 ∧
          (t.coreOf k).bankfmt = bankFmtOfWrite k (s1.coreOf k).bankfmt (w.getD 1 0) ∧ t.mem = s1.mem ∧
          t.threads = s1.threads ∧
          (hasDda k = true → ∀ d, d < 4 →
            let x := (t.coreOf k).dda.dom d
            let dctl := w.getD (224 + 3 * d) 0
            x.run = bit dctl 63 ∧ x.gate = bit dctl 62 ∧ x.per = max 4 (bits dctl 15 0) ∧ x.cnt = bits (w.getD (225 + 3 * d) 0) 47 0 ∧
              (bit dctl 63 = true → Due t (s1.clock.now + max 4 (bits dctl 15 0)) (.domainStep k d)))))

/-- An event record goes to the tail of its cluster's queue; with a full queue it is counted and comes again one rotation later (24 R357). -/
def Claim.EventRecords : Prop :=
  ∀ (s : State) (k : Nat) (r : EventRecord),
    let q := FMap.get {} (s.dieOf (dieOf k)).eqb (clusterOf k)
    let key := lsKey k (q.base + 16 * q.tail)
    let takes : Bool := queueTakes q k 16 && !(s.coreOf k).isSealed
    (takes = true → Untouched s key 16 →
      ∃ t, exec (.eventRecordPlace k r) s = .next t ∧ t.mem = Memory.writeList s.mem key (leBytes 8 r.w0.toNat ++ leBytes 8 r.w1.toNat) ∧
        FMap.get? (t.dieOf (dieOf k)).eqb (clusterOf k) = some { q with tail := (q.tail + 1) % q.size } ∧ t.threads = s.threads) ∧
    (takes = false →
      ∃ t, exec (.eventRecordPlace k r) s = .next t ∧ Due t (s.clock.now + 16) (.eventRecordPlace k r) ∧ t.mem = s.mem ∧ t.threads = s.threads ∧
        FMap.get? (t.dieOf (dieOf k)).eqfull (clusterOf k) = some (FMap.get 0 (s.dieOf (dieOf k)).eqfull (clusterOf k) + 1))

/-! ## Words, steps and what every step keeps -/

/-- Decoding the word of a well-formed instruction gives the instruction back, with every operand (10 R179, R186). -/
def Claim.EncodeDecode : Prop := ∀ (i : Instr) (w : BitVec 32), i.wellFormed = true → encode i = some w → decode w = .ok i

/-- A word that decodes is the word of a well-formed instruction, so no bit of it is ignored (10 R179, R188 steps 1 and 2). -/
def Claim.DecodeEncode : Prop := ∀ (i : Instr) (w : BitVec 32), decode w = .ok i → encode i = some w ∧ i.wellFormed = true

/-- Words of the spec's examples and the instructions that they stand for. -/
def Claim.DecodedWords : Prop :=
  decode 0x04FE3D00#32 = .ok (.add 31 99 104 false false) ∧ decode 0x3CE0012C#32 = .ok (.ski 28 2#12 5#4 2#2 false) ∧
  decode 0x40000002#32 = .ok (.br 2#26) ∧ decode 0x51807006#32 = .ok (.loop 3#3 0#3 7 6#12) ∧ decode 0x58504006#32 = .ok (.ld 10 4 0#9 6#3) ∧
  decode 0x641820A1#32 = .ok (.amoAdd 3 2 5 false false) ∧ decode 0x60406000#32 = .ok (.ldf 8 6 0#9) ∧ decode 0x74000002#32 = .ok .yield ∧
  decode 0xB0008148#32 = .ok (.mma 8 10 false true) ∧ decode 0xE4000004#32 = .ok .uiret ∧ decode 0xFC402468#32 = .ok (.imm 0x2468#22) ∧
  decode 0x00000100#32 = .error (.reservedMajor 0)

/-- A step that comes to a thread's turn fetches the word at its program counter and executes the instruction that it decodes to; the step then marks
whether the position has been used. A word that is no instruction is Illegal Instruction, a frame without the thread's text a Fetch Fault (10 R188, 03 R39,
R54). -/
def Claim.StepRuns : Prop :=
  ∀ (s : State) (k j p : Nat) (rest : List Nat),
    (∀ e ∈ s.clock.events, s.clock.now < e.at_) → s.clock.todo = (32 * k + (4 + p)) :: rest → p < 16 →
    firstFrom s k p (16 - p) = j → j < 16 →
    let t := slotAt s.clock.now j
    let u := s.issuing k t rest
    let h := s.thread (tidOf k t)
    (∀ w i, fetchAt s k h.sid h.pc = some w → decode w = .ok i → step s = mapNext (afterWord k j) (exec i u)) ∧
    (∀ w r, fetchAt s k h.sid h.pc = some w → decode w = .error r → step s = mapNext (afterWord k j) (finish (trap 0x01) u)) ∧
    (fetchAt s k h.sid h.pc = none → step s = mapNext (afterWord k j) (exec (.fetchFault k t) u))

/-- The word that is fetched stands at the program counter in the core's code window, little-endian, in a frame that carries the thread's seed (03 R54,
10 R178). -/
def Claim.Fetch : Prop :=
  ∀ (s : State) (k sid : Nat) (pc : BitVec 16),
    (sid ≠ 0 → FMap.get 0 (s.coreOf k).sids (pc.toNat / 2048) = sid →
      fetchAt s k sid pc = some (BitVec.ofNat 32 (leValue (Memory.readList s.mem (lsKey k pc.toNat) 4)))) ∧
    (sid = 0 ∨ FMap.get 0 (s.coreOf k).sids (pc.toNat / 2048) ≠ sid → fetchAt s k sid pc = none)

/-- The search for a thread starts at the owner of the cycle's position and takes the first slot whose thread is eligible: it is ready or waits, its last
issue lies 8 cycles back, and no YIELD holds it (03 R39). -/
def Claim.IssueOrder : Prop :=
  ∀ (s : State) (k j p : Nat), p < 16 → firstFrom s k p (16 - p) = j → j < 16 →
    p ≤ j ∧ eligibleSlot s k (slotAt s.clock.now j) = true ∧ (∀ i, p ≤ i → i < j → eligibleSlot s k (slotAt s.clock.now i) = false) ∧
    slotAt s.clock.now 0 = s.clock.now % 16 ∧
    ∀ t n, eligibleSlot s k t = true → (s.thread (tidOf k t)).lastIssue = some n →
      n + 8 ≤ s.clock.now ∧ (s.thread (tidOf k t)).yieldTo ≤ s.clock.now ∧ ∀ why since, (s.thread (tidOf k t)).status ≠ .parked why since

/-- An event that is due happens before any word is fetched; with nothing left to do in a cycle the next one begins. -/
def Claim.StepEvents : Prop :=
  ∀ (s : State),
    (∀ e es, s.clock.events = e :: es → e.at_ ≤ s.clock.now → step s = exec e.act { s with clock := { s.clock with events := es } }) ∧
    ((∀ e ∈ s.clock.events, s.clock.now < e.at_) → s.clock.todo = [] → (∀ c ∈ s.cores, c.2.evs = []) →
      ∃ t, step s = .next t ∧ t.clock.now = s.clock.now + 1 ∧ t.threads = s.threads ∧ t.cores = s.cores ∧ t.mem = s.mem ∧ t.clock.events = s.clock.events)

/-- A word put where the next one is fetched is the word that the next step runs (the model's own placing of a program). -/
def Claim.PlacedWord : Prop :=
  ∀ (s : State) (n w : Nat) (i : Instr), decodeTableWord n w = some i →
    ∃ u j, step (s.withFetchWord n w) = mapNext (afterWord 0 j) (exec i u) ∧ tid u = 0 ∧ (current u).status = .ready ∧
      (current u).pc = pcNorm (s.thread 0).pc ∧ (current u).regs = (s.thread 0).regs

/-- Every step keeps memory in its canonical form, one thread in a slot, the fixed bits of predicate words and the alignment of program counters (03
R41, R49, 10 R178). -/
def Claim.StepKeeps : Prop := ∀ (s t : State), Inv s → step s = .next t → Inv t

/-- The state after reset has what every step keeps. -/
def Claim.ResetKeeps : Prop := Inv State.reset

/-- After reset no slot holds a thread, VT is withdrawn, links are empty with room for 32 words, and control and device registers have the values that
their field maps give (03 R41, 13 R239, 04 R76, 05 R94, R99, R101, 22 R326, R331, 24 R356 to R363, 25 R380, R383, R384, 26 R393). -/
def Claim.ResetState : Prop :=
  (∀ id, State.reset.occupied id = false) ∧
  (∀ k, let c := State.reset.coreOf k
    c.vt = BitVec.allOnes 64 ∧ c.bankfmt = 0 ∧ c.cxcmd = 0 ∧ c.isSealed = false ∧ c.tqb = { base := 0, size := 0, head := 0, tail := 0 } ∧
    (∀ d, d < 4 → FMap.get [] c.links d = [] ∧ FMap.get 32 c.credits d = 32) ∧ (∀ n, (FMap.get {} c.inboxes n).en = false) ∧
    (∀ n, FMap.get 0 c.errs n = 0) ∧ (∀ n, (FMap.get {} c.evs n).en = false ∧ (FMap.get {} c.evs n).count = 0) ∧
    (∀ d, (c.dda.dom d).run = false ∧ (c.dda.dom d).per = 4) ∧ ∀ n, (FMap.get {} c.exact n).a = 0 ∧ (FMap.get {} c.exact n).b = 31) ∧
  ∀ d, let x := State.reset.dieOf d
    x.wsServing = false ∧ x.lstat = 0 ∧ x.ageq = 0 ∧ x.serr = 0 ∧ x.kill = 0 ∧ x.killBusy = false ∧ x.corecmd = 0 ∧ x.smarg = 0 ∧
    (∀ n, FMap.get 0 x.clpart n = 0 ∧ FMap.get [] x.queues n = []) ∧ ∀ p, (FMap.get {} x.ports p).dlto = 0x1000 ∧ (FMap.get {} x.ports p).trn = 0

/-- What a register form leaves: its destination register apart, no register, version, control, exception or 2-D register, no other thread and no byte of
memory changes; predicates change only in C and V where they are recorded; the program counter is at the next word (11 R190 to R196). -/
def Claim.RegisterFrames : Prop :=
  ∀ (s s1 s2 s3 : State) (d a b : Code) (x y : Bool) (va vb : Word),
    let kept (t : State) : Prop :=
      (current t).pc = pcNorm ((current s).pc + 4#16) ∧ (∀ r, d.toNat < 32 → r ≠ (current s).place d.toNat → FMap.get? (current t).regs r = FMap.get? (current s).regs r) ∧
      (32 ≤ d.toNat → (current t).regs = (current s).regs) ∧ (d.toNat < 32 → (current t).vers = (current s).vers) ∧
      ControlSame (current s) (current t) ∧ t.mem = s.mem ∧ t.empties = s.empties ∧ t.poisons = s.poisons ∧ OthersSame (tid s) s t
    admits { srcs := [a, b], dst := some d } s = true → a.toNat < 96 ∨ 104 ≤ a.toNat → b.toNat < 96 ∨ 104 ≤ b.toNat → Reads s a x va s1 → Reads s1 b y vb s2 →
    s.occupied (tid s) = true → s.clock.slot < 16 →
    (∀ p ∈ binaryForms, Writes s2 d (p.2 va vb) s3 → ∃ t, exec (p.1 d a b x y) s = .next t ∧ kept t ∧ (current t).pw = (current s).pw) ∧
    (∀ p ∈ recordedForms, Writes s2 d (p.2 va vb ((current s2).pw.getLsbD 16)).1 s3 →
      ∃ t, exec (p.1 d a b x y) s = .next t ∧ kept t ∧ ∀ n, n ≠ 16 → n ≠ 17 → 1 ≤ n → n < 20 → (current t).pw.getLsbD n = (current s).pw.getLsbD n)

/-! ## Instructions of a thread by itself -/

/-- The integrator instructions of a thread by itself complete with register operands: DSTART, DHALT, DCFG, DIN, DTAP and DPORT go on at the next word
with their effect, once their operands are in range and no domain that they name is in their way (16 R292, R297 to R302). -/
def Claim.IntegratorCompletions : Prop :=
  ∀ (s : State) (d a b : Code) (x y : Bool) (va vb : Word),
    let k := s.clock.core
    let g := ddaOf s k
    let i := bits va 2 0
    let answers (t : State) (v : Word) : Prop := (current t).sreg d.toNat = { val := v, full := true }
    Alone s → hasDda k = true → ranges s → Holds s a va → Holds s b vb → d.toNat < 32 → ((current s).sreg d.toNat).full = true →
    (bits va 63 4 = 0 → (∀ e, e < 4 → va.getLsbD e = true → (g.dom e).run = false → ∀ p ∈ g.members e, p.2.sat = false) →
      ∃ t, exec (.dstart a x) s = .next t ∧ Completed s t ∧ ∀ e, e < 4 → va.getLsbD e = true → ((ddaOf t k).dom e).run = true) ∧
    (bits va 63 4 = 0 → (∀ e, e < 4 → va.getLsbD e = true → (g.dom e).busy s.clock.now = false ∧ (g.dom e).halting = false) →
      ∃ t, exec (.dhalt a x) s = .next t ∧ Completed s t ∧ ∀ e, e < 4 → va.getLsbD e = true → ((ddaOf t k).dom e).run = false) ∧
    (bits va 63 6 = 0 → i ≤ 3 → bits va 5 3 = 1 →
      ∃ t, exec (.dcfg d a b x y) s = .next t ∧ Completed s t ∧ answers t (BitVec.ofNat 64 (g.dom i).cnt)) ∧
    (bits va 63 7 = 0 → bit va 6 = true → i ≤ 3 → bits va 5 3 = 1 → (g.dom i).run = false →
      ∃ t, exec (.dcfg d a b x y) s = .next t ∧ Completed s t ∧ ((ddaOf t k).dom i).cnt = bits vb 47 0 ∧ answers t (BitVec.ofNat 64 (g.dom i).cnt)) ∧
    (va.toNat ≤ 7 → -7 ≤ vb.toInt → vb.toInt ≤ 7 →
      ∃ t, exec (.din a b x y) s = .next t ∧ Completed s t ∧ ddaOf t k = g.gain (fun _ => true) (0x108 + va.toNat) vb.toInt) ∧
    (va.toNat ≤ 7 → bits vb 63 8 = 0 →
      ∃ t, exec (.dtap d a b x y) s = .next t ∧ Completed s t ∧
        FMap.get? (ddaOf t k).taps va.toNat = some { cell := bits vb 7 0, en := true, net := 0 }) ∧
    (va.toNat ≤ 7 →
      ∃ t, exec (.dport d a b x y) s = .next t ∧ Completed s t ∧ ((FMap.get {} (ddaOf t k).outs va.toNat).core = bits vb 39 16))

/-- PATCH, RLOAD and RSAVE of a thread by itself complete with register operands, on a span of local store that holds good entries or records and that no
domain in the way uses (16 R293 to R296). -/
def Claim.RangeCompletions : Prop :=
  ∀ (s : State) (a b : Code) (x y : Bool) (va vb : Word) (key : Nat),
    let k := s.clock.core
    let g := ddaOf s k
    let first := bits vb 7 0
    let n := bits vb 15 8 + 1
    let word (i : Nat) : Word := memDw s (key + 8 * i)
    let still (i : Nat) : Prop := (g.dom (g.cell (first + i)).dom).run = false
    Alone s → hasDda k = true → ranges s → Holds s a va → Holds s b vb → bits vb 63 17 = 0 → first + n ≤ 256 →
    (LocalSpan s va (8 * n) 8 false key → bit vb 16 = false → Clean s key (8 * n) →
      (∀ i, i < n → goodEntry (word i) = true ∧ still i ∧ (g.dom (bits (word i) 62 61)).run = false) →
      ∃ t, exec (.patch a b x y) s = .next t ∧ Completed s t ∧ ∀ i, i < n → ((ddaOf t k).cell (first + i)).patch = word i) ∧
    (LocalSpan s va (16 * n) 16 false key → bit vb 16 = false → Clean s key (16 * n) →
      (∀ i, i < n → goodRecord (word (2 * i)) (word (2 * i + 1)) = true ∧ still i) →
      ∃ t, exec (.rload a b x y) s = .next t ∧ Completed s t ∧ ∀ i, i < n → ((ddaOf t k).cell (first + i)).r = bits (word (2 * i)) 63 32) ∧
    (LocalSpan s va (8 * n) 8 true key → bit vb 16 = true → Untouched s key (8 * n) → (∀ e, e < 4 → (g.dom e).busy s.clock.now = false) →
      ∃ t, exec (.rsave a b x y) s = .next t ∧ Completed s t ∧ ddaOf t k = g ∧
        ∀ i, i < n → memDw t (key + 8 * i) = (g.cell (first + i)).patch)

/-- SPAWN, CHAIN, ESTAT, PUBL and CPY of a thread by itself complete with register operands: SPAWN sends the child's packet, or calls it where its core
refused it; CHAIN binds a held command to another; ESTAT answers; PUBL and CPY leave and hold their thread until their flip or their acceptance (13 R233,
15 R286 to R288, R291). -/
def Claim.TransferCompletions : Prop :=
  ∀ (s : State) (d a b : Code) (x y h : Bool) (va vb : Word) (sc : BitVec 3) (c : Nat) (e : Word),
    let k := s.clock.core
    let me := current s
    Holds s a va → Holds s b vb → d.toNat < 32 → (me.sreg d.toNat).full = true →
    (Alone s → va.toNat < 2 ^ 24 → coreEntry s (dieOf k) me.ctx va.toNat = some e → entryPkg e = s.pkg.number → entryCore e = some c →
      levelAllows me.level k c = true → isOffset vb = true → (∀ i, i < 8 → (me.sreg (24 + i)).full = true) →
      ∃ t p, exec (.spawn a b x y) s = .next t ∧ Due t (s.clock.now + Config.transit k c) (.spawnPacketArrival c p) ∧ p.pc = vb.setWidth 16 ∧
        p.ctx = me.ctx ∧ p.level = me.level.code ∧ p.args = (List.range 4).map (fun i => (me.sreg (24 + i)).val) ∧ OthersSame (tid s) s t) ∧
    (s.occupied (tid s) = true → s.clock.slot < 16 → me.bound = .none → me.lent = [] → me.col = none → me.mwaitToken = 2 → me.depth < 2 ^ 32 - 1 →
      me.resident < 4 → (me.sreg 31).full = true → me.twin = none → (owner s).twin = none →
      ∃ t, exec (.spawn a b x y) s = .next t ∧ (current t).pc = pcNorm me.graftPc ∧ (current t).depth = me.depth + 1 ∧
        (current t).sreg 15 = { val := (me.pc + 4#16).setWidth 64, full := true } ∧ (current t).mwaitToken = 0 ∧
        (current t).spawnWindows.contains (me.depth + 1) = true ∧ OthersSame (tid s) s t) ∧
    (∀ p q pred succ, Alone s → va.toNat < 2 ^ 16 → vb.toNat < 2 ^ 16 → transferOf (s.coreOf k) va.toNat = some (p, none) →
      (∃ st, transferOf (s.coreOf k) vb.toNat = some (q, st)) → p ≠ q → FMap.get? (s.coreOf k).commands q = some succ →
      FMap.get? (s.coreOf k).commands p = some pred → succ.held = true → succ.chains < 4 →
      ∃ t, exec (.chain a b x y) s = .next t ∧ Completed s t ∧
        FMap.get? (t.coreOf k).commands q = some { succ with chains := succ.chains + 1, preds := succ.preds + 1 } ∧
        FMap.get? (t.coreOf k).commands p = some { pred with after := pred.after ++ [q] }) ∧
    (∀ p v, Alone s → bits va 63 17 = 0 → bit va 16 = true → transferOf (s.coreOf k) (bits va 15 0) = some (p, some v) →
      (∃ t, exec (.estat d a x true) s = .next t ∧ Completed s t ∧
        (current t).sreg d.toNat = { val := BitVec.ofNat 64 (2 ^ 24 + v * 2 ^ 16 + bits va 15 0), full := true }) ∧
      ∃ t, exec (.estat d a x false) s = .next t ∧ Completed s t ∧
        Awaits s t (.reg (me.place d.toNat)) (BitVec.ofNat 64 (2 ^ 24 + v * 2 ^ 16 + bits va 15 0)) 0 estatTime) ∧
    (Alone s → a ≠ 0 → sc.toNat ≤ 5 →
      ∃ t, exec (.publ a sc) s = .next t ∧ Due t s.clock.now (.publFlip me.ctx a.toNat) ∧ (current t).status = .parked .engine none ∧ OthersSame (tid s) s t) ∧
    (∀ key cp n, let ws := (List.range n).map fun i => memDw s (key + 8 * i)
      Alone s → me.held = [] → n = 12 + 4 * bits (memDw s (key + 16)) 1 0 → LocalSpan s va (8 * n) 64 false key → Clean s key (8 * n) →
      goodCopyBlock va ws = true → Performs (copyOf ws) s cp s → goodDims cp = true → SpansPass s cp → goodGeometry cp = true →
      openTransfers (s.coreOf k) < 64 → Performs cp.src.master s k s →
      ∃ t, exec (.cpy d a h) s = .next t ∧ Departed s t (.reg (me.place d.toNat)) k (va :: (if h then 1 else 0) :: ws) (.copyAccept k s.clock.slot))

/-- Events of threads, messages, integrators, arrays, engines and schedulers always end in a next state, whatever stands in the state (00 R6, 03 R42 to R61). -/
def Claim.EventsComplete : Prop :=
  ∀ (s : State) (k t n : Nat) (seed : SeedPacket) (child : SpawnPacket) (on : Bool) (graft : GraftPacket) (dir : Dir) (v : Word) (trap_ : TrapRecord) (msg : Message) (units_ : List Crossing) (ev : EventRecord) (cut : Cutting),
    (∃ u, exec (.producerResultArrival k t n) s = .next u) ∧ (∃ u, exec (.waitLimit k t n) s = .next u) ∧
    (∃ u, exec (.seedPacketArrival k seed) s = .next u) ∧ (∃ u, exec (.spawnPacketArrival k child) s = .next u) ∧
    (∃ u, exec (.spawnReply k t on) s = .next u) ∧ (∃ u, exec (.graftArrival k graft) s = .next u) ∧ (∃ u, exec (.graftQueuePlace k) s = .next u) ∧
    (∃ u, exec (.graftAccepted k t n) s = .next u) ∧ (∃ u, exec (.graftResend k t) s = .next u) ∧ (∃ u, exec (.mwaitWake k t) s = .next u) ∧
    (∃ u, exec (.mwaitTimeout k t n) s = .next u) ∧ (∃ u, exec (.linkWordArrival k dir v) s = .next u) ∧
    (∃ u, exec (.linkCreditReturn k dir) s = .next u) ∧ (∃ u, exec (.furrowStart k) s = .next u) ∧ (∃ u, exec (.furrowStep k) s = .next u) ∧
    (∃ u, exec (.trapQueueRecord k trap_) s = .next u) ∧ (∃ u, exec (.inboxPlace k msg) s = .next u) ∧ (∃ u, exec (.messageResend msg) s = .next u) ∧
    (∃ u, exec (.sendQueueDeliver k) s = .next u) ∧ (∃ u, exec (.glbUpdate k) s = .next u) ∧ (∃ u, exec (.creditReturn k t n) s = .next u) ∧
    (∃ u, exec (.channelAudit k t n) s = .next u) ∧ (∃ u, exec (.domainStep k t) s = .next u) ∧ (∃ u, exec (.domainHaltBoundary k t) s = .next u) ∧
    (∃ u, exec (.crossingArrival k units_) s = .next u) ∧ (∃ u, exec (.integratorRecordTake k t) s = .next u) ∧
    (∃ u, exec (.arrayCommandExecute k) s = .next u) ∧ (∃ u, exec (.tilemmDescriptorCopy k) s = .next u) ∧ (∃ u, exec (.tilemmStep k) s = .next u) ∧
    (∃ u, exec (.copyAccept k t) s = .next u) ∧ (∃ u, exec (.copyElementLand k) s = .next u) ∧ (∃ u, exec (.copyComplete k) s = .next u) ∧
    (∃ u, exec (.nbmvAccept k t) s = .next u) ∧ (∃ u, exec (.nbmvComplete k) s = .next u) ∧ (∃ u, exec (.publFlip k t) s = .next u) ∧
    (∃ u, exec (.eventRecordPlace k ev) s = .next u) ∧ (∃ u, exec (.cuttingApply cut) s = .next u) ∧ (∃ u, exec (.cuttingResend cut) s = .next u) ∧
    (∃ u, exec (.linkTimeout k t n) s = .next u) ∧ (∃ u, exec (.twinHashArrival k t n v) s = .next u)

/-- Events of scheduling, self-tests, links, saves and registers always end in a next state (24 R354 to R363, 25 R366 to R380, 26 R390 to R393). -/
def Claim.MoreEventsComplete : Prop :=
  ∀ (s : State) (k t n : Nat) (seed : SeedPacket) (on : Bool) (v : Word) (launch : LaunchRecord) (req : Shoot) (bytes : List Byte) (q : AccessRequest) (found : EccFound) (cx : CxCommand),
    (∃ u, exec (.twinHashTimeout k t n) s = .next u) ∧ (∃ u, exec (.refreshPhase k) s = .next u) ∧ (∃ u, exec (.refreshBusyEnd k) s = .next u) ∧
    (∃ u, exec (.wsmodeDrainEnd k) s = .next u) ∧ (∃ u, exec (.schedulerDispatch k) s = .next u) ∧ (∃ u, exec (.threadPlacement k t) s = .next u) ∧
    (∃ u, exec (.launchEnq launch) s = .next u) ∧ (∃ u, exec (.launchDec launch) s = .next u) ∧ (∃ u, exec (.contextKill k) s = .next u) ∧
    (∃ u, exec (.killDrainComplete k) s = .next u) ∧ (∃ u, exec (.coreRemove k) s = .next u) ∧ (∃ u, exec (.shootdownPort k req) s = .next u) ∧
    (∃ u, exec (.bistComplete k t) s = .next u) ∧ (∃ u, exec (.laneMarginDwellEnd k t) s = .next u) ∧
    (∃ u, exec (.wideBeatArrival k on bytes) s = .next u) ∧ (∃ u, exec (.annulledWordPass k t) s = .next u) ∧
    (∃ u, exec (.fetchFault k t) s = .next u) ∧ (∃ u, exec (.windowSpill k) s = .next u) ∧ (∃ u, exec (.windowFill k) s = .next u) ∧
    (∃ u, exec (.seedPacketReturn k seed) s = .next u) ∧ (∃ u, exec (.asyncEventDelivery k t) s = .next u) ∧
    (∃ u, exec (.messageRelease k t) s = .next u) ∧ (∃ u, exec (.remoteAccessRequest q) s = .next u) ∧ (∃ u, exec (.linkRetrain k) s = .next u) ∧
    (∃ u, exec (.coreSeal k) s = .next u) ∧ (∃ u, exec (.scrubRead k found) s = .next u) ∧ (∃ u, exec (.wsmodeWrite k v) s = .next u) ∧
    (∃ u, exec (.tcbDecrement k t) s = .next u) ∧ (∃ u, exec (.taskRetire k t) s = .next u) ∧ (∃ u, exec (.taskFail k t) s = .next u) ∧
    (∃ u, exec (.cxSaveThread cx) s = .next u) ∧ (∃ u, exec (.cxRestoreThread cx) s = .next u) ∧ (∃ u, exec (.cxSaveCore cx) s = .next u) ∧
    (∃ u, exec (.cxRestoreCore cx) s = .next u) ∧ (∃ u, exec (.laneMarginDwell k t) s = .next u) ∧ (∃ u, exec (.svnfuseWrite k v) s = .next u) ∧
    (∃ u, exec (.smargWrite k v) s = .next u) ∧ (∃ u, exec (.ibdWrite k t on v) s = .next u) ∧ (∃ u, exec (.tqbWrite k on v) s = .next u) ∧
    (∃ u, exec (.clpartWrite k t v) s = .next u)

/-- Events of the management port and of resets always end in a next state (26 R387 to R393, 25 R371, R384). -/
def Claim.OutsideEventsComplete : Prop :=
  ∀ (s : State) (k : Nat) (on : Bool) (image : BootImage) (spdm : SpdmRequest) (frame : FrameText),
    (∃ u, exec (.packageReset image) s = .next u) ∧ (∃ u, exec (.getVersion spdm) s = .next u) ∧ (∃ u, exec (.getCapabilities spdm) s = .next u) ∧
    (∃ u, exec (.negotiateAlgorithms spdm) s = .next u) ∧ (∃ u, exec (.getDigests spdm) s = .next u) ∧
    (∃ u, exec (.getCertificate spdm) s = .next u) ∧ (∃ u, exec (.challenge spdm) s = .next u) ∧ (∃ u, exec (.getMeasurements spdm) s = .next u) ∧
    (∃ u, exec (.dieReset k) s = .next u) ∧ (∃ u, exec (.framePageIn k frame) s = .next u) ∧ (∃ u, exec (.eventCounterAdd k) s = .next u) ∧
    (∃ u, exec (.marginingEnable on) s = .next u)

/-- The events that may meet a device register end in a next state where none is in their way: a response while no store of its thread has parts left, a
flit that carries no such response, a register write to a register that the spec gives (05 R97, 25 R379, 00 R4). -/
def Claim.DeviceEventsComplete : Prop :=
  ∀ (s : State) (k t n : Nat) (v : Word) (bad : Bool) (f : Flit) (addr d : Nat) (name : DevName),
    ((s.thread (tidOf k t)).storing = [] → ∃ u, exec (.remoteAccessResponse k t n v bad) s = .next u) ∧
    ((∀ c t n v bad, f.payload = .response c t n v bad → (s.thread (tidOf c t)).storing = []) → ∃ u, exec (.flitReceive k f) s = .next u) ∧
    (∃ u, exec (.registerWrite (.control k t n) v) s = .next u) ∧
    (devName addr = some (d, name) → ∃ u, exec (.registerWrite (.device addr) v) s = .next u)

/-! ## The obligations -/

/-- Reading a source operand: registers, versions, links and special operands. -/
def Obligations.OperandReads : Prop :=
  Claim.ScalarSources ∧ Claim.VersionSources ∧ Claim.LinkSources ∧ Claim.SpecialSources

/-- Writing a destination operand at once or as a long-latency producer. -/
def Obligations.OperandWrites : Prop :=
  Claim.DestinationWrites ∧ Claim.ProducerIssue ∧ Claim.ProducerArrival

/-- Integer arithmetic, logic, shifts, extremes, counts, extensions and divides complete with the results of chapter 11. -/
def Obligations.IntegerResults : Prop :=
  Claim.BinaryResults ∧ Claim.UnaryResults ∧ Claim.RecordedResults ∧ Claim.DivideResults

/-- The immediate forms act as their register forms with the sign-extended immediate. -/
def Obligations.ImmediateForms : Prop :=
  Claim.ImmediateResults ∧ Claim.ImmediateRecords

/-- Shifts by a constant, moves, predicates, NOP, IMM, RLX and SCHED. -/
def Obligations.ConstantsAndHints : Prop :=
  Claim.ShiftResults ∧ Claim.MoveResults ∧ Claim.HintResults

/-- Compare-skips: their predicate, what they annul, and where they are Illegal Nesting. -/
def Obligations.CompareSkips : Prop :=
  Claim.SkipResults ∧ Claim.SkipNesting

/-- Branches, calls and returns: target, link, window and traps. -/
def Obligations.BranchesAndCalls : Prop :=
  Claim.BranchResults ∧ Claim.BranchTraps ∧ Claim.CallResult ∧ Claim.ReturnResult

/-- LOOP, IEND and ILEAVE: iterations begin and end, versions move. -/
def Obligations.Loops : Prop :=
  Claim.LoopStarts ∧ Claim.IterationEnds ∧ Claim.IterationNesting

/-- YIELD, DONE and WFLD. -/
def Obligations.ThreadEnds : Prop :=
  Claim.YieldResult ∧ Claim.DoneResult ∧ Claim.WorkFieldResult

/-- GRAFT, the arrival of a graft and its handshake. -/
def Obligations.Grafts : Prop :=
  Claim.GraftResult ∧ Claim.GraftArrival ∧ Claim.GraftHandshake

/-- SPAWN, the arrival of a child and the answer. -/
def Obligations.Spawns : Prop :=
  Claim.SpawnResult ∧ Claim.SpawnArrival ∧ Claim.SpawnReply

/-- Seed packets start threads, go back, or page text in. -/
def Obligations.SeedPackets : Prop :=
  Claim.SeedArrival ∧ Claim.SeedHandling

/-- Waits of instructions, counted and not counted, and the wait limit. -/
def Obligations.Waits : Prop :=
  Claim.WaitEntry ∧ Claim.WaitLimit

/-- The segment stage of an access and its traps, and its translation. -/
def Obligations.SegmentChecks : Prop :=
  Claim.SegmentStage ∧ Claim.CachedTranslations ∧ Claim.TranslationFrames

/-- Loads fill their destination with the widened bytes. -/
def Obligations.Loads : Prop :=
  Claim.LoadResults

/-- Stores write their bytes and nothing else. -/
def Obligations.Stores : Prop :=
  Claim.StoreResults

/-- LDF, LDFF, STF and PURGE, and their waits. -/
def Obligations.FullEmptyOperations : Prop :=
  Claim.FullEmptyResults ∧ Claim.FullEmptyWaits

/-- Atomics at their own core, and those that move their thread. -/
def Obligations.Atomics : Prop :=
  Claim.AtomicResults ∧ Claim.AtomicGrafts

/-- Reductions at their own core and cuttings at their home. -/
def Obligations.Reductions : Prop :=
  Claim.ReductionResults ∧ Claim.CuttingArrival

/-- FENCE, MARM, MDIS and MWAIT. -/
def Obligations.FencesAndMonitors : Prop :=
  Claim.FenceResult ∧ Claim.MonitorResults ∧ Claim.MwaitResults ∧ Claim.MwaitReturns

/-- BARI, BARV and BARW. -/
def Obligations.Barriers : Prop :=
  Claim.BarrierArming ∧ Claim.BarrierArrival ∧ Claim.BarrierWait

/-- The order of checks, taking a trap, the trap instructions, and the returns. -/
def Obligations.Traps : Prop :=
  Claim.CheckOrder ∧ Claim.PrivilegeTraps ∧ Claim.TrapEntry ∧ Claim.CallTraps ∧ Claim.HandlerReturn ∧ Claim.HoldReturn

/-- Control registers, views and segment registers read and written. -/
def Obligations.ControlRegisters : Prop :=
  Claim.ControlReads ∧ Claim.ControlWrites ∧ Claim.ControlResults ∧ Claim.ViewResults ∧ Claim.SegmentRegisters

/-- Trap-queue records, delivery of pending events, and event records. -/
def Obligations.EventsAndQueues : Prop :=
  Claim.TrapQueue ∧ Claim.EventDelivery ∧ Claim.EventRecords

/-- SHOOT and the acknowledgement of its ports. -/
def Obligations.ShootDowns : Prop :=
  Claim.ShootResult ∧ Claim.ShootAcknowledged

/-- Decoding the word of any well-formed instruction gives that instruction. -/
def Obligations.EncodedInstructionsDecode : Prop :=
  Claim.EncodeDecode

/-- A word that decodes is the encoding of a well-formed instruction. -/
def Obligations.DecodedWordsAreWellFormed : Prop :=
  Claim.DecodeEncode

/-- Words of the spec's examples decode to their instructions. -/
def Obligations.ExampleWordsDecode : Prop :=
  Claim.DecodedWords

/-- A step runs the decoded instruction, an event that is due, or the end of a cycle. -/
def Obligations.StepsRunWords : Prop :=
  Claim.StepRuns ∧ Claim.Fetch ∧ Claim.IssueOrder ∧ Claim.StepEvents ∧ Claim.PlacedWord

/-- Every step keeps memory canonical, one thread in a slot, predicate words and program counters normal. -/
def Obligations.StepsKeepTheInvariant : Prop :=
  Claim.StepKeeps

/-- The state after reset has the invariant. -/
def Obligations.ResetHasTheInvariant : Prop :=
  Claim.ResetKeeps

/-- What reset leaves. -/
def Obligations.ResetValues : Prop :=
  Claim.ResetState

/-- What register forms leave unchanged. -/
def Obligations.RegisterFormFrames : Prop :=
  Claim.RegisterFrames

/-- SEND and RECV: results, traps and waits. -/
def Obligations.Messages : Prop :=
  Claim.SendResult ∧ Claim.SendTraps ∧ Claim.RecvResult

/-- VTADV, GLBRD, LCFG and what happens on links. -/
def Obligations.TimeAndLinks : Prop :=
  Claim.TimeResults ∧ Claim.LinkConfig ∧ Claim.LinkEvents

/-- Arrival, sending, credits and release of messages. -/
def Obligations.MessageEvents : Prop :=
  Claim.MessageArrival ∧ Claim.SendQueue ∧ Claim.CreditEvents ∧ Claim.BoundEvents

/-- Scalar floats: one rounding, flags, divides and conversions. -/
def Obligations.ScalarFloats : Prop :=
  Claim.FloatResults ∧ Claim.FusedResults ∧ Claim.FloatDivides ∧ Claim.ConvertResults

/-- FSK, FCLASS and the float control instructions. -/
def Obligations.FloatSkipsAndControl : Prop :=
  Claim.FloatSkips ∧ Claim.FloatControl

/-- Float operations are exact before their one rounding, by mode. -/
def Obligations.ExactRounding : Prop :=
  Claim.ExactArithmetic ∧ Claim.RoundingModes

/-- SHAPE, arithmetic of lanes, and their conversion. -/
def Obligations.LaneOperations : Prop :=
  Claim.ShapeResult ∧ Claim.LaneResults ∧ Claim.LaneChecks ∧ Claim.LaneConversion

/-- Reductions and moves of the lanes of tile registers. -/
def Obligations.LaneMovement : Prop :=
  Claim.LaneReductions ∧ Claim.LaneMoves

/-- Tile loads and stores. -/
def Obligations.TileMemory : Prop :=
  Claim.TileLoad ∧ Claim.TileStore

/-- Commands of the 2-D array queue and execute. -/
def Obligations.ArrayCommands : Prop :=
  Claim.ArrayQueueing ∧ Claim.ArrayMoves ∧ Claim.ArrayChecks

/-- MMA queues and runs, with wide operands. -/
def Obligations.MatrixProducts : Prop :=
  Claim.MmaQueueing ∧ Claim.MmaResult ∧ Claim.WideOperands

/-- TILEMM, its descriptor and its steps. -/
def Obligations.TileSequencer : Prop :=
  Claim.TilemmResult ∧ Claim.DescriptorCopy ∧ Claim.SequencerSteps

/-- XRED, XRND and XCLR. -/
def Obligations.ExactAccumulators : Prop :=
  Claim.ExactResults

/-- CPY, NBMV, CHAIN, PUBL and ESTAT. -/
def Obligations.TransferCommands : Prop :=
  Claim.CopyIssue ∧ Claim.NearBankIssue ∧ Claim.ChainResult ∧ Claim.Publication ∧ Claim.StatusResult

/-- Masters accept commands, copies land, commands end. -/
def Obligations.TransferEvents : Prop :=
  Claim.Acceptance ∧ Claim.CopyLands ∧ Claim.EngineEnds

/-- Instructions of the integrator array. -/
def Obligations.IntegratorInstructions : Prop :=
  Claim.RangeResults ∧ Claim.DomainConfig ∧ Claim.DomainControl ∧ Claim.StartTrap ∧ Claim.PortResults

/-- Steps of the integrator array, crossings, records and boundaries. -/
def Obligations.IntegratorSteps : Prop :=
  Claim.CellStep ∧ Claim.DomainSteps ∧ Claim.CrossingUnits ∧ Claim.RecordTake ∧ Claim.DomainBoundary

/-- PACK6, PACK4, UNPK6 and UNPK4. -/
def Obligations.PackedCodes : Prop :=
  Claim.PackResults

/-- LGENC and LGDEC. -/
def Obligations.LogCodes : Prop :=
  Claim.LogResults

/-- Furrows reserve, start, take turns and end. -/
def Obligations.Furrows : Prop :=
  Claim.FurrowReserves ∧ Claim.FurrowStarts ∧ Claim.FurrowTurns ∧ Claim.FurrowEnds

/-- The scheduler: records, decrements, retirement, order, dispatch and placement. -/
def Obligations.Scheduling : Prop :=
  Claim.LaunchRecords ∧ Claim.Decrements ∧ Claim.Retirement ∧ Claim.TaskOrder ∧ Claim.Dispatching ∧ Claim.CoreChoice ∧ Claim.Placement

/-- Kills, task failures, core removal and cluster partitions. -/
def Obligations.TaskControl : Prop :=
  Claim.Kill ∧ Claim.TaskFailure ∧ Claim.CoreRemoval ∧ Claim.ClusterPartition

/-- Annulled words, the spill engine, fetch faults and event counters. -/
def Obligations.IssueEvents : Prop :=
  Claim.AnnulledPass ∧ Claim.WindowMoves ∧ Claim.FetchFaults ∧ Claim.CounterAdds ∧ Claim.CounterReads ∧ Claim.CounterWrites

/-- Scrubs, sealing, twins, other packages, links and self-tests. -/
def Obligations.Reliability : Prop :=
  Claim.ScrubResults ∧ Claim.Sealing ∧ Claim.TwinHashes ∧ Claim.RemoteRequests ∧ Claim.RemoteResponses ∧ Claim.LinkTimeouts ∧
  Claim.FlitReception ∧ Claim.SelfTests ∧ Claim.SelfTestResults ∧ Claim.RefreshPhases ∧ Claim.StoreModes

/-- Saves and restores of threads and cores. -/
def Obligations.SavesAndRestores : Prop :=
  Claim.ThreadRecords ∧ Claim.ThreadSave ∧ Claim.ThreadTaken ∧ Claim.ThreadRestore ∧ Claim.CoreSave ∧ Claim.CoreRestore

/-- Integrator, range and transfer instructions of a thread by itself complete, and events end in a next state. -/
def Obligations.Completions : Prop :=
  Claim.IntegratorCompletions ∧ Claim.RangeCompletions ∧ Claim.TransferCompletions ∧ Claim.EventsComplete ∧ Claim.MoreEventsComplete ∧
  Claim.OutsideEventsComplete ∧ Claim.DeviceEventsComplete

/-- Register writes from outside a program, resets, images and attestation. -/
def Obligations.BootAndRegisterWrites : Prop :=
  Claim.RegisterWrites ∧ Claim.NamedWrites ∧ Claim.PackageReset ∧ Claim.DieReset ∧ Claim.ImageChecks ∧ Claim.Attestation
end

