-- ==== Sys2Proof/Laws/Meaning.lean ====
section
/-! SUPPORT. How meanings compose: what goes through, what ends early, and what that makes of an instruction. -/

namespace Sys2Proof.Laws

open Sys2Proof.Machine Sys2Proof.Safety

theorem applyAll_append (xs ys : List Eff) (s : State) : applyAll (xs ++ ys) s = applyAll ys (applyAll xs s) := by
  induction xs generalizing s with
  | nil => rfl
  | cons x xs ih => exact ih _

variable {α β : Type} {m : M α} {f : α → M β} {s s1 s2 : State} {a : α} {b : β} {e : Stop}

theorem performs_pure (a : α) (s : State) : Performs (pure a : M α) s a s := ⟨[], rfl, fun _ => rfl⟩

theorem performs_bind (h : Performs m s a s1) (k : Performs (f a) s1 b s2) : Performs (m >>= f) s b s2 := by
  obtain ⟨es, rfl, h⟩ := h
  obtain ⟨fs, rfl, k⟩ := k
  refine ⟨es ++ fs, (applyAll_append ..).symm, fun before => ?_⟩
  show (m.run _ >>= fun p => (f p.1).run p.2) = _
  rw [h]
  show (f a).run _ = _
  rw [k]
  simp [List.append_assoc]

theorem performs_map {g : α → β} (h : Performs m s a s1) : Performs (g <$> m) s (g a) s1 :=
  performs_bind (f := fun a => pure (g a)) h (performs_pure _ _)

theorem performs_getS (s : State) : Performs getS s s s := ⟨[], rfl, fun _ => rfl⟩

theorem performs_emit (e : Eff) (s : State) : Performs (emit e) s () (e.apply s) := ⟨[e], rfl, fun _ => rfl⟩

theorem performs_emitAll (es : List Eff) (s : State) : Performs (emitAll es) s () (applyAll es s) := by
  induction es generalizing s with
  | nil => exact performs_pure _ _
  | cons e es ih => exact performs_bind (performs_emit e s) (ih _)

theorem performs_check {p : Bool} {c : Nat} {v : Word} (h : p = true) (s : State) : Performs (check p c v) s () s := by
  subst h; exact performs_pure _ _

theorem stops_stop (e : Stop) (s : State) : Stops (stop e : M α) s e := fun _ => rfl

theorem stops_check {p : Bool} {c : Nat} {v : Word} (h : p = false) (s : State) : Stops (check p c v) s (.trap c v []) := by
  subst h; exact stops_stop _ _

theorem stops_bind (h : Stops m s e) : Stops (m >>= f) s e := fun before => by
  show (m.run _ >>= fun p => (f p.1).run p.2) = _
  rw [h]; rfl

theorem stops_after (h : Performs m s a s1) (k : Stops (f a) s1 e) : Stops (m >>= f) s e := fun before => by
  obtain ⟨es, rfl, h⟩ := h
  show (m.run _ >>= fun p => (f p.1).run p.2) = _
  rw [h]; exact k _

/-- A meaning has at most one outcome. -/
theorem performs_unique {a' : α} {s1' : State} (h : Performs m s a s1) (k : Performs m s a' s1') : a = a' ∧ s1 = s1' := by
  obtain ⟨es, _, h⟩ := h
  obtain ⟨fs, _, k⟩ := k
  have := (h []).symm.trans (k [])
  injection this with this
  injection this with h1 h2
  injection h2 with h2 h3
  exact ⟨h1, h2⟩

theorem eval_of_performs (h : Performs m s a s1) : ∃ es, m.eval s = .ok (a, es) ∧ s1 = applyAll es s := by
  obtain ⟨es, h1, h⟩ := h
  refine ⟨es, ?_, h1⟩
  show (match m.run _ with | .ok (a, l) => _ | .error e => _) = _
  rw [h]; simp

theorem eval_of_stops (h : Stops m s e) : m.eval s = .error e := by
  show (match m.run _ with | .ok (a, l) => _ | .error e => _) = _
  rw [h]

/-- An event that goes through. -/
theorem event_next {m : M Unit} (h : Performs m s () s1) : event m s = .next s1 := by
  obtain ⟨es, he, rfl⟩ := eval_of_performs h
  simp [event, he]

/-- An instruction that goes through. -/
theorem finish_next {m : M Flow} {fl : Flow} (h : Performs m s fl s1) (k : Performs (settle fl) s1 () s2) : finish m s = .next s2 := by
  obtain ⟨es, he, rfl⟩ := eval_of_performs (performs_bind (f := settle) h k)
  simp [finish, he]

/-- An instruction that traps takes the trap, once no result of another package is still to come. -/
theorem finish_trap {m : M Flow} {c : Nat} {v : Word} {keep : List Eff} (h : Stops m s (.trap c v keep)) :
    finish m s = trapOr (do emitAll keep; takeTrap (tid s) c v (current s).faultPc) s := by
  have := eval_of_stops (stops_bind (f := settle) h)
  simp only [finish, this]; rfl

/-- An instruction that waits. -/
theorem finish_wait {m : M Flow} {c : Bool} {keep : List Eff} (h : Stops m s (.wait c keep)) : finish m s = event (enterWait c keep) s := by
  have := eval_of_stops (stops_bind (f := settle) h)
  simp only [finish, this]

end Sys2Proof.Laws
end

