-- ==== Sys2Proof/Laws/Instruction.lean ====
section
/-! SUPPORT. What the checks and the ending of an instruction do, said once (10 R188, 03 R39). -/

namespace Sys2Proof.Laws

open Sys2Proof.Machine Sys2Proof.Safety

theorem performs_me (s : State) : Performs me s (tid s) s := ⟨[], rfl, fun _ => rfl⟩
theorem performs_self (s : State) : Performs self s (current s) s := ⟨[], rfl, fun _ => rfl⟩
theorem performs_now (s : State) : Performs now s s.clock.now s := ⟨[], rfl, fun _ => rfl⟩
theorem performs_myCore (s : State) : Performs myCore s s.clock.core s := ⟨[], rfl, fun _ => rfl⟩
theorem performs_mySlot (s : State) : Performs mySlot s s.clock.slot s := ⟨[], rfl, fun _ => rfl⟩
theorem performs_getT (id : Nat) (s : State) : Performs (getT id) s (s.thread id) s := ⟨[], rfl, fun _ => rfl⟩
theorem performs_getC (k : Nat) (s : State) : Performs (getC k) s (s.coreOf k) s := ⟨[], rfl, fun _ => rfl⟩
theorem performs_control (s : State) : Performs control s (s.control (tid s)) s := ⟨[], rfl, fun _ => rfl⟩
theorem performs_controlT (s : State) : Performs controlT s (owner s) s := ⟨[], rfl, fun _ => rfl⟩

/-- The checks of a word that is admitted change nothing. -/
theorem performs_guardForm {f : Form} {s : State} (h : admits f s = true) : Performs (guardForm f) s () s := by
  simp only [admits, Bool.and_eq_true] at h
  obtain ⟨⟨⟨⟨⟨h1, h2⟩, h3⟩, h4⟩, h5⟩, h6⟩ := h
  unfold guardForm
  refine performs_bind (performs_myCore s) (performs_bind (performs_self s) ?_)
  refine performs_bind (performs_check (by simpa using h1) s) ?_
  refine performs_bind (performs_check (by simpa using h2) s) ?_
  refine performs_bind (performs_check (by simpa using h3) s) ?_
  refine performs_bind (performs_check (by simpa using h4) s) ?_
  refine performs_bind (performs_check (by simpa using h5) s) ?_
  exact performs_bind (performs_controlT s) (performs_check (by simpa using h6) s)


/-- The link words of a thread's instruction are given up one by one. -/
theorem performs_payLent (id : Nat) (ps : List (Nat × Word × Bool)) (s : State) :
    Performs (payLent id ps) s () ((Eff.thr id fun t => { t with lent := [] }).apply (ps.foldl (paidFor (id / 16)) s)) := by
  induction ps generalizing s with
  | nil => exact performs_emit _ s
  | cons p ps ih =>
    obtain ⟨i, w, fwd⟩ := p
    refine performs_bind (performs_emit _ s) ?_
    cases fwd with
    | true => exact performs_bind (performs_emit _ _) (ih _)
    | false => exact performs_bind (performs_pure _ _) (ih _)

theorem performs_pay (s : State) : Performs (pay (tid s)) s () (paid s) := by
  refine performs_bind (performs_getT _ s) ?_
  unfold paid current
  by_cases h : (s.thread (tid s)).lent.isEmpty = true
  · simp only [h, if_true]; exact performs_pure _ _
  · simp only [h]; exact performs_payLent _ _ _

@[simp] theorem tid_modThread (id : Nat) (f : Thread → Thread) (s : State) : tid (s.modThread id f) = tid s := by
  unfold State.modThread; split <;> rfl
@[simp] theorem tid_thr (id : Nat) (f : Thread → Thread) (s : State) : tid ((Eff.thr id f).apply s) = tid s := tid_modThread _ _ s
@[simp] theorem tid_pc (id : Nat) (a : BitVec 16) (s : State) : tid ((Eff.pc id a).apply s) = tid s := tid_modThread _ _ s

theorem tid_paidFor (k : Nat) (s : State) (p : Nat × Word × Bool) : tid (paidFor k s p) = tid s := by
  unfold paidFor; split <;> rfl

theorem tid_paid (s : State) : tid (paid s) = tid s := by
  have : ∀ (ps : List (Nat × Word × Bool)) (k : Nat) (u : State), tid (ps.foldl (paidFor k) u) = tid u := by
    intro ps k; induction ps with
    | nil => intro u; rfl
    | cons p ps ih => intro u; exact (ih _).trans (tid_paidFor k u p)
  unfold paid; split
  · rfl
  · rw [tid_thr]; exact this _ _ _

theorem performs_counted (u : Bool) (k : Nat) {s : State} (h : tid s / 16 = k) : Performs (count k 2 u) s () (counted u s) := by
  subst h; exact performs_emit _ s

/-- What ends a word: its issue, its next offset, its link words, its count. -/
theorem performs_goes (b : Bound) (a : BitVec 16) (s : State) :
    Performs (endWord (tid s) s.clock.now b a ((current s).level == .u)) s () (goes b a s) := by
  refine performs_bind (performs_emit _ s) (performs_bind (performs_emit _ _) ?_)
  have h := performs_pay ((Eff.pc (tid s) a).apply ((Eff.thr (tid s) (·.issued s.clock.now b)).apply s))
  rw [tid_pc, tid_thr] at h
  exact performs_bind h (performs_counted _ _ (by rw [tid_paid, tid_pc, tid_thr]))

theorem settle_next (s : State) : Performs (settle .next) s () (advance s) :=
  performs_bind (performs_me s) (performs_bind (performs_self s) (performs_bind (performs_now s) (performs_goes _ _ s)))
theorem settle_goto (a : BitVec 16) (s : State) : Performs (settle (.goto a)) s () (jump a s) :=
  performs_bind (performs_me s) (performs_bind (performs_self s) (performs_bind (performs_now s) (performs_goes _ _ s)))
theorem settle_binds (b : Bound) (s : State) : Performs (settle (.binds b)) s () (goes b ((current s).pc + 4#16) s) :=
  performs_bind (performs_me s) (performs_bind (performs_self s) (performs_bind (performs_now s) (performs_goes _ _ s)))
theorem settle_stay (s : State) : Performs (settle .stay) s () (stays s) := by
  refine performs_bind (performs_me s) (performs_bind (performs_self s) (performs_bind (performs_now s) (performs_bind (performs_emit _ s) ?_)))
  have h := performs_pay ((Eff.thr (tid s) (·.issued s.clock.now (current s).bound)).apply s)
  rw [tid_thr] at h
  unfold stays
  split
  · exact performs_bind (performs_pure _ _) (performs_counted _ _ (by rw [tid_thr]))
  · exact performs_bind h (performs_counted _ _ (by rw [tid_paid, tid_thr]))
theorem settle_park (s : State) : Performs (settle .park) s () s := ⟨[], rfl, fun _ => rfl⟩

variable {f : Form} {body : M Flow} {s s1 : State}

/-- An admitted instruction whose own meaning goes through and goes on at the next word. -/
theorem instr_next (h : admits f s = true) (b : Performs body s .next s1) : instr f body s = .next (advance s1) :=
  finish_next (performs_bind (performs_guardForm h) b) (settle_next s1)

theorem instr_goto {a : BitVec 16} (h : admits f s = true) (b : Performs body s (.goto a) s1) : instr f body s = .next (jump a s1) :=
  finish_next (performs_bind (performs_guardForm h) b) (settle_goto a s1)

theorem instr_stay (h : admits f s = true) (b : Performs body s .stay s1) : instr f body s = .next (stays s1) :=
  finish_next (performs_bind (performs_guardForm h) b) (settle_stay s1)

theorem instr_binds {n : Bound} (h : admits f s = true) (b : Performs body s (.binds n) s1) :
    instr f body s = .next (goes n ((current s1).pc + 4#16) s1) :=
  finish_next (performs_bind (performs_guardForm h) b) (settle_binds n s1)

theorem instr_park (h : admits f s = true) (b : Performs body s .park s1) : instr f body s = .next s1 :=
  finish_next (performs_bind (performs_guardForm h) b) (settle_park s1)

/-- An admitted instruction whose own meaning traps takes the trap at its own address. -/
theorem instr_trap {c : Nat} {v : Word} {keep : List Eff} (h : admits f s = true) (b : Stops body s (.trap c v keep)) :
    instr f body s = trapOr (do emitAll keep; takeTrap (tid s) c v (current s).faultPc) s :=
  finish_trap (stops_after (performs_guardForm h) b)

theorem instr_wait {c : Bool} {keep : List Eff} (h : admits f s = true) (b : Stops body s (.wait c keep)) :
    instr f body s = event (enterWait c keep) s :=
  finish_wait (stops_after (performs_guardForm h) b)

/-- A word whose checks fail takes the trap of the first that fails. -/
theorem instr_guard {c : Nat} {v : Word} (g : Stops (guardForm f) s (.trap c v [])) :
    instr f body s = trapOr (takeTrap (tid s) c v (current s).faultPc) s := by
  have := finish_trap (stops_bind (f := fun _ => body) g)
  exact this

end Sys2Proof.Laws
end

