-- ==== Sys2Proof/Laws/Memory.lean ====
section
/-! SUPPORT. The laws of memory (canonical form; reads after writes) and of the finite maps. -/

namespace Sys2Proof.Laws

open Sys2Proof.Machine

/-! ## The canonical form -/

/-- Every key of the memory lies above a bound. -/
def Above (x : Nat) (m : Memory) : Prop := ∀ c ∈ m, x < c.1

/-- The canonical form, entry by entry: a listed byte is not blank, and the rest lies above it and has the form. -/
theorem wf_cons {x : Nat} {b : Byte} {m : Memory} :
    Memory.wf ((x, b) :: m) = true ↔ b ≠ Memory.blank ∧ Above x m ∧ Memory.wf m = true := by
  induction m generalizing x b with
  | nil => simp [Memory.wf, Above]
  | cons p m ih =>
    obtain ⟨y, c⟩ := p
    have := ih (x := y) (b := c)
    simp only [Memory.wf, Bool.and_eq_true, bne_iff_ne, decide_eq_true_eq, Above, List.mem_cons, forall_eq_or_imp] at *
    constructor
    · rintro ⟨⟨hb, hxy⟩, hm⟩
      exact ⟨hb, ⟨hxy, fun d hd => Nat.lt_trans hxy ((this.mp hm).2.1 d hd)⟩, hm⟩
    · rintro ⟨hb, ⟨hxy, -⟩, hm⟩
      exact ⟨⟨hb, hxy⟩, hm⟩

theorem above_write {x a : Nat} {b : Byte} {m : Memory} (h : Above x m) (ha : x < a) : Above x (Memory.write m a b) := by
  induction m with
  | nil =>
    unfold Memory.write
    split
    · exact h
    · simp [Above, ha]
  | cons p m ih =>
    obtain ⟨y, c⟩ := p
    have hy : x < y := h _ (List.mem_cons_self ..)
    have hm : Above x m := fun d hd => h d (List.mem_cons_of_mem _ hd)
    unfold Memory.write
    split
    · split
      · exact hm
      · exact fun d hd => (List.mem_cons.mp hd).elim (fun e => e ▸ ha) (hm d)
    · split
      · split
        · exact h
        · exact fun d hd => (List.mem_cons.mp hd).elim (fun e => e ▸ ha) (h d)
      · exact fun d hd => (List.mem_cons.mp hd).elim (fun e => e ▸ hy) (ih hm d)

/-- A write of one byte keeps the canonical form. -/
theorem wf_write {m : Memory} (h : Memory.wf m = true) (a : Nat) (b : Byte) : Memory.wf (Memory.write m a b) = true := by
  induction m with
  | nil =>
    unfold Memory.write
    split
    · rfl
    · simpa [Memory.wf] using ‹b ≠ Memory.blank›
  | cons p m ih =>
    obtain ⟨y, c⟩ := p
    obtain ⟨hc, hy, hm⟩ := wf_cons.mp h
    unfold Memory.write
    split
    · subst_vars
      split
      · exact hm
      · exact wf_cons.mpr ⟨‹_›, hy, hm⟩
    · split
      · split
        · exact h
        · refine wf_cons.mpr ⟨‹_›, fun d hd => ?_, h⟩
          rcases List.mem_cons.mp hd with rfl | hd
          · assumption
          · exact Nat.lt_trans ‹a < y› (hy d hd)
      · exact wf_cons.mpr ⟨hc, above_write hy (by omega), ih hm⟩

/-- A write of several bytes keeps the canonical form. -/
theorem wf_writeList {m : Memory} (h : Memory.wf m = true) (a : Nat) (bs : List Byte) :
    Memory.wf (Memory.writeList m a bs) = true := by
  induction bs generalizing m a with
  | nil => exact h
  | cons b bs ih => exact ih (wf_write h a b) (a + 1)

theorem wf_filter {m : Memory} (h : Memory.wf m = true) (p : Host.Cell → Bool) : Memory.wf (m.filter p) = true := by
  induction m with
  | nil => rfl
  | cons q m ih =>
    obtain ⟨y, c⟩ := q
    obtain ⟨hc, hy, hm⟩ := wf_cons.mp h
    rw [List.filter_cons]
    split
    · exact wf_cons.mpr ⟨hc, fun d hd => hy d ((List.mem_filter.mp hd).1), ih hm⟩
    · exact ih hm

/-- Forgetting a range of bytes keeps the canonical form. -/
theorem wf_wipe {m : Memory} (h : Memory.wf m = true) (a n : Nat) : Memory.wf (Memory.wipe m a n) = true := wf_filter h _

/-! ## Reads after writes -/

theorem read_of_above {x a : Nat} {m : Memory} (h : Above x m) (ha : a ≤ x) : Memory.read m a = Memory.blank := by
  induction m with
  | nil => rfl
  | cons p m ih =>
    obtain ⟨y, c⟩ := p
    have hy : x < y := h _ (List.mem_cons_self ..)
    unfold Memory.read
    rw [if_neg (by omega)]
    exact ih fun d hd => h d (List.mem_cons_of_mem _ hd)

/-- A read after a write gives the byte written at its place, and what it gave before at every other. -/
theorem read_write {m : Memory} (h : Memory.wf m = true) (a c : Nat) (b : Byte) :
    Memory.read (Memory.write m a b) c = if c = a then b else Memory.read m c := by
  induction m with
  | nil =>
    unfold Memory.write
    by_cases hb : b = Memory.blank
    · simp [hb, Memory.read]
    · simp only [if_neg hb, Memory.read]
      split <;> split <;> simp_all
  | cons p m ih =>
    obtain ⟨y, d⟩ := p
    obtain ⟨_, hy, hm⟩ := wf_cons.mp h
    have low : ∀ e, e ≤ y → Memory.read m e = Memory.blank := fun e he => read_of_above hy he
    unfold Memory.write
    by_cases hay : a = y
    · subst hay
      rw [if_pos rfl]
      by_cases hb : b = Memory.blank
      · rw [if_pos hb]
        by_cases hc : c = a
        · rw [if_pos hc, hc, low a (Nat.le_refl _), hb]
        · rw [if_neg hc, Memory.read, if_neg fun e => hc e.symm]
      · rw [if_neg hb, Memory.read, Memory.read]
        by_cases hc : c = a
        · rw [if_pos hc.symm, if_pos hc]
        · rw [if_neg fun e => hc e.symm, if_neg hc, if_neg fun e => hc e.symm]
    · rw [if_neg hay]
      by_cases hlt : a < y
      · rw [if_pos hlt]
        by_cases hb : b = Memory.blank
        · rw [if_pos hb]
          by_cases hc : c = a
          · rw [if_pos hc, hc, Memory.read, if_neg fun e => hay e.symm, low a (Nat.le_of_lt hlt), hb]
          · rw [if_neg hc]
        · rw [if_neg hb, Memory.read]
          by_cases hc : c = a
          · rw [if_pos hc.symm, if_pos hc]
          · rw [if_neg fun e => hc e.symm, if_neg hc]
      · rw [if_neg hlt, Memory.read, Memory.read]
        by_cases hc : y = c
        · rw [if_pos hc, if_pos hc, if_neg (by omega)]
        · rw [if_neg hc, if_neg hc, ih hm]

/-- A byte outside the bytes written reads as before. -/
theorem read_writeList_outside {m : Memory} (h : Memory.wf m = true) {a c : Nat} {bs : List Byte} (hc : c < a ∨ a + bs.length ≤ c) :
    Memory.read (Memory.writeList m a bs) c = Memory.read m c := by
  induction bs generalizing m a with
  | nil => rfl
  | cons b bs ih =>
    simp only [List.length_cons] at hc
    show Memory.read (Memory.writeList (Memory.write m a b) (a + 1) bs) c = _
    rw [ih (wf_write h a b) (by omega), read_write h, if_neg (by omega)]

/-- Bytes written and read back at once. -/
theorem readList_writeList {m : Memory} (h : Memory.wf m = true) (a : Nat) (bs : List Byte) :
    Memory.readList (Memory.writeList m a bs) a bs.length = bs := by
  induction bs generalizing m a with
  | nil => rfl
  | cons b bs ih =>
    show Memory.read (Memory.writeList (Memory.write m a b) (a + 1) bs) a :: _ = _
    rw [read_writeList_outside (wf_write h a b) (by omega), read_write h, if_pos rfl]
    exact congrArg (b :: ·) (ih (wf_write h a b) (a + 1))

/-! ## Finite maps -/

/-- A key read after a value is put. -/
theorem get?_set {α : Type} (m : FMap α) (i j : Nat) (x : α) :
    FMap.get? (FMap.set m i x) j = if j = i then some x else FMap.get? m j := by
  induction m with
  | nil => simp [FMap.set, FMap.get?]
  | cons p m ih =>
    obtain ⟨k, v⟩ := p
    unfold FMap.set
    by_cases hik : i = k
    · subst hik
      simp only [if_true, FMap.get?]
      split <;> rfl
    · rw [if_neg hik]
      by_cases hlt : i < k
      · simp only [if_pos hlt, FMap.get?]
      · simp only [if_neg hlt, FMap.get?]
        by_cases hjk : j = k
        · rw [if_pos hjk, if_pos hjk, if_neg (by omega)]
        · rw [if_neg hjk, if_neg hjk, ih]

/-- A key read after another is taken out, and after it is taken out itself. -/
theorem get?_erase {α : Type} (m : FMap α) (i j : Nat) :
    FMap.get? (FMap.erase m i) j = if j = i then none else FMap.get? m j := by
  unfold FMap.erase
  induction m with
  | nil => simp [FMap.get?]
  | cons p m ih =>
    obtain ⟨k, v⟩ := p
    rw [List.filter_cons]
    by_cases hki : k = i
    · subst hki
      simp only [bne_self_eq_false, FMap.get?]
      split <;> simp_all
    · have : (k != i) = true := by simpa using hki
      simp only [this, if_true, FMap.get?, ih]
      split <;> split <;> simp_all

end Sys2Proof.Laws
end

