-- ==== Sys2Proof/Laws/State.lean ====
section
/-! SUPPORT. What each effect changes, one lemma per field per effect, and the shared questions of a meaning. -/

namespace Sys2Proof.Laws

open Sys2Proof.Machine Sys2Proof.Safety

/-! ## Fields an effect leaves alone -/

@[simp] theorem mem_clock (key : Nat) (bs : List Byte) (s : State) : (Eff.apply (.mem key bs) s).clock = s.clock := rfl
@[simp] theorem mem_threads (key : Nat) (bs : List Byte) (s : State) : (Eff.apply (.mem key bs) s).threads = s.threads := rfl
@[simp] theorem mem_cores (key : Nat) (bs : List Byte) (s : State) : (Eff.apply (.mem key bs) s).cores = s.cores := rfl
@[simp] theorem mem_dies (key : Nat) (bs : List Byte) (s : State) : (Eff.apply (.mem key bs) s).dies = s.dies := rfl
@[simp] theorem mem_empties (key : Nat) (bs : List Byte) (s : State) : (Eff.apply (.mem key bs) s).empties = s.empties := rfl
@[simp] theorem mem_poisons (key : Nat) (bs : List Byte) (s : State) : (Eff.apply (.mem key bs) s).poisons = s.poisons := rfl
@[simp] theorem mem_pkg (key : Nat) (bs : List Byte) (s : State) : (Eff.apply (.mem key bs) s).pkg = s.pkg := rfl

@[simp] theorem wipe_clock (key n : Nat) (s : State) : (Eff.apply (.wipe key n) s).clock = s.clock := rfl
@[simp] theorem wipe_threads (key n : Nat) (s : State) : (Eff.apply (.wipe key n) s).threads = s.threads := rfl
@[simp] theorem wipe_cores (key n : Nat) (s : State) : (Eff.apply (.wipe key n) s).cores = s.cores := rfl
@[simp] theorem wipe_dies (key n : Nat) (s : State) : (Eff.apply (.wipe key n) s).dies = s.dies := rfl
@[simp] theorem wipe_pkg (key n : Nat) (s : State) : (Eff.apply (.wipe key n) s).pkg = s.pkg := rfl

@[simp] theorem tag_clock (key : Nat) (on : Bool) (s : State) : (Eff.apply (.tag key on) s).clock = s.clock := rfl
@[simp] theorem tag_threads (key : Nat) (on : Bool) (s : State) : (Eff.apply (.tag key on) s).threads = s.threads := rfl
@[simp] theorem tag_cores (key : Nat) (on : Bool) (s : State) : (Eff.apply (.tag key on) s).cores = s.cores := rfl
@[simp] theorem tag_dies (key : Nat) (on : Bool) (s : State) : (Eff.apply (.tag key on) s).dies = s.dies := rfl
@[simp] theorem tag_mem (key : Nat) (on : Bool) (s : State) : (Eff.apply (.tag key on) s).mem = s.mem := rfl
@[simp] theorem tag_poisons (key : Nat) (on : Bool) (s : State) : (Eff.apply (.tag key on) s).poisons = s.poisons := rfl
@[simp] theorem tag_pkg (key : Nat) (on : Bool) (s : State) : (Eff.apply (.tag key on) s).pkg = s.pkg := rfl

@[simp] theorem poison_clock (key : Nat) (on : Bool) (s : State) : (Eff.apply (.poison key on) s).clock = s.clock := rfl
@[simp] theorem poison_threads (key : Nat) (on : Bool) (s : State) : (Eff.apply (.poison key on) s).threads = s.threads := rfl
@[simp] theorem poison_cores (key : Nat) (on : Bool) (s : State) : (Eff.apply (.poison key on) s).cores = s.cores := rfl
@[simp] theorem poison_dies (key : Nat) (on : Bool) (s : State) : (Eff.apply (.poison key on) s).dies = s.dies := rfl
@[simp] theorem poison_mem (key : Nat) (on : Bool) (s : State) : (Eff.apply (.poison key on) s).mem = s.mem := rfl
@[simp] theorem poison_empties (key : Nat) (on : Bool) (s : State) : (Eff.apply (.poison key on) s).empties = s.empties := rfl
@[simp] theorem poison_pkg (key : Nat) (on : Bool) (s : State) : (Eff.apply (.poison key on) s).pkg = s.pkg := rfl

@[simp] theorem core_clock (k : Nat) (f : Core → Core) (s : State) : (Eff.apply (.core k f) s).clock = s.clock := rfl
@[simp] theorem core_threads (k : Nat) (f : Core → Core) (s : State) : (Eff.apply (.core k f) s).threads = s.threads := rfl
@[simp] theorem core_dies (k : Nat) (f : Core → Core) (s : State) : (Eff.apply (.core k f) s).dies = s.dies := rfl
@[simp] theorem core_mem (k : Nat) (f : Core → Core) (s : State) : (Eff.apply (.core k f) s).mem = s.mem := rfl
@[simp] theorem core_empties (k : Nat) (f : Core → Core) (s : State) : (Eff.apply (.core k f) s).empties = s.empties := rfl
@[simp] theorem core_poisons (k : Nat) (f : Core → Core) (s : State) : (Eff.apply (.core k f) s).poisons = s.poisons := rfl
@[simp] theorem core_pkg (k : Nat) (f : Core → Core) (s : State) : (Eff.apply (.core k f) s).pkg = s.pkg := rfl

@[simp] theorem die_clock (d : Nat) (f : Die → Die) (s : State) : (Eff.apply (.die d f) s).clock = s.clock := rfl
@[simp] theorem die_threads (d : Nat) (f : Die → Die) (s : State) : (Eff.apply (.die d f) s).threads = s.threads := rfl
@[simp] theorem die_cores (d : Nat) (f : Die → Die) (s : State) : (Eff.apply (.die d f) s).cores = s.cores := rfl
@[simp] theorem die_mem (d : Nat) (f : Die → Die) (s : State) : (Eff.apply (.die d f) s).mem = s.mem := rfl
@[simp] theorem die_empties (d : Nat) (f : Die → Die) (s : State) : (Eff.apply (.die d f) s).empties = s.empties := rfl
@[simp] theorem die_poisons (d : Nat) (f : Die → Die) (s : State) : (Eff.apply (.die d f) s).poisons = s.poisons := rfl
@[simp] theorem die_pkg (d : Nat) (f : Die → Die) (s : State) : (Eff.apply (.die d f) s).pkg = s.pkg := rfl

@[simp] theorem clock_threads (f : Clock → Clock) (s : State) : (Eff.apply (.clock f) s).threads = s.threads := rfl
@[simp] theorem clock_cores (f : Clock → Clock) (s : State) : (Eff.apply (.clock f) s).cores = s.cores := rfl
@[simp] theorem clock_dies (f : Clock → Clock) (s : State) : (Eff.apply (.clock f) s).dies = s.dies := rfl
@[simp] theorem clock_mem (f : Clock → Clock) (s : State) : (Eff.apply (.clock f) s).mem = s.mem := rfl
@[simp] theorem clock_empties (f : Clock → Clock) (s : State) : (Eff.apply (.clock f) s).empties = s.empties := rfl
@[simp] theorem clock_poisons (f : Clock → Clock) (s : State) : (Eff.apply (.clock f) s).poisons = s.poisons := rfl
@[simp] theorem clock_pkg (f : Clock → Clock) (s : State) : (Eff.apply (.clock f) s).pkg = s.pkg := rfl

@[simp] theorem pkg_clock (f : Pkg → Pkg) (s : State) : (Eff.apply (.pkg f) s).clock = s.clock := rfl
@[simp] theorem pkg_threads (f : Pkg → Pkg) (s : State) : (Eff.apply (.pkg f) s).threads = s.threads := rfl
@[simp] theorem pkg_cores (f : Pkg → Pkg) (s : State) : (Eff.apply (.pkg f) s).cores = s.cores := rfl
@[simp] theorem pkg_dies (f : Pkg → Pkg) (s : State) : (Eff.apply (.pkg f) s).dies = s.dies := rfl
@[simp] theorem pkg_mem (f : Pkg → Pkg) (s : State) : (Eff.apply (.pkg f) s).mem = s.mem := rfl
@[simp] theorem pkg_empties (f : Pkg → Pkg) (s : State) : (Eff.apply (.pkg f) s).empties = s.empties := rfl
@[simp] theorem pkg_poisons (f : Pkg → Pkg) (s : State) : (Eff.apply (.pkg f) s).poisons = s.poisons := rfl

@[simp] theorem place_clock (id : Nat) (t : Thread) (s : State) : (Eff.apply (.place id t) s).clock = s.clock := rfl
@[simp] theorem place_cores (id : Nat) (t : Thread) (s : State) : (Eff.apply (.place id t) s).cores = s.cores := rfl
@[simp] theorem place_dies (id : Nat) (t : Thread) (s : State) : (Eff.apply (.place id t) s).dies = s.dies := rfl
@[simp] theorem place_mem (id : Nat) (t : Thread) (s : State) : (Eff.apply (.place id t) s).mem = s.mem := rfl
@[simp] theorem place_empties (id : Nat) (t : Thread) (s : State) : (Eff.apply (.place id t) s).empties = s.empties := rfl
@[simp] theorem place_poisons (id : Nat) (t : Thread) (s : State) : (Eff.apply (.place id t) s).poisons = s.poisons := rfl
@[simp] theorem place_pkg (id : Nat) (t : Thread) (s : State) : (Eff.apply (.place id t) s).pkg = s.pkg := rfl

@[simp] theorem clear_clock (id : Nat) (s : State) : (Eff.apply (.clear id) s).clock = s.clock := rfl
@[simp] theorem clear_cores (id : Nat) (s : State) : (Eff.apply (.clear id) s).cores = s.cores := rfl
@[simp] theorem clear_dies (id : Nat) (s : State) : (Eff.apply (.clear id) s).dies = s.dies := rfl
@[simp] theorem clear_mem (id : Nat) (s : State) : (Eff.apply (.clear id) s).mem = s.mem := rfl
@[simp] theorem clear_empties (id : Nat) (s : State) : (Eff.apply (.clear id) s).empties = s.empties := rfl
@[simp] theorem clear_poisons (id : Nat) (s : State) : (Eff.apply (.clear id) s).poisons = s.poisons := rfl
@[simp] theorem clear_pkg (id : Nat) (s : State) : (Eff.apply (.clear id) s).pkg = s.pkg := rfl

/-! ## Fields it changes -/

@[simp] theorem mem_mem (key : Nat) (bs : List Byte) (s : State) : (Eff.apply (.mem key bs) s).mem = Memory.writeList s.mem key bs := rfl
@[simp] theorem wipe_mem (key n : Nat) (s : State) : (Eff.apply (.wipe key n) s).mem = Memory.wipe s.mem key n := rfl
@[simp] theorem tag_empties (key : Nat) (on : Bool) (s : State) : (Eff.apply (.tag key on) s).empties = NSet.put s.empties key (!on) := rfl
@[simp] theorem poison_poisons (key : Nat) (on : Bool) (s : State) : (Eff.apply (.poison key on) s).poisons = NSet.put s.poisons key on := rfl
@[simp] theorem core_cores (k : Nat) (f : Core → Core) (s : State) : (Eff.apply (.core k f) s).cores = FMap.set s.cores k (f (s.coreOf k)) := rfl
@[simp] theorem die_dies (d : Nat) (f : Die → Die) (s : State) : (Eff.apply (.die d f) s).dies = FMap.set s.dies d (f (s.dieOf d)) := rfl
@[simp] theorem clock_clock (f : Clock → Clock) (s : State) : (Eff.apply (.clock f) s).clock = f s.clock := rfl
@[simp] theorem pkg_pkg (f : Pkg → Pkg) (s : State) : (Eff.apply (.pkg f) s).pkg = f s.pkg := rfl
@[simp] theorem clear_threads (id : Nat) (s : State) : (Eff.apply (.clear id) s).threads = FMap.erase s.threads id := rfl

/-! ## A change of one thread -/

@[simp] theorem modThread_clock (id : Nat) (f : Thread → Thread) (s : State) : (s.modThread id f).clock = s.clock := by
  unfold State.modThread; split <;> rfl
@[simp] theorem modThread_cores (id : Nat) (f : Thread → Thread) (s : State) : (s.modThread id f).cores = s.cores := by
  unfold State.modThread; split <;> rfl
@[simp] theorem modThread_dies (id : Nat) (f : Thread → Thread) (s : State) : (s.modThread id f).dies = s.dies := by
  unfold State.modThread; split <;> rfl
@[simp] theorem modThread_mem (id : Nat) (f : Thread → Thread) (s : State) : (s.modThread id f).mem = s.mem := by
  unfold State.modThread; split <;> rfl
@[simp] theorem modThread_empties (id : Nat) (f : Thread → Thread) (s : State) : (s.modThread id f).empties = s.empties := by
  unfold State.modThread; split <;> rfl
@[simp] theorem modThread_poisons (id : Nat) (f : Thread → Thread) (s : State) : (s.modThread id f).poisons = s.poisons := by
  unfold State.modThread; split <;> rfl
@[simp] theorem modThread_pkg (id : Nat) (f : Thread → Thread) (s : State) : (s.modThread id f).pkg = s.pkg := by
  unfold State.modThread; split <;> rfl

/-- The thread of an occupied slot after a change of it. -/
theorem modThread_some {s : State} {id : Nat} {t : Thread} (f : Thread → Thread) (h : FMap.get? s.threads id = some t) :
    s.modThread id f = { s with threads := FMap.set s.threads id (f t) } := by
  unfold State.modThread; rw [h]

/-- A change of an empty slot's thread changes nothing. -/
theorem modThread_none {s : State} {id : Nat} (f : Thread → Thread) (h : FMap.get? s.threads id = none) : s.modThread id f = s := by
  unfold State.modThread; rw [h]

/-- Memory keeps its canonical form under every effect. -/
theorem wf_apply (e : Eff) {s : State} (h : Memory.wf s.mem = true) : Memory.wf (e.apply s).mem = true := by
  cases e with
  | mem key bs => exact wf_writeList h key bs
  | wipe key n => exact wf_wipe h key n
  | reg | pw | pc | thr => simpa [Eff.apply] using h
  | _ => exact h

theorem wf_applyAll (es : List Eff) {s : State} (h : Memory.wf s.mem = true) : Memory.wf (applyAll es s).mem = true := by
  induction es generalizing s with
  | nil => exact h
  | cons e es ih => exact ih (wf_apply e h)

/-- Reset memory has the canonical form. -/
theorem wf_reset : Memory.wf State.reset.mem = true := rfl

/-! ## Questions every family asks -/

/-- The loop and iteration of the issuing thread (04 R66). -/
theorem performs_ringOf (s : State) : Performs (ringOf (tid s)) s (loopNow s) s := by
  unfold ringOf
  exact performs_bind (performs_getS s) (performs_pure _ _)

/-- A thread that is in the oldest iteration, or in none, does not wait for it (04 R72). -/
theorem performs_waitOldest {s : State} (h : oldestOrOutside s) : Performs waitOldest s () s := by
  unfold waitOldest
  refine performs_bind (m := me) ⟨[], rfl, fun _ => rfl⟩ (performs_bind (performs_ringOf s) ?_)
  cases hl : loopNow s with
  | none => exact performs_pure _ _
  | some p =>
    obtain ⟨it, r⟩ := p
    simp only [h it r hl, if_true]; exact performs_pure _ _

end Sys2Proof.Laws
end

