-- ==== Sys2Proof/Tests/Slice0.lean ====
section
/-! SUPPORT. Tests: ill-formed terms that the checks refuse, words of every instruction and what they decode to, worked results of the spec, and
for every clause of a statement that has hypotheses a state and operands that meet all of them. -/

namespace Sys2Proof.Tests

set_option linter.unusedVariables false
set_option linter.unusedSimpArgs false
set_option maxRecDepth 4000
set_option Elab.async false

open Sys2Proof Sys2Proof.Machine Sys2Proof.Safety

/-! ## Well-formed terms: each check refuses its ill-formed term (10 R179, 12 R213, 01 R8 to R12) -/

theorem test_load_size_7_is_ill_formed : (Instr.ld 8 9 0 7).wellFormed = false := by decide
theorem test_ordered_load_size_7_is_ill_formed : (Instr.ldOrd 8 9 0 7).wellFormed = false := by decide
theorem test_core_4480_is_ill_formed : (Instr.glbUpdate 4480).wellFormed = false ∧ (Instr.glbUpdate 4479).wellFormed = true := by decide
theorem test_slot_16_is_ill_formed : (Instr.graftResend 0 16).wellFormed = false ∧ (Instr.graftResend 0 15).wellFormed = true := by decide
theorem test_die_8_is_ill_formed : (Instr.refreshPhase 8).wellFormed = false ∧ (Instr.refreshPhase 7).wellFormed = true := by decide
theorem test_cluster_28_is_ill_formed : (Instr.clpartWrite 0 28 0).wellFormed = false ∧ (Instr.clpartWrite 0 27 0).wellFormed = true := by decide
theorem test_port_32_is_ill_formed : (Instr.linkRetrain 32).wellFormed = false ∧ (Instr.linkRetrain 31).wellFormed = true := by decide
theorem test_lane_8_is_ill_formed : (Instr.laneMarginDwell 0 8).wellFormed = false ∧ (Instr.laneMarginDwell 0 7).wellFormed = true := by decide
theorem test_domain_4_is_ill_formed : (Instr.domainStep 0 4).wellFormed = false ∧ (Instr.domainStep 0 3).wellFormed = true := by decide
theorem test_inbox_4_is_ill_formed : (Instr.ibdWrite 0 4 true 0).wellFormed = false ∧ (Instr.ibdWrite 0 3 true 0).wellFormed = true := by decide
theorem test_channel_256_is_ill_formed : (Instr.messageRelease 0 256).wellFormed = false ∧ (Instr.messageRelease 0 255).wellFormed = true := by decide
theorem test_output_port_8_is_ill_formed : (Instr.integratorRecordTake 0 8).wellFormed = false ∧ (Instr.integratorRecordTake 0 7).wellFormed = true := by decide
theorem test_group_128_is_ill_formed : (Instr.publFlip 0 128).wellFormed = false ∧ (Instr.publFlip 0 127).wellFormed = true := by decide

/-! ## Words, written from the formats of 10 R179 and the function codes of 10 R186, one of every instruction -/

/-- Reserved words: majors 0x00 and 0x3C to 0x3E, an unassigned function code, a bit set where 0 must stand (10 R186, R188). -/
theorem test_reserved_words :
    decode 0x00000000 = .error (.reservedMajor 0) ∧ decode 0xF4000000 = .error (.reservedMajor 61) ∧
    decode 0x74000005 = .error (.unassigned 29) ∧ decode 0x7400000A = .error (.unassigned 29) ∧ decodeBytes [0, 0, 0] = .error .short := by
  and_intros <;> rfl

theorem test_decode_integer_and_control_1 :
    decode 0x04409150#32 = .ok (.add 8 9 10 true false) ∧ decode 0x0448A429#32 = .ok (.sub 9 10 33 false true) ∧
    decode 0x04521D12#32 = .ok (.addc 10 33 104 true false) ∧ decode 0x050E810B#32 = .ok (.subb 33 104 8 false true) ∧
    decode 0x07408134#32 = .ok (.and 104 8 9 true false) ∧ decode 0x0440914D#32 = .ok (.or 8 9 10 false true) ∧
    decode 0x0448A436#32 = .ok (.xor 9 10 33 true false) ∧ decode 0x04521D0F#32 = .ok (.andn 10 33 104 false true) ∧
    decode 0x090E8110#32 = .ok (.sll 33 104 8 true false) ∧ decode 0x0B408129#32 = .ok (.srl 104 8 9 false true) ∧
    decode 0x08409152#32 = .ok (.sra 8 9 10 true false) ∧ decode 0x0848A42B#32 = .ok (.rol 9 10 33 false true) ∧
    decode 0x08521D14#32 = .ok (.ror 10 33 104 true false) ∧ decode 0x0D0E8108#32 = .ok (.mul 33 104 8 false true) ∧
    decode 0x0F408131#32 = .ok (.mulh 104 8 9 true false) ∧ decode 0x0C40914A#32 = .ok (.mulhu 8 9 10 false true) ∧
    decode 0x0C48A433#32 = .ok (.mulhsu 9 10 33 true false) ∧ decode 0x0C521D0C#32 = .ok (.div 10 33 104 false true) ∧
    decode 0x0D0E8115#32 = .ok (.divu 33 104 8 true false) ∧ decode 0x0F40812E#32 = .ok (.rem 104 8 9 false true) ∧
    decode 0x0C409157#32 = .ok (.remu 8 9 10 true false) ∧ decode 0x1048A428#32 = .ok (.min 9 10 33 false true) ∧
    decode 0x10521D11#32 = .ok (.max 10 33 104 true false) ∧ decode 0x110E810A#32 = .ok (.minu 33 104 8 false true) ∧
    decode 0x13408133#32 = .ok (.maxu 104 8 9 true false) ∧ decode 0x10409014#32 = .ok (.clz 8 9 true) ∧
    decode 0x1048A005#32 = .ok (.ctz 9 10 false) ∧ decode 0x10521016#32 = .ok (.popc 10 33 true) ∧
    decode 0x150E8110#32 = .ok (.exts 33 104 8 true false) ∧ decode 0x17408129#32 = .ok (.extz 104 8 9 false true) ∧
    decode 0x14409002#32 = .ok (.bswap 8 9 false) ∧ decode 0x1448A42B#32 = .ok (.cmov 9 10 33 false true) ∧
    decode 0x14521D14#32 = .ok (.pwset 10 33 104 true false) ∧ decode 0x190E80AD#32 = .ok (.addi 33 104 173) ∧
    decode 0x1F4080B2#32 = .ok (.andi 104 8 178) ∧ decode 0x204090B7#32 = .ok (.ori 8 9 183) ∧ decode 0x2448A0BC#32 = .ok (.xori 9 10 188) ∧
    decode 0x28521001#32 = .ok (.slli 10 33 1) ∧ decode 0x290E8046#32 = .ok (.srli 33 104 6) ∧ decode 0x2B40808B#32 = .ok (.srai 104 8 11) := by
  and_intros <;> rfl

theorem test_decode_integer_and_control_2 :
    decode 0x284090D0#32 = .ok (.rori 8 9 16) ∧ decode 0x2C48A0D5#32 = .ok (.muli 9 10 213) ∧ decode 0x305000D7#32 = .ok (.ldi 10 215) ∧
    decode 0x350800DC#32 = .ok (.ldih 33 220) ∧ decode 0x3B4084EA#32 = .ok (.sk 104 8 4 3 10 true false) ∧
    decode 0x3C407349#32 = .ok (.ski 8 230 9 0 true) ∧ decode 0x400000E8#32 = .ok (.br 232) ∧ decode 0x440000ED#32 = .ok (.call 237) ∧
    decode 0x48A000F8#32 = .ok (.brp false 5 248) ∧ decode 0x4F408010#32 = .ok (.jr 104 8 true) ∧ decode 0x4C000001#32 = .ok (.ret) ∧
    decode 0xFC000000#32 = .ok (.nop) ∧ decode 0xFCC001DB#32 = .ok (.sched 475) := by
  and_intros <;> rfl

theorem test_decode_threads_loops_and_messages :
    decode 0x50C2110A#32 = .ok (.loop 1 4 33 266) ∧ decode 0x54521866#32 = .ok (.ldOrd 10 33 268 6) ∧
    decode 0x74021D08#32 = .ok (.spawn 33 104 false true) ∧ decode 0x74068001#32 = .ok (.graft 104 false) ∧ decode 0x74000002#32 = .ok (.yield) ∧
    decode 0x74000003#32 = .ok (.done) ∧ decode 0x74521D14#32 = .ok (.wfld 10 33 104 true false) ∧
    decode 0x790E8108#32 = .ok (.send 33 104 8 false true) ∧ decode 0x7B408131#32 = .ok (.recv 104 8 9 true false) ∧
    decode 0x78409012#32 = .ok (.vtadv 8 9 true) ∧ decode 0x78480003#32 = .ok (.glbrd 9) ∧ decode 0x78521D0C#32 = .ok (.lcfg 10 33 104 false true) ∧
    decode 0x78021005#32 = .ok (.furrow 33) := by
  and_intros <;> rfl

theorem test_decode_others :
    decode 0x54000007#32 = .ok (.iend) ∧ decode 0x54080007#32 = .ok (.ileave) ∧ decode 0x78000006#32 = .ok (.fend) ∧
    decode 0xC40080A0#32 = .ok (.publ 8 5) ∧ decode 0xFC800019#32 = .ok (.rlx 6 1) := by
  and_intros <;> rfl

theorem test_decode_memory_and_synchronisation :
    decode 0x584098DE#32 = .ok (.ld 8 9 283 6) ∧ decode 0x5C48A906#32 = .ok (.st 9 10 288 3) ∧ decode 0x60521928#32 = .ok (.ldf 10 33 293) ∧
    decode 0x610E8951#32 = .ok (.stf 33 104 298) ∧ decode 0x6340897A#32 = .ok (.ldff 104 8 303) ∧ decode 0x6000898B#32 = .ok (.purge 8 305) ∧
    decode 0x6448A428#32 = .ok (.amoSwap 9 10 33 false true) ∧ decode 0x64521D11#32 = .ok (.amoAdd 10 33 104 true false) ∧
    decode 0x650E810A#32 = .ok (.amoAnd 33 104 8 false true) ∧ decode 0x67408133#32 = .ok (.amoOr 104 8 9 true false) ∧
    decode 0x6440914C#32 = .ok (.amoXor 8 9 10 false true) ∧ decode 0x6448A435#32 = .ok (.amoMin 9 10 33 true false) ∧
    decode 0x64521D0E#32 = .ok (.amoMax 10 33 104 false true) ∧ decode 0x650E8117#32 = .ok (.amoMinu 33 104 8 true false) ∧
    decode 0x6B408128#32 = .ok (.amoMaxu 104 8 9 false true) ∧ decode 0x68409151#32 = .ok (.cas 8 9 10 true false) ∧
    decode 0x6848A42A#32 = .ok (.incw 9 10 33 false true) ∧ decode 0x68521D13#32 = .ok (.faddb 10 33 104 true false) ∧
    decode 0x6C021D10#32 = .ok (.redAdd 33 104 true false) ∧ decode 0x6C068109#32 = .ok (.redAnd 104 8 false true) ∧
    decode 0x6C008132#32 = .ok (.redOr 8 9 true false) ∧ decode 0x6C00914B#32 = .ok (.redXor 9 10 false true) ∧
    decode 0x6C00A434#32 = .ok (.redMin 10 33 true false) ∧ decode 0x6C021D0D#32 = .ok (.redMax 33 104 false true) ∧
    decode 0x6C068116#32 = .ok (.redMinu 104 8 true false) ∧ decode 0x6C00812F#32 = .ok (.redMaxu 8 9 false true) ∧
    decode 0x70009000#32 = .ok (.fence 9) ∧ decode 0x7000A429#32 = .ok (.marm 10 33 false true) ∧ decode 0x70021002#32 = .ok (.mdis 33 false) ∧
    decode 0x73408003#32 = .ok (.mwait 104 8 false) ∧ decode 0x70008134#32 = .ok (.bari 8 9 true false) ∧
    decode 0x7048A435#32 = .ok (.barv 9 10 33 true false) ∧ decode 0x70521D0E#32 = .ok (.barw 10 33 104 false true) := by
  and_intros <;> rfl

theorem test_decode_float_and_tiles_1 :
    decode 0x7C409150#32 = .ok (.fadd 8 9 10 true false) ∧ decode 0x7C48A429#32 = .ok (.fsub 9 10 33 false true) ∧
    decode 0x7C521D12#32 = .ok (.fmul 10 33 104 true false) ∧ decode 0x7D0E810B#32 = .ok (.fdiv 33 104 8 false true) ∧
    decode 0x7F408004#32 = .ok (.fsqrt 104 8 false) ∧ decode 0x7C40914D#32 = .ok (.fmin 8 9 10 false true) ∧
    decode 0x7C48A436#32 = .ok (.fmax 9 10 33 true false) ∧ decode 0x80521D08#32 = .ok (.fmadd 10 33 104 false true) ∧
    decode 0x810E8111#32 = .ok (.fmsub 33 104 8 true false) ∧ decode 0x8340812A#32 = .ok (.fnmadd 104 8 9 false true) ∧
    decode 0x80409153#32 = .ok (.fnmsub 8 9 10 true false) ∧ decode 0x8448A3CC#32 = .ok (.fcvt 9 10 3 6 1 4) ∧
    decode 0x885218FA#32 = .ok (.fsk 10 33 8 3 14 true false) ∧ decode 0x8D0E8010#32 = .ok (.fclass 33 104 true) ∧
    decode 0x8F400001#32 = .ok (.ffrd 104) ∧ decode 0x8C409012#32 = .ok (.ffclr 8 9 true) ∧ decode 0x8C48A003#32 = .ok (.frmset 9 10 false) ∧
    decode 0x8C500004#32 = .ok (.frmrd 10) ∧ decode 0x910E8110#32 = .ok (.shape 33 104 8 true false) ∧ decode 0x9680201E#32 = .ok (.tld 5 8 3 6) ∧
    decode 0x95002443#32 = .ok (.tst 2 9 0 3) ∧ decode 0x9BAA000E#32 = .ok (.tadd 7 2 5 false true 6) ∧
    decode 0x9A740053#32 = .ok (.tsub 4 7 2 true false 3) ∧ decode 0x98CE0088#32 = .ok (.tmul 1 4 7 false true 0) ∧
    decode 0x9B1800D5#32 = .ok (.tmin 6 1 4 true false 5) ∧ decode 0x99E2010A#32 = .ok (.tmax 3 6 1 false true 2) ∧
    decode 0x983C0141#32 = .ok (.tand 0 3 6 1) ∧ decode 0x9A860186#32 = .ok (.tor 5 0 3 6) ∧ decode 0x995001C3#32 = .ok (.txor 2 5 0 3) ∧
    decode 0x9BA00213#32 = .ok (.tneg 7 2 true false 3) ∧ decode 0x9A700248#32 = .ok (.tabs 4 7 false true 0) ∧
    decode 0x9CCE0008#32 = .ok (.tfma 1 4 7 false true 0) ∧ decode 0x9F180055#32 = .ok (.tfms 6 1 4 true false 5) ∧
    decode 0x9DE2008A#32 = .ok (.tfnma 3 6 1 false true 2) ∧ decode 0x9C3C00D7#32 = .ok (.tfnms 0 3 6 true false 7) ∧
    decode 0xA2802831#32 = .ok (.tcvt 5 0 10 6 1) ∧ decode 0xA5500011#32 = .ok (.trsum 2 5 false true false 1) ∧
    decode 0xA7A0006E#32 = .ok (.trmax 7 2 true false true 6) ∧ decode 0xA6700093#32 = .ok (.trmin 4 7 false true false 3) ∧
    decode 0xA48020C7#32 = .ok (.tbcs 1 8 7) := by
  and_intros <;> rfl

theorem test_decode_float_and_tiles_2 :
    decode 0xA7102907#32 = .ok (.tbrow 6 1 10 7) ∧ decode 0xA5E08544#32 = .ok (.tbcol 3 6 33 4) ∧ decode 0xA8300006#32 = .ok (.ttrn 0 3 6) ∧
    decode 0xAA860046#32 = .ok (.tshuf 5 0 3 6) ∧ decode 0xA9502483#32 = .ok (.trot 2 5 9 3) ∧ decode 0xAFA00005#32 = .ok (.tmov 7 2 5) ∧
    decode 0xAE740045#32 = .ok (.tsel 4 7 2 5) ∧ decode 0xAC108487#32 = .ok (.tget 1 33 7) ∧ decode 0xAF01A0C4#32 = .ok (.tset 6 104 4) := by
  and_intros <;> rfl

theorem test_decode_array_and_engines :
    decode 0xB0068110#32 = .ok (.mma 104 8 true false) ∧ decode 0xB4008010#32 = .ok (.azero 8 true) ∧ decode 0xB4009001#32 = .ok (.awr 9 false) ∧
    decode 0xB400A012#32 = .ok (.ard 10 true) ∧ decode 0xB402100B#32 = .ok (.achk 33 false true) ∧ decode 0xBB408000#32 = .ok (.tilemm 104 8 false) ∧
    decode 0xBC008000#32 = .ok (.bsum 8 false) ∧ decode 0xBC009149#32 = .ok (.xred 9 10 false true) ∧ decode 0xBC521012#32 = .ok (.xrnd 10 33 true) ∧
    decode 0xBD0E8003#32 = .ok (.xclr 33 104 false) ∧ decode 0xC3408010#32 = .ok (.cpy 104 8 true) ∧
    decode 0xC4009151#32 = .ok (.chain 9 10 true false) ∧ decode 0xC8521000#32 = .ok (.nbmv 10 33 false) ∧
    decode 0xCD0E8010#32 = .ok (.estat 33 104 true false) := by
  and_intros <;> rfl

theorem test_decode_integrator_and_packing :
    decode 0xD0068108#32 = .ok (.patch 104 8 false true) ∧ decode 0xD0008131#32 = .ok (.rsave 8 9 true false) ∧
    decode 0xD000914A#32 = .ok (.rload 9 10 false true) ∧ decode 0xD4521D08#32 = .ok (.dcfg 10 33 104 false true) ∧
    decode 0xD4021011#32 = .ok (.dstart 33 true) ∧ decode 0xD4068002#32 = .ok (.dhalt 104 false) ∧ decode 0xD8008128#32 = .ok (.din 8 9 false true) ∧
    decode 0xD848A429#32 = .ok (.dtap 9 10 33 false true) ∧ decode 0xD8521D12#32 = .ok (.dport 10 33 104 true false) ∧
    decode 0xDD0E8108#32 = .ok (.pack6 33 104 8 false true) ∧ decode 0xDF408131#32 = .ok (.unpk6 104 8 9 true false) ∧
    decode 0xDC40914A#32 = .ok (.pack4 8 9 10 false true) ∧ decode 0xDC48A433#32 = .ok (.unpk4 9 10 33 true false) ∧
    decode 0xDC521D0C#32 = .ok (.lgenc 10 33 104 false true) ∧ decode 0xDD0E8115#32 = .ok (.lgdec 33 104 8 true false) := by
  and_intros <;> rfl

theorem test_decode_system :
    decode 0xE3400184#32 = .ok (.crrd 104 388) ∧ decode 0xE0008589#32 = .ok (.crwr 8 393) ∧ decode 0xE048A991#32 = .ok (.crset 9 10 401) ∧
    decode 0xE0521D96#32 = .ok (.crclr 10 33 406) ∧ decode 0xE4021000#32 = .ok (.trap 33 false) ∧ decode 0xE4068011#32 = .ok (.scall 104 true) ∧
    decode 0xE4008002#32 = .ok (.hcall 8 false) ∧ decode 0xE4000003#32 = .ok (.eret) ∧ decode 0xE4000004#32 = .ok (.uiret) ∧
    decode 0xE8021D08#32 = .ok (.segld 33 104 false true) ∧ decode 0xEB408011#32 = .ok (.segrd 104 8 true) ∧
    decode 0xE800812A#32 = .ok (.shoot 8 9 false true) ∧ decode 0xEC48A010#32 = .ok (.bist 9 10 true) ∧
    decode 0xEC521001#32 = .ok (.ecrd 10 33 false) ∧ decode 0xED0E810A#32 = .ok (.eccfg 33 104 8 false true) := by
  and_intros <;> rfl

theorem test_decode_hints :
    decode 0xFC4001D1#32 = .ok (.imm 465) := by
  and_intros <;> rfl

/-! ## Hypotheses that can be met -/

/-! Small states from which the witnesses start. -/

/-- The effects of a meaning in a state, and the state after them. -/
def fx {α : Type} (m : M α) (s : State) : List Eff :=
  match m.eval s with
  | .ok (_, es) => es
  | .error _ => []
def after {α : Type} (m : M α) (s : State) : State := applyAll (fx m s) s

/-- A user thread at offset 0x100 with some registers. -/
def user (regs : FMap Reg) : Thread := { sid := 1, uid := 1, regs := regs, pc := 0x100 }
/-- Threads in slots of core 0; slot 0 issues. -/
def machine (ts : FMap Thread) : State := { threads := ts }
/-- A full register. -/
def full (v : Word) : Reg := { val := v }
/-- An empty register. -/
def empty (v : Word) : Reg := { val := v, full := false }
/-- s8 is 5, s9 is 3, s10 is 7. -/
def st : State := machine [(0, user [(8, full 5), (9, full 3), (10, full 7)])]
/-- s8 is empty. -/
def stEmpty : State := machine [(0, user [(8, empty 5), (9, full 3)])]
/-- A ring set of slots 0, 1 and 2 with its body from 0x110 to 0x130. -/
def ring : Ring := { owner := 0, n := 6, q := 0, r := 2, body := 0x110, exit := 0x130, g := 3, slots := [0, 1, 2], snap := {} }
/-- Three iterations on core 0; slot j issues. -/
def loopOn (j : Nat) (r : Ring) (its : List IterCtx) (pc : BitVec 16) : State :=
  { threads := its.zipIdx.map fun p => (p.2, { user [(8, full 5), (9, full 3), (10, full 7)] with pc := pc, iter := some p.1 }),
    cores := [(0, { rings := [(0, r)] })], clock := { slot := j } }
/-- Iterations 0, 1 and 2, of which iteration 0 has written v1, full, and v2, empty. -/
def its : List IterCtx :=
  [{ ring := 0, owner := 0, idx := 0, written := [(1, full 11), (2, empty 0)] }, { ring := 0, owner := 0, idx := 1 },
    { ring := 0, owner := 0, idx := 2 }]
/-- A column of a furrow of core 0 on core 1. -/
def columnSt (j : Nat) (handler : Bool) : State :=
  { threads := [(31, { user [(8, full 5), (9, full 3), (10, full 7)] with col := some { head := 0, j := j, idx := 0, inHandler := handler } })],
    clock := { core := 1, slot := 15 } }
/-- FEND stands after the word of the head. -/
def columnEnd : State := { columnSt 1 false with mem := Memory.writeList [] (lsKey 0 0x104) (leBytes 4 0x78000006) }

theorem meets_ScalarSources_1 :
  ∃ (s : State) (c : Code) (x : Bool), c.toNat < 32 ∧ let r := (current s).sreg c.toNat; r.full = true := by
  refine ⟨st, 8, false, ?_, ?_⟩
  all_goals decide

theorem meets_ScalarSources_2 :
  ∃ (s : State) (c : Code) (x : Bool), c.toNat < 32 ∧ let r := (current s).sreg c.toNat; r.full = false ∧ x = true := by
  refine ⟨stEmpty, 8, true, ?_, ?_, ?_⟩
  all_goals decide

theorem meets_ScalarSources_3 :
  ∃ (s : State) (c : Code) (x : Bool), c.toNat < 32 ∧ let r := (current s).sreg c.toNat; r.full = false ∧ x = false := by
  refine ⟨stEmpty, 8, false, ?_, ?_, ?_⟩
  all_goals decide

theorem meets_VersionSources_1 :
  ∃ (s : State) (n k : Nat) (x : Bool), n < 8 ∧ k < 8 ∧ loopNow s = none ∧ let r := (current s).version n k; r.full = true := by
  refine ⟨st, 1, 7, false, ?_, ?_, ?_, ?_⟩
  all_goals decide

theorem meets_VersionSources_2 :
  ∃ (s : State) (n k : Nat) (x : Bool), n < 8 ∧ k < 8 ∧ loopNow s = none ∧ let r := (current s).version n k; r.full = false := by
  refine ⟨machine [(0, { user [] with vers := [(8 * 1 + 3, empty 1)] })], 1, 3, false, ?_, ?_, ?_, ?_⟩
  all_goals decide

theorem meets_VersionSources_3 :
  ∃ (s : State) (n k : Nat) (x : Bool), n < 8 ∧ k < 8 ∧ ∃ it r, loopNow s = some (it, r) ∧ r.r < k := by
  refine ⟨loopOn 0 ring its 0x110, 1, 3, false, ?_, ?_, { ring := 0, owner := 0, idx := 0, written := [(1, full 11), (2, empty 0)] }, ring, ?_, ?_⟩
  all_goals decide

theorem meets_VersionSources_4 :
  ∃ (s : State) (n k : Nat) (x : Bool), n < 8 ∧ k < 8 ∧ ∃ it r, loopNow s = some (it, r) ∧ k = 0 ∧ FMap.get? it.written n = none := by
  refine ⟨loopOn 0 ring its 0x110, 3, 0, false, ?_, ?_, { ring := 0, owner := 0, idx := 0, written := [(1, full 11), (2, empty 0)] }, ring, ?_, ?_,
    ?_⟩
  all_goals decide

theorem meets_VersionSources_5 :
  ∃ (s : State) (n k : Nat) (x : Bool), n < 8 ∧ k < 8 ∧ ∃ it r, loopNow s = some (it, r) ∧ ∃ v, k = 0 ∧ FMap.get? it.written n = some v ∧
    v.full = true := by
  refine ⟨loopOn 0 ring its 0x110, 1, 0, false, ?_, ?_, { ring := 0, owner := 0, idx := 0, written := [(1, full 11), (2, empty 0)] }, ring, ?_,
    full 11, ?_, ?_, ?_⟩
  all_goals decide

theorem meets_VersionSources_6 :
  ∃ (s : State) (n k : Nat) (x : Bool), n < 8 ∧ k < 8 ∧ ∃ it r, loopNow s = some (it, r) ∧ ∃ v, k = 0 ∧ FMap.get? it.written n = some v ∧
    v.full = false := by
  refine ⟨loopOn 0 ring its 0x110, 2, 0, false, ?_, ?_, { ring := 0, owner := 0, idx := 0, written := [(1, full 11), (2, empty 0)] }, ring, ?_,
    empty 0, ?_, ?_, ?_⟩
  all_goals decide

theorem meets_VersionSources_7 :
  ∃ (s : State) (n k : Nat) (x : Bool), n < 8 ∧ k < 8 ∧ ∃ it r, loopNow s = some (it, r) ∧ 0 < k ∧ k ≤ r.r ∧ it.idx < r.oldest + k := by
  refine ⟨loopOn 0 ring its 0x110, 1, 1, false, ?_, ?_, { ring := 0, owner := 0, idx := 0, written := [(1, full 11), (2, empty 0)] }, ring, ?_, ?_,
    ?_, ?_⟩
  all_goals decide

theorem meets_VersionSources_7b :
  ∃ (s : State) (n k : Nat) (x : Bool), n < 8 ∧ k < 8 ∧ ∃ it r, loopNow s = some (it, r) ∧ 0 < k ∧ k ≤ r.r ∧ it.idx < r.oldest + k := by
  refine ⟨loopOn 1 ring its 0x110, 1, 2, false, ?_, ?_, { ring := 0, owner := 0, idx := 1 }, ring, ?_, ?_, ?_, ?_⟩
  all_goals decide

theorem meets_VersionSources_8 :
  ∃ (s : State) (n k : Nat) (x : Bool), n < 8 ∧ k < 8 ∧ ∃ it r, loopNow s = some (it, r) ∧ 0 < k ∧ k ≤ r.r ∧ r.oldest + k ≤ it.idx := by
  refine ⟨loopOn 1 ring its 0x110, 1, 1, false, ?_, ?_, { ring := 0, owner := 0, idx := 1 }, ring, ?_, ?_, ?_, ?_⟩
  all_goals decide

theorem meets_VersionSources_8b :
  ∃ (s : State) (n k : Nat) (x : Bool), n < 8 ∧ k < 8 ∧ ∃ it r, loopNow s = some (it, r) ∧ 0 < k ∧ k ≤ r.r ∧ r.oldest + k ≤ it.idx := by
  refine ⟨loopOn 2 ring its 0x110, 1, 2, false, ?_, ?_, { ring := 0, owner := 0, idx := 2 }, ring, ?_, ?_, ?_, ?_⟩
  all_goals decide

theorem meets_VersionSources_8c :
  ∃ (s : State) (n k : Nat) (x : Bool), n < 8 ∧ k < 8 ∧ ∃ it r, loopNow s = some (it, r) ∧ 0 < k ∧ k ≤ r.r ∧ r.oldest + k ≤ it.idx := by
  refine ⟨loopOn 2 ring its 0x110, 1, 1, false, ?_, ?_, { ring := 0, owner := 0, idx := 2 }, ring, ?_, ?_, ?_, ?_⟩
  all_goals decide

theorem meets_VersionSources_8d :
  ∃ (s : State) (n k : Nat) (x : Bool), n < 8 ∧ k < 8 ∧ ∃ it r, loopNow s = some (it, r) ∧ 0 < k ∧ k ≤ r.r ∧ r.oldest + k ≤ it.idx := by
  refine ⟨loopOn 2 ring its 0x110, 2, 2, false, ?_, ?_, { ring := 0, owner := 0, idx := 2 }, ring, ?_, ?_, ?_, ?_⟩
  all_goals decide

theorem meets_LinkSources_1 :
  ∃ (s : State) (d : Dir) (x : Bool), oldestOrOutside s ∧ let k := s.clock.core; let q := FMap.get [] (s.coreOf k).links d.idx; ∃ v rest,
    q = v :: rest ∧ (current s).pushing d.opp = false := by
  refine ⟨{ st with cores := [(0, { links := [(1, [41, 42])] })] }, .e, false, ?_, 41, [42], ?_, ?_⟩
  all_goals repeat' first | decide | simp only [List.mem_singleton, forall_eq] | (intro _ _ h; contradiction)

theorem meets_LinkSources_2 :
  ∃ (s : State) (d : Dir) (x : Bool), oldestOrOutside s ∧ let k := s.clock.core; let q := FMap.get [] (s.coreOf k).links d.idx; q = [] ∧
    (s.coreOf (neighbour k d)).isSealed = false := by
  refine ⟨st, .e, false, ?_, ?_, ?_⟩
  all_goals first | decide | (intro _ _ h; contradiction)

theorem meets_LinkSources_3 :
  ∃ (s : State) (d : Dir) (x : Bool), oldestOrOutside s ∧ let k := s.clock.core; let q := FMap.get [] (s.coreOf k).links d.idx; q = [] ∧
    (s.coreOf (neighbour k d)).isSealed = true := by
  refine ⟨{ st with cores := [(1, { isSealed := true })] }, .e, false, ?_, ?_, ?_⟩
  all_goals repeat' first | decide | simp only [List.mem_singleton, forall_eq] | (intro _ _ h; contradiction)

theorem meets_LinkSources_3b :
  ∃ (s : State) (d : Dir) (x : Bool), oldestOrOutside s ∧ let k := s.clock.core; let q := FMap.get [] (s.coreOf k).links d.idx; q = [] ∧
    (s.coreOf (neighbour k d)).isSealed = true := by
  refine ⟨{ st with cores := [(1, { isSealed := true })] }, .e, true, ?_, ?_, ?_⟩
  all_goals repeat' first | decide | simp only [List.mem_singleton, forall_eq] | (intro _ _ h; contradiction)

theorem meets_SpecialSources_1 :
  ∃ (s : State) (x : Bool), loopNow s = none := by
  refine ⟨st, false, ?_⟩
  all_goals decide

theorem meets_SpecialSources_2 :
  ∃ (s : State) (x : Bool), ∃ it r, loopNow s = some (it, r) := by
  refine ⟨loopOn 1 ring its 0x110, false, { ring := 0, owner := 0, idx := 1 }, ring, ?_⟩
  all_goals decide

theorem meets_SpecialSources_3 :
  ∃ (s : State) (x : Bool), (∀ p ∈ (current s).producers, p.2.away = none) := by
  refine ⟨st, false, ?_⟩
  all_goals decide

theorem meets_SpecialSources_4 :
  ∃ (s : State) (x : Bool), ∃ c : Code, 110 < c.toNat := by
  refine ⟨st, false, 111, ?_⟩
  all_goals decide

theorem meets_DestinationWrites_1 :
  ∃ (s : State) (c : Code) (v : Word), c.toNat < 32 ∧ ((current s).sreg c.toNat).full = true := by
  refine ⟨st, 31, 9, ?_, ?_⟩
  all_goals decide

theorem meets_DestinationWrites_2 :
  ∃ (s : State) (c : Code) (v : Word), c.toNat < 32 ∧ ((current s).sreg c.toNat).full = false := by
  refine ⟨stEmpty, 8, 9, ?_, ?_⟩
  all_goals decide

theorem meets_DestinationWrites_3 :
  ∃ (s : State) (c : Code) (v : Word), ∃ n, c.toNat = 32 + 8 * n ∧ n < 8 ∧ (current s).iter = none ∧ ((current s).version n 0).full = true := by
  refine ⟨st, 88, 9, 7, ?_, ?_, ?_, ?_⟩
  all_goals decide

theorem meets_DestinationWrites_4 :
  ∃ (s : State) (c : Code) (v : Word), ∃ n, c.toNat = 32 + 8 * n ∧ n < 8 ∧ (current s).iter = none ∧ ((current s).version n 0).full = false := by
  refine ⟨machine [(0, { user [] with vers := [(0, empty 1)] })], 32, 9, 0, ?_, ?_, ?_, ?_⟩
  all_goals decide

theorem meets_DestinationWrites_5 :
  ∃ (s : State) (c : Code) (v : Word), ∃ n it, c.toNat = 32 + 8 * n ∧ n < 8 ∧ (current s).iter = some it ∧ FMap.get? it.written n = none := by
  refine ⟨loopOn 0 ring its 0x110, 32, 9, 0, { ring := 0, owner := 0, idx := 0, written := [(1, full 11), (2, empty 0)] }, ?_, ?_, ?_, ?_⟩
  all_goals decide

theorem meets_DestinationWrites_6 :
  ∃ (s : State) (c : Code) (v : Word), ∃ n it, c.toNat = 32 + 8 * n ∧ n < 8 ∧ (current s).iter = some it ∧ ∃ r, FMap.get? it.written n = some r := by
  refine ⟨loopOn 0 ring its 0x110, 40, 9, 1, { ring := 0, owner := 0, idx := 0, written := [(1, full 11), (2, empty 0)] }, ?_, ?_, ?_, full 11, ?_⟩
  all_goals decide

theorem meets_DestinationWrites_7 :
  ∃ (s : State) (c : Code) (v : Word), ∃ d : Dir, c.toNat = 96 + d.idx ∧ oldestOrOutside s ∧ (current s).pushing d = false ∧
    let nb := neighbour (tid s / 16) d; (s.coreOf nb).isSealed = true := by
  refine ⟨{ st with cores := [(1, { isSealed := true })] }, 97, 9, .e, ?_, ?_, ?_, ?_⟩
  all_goals repeat' first | decide | simp only [List.mem_singleton, forall_eq] | (intro _ _ h; contradiction)

theorem meets_DestinationWrites_8 :
  ∃ (s : State) (c : Code) (v : Word), ∃ d : Dir, c.toNat = 96 + d.idx ∧ oldestOrOutside s ∧ (current s).pushing d = false ∧
    let nb := neighbour (tid s / 16) d; (s.coreOf nb).isSealed = false ∧ FMap.get 32 (s.coreOf (tid s / 16)).credits d.idx = 0 := by
  refine ⟨{ st with cores := [(0, { credits := [(1, 0)] })] }, 97, 9, .e, ?_, ?_, ?_, ?_, ?_⟩
  all_goals repeat' first | decide | simp only [List.mem_singleton, forall_eq] | (intro _ _ h; contradiction)

theorem meets_DestinationWrites_9 :
  ∃ (s : State) (c : Code) (v : Word), ∃ d : Dir, c.toNat = 96 + d.idx ∧ oldestOrOutside s ∧ (current s).pushing d = false ∧
    let nb := neighbour (tid s / 16) d; (s.coreOf nb).isSealed = false ∧ FMap.get 32 (s.coreOf (tid s / 16)).credits d.idx ≠ 0 := by
  refine ⟨st, 97, 9, .e, ?_, ?_, ?_, ?_, ?_⟩
  all_goals first | decide | (intro _ _ h; contradiction)

theorem meets_DestinationWrites_9b :
  ∃ (s : State) (c : Code) (v : Word), ∃ d : Dir, c.toNat = 96 + d.idx ∧ oldestOrOutside s ∧ (current s).pushing d = false ∧
    let nb := neighbour (tid s / 16) d; (s.coreOf nb).isSealed = false ∧ FMap.get 32 (s.coreOf (tid s / 16)).credits d.idx ≠ 0 := by
  refine ⟨loopOn 0 ring its 0x110, 99, 9, .w, ?_, ?_, ?_, ?_, ?_⟩
  all_goals first | decide | (intro _ _ h; cases h; decide)

theorem meets_DestinationWrites_10 :
  ∃ (s : State) (c : Code) (v : Word), c = 104 := by
  refine ⟨st, 104, 9, ?_⟩
  all_goals decide

theorem meets_ProducerIssue_1 :
  ∃ (s : State) (c : Code) (v : Word) (delay access : Nat), c.toNat < 32 ∧ ((current s).sreg c.toNat).full = true ∧ s.occupied (tid s) = true := by
  refine ⟨st, 10, 9, 40, 0, ?_, ?_, ?_⟩
  all_goals decide

theorem meets_ProducerIssue_2 :
  ∃ (s : State) (c : Code) (v : Word) (delay access : Nat), c = 104 := by
  refine ⟨st, 104, 9, 40, 0, ?_⟩
  all_goals decide

theorem meets_ProducerArrival :
  ∃ (s : State) (k t p n : Nat) (v : Word) (a : Nat), t < 16 ∧
    FMap.get? (s.thread (tidOf k t)).producers p = some { dest := .reg n, value := v, access := a, isFloat := false, flags := 0 } ∧
    (∀ cause value epc async since, (s.thread (tidOf k t)).status ≠ .parked (.upward cause value epc async) since) ∧
    (∀ it, (s.thread (tidOf k t)).iter = some it → it.trapped = none) := by
  refine ⟨machine [(0, { user [] with producers := [(3, { dest := .reg 10, value := 9, access := 0 })] })], 0, 0, 3, 10, 9, 0, ?_, ?_, ?_, ?_⟩
  all_goals repeat' first | decide | simp only [List.mem_singleton, forall_eq] | (intro _ _ _ _ _ h; cases h)

theorem meets_BinaryResults :
  ∃ p ∈ binaryForms, ∃ (s s1 s2 s3 : State) (d a b : Code) (x y : Bool) (va vb : Word), admits { srcs := [a, b], dst := some d } s = true ∧
    Reads s a x va s1 ∧ Reads s1 b y vb s2 ∧ Writes s2 d (p.2 va vb) s3 := by
  refine ⟨binaryForms[0], ?_, st, st, st, after (writeDst 10 1) st, 10, 8, 9, false, false, 5, 3, ?_, ?_, ?_, ?_⟩
  all_goals first | exact List.getElem_mem _ | decide | exact ⟨[], rfl, fun _ => rfl⟩ | exact ⟨_, rfl, fun _ => rfl⟩

theorem meets_BinaryResults_1b :
  ∃ p ∈ binaryForms, ∃ (s s1 s2 s3 : State) (d a b : Code) (x y : Bool) (va vb : Word), admits { srcs := [a, b], dst := some d } s = true ∧
    Reads s a x va s1 ∧ Reads s1 b y vb s2 ∧ Writes s2 d (p.2 va vb) s3 := by
  refine ⟨binaryForms[11], ?_, st, st, st, after (writeDst 10 0) st, 10, 8, 9, false, false, 5, 3, ?_, ?_, ?_, ?_⟩
  all_goals first | exact List.getElem_mem _ | decide | exact ⟨[], rfl, fun _ => rfl⟩ | exact ⟨_, rfl, fun _ => rfl⟩

theorem meets_BinaryResults_1c :
  ∃ p ∈ binaryForms, ∃ (s s1 s2 s3 : State) (d a b : Code) (x y : Bool) (va vb : Word), admits { srcs := [a, b], dst := some d } s = true ∧
    Reads s a x va s1 ∧ Reads s1 b y vb s2 ∧ Writes s2 d (p.2 va vb) s3 := by
  refine ⟨binaryForms[8], ?_, st, st, st, after (writeDst 10 0xA000000000000000) st, 10, 8, 9, false, false, 5, 3, ?_, ?_, ?_, ?_⟩
  all_goals first | exact List.getElem_mem _ | decide | exact ⟨[], rfl, fun _ => rfl⟩ | exact ⟨_, rfl, fun _ => rfl⟩

theorem meets_UnaryResults :
  ∃ p ∈ unaryForms, ∃ (s s1 s2 : State) (d a : Code) (x : Bool) (va : Word), admits { srcs := [a], dst := some d } s = true ∧ Reads s a x va s1 ∧
    Writes s1 d (p.2 va) s2 := by
  refine ⟨unaryForms[2], ?_, st, st, after (writeDst 10 2) st, 10, 8, false, 5, ?_, ?_, ?_⟩
  all_goals first | exact List.getElem_mem _ | decide | exact ⟨[], rfl, fun _ => rfl⟩ | exact ⟨_, rfl, fun _ => rfl⟩

theorem meets_RecordedResults :
  ∃ p ∈ recordedForms, ∃ (s s1 s2 s3 : State) (d a b : Code) (x y : Bool) (va vb : Word), let r := p.2 va vb ((current s2).pw.getLsbD 16);
    admits { srcs := [a, b], dst := some d } s = true ∧ Reads s a x va s1 ∧ Reads s1 b y vb s2 ∧ Writes s2 d r.1 s3 := by
  refine ⟨recordedForms[1], ?_, st, st, st, after (writeDst 10 2) st, 10, 8, 9, false, false, 5, 3, ?_, ?_, ?_, ?_⟩
  all_goals first | exact List.getElem_mem _ | decide | exact ⟨[], rfl, fun _ => rfl⟩ | exact ⟨_, rfl, fun _ => rfl⟩

theorem meets_RecordedResults_1b :
  ∃ p ∈ recordedForms, ∃ (s s1 s2 s3 : State) (d a b : Code) (x y : Bool) (va vb : Word), let r := p.2 va vb ((current s2).pw.getLsbD 16);
    admits { srcs := [a, b], dst := some d } s = true ∧ Reads s a x va s1 ∧ Reads s1 b y vb s2 ∧ Writes s2 d r.1 s3 := by
  refine ⟨recordedForms[3], ?_, st, st, st, after (writeDst 96 (-3)) st, 96, 104, 9, false, false, 0, 3, ?_, ?_, ?_, ?_⟩
  all_goals first | exact List.getElem_mem _ | decide | exact ⟨[], rfl, fun _ => rfl⟩ | exact ⟨_, rfl, fun _ => rfl⟩

theorem meets_DivideResults :
  ∃ p ∈ divideForms, ∃ (s s1 s2 s3 : State) (d a b : Code) (x y : Bool) (va vb : Word), admits { srcs := [a, b], dst := some d } s = true ∧
    Reads s a x va s1 ∧ Reads s1 b y vb s2 ∧ Owes s2 d (p.2 va vb) 40 0 s3 := by
  refine ⟨divideForms[2], ?_, st, st, st, after (produce 10 2 40 0) st, 10, 8, 9, false, false, 5, 3, ?_, ?_, ?_, ?_⟩
  all_goals first | exact List.getElem_mem _ | decide | exact ⟨[], rfl, fun _ => rfl⟩ | exact ⟨_, rfl, fun _ => rfl⟩

theorem meets_DivideResults_1b :
  ∃ p ∈ divideForms, ∃ (s s1 s2 s3 : State) (d a b : Code) (x y : Bool) (va vb : Word), admits { srcs := [a, b], dst := some d } s = true ∧
    Reads s a x va s1 ∧ Reads s1 b y vb s2 ∧ Owes s2 d (p.2 va vb) 40 0 s3 := by
  refine ⟨divideForms[1], ?_, st, st, st, after (produce 10 (BitVec.allOnes 64) 40 0) st, 10, 8, 104, false, false, 5, 0, ?_, ?_, ?_, ?_⟩
  all_goals first | exact List.getElem_mem _ | decide | exact ⟨[], rfl, fun _ => rfl⟩ | exact ⟨_, rfl, fun _ => rfl⟩

theorem meets_ImmediateResults_1 :
  ∃ p ∈ immediateForms, ∃ (s s1 s2 : State) (d a : Code) (i : BitVec 12) (va : Word), admits { ext := true, srcs := [a], dst := some d } s = true ∧
    Reads s a false va s1 ∧ Writes s1 d (p.2 va (immediateOf (current s1).bound i)) s2 := by
  refine ⟨immediateForms[0], ?_, st, st, after (writeDst 10 0) st, 10, 8, 0xFF8, 5, ?_, ?_, ?_⟩
  all_goals first | exact List.getElem_mem _ | decide | exact ⟨[], rfl, fun _ => rfl⟩ | exact ⟨_, rfl, fun _ => rfl⟩

theorem meets_ImmediateResults_2 :
  ∃ p ∈ immediateForms, ∃ (s s1 s2 : State) (d a : Code) (i : BitVec 12) (va : Word), admits { ext := true, srcs := [a], dst := some d } s = true ∧
    a.toNat < 32 ∧ ((current s).sreg a.toNat).full = false := by
  refine ⟨immediateForms[2], ?_, stEmpty, stEmpty, stEmpty, 10, 8, 0xFF8, 5, ?_, ?_, ?_⟩
  all_goals first | exact List.getElem_mem _ | decide

theorem meets_ImmediateRecords_1 :
  ∃ p ∈ immediateRecordedForms, ∃ (s s1 s2 : State) (d a : Code) (i : BitVec 12) (va : Word), let r := p.2 va (immediateOf (current s1).bound i);
    admits { ext := true, srcs := [a], dst := some d } s = true ∧ Reads s a false va s1 ∧ Writes s1 d r.1 s2 := by
  refine ⟨immediateRecordedForms[0], ?_, machine [(0, { user [(8, full 5)] with bound := .imm 1 })], machine [(0,
    { user [(8, full 5)] with bound := .imm 1 })], after (writeDst 10 0x1FFD) (machine [(0, { user [(8, full 5)] with bound := .imm 1 })]), 10, 8,
      0xFF8, 5, ?_, ?_, ?_⟩
  all_goals first | exact List.getElem_mem _ | decide | exact ⟨[], rfl, fun _ => rfl⟩ | exact ⟨_, rfl, fun _ => rfl⟩

theorem meets_ImmediateRecords_2 :
  ∃ p ∈ immediateRecordedForms, ∃ (s s1 s2 : State) (d a : Code) (i : BitVec 12) (va : Word),
    admits { ext := true, srcs := [a], dst := some d } s = true ∧ a.toNat < 32 ∧ ((current s).sreg a.toNat).full = false := by
  refine ⟨immediateRecordedForms[1], ?_, stEmpty, stEmpty, stEmpty, 10, 8, 0xFF8, 5, ?_, ?_, ?_⟩
  all_goals first | exact List.getElem_mem _ | decide

theorem meets_ShiftResults :
  ∃ p ∈ shiftForms, ∃ (s s1 s2 : State) (d a : Code) (n : BitVec 6) (va : Word), admits { srcs := [a], dst := some d } s = true ∧
    Reads s a false va s1 ∧ Writes s1 d (p.2 va n.toNat) s2 := by
  refine ⟨shiftForms[2], ?_, st, st, after (writeDst 10 0) st, 10, 8, 63, 5, ?_, ?_, ?_⟩
  all_goals first | exact List.getElem_mem _ | decide | exact ⟨[], rfl, fun _ => rfl⟩ | exact ⟨_, rfl, fun _ => rfl⟩

theorem meets_MoveResults_1 :
  ∃ (s s1 s2 s3 s4 : State) (d a b : Code) (x y : Bool) (va vb old : Word) (i : BitVec 19),
    admits { srcs := [a, b], dst := some d, readsDst := true } s = true ∧ Reads s a x va s1 ∧ Reads s1 b y vb s2 ∧ Reads s2 d false old s3 ∧
    Writes s3 d (if vb ≠ 0 then va else old) s4 := by
  refine ⟨st, st, st, st, after (writeDst 10 5) st, 10, 8, 9, false, false, 5, 3, 7, 0x7FFFF, ?_, ?_, ?_, ?_, ?_⟩
  all_goals first | decide | exact ⟨[], rfl, fun _ => rfl⟩ | exact ⟨_, rfl, fun _ => rfl⟩

theorem meets_MoveResults_1b :
  ∃ (s s1 s2 s3 s4 : State) (d a b : Code) (x y : Bool) (va vb old : Word) (i : BitVec 19),
    admits { srcs := [a, b], dst := some d, readsDst := true } s = true ∧ Reads s a x va s1 ∧ Reads s1 b y vb s2 ∧ Reads s2 d false old s3 ∧
    Writes s3 d (if vb ≠ 0 then va else old) s4 := by
  refine ⟨st, st, st, st, after (writeDst 10 7) st, 10, 8, 104, false, false, 5, 0, 7, 0x7FFFF, ?_, ?_, ?_, ?_, ?_⟩
  all_goals first | decide | exact ⟨[], rfl, fun _ => rfl⟩ | exact ⟨_, rfl, fun _ => rfl⟩

theorem meets_MoveResults_2 :
  ∃ (s s1 s2 s3 s4 : State) (d a b : Code) (x y : Bool) (va vb old : Word) (i : BitVec 19), admits { srcs := [a, b], dst := some d } s = true ∧
    Reads s a x va s1 ∧ Reads s1 b y vb s2 ∧ Writes s2 d ((current s2).pw.setWidth 64) s3 := by
  refine ⟨st, st, st, after (writeDst 10 1) st, after (writeDst 10 1) st, 10, 8, 9, false, false, 5, 3, 7, 0x7FFFF, ?_, ?_, ?_, ?_⟩
  all_goals first | decide | exact ⟨[], rfl, fun _ => rfl⟩ | exact ⟨_, rfl, fun _ => rfl⟩

theorem meets_MoveResults_3 :
  ∃ (s s1 s2 s3 s4 : State) (d a b : Code) (x y : Bool) (va vb old : Word) (i : BitVec 19), admits { ext := true, dst := some d } s = true ∧
    Writes s d (immediateOf (current s).bound i) s1 := by
  refine ⟨st, after (writeDst 10 (-1)) st, after (writeDst 10 (-1)) st, after (writeDst 10 (-1)) st, after (writeDst 10 (-1)) st, 10, 8, 9, false,
    false, 5, 3, 7, 0x7FFFF, ?_, ?_⟩
  all_goals first | decide | exact ⟨_, rfl, fun _ => rfl⟩

theorem meets_MoveResults_4 :
  ∃ (s s1 s2 s3 s4 : State) (d a b : Code) (x y : Bool) (va vb old : Word) (i : BitVec 19),
    admits { ext := true, dst := some d, readsDst := true } s = true ∧ Reads s d false old s1 ∧
    Writes s1 d ((immediateOf (current s1).bound i).extractLsb' 0 32 ++ old.extractLsb' 0 32) s2 := by
  refine ⟨st, st, after (writeDst 10 0xFFFFFFFF00000007) st, after (writeDst 10 0xFFFFFFFF00000007) st, after (writeDst 10 0xFFFFFFFF00000007) st,
    10, 8, 9, false, false, 5, 3, 7, 0x7FFFF, ?_, ?_, ?_⟩
  all_goals first | decide | exact ⟨[], rfl, fun _ => rfl⟩ | exact ⟨_, rfl, fun _ => rfl⟩

theorem meets_SkipResults_1 :
  ∃ (s s1 s2 : State) (a b : Code) (cc : BitVec 4) (k : BitVec 2) (p : BitVec 4) (i : BitVec 12) (x y : Bool) (va vb : Word)
    (f : Word → Word → Bool),
    conditions[cc.toNat]? = some f ∧ skipFits s k.toNat ∧ admits { srcs := [a, b], literals := cc.toNat < 12 } s = true ∧ Reads s a x va s1 ∧
    Reads s1 b y vb s2 := by
  refine ⟨st, st, st, 8, 9, 2, 3, 2, 5, false, false, 5, 3, fun a b => a.slt b, ?_, ?_, ?_, ?_, ?_⟩
  all_goals repeat' first | rfl | decide | exact ⟨[], rfl, fun _ => rfl⟩ | apply And.intro | (intro _ _ h; contradiction)

theorem meets_SkipResults_2 :
  ∃ (s s1 s2 : State) (a b : Code) (cc : BitVec 4) (k : BitVec 2) (p : BitVec 4) (i : BitVec 12) (x y : Bool) (va vb : Word)
    (f : Word → Word → Bool),
    conditions[cc.toNat]? = some f ∧ skipFits s k.toNat ∧ admits { ext := true, srcs := [a], literals := cc.toNat < 12 } s = true ∧
    Reads s a x va s1 := by
  refine ⟨st, st, st, 8, 9, 2, 3, 2, 5, false, false, 5, 3, fun a b => a.slt b, ?_, ?_, ?_, ?_⟩
  all_goals repeat' first | rfl | decide | exact ⟨[], rfl, fun _ => rfl⟩ | apply And.intro | (intro _ _ h; contradiction)

theorem meets_SkipResults_1b :
  ∃ (s s1 s2 : State) (a b : Code) (cc : BitVec 4) (k : BitVec 2) (p : BitVec 4) (i : BitVec 12) (x y : Bool) (va vb : Word)
    (f : Word → Word → Bool),
    conditions[cc.toNat]? = some f ∧ skipFits s k.toNat ∧ admits { srcs := [a, b], literals := cc.toNat < 12 } s = true ∧ Reads s a x va s1 ∧
    Reads s1 b y vb s2 := by
  refine ⟨loopOn 0 ring its 0x110, loopOn 0 ring its 0x110, loopOn 0 ring its 0x110, 8, 9, 11, 3, 0, 5, false, false, 5, 3,
    fun a b => (a &&& b) == 0, ?_, ?_, ?_, ?_, ?_⟩
  all_goals repeat' first | rfl | decide | exact ⟨[], rfl, fun _ => rfl⟩ | apply And.intro | (intro _ _ h; cases h; decide)

theorem meets_SkipNesting_1 :
  ∃ (s : State) (a b : Code) (cc : BitVec 4) (k : BitVec 2) (p : BitVec 4) (i : BitVec 12) (x y : Bool),
    ((∃ it r, loopNow s = some (it, r) ∧ within (current s).pc (r.exit - 4#16) k.toNat = true) ∨ (loopNow s = none ∧ ∃ c,
      (current s).col = some c ∧ ∃ n,
        n < k.toNat ∧ Memory.readList s.mem (lsKey (if c.inHandler then tid s / 16 else c.head) ((current s).pc + BitVec.ofNat 16 (4 * (n + 1))).toNat) 4 = leBytes 4 0x78000006)) ∧
    admits { srcs := [a, b], literals := cc.toNat < 12 } s = true := by
  refine ⟨loopOn 0 ring its 0x120, 8, 9, 2, 3, 2, 5, false, false, ?_, ?_⟩
  all_goals first | decide | exact .inl ⟨_, _, rfl, rfl⟩

theorem meets_SkipNesting_2 :
  ∃ (s : State) (a b : Code) (cc : BitVec 4) (k : BitVec 2) (p : BitVec 4) (i : BitVec 12) (x y : Bool),
    ((∃ it r, loopNow s = some (it, r) ∧ within (current s).pc (r.exit - 4#16) k.toNat = true) ∨ (loopNow s = none ∧ ∃ c,
      (current s).col = some c ∧ ∃ n,
        n < k.toNat ∧ Memory.readList s.mem (lsKey (if c.inHandler then tid s / 16 else c.head) ((current s).pc + BitVec.ofNat 16 (4 * (n + 1))).toNat) 4 = leBytes 4 0x78000006)) ∧
    admits { ext := true, srcs := [a], literals := cc.toNat < 12 } s = true := by
  refine ⟨columnEnd, 8, 9, 2, 3, 2, 5, false, false, ?_, ?_⟩
  all_goals first | decide | exact .inr ⟨rfl, _, rfl, 0, by decide, by decide⟩

theorem meets_BranchResults_1 :
  ∃ (s s1 s2 : State) (d a : Code) (n : BitVec 4) (sense : Bool) (i : BitVec 26) (j : BitVec 21) (x : Bool) (v : Word), isCopy s = true ∧
    admits {} s = true := by
  refine ⟨columnSt 1 false, columnSt 1 false, columnSt 1 false, 10, 8, 2, true, 4, 4, false, 5, ?_, ?_⟩
  all_goals decide

theorem meets_BranchResults_2 :
  ∃ (s s1 s2 : State) (d a : Code) (n : BitVec 4) (sense : Bool) (i : BitVec 26) (j : BitVec 21) (x : Bool) (v : Word), isCopy s = true ∧
    admits { srcs := [a], dst := some d } s = true := by
  refine ⟨columnSt 1 false, columnSt 1 false, columnSt 1 false, 10, 8, 2, true, 4, 4, false, 5, ?_, ?_⟩
  all_goals decide

theorem meets_BranchResults_3 :
  ∃ (s s1 s2 : State) (d a : Code) (n : BitVec 4) (sense : Bool) (i : BitVec 26) (j : BitVec 21) (x : Bool) (v : Word), isCopy s = false ∧
    admits {} s = true ∧ staysInBody s (branchTarget s i) = true := by
  refine ⟨st, st, st, 10, 8, 2, true, 4, 4, false, 5, ?_, ?_, ?_⟩
  all_goals decide

theorem meets_BranchResults_3b :
  ∃ (s s1 s2 : State) (d a : Code) (n : BitVec 4) (sense : Bool) (i : BitVec 26) (j : BitVec 21) (x : Bool) (v : Word), isCopy s = false ∧
    admits {} s = true ∧ staysInBody s (branchTarget s i) = true := by
  refine ⟨loopOn 0 ring its 0x110, loopOn 0 ring its 0x110, loopOn 0 ring its 0x110, 10, 8, 2, true, 4, 4, false, 5, ?_, ?_, ?_⟩
  all_goals decide

theorem meets_BranchResults_4 :
  ∃ (s s1 s2 : State) (d a : Code) (n : BitVec 4) (sense : Bool) (i : BitVec 26) (j : BitVec 21) (x : Bool) (v : Word), isCopy s = false ∧
    admits {} s = true ∧ (current s).pw.getLsbD n.toNat = !sense ∧ staysInBody s (branchTarget s j) = true := by
  refine ⟨loopOn 0 ring its 0x110, loopOn 0 ring its 0x110, loopOn 0 ring its 0x110, 10, 8, 2, true, 4, 4, false, 5, ?_, ?_, ?_, ?_⟩
  all_goals decide

theorem meets_BranchResults_4b :
  ∃ (s s1 s2 : State) (d a : Code) (n : BitVec 4) (sense : Bool) (i : BitVec 26) (j : BitVec 21) (x : Bool) (v : Word), isCopy s = false ∧
    admits {} s = true ∧ (current s).pw.getLsbD n.toNat = !sense ∧ staysInBody s (branchTarget s j) = true := by
  refine ⟨st, st, st, 10, 8, 0, false, 4, 4, false, 5, ?_, ?_, ?_, ?_⟩
  all_goals decide

theorem meets_BranchResults_5 :
  ∃ (s s1 s2 : State) (d a : Code) (n : BitVec 4) (sense : Bool) (i : BitVec 26) (j : BitVec 21) (x : Bool) (v : Word), isCopy s = false ∧
    admits {} s = true ∧ (current s).pw.getLsbD n.toNat = sense ∧ staysInBody s (branchTarget s j) = true := by
  refine ⟨st, st, st, 10, 8, 0, true, 4, 4, false, 5, ?_, ?_, ?_, ?_⟩
  all_goals decide

theorem meets_BranchResults_6 :
  ∃ (s s1 s2 : State) (d a : Code) (n : BitVec 4) (sense : Bool) (i : BitVec 26) (j : BitVec 21) (x : Bool) (v : Word), isCopy s = false ∧
    admits { srcs := [a], dst := some d } s = true ∧ Reads s a x v s1 ∧ isOffset v = true ∧ staysInBody s1 (v.setWidth 16) = true ∧
    Writes s1 d (((current s1).pc + 4#16).setWidth 64) s2 := by
  refine ⟨machine [(0, user [(8, full 0x200), (10, full 7)])], machine [(0, user [(8, full 0x200), (10, full 7)])],
    after (writeDst 10 0x104) (machine [(0, user [(8, full 0x200), (10, full 7)])]), 10, 8, 2, true, 4, 4, false, 0x200, ?_, ?_, ?_, ?_, ?_, ?_⟩
  all_goals first | decide | exact ⟨[], rfl, fun _ => rfl⟩ | exact ⟨_, rfl, fun _ => rfl⟩

theorem meets_BranchTraps_1 :
  ∃ (s s1 : State) (d a : Code) (n : BitVec 4) (sense : Bool) (i : BitVec 26) (j : BitVec 21) (x : Bool) (v : Word), isCopy s = false ∧
    admits {} s = true ∧ staysInBody s (branchTarget s i) = false := by
  refine ⟨loopOn 0 ring its 0x110, loopOn 0 ring its 0x110, 10, 8, 2, true, 8, 8, false, 5, ?_, ?_, ?_⟩
  all_goals decide

theorem meets_BranchTraps_2 :
  ∃ (s s1 : State) (d a : Code) (n : BitVec 4) (sense : Bool) (i : BitVec 26) (j : BitVec 21) (x : Bool) (v : Word), isCopy s = false ∧
    admits {} s = true ∧ staysInBody s (branchTarget s j) = false := by
  refine ⟨loopOn 0 ring its 0x110, loopOn 0 ring its 0x110, 10, 8, 2, true, 8, -1, false, 5, ?_, ?_, ?_⟩
  all_goals decide

theorem meets_BranchTraps_3 :
  ∃ (s s1 : State) (d a : Code) (n : BitVec 4) (sense : Bool) (i : BitVec 26) (j : BitVec 21) (x : Bool) (v : Word), isCopy s = false ∧
    admits { srcs := [a], dst := some d } s = true ∧ Reads s a x v s1 ∧ isOffset v = false := by
  refine ⟨st, st, 10, 8, 2, true, 8, 8, false, 5, ?_, ?_, ?_, ?_⟩
  all_goals first | decide | exact ⟨[], rfl, fun _ => rfl⟩

theorem meets_BranchTraps_4 :
  ∃ (s s1 : State) (d a : Code) (n : BitVec 4) (sense : Bool) (i : BitVec 26) (j : BitVec 21) (x : Bool) (v : Word), isCopy s = false ∧
    admits { srcs := [a], dst := some d } s = true ∧ Reads s a x v s1 ∧ isOffset v = true ∧ staysInBody s1 (v.setWidth 16) = false := by
  refine ⟨loopOn 0 ring its 0x110, loopOn 0 ring its 0x110, 10, 104, 2, true, 8, 8, false, 0, ?_, ?_, ?_, ?_, ?_⟩
  all_goals first | decide | exact ⟨[], rfl, fun _ => rfl⟩

theorem meets_BranchTraps_5 :
  ∃ (s s1 : State) (d a : Code) (n : BitVec 4) (sense : Bool) (i : BitVec 26) (j : BitVec 21) (x : Bool) (v : Word), isCopy s = false ∧
    admits {} s = true ∧ (current s).col.isSome = true := by
  refine ⟨columnSt 1 true, columnSt 1 true, 10, 8, 2, true, 8, 8, false, 5, ?_, ?_, ?_⟩
  all_goals decide

theorem meets_BranchTraps_6 :
  ∃ (s s1 : State) (d a : Code) (n : BitVec 4) (sense : Bool) (i : BitVec 26) (j : BitVec 21) (x : Bool) (v : Word), isCopy s = false ∧ ∃ it r,
    admits {} s = true ∧ loopNow s = some (it, r) ∧ (current s).depth = r.snap.depth := by
  refine ⟨loopOn 0 ring its 0x110, loopOn 0 ring its 0x110, 10, 8, 2, true, 8, 8, false, 5, ?_,
    { ring := 0, owner := 0, idx := 0, written := [(1, full 11), (2, empty 0)] }, ring, ?_, ?_, ?_⟩
  all_goals decide

theorem meets_BranchTraps_7 :
  ∃ (s s1 : State) (d a : Code) (n : BitVec 4) (sense : Bool) (i : BitVec 26) (j : BitVec 21) (x : Bool) (v : Word), isCopy s = false ∧
    admits {} s = true ∧ (current s).col = none ∧ loopNow s = none ∧ (current s).depth = 0 := by
  refine ⟨st, st, 10, 8, 2, true, 8, 8, false, 5, ?_, ?_, ?_, ?_, ?_⟩
  all_goals decide

theorem meets_CallResult :
  ∃ (s : State) (i : BitVec 26), admits {} s = true ∧ s.occupied (tid s) = true ∧ (current s).col = none ∧ (current s).depth ≠ 2 ^ 32 - 1 ∧
    (current s).resident < 4 ∧ ((current s).sreg 31).full = true := by
  refine ⟨st, 4, ?_, ?_, ?_, ?_, ?_, ?_⟩
  all_goals decide

theorem meets_CallResult_1b :
  ∃ (s : State) (i : BitVec 26), admits {} s = true ∧ s.occupied (tid s) = true ∧ (current s).col = none ∧ (current s).depth ≠ 2 ^ 32 - 1 ∧
    (current s).resident < 4 ∧ ((current s).sreg 31).full = true := by
  refine ⟨loopOn 1 ring its 0x110, -1, ?_, ?_, ?_, ?_, ?_, ?_⟩
  all_goals decide

theorem meets_ReturnResult :
  ∃ (s : State), admits {} s = true ∧ s.occupied (tid s) = true ∧ (current s).col = none ∧ (current s).wbase < (current s).depth ∧
    (∀ it r, loopNow s = some (it, r) → (current s).depth ≠ r.snap.depth) ∧ ((current s).sreg 15).full = true ∧
    isOffset ((current s).sreg 15).val = true := by
  refine ⟨machine [(0, { user [(31, full 0x208)] with depth := 1, spawnWindows := [1] })], ?_, ?_, ?_, ?_, ?_, ?_, ?_⟩
  all_goals repeat' first | decide | simp only [List.mem_singleton, forall_eq] | (intro _ _ h; contradiction)

theorem meets_HintResults :
  ∃ (s : State) (p : BitVec 22) (scope : BitVec 3) (mark : BitVec 2), admits {} s = true := by
  refine ⟨st, 1, 3, 2, ?_⟩
  all_goals decide

/-- Sixteen slots, one by one. -/
theorem upTo16 {P : Nat → Prop} (h : ∀ n : Fin 16, P n) : ∀ n, n < 16 → P n := fun n hn => h ⟨n, hn⟩
/-- Sixteen threads, none parked so. -/
theorem notParked {P : Nat → Status} {p : Park}
    (h : ∀ n : Fin 16, (match P n with | .parked q _ => decide (q = p) | _ => false) = false) : ∀ n, n < 16 → ∀ since, P n ≠ .parked p since :=
  fun n hn since e => by have := h ⟨n, hn⟩; simp [e] at this
/-- Iterations of which the oldest has written v1 and v2. -/
def its2 : List IterCtx :=
  [{ ring := 0, owner := 0, idx := 0, written := [(1, full 11), (2, full 12)] }, { ring := 0, owner := 0, idx := 1 },
    { ring := 0, owner := 0, idx := 2 }]
/-- Doublewords of memory. -/
def mem (ws : List (Nat × Word)) : Memory := ws.foldl (fun m p => Memory.writeList m p.1 (leBytes 8 p.2.toNat)) []
/-- Context 1 on die 0, with a core table of compute cores 0, 1 and 28. -/
def ctx1 : List (Nat × Word) :=
  [(ctxKey 0 1 0, 0x8000000000000001), (ctxKey 0 1 0xA8, 3), (ctxKey 0 1 0xA0, 0x10000), (hbmKey 0 0x10000, 0x8000000000000000),
   (hbmKey 0 0x10008, 0x8000000000000001), (hbmKey 0 0x10010, 0x800000000000001C)]
/-- A thread of context 1. -/
def inCtx (regs : FMap Reg) : Thread := { user regs with ctx := 1 }
def ctxSt (regs : FMap Reg) : State := { threads := [(0, inCtx regs)], mem := mem ctx1 }
/-- A local-store segment of 0x180000 bytes with every right. -/
def sgLs : BitVec 128 := 0x17FFFF40F0000000000000#128
/-- s8 is the address 0x20000 in the local-store segment. -/
def lsTh (regs : FMap Reg) : Thread := { user ((8, full 0x20000) :: regs) with segs := [(0, sgLs)] }
def lsSt (regs : FMap Reg) (m : Memory) : State := { threads := [(0, lsTh regs)], mem := m }
/-- The part of an access there. -/
def lsPart (n : Nat) : Part := { place := .own (lsKey 0 0x20000), len := n, go := false }
/-- A loop may start at 0x100: its body of 7 words ends in IEND. -/
def loopStart : State :=
  { st with cores := [(0, { sids := [(0, 1)] })], mem := Memory.writeList [] (lsKey 0 0x11C) (leBytes 4 0x54000007) }
def spawned : SpawnPacket :=
  { fromCore := 0, fromSlot := 0, src := 0, level := 0, ctx := 1, pc := 0x200, tcb := 0, tcbKey := 0, sid := 1, cid := 0, args := [1, 2, 3, 4] }
def grafted : GraftPacket :=
  { fromCore := 0, fromSlot := 0, ecause := 0, level := 0, inh := false, fflags := 0, rm := 0, ctx := 1, pc := 0x104, epc := 0, uih := 0, pw := 1,
    regs := [0, 1, 2, 3, 4, 5, 6, 7, 8, 9], tcb := 0, tcbKey := 0, sid := 1, wlim := 0, evalue := 0, xfid := 0, cid := 0, uid := 1 }
def seedOf (slot : Option Nat) : SeedPacket :=
  { slot := slot, image := 7, sid := 3, wid := 2, tcb := 0, tcbKey := 0, ctx := 1, cid := 0, carries := true, twin := none }
def image : SeedImage :=
  { entry := 0x40, data := [(0x20000, 5, true)], banks := [(2, 1)], text := [(0x40, 0x74000003)] }
/-- Core 0 may take seeds of context 1. -/
def seedSt (c : Core) : State :=
  { mem := mem ctx1, cores := [(0, c)], dies := [(0, { clpart := [(0, 0x8000000000000000)] })], pkg := { seeds := [(7, image)] } }
def task1 : Task :=
  { die := 0, tcbLin := 0, ctx := 1, part := 0, sid := 3, image := 7, fields := [], next := 0, total := 1, started := 0, returned := [],
    chosen := [], placed := [], created := 1, live := 1 }

theorem meets_LoopStarts :
  ∃ (s : State) (q r : BitVec 3) (a : Code) (o : BitVec 12) (ri : Nat), let me := current s; let k := tid s / 16;
    let exit := me.pc + BitVec.ofNat 16 (4 * o.toNat); admits { literals := 2 ≤ o.toNat && me.pc.toNat + 4 * o.toNat ≤ 0xFFFC } s = true ∧
    s.clock.slot < 16 ∧ s.occupied (tid s) = true ∧ a.toNat < 32 ∧ (me.sreg a.toNat).full = true ∧ me.iter = none ∧ me.col = none ∧
    me.producers = [] ∧ loaded s k me.sid (exit - 4#16) = true ∧ Memory.readList s.mem (lsKey k (exit - 4#16).toNat) 4 = leBytes 4 0x54000007 ∧
    ringFree s k = some ri := by
  refine ⟨loopStart, 2, 1, 8, 8, 0, ?_, ?_, ?_, ?_, ?_, ?_, ?_, ?_, ?_, ?_, ?_⟩
  all_goals decide

theorem meets_LoopStarts_1b :
  ∃ (s : State) (q r : BitVec 3) (a : Code) (o : BitVec 12) (ri : Nat), let me := current s; let k := tid s / 16;
    let exit := me.pc + BitVec.ofNat 16 (4 * o.toNat); admits { literals := 2 ≤ o.toNat && me.pc.toNat + 4 * o.toNat ≤ 0xFFFC } s = true ∧
    s.clock.slot < 16 ∧ s.occupied (tid s) = true ∧ a.toNat < 32 ∧ (me.sreg a.toNat).full = true ∧ me.iter = none ∧ me.col = none ∧
    me.producers = [] ∧ loaded s k me.sid (exit - 4#16) = true ∧ Memory.readList s.mem (lsKey k (exit - 4#16).toNat) 4 = leBytes 4 0x54000007 ∧
    ringFree s k = some ri := by
  refine ⟨{ loopStart with threads := [(0, user [(8, full 0)])] }, 2, 1, 8, 8, 0, ?_, ?_, ?_, ?_, ?_, ?_, ?_, ?_, ?_, ?_, ?_⟩
  all_goals decide

theorem meets_IterationEnds :
  ∃ (s : State) (it : IterCtx) (r : Ring) (leave : Bool), let k := tid s / 16; let oid := tidOf k it.owner; admits {} s = true ∧
    s.clock.slot < 16 ∧ it.owner < 16 ∧ s.occupied (tid s) = true ∧ s.occupied oid = true ∧ (current s).col = none ∧ loopNow s = some (it, r) ∧
    r.owner = it.owner ∧ (current s).depth = r.snap.depth ∧ it.idx = r.oldest ∧ (current s).producers = [] ∧ it.buf = [] ∧
    (∀ n ∈ r.slots, n < 16 ∧ Unregistered s (tidOf k n)) ∧ (∀ n, n < 16 → ∀ o, (s.thread (tidOf k n)).iter = some o → o.trapped = none) ∧
    (∀ n, n < 16 → ∀ since, (s.thread (tidOf k n)).status ≠ .parked .ringSet since) := by
  refine ⟨loopOn 0 ring its2 0x12C, { ring := 0, owner := 0, idx := 0, written := [(1, full 11), (2, full 12)] }, ring, false, ?_, ?_, ?_, ?_, ?_,
    ?_, ?_, ?_, ?_, ?_, ?_, ?_, ?_, ?_, ?_⟩
  all_goals first | decide | (unfold Unregistered; decide) | (refine notParked ?_; decide)

theorem meets_IterationEnds_1b :
  ∃ (s : State) (it : IterCtx) (r : Ring) (leave : Bool), let k := tid s / 16; let oid := tidOf k it.owner; admits {} s = true ∧
    s.clock.slot < 16 ∧ it.owner < 16 ∧ s.occupied (tid s) = true ∧ s.occupied oid = true ∧ (current s).col = none ∧ loopNow s = some (it, r) ∧
    r.owner = it.owner ∧ (current s).depth = r.snap.depth ∧ it.idx = r.oldest ∧ (current s).producers = [] ∧ it.buf = [] ∧
    (∀ n ∈ r.slots, n < 16 ∧ Unregistered s (tidOf k n)) ∧ (∀ n, n < 16 → ∀ o, (s.thread (tidOf k n)).iter = some o → o.trapped = none) ∧
    (∀ n, n < 16 → ∀ since, (s.thread (tidOf k n)).status ≠ .parked .ringSet since) := by
  refine ⟨loopOn 0 ring its2 0x12C, { ring := 0, owner := 0, idx := 0, written := [(1, full 11), (2, full 12)] }, ring, true, ?_, ?_, ?_, ?_, ?_, ?_,
    ?_, ?_, ?_, ?_, ?_, ?_, ?_, ?_, ?_⟩
  all_goals first | decide | (unfold Unregistered; decide) | (refine notParked ?_; decide)

theorem meets_IterationEnds_1c :
  ∃ (s : State) (it : IterCtx) (r : Ring) (leave : Bool), let k := tid s / 16; let oid := tidOf k it.owner; admits {} s = true ∧
    s.clock.slot < 16 ∧ it.owner < 16 ∧ s.occupied (tid s) = true ∧ s.occupied oid = true ∧ (current s).col = none ∧ loopNow s = some (it, r) ∧
    r.owner = it.owner ∧ (current s).depth = r.snap.depth ∧ it.idx = r.oldest ∧ (current s).producers = [] ∧ it.buf = [] ∧
    (∀ n ∈ r.slots, n < 16 ∧ Unregistered s (tidOf k n)) ∧ (∀ n, n < 16 → ∀ o, (s.thread (tidOf k n)).iter = some o → o.trapped = none) ∧
    (∀ n, n < 16 → ∀ since, (s.thread (tidOf k n)).status ≠ .parked .ringSet since) := by
  refine ⟨loopOn 0 { ring with n := 1 } [{ ring := 0, owner := 0, idx := 0, written := [(1, full 11)] }] 0x12C,
    { ring := 0, owner := 0, idx := 0, written := [(1, full 11)] }, { ring with n := 1 }, false, ?_, ?_, ?_, ?_, ?_, ?_, ?_, ?_, ?_, ?_, ?_, ?_, ?_,
      ?_, ?_⟩
  all_goals repeat' first | decide | (unfold Unregistered; decide) | simp only [List.mem_singleton, forall_eq] | (refine notParked ?_; decide)

theorem meets_IterationNesting :
  ∃ (s : State), admits {} s = true ∧ ((current s).col.isSome = true ∨ loopNow s = none) := by
  refine ⟨st, ?_, ?_⟩
  all_goals decide

theorem meets_IterationNesting_1b :
  ∃ (s : State), admits {} s = true ∧ ((current s).col.isSome = true ∨ loopNow s = none) := by
  refine ⟨columnSt 0 false, ?_, ?_⟩
  all_goals decide

theorem meets_YieldResult_1 :
  ∃ (s : State), admits {} s = true ∧ (current s).col.isSome = true := by
  refine ⟨columnSt 0 false, ?_, ?_⟩
  all_goals decide

theorem meets_YieldResult_2 :
  ∃ (s : State), admits {} s = true ∧ (current s).col = none ∧ s.clock.slot < 16 := by
  refine ⟨{ st with clock := { now := 37 } }, ?_, ?_, ?_⟩
  all_goals decide

theorem meets_YieldResult_2b :
  ∃ (s : State), admits {} s = true ∧ (current s).col = none ∧ s.clock.slot < 16 := by
  refine ⟨{ st with clock := { now := 16 } }, ?_, ?_, ?_⟩
  all_goals decide

theorem meets_DoneResult_1 :
  ∃ (s : State), admits {} s = true ∧ (current s).iter = none ∧ (current s).col = none ∧
    (current s).spawnWindows.contains (current s).depth = false ∧ accessesDone s ∧ FMap.get? s.pkg.tasks (current s).tcbKey = none ∧
    (current s).monitors = [] ∧ Unregistered s (tid s) := by
  refine ⟨st, ?_, ?_, ?_, ?_, ?_, ?_, ?_, ?_⟩
  all_goals first | decide | exact ⟨[], rfl, fun _ => rfl⟩ | (unfold Unregistered; decide)

theorem meets_DoneResult_2 :
  ∃ (s : State),
    admits {} s = true ∧ (current s).iter = none ∧ (current s).col = none ∧ (current s).spawnWindows.contains (current s).depth = true := by
  refine ⟨machine [(0, { user [(31, full 0x208), (8 + 16 + 7, full 0x208)] with depth := 1, spawnWindows := [1] })], ?_, ?_, ?_, ?_⟩
  all_goals decide

theorem meets_GraftResult_1 :
  ∃ (s s1 : State) (a : Code) (x : Bool) (v : Word) (c : Nat), admits { srcs := [a] } s = true ∧ (current s).iter = none ∧ (current s).col = none ∧
    (current s).twin = none ∧ Reads s a x v s1 ∧ Names s1 v c ∧ s1.clock.slot < 16 ∧ levelAllows (current s1).level s1.clock.core c = true ∧
    c = s1.clock.core ∧ drained (current s1) = true := by
  refine ⟨ctxSt [(8, full 0)], ctxSt [(8, full 0)], 8, false, 0, 0, ?_, ?_, ?_, ?_, ?_, ?_, ?_, ?_, ?_, ?_⟩
  all_goals first | decide | exact ⟨[], rfl, fun _ => rfl⟩ | exact ⟨[], rfl, fun _ => by cbv⟩

theorem meets_GraftResult_2 :
  ∃ (s s1 : State) (a : Code) (x : Bool) (v : Word) (c : Nat), admits { srcs := [a] } s = true ∧ (current s).iter = none ∧ (current s).col = none ∧
    (current s).twin = none ∧ Reads s a x v s1 ∧ Names s1 v c ∧ s1.clock.slot < 16 ∧ levelAllows (current s1).level s1.clock.core c = true ∧
    c ≠ s1.clock.core ∧ drained (current s1) = true ∧ (s1.coreOf c).isSealed = false ∧ (current s1).monitors = [] ∧ s1.occupied (tid s1) = true := by
  refine ⟨ctxSt [(8, full 1)], ctxSt [(8, full 1)], 8, false, 1, 1, ?_, ?_, ?_, ?_, ?_, ?_, ?_, ?_, ?_, ?_, ?_, ?_, ?_⟩
  all_goals first | decide | exact ⟨[], rfl, fun _ => rfl⟩ | exact ⟨[], rfl, fun _ => by cbv⟩

theorem meets_GraftResult_2b :
  ∃ (s s1 : State) (a : Code) (x : Bool) (v : Word) (c : Nat), admits { srcs := [a] } s = true ∧ (current s).iter = none ∧ (current s).col = none ∧
    (current s).twin = none ∧ Reads s a x v s1 ∧ Names s1 v c ∧ s1.clock.slot < 16 ∧ levelAllows (current s1).level s1.clock.core c = true ∧
    c ≠ s1.clock.core ∧ drained (current s1) = true ∧ (s1.coreOf c).isSealed = false ∧ (current s1).monitors = [] ∧ s1.occupied (tid s1) = true := by
  refine ⟨ctxSt [(8, full 2)], ctxSt [(8, full 2)], 8, false, 2, 28, ?_, ?_, ?_, ?_, ?_, ?_, ?_, ?_, ?_, ?_, ?_, ?_, ?_⟩
  all_goals first | decide | exact ⟨[], rfl, fun _ => rfl⟩ | exact ⟨[], rfl, fun _ => by cbv⟩

theorem meets_SpawnResult :
  ∃ (s s1 s2 : State) (a b : Code) (x y : Bool) (va vb : Word) (c : Nat), admits { srcs := [a, b] } s = true ∧ (current s).mwaitToken ≠ 2 ∧
    (current s).col = none ∧ (owner s).twin = none ∧ Reads s a x va s1 ∧ Reads s1 b y vb s2 ∧ Names s2 va c ∧
    levelAllows (owner s2).level s2.clock.core c = true ∧ isOffset vb = true ∧ oldestOrOutside s2 ∧ Performs awaitAll s2 () s2 ∧
    (∀ i, i < 8 → ((current s2).sreg (24 + i)).full = true) ∧ s2.occupied (tid s2) = true ∧ s2.clock.slot < 16 := by
  refine ⟨ctxSt [(8, full 1), (9, full 0x200)], ctxSt [(8, full 1), (9, full 0x200)], ctxSt [(8, full 1), (9, full 0x200)], 8, 9, false, false, 1,
    0x200, 1, ?_, ?_, ?_, ?_, ?_, ?_, ?_, ?_, ?_, ?_, ?_, ?_, ?_, ?_⟩
  all_goals first | decide | exact ⟨[], rfl, fun _ => rfl⟩ | exact ⟨[], rfl, fun _ => by cbv⟩ | (intro _ _ h; contradiction)

theorem meets_SpawnResult_1b :
  ∃ (s s1 s2 : State) (a b : Code) (x y : Bool) (va vb : Word) (c : Nat), admits { srcs := [a, b] } s = true ∧ (current s).mwaitToken ≠ 2 ∧
    (current s).col = none ∧ (owner s).twin = none ∧ Reads s a x va s1 ∧ Reads s1 b y vb s2 ∧ Names s2 va c ∧
    levelAllows (owner s2).level s2.clock.core c = true ∧ isOffset vb = true ∧ oldestOrOutside s2 ∧ Performs awaitAll s2 () s2 ∧
    (∀ i, i < 8 → ((current s2).sreg (24 + i)).full = true) ∧ s2.occupied (tid s2) = true ∧ s2.clock.slot < 16 := by
  refine ⟨ctxSt [(8, full 0), (9, full 0x200)], ctxSt [(8, full 0), (9, full 0x200)], ctxSt [(8, full 0), (9, full 0x200)], 8, 9, false, false, 0,
    0x200, 0, ?_, ?_, ?_, ?_, ?_, ?_, ?_, ?_, ?_, ?_, ?_, ?_, ?_, ?_⟩
  all_goals first | decide | exact ⟨[], rfl, fun _ => rfl⟩ | exact ⟨[], rfl, fun _ => by cbv⟩ | (intro _ _ h; contradiction)

theorem meets_WorkFieldResult :
  ∃ (s s1 s2 s3 : State) (d a b : Code) (x y : Bool) (va vb : Word) (f : WorkField) (before after : List WorkField),
    admits { srcs := [a, b], dst := some d } s = true ∧ Reads s a x va s1 ∧ Reads s1 b y vb s2 ∧ (owner s2).sid ≠ 0 ∧
    ((s2.coreOf s2.clock.core).sids.any fun p => p.2 = (owner s2).sid) = true ∧ FMap.get [] s2.pkg.layoutOf (owner s2).sid = before ++ f :: after ∧
    vb.toNat = before.length ∧
    Writes s2 d (BitVec.ofNat 64 (if f.grain = 5 then (((current s2).iter.map (·.idx)).getD 0) % 2 ^ f.width else va.toNat / 2 ^ (after.map (·.width)).sum % 2 ^ f.width)) s3 := by
  refine ⟨{ st with cores := [(0, { sids := [(0, 1)] })], pkg := { layoutOf := [(1, [⟨4, 0, 16⟩, ⟨3, 1, 8⟩, ⟨2, 4, 4⟩])] } },
    { st with cores := [(0, { sids := [(0, 1)] })], pkg := { layoutOf := [(1, [⟨4, 0, 16⟩, ⟨3, 1, 8⟩, ⟨2, 4, 4⟩])] } },
      { st with cores := [(0, { sids := [(0, 1)] })], pkg := { layoutOf := [(1, [⟨4, 0, 16⟩, ⟨3, 1, 8⟩, ⟨2, 4, 4⟩])] } },
        Sys2Proof.Tests.after (writeDst 10 0) { st with cores := [(0, { sids := [(0, 1)] })], pkg := { layoutOf := [(1, [⟨4, 0, 16⟩, ⟨3, 1, 8⟩, ⟨2, 4, 4⟩])] } }, 10, 9, 104, false, false, 3, 0, ⟨4, 0, 16⟩, [], [⟨3, 1, 8⟩, ⟨2, 4, 4⟩], ?_, ?_, ?_, ?_, ?_, ?_, ?_, ?_⟩
  all_goals first | decide | exact ⟨[], rfl, fun _ => rfl⟩ | exact ⟨_, rfl, fun _ => rfl⟩

theorem meets_SpawnArrival_1 :
  ∃ (s : State) (k : Nat) (p : SpawnPacket), p.args.length = 4 ∧ s.occupied (tidOf p.fromCore p.fromSlot) = true ∧
    FMap.get? s.pkg.tasks p.tcbKey = none ∧ ctxValid s (dieOf k) p.ctx = true ∧ ∃ slot, takingSlot s k p.ctx = some slot ∧ p.pc = pcNorm p.pc := by
  refine ⟨ctxSt [], 0, spawned, ?_, ?_, ?_, ?_, 1, ?_, ?_⟩
  all_goals decide

theorem meets_SpawnArrival_1b :
  ∃ (s : State) (k : Nat) (p : SpawnPacket), p.args.length = 4 ∧ s.occupied (tidOf p.fromCore p.fromSlot) = true ∧
    FMap.get? s.pkg.tasks p.tcbKey = none ∧ ctxValid s (dieOf k) p.ctx = true ∧ ∃ slot, takingSlot s k p.ctx = some slot ∧ p.pc = pcNorm p.pc := by
  refine ⟨ctxSt [], 1, spawned, ?_, ?_, ?_, ?_, 0, ?_, ?_⟩
  all_goals decide

theorem meets_SpawnArrival_2 :
  ∃ (s : State) (k : Nat) (p : SpawnPacket), p.args.length = 4 ∧ s.occupied (tidOf p.fromCore p.fromSlot) = true ∧
    FMap.get? s.pkg.tasks p.tcbKey = none ∧ ctxValid s (dieOf k) p.ctx = true ∧ takingSlot s k p.ctx = none := by
  refine ⟨{ ctxSt [] with cores := [(0, { graftq := [grafted] })] }, 0, spawned, ?_, ?_, ?_, ?_, ?_⟩
  all_goals decide

theorem meets_SpawnReply :
  ∃ (s : State) (k t : Nat) (since : Option Nat),
    let id := tidOf k t; let h := s.thread id; s.occupied id = true ∧ h.status = .parked .spawn since := by
  refine ⟨machine [(0, { user [] with status := .parked .spawn none })], 0, 0, none, ?_, ?_⟩
  all_goals decide

theorem meets_GraftArrival_1 :
  ∃ (s : State) (k : Nat) (p : GraftPacket), s.occupied (tidOf p.fromCore p.fromSlot) = true ∧ (s.coreOf k).isSealed = false ∧
    leaving s p.ctx k = false ∧ ctxValid s (dieOf k) p.ctx = true ∧ p.uid ≠ 0 ∧ p.regs.length = 10 ∧ ∃ slot, (s.coreOf k).graftq = [] ∧
    (emptySlots s k).head? = some slot := by
  refine ⟨ctxSt [], 1, grafted, ?_, ?_, ?_, ?_, ?_, ?_, 0, ?_, ?_⟩
  all_goals decide

theorem meets_GraftArrival_2 :
  ∃ (s : State) (k : Nat) (p : GraftPacket), s.occupied (tidOf p.fromCore p.fromSlot) = true ∧ (s.coreOf k).isSealed = false ∧
    leaving s p.ctx k = false ∧ ctxValid s (dieOf k) p.ctx = true ∧ p.uid ≠ 0 ∧ p.regs.length = 10 ∧
    ((s.coreOf k).graftq ≠ [] ∨ emptySlots s k = []) ∧ (s.coreOf k).graftq.length < 8 := by
  refine ⟨{ ctxSt [] with cores := [(1, { graftq := [grafted] })] }, 1, grafted, ?_, ?_, ?_, ?_, ?_, ?_, ?_, ?_⟩
  all_goals decide

theorem meets_GraftArrival_3 :
  ∃ (s : State) (k : Nat) (p : GraftPacket), s.occupied (tidOf p.fromCore p.fromSlot) = true ∧ (s.coreOf k).isSealed = false ∧
    leaving s p.ctx k = false ∧ ctxValid s (dieOf k) p.ctx = true ∧ p.uid ≠ 0 ∧ p.regs.length = 10 ∧ 8 ≤ (s.coreOf k).graftq.length := by
  refine ⟨{ ctxSt [] with cores := [(1, { graftq := List.replicate 8 grafted })] }, 1, grafted, ?_, ?_, ?_, ?_, ?_, ?_, ?_⟩
  all_goals decide

theorem meets_GraftHandshake_1 :
  ∃ (s : State) (k t dst : Nat) (since : Option Nat), ∃ p q slot, (s.coreOf k).graftq = p :: q ∧ (emptySlots s k).head? = some slot ∧
    ctxValid s (dieOf k) p.ctx = true ∧ p.uid ≠ 0 ∧ p.regs.length = 10 := by
  refine ⟨{ ctxSt [] with cores := [(0, { graftq := [grafted] })] }, 0, 0, 1, none, grafted, [], 1, ?_, ?_, ?_, ?_, ?_⟩
  all_goals decide

theorem meets_GraftHandshake_2 :
  ∃ (s : State) (k t dst : Nat) (since : Option Nat), (s.thread (tidOf k t)).status = .parked .graft since ∧ (s.thread (tidOf k t)).pend.xc = [] := by
  refine ⟨machine [(0, { inCtx [] with status := .parked .graft none, graftTo := 1, graftPc := 0x104 })], 0, 0, 1, none, ?_, ?_⟩
  all_goals decide

theorem meets_GraftHandshake_3 :
  ∃ (s : State) (k t dst : Nat) (since : Option Nat),
    (s.thread (tidOf k t)).status = .parked .graft since ∧ (s.thread (tidOf k t)).graftTo < 2 ^ 13 := by
  refine ⟨machine [(0, { inCtx [] with status := .parked .graft none, graftTo := 1, graftPc := 0x104 })], 0, 0, 1, none, ?_, ?_⟩
  all_goals decide

theorem meets_SeedArrival_1 :
  ∃ (s s1 : State) (k : Nat) (p : SeedPacket) (im : SeedImage), takesSeed s k p.ctx = true ∧ FMap.get? s.pkg.seeds p.image = some im ∧
    (if p.carries then Performs (placeSeed k p.sid im) s () s1 else s1 = s) ∧ p.twin = none ∧ FMap.get? s1.pkg.tasks p.tcbKey = none ∧
    ctxValid s1 (dieOf k) p.ctx = true ∧ ∃ slot,
    (match p.slot with | some t => if (openSlots s1 k).contains t then some t else none | none => (openSlots s1 k).head?) = some slot := by
  refine ⟨seedSt {}, Sys2Proof.Tests.after (placeSeed 0 3 image) (seedSt {}), 0, seedOf none, image, ?_, ?_, ?_, ?_, ?_, ?_, 0, ?_⟩
  all_goals first | decide | exact ⟨_, rfl, fun _ => rfl⟩

theorem meets_SeedArrival_1b :
  ∃ (s s1 : State) (k : Nat) (p : SeedPacket) (im : SeedImage), takesSeed s k p.ctx = true ∧ FMap.get? s.pkg.seeds p.image = some im ∧
    (if p.carries then Performs (placeSeed k p.sid im) s () s1 else s1 = s) ∧ p.twin = none ∧ FMap.get? s1.pkg.tasks p.tcbKey = none ∧
    ctxValid s1 (dieOf k) p.ctx = true ∧ ∃ slot,
    (match p.slot with | some t => if (openSlots s1 k).contains t then some t else none | none => (openSlots s1 k).head?) = some slot := by
  refine ⟨seedSt {}, Sys2Proof.Tests.after (placeSeed 0 3 image) (seedSt {}), 0, seedOf (some 5), image, ?_, ?_, ?_, ?_, ?_, ?_, 5, ?_⟩
  all_goals first | decide | exact ⟨_, rfl, fun _ => rfl⟩

theorem meets_SeedArrival_2 :
  ∃ (s s1 : State) (k : Nat) (p : SeedPacket) (im : SeedImage), takesSeed s k p.ctx = true ∧ FMap.get? s.pkg.seeds p.image = some im ∧
    (if p.carries then Performs (placeSeed k p.sid im) s () s1 else s1 = s) ∧ p.twin = none ∧ FMap.get? s1.pkg.tasks p.tcbKey = none ∧
    ctxValid s1 (dieOf k) p.ctx = true ∧
    (match p.slot with | some t => if (openSlots s1 k).contains t then some t else none | none => (openSlots s1 k).head?) = none := by
  refine ⟨seedSt { graftq := [grafted] }, Sys2Proof.Tests.after (placeSeed 0 3 image) (seedSt { graftq := [grafted] }), 0, seedOf none, image, ?_,
    ?_, ?_, ?_, ?_, ?_, ?_⟩
  all_goals first | decide | exact ⟨_, rfl, fun _ => rfl⟩

theorem meets_SeedHandling :
  ∃ (s : State) (k : Nat) (p : SeedPacket) (t : Task) (f : FrameText), FMap.get? s.pkg.tasks p.tcbKey = some t := by
  refine ⟨{ seedSt {} with pkg := { tasks := [(0, task1)] } }, 0, seedOf none, task1, ⟨33, 3, [0x74000003, 0x74000002]⟩, ?_⟩
  all_goals decide

theorem meets_WaitLimit_1 :
  ∃ (s : State) (k t n : Nat), let h := s.thread (tidOf k t);
    (h.status = .waiting (some n) ∨ h.status = .parked .registered (some n) ∧ h.asking = false) ∧ t < 16 ∧ h.expecting = false := by
  refine ⟨machine [(0, { user [] with status := .waiting (some 12) })], 0, 0, 12, ?_, ?_, ?_⟩
  all_goals decide

theorem meets_WaitLimit_1b :
  ∃ (s : State) (k t n : Nat), let h := s.thread (tidOf k t);
    (h.status = .waiting (some n) ∨ h.status = .parked .registered (some n) ∧ h.asking = false) ∧ t < 16 ∧ h.expecting = false := by
  refine ⟨machine [(0, { user [] with status := .parked .registered (some 12), uctl := 0x1000000000 })], 0, 0, 12, ?_, ?_, ?_⟩
  all_goals decide

theorem meets_WaitLimit_2 :
  ∃ (s : State) (k t n : Nat), let h := s.thread (tidOf k t);
    (h.status = .waiting (some n) ∨ h.status = .parked .registered (some n) ∧ h.asking = false) ∧ t < 16 ∧ h.expecting = true := by
  refine ⟨machine [(0,
    { user [] with status := .waiting (some 12), producers := [(3, { dest := .reg 10, value := 9, away := some { ea := 0, fn := 6, asked := [(4, 0)], epc := 0x100 } })] })], 0, 0, 12, ?_, ?_, ?_⟩
  all_goals decide

theorem meets_WaitLimit_3 :
  ∃ (s : State) (k t n : Nat), let h := s.thread (tidOf k t); h.status = .parked .registered (some n) ∧ h.asking = true := by
  refine ⟨machine [(0, { user [] with status := .parked .registered (some 12), gatherAt := [(5, 1)] })], 0, 0, 12, ?_, ?_⟩
  all_goals decide

theorem meets_WaitLimit_4 :
  ∃ (s : State) (k t n : Nat), let h := s.thread (tidOf k t); h.status ≠ .waiting (some n) ∧ h.status ≠ .parked .registered (some n) := by
  refine ⟨machine [(0, { user [] with status := .waiting (some 13) })], 0, 0, 12, ?_, ?_⟩
  all_goals decide

theorem meets_SegmentStage_1 :
  ∃ (s : State) (ea : Word) (size : Nat) (need : Need), 0 < size ∧ size ≤ 8 ∧ let sg := FMap.get 0 (owner s).segs (bits ea 63 61);
    let off := bits ea 47 0; let a := (segBase sg + off) % 2 ^ 48; let formOk := bits ea 60 48 = 0; let limitOk := off + size - 1 ≤ segLimit sg;
    let rightsOk := (need.rd = true → sg.getLsbD 52 = true) ∧ (need.wr = true → sg.getLsbD 53 = true) ∧ (need.at_ = true → sg.getLsbD 55 = true) ∧ (need.writes = true → segKind sg = 1 → a < 0x10000 → sg.getLsbD 54 = true);
    formOk ∧ segKind sg = 1 ∧ limitOk ∧ rightsOk ∧ a + size - 1 < lsSize s.clock.core ∧ size ≤ 8 - ea.toNat % 8 := by
  refine ⟨lsSt [] [], 0x17FFF8, 8, Need.atomic, ?_, ?_, ?_, ?_, ?_, ?_, ?_, ?_⟩
  all_goals decide

theorem meets_SegmentStage_1b :
  ∃ (s : State) (ea : Word) (size : Nat) (need : Need), 0 < size ∧ size ≤ 8 ∧ let sg := FMap.get 0 (owner s).segs (bits ea 63 61);
    let off := bits ea 47 0; let a := (segBase sg + off) % 2 ^ 48; let formOk := bits ea 60 48 = 0; let limitOk := off + size - 1 ≤ segLimit sg;
    let rightsOk := (need.rd = true → sg.getLsbD 52 = true) ∧ (need.wr = true → sg.getLsbD 53 = true) ∧ (need.at_ = true → sg.getLsbD 55 = true) ∧ (need.writes = true → segKind sg = 1 → a < 0x10000 → sg.getLsbD 54 = true);
    formOk ∧ segKind sg = 1 ∧ limitOk ∧ rightsOk ∧ a + size - 1 < lsSize s.clock.core ∧ size ≤ 8 - ea.toNat % 8 := by
  refine ⟨lsSt [] [], 0x10000, 1, Need.store, ?_, ?_, ?_, ?_, ?_, ?_, ?_, ?_⟩
  all_goals decide

theorem meets_SegmentStage_2 :
  ∃ (s : State) (ea : Word) (size : Nat) (need : Need), 0 < size ∧ size ≤ 8 ∧ let formOk := bits ea 60 48 = 0; ¬formOk := by
  refine ⟨lsSt [] [], 0x1000000000000, 8, Need.atomic, ?_, ?_, ?_⟩
  all_goals decide

theorem meets_SegmentStage_3 :
  ∃ (s : State) (ea : Word) (size : Nat) (need : Need), 0 < size ∧ size ≤ 8 ∧ let sg := FMap.get 0 (owner s).segs (bits ea 63 61);
    let formOk := bits ea 60 48 = 0; let kindOk := segKind sg = 1 ∨ segKind sg = 2; formOk ∧ ¬kindOk := by
  refine ⟨lsSt [] [], 0xE000000000000000, 8, Need.atomic, ?_, ?_, ?_, ?_⟩
  all_goals decide

theorem meets_SegmentStage_4 :
  ∃ (s : State) (ea : Word) (size : Nat) (need : Need), 0 < size ∧ size ≤ 8 ∧ let sg := FMap.get 0 (owner s).segs (bits ea 63 61);
    let off := bits ea 47 0; let formOk := bits ea 60 48 = 0; let kindOk := segKind sg = 1 ∨ segKind sg = 2;
    let limitOk := off + size - 1 ≤ segLimit sg; formOk ∧ kindOk ∧ ¬limitOk := by
  refine ⟨lsSt [] [], 0x17FFF9, 8, Need.atomic, ?_, ?_, ?_, ?_, ?_⟩
  all_goals decide

theorem meets_SegmentStage_5 :
  ∃ (s : State) (ea : Word) (size : Nat) (need : Need), 0 < size ∧ size ≤ 8 ∧ let sg := FMap.get 0 (owner s).segs (bits ea 63 61);
    let off := bits ea 47 0; let a := (segBase sg + off) % 2 ^ 48; let formOk := bits ea 60 48 = 0; let kindOk := segKind sg = 1 ∨ segKind sg = 2;
    let limitOk := off + size - 1 ≤ segLimit sg;
    let rightsOk := (need.rd = true → sg.getLsbD 52 = true) ∧ (need.wr = true → sg.getLsbD 53 = true) ∧ (need.at_ = true → sg.getLsbD 55 = true) ∧ (need.writes = true → segKind sg = 1 → a < 0x10000 → sg.getLsbD 54 = true);
    formOk ∧ kindOk ∧ limitOk ∧ ¬rightsOk := by
  refine ⟨{ threads := [(0, { lsTh [] with segs := [(0, 0x17FFFF4050000000000000#128)] })] }, 0x20000, 8, Need.store, ?_, ?_, ?_, ?_, ?_, ?_⟩
  all_goals decide

theorem meets_SegmentStage_5b :
  ∃ (s : State) (ea : Word) (size : Nat) (need : Need), 0 < size ∧ size ≤ 8 ∧ let sg := FMap.get 0 (owner s).segs (bits ea 63 61);
    let off := bits ea 47 0; let a := (segBase sg + off) % 2 ^ 48; let formOk := bits ea 60 48 = 0; let kindOk := segKind sg = 1 ∨ segKind sg = 2;
    let limitOk := off + size - 1 ≤ segLimit sg;
    let rightsOk := (need.rd = true → sg.getLsbD 52 = true) ∧ (need.wr = true → sg.getLsbD 53 = true) ∧ (need.at_ = true → sg.getLsbD 55 = true) ∧ (need.writes = true → segKind sg = 1 → a < 0x10000 → sg.getLsbD 54 = true);
    formOk ∧ kindOk ∧ limitOk ∧ ¬rightsOk := by
  refine ⟨{ threads := [(0, { lsTh [] with segs := [(0, 0x17FFFF40B0000000000000#128)] })] }, 0xFFF8, 8, Need.store, ?_, ?_, ?_, ?_, ?_, ?_⟩
  all_goals decide

theorem meets_SegmentStage_6 :
  ∃ (s : State) (ea : Word) (size : Nat) (need : Need), 0 < size ∧ size ≤ 8 ∧ let sg := FMap.get 0 (owner s).segs (bits ea 63 61);
    let off := bits ea 47 0; let a := (segBase sg + off) % 2 ^ 48; let formOk := bits ea 60 48 = 0; let limitOk := off + size - 1 ≤ segLimit sg;
    let rightsOk := (need.rd = true → sg.getLsbD 52 = true) ∧ (need.wr = true → sg.getLsbD 53 = true) ∧ (need.at_ = true → sg.getLsbD 55 = true) ∧ (need.writes = true → segKind sg = 1 → a < 0x10000 → sg.getLsbD 54 = true);
    formOk ∧ segKind sg = 1 ∧ limitOk ∧ rightsOk ∧ lsSize s.clock.core ≤ a + size - 1 := by
  refine ⟨{ threads := [(0, { lsTh [] with segs := [(0, 0xFFFFFF40F0000000000000#128)] })] }, 0x17FFFF, 8, Need.atomic, ?_, ?_, ?_, ?_, ?_, ?_, ?_⟩
  all_goals decide

theorem meets_FullEmptyWaits_1 :
  ∃ (s s1 s2 u : State) (d b : Code) (i : BitVec 9) (v vb : Word) (p : Part) (dest : Dest), let ea1 := vb + immediateOf (current s1).bound i * 8;
    let ready (u : State) : Prop := oldestOrOutside u ∧ plainPlace p.place = true ∧ p.go = false ∧ notOutbound u [p] ∧ Performs (awaitCuts p) u () u ∧ u.occupied (tid u) = true ∧ u.clock.slot < 16;
    ∃ kind : AccessKind, (kind = .ldf ∨ kind = .ldff) ∧ admits { ext := true, dst := some d, base := some b } s = true ∧ Takes s d dest ∧
    Reads s b false vb s1 ∧ roomFor s1 (if kind = .ldf then 2 else 1) ∧ FullEmptyAt s1 ea1 .tagged p u ∧ ready u ∧ u.fullAt (keyOfPart p) = false ∧
    (current u).col = none := by
  refine ⟨{ lsSt [(10, full 7)] [] with empties := [lsKey 0 0x20000] }, { lsSt [(10, full 7)] [] with empties := [lsKey 0 0x20000] },
    { lsSt [(10, full 7)] [] with empties := [lsKey 0 0x20000] }, { lsSt [(10, full 7)] [] with empties := [lsKey 0 0x20000] }, 10, 8, 0, 7, 0x20000,
      lsPart 8, .reg 10, .ldf, ?_, ?_, ?_, ?_, ?_, ?_, ?_, ?_, ?_⟩
  all_goals repeat' first
    | decide | exact ⟨[], rfl, fun _ => rfl⟩ | exact ⟨[], rfl, fun _ => by cbv⟩ | exact .inl rfl | apply And.intro
    | simp only [List.mem_singleton, forall_eq] | (intro _ _ h; contradiction)

theorem meets_FullEmptyWaits_1b :
  ∃ (s s1 s2 u : State) (d b : Code) (i : BitVec 9) (v vb : Word) (p : Part) (dest : Dest), let ea1 := vb + immediateOf (current s1).bound i * 8;
    let ready (u : State) : Prop := oldestOrOutside u ∧ plainPlace p.place = true ∧ p.go = false ∧ notOutbound u [p] ∧ Performs (awaitCuts p) u () u ∧ u.occupied (tid u) = true ∧ u.clock.slot < 16;
    ∃ kind : AccessKind, (kind = .ldf ∨ kind = .ldff) ∧ admits { ext := true, dst := some d, base := some b } s = true ∧ Takes s d dest ∧
    Reads s b false vb s1 ∧ roomFor s1 (if kind = .ldf then 2 else 1) ∧ FullEmptyAt s1 ea1 .tagged p u ∧ ready u ∧ u.fullAt (keyOfPart p) = false ∧
    (current u).col = none := by
  refine ⟨{ lsSt [(10, full 7)] [] with empties := [lsKey 0 0x20000] }, { lsSt [(10, full 7)] [] with empties := [lsKey 0 0x20000] },
    { lsSt [(10, full 7)] [] with empties := [lsKey 0 0x20000] }, { lsSt [(10, full 7)] [] with empties := [lsKey 0 0x20000] }, 10, 8, 0, 7, 0x20000,
      lsPart 8, .reg 10, .ldff, ?_, ?_, ?_, ?_, ?_, ?_, ?_, ?_, ?_⟩
  all_goals repeat' first
    | decide | exact ⟨[], rfl, fun _ => rfl⟩ | exact ⟨[], rfl, fun _ => by cbv⟩ | exact .inl rfl | apply And.intro
    | simp only [List.mem_singleton, forall_eq] | (intro _ _ h; contradiction)

theorem meets_FullEmptyWaits_2 :
  ∃ (s s1 s2 u : State) (d b : Code) (i : BitVec 9) (v vb : Word) (p : Part) (dest : Dest), let ea1 := vb + immediateOf (current s1).bound i * 8;
    let ready (u : State) : Prop := oldestOrOutside u ∧ plainPlace p.place = true ∧ p.go = false ∧ notOutbound u [p] ∧ Performs (awaitCuts p) u () u ∧ u.occupied (tid u) = true ∧ u.clock.slot < 16;
    ∃ kind : AccessKind, (kind = .ldf ∨ kind = .ldff) ∧ admits { ext := true, dst := some d, base := some b } s = true ∧ Takes s d dest ∧
    Reads s b false vb s1 ∧ roomFor s1 (if kind = .ldf then 2 else 1) ∧ FullEmptyAt s1 ea1 .tagged p u ∧ ready u ∧ u.fullAt (keyOfPart p) = false ∧
    (current u).col.isSome = true := by
  refine ⟨{ lsSt [(10, full 7)] [] with empties := [lsKey 0 0x20000], threads := [(0, { lsTh [(10, full 7)] with col := some { head := 0, j := 0, idx := 0, inHandler := true } })] }, { lsSt [(10, full 7)] [] with empties := [lsKey 0 0x20000], threads := [(0, { lsTh [(10, full 7)] with col := some { head := 0, j := 0, idx := 0, inHandler := true } })] }, { lsSt [(10, full 7)] [] with empties := [lsKey 0 0x20000], threads := [(0, { lsTh [(10, full 7)] with col := some { head := 0, j := 0, idx := 0, inHandler := true } })] }, { lsSt [(10, full 7)] [] with empties := [lsKey 0 0x20000], threads := [(0, { lsTh [(10, full 7)] with col := some { head := 0, j := 0, idx := 0, inHandler := true } })] }, 10, 8, 0, 7, 0x20000, lsPart 8, .reg 10, .ldff, ?_, ?_, ?_, ?_, ?_, ?_, ?_, ?_, ?_⟩
  all_goals repeat' first
    | decide | exact ⟨[], rfl, fun _ => rfl⟩ | exact ⟨[], rfl, fun _ => by cbv⟩ | exact .inl rfl | apply And.intro
    | simp only [List.mem_singleton, forall_eq] | (intro _ _ h; contradiction)

theorem meets_FullEmptyWaits_3 :
  ∃ (s s1 s2 u : State) (d b : Code) (i : BitVec 9) (v vb : Word) (p : Part) (dest : Dest), let ea2 := vb + immediateOf (current s2).bound i * 8;
    let ready (u : State) : Prop := oldestOrOutside u ∧ plainPlace p.place = true ∧ p.go = false ∧ notOutbound u [p] ∧ Performs (awaitCuts p) u () u ∧ u.occupied (tid u) = true ∧ u.clock.slot < 16;
    admits { ext := true, srcs := [d], base := some b } s = true ∧ Reads s d false v s1 ∧ Reads s1 b false vb s2 ∧ roomFor s2 2 ∧ readsDone s2 ∧
    FullEmptyAt s2 ea2 .both p u ∧ ready u ∧ u.fullAt (keyOfPart p) = true ∧ (current u).col = none ∧ isLink d = false := by
  refine ⟨lsSt [(10, full 7)] [], lsSt [(10, full 7)] [], lsSt [(10, full 7)] [], lsSt [(10, full 7)] [], 10, 8, 0, 7, 0x20000, lsPart 8, .reg 10,
    ?_, ?_, ?_, ?_, ?_, ?_, ?_, ?_, ?_, ?_⟩
  all_goals repeat' first
    | decide | exact ⟨[], rfl, fun _ => rfl⟩ | exact ⟨[], rfl, fun _ => by cbv⟩ | exact .inl rfl | apply And.intro | (intro _ _ h; contradiction)

theorem meets_FullEmptyWaits_4 :
  ∃ (s s1 s2 u : State) (d b : Code) (i : BitVec 9) (v vb : Word) (p : Part) (dest : Dest), let ea2 := vb + immediateOf (current s2).bound i * 8;
    let ready (u : State) : Prop := oldestOrOutside u ∧ plainPlace p.place = true ∧ p.go = false ∧ notOutbound u [p] ∧ Performs (awaitCuts p) u () u ∧ u.occupied (tid u) = true ∧ u.clock.slot < 16;
    admits { ext := true, srcs := [d], base := some b } s = true ∧ Reads s d false v s1 ∧ Reads s1 b false vb s2 ∧ roomFor s2 2 ∧ readsDone s2 ∧
    FullEmptyAt s2 ea2 .both p u ∧ ready u ∧ u.fullAt (keyOfPart p) = true ∧ ((current u).col.isSome = true ∨ isLink d = true) := by
  refine ⟨{ lsSt [] [] with cores := [(0, { links := [(1, [41, 42])] })] },
    popped .e 41 [42] false { lsSt [] [] with cores := [(0, { links := [(1, [41, 42])] })] },
      popped .e 41 [42] false { lsSt [] [] with cores := [(0, { links := [(1, [41, 42])] })] },
        popped .e 41 [42] false { lsSt [] [] with cores := [(0, { links := [(1, [41, 42])] })] }, 97, 8, 0, 41, 0x20000, lsPart 8, .reg 10, ?_, ?_,
          ?_, ?_, ?_, ?_, ?_, ?_, ?_⟩
  all_goals repeat' first
    | decide | exact ⟨[], rfl, fun _ => rfl⟩ | exact ⟨_, rfl, fun _ => rfl⟩ | exact ⟨[], rfl, fun _ => by cbv⟩ | exact .inl rfl | apply And.intro
    | simp only [List.mem_singleton, forall_eq] | (intro _ _ h; contradiction)

theorem meets_LoadResults :
  ∃ (s s1 u : State) (d b : Code) (i : BitVec 9) (fn : BitVec 3) (ordered : Bool) (vb : Word) (ps : List Part) (dest : Dest),
    let ea := vb + immediateOf (current s1).bound i * BitVec.ofNat 64 (loadBytes fn);
    admits { ext := true, dst := some d, base := some b, marked := .load, literals := fn ≠ 7 } s = true ∧ (ordered = true → oldestOrOutside s) ∧
    Reads s b false vb s1 ∧ roomFor s1 (classOf s1 ea) ∧ Takes s1 d dest ∧ Locates s1 ea (loadBytes fn) .load ps u ∧
    Admitted u ea false (loadBytes fn) ps ∧ ps ≠ [] ∧
    (∀ p ∈ ps, plainPlace p.place = true ∧ p.go = false ∧ Clean u (keyOfPart p) p.len ∧ Performs (awaitCuts p) u () u) ∧ notOutbound u ps ∧
    u.occupied (tid u) = true ∧ u.clock.slot < 16 := by
  refine ⟨lsSt [(10, full 0)] (mem [(lsKey 0 0x20000, 0x8182838485868788)]), lsSt [(10, full 0)] (mem [(lsKey 0 0x20000, 0x8182838485868788)]),
    lsSt [(10, full 0)] (mem [(lsKey 0 0x20000, 0x8182838485868788)]), 10, 8, 0, 6, false, 0x20000, [lsPart 8], .reg 10, ?_, ?_, ?_, ?_, ?_, ?_, ?_,
      ?_, ?_, ?_, ?_, ?_⟩
  all_goals repeat' first
    | decide | exact ⟨[], rfl, fun _ => rfl⟩ | exact ⟨[], rfl, fun _ => by cbv⟩ | exact .inl rfl | apply And.intro | (unfold Clean; decide)
    | simp only [List.mem_singleton, forall_eq] | (intro _ _ h; contradiction)

theorem meets_LoadResults_1b :
  ∃ (s s1 u : State) (d b : Code) (i : BitVec 9) (fn : BitVec 3) (ordered : Bool) (vb : Word) (ps : List Part) (dest : Dest),
    let ea := vb + immediateOf (current s1).bound i * BitVec.ofNat 64 (loadBytes fn);
    admits { ext := true, dst := some d, base := some b, marked := .load, literals := fn ≠ 7 } s = true ∧ (ordered = true → oldestOrOutside s) ∧
    Reads s b false vb s1 ∧ roomFor s1 (classOf s1 ea) ∧ Takes s1 d dest ∧ Locates s1 ea (loadBytes fn) .load ps u ∧
    Admitted u ea false (loadBytes fn) ps ∧ ps ≠ [] ∧
    (∀ p ∈ ps, plainPlace p.place = true ∧ p.go = false ∧ Clean u (keyOfPart p) p.len ∧ Performs (awaitCuts p) u () u) ∧ notOutbound u ps ∧
    u.occupied (tid u) = true ∧ u.clock.slot < 16 := by
  refine ⟨lsSt [(10, full 0)] (mem [(lsKey 0 0x20000, 0x8182838485868788)]), lsSt [(10, full 0)] (mem [(lsKey 0 0x20000, 0x8182838485868788)]),
    lsSt [(10, full 0)] (mem [(lsKey 0 0x20000, 0x8182838485868788)]), 10, 8, 0, 0, true, 0x20000, [lsPart 1], .reg 10, ?_, ?_, ?_, ?_, ?_, ?_, ?_,
      ?_, ?_, ?_, ?_, ?_⟩
  all_goals repeat' first
    | decide | exact ⟨[], rfl, fun _ => rfl⟩ | exact ⟨[], rfl, fun _ => by cbv⟩ | exact .inl rfl | apply And.intro | (unfold Clean; decide)
    | simp only [List.mem_singleton, forall_eq] | (intro _; intro _ _ h; contradiction)

theorem meets_StoreResults_1 :
  ∃ (s s1 s2 u : State) (d b : Code) (i : BitVec 9) (fn : BitVec 2) (v vb : Word) (ps : List Part), let size := 2 ^ fn.toNat;
    let ea := vb + immediateOf (current s2).bound i * BitVec.ofNat 64 size;
    admits { ext := true, srcs := [d], base := some b, marked := .store } s = true ∧ Reads s d false v s1 ∧ Reads s1 b false vb s2 ∧
    roomFor s2 (classOf s2 ea) ∧ Performs awaitRelease s2 () s2 ∧ Locates s2 ea size .store ps u ∧ Admitted u ea true size ps ∧
    (∀ p ∈ ps, plainPlace p.place = true ∧ p.go = false ∧ Clean u (keyOfPart p) p.len ∧ Unwatched u (keyOfPart p) p.len) ∧ notOutbound u ps ∧
    u.occupied (tid u) = true ∧ (∀ it, (current u).iter = some it → it.direct = true) ∧ readsDone u := by
  refine ⟨lsSt [(9, full 0x123)] [], lsSt [(9, full 0x123)] [], lsSt [(9, full 0x123)] [], lsSt [(9, full 0x123)] [], 9, 8, 0, 3, 0x123, 0x20000,
    [lsPart 8], ?_, ?_, ?_, ?_, ?_, ?_, ?_, ?_, ?_, ?_, ?_, ?_⟩
  all_goals repeat' first
    | decide | exact ⟨[], rfl, fun _ => rfl⟩ | exact ⟨[], rfl, fun _ => by cbv⟩ | exact .inl rfl | apply And.intro | (unfold Clean; decide)
    | simp only [List.mem_singleton, forall_eq] | (intro _ _ h; contradiction)

theorem meets_StoreResults_1b :
  ∃ (s s1 s2 u : State) (d b : Code) (i : BitVec 9) (fn : BitVec 2) (v vb : Word) (ps : List Part), let size := 2 ^ fn.toNat;
    let ea := vb + immediateOf (current s2).bound i * BitVec.ofNat 64 size;
    admits { ext := true, srcs := [d], base := some b, marked := .store } s = true ∧ Reads s d false v s1 ∧ Reads s1 b false vb s2 ∧
    roomFor s2 (classOf s2 ea) ∧ Performs awaitRelease s2 () s2 ∧ Locates s2 ea size .store ps u ∧ Admitted u ea true size ps ∧
    (∀ p ∈ ps, plainPlace p.place = true ∧ p.go = false ∧ Clean u (keyOfPart p) p.len ∧ Unwatched u (keyOfPart p) p.len) ∧ notOutbound u ps ∧
    u.occupied (tid u) = true ∧ (∀ it, (current u).iter = some it → it.direct = true) ∧ readsDone u := by
  refine ⟨lsSt [(9, full 0x123)] [], lsSt [(9, full 0x123)] [], lsSt [(9, full 0x123)] [], lsSt [(9, full 0x123)] [], 9, 8, 0, 0, 0x123, 0x20000,
    [lsPart 1], ?_, ?_, ?_, ?_, ?_, ?_, ?_, ?_, ?_, ?_, ?_, ?_⟩
  all_goals repeat' first
    | decide | exact ⟨[], rfl, fun _ => rfl⟩ | exact ⟨[], rfl, fun _ => by cbv⟩ | exact .inl rfl | apply And.intro | (unfold Clean; decide)
    | simp only [List.mem_singleton, forall_eq] | (intro _ _ h; contradiction)

theorem meets_StoreResults_2 :
  ∃ (s s1 s2 u : State) (d b : Code) (i : BitVec 9) (fn : BitVec 2) (v vb : Word) (ps : List Part), let size := 2 ^ fn.toNat;
    let ea := vb + immediateOf (current s2).bound i * BitVec.ofNat 64 size;
    admits { ext := true, srcs := [d], base := some b, marked := .store } s = true ∧ Reads s d false v s1 ∧ Reads s1 b false vb s2 ∧
    roomFor s2 (classOf s2 ea) ∧ Performs awaitRelease s2 () s2 ∧ Locates s2 ea size .store ps u ∧ Admitted u ea true size ps ∧
    (∀ p ∈ ps, plainPlace p.place = true ∧ p.go = false ∧ Clean u (keyOfPart p) p.len ∧ Unwatched u (keyOfPart p) p.len) ∧ notOutbound u ps ∧
    u.occupied (tid u) = true ∧ ∃ it, (current u).iter = some it ∧ it.direct = false ∧ it.buf.length < 16 := by
  refine ⟨{ loopOn 0 ring its 0x110 with threads := [(0, { lsTh [(9, full 0x123)] with iter := some { ring := 0, owner := 0, idx := 0 } })] },
    { loopOn 0 ring its 0x110 with threads := [(0, { lsTh [(9, full 0x123)] with iter := some { ring := 0, owner := 0, idx := 0 } })] },
      { loopOn 0 ring its 0x110 with threads := [(0, { lsTh [(9, full 0x123)] with iter := some { ring := 0, owner := 0, idx := 0 } })] },
        { loopOn 0 ring its 0x110 with threads := [(0, { lsTh [(9, full 0x123)] with iter := some { ring := 0, owner := 0, idx := 0 } })] }, 9, 8, 0,
          2, 0x123, 0x20000, [lsPart 4], ?_, ?_, ?_, ?_, ?_, ?_, ?_, ?_, ?_, ?_, { ring := 0, owner := 0, idx := 0 }, ?_, ?_, ?_⟩
  all_goals repeat' first
    | decide | exact ⟨[], rfl, fun _ => rfl⟩ | exact ⟨[], rfl, fun _ => by cbv⟩ | exact .inl rfl | apply And.intro | (unfold Clean; decide)
    | simp only [List.mem_singleton, forall_eq] | (intro _ _ h; contradiction)

theorem meets_FullEmptyResults_1 :
  ∃ (s s1 s2 u : State) (d b : Code) (i : BitVec 9) (v vb : Word) (p : Part) (dest : Dest), let ea1 := vb + immediateOf (current s1).bound i * 8;
    let ready (u : State) : Prop := oldestOrOutside u ∧ plainPlace p.place = true ∧ p.go = false ∧ Clean u (keyOfPart p) 8 ∧ Unwatched u (keyOfPart p) 8 ∧ Unwaited u (keyOfPart p) ∧ keyOfPart p % 8 = 0 ∧ notOutbound u [p] ∧ Performs (awaitCuts p) u () u ∧ u.occupied (tid u) = true ∧ u.clock.slot < 16;
    admits { ext := true, dst := some d, base := some b } s = true ∧ Takes s d dest ∧ Reads s b false vb s1 ∧ roomFor s1 2 ∧
    FullEmptyAt s1 ea1 .tagged p u ∧ ready u ∧ u.fullAt (keyOfPart p) = true := by
  refine ⟨lsSt [(10, full 7)] [], lsSt [(10, full 7)] [], lsSt [(10, full 7)] [], lsSt [(10, full 7)] [], 10, 8, 0, 7, 0x20000, lsPart 8, .reg 10,
    ?_, ?_, ?_, ?_, ?_, ?_, ?_⟩
  all_goals repeat' first
    | decide | exact ⟨[], rfl, fun _ => rfl⟩ | exact ⟨[], rfl, fun _ => by cbv⟩ | exact .inl rfl | apply And.intro | (unfold Clean; decide)
    | (unfold Unwaited; decide) | (intro _ _ h; contradiction)

theorem meets_FullEmptyResults_2 :
  ∃ (s s1 s2 u : State) (d b : Code) (i : BitVec 9) (v vb : Word) (p : Part) (dest : Dest), let ea1 := vb + immediateOf (current s1).bound i * 8;
    let ready (u : State) : Prop := oldestOrOutside u ∧ plainPlace p.place = true ∧ p.go = false ∧ Clean u (keyOfPart p) 8 ∧ Unwatched u (keyOfPart p) 8 ∧ Unwaited u (keyOfPart p) ∧ keyOfPart p % 8 = 0 ∧ notOutbound u [p] ∧ Performs (awaitCuts p) u () u ∧ u.occupied (tid u) = true ∧ u.clock.slot < 16;
    admits { ext := true, dst := some d, base := some b } s = true ∧ Takes s d dest ∧ Reads s b false vb s1 ∧ roomFor s1 1 ∧
    FullEmptyAt s1 ea1 .tagged p u ∧ ready u ∧ u.fullAt (keyOfPart p) = true := by
  refine ⟨lsSt [(10, full 7)] [], lsSt [(10, full 7)] [], lsSt [(10, full 7)] [], lsSt [(10, full 7)] [], 10, 8, 0, 7, 0x20000, lsPart 8, .reg 10,
    ?_, ?_, ?_, ?_, ?_, ?_, ?_⟩
  all_goals repeat' first
    | decide | exact ⟨[], rfl, fun _ => rfl⟩ | exact ⟨[], rfl, fun _ => by cbv⟩ | exact .inl rfl | apply And.intro | (unfold Clean; decide)
    | (unfold Unwaited; decide) | (intro _ _ h; contradiction)

theorem meets_FullEmptyResults_3 :
  ∃ (s s1 s2 u : State) (d b : Code) (i : BitVec 9) (v vb : Word) (p : Part) (dest : Dest), let ea2 := vb + immediateOf (current s2).bound i * 8;
    let ready (u : State) : Prop := oldestOrOutside u ∧ plainPlace p.place = true ∧ p.go = false ∧ Clean u (keyOfPart p) 8 ∧ Unwatched u (keyOfPart p) 8 ∧ Unwaited u (keyOfPart p) ∧ keyOfPart p % 8 = 0 ∧ notOutbound u [p] ∧ Performs (awaitCuts p) u () u ∧ u.occupied (tid u) = true ∧ u.clock.slot < 16;
    admits { ext := true, srcs := [d], base := some b } s = true ∧ Reads s d false v s1 ∧ Reads s1 b false vb s2 ∧ roomFor s2 2 ∧ readsDone s2 ∧
    FullEmptyAt s2 ea2 .both p u ∧ ready u ∧ u.fullAt (keyOfPart p) = false := by
  refine ⟨{ lsSt [(10, full 7)] [] with empties := [lsKey 0 0x20000] }, { lsSt [(10, full 7)] [] with empties := [lsKey 0 0x20000] },
    { lsSt [(10, full 7)] [] with empties := [lsKey 0 0x20000] }, { lsSt [(10, full 7)] [] with empties := [lsKey 0 0x20000] }, 10, 8, 0, 7, 0x20000,
      lsPart 8, .reg 10, ?_, ?_, ?_, ?_, ?_, ?_, ?_, ?_⟩
  all_goals repeat' first
    | decide | exact ⟨[], rfl, fun _ => rfl⟩ | exact ⟨[], rfl, fun _ => by cbv⟩ | exact .inl rfl | apply And.intro | (unfold Clean; decide)
    | (unfold Unwaited; decide) | simp only [List.mem_singleton, forall_eq] | (intro _ _ h; contradiction)

theorem meets_FullEmptyResults_4 :
  ∃ (s s1 s2 u : State) (d b : Code) (i : BitVec 9) (v vb : Word) (p : Part) (dest : Dest), let ea1 := vb + immediateOf (current s1).bound i * 8;
    let ready (u : State) : Prop := oldestOrOutside u ∧ plainPlace p.place = true ∧ p.go = false ∧ Clean u (keyOfPart p) 8 ∧ Unwatched u (keyOfPart p) 8 ∧ Unwaited u (keyOfPart p) ∧ keyOfPart p % 8 = 0 ∧ notOutbound u [p] ∧ Performs (awaitCuts p) u () u ∧ u.occupied (tid u) = true ∧ u.clock.slot < 16;
    admits { ext := true, base := some b } s = true ∧ Reads s b false vb s1 ∧ roomFor s1 1 ∧ readsDone s1 ∧ FullEmptyAt s1 ea1 .both p u ∧ ready u := by
  refine ⟨lsSt [(10, full 7)] (mem [(lsKey 0 0x20000, 0x8182838485868788)]), lsSt [(10, full 7)] (mem [(lsKey 0 0x20000, 0x8182838485868788)]),
    lsSt [(10, full 7)] (mem [(lsKey 0 0x20000, 0x8182838485868788)]), lsSt [(10, full 7)] (mem [(lsKey 0 0x20000, 0x8182838485868788)]), 10, 8, 0,
      7, 0x20000, lsPart 8, .reg 10, ?_, ?_, ?_, ?_, ?_, ?_⟩
  all_goals repeat' first
    | decide | exact ⟨[], rfl, fun _ => rfl⟩ | exact ⟨[], rfl, fun _ => by cbv⟩ | exact .inl rfl | apply And.intro | (unfold Clean; decide)
    | (unfold Unwaited; decide) | (intro _ _ h; contradiction)

theorem meets_AtomicResults :
  ∃ q ∈ atomicForms, ∃ (s s0 s1 s2 u : State) (d a b : Code) (x y : Bool) (ea vb bound : Word) (p : Part) (dest : Dest),
    admits { srcs := [a, b], dst := some d, readsDst := q.2.1, marked := .atomic } s = true ∧
    (if q.2.1 then Reads s d false bound s0 else s0 = s) ∧ Reads s0 a x ea s1 ∧ Reads s1 b y vb s2 ∧ linearOk s2 ea [d, a, b] ∧
    AtomicAt s2 ea p u ∧ plainPlace p.place = true ∧ atomicCore p.place = some u.clock.core ∧ oldestOrOutside u ∧ roomFor u (classOf u ea) ∧
    readsDone u ∧ Takes u d dest ∧ Clean u (keyOfPart p) 8 ∧ Unwatched u (keyOfPart p) 8 ∧ u.occupied (tid u) = true ∧ u.clock.slot < 16 := by
  refine ⟨atomicForms[1], ?_, lsSt [(9, full 3), (10, full 7)] (mem [(lsKey 0 0x20000, 0x8182838485868788)]), lsSt [(9, full 3), (10,
    full 7)] (mem [(lsKey 0 0x20000, 0x8182838485868788)]), lsSt [(9, full 3), (10, full 7)] (mem [(lsKey 0 0x20000, 0x8182838485868788)]), lsSt [(9,
      full 3), (10, full 7)] (mem [(lsKey 0 0x20000, 0x8182838485868788)]), lsSt [(9, full 3), (10, full 7)] (mem [(lsKey 0 0x20000,
        0x8182838485868788)]), 10, 8, 9, false, false, 0x20000, 3, 7, lsPart 8, .reg 10, ?_, ?_, ?_, ?_, ?_, ?_, ?_, ?_, ?_, ?_, ?_, ?_, ?_, ?_, ?_,
          ?_⟩
  all_goals repeat' first
    | exact List.getElem_mem _ | decide | rfl | exact ⟨[], rfl, fun _ => rfl⟩ | exact ⟨[], rfl, fun _ => by cbv⟩ | apply And.intro
    | (unfold Clean; decide) | (intro _ _ h; contradiction) | (unfold linearOk; decide)

theorem meets_AtomicResults_1b :
  ∃ q ∈ atomicForms, ∃ (s s0 s1 s2 u : State) (d a b : Code) (x y : Bool) (ea vb bound : Word) (p : Part) (dest : Dest),
    admits { srcs := [a, b], dst := some d, readsDst := q.2.1, marked := .atomic } s = true ∧
    (if q.2.1 then Reads s d false bound s0 else s0 = s) ∧ Reads s0 a x ea s1 ∧ Reads s1 b y vb s2 ∧ linearOk s2 ea [d, a, b] ∧
    AtomicAt s2 ea p u ∧ plainPlace p.place = true ∧ atomicCore p.place = some u.clock.core ∧ oldestOrOutside u ∧ roomFor u (classOf u ea) ∧
    readsDone u ∧ Takes u d dest ∧ Clean u (keyOfPart p) 8 ∧ Unwatched u (keyOfPart p) 8 ∧ u.occupied (tid u) = true ∧ u.clock.slot < 16 := by
  refine ⟨atomicForms[9], ?_, lsSt [(9, full 3), (10, full 7)] (mem [(lsKey 0 0x20000, 7)]), lsSt [(9, full 3), (10, full 7)] (mem [(lsKey 0 0x20000,
    7)]), lsSt [(9, full 3), (10, full 7)] (mem [(lsKey 0 0x20000, 7)]), lsSt [(9, full 3), (10, full 7)] (mem [(lsKey 0 0x20000, 7)]), lsSt [(9,
      full 3), (10, full 7)] (mem [(lsKey 0 0x20000, 7)]), 10, 8, 9, false, false, 0x20000, 3, 7, lsPart 8, .reg 10, ?_, ?_, ?_, ?_, ?_, ?_, ?_, ?_,
        ?_, ?_, ?_, ?_, ?_, ?_, ?_, ?_⟩
  all_goals repeat' first
    | exact List.getElem_mem _ | decide | exact ⟨[], rfl, fun _ => rfl⟩ | exact ⟨[], rfl, fun _ => by cbv⟩ | apply And.intro
    | (unfold Clean; decide) | (intro _ _ h; contradiction) | (unfold linearOk; decide)

theorem meets_AtomicResults_1c :
  ∃ q ∈ atomicForms, ∃ (s s0 s1 s2 u : State) (d a b : Code) (x y : Bool) (ea vb bound : Word) (p : Part) (dest : Dest),
    admits { srcs := [a, b], dst := some d, readsDst := q.2.1, marked := .atomic } s = true ∧
    (if q.2.1 then Reads s d false bound s0 else s0 = s) ∧ Reads s0 a x ea s1 ∧ Reads s1 b y vb s2 ∧ linearOk s2 ea [d, a, b] ∧
    AtomicAt s2 ea p u ∧ plainPlace p.place = true ∧ atomicCore p.place = some u.clock.core ∧ oldestOrOutside u ∧ roomFor u (classOf u ea) ∧
    readsDone u ∧ Takes u d dest ∧ Clean u (keyOfPart p) 8 ∧ Unwatched u (keyOfPart p) 8 ∧ u.occupied (tid u) = true ∧ u.clock.slot < 16 := by
  refine ⟨atomicForms[11], ?_, lsSt [(9, full 3), (10, full 7)] (mem [(lsKey 0 0x20000, 7)]), lsSt [(9, full 3), (10,
    full 7)] (mem [(lsKey 0 0x20000, 7)]), lsSt [(9, full 3), (10, full 7)] (mem [(lsKey 0 0x20000, 7)]), lsSt [(9, full 3), (10,
      full 7)] (mem [(lsKey 0 0x20000, 7)]), lsSt [(9, full 3), (10, full 7)] (mem [(lsKey 0 0x20000, 7)]), 10, 8, 9, false, false, 0x20000, 3, 7,
        lsPart 8, .reg 10, ?_, ?_, ?_, ?_, ?_, ?_, ?_, ?_, ?_, ?_, ?_, ?_, ?_, ?_, ?_, ?_⟩
  all_goals repeat' first
    | exact List.getElem_mem _ | decide | exact ⟨[], rfl, fun _ => rfl⟩ | exact ⟨[], rfl, fun _ => by cbv⟩ | apply And.intro
    | (unfold Clean; decide) | (intro _ _ h; contradiction) | (unfold linearOk; decide)

theorem meets_AtomicResults_1d :
  ∃ q ∈ atomicForms, ∃ (s s0 s1 s2 u : State) (d a b : Code) (x y : Bool) (ea vb bound : Word) (p : Part) (dest : Dest),
    admits { srcs := [a, b], dst := some d, readsDst := q.2.1, marked := .atomic } s = true ∧
    (if q.2.1 then Reads s d false bound s0 else s0 = s) ∧ Reads s0 a x ea s1 ∧ Reads s1 b y vb s2 ∧ linearOk s2 ea [d, a, b] ∧
    AtomicAt s2 ea p u ∧ plainPlace p.place = true ∧ atomicCore p.place = some u.clock.core ∧ oldestOrOutside u ∧ roomFor u (classOf u ea) ∧
    readsDone u ∧ Takes u d dest ∧ Clean u (keyOfPart p) 8 ∧ Unwatched u (keyOfPart p) 8 ∧ u.occupied (tid u) = true ∧ u.clock.slot < 16 := by
  refine ⟨atomicForms[10], ?_, lsSt [(9, full 3), (10, full 7)] (mem [(lsKey 0 0x20000, 7)]), lsSt [(9, full 3), (10,
    full 7)] (mem [(lsKey 0 0x20000, 7)]), lsSt [(9, full 3), (10, full 7)] (mem [(lsKey 0 0x20000, 7)]), lsSt [(9, full 3), (10,
      full 7)] (mem [(lsKey 0 0x20000, 7)]), lsSt [(9, full 3), (10, full 7)] (mem [(lsKey 0 0x20000, 7)]), 10, 8, 9, false, false, 0x20000, 3, 7,
        lsPart 8, .reg 10, ?_, ?_, ?_, ?_, ?_, ?_, ?_, ?_, ?_, ?_, ?_, ?_, ?_, ?_, ?_, ?_⟩
  all_goals repeat' first
    | exact List.getElem_mem _ | decide | rfl | exact ⟨[], rfl, fun _ => rfl⟩ | exact ⟨[], rfl, fun _ => by cbv⟩ | apply And.intro
    | (unfold Clean; decide) | (intro _ _ h; contradiction) | (unfold linearOk; decide)

/-- A linear segment with every right. -/
def sgLin : BitVec 128 := 0xFFFFFFFFFFFF80F0000000000000#128
/-- Context 1 with a table of levels 0 and 1 whose first 32 MiB are the local stores of cores 16 to 31. -/
def ctxLin : List (Nat × Word) :=
  [(ctxKey 0 1 0x10, 0x100000), (hbmKey 0 0x100000, 0x8000000000000000), (hbmKey 0 0x100008, 0x200000),
   (hbmKey 0 0x200000, 0xE7E0000000000000), (hbmKey 0 0x200008, 0x20002000000)]
/-- s8 is 0x20000 of core 16's local store. -/
def linTh (regs : FMap Reg) : Thread := { inCtx ((8, full 0x2000000000020000) :: regs) with segs := [(0, sgLs), (1, sgLin)] }
/-- The leaf of that page, and core 0's TLB bank holding it. -/
def linLeaf : Leaf := { dw0 := 0xE7E0000000000000, dw1 := 0x20002000000, page := 0x2000000 }
def linTlb : FMap MemPort := [(0, { banks := [(0, [{ ctx := 1, lin := 0, dw0 := linLeaf.dw0, dw1 := linLeaf.dw1 }])] })]
def walkSt (regs : FMap Reg) : State := { threads := [(0, linTh regs)], mem := mem (ctx1 ++ ctxLin) }
def linSt (regs : FMap Reg) : State := { walkSt regs with dies := [(0, { memPorts := linTlb })] }
def linPart (n : Nat) : Part := { place := .ls 16 (lsKey 16 0x20000), len := n, go := false }
def cut (poison : Bool) : Cutting := { fromCore := 3, fromSlot := 2, id := 7, key := lsKey 0 0x20000, fn := .add, data := 5, poison := poison }
/-- A home with as many monitors as it holds. -/
def fullMonitors : State := { lsSt [(9, full 1)] [] with cores := [(0, { monRegs := List.replicate 1024 { core := 7, slot := 7, index := 0, line := 0 } })] }
theorem fullMonitors_len : 1024 ≤ ((fullMonitors.coreOf 0).monRegs).length := by
  simp [fullMonitors, State.coreOf, FMap.get, FMap.get?, lsSt]
def latched : FMap Monitor := [(2, { line := 0x80000, addr := 0x80000, latched := true })]
/-- A thread parked in MWAIT. -/
def mwaiting (m : FMap Monitor) : State := machine [(0,
  { user [(10, empty 0)] with status := .parked .mwait none, mwaitDst := .reg 10, mwaitToken := 5, monitors := m })]
/-- A barrier at 0x20000 whose word is w; s9 is v. -/
def barSt (v w : Word) (broken : Bool) : State :=
  { lsSt [(9, full v)] (mem [(lsKey 0 0x20000, w)]) with
    cores := [(0, { barriers := [{ key := lsKey 0 0x20000, owner := some (0, 0), ownerSlot := 0, ctx := 0, addr := 0x20000, broken := broken }] })] }
/-- A home with as many armed barriers as it holds. -/
def fullBarriers : State :=
  { lsSt [(9, full 4)] [] with cores := [(0, { barriers := List.replicate 256 { key := 64, owner := none, ownerSlot := 0, ctx := 0, addr := 0 } })] }
/-- A supervisor in slot 0 whose TSEL names slot 1 of its core, and a user thread there. -/
def supTh (regs : FMap Reg) : Thread := { inCtx regs with level := .s, tsel := 1 }
def supSt (regs : FMap Reg) (why : Status) : State :=
  { threads := [(0, supTh regs), (1, { inCtx [(10, full 77)] with status := why, sepc := 0x208 })], mem := mem ctx1,
    dies := [(0, { clpart := [(0, 0x8000000000000000)] })] }
def trapRec : TrapRecord := { sender := none, w0 := 1, w1 := 2, w2 := 3, w3 := 4 }
def queueSt (q : RecQueue) (sender : Bool) : State :=
  { threads := [(7, { user [] with status := if sender then .parked .held none else .ready })], cores := [(24, { tqb := q })] }
def eventSt (p : Pending) (up : List (Nat × Word × Nat)) : State := machine [(0, { user [(8, full 5)] with pend := p, pendUp := up, uih := 0x400 })]
def shot : Shoot := { ctx := 1, addr := 0x10000, sc := 0, cnt := 0, rs := false, fromCore := 0, fromSlot := 0 }
def shooting (p : Pendant) (out : FMap Access) : State :=
  { threads := [(0, { inCtx [] with status := .parked .engine none }), (17, { inCtx [] with outstanding := out })], pkg := { shoots := [p] } }
def pendant : Pendant := { req := shot, waiting := [0], begun := [0], accesses := [(17, 4)] }

theorem meets_CachedTranslations_1 :
  ∃ (s s1 u : State) (ea : Word) (k ctx a : Nat) (via : Via) (lf found : Leaf) (lfs : List Leaf) (c : Nat) (v : Word) (keep : List Eff),
    let banks := banksFor k via; let w := walk ea a (rootKey s (dieOf k) ctx) 0 4; cachedLeaves s ctx a banks = [] ∧ Stops w s (.trap c v keep) := by
  refine ⟨{}, {}, {}, 0x2000000000020000, 0, 1, 0x20000, .core, linLeaf, linLeaf, [], 0x0A, 0x2000000000020000, [], ?_, ?_⟩
  all_goals first | (unfold Stops; intro _; cbv; done) | decide

theorem meets_CachedTranslations_2 :
  ∃ (s s1 u : State) (ea : Word) (k ctx a : Nat) (via : Via) (lf found : Leaf) (lfs : List Leaf) (c : Nat) (v : Word) (keep : List Eff),
    let banks := banksFor k via; let w := walk ea a (rootKey s (dieOf k) ctx) 0 4; cachedLeaves s ctx a banks = [] ∧ Performs w s lf s1 := by
  refine ⟨walkSt [], walkSt [], walkSt [], 0x2000000000020000, 0, 1, 0x20000, .core, linLeaf, linLeaf, [], 0x0A, 0x2000000000020000, [], ?_, ?_⟩
  all_goals first | exact ⟨[], rfl, fun _ => by cbv⟩ | decide

theorem meets_CachedTranslations_3 :
  ∃ (s s1 u : State) (ea : Word) (k ctx a : Nat) (via : Via) (lf found : Leaf) (lfs : List Leaf) (c : Nat) (v : Word) (keep : List Eff),
    let banks := banksFor k via; let w := walk ea a (rootKey s (dieOf k) ctx) 0 4; cachedLeaves s ctx a banks = lf :: lfs ∧ (∀ x ∈ lfs, x = lf) ∧
    Performs w s lf s1 := by
  refine ⟨linSt [], linSt [], linSt [], 0x2000000000020000, 0, 1, 0x20000, .core, linLeaf, linLeaf, [], 0x0A, 0x2000000000020000, [], ?_, ?_, ?_⟩
  all_goals first | exact ⟨[], rfl, fun _ => by cbv⟩ | decide

theorem meets_CachedTranslations_4 :
  ∃ (s s1 u : State) (ea : Word) (k ctx a : Nat) (via : Via) (lf found : Leaf) (lfs : List Leaf) (c : Nat) (v : Word) (keep : List Eff),
    Performs (findLeaf ea k ctx a via) s found u := by
  refine ⟨linSt [], linSt [], linSt [], 0x2000000000020000, 0, 1, 0x20000, .core, linLeaf, linLeaf, [], 0x0A, 0x2000000000020000, [], ?_⟩
  all_goals exact ⟨[], rfl, fun _ => by cbv⟩

theorem meets_TranslationFrames :
  ∃ (s u : State) (ea : Word) (size : Nat) (need : Need) (ps : List Part), Locates s ea size need ps u ∧ s.pkg.eccBad = [] := by
  refine ⟨linSt [], linSt [], 0x2000000000020000, 8, Need.load, [linPart 8], ?_, ?_⟩
  all_goals first | decide | exact ⟨[], rfl, fun _ => by cbv⟩

theorem meets_AtomicGrafts :
  ∃ q ∈ atomicForms, ∃ (s s0 s1 s2 u : State) (d a b : Code) (x y : Bool) (ea vb bound : Word) (p : Part) (c : Nat),
    admits { srcs := [a, b], dst := some d, readsDst := q.2.1, marked := .atomic } s = true ∧
    (if q.2.1 then Reads s d false bound s0 else s0 = s) ∧ Reads s0 a x ea s1 ∧ Reads s1 b y vb s2 ∧ linearOk s2 ea [d, a, b] ∧
    AtomicAt s2 ea p u ∧ atomicCore p.place = some c ∧ c ≠ u.clock.core ∧ oldestOrOutside u ∧ roomFor u (classOf u ea) ∧
    levelAllows (current u).level u.clock.core c = true ∧ drained (current u) = true ∧ (u.coreOf c).isSealed = false ∧ (current u).monitors = [] ∧
    u.occupied (tid u) = true ∧ u.clock.slot < 16 := by
  refine ⟨atomicForms[1], ?_, linSt [(9, full 3), (10, full 7)], linSt [(9, full 3), (10, full 7)], linSt [(9, full 3), (10, full 7)], linSt [(9,
    full 3), (10, full 7)], linSt [(9, full 3), (10, full 7)], 5, 8, 9, false, false, 0x2000000000020000, 3, 7, linPart 8, 16, ?_, ?_, ?_, ?_, ?_,
      ?_, ?_, ?_, ?_, ?_, ?_, ?_, ?_, ?_, ?_, ?_⟩
  all_goals first
    | exact List.getElem_mem _ | decide | rfl | exact ⟨[], rfl, fun _ => rfl⟩ | exact ⟨[], rfl, fun _ => by cbv⟩ | (intro _ _ h; contradiction)
    | (intro _; decide)

theorem meets_AtomicGrafts_1b :
  ∃ q ∈ atomicForms, ∃ (s s0 s1 s2 u : State) (d a b : Code) (x y : Bool) (ea vb bound : Word) (p : Part) (c : Nat),
    admits { srcs := [a, b], dst := some d, readsDst := q.2.1, marked := .atomic } s = true ∧
    (if q.2.1 then Reads s d false bound s0 else s0 = s) ∧ Reads s0 a x ea s1 ∧ Reads s1 b y vb s2 ∧ linearOk s2 ea [d, a, b] ∧
    AtomicAt s2 ea p u ∧ atomicCore p.place = some c ∧ c ≠ u.clock.core ∧ oldestOrOutside u ∧ roomFor u (classOf u ea) ∧
    levelAllows (current u).level u.clock.core c = true ∧ drained (current u) = true ∧ (u.coreOf c).isSealed = false ∧ (current u).monitors = [] ∧
    u.occupied (tid u) = true ∧ u.clock.slot < 16 := by
  refine ⟨atomicForms[9], ?_, linSt [(9, full 3), (10, full 7)], linSt [(9, full 3), (10, full 7)], linSt [(9, full 3), (10, full 7)], linSt [(9,
    full 3), (10, full 7)], linSt [(9, full 3), (10, full 7)], 5, 8, 9, false, false, 0x2000000000020000, 3, 0, linPart 8, 16, ?_, ?_, ?_, ?_, ?_,
      ?_, ?_, ?_, ?_, ?_, ?_, ?_, ?_, ?_, ?_, ?_⟩
  all_goals first
    | exact List.getElem_mem _ | decide | exact ⟨[], rfl, fun _ => rfl⟩ | exact ⟨[], rfl, fun _ => by cbv⟩ | (intro _ _ h; contradiction)
    | (intro _; decide)

theorem meets_ReductionResults_1 :
  ∃ q ∈ reduceForms, ∃ (s s1 s2 u : State) (a b : Code) (x y : Bool) (ea vb : Word) (p : Part),
    let cls := if (current u).bound ≠ .none ∧ (FMap.get 0 (owner u).segs (bits ea 63 61)).getLsbD 56 = false then 1 else 2;
    admits { srcs := [a, b], marked := .red } s = true ∧ Reads s a x ea s1 ∧ Reads s1 b y vb s2 ∧ ReductionAt s2 ea p u ∧
    plainPlace p.place = true ∧ oldestOrOutside u ∧ roomFor u cls ∧ readsDone u ∧ (owner u).twin = none ∧ homeOf (keyOfPart p) = u.clock.core ∧
    underTest u (keyOfPart p) = false ∧ keyOfPart p % 8 = 0 ∧ Clean u (keyOfPart p) 8 ∧ Unwatched u (keyOfPart p) 8 := by
  refine ⟨reduceForms[0], ?_, lsSt [(9, full 3)] (mem [(lsKey 0 0x20000, 0x8182838485868788)]), lsSt [(9, full 3)] (mem [(lsKey 0 0x20000,
    0x8182838485868788)]), lsSt [(9, full 3)] (mem [(lsKey 0 0x20000, 0x8182838485868788)]), lsSt [(9, full 3)] (mem [(lsKey 0 0x20000,
      0x8182838485868788)]), 8, 9, false, false, 0x20000, 3, lsPart 8, ?_, ?_, ?_, ?_, ?_, ?_, ?_, ?_, ?_, ?_, ?_, ?_, ?_, ?_⟩
  all_goals repeat' first
    | exact List.getElem_mem _ | decide | exact ⟨[], rfl, fun _ => rfl⟩ | exact ⟨[], rfl, fun _ => by cbv⟩ | apply And.intro
    | (unfold Clean; decide) | (intro _ _ h; contradiction)

theorem meets_ReductionResults_1b :
  ∃ q ∈ reduceForms, ∃ (s s1 s2 u : State) (a b : Code) (x y : Bool) (ea vb : Word) (p : Part),
    let cls := if (current u).bound ≠ .none ∧ (FMap.get 0 (owner u).segs (bits ea 63 61)).getLsbD 56 = false then 1 else 2;
    admits { srcs := [a, b], marked := .red } s = true ∧ Reads s a x ea s1 ∧ Reads s1 b y vb s2 ∧ ReductionAt s2 ea p u ∧
    plainPlace p.place = true ∧ oldestOrOutside u ∧ roomFor u cls ∧ readsDone u ∧ (owner u).twin = none ∧ homeOf (keyOfPart p) = u.clock.core ∧
    underTest u (keyOfPart p) = false ∧ keyOfPart p % 8 = 0 ∧ Clean u (keyOfPart p) 8 ∧ Unwatched u (keyOfPart p) 8 := by
  refine ⟨reduceForms[6], ?_, lsSt [(9, full 3)] (mem [(lsKey 0 0x20000, 0x8182838485868788)]), lsSt [(9, full 3)] (mem [(lsKey 0 0x20000,
    0x8182838485868788)]), lsSt [(9, full 3)] (mem [(lsKey 0 0x20000, 0x8182838485868788)]), lsSt [(9, full 3)] (mem [(lsKey 0 0x20000,
      0x8182838485868788)]), 8, 9, false, false, 0x20000, 3, lsPart 8, ?_, ?_, ?_, ?_, ?_, ?_, ?_, ?_, ?_, ?_, ?_, ?_, ?_, ?_⟩
  all_goals repeat' first
    | exact List.getElem_mem _ | decide | exact ⟨[], rfl, fun _ => rfl⟩ | exact ⟨[], rfl, fun _ => by cbv⟩ | apply And.intro
    | (unfold Clean; decide) | (intro _ _ h; contradiction)

theorem meets_ReductionResults_2 :
  ∃ q ∈ reduceForms, ∃ (s s1 s2 u : State) (a b : Code) (x y : Bool) (ea vb : Word) (p : Part),
    let cls := if (current u).bound ≠ .none ∧ (FMap.get 0 (owner u).segs (bits ea 63 61)).getLsbD 56 = false then 1 else 2;
    admits { srcs := [a, b], marked := .red } s = true ∧ Reads s a x ea s1 ∧ Reads s1 b y vb s2 ∧ ReductionAt s2 ea p u ∧
    plainPlace p.place = true ∧ oldestOrOutside u ∧ roomFor u cls ∧ readsDone u ∧ (owner u).twin = none ∧ homeOf (keyOfPart p) ≠ u.clock.core ∧
    (u.coreOf (homeOf (keyOfPart p))).isSealed = false := by
  refine ⟨reduceForms[4], ?_, linSt [(9, full 3)], linSt [(9, full 3)], linSt [(9, full 3)], linSt [(9, full 3)], 8, 9, false, false,
    0x2000000000020000, 3, linPart 8, ?_, ?_, ?_, ?_, ?_, ?_, ?_, ?_, ?_, ?_, ?_⟩
  all_goals first
    | exact List.getElem_mem _ | decide | exact ⟨[], rfl, fun _ => rfl⟩ | exact ⟨[], rfl, fun _ => by cbv⟩ | (intro _ _ h; contradiction)

theorem meets_CuttingArrival_1 :
  ∃ q ∈ reduceForms, ∃ (s : State) (c : Cutting), c.fn = q.2.1 ∧ c.cmp = none ∧ c.key % 8 = 0 ∧ c.fromCore < 2 ^ 13 ∧
    (s.coreOf (homeOf c.key)).isSealed = false ∧ underTest s c.key = false ∧ FMap.get? s.pkg.eccBad c.key = none ∧
    (∀ cause v epc a since, (s.thread (tidOf c.fromCore c.fromSlot)).status ≠ .parked (.upward cause v epc a) since) ∧ c.poison = false ∧
    s.poisonAt c.key = false ∧ Unwatched s c.key 8 := by
  refine ⟨reduceForms[0], ?_, { mem := mem [(lsKey 0 0x20000, 9)], threads := [(50, { user [] with outstanding := [(7, { cls := 1 })] })] },
    cut false, ?_, ?_, ?_, ?_, ?_, ?_, ?_, ?_, ?_, ?_, ?_⟩
  all_goals repeat' first
    | exact List.getElem_mem _ | decide | apply And.intro | simp only [List.mem_singleton, forall_eq] | (intro _ _ h; contradiction)
    | (intro _ _ _ _ _ h; cases h)

theorem meets_CuttingArrival_2 :
  ∃ q ∈ reduceForms, ∃ (s : State) (c : Cutting), c.fn = q.2.1 ∧ c.cmp = none ∧ c.key % 8 = 0 ∧ c.fromCore < 2 ^ 13 ∧
    (s.coreOf (homeOf c.key)).isSealed = false ∧ underTest s c.key = false ∧ FMap.get? s.pkg.eccBad c.key = none ∧
    (∀ cause v epc a since, (s.thread (tidOf c.fromCore c.fromSlot)).status ≠ .parked (.upward cause v epc a) since) ∧
    (c.poison = true ∨ s.poisonAt c.key = true) := by
  refine ⟨reduceForms[0], ?_, { mem := mem [(lsKey 0 0x20000, 9)], threads := [(50, { user [] with outstanding := [(7, { cls := 1 })] })] },
    cut true, ?_, ?_, ?_, ?_, ?_, ?_, ?_, ?_, ?_⟩
  all_goals repeat' first | exact List.getElem_mem _ | decide | simp only [List.mem_singleton, forall_eq] | (intro _ _ _ _ _ h; cases h)

theorem meets_CuttingArrival_2b :
  ∃ q ∈ reduceForms, ∃ (s : State) (c : Cutting), c.fn = q.2.1 ∧ c.cmp = none ∧ c.key % 8 = 0 ∧ c.fromCore < 2 ^ 13 ∧
    (s.coreOf (homeOf c.key)).isSealed = false ∧ underTest s c.key = false ∧ FMap.get? s.pkg.eccBad c.key = none ∧
    (∀ cause v epc a since, (s.thread (tidOf c.fromCore c.fromSlot)).status ≠ .parked (.upward cause v epc a) since) ∧
    (c.poison = true ∨ s.poisonAt c.key = true) := by
  refine ⟨reduceForms[0], ?_, { mem := mem [(lsKey 0 0x20000, 9)], poisons := [lsKey 0 0x20000] }, cut false, ?_, ?_, ?_, ?_, ?_, ?_, ?_, ?_, ?_⟩
  all_goals first | exact List.getElem_mem _ | decide | (intro _ _ _ _ _ h; cases h)

theorem meets_FenceResult_1 :
  ∃ (s : State) (sc : Code), admits { literals := sc.toNat ≤ 5 } s = true ∧ accessesDone s := by
  refine ⟨st, 0, ?_, ?_⟩
  all_goals first | decide | exact ⟨[], rfl, fun _ => rfl⟩

theorem meets_FenceResult_1b :
  ∃ (s : State) (sc : Code), admits { literals := sc.toNat ≤ 5 } s = true ∧ accessesDone s := by
  refine ⟨st, 5, ?_, ?_⟩
  all_goals first | decide | exact ⟨[], rfl, fun _ => rfl⟩

theorem meets_FenceResult_2 :
  ∃ (s : State) (sc : Code), admits { literals := sc.toNat ≤ 5 } s = true ∧ Stops awaitAccesses s (.wait false []) := by
  refine ⟨machine [(0, { user [] with outstanding := [(7, { cls := 1 })] })], 2, ?_, ?_⟩
  all_goals repeat' first | decide | simp only [List.mem_singleton, forall_eq] | exact (fun _ => rfl)

theorem meets_MonitorResults_1 :
  ∃ (s s1 s2 u : State) (a b : Code) (x y : Bool) (ea vb v : Word) (p : Part), let own := u.control (tid u); let line := keyOfPart p / 64 * 64;
    admits { srcs := [a, b] } s = true ∧ Reads s a x ea s1 ∧ Reads s1 b y vb s2 ∧ Locates s2 ea 1 .load [p] u ∧ plainPlace p.place = true ∧
    (∀ key, p.place ≠ .host key) ∧ (∀ c key, p.place = .ls c key → (u.coreOf c).isSealed = false) ∧ vb.toNat ≤ 3 ∧ oldestOrOutside u ∧
    u.occupied own = true ∧ ((u.coreOf (homeOf line)).monRegs).length < 1024 := by
  refine ⟨lsSt [(9, full 3)] [], lsSt [(9, full 3)] [], lsSt [(9, full 3)] [], lsSt [(9, full 3)] [], 8, 9, false, false, 0x20000, 3, 0, lsPart 1,
    ?_, ?_, ?_, ?_, ?_, ?_, ?_, ?_, ?_, ?_, ?_⟩
  all_goals first
    | decide | exact ⟨[], rfl, fun _ => rfl⟩ | exact ⟨[], rfl, fun _ => by cbv⟩ | (intro _ _ h; contradiction) | (intro _ h; cases h <;> rfl)

theorem meets_MonitorResults_1b :
  ∃ (s s1 s2 u : State) (a b : Code) (x y : Bool) (ea vb v : Word) (p : Part), let own := u.control (tid u); let line := keyOfPart p / 64 * 64;
    admits { srcs := [a, b] } s = true ∧ Reads s a x ea s1 ∧ Reads s1 b y vb s2 ∧ Locates s2 ea 1 .load [p] u ∧ plainPlace p.place = true ∧
    (∀ key, p.place ≠ .host key) ∧ (∀ c key, p.place = .ls c key → (u.coreOf c).isSealed = false) ∧ vb.toNat ≤ 3 ∧ oldestOrOutside u ∧
    u.occupied own = true ∧ ((u.coreOf (homeOf line)).monRegs).length < 1024 := by
  refine ⟨lsSt [(9, full 0)] [], lsSt [(9, full 0)] [], lsSt [(9, full 0)] [], lsSt [(9, full 0)] [], 8, 9, false, false, 0x20000, 0, 0, lsPart 1,
    ?_, ?_, ?_, ?_, ?_, ?_, ?_, ?_, ?_, ?_, ?_⟩
  all_goals first
    | decide | exact ⟨[], rfl, fun _ => rfl⟩ | exact ⟨[], rfl, fun _ => by cbv⟩ | (intro _ _ h; contradiction) | (intro _ h; cases h <;> rfl)

theorem meets_MonitorResults_2 :
  ∃ (s s1 s2 u : State) (a b : Code) (x y : Bool) (ea vb v : Word) (p : Part), let own := u.control (tid u); let line := keyOfPart p / 64 * 64;
    admits { srcs := [a, b] } s = true ∧ Reads s a x ea s1 ∧ Reads s1 b y vb s2 ∧ Locates s2 ea 1 .load [p] u ∧ plainPlace p.place = true ∧
    (∀ key, p.place ≠ .host key) ∧ (∀ c key, p.place = .ls c key → (u.coreOf c).isSealed = false) ∧ vb.toNat ≤ 3 ∧ oldestOrOutside u ∧
    u.occupied own = true ∧ FMap.get? (u.thread own).monitors vb.toNat = none ∧ 1024 ≤ ((u.coreOf (homeOf line)).monRegs).length := by
  refine ⟨fullMonitors, fullMonitors, fullMonitors, fullMonitors, 8, 9, false, false, 0x20000, 1, 0, lsPart 1, ?_, ?_, ?_, ?_, ?_, ?_, ?_, ?_, ?_,
    ?_, ?_, ?_⟩
  all_goals first
    | exact fullMonitors_len | decide | exact ⟨[], rfl, fun _ => rfl⟩ | exact ⟨[], rfl, fun _ => by cbv⟩ | (intro _ _ h; contradiction)
    | (intro _ h; cases h <;> rfl)

theorem meets_MonitorResults_3 :
  ∃ (s s1 s2 u : State) (a b : Code) (x y : Bool) (ea vb v : Word) (p : Part), admits { srcs := [a] } s = true ∧ Reads s a x v s1 := by
  refine ⟨lsSt [(9, full 3)] [], lsSt [(9, full 3)] [], lsSt [(9, full 3)] [], lsSt [(9, full 3)] [], 8, 9, false, false, 0x20000, 0, 0x20000,
    lsPart 1, ?_, ?_⟩
  all_goals first | decide | exact ⟨[], rfl, fun _ => rfl⟩

theorem meets_MwaitResults_1 :
  ∃ (s s1 : State) (d a : Code) (x : Bool) (limit : Word) (dest : Dest), let own := s1.control (tid s1);
    admits { srcs := [a], dst := some d } s = true ∧ Reads s a x limit s1 ∧ oldestOrOutside s1 ∧ Takes s1 d dest ∧ (current s1).col = none ∧
    s1.occupied (tid s1) = true ∧ s1.occupied own = true ∧ s1.clock.slot < 16 ∧ (limit = 0 ∨ mwaitEnds (s1.thread own) = true) := by
  refine ⟨machine [(0, user [(8, full 0)])], machine [(0, user [(8, full 0)])], 10, 8, false, 0, .reg 10, ?_, ?_, ?_, ?_, ?_, ?_, ?_, ?_, ?_⟩
  all_goals first | decide | exact ⟨[], rfl, fun _ => rfl⟩ | (intro _ _ h; contradiction)

theorem meets_MwaitResults_1b :
  ∃ (s s1 : State) (d a : Code) (x : Bool) (limit : Word) (dest : Dest), let own := s1.control (tid s1);
    admits { srcs := [a], dst := some d } s = true ∧ Reads s a x limit s1 ∧ oldestOrOutside s1 ∧ Takes s1 d dest ∧ (current s1).col = none ∧
    s1.occupied (tid s1) = true ∧ s1.occupied own = true ∧ s1.clock.slot < 16 ∧ (limit = 0 ∨ mwaitEnds (s1.thread own) = true) := by
  refine ⟨machine [(0, { user [(8, full 9)] with monitors := latched })], machine [(0, { user [(8, full 9)] with monitors := latched })], 10, 8,
    false, 9, .reg 10, ?_, ?_, ?_, ?_, ?_, ?_, ?_, ?_, ?_⟩
  all_goals repeat' first | decide | exact ⟨[], rfl, fun _ => rfl⟩ | simp only [List.mem_singleton, forall_eq] | (intro _ _ h; contradiction)

theorem meets_MwaitResults_2 :
  ∃ (s s1 : State) (d a : Code) (x : Bool) (limit : Word) (dest : Dest), let own := s1.control (tid s1);
    admits { srcs := [a], dst := some d } s = true ∧ Reads s a x limit s1 ∧ oldestOrOutside s1 ∧ Takes s1 d dest ∧ (current s1).col = none ∧
    s1.occupied (tid s1) = true ∧ s1.occupied own = true ∧ s1.clock.slot < 16 ∧ limit ≠ 0 ∧ mwaitEnds (s1.thread own) = false := by
  refine ⟨machine [(0, user [(8, full 9)])], machine [(0, user [(8, full 9)])], 10, 8, false, 9, .reg 10, ?_, ?_, ?_, ?_, ?_, ?_, ?_, ?_, ?_, ?_⟩
  all_goals first | decide | exact ⟨[], rfl, fun _ => rfl⟩ | (intro _ _ h; contradiction)

theorem meets_MwaitReturns_1 :
  ∃ (s : State) (k n token : Nat) (since : Option Nat) (r : Nat), let id := tidOf k n; let own := s.control id; s.occupied id = true ∧
    (s.thread id).status = .parked .mwait since ∧ (s.thread id).mwaitDst = .reg r ∧ mwaitEnds (s.thread own) = true := by
  refine ⟨mwaiting latched, 0, 0, 5, none, 10, ?_, ?_, ?_, ?_⟩
  all_goals decide

theorem meets_MwaitReturns_2 :
  ∃ (s : State) (k n token : Nat) (since : Option Nat) (r : Nat), let id := tidOf k n; let own := s.control id; s.occupied id = true ∧
    (s.thread id).status = .parked .mwait since ∧ (s.thread id).mwaitDst = .reg r ∧ mwaitEnds (s.thread own) = false := by
  refine ⟨mwaiting [], 0, 0, 5, none, 10, ?_, ?_, ?_, ?_⟩
  all_goals decide

theorem meets_MwaitReturns_3 :
  ∃ (s : State) (k n token : Nat) (since : Option Nat) (r : Nat), let id := tidOf k n; s.occupied id = true ∧
    (s.thread id).status = .parked .mwait since ∧ (s.thread id).mwaitDst = .reg r ∧ (s.thread id).mwaitToken = token := by
  refine ⟨mwaiting [], 0, 0, 5, none, 10, ?_, ?_, ?_, ?_⟩
  all_goals decide

theorem meets_MwaitReturns_4 :
  ∃ (s : State) (k n token : Nat) (since : Option Nat) (r : Nat), let id := tidOf k n; s.occupied id = true ∧
    (s.thread id).status = .parked .mwait since ∧ (s.thread id).mwaitDst = .reg r ∧ (s.thread id).mwaitToken ≠ token := by
  refine ⟨mwaiting [], 0, 0, 4, none, 10, ?_, ?_, ?_, ?_⟩
  all_goals decide

theorem meets_BarrierArming_1 :
  ∃ (s s1 s2 u : State) (a b : Code) (x y : Bool) (ea vb : Word) (p : Part), let key := keyOfPart p;
    let others := (u.coreOf (homeOf key)).barriers.filter fun r => r.key != key; admits { srcs := [a, b] } s = true ∧ Reads s a x ea s1 ∧
    Reads s1 b y vb s2 ∧ BarrierAt s2 ea .atomic p u ∧ plainPlace p.place = true ∧ vb.toNat < 2 ^ 20 ∧ oldestOrOutside u ∧ accessesDone u ∧
    notOutbound u [p] ∧ barWaiters u key = [] ∧ Unmonitored u key 8 ∧ u.occupied (tid u) = true ∧ (vb = 0 ∨ others.length < 256) := by
  refine ⟨lsSt [(9, full 4)] [], lsSt [(9, full 4)] [], lsSt [(9, full 4)] [], lsSt [(9, full 4)] [], 8, 9, false, false, 0x20000, 4, lsPart 8, ?_,
    ?_, ?_, ?_, ?_, ?_, ?_, ?_, ?_, ?_, ?_, ?_, ?_⟩
  all_goals first | decide | exact ⟨[], rfl, fun _ => rfl⟩ | exact ⟨[], rfl, fun _ => by cbv⟩ | exact .inl rfl | (intro _ _ h; contradiction)

theorem meets_BarrierArming_1b :
  ∃ (s s1 s2 u : State) (a b : Code) (x y : Bool) (ea vb : Word) (p : Part), let key := keyOfPart p;
    let others := (u.coreOf (homeOf key)).barriers.filter fun r => r.key != key; admits { srcs := [a, b] } s = true ∧ Reads s a x ea s1 ∧
    Reads s1 b y vb s2 ∧ BarrierAt s2 ea .atomic p u ∧ plainPlace p.place = true ∧ vb.toNat < 2 ^ 20 ∧ oldestOrOutside u ∧ accessesDone u ∧
    notOutbound u [p] ∧ barWaiters u key = [] ∧ Unmonitored u key 8 ∧ u.occupied (tid u) = true ∧ (vb = 0 ∨ others.length < 256) := by
  refine ⟨barSt 0 0x400000 false, barSt 0 0x400000 false, barSt 0 0x400000 false, barSt 0 0x400000 false, 8, 9, false, false, 0x20000, 0, lsPart 8,
    ?_, ?_, ?_, ?_, ?_, ?_, ?_, ?_, ?_, ?_, ?_, ?_, ?_⟩
  all_goals first | decide | exact ⟨[], rfl, fun _ => rfl⟩ | exact ⟨[], rfl, fun _ => by cbv⟩ | exact .inl rfl | (intro _ _ h; contradiction)

theorem meets_BarrierArming_1c :
  ∃ (s s1 s2 u : State) (a b : Code) (x y : Bool) (ea vb : Word) (p : Part), let key := keyOfPart p;
    let others := (u.coreOf (homeOf key)).barriers.filter fun r => r.key != key; admits { srcs := [a, b] } s = true ∧ Reads s a x ea s1 ∧
    Reads s1 b y vb s2 ∧ BarrierAt s2 ea .atomic p u ∧ plainPlace p.place = true ∧ vb.toNat < 2 ^ 20 ∧ oldestOrOutside u ∧ accessesDone u ∧
    notOutbound u [p] ∧ barWaiters u key = [] ∧ Unmonitored u key 8 ∧ u.occupied (tid u) = true ∧ (vb = 0 ∨ others.length < 256) := by
  refine ⟨lsSt [(9, full 0xFFFFF)] [], lsSt [(9, full 0xFFFFF)] [], lsSt [(9, full 0xFFFFF)] [], lsSt [(9, full 0xFFFFF)] [], 8, 9, false, false,
    0x20000, 0xFFFFF, lsPart 8, ?_, ?_, ?_, ?_, ?_, ?_, ?_, ?_, ?_, ?_, ?_, ?_, ?_⟩
  all_goals first | decide | exact ⟨[], rfl, fun _ => rfl⟩ | exact ⟨[], rfl, fun _ => by cbv⟩ | exact .inl rfl | (intro _ _ h; contradiction)

theorem meets_BarrierArming_2 :
  ∃ (s s1 s2 u : State) (a b : Code) (x y : Bool) (ea vb : Word) (p : Part), let key := keyOfPart p;
    let others := (u.coreOf (homeOf key)).barriers.filter fun r => r.key != key; admits { srcs := [a, b] } s = true ∧ Reads s a x ea s1 ∧
    Reads s1 b y vb s2 ∧ BarrierAt s2 ea .atomic p u ∧ plainPlace p.place = true ∧ vb.toNat < 2 ^ 20 ∧ oldestOrOutside u ∧ accessesDone u ∧
    notOutbound u [p] ∧ barWaiters u key = [] ∧ Unmonitored u key 8 ∧ u.occupied (tid u) = true ∧ vb ≠ 0 ∧ 256 ≤ others.length := by
  refine ⟨fullBarriers, fullBarriers, fullBarriers, fullBarriers, 8, 9, false, false, 0x20000, 4, lsPart 8, ?_, ?_, ?_, ?_, ?_, ?_, ?_, ?_, ?_, ?_,
    ?_, ?_, ?_, ?_⟩
  all_goals first | decide | exact ⟨[], rfl, fun _ => rfl⟩ | exact ⟨[], rfl, fun _ => by cbv⟩ | exact .inl rfl | (intro _ _ h; contradiction)

theorem meets_BarrierArrival :
  ∃ (s s1 s2 u : State) (d a b : Code) (x y : Bool) (ea vb : Word) (p : Part) (dest : Dest), let key := keyOfPart p; let bar := barrierAt u key;
    admits { srcs := [a, b], dst := some d } s = true ∧ Reads s a x ea s1 ∧ Reads s1 b y vb s2 ∧ Takes s2 d dest ∧ BarrierAt s2 ea .atomic p u ∧
    plainPlace p.place = true ∧ oldestOrOutside u ∧ accessesDone u ∧ notOutbound u [p] ∧ barWaiters u key = [] ∧ Unmonitored u key 8 ∧
    Clean u key 8 ∧ (∀ q, bar = some q → q.cmp = none) ∧ u.occupied (tid u) = true ∧ u.clock.slot < 16 := by
  refine ⟨barSt 5 0x50000400001 false, barSt 5 0x50000400001 false, barSt 5 0x50000400001 false, barSt 5 0x50000400001 false, 10, 8, 9, false, false,
    0x20000, 5, lsPart 8, .reg 10, ?_, ?_, ?_, ?_, ?_, ?_, ?_, ?_, ?_, ?_, ?_, ?_, ?_, ?_, ?_⟩
  all_goals first
    | decide | exact ⟨[], rfl, fun _ => rfl⟩ | exact ⟨[], rfl, fun _ => by cbv⟩ | exact .inl rfl | (unfold Clean; decide)
    | (intro _ _ h; contradiction)

theorem meets_BarrierArrival_1b :
  ∃ (s s1 s2 u : State) (d a b : Code) (x y : Bool) (ea vb : Word) (p : Part) (dest : Dest), let key := keyOfPart p; let bar := barrierAt u key;
    admits { srcs := [a, b], dst := some d } s = true ∧ Reads s a x ea s1 ∧ Reads s1 b y vb s2 ∧ Takes s2 d dest ∧ BarrierAt s2 ea .atomic p u ∧
    plainPlace p.place = true ∧ oldestOrOutside u ∧ accessesDone u ∧ notOutbound u [p] ∧ barWaiters u key = [] ∧ Unmonitored u key 8 ∧
    Clean u key 8 ∧ (∀ q, bar = some q → q.cmp = none) ∧ u.occupied (tid u) = true ∧ u.clock.slot < 16 := by
  refine ⟨barSt 5 0x50000400003 false, barSt 5 0x50000400003 false, barSt 5 0x50000400003 false, barSt 5 0x50000400003 false, 10, 8, 9, false, false,
    0x20000, 5, lsPart 8, .reg 10, ?_, ?_, ?_, ?_, ?_, ?_, ?_, ?_, ?_, ?_, ?_, ?_, ?_, ?_, ?_⟩
  all_goals first
    | decide | exact ⟨[], rfl, fun _ => rfl⟩ | exact ⟨[], rfl, fun _ => by cbv⟩ | exact .inl rfl | (unfold Clean; decide)
    | (intro _ _ h; contradiction)

theorem meets_BarrierArrival_1c :
  ∃ (s s1 s2 u : State) (d a b : Code) (x y : Bool) (ea vb : Word) (p : Part) (dest : Dest), let key := keyOfPart p; let bar := barrierAt u key;
    admits { srcs := [a, b], dst := some d } s = true ∧ Reads s a x ea s1 ∧ Reads s1 b y vb s2 ∧ Takes s2 d dest ∧ BarrierAt s2 ea .atomic p u ∧
    plainPlace p.place = true ∧ oldestOrOutside u ∧ accessesDone u ∧ notOutbound u [p] ∧ barWaiters u key = [] ∧ Unmonitored u key 8 ∧
    Clean u key 8 ∧ (∀ q, bar = some q → q.cmp = none) ∧ u.occupied (tid u) = true ∧ u.clock.slot < 16 := by
  refine ⟨barSt 4 0x50000400001 false, barSt 4 0x50000400001 false, barSt 4 0x50000400001 false, barSt 4 0x50000400001 false, 10, 8, 9, false, false,
    0x20000, 4, lsPart 8, .reg 10, ?_, ?_, ?_, ?_, ?_, ?_, ?_, ?_, ?_, ?_, ?_, ?_, ?_, ?_, ?_⟩
  all_goals first
    | decide | exact ⟨[], rfl, fun _ => rfl⟩ | exact ⟨[], rfl, fun _ => by cbv⟩ | exact .inl rfl | (unfold Clean; decide)
    | (intro _ _ h; contradiction)

theorem meets_BarrierArrival_1d :
  ∃ (s s1 s2 u : State) (d a b : Code) (x y : Bool) (ea vb : Word) (p : Part) (dest : Dest), let key := keyOfPart p; let bar := barrierAt u key;
    admits { srcs := [a, b], dst := some d } s = true ∧ Reads s a x ea s1 ∧ Reads s1 b y vb s2 ∧ Takes s2 d dest ∧ BarrierAt s2 ea .atomic p u ∧
    plainPlace p.place = true ∧ oldestOrOutside u ∧ accessesDone u ∧ notOutbound u [p] ∧ barWaiters u key = [] ∧ Unmonitored u key 8 ∧
    Clean u key 8 ∧ (∀ q, bar = some q → q.cmp = none) ∧ u.occupied (tid u) = true ∧ u.clock.slot < 16 := by
  refine ⟨barSt 5 0x50000400001 true, barSt 5 0x50000400001 true, barSt 5 0x50000400001 true, barSt 5 0x50000400001 true, 10, 8, 9, false, false,
    0x20000, 5, lsPart 8, .reg 10, ?_, ?_, ?_, ?_, ?_, ?_, ?_, ?_, ?_, ?_, ?_, ?_, ?_, ?_, ?_⟩
  all_goals first
    | decide | exact ⟨[], rfl, fun _ => rfl⟩ | exact ⟨[], rfl, fun _ => by cbv⟩ | exact .inl rfl | (unfold Clean; decide)
    | (intro _ _ h; contradiction)

theorem meets_BarrierArrival_1e :
  ∃ (s s1 s2 u : State) (d a b : Code) (x y : Bool) (ea vb : Word) (p : Part) (dest : Dest), let key := keyOfPart p; let bar := barrierAt u key;
    admits { srcs := [a, b], dst := some d } s = true ∧ Reads s a x ea s1 ∧ Reads s1 b y vb s2 ∧ Takes s2 d dest ∧ BarrierAt s2 ea .atomic p u ∧
    plainPlace p.place = true ∧ oldestOrOutside u ∧ accessesDone u ∧ notOutbound u [p] ∧ barWaiters u key = [] ∧ Unmonitored u key 8 ∧
    Clean u key 8 ∧ (∀ q, bar = some q → q.cmp = none) ∧ u.occupied (tid u) = true ∧ u.clock.slot < 16 := by
  refine ⟨lsSt [(9, full 5)] [], lsSt [(9, full 5)] [], lsSt [(9, full 5)] [], lsSt [(9, full 5)] [], 10, 8, 9, false, false, 0x20000, 5, lsPart 8,
    .reg 10, ?_, ?_, ?_, ?_, ?_, ?_, ?_, ?_, ?_, ?_, ?_, ?_, ?_, ?_, ?_⟩
  all_goals first
    | decide | exact ⟨[], rfl, fun _ => rfl⟩ | exact ⟨[], rfl, fun _ => by cbv⟩ | exact .inl rfl | (unfold Clean; decide)
    | (intro _ _ h; contradiction)

theorem meets_BarrierArrival_1f :
  ∃ (s s1 s2 u : State) (d a b : Code) (x y : Bool) (ea vb : Word) (p : Part) (dest : Dest), let key := keyOfPart p; let bar := barrierAt u key;
    admits { srcs := [a, b], dst := some d } s = true ∧ Reads s a x ea s1 ∧ Reads s1 b y vb s2 ∧ Takes s2 d dest ∧ BarrierAt s2 ea .atomic p u ∧
    plainPlace p.place = true ∧ oldestOrOutside u ∧ accessesDone u ∧ notOutbound u [p] ∧ barWaiters u key = [] ∧ Unmonitored u key 8 ∧
    Clean u key 8 ∧ (∀ q, bar = some q → q.cmp = none) ∧ u.occupied (tid u) = true ∧ u.clock.slot < 16 := by
  refine ⟨barSt 0xFFFFFF 0xFFFFFF0000100000 false, barSt 0xFFFFFF 0xFFFFFF0000100000 false, barSt 0xFFFFFF 0xFFFFFF0000100000 false,
    barSt 0xFFFFFF 0xFFFFFF0000100000 false, 10, 8, 9, false, false, 0x20000, 0xFFFFFF, lsPart 8, .reg 10, ?_, ?_, ?_, ?_, ?_, ?_, ?_, ?_, ?_, ?_,
      ?_, ?_, ?_, ?_, ?_⟩
  all_goals first
    | decide | exact ⟨[], rfl, fun _ => rfl⟩ | exact ⟨[], rfl, fun _ => by cbv⟩ | exact .inl rfl | (unfold Clean; decide)
    | (intro _ _ h; contradiction)

theorem meets_BarrierWait_1 :
  ∃ (s s1 s2 u : State) (d a b : Code) (x y : Bool) (ea vb : Word) (p : Part) (dest : Dest), let key := keyOfPart p; let bar := barrierAt u key;
    let mine := ((u.coreOf (homeOf key)).waiters.find? (·.isOf u.clock.core u.clock.slot)).bind (·.result);
    admits { srcs := [a, b], dst := some d } s = true ∧ Reads s a x ea s1 ∧ Reads s1 b y vb s2 ∧ Takes s2 d dest ∧ BarrierAt s2 ea .barw p u ∧
    plainPlace p.place = true ∧ oldestOrOutside u ∧ accessesDone u ∧ notOutbound u [p] ∧ Clean u key 8 ∧ (∀ q, bar = some q → q.cmp = none) ∧
    u.occupied (tid u) = true ∧ u.clock.slot < 16 ∧ ∃ v, mine = some v := by
  refine ⟨{ barSt 5 0x50000400001 false with cores := [(0, { waiters := [{ core := 0, slot := 0, kind := .barw, key := lsKey 0 0x20000, data := 5, dest := .reg 10, result := some 0x50000000002 }] })] }, { barSt 5 0x50000400001 false with cores := [(0, { waiters := [{ core := 0, slot := 0, kind := .barw, key := lsKey 0 0x20000, data := 5, dest := .reg 10, result := some 0x50000000002 }] })] }, { barSt 5 0x50000400001 false with cores := [(0, { waiters := [{ core := 0, slot := 0, kind := .barw, key := lsKey 0 0x20000, data := 5, dest := .reg 10, result := some 0x50000000002 }] })] }, { barSt 5 0x50000400001 false with cores := [(0, { waiters := [{ core := 0, slot := 0, kind := .barw, key := lsKey 0 0x20000, data := 5, dest := .reg 10, result := some 0x50000000002 }] })] }, 10, 8, 9, false, false, 0x20000, 5, lsPart 8, .reg 10, ?_, ?_, ?_, ?_, ?_, ?_, ?_, ?_, ?_, ?_, ?_, ?_, ?_, 0x50000000002, ?_⟩
  all_goals repeat' first
    | decide | exact ⟨[], rfl, fun _ => rfl⟩ | exact ⟨[], rfl, fun _ => by cbv⟩ | exact .inl rfl | (unfold Clean; decide)
    | simp only [List.mem_singleton, forall_eq] | (intro _ _ h; contradiction)

theorem meets_BarrierWait_2 :
  ∃ (s s1 s2 u : State) (d a b : Code) (x y : Bool) (ea vb : Word) (p : Part) (dest : Dest), let key := keyOfPart p; let bar := barrierAt u key;
    let mine := ((u.coreOf (homeOf key)).waiters.find? (·.isOf u.clock.core u.clock.slot)).bind (·.result);
    admits { srcs := [a, b], dst := some d } s = true ∧ Reads s a x ea s1 ∧ Reads s1 b y vb s2 ∧ Takes s2 d dest ∧ BarrierAt s2 ea .barw p u ∧
    plainPlace p.place = true ∧ oldestOrOutside u ∧ accessesDone u ∧ notOutbound u [p] ∧ Clean u key 8 ∧ (∀ q, bar = some q → q.cmp = none) ∧
    u.occupied (tid u) = true ∧ u.clock.slot < 16 ∧ mine = none ∧ bar = none := by
  refine ⟨lsSt [(9, full 5)] [], lsSt [(9, full 5)] [], lsSt [(9, full 5)] [], lsSt [(9, full 5)] [], 10, 8, 9, false, false, 0x20000, 5, lsPart 8,
    .reg 10, ?_, ?_, ?_, ?_, ?_, ?_, ?_, ?_, ?_, ?_, ?_, ?_, ?_, ?_, ?_⟩
  all_goals first
    | decide | exact ⟨[], rfl, fun _ => rfl⟩ | exact ⟨[], rfl, fun _ => by cbv⟩ | exact .inl rfl | (unfold Clean; decide)
    | (intro _ _ h; contradiction)

theorem meets_BarrierWait_3 :
  ∃ (s s1 s2 u : State) (d a b : Code) (x y : Bool) (ea vb : Word) (p : Part) (dest : Dest), let key := keyOfPart p; let bar := barrierAt u key;
    let mine := ((u.coreOf (homeOf key)).waiters.find? (·.isOf u.clock.core u.clock.slot)).bind (·.result);
    admits { srcs := [a, b], dst := some d } s = true ∧ Reads s a x ea s1 ∧ Reads s1 b y vb s2 ∧ Takes s2 d dest ∧ BarrierAt s2 ea .barw p u ∧
    plainPlace p.place = true ∧ oldestOrOutside u ∧ accessesDone u ∧ notOutbound u [p] ∧ Clean u key 8 ∧ (∀ q, bar = some q → q.cmp = none) ∧
    u.occupied (tid u) = true ∧ u.clock.slot < 16 ∧ ∃ q, mine = none ∧ bar = some q ∧ q.broken = true := by
  refine ⟨barSt 5 0x50000400001 true, barSt 5 0x50000400001 true, barSt 5 0x50000400001 true, barSt 5 0x50000400001 true, 10, 8, 9, false, false,
    0x20000, 5, lsPart 8, .reg 10, ?_, ?_, ?_, ?_, ?_, ?_, ?_, ?_, ?_, ?_, ?_, ?_, ?_,
      { key := lsKey 0 0x20000, owner := some (0, 0), ownerSlot := 0, ctx := 0, addr := 0x20000, broken := true }, ?_, ?_, ?_⟩
  all_goals first
    | decide | exact ⟨[], rfl, fun _ => rfl⟩ | exact ⟨[], rfl, fun _ => by cbv⟩ | exact .inl rfl | (unfold Clean; decide)
    | (intro _ _ h; contradiction)

theorem meets_BarrierWait_4 :
  ∃ (s s1 s2 u : State) (d a b : Code) (x y : Bool) (ea vb : Word) (p : Part) (dest : Dest), let key := keyOfPart p; let old := memDw u key;
    let bar := barrierAt u key; let want := vb.toNat % 2 ^ 24;
    let mine := ((u.coreOf (homeOf key)).waiters.find? (·.isOf u.clock.core u.clock.slot)).bind (·.result);
    admits { srcs := [a, b], dst := some d } s = true ∧ Reads s a x ea s1 ∧ Reads s1 b y vb s2 ∧ Takes s2 d dest ∧ BarrierAt s2 ea .barw p u ∧
    plainPlace p.place = true ∧ oldestOrOutside u ∧ accessesDone u ∧ notOutbound u [p] ∧ Clean u key 8 ∧ (∀ q, bar = some q → q.cmp = none) ∧
    u.occupied (tid u) = true ∧ u.clock.slot < 16 ∧ ∃ q, mine = none ∧ bar = some q ∧ q.broken = false ∧ want ≠ phaseOf old ∧
    (phaseOf old + 2 ^ 24 - want) % 2 ^ 24 < 2 ^ 23 := by
  refine ⟨barSt 4 0x50000400001 false, barSt 4 0x50000400001 false, barSt 4 0x50000400001 false, barSt 4 0x50000400001 false, 10, 8, 9, false, false,
    0x20000, 4, lsPart 8, .reg 10, ?_, ?_, ?_, ?_, ?_, ?_, ?_, ?_, ?_, ?_, ?_, ?_, ?_,
      { key := lsKey 0 0x20000, owner := some (0, 0), ownerSlot := 0, ctx := 0, addr := 0x20000 }, ?_, ?_, ?_, ?_, ?_⟩
  all_goals first
    | decide | exact ⟨[], rfl, fun _ => rfl⟩ | exact ⟨[], rfl, fun _ => by cbv⟩ | exact .inl rfl | (unfold Clean; decide)
    | (intro _ _ h; contradiction)

theorem meets_BarrierWait_4b :
  ∃ (s s1 s2 u : State) (d a b : Code) (x y : Bool) (ea vb : Word) (p : Part) (dest : Dest), let key := keyOfPart p; let old := memDw u key;
    let bar := barrierAt u key; let want := vb.toNat % 2 ^ 24;
    let mine := ((u.coreOf (homeOf key)).waiters.find? (·.isOf u.clock.core u.clock.slot)).bind (·.result);
    admits { srcs := [a, b], dst := some d } s = true ∧ Reads s a x ea s1 ∧ Reads s1 b y vb s2 ∧ Takes s2 d dest ∧ BarrierAt s2 ea .barw p u ∧
    plainPlace p.place = true ∧ oldestOrOutside u ∧ accessesDone u ∧ notOutbound u [p] ∧ Clean u key 8 ∧ (∀ q, bar = some q → q.cmp = none) ∧
    u.occupied (tid u) = true ∧ u.clock.slot < 16 ∧ ∃ q, mine = none ∧ bar = some q ∧ q.broken = false ∧ want ≠ phaseOf old ∧
    (phaseOf old + 2 ^ 24 - want) % 2 ^ 24 < 2 ^ 23 := by
  refine ⟨barSt 0xFFFFFF 0x400001 false, barSt 0xFFFFFF 0x400001 false, barSt 0xFFFFFF 0x400001 false, barSt 0xFFFFFF 0x400001 false, 10, 8, 9,
    false, false, 0x20000, 0xFFFFFF, lsPart 8, .reg 10, ?_, ?_, ?_, ?_, ?_, ?_, ?_, ?_, ?_, ?_, ?_, ?_, ?_,
      { key := lsKey 0 0x20000, owner := some (0, 0), ownerSlot := 0, ctx := 0, addr := 0x20000 }, ?_, ?_, ?_, ?_, ?_⟩
  all_goals first
    | decide | exact ⟨[], rfl, fun _ => rfl⟩ | exact ⟨[], rfl, fun _ => by cbv⟩ | exact .inl rfl | (unfold Clean; decide)
    | (intro _ _ h; contradiction)

theorem meets_BarrierWait_5 :
  ∃ (s s1 s2 u : State) (d a b : Code) (x y : Bool) (ea vb : Word) (p : Part) (dest : Dest), let key := keyOfPart p; let old := memDw u key;
    let bar := barrierAt u key; let want := vb.toNat % 2 ^ 24;
    let mine := ((u.coreOf (homeOf key)).waiters.find? (·.isOf u.clock.core u.clock.slot)).bind (·.result);
    admits { srcs := [a, b], dst := some d } s = true ∧ Reads s a x ea s1 ∧ Reads s1 b y vb s2 ∧ Takes s2 d dest ∧ BarrierAt s2 ea .barw p u ∧
    plainPlace p.place = true ∧ oldestOrOutside u ∧ accessesDone u ∧ notOutbound u [p] ∧ Clean u key 8 ∧ (∀ q, bar = some q → q.cmp = none) ∧
    u.occupied (tid u) = true ∧ u.clock.slot < 16 ∧ ∃ q, mine = none ∧ bar = some q ∧ q.broken = false ∧ want ≠ phaseOf old ∧
    2 ^ 23 ≤ (phaseOf old + 2 ^ 24 - want) % 2 ^ 24 := by
  refine ⟨barSt 6 0x50000400001 false, barSt 6 0x50000400001 false, barSt 6 0x50000400001 false, barSt 6 0x50000400001 false, 10, 8, 9, false, false,
    0x20000, 6, lsPart 8, .reg 10, ?_, ?_, ?_, ?_, ?_, ?_, ?_, ?_, ?_, ?_, ?_, ?_, ?_,
      { key := lsKey 0 0x20000, owner := some (0, 0), ownerSlot := 0, ctx := 0, addr := 0x20000 }, ?_, ?_, ?_, ?_, ?_⟩
  all_goals first
    | decide | exact ⟨[], rfl, fun _ => rfl⟩ | exact ⟨[], rfl, fun _ => by cbv⟩ | exact .inl rfl | (unfold Clean; decide)
    | (intro _ _ h; contradiction)

theorem meets_BarrierWait_5b :
  ∃ (s s1 s2 u : State) (d a b : Code) (x y : Bool) (ea vb : Word) (p : Part) (dest : Dest), let key := keyOfPart p; let old := memDw u key;
    let bar := barrierAt u key; let want := vb.toNat % 2 ^ 24;
    let mine := ((u.coreOf (homeOf key)).waiters.find? (·.isOf u.clock.core u.clock.slot)).bind (·.result);
    admits { srcs := [a, b], dst := some d } s = true ∧ Reads s a x ea s1 ∧ Reads s1 b y vb s2 ∧ Takes s2 d dest ∧ BarrierAt s2 ea .barw p u ∧
    plainPlace p.place = true ∧ oldestOrOutside u ∧ accessesDone u ∧ notOutbound u [p] ∧ Clean u key 8 ∧ (∀ q, bar = some q → q.cmp = none) ∧
    u.occupied (tid u) = true ∧ u.clock.slot < 16 ∧ ∃ q, mine = none ∧ bar = some q ∧ q.broken = false ∧ want ≠ phaseOf old ∧
    2 ^ 23 ≤ (phaseOf old + 2 ^ 24 - want) % 2 ^ 24 := by
  refine ⟨barSt 0x800005 0x50000400001 false, barSt 0x800005 0x50000400001 false, barSt 0x800005 0x50000400001 false,
    barSt 0x800005 0x50000400001 false, 10, 8, 9, false, false, 0x20000, 0x800005, lsPart 8, .reg 10, ?_, ?_, ?_, ?_, ?_, ?_, ?_, ?_, ?_, ?_, ?_, ?_,
      ?_, { key := lsKey 0 0x20000, owner := some (0, 0), ownerSlot := 0, ctx := 0, addr := 0x20000 }, ?_, ?_, ?_, ?_, ?_⟩
  all_goals first
    | decide | exact ⟨[], rfl, fun _ => rfl⟩ | exact ⟨[], rfl, fun _ => by cbv⟩ | exact .inl rfl | (unfold Clean; decide)
    | (intro _ _ h; contradiction)

theorem meets_BarrierWait_6 :
  ∃ (s s1 s2 u : State) (d a b : Code) (x y : Bool) (ea vb : Word) (p : Part) (dest : Dest), let key := keyOfPart p; let old := memDw u key;
    let bar := barrierAt u key; let want := vb.toNat % 2 ^ 24;
    let mine := ((u.coreOf (homeOf key)).waiters.find? (·.isOf u.clock.core u.clock.slot)).bind (·.result);
    admits { srcs := [a, b], dst := some d } s = true ∧ Reads s a x ea s1 ∧ Reads s1 b y vb s2 ∧ Takes s2 d dest ∧ BarrierAt s2 ea .barw p u ∧
    plainPlace p.place = true ∧ oldestOrOutside u ∧ accessesDone u ∧ notOutbound u [p] ∧ Clean u key 8 ∧ (∀ q, bar = some q → q.cmp = none) ∧
    u.occupied (tid u) = true ∧ u.clock.slot < 16 ∧ ∃ q, mine = none ∧ bar = some q ∧ q.broken = false ∧ want = phaseOf old ∧
    ((current u).col.isSome = true ∨ isLink a = true ∨ isLink b = true) := by
  refine ⟨{ barSt 5 0x50000400001 false with threads := [(0, { lsTh [(9, full 5)] with col := some { head := 0, j := 0, idx := 0, inHandler := true } })] }, { barSt 5 0x50000400001 false with threads := [(0, { lsTh [(9, full 5)] with col := some { head := 0, j := 0, idx := 0, inHandler := true } })] }, { barSt 5 0x50000400001 false with threads := [(0, { lsTh [(9, full 5)] with col := some { head := 0, j := 0, idx := 0, inHandler := true } })] }, { barSt 5 0x50000400001 false with threads := [(0, { lsTh [(9, full 5)] with col := some { head := 0, j := 0, idx := 0, inHandler := true } })] }, 10, 8, 9, false, false, 0x20000, 5, lsPart 8, .reg 10, ?_, ?_, ?_, ?_, ?_, ?_, ?_, ?_, ?_, ?_, ?_, ?_, ?_, { key := lsKey 0 0x20000, owner := some (0, 0), ownerSlot := 0, ctx := 0, addr := 0x20000 }, ?_, ?_, ?_, ?_, ?_⟩
  all_goals repeat' first
    | decide | exact ⟨[], rfl, fun _ => rfl⟩ | exact ⟨[], rfl, fun _ => by cbv⟩ | exact .inl rfl | (unfold Clean; decide)
    | simp only [List.mem_singleton, forall_eq] | (intro _ _ h; contradiction)

theorem meets_BarrierWait_7 :
  ∃ (s s1 s2 u : State) (d a b : Code) (x y : Bool) (ea vb : Word) (p : Part) (dest : Dest), let key := keyOfPart p; let old := memDw u key;
    let bar := barrierAt u key; let want := vb.toNat % 2 ^ 24;
    let mine := ((u.coreOf (homeOf key)).waiters.find? (·.isOf u.clock.core u.clock.slot)).bind (·.result);
    admits { srcs := [a, b], dst := some d } s = true ∧ Reads s a x ea s1 ∧ Reads s1 b y vb s2 ∧ Takes s2 d dest ∧ BarrierAt s2 ea .barw p u ∧
    plainPlace p.place = true ∧ oldestOrOutside u ∧ accessesDone u ∧ notOutbound u [p] ∧ Clean u key 8 ∧ (∀ q, bar = some q → q.cmp = none) ∧
    u.occupied (tid u) = true ∧ u.clock.slot < 16 ∧ ∃ q, mine = none ∧ bar = some q ∧ q.broken = false ∧ want = phaseOf old ∧
    (current u).col = none ∧ isLink a = false ∧ isLink b = false := by
  refine ⟨barSt 5 0x50000400001 false, barSt 5 0x50000400001 false, barSt 5 0x50000400001 false, barSt 5 0x50000400001 false, 10, 8, 9, false, false,
    0x20000, 5, lsPart 8, .reg 10, ?_, ?_, ?_, ?_, ?_, ?_, ?_, ?_, ?_, ?_, ?_, ?_, ?_,
      { key := lsKey 0 0x20000, owner := some (0, 0), ownerSlot := 0, ctx := 0, addr := 0x20000 }, ?_, ?_, ?_, ?_, ?_, ?_, ?_⟩
  all_goals first
    | decide | exact ⟨[], rfl, fun _ => rfl⟩ | exact ⟨[], rfl, fun _ => by cbv⟩ | exact .inl rfl | (unfold Clean; decide)
    | (intro _ _ h; contradiction)

theorem meets_CheckOrder :
  ∃ (f : Form) (body : M Flow) (s : State), let t := current s; let c1 := f.literals && (!t.bound.isImm || f.ext);
    let c2 := f.unit s.clock.core && (hasLinks s.clock.core || !(f.codes.any isLink)); let c3 := decide (f.level.code ≤ t.level.code) && f.allowed;
    let c4 := !(f.srcs.any badSrc) && !(f.dst.any (badDst · f.readsDst)) && !(f.base.any fun c => badSrc c || isLink c);
    let c5 := !(badMark f.marked t.bound); let c6 := !((owner s).twin.isSome && f.codes.any isLink); (c1 && c2 && c3 && c4 && c5 && c6) = false := by
  refine ⟨{ literals := false }, (return .next), st, ?_⟩
  all_goals decide

theorem meets_CheckOrder_1b :
  ∃ (f : Form) (body : M Flow) (s : State), let t := current s; let c1 := f.literals && (!t.bound.isImm || f.ext);
    let c2 := f.unit s.clock.core && (hasLinks s.clock.core || !(f.codes.any isLink)); let c3 := decide (f.level.code ≤ t.level.code) && f.allowed;
    let c4 := !(f.srcs.any badSrc) && !(f.dst.any (badDst · f.readsDst)) && !(f.base.any fun c => badSrc c || isLink c);
    let c5 := !(badMark f.marked t.bound); let c6 := !((owner s).twin.isSome && f.codes.any isLink); (c1 && c2 && c3 && c4 && c5 && c6) = false := by
  refine ⟨{ level := .s }, (return .next), st, ?_⟩
  all_goals decide

theorem meets_CheckOrder_1c :
  ∃ (f : Form) (body : M Flow) (s : State), let t := current s; let c1 := f.literals && (!t.bound.isImm || f.ext);
    let c2 := f.unit s.clock.core && (hasLinks s.clock.core || !(f.codes.any isLink)); let c3 := decide (f.level.code ≤ t.level.code) && f.allowed;
    let c4 := !(f.srcs.any badSrc) && !(f.dst.any (badDst · f.readsDst)) && !(f.base.any fun c => badSrc c || isLink c);
    let c5 := !(badMark f.marked t.bound); let c6 := !((owner s).twin.isSome && f.codes.any isLink); (c1 && c2 && c3 && c4 && c5 && c6) = false := by
  refine ⟨{ srcs := [111] }, (return .next), st, ?_⟩
  all_goals decide

theorem meets_TrapEntry :
  ∃ (s : State) (id cause : Nat) (v : Word) (epc : BitVec 16), s.occupied id = true ∧ Free (s.thread id) ∧ Unregistered s id := by
  refine ⟨st, 0, 0x18, 5, 0x104, ?_, ?_, ?_⟩
  all_goals repeat' first | decide | apply And.intro | (unfold Unregistered; decide) | (intro _ h; cases h <;> rfl)

theorem meets_TrapEntry_1b :
  ∃ (s : State) (id cause : Nat) (v : Word) (epc : BitVec 16), s.occupied id = true ∧ Free (s.thread id) ∧ Unregistered s id := by
  refine ⟨machine [(0, { user [] with inh := true, uctl := 0xFFFFFFFF })], 0, 2, 5, 0x104, ?_, ?_, ?_⟩
  all_goals repeat' first
    | decide | apply And.intro | (unfold Unregistered; decide) | simp only [List.mem_singleton, forall_eq] | (intro _ h; cases h <;> rfl)

theorem meets_WaitEntry :
  ∃ (s : State) (counts : Bool), s.occupied (tid s) = true ∧ s.clock.slot < 16 ∧ (∀ since, (current s).status ≠ .waiting (some since)) := by
  refine ⟨st, true, ?_, ?_, ?_⟩
  all_goals first | decide | (intro _ h; cases h <;> rfl)

theorem meets_WaitEntry_1b :
  ∃ (s : State) (counts : Bool), s.occupied (tid s) = true ∧ s.clock.slot < 16 ∧ (∀ since, (current s).status ≠ .waiting (some since)) := by
  refine ⟨st, false, ?_, ?_, ?_⟩
  all_goals first | decide | (intro _ h; cases h <;> rfl)

theorem meets_CallTraps_1 :
  ∃ (s s1 : State) (a : Code) (x : Bool) (v : Word), s.occupied (tid s) = true ∧ Free (current s) ∧ Unregistered s (tid s) ∧
    (current s).expecting = false ∧ Reads s a x v s1 ∧ admits { srcs := [a] } s = true ∧ (current s).level ≠ .h := by
  refine ⟨st, st, 8, false, 5, ?_, ?_, ?_, ?_, ?_, ?_, ?_⟩
  all_goals repeat' first | decide | exact ⟨[], rfl, fun _ => rfl⟩ | apply And.intro | (unfold Unregistered; decide) | (intro _ h; cases h <;> rfl)

theorem meets_CallTraps_2 :
  ∃ (s s1 : State) (a : Code) (x : Bool) (v : Word), s.occupied (tid s) = true ∧ Free (current s) ∧ Unregistered s (tid s) ∧
    (current s).expecting = false ∧ Reads s a x v s1 ∧ admits { srcs := [a], level := .s } s = true := by
  refine ⟨machine [(0, { user [(8, full 5)] with level := .s })], machine [(0, { user [(8, full 5)] with level := .s })], 8, false, 5, ?_, ?_, ?_,
    ?_, ?_, ?_⟩
  all_goals repeat' first
    | decide | exact ⟨[], rfl, fun _ => rfl⟩ | apply And.intro | (unfold Unregistered; decide) | simp only [List.mem_singleton, forall_eq]
    | (intro _ h; cases h <;> rfl)

theorem meets_HandlerReturn_1 :
  ∃ (s : State), s.occupied (tid s) = true ∧ Free (current s) ∧ (current s).inh = true ∧ admits {} s = true ∧ drained (current s) = true := by
  refine ⟨machine [(0, { user [(8, full 5)] with inh := true, epc := 0x200 })], ?_, ?_, ?_, ?_, ?_⟩
  all_goals repeat' first | decide | apply And.intro | simp only [List.mem_singleton, forall_eq] | (intro _ h; cases h <;> rfl)

theorem meets_HandlerReturn_2 :
  ∃ (s : State), s.occupied (tid s) = true ∧ Free (current s) ∧ (current s).inh = false := by
  refine ⟨st, ?_, ?_, ?_⟩
  all_goals repeat' first | decide | apply And.intro | (intro _ h; cases h <;> rfl)

theorem meets_HoldReturn_1 :
  ∃ (s : State), admits { level := .s } s = true ∧ s.occupied (tid s) = true ∧ ∃ id, tselThread s (owner s) s.clock.core = some id ∧ id ≠ tid s ∧
    Free (s.thread id) ∧ (s.thread id).rebind = none := by
  refine ⟨supSt [] (.parked .held none), ?_, ?_, 1, ?_, ?_, ?_, ?_⟩
  all_goals repeat' first | decide | apply And.intro | (intro _ h; cases h <;> rfl)

theorem meets_HoldReturn_2 :
  ∃ (s : State), admits { level := .s } s = true ∧ s.occupied (tid s) = true ∧ tselThread s (owner s) s.clock.core = none := by
  refine ⟨supSt [] .ready, ?_, ?_, ?_⟩
  all_goals decide

theorem meets_ControlReads :
  ∃ q ∈ controlReads, ∃ (s s1 : State) (d : Code) (r : BitVec 10), r.toNat = q.1 ∧
    admits { dst := some d, allowed := mayAccess s false r.toNat } s = true ∧ Writes s d (q.2 s) s1 := by
  refine ⟨controlReads[0], ?_, st, after (writeDst 10 0) st, 10, 0, ?_, ?_, ?_⟩
  all_goals first | exact List.getElem_mem _ | decide | exact ⟨_, rfl, fun _ => rfl⟩

theorem meets_ControlReads_1b :
  ∃ q ∈ controlReads, ∃ (s s1 : State) (d : Code) (r : BitVec 10), r.toNat = q.1 ∧
    admits { dst := some d, allowed := mayAccess s false r.toNat } s = true ∧ Writes s d (q.2 s) s1 := by
  refine ⟨controlReads[17], ?_, machine [(0, { user [] with level := .s, sval := 9 })], after (writeDst 10 9) (machine [(0,
    { user [] with level := .s, sval := 9 })]), 10, 0x1A, ?_, ?_, ?_⟩
  all_goals first | exact List.getElem_mem _ | decide | exact ⟨_, rfl, fun _ => rfl⟩

theorem meets_ControlReads_1c :
  ∃ q ∈ controlReads, ∃ (s s1 : State) (d : Code) (r : BitVec 10), r.toNat = q.1 ∧
    admits { dst := some d, allowed := mayAccess s false r.toNat } s = true ∧ Writes s d (q.2 s) s1 := by
  refine ⟨controlReads[20], ?_, st, after (writeDst 10 0) st, 10, 0x0E, ?_, ?_, ?_⟩
  all_goals first | exact List.getElem_mem _ | decide | exact ⟨_, rfl, fun _ => rfl⟩

theorem meets_ControlWrites :
  ∃ q ∈ controlWrites, ∃ (s : State) (v : Word), s.occupied (tid s) = true ∧ s.occupied (s.control (tid s)) = true := by
  refine ⟨controlWrites[0], ?_, st, 7, ?_, ?_⟩
  all_goals first | exact List.getElem_mem _ | decide

theorem meets_ControlWrites_1b :
  ∃ q ∈ controlWrites, ∃ (s : State) (v : Word), s.occupied (tid s) = true ∧ s.occupied (s.control (tid s)) = true := by
  refine ⟨controlWrites[6], ?_, st, 0xFFFFFFFFFFFFFFFF, ?_, ?_⟩
  all_goals first | exact List.getElem_mem _ | decide

theorem meets_ControlResults_1 :
  ∃ (s s1 s2 s3 : State) (d a : Code) (r : BitVec 10) (v : Word), r.toNat < 0x200 ∧ assigned r.toNat = true ∧ Reads s a false v s1 ∧
    (1 < r.toNat → oldestOrOutside s1) ∧ admits { srcs := [a], allowed := mayAccess s true r.toNat } s = true ∧
    Performs (crStore r.toNat (some (tid s1)) v) s1 () s2 := by
  refine ⟨st, st, after (crStore 1 (some 0) 3) st, st, 10, 9, 0x01, 3, ?_, ?_, ?_, ?_, ?_, ?_⟩
  all_goals first | decide | exact ⟨[], rfl, fun _ => rfl⟩ | exact ⟨_, rfl, fun _ => rfl⟩ | (intro _ _ h; contradiction)

theorem meets_ControlResults_1b :
  ∃ (s s1 s2 s3 : State) (d a : Code) (r : BitVec 10) (v : Word), r.toNat < 0x200 ∧ assigned r.toNat = true ∧ Reads s a false v s1 ∧
    (1 < r.toNat → oldestOrOutside s1) ∧ admits { srcs := [a], allowed := mayAccess s true r.toNat } s = true ∧
    Performs (crStore r.toNat (some (tid s1)) v) s1 () s2 := by
  refine ⟨st, st, after (crStore 6 (some 0) 3) st, st, 10, 9, 0x06, 3, ?_, ?_, ?_, ?_, ?_, ?_⟩
  all_goals first | decide | exact ⟨[], rfl, fun _ => rfl⟩ | exact ⟨_, rfl, fun _ => rfl⟩ | (intro _; intro _ _ h; contradiction)

theorem meets_ControlResults_2 :
  ∃ (s s1 s2 s3 : State) (d a : Code) (r : BitVec 10) (v : Word), r.toNat < 0x200 ∧ assigned r.toNat = true ∧
    let old := crValue s1 (owner s1).level (tid s1) r.toNat; Reads s a false v s1 ∧ (1 < r.toNat → oldestOrOutside s1) ∧
    admits { srcs := [a], dst := some d, allowed := mayAccess s true r.toNat } s = true ∧
    Performs (crStore r.toNat (some (tid s1)) (old ||| v)) s1 () s2 ∧ Writes s2 d old s3 := by
  refine ⟨st, st, after (crStore 1 (some 0) 3) st, after (writeDst 10 0) (after (crStore 1 (some 0) 3) st), 10, 9, 0x01, 3, ?_, ?_, ?_, ?_, ?_, ?_,
    ?_⟩
  all_goals first | decide | exact ⟨[], rfl, fun _ => rfl⟩ | exact ⟨_, rfl, fun _ => rfl⟩ | (intro _ _ h; contradiction)

theorem meets_ControlResults_3 :
  ∃ (s s1 s2 s3 : State) (d a : Code) (r : BitVec 10) (v : Word), r.toNat < 0x200 ∧ assigned r.toNat = true ∧
    let old := crValue s1 (owner s1).level (tid s1) r.toNat; Reads s a false v s1 ∧ (1 < r.toNat → oldestOrOutside s1) ∧
    admits { srcs := [a], dst := some d, allowed := mayAccess s true r.toNat } s = true ∧
    Performs (crStore r.toNat (some (tid s1)) (old &&& ~~~v)) s1 () s2 ∧ Writes s2 d old s3 := by
  refine ⟨st, st, after (crStore 1 (some 0) 0) st, after (writeDst 10 0) (after (crStore 1 (some 0) 0) st), 10, 9, 0x01, 3, ?_, ?_, ?_, ?_, ?_, ?_,
    ?_⟩
  all_goals first | decide | exact ⟨[], rfl, fun _ => rfl⟩ | exact ⟨_, rfl, fun _ => rfl⟩ | (intro _ _ h; contradiction)

theorem meets_PrivilegeTraps_1 :
  ∃ (s : State) (d a b : Code) (x y : Bool) (r : BitVec 10), (current s).level = .u ∧ (current s).iter = none ∧ (current s).bound = .none ∧
    0x13 ≤ r.toNat ∧ r.toNat ≤ 0x1A ∧ isLink d = false := by
  refine ⟨st, 10, 8, 9, false, false, 0x13, ?_, ?_, ?_, ?_, ?_, ?_⟩
  all_goals decide

theorem meets_PrivilegeTraps_1b :
  ∃ (s : State) (d a b : Code) (x y : Bool) (r : BitVec 10), (current s).level = .u ∧ (current s).iter = none ∧ (current s).bound = .none ∧
    0x13 ≤ r.toNat ∧ r.toNat ≤ 0x1A ∧ isLink d = false := by
  refine ⟨st, 10, 8, 9, false, false, 0x1A, ?_, ?_, ?_, ?_, ?_, ?_⟩
  all_goals decide

theorem meets_PrivilegeTraps_2 :
  ∃ (s : State) (d a b : Code) (x y : Bool) (r : BitVec 10), (current s).level = .u ∧ (current s).iter = none ∧ (current s).bound = .none ∧
    r.toNat ∈ [0x03, 0x04, 0x07, 0x08, 0x09, 0x0A, 0x0B, 0x0D, 0x0F, 0x10, 0x11, 0x12] ∧ isLink a = false := by
  refine ⟨st, 10, 8, 9, false, false, 0x03, ?_, ?_, ?_, ?_, ?_⟩
  all_goals decide

theorem meets_PrivilegeTraps_2b :
  ∃ (s : State) (d a b : Code) (x y : Bool) (r : BitVec 10), (current s).level = .u ∧ (current s).iter = none ∧ (current s).bound = .none ∧
    r.toNat ∈ [0x03, 0x04, 0x07, 0x08, 0x09, 0x0A, 0x0B, 0x0D, 0x0F, 0x10, 0x11, 0x12] ∧ isLink a = false := by
  refine ⟨st, 10, 8, 9, false, false, 0x12, ?_, ?_, ?_, ?_, ?_⟩
  all_goals decide

theorem meets_PrivilegeTraps_3 :
  ∃ (s : State) (d a b : Code) (x y : Bool) (r : BitVec 10), (current s).level = .u ∧ (current s).iter = none ∧ (current s).bound = .none ∧
    isLink a = false ∧ isLink b = false := by
  refine ⟨st, 10, 8, 9, false, false, 0, ?_, ?_, ?_, ?_, ?_⟩
  all_goals decide

theorem meets_ViewResults_1 :
  ∃ (s s1 s2 : State) (d a : Code) (r : BitVec 10) (v : Word), 0x240 ≤ r.toNat ∧ r.toNat < 0x260 ∧
    (tselCore s (owner s) s.clock.core).isSome = true ∧ (tselCore s1 (owner s1) s1.clock.core).isSome = true ∧ ∃ id,
    tselThread s (owner s) s.clock.core = some id ∧ admits { dst := some d, allowed := mayAccess s false r.toNat } s = true ∧
    Writes (withSt false s) d ((s.thread id).sreg (r.toNat - 0x240)).val s2 := by
  refine ⟨supSt [(9, full 3)] (.parked .held none), supSt [(9, full 3)] (.parked .held none), after (writeDst 11 77) (withSt false (supSt [(9,
    full 3)] (.parked .held none))), 11, 9, 0x24A, 3, ?_, ?_, ?_, ?_, 1, ?_, ?_, ?_⟩
  all_goals first | decide | exact ⟨_, rfl, fun _ => rfl⟩

theorem meets_ViewResults_2 :
  ∃ (s s1 s2 : State) (d a : Code) (r : BitVec 10) (v : Word), 0x240 ≤ r.toNat ∧ r.toNat < 0x260 ∧
    (tselCore s (owner s) s.clock.core).isSome = true ∧ (tselCore s1 (owner s1) s1.clock.core).isSome = true ∧
    tselThread s (owner s) s.clock.core = none ∧ admits { dst := some d, allowed := mayAccess s false r.toNat } s = true ∧
    Writes (withSt true s) d 0 s2 := by
  refine ⟨supSt [(9, full 3)] .ready, supSt [(9, full 3)] .ready, after (writeDst 11 0) (withSt true (supSt [(9, full 3)] .ready)), 11, 9, 0x242, 3,
    ?_, ?_, ?_, ?_, ?_, ?_, ?_⟩
  all_goals first | decide | exact ⟨_, rfl, fun _ => rfl⟩

theorem meets_ViewResults_3 :
  ∃ (s s1 s2 : State) (d a : Code) (r : BitVec 10) (v : Word), 0x240 ≤ r.toNat ∧ r.toNat < 0x260 ∧
    (tselCore s (owner s) s.clock.core).isSome = true ∧ (tselCore s1 (owner s1) s1.clock.core).isSome = true ∧ ∃ id,
    tselThread s1 (owner s1) s1.clock.core = some id ∧ admits { srcs := [a], allowed := mayAccess s true r.toNat } s = true ∧
    Reads s a false v s1 ∧ oldestOrOutside s1 := by
  refine ⟨supSt [(9, full 3)] (.parked .held none), supSt [(9, full 3)] (.parked .held none), supSt [(9, full 3)] (.parked .held none), 11, 9, 0x25F,
    3, ?_, ?_, ?_, ?_, 1, ?_, ?_, ?_, ?_⟩
  all_goals first | decide | exact ⟨[], rfl, fun _ => rfl⟩ | (intro _ _ h; contradiction)

theorem meets_ViewResults_4 :
  ∃ (s s1 s2 : State) (d a : Code) (r : BitVec 10) (v : Word), 0x240 ≤ r.toNat ∧ r.toNat < 0x260 ∧
    (tselCore s (owner s) s.clock.core).isSome = true ∧ (tselCore s1 (owner s1) s1.clock.core).isSome = true ∧
    tselThread s1 (owner s1) s1.clock.core = none ∧ admits { srcs := [a], allowed := mayAccess s true r.toNat } s = true ∧ Reads s a false v s1 ∧
    oldestOrOutside s1 := by
  refine ⟨supSt [(9, full 3)] .ready, supSt [(9, full 3)] .ready, supSt [(9, full 3)] .ready, 11, 9, 0x240, 3, ?_, ?_, ?_, ?_, ?_, ?_, ?_, ?_⟩
  all_goals first | decide | exact ⟨[], rfl, fun _ => rfl⟩ | (intro _ _ h; contradiction)

theorem meets_SegmentRegisters_1 :
  ∃ (s s1 s2 s3 u : State) (d a b : Code) (x y : Bool) (va vb v u0 u1 : Word) (p0 p1 : Part), admits { srcs := [a, b], level := .s } s = true ∧
    (current s).held = [] ∧ (current s).mwaitToken ≠ 3 ∧ Reads s a x va s1 ∧ Reads s1 b y vb s2 ∧ vb.toNat < 8 ∧ va.toNat % 16 = 0 ∧
    oldestOrOutside s2 ∧ roomFor s2 1 ∧ Performs (locateWords va 2) s2 [(u0, p0), (u1, p1)] u ∧
    (∀ p ∈ [p0, p1], plainPlace p.place = true ∧ p.len = 8 ∧ Clean u (keyOfPart p) 8 ∧ Performs (awaitCuts p) u () u) ∧
    (current u).mwaitToken ≠ 3 ∧ u.occupied (u.control (tid u)) = true ∧ let image : BitVec 128 := BitVec.ofNat 128 (leValue (bytesAt u [p0, p1]));
    goodImage image = true := by
  refine ⟨{ lsSt [(9, full 7)] (mem [(lsKey 0 0x20000, 0x40F0000000000000), (lsKey 0 0x20008, 0x17FFFF)]) with threads := [(0, { lsTh [(9, full 7)] with level := .s })] }, { lsSt [(9, full 7)] (mem [(lsKey 0 0x20000, 0x40F0000000000000), (lsKey 0 0x20008, 0x17FFFF)]) with threads := [(0, { lsTh [(9, full 7)] with level := .s })] }, { lsSt [(9, full 7)] (mem [(lsKey 0 0x20000, 0x40F0000000000000), (lsKey 0 0x20008, 0x17FFFF)]) with threads := [(0, { lsTh [(9, full 7)] with level := .s })] }, { lsSt [(9, full 7)] (mem [(lsKey 0 0x20000, 0x40F0000000000000), (lsKey 0 0x20008, 0x17FFFF)]) with threads := [(0, { lsTh [(9, full 7)] with level := .s })] }, { lsSt [(9, full 7)] (mem [(lsKey 0 0x20000, 0x40F0000000000000), (lsKey 0 0x20008, 0x17FFFF)]) with threads := [(0, { lsTh [(9, full 7)] with level := .s })] }, 10, 8, 9, false, false, 0x20000, 7, 0, 0x20000, 0x20008, lsPart 8, { place := .own (lsKey 0 0x20008), len := 8, go := false }, ?_, ?_, ?_, ?_, ?_, ?_, ?_, ?_, ?_, ?_, ?_, ?_, ?_, ?_⟩
  all_goals repeat' first
    | (intro p hp; simp only [List.mem_cons, List.not_mem_nil, or_false] at hp; rcases hp with rfl | rfl <;> exact ⟨rfl, rfl, by unfold Clean; decide, [], rfl, fun _ => rfl⟩) | decide | exact ⟨[], rfl, fun _ => rfl⟩ | exact ⟨[], rfl, fun _ => by cbv⟩ | simp only [List.mem_singleton, forall_eq] | (intro _ _ h; contradiction)

theorem meets_SegmentRegisters_2 :
  ∃ (s s1 s2 s3 u : State) (d a b : Code) (x y : Bool) (va vb v u0 u1 : Word) (p0 p1 : Part), admits { srcs := [a], dst := some d } s = true ∧
    Reads s a x v s1 ∧ v.toNat < 16 ∧
    (let image := FMap.get 0 (owner s1).segs (v.toNat % 8); Writes s1 d (if v.toNat < 8 then image.extractLsb' 0 64 else image.extractLsb' 64 64) s3) := by
  refine ⟨lsSt [(9, full 8)] [], lsSt [(9, full 8)] [], lsSt [(9, full 8)] [], after (writeDst 10 0x17FFFF) (lsSt [(9, full 8)] []),
    after (writeDst 10 0x17FFFF) (lsSt [(9, full 8)] []), 10, 9, 9, false, false, 0, 0, 8, 0x20000, 0x20008, lsPart 8,
      { place := .own (lsKey 0 0x20008), len := 8, go := false }, ?_, ?_, ?_, ?_⟩
  all_goals first | decide | exact ⟨[], rfl, fun _ => rfl⟩ | exact ⟨_, rfl, fun _ => rfl⟩

theorem meets_SegmentRegisters_2b :
  ∃ (s s1 s2 s3 u : State) (d a b : Code) (x y : Bool) (va vb v u0 u1 : Word) (p0 p1 : Part), admits { srcs := [a], dst := some d } s = true ∧
    Reads s a x v s1 ∧ v.toNat < 16 ∧
    (let image := FMap.get 0 (owner s1).segs (v.toNat % 8); Writes s1 d (if v.toNat < 8 then image.extractLsb' 0 64 else image.extractLsb' 64 64) s3) := by
  refine ⟨lsSt [(9, full 0)] [], lsSt [(9, full 0)] [], lsSt [(9, full 0)] [], after (writeDst 10 0x40F0000000000000) (lsSt [(9, full 0)] []),
    after (writeDst 10 0x40F0000000000000) (lsSt [(9, full 0)] []), 10, 9, 9, false, false, 0, 0, 0, 0x20000, 0x20008, lsPart 8,
      { place := .own (lsKey 0 0x20008), len := 8, go := false }, ?_, ?_, ?_, ?_⟩
  all_goals first | decide | exact ⟨[], rfl, fun _ => rfl⟩ | exact ⟨_, rfl, fun _ => rfl⟩

theorem meets_TrapQueue_1 :
  ∃ (s : State) (k : Nat) (r : TrapRecord), let q := (s.coreOf k).tqb; let key := lsKey k (q.base + 32 * q.tail); queueTakes q k 32 = true ∧
    (s.coreOf k).isSealed = false ∧ Unwatched s key 32 ∧ (∀ i, i < 4 → Unwaited s (key + 8 * i)) := by
  refine ⟨queueSt { base := 0x20000, size := 4, head := 0, tail := 1 } false, 24, trapRec, ?_, ?_, ?_, ?_⟩
  all_goals repeat' first | decide | apply And.intro | (unfold Unwaited; decide) | (intro _ _ h; contradiction)

theorem meets_TrapQueue_1b :
  ∃ (s : State) (k : Nat) (r : TrapRecord), let q := (s.coreOf k).tqb; let key := lsKey k (q.base + 32 * q.tail); queueTakes q k 32 = true ∧
    (s.coreOf k).isSealed = false ∧ Unwatched s key 32 ∧ (∀ i, i < 4 → Unwaited s (key + 8 * i)) := by
  refine ⟨queueSt { base := 0x20000, size := 4, head := 0, tail := 2 } false, 24, trapRec, ?_, ?_, ?_, ?_⟩
  all_goals repeat' first | decide | apply And.intro | (unfold Unwaited; decide) | (intro _ _ h; contradiction)

theorem meets_TrapQueue_2 :
  ∃ (s : State) (k : Nat) (r : TrapRecord), let q := (s.coreOf k).tqb; (queueTakes q k 32 = false ∨ (s.coreOf k).isSealed = true) ∧
    (r.sender = none ∨ ∃ c n since, r.sender = some (c, n) ∧ (s.thread (tidOf c n)).status = .parked .held since) := by
  refine ⟨queueSt { base := 0x20000, size := 4, head := 0, tail := 3 } false, 24, trapRec, ?_, ?_⟩
  all_goals first | decide | exact .inl rfl

theorem meets_TrapQueue_2b :
  ∃ (s : State) (k : Nat) (r : TrapRecord), let q := (s.coreOf k).tqb; (queueTakes q k 32 = false ∨ (s.coreOf k).isSealed = true) ∧
    (r.sender = none ∨ ∃ c n since, r.sender = some (c, n) ∧ (s.thread (tidOf c n)).status = .parked .held since) := by
  refine ⟨queueSt { base := 0x20000, size := 4, head := 0, tail := 3 } true, 24, { trapRec with sender := some (0, 7) }, ?_, ?_⟩
  all_goals repeat' first | decide | simp only [List.mem_singleton, forall_eq] | exact .inr ⟨_, _, _, rfl, rfl⟩

theorem meets_TrapQueue_2c :
  ∃ (s : State) (k : Nat) (r : TrapRecord), let q := (s.coreOf k).tqb; (queueTakes q k 32 = false ∨ (s.coreOf k).isSealed = true) ∧
    (r.sender = none ∨ ∃ c n since, r.sender = some (c, n) ∧ (s.thread (tidOf c n)).status = .parked .held since) := by
  refine ⟨queueSt {} true, 24, { trapRec with sender := some (0, 7) }, ?_, ?_⟩
  all_goals repeat' first | decide | simp only [List.mem_singleton, forall_eq] | exact .inr ⟨_, _, _, rfl, rfl⟩

theorem meets_EventDelivery_1 :
  ∃ (s : State) (k n : Nat), let id := tidOf k n; let h := s.thread id; s.occupied id = true ∧ Free h ∧ Unregistered s id ∧ h.asking = false ∧
    deliverable s id = true ∧ pointOf s id = some id ∧ ∃ c v core rest, h.pendUp = (c, v, core) :: rest := by
  refine ⟨eventSt {} [(0x12, 9, 0)], 0, 0, ?_, ?_, ?_, ?_, ?_, ?_, 0x12, 9, 0, [], ?_⟩
  all_goals repeat' first | decide | apply And.intro | (unfold Unregistered; decide) | (intro _ h; cases h <;> rfl)

theorem meets_EventDelivery_2 :
  ∃ (s : State) (k n : Nat), let id := tidOf k n; let h := s.thread id; s.occupied id = true ∧ Free h ∧ Unregistered s id ∧ h.asking = false ∧
    deliverable s id = true ∧ pointOf s id = some id ∧ ∃ v, h.pend.io = some v ∧ h.pendUp = [] := by
  refine ⟨eventSt { io := some 3, ic := some 4 } [], 0, 0, ?_, ?_, ?_, ?_, ?_, ?_, 3, ?_, ?_⟩
  all_goals repeat' first | decide | apply And.intro | (unfold Unregistered; decide) | (intro _ h; cases h <;> rfl)

theorem meets_EventDelivery_3 :
  ∃ (s : State) (k n : Nat), let id := tidOf k n; let h := s.thread id; s.occupied id = true ∧ Free h ∧ Unregistered s id ∧ h.asking = false ∧
    deliverable s id = true ∧ pointOf s id = some id ∧ ∃ v, h.pend.ic = some v ∧ h.pendUp = [] ∧ h.pend.io = none := by
  refine ⟨eventSt { ic := some 4, bb := some 5 } [], 0, 0, ?_, ?_, ?_, ?_, ?_, ?_, 4, ?_, ?_, ?_⟩
  all_goals repeat' first | decide | apply And.intro | (unfold Unregistered; decide) | (intro _ h; cases h <;> rfl)

theorem meets_EventDelivery_4 :
  ∃ (s : State) (k n : Nat), let id := tidOf k n; let h := s.thread id; s.occupied id = true ∧ Free h ∧ Unregistered s id ∧ h.asking = false ∧
    deliverable s id = true ∧ pointOf s id = some id ∧ ∃ v, h.pend.bb = some v ∧ h.pendUp = [] ∧ h.pend.io = none ∧ h.pend.ic = none := by
  refine ⟨eventSt { bb := some 5, xc := [{ xid := 7, status := 0, handler := 0x300 }] } [], 0, 0, ?_, ?_, ?_, ?_, ?_, ?_, 5, ?_, ?_, ?_, ?_⟩
  all_goals repeat' first | decide | apply And.intro | (unfold Unregistered; decide) | (intro _ h; cases h <;> rfl)

theorem meets_EventDelivery_5 :
  ∃ (s : State) (k n : Nat), let id := tidOf k n; let h := s.thread id; s.occupied id = true ∧ Free h ∧ Unregistered s id ∧ h.asking = false ∧
    deliverable s id = true ∧ pointOf s id = some id ∧ ∃ c rest, h.pend.xc = c :: rest ∧ h.pendUp = [] ∧ h.pend.io = none ∧ h.pend.ic = none ∧
    h.pend.bb = none := by
  refine ⟨eventSt { xc := [{ xid := 7, status := 2, handler := 0x300 }] } [], 0, 0, ?_, ?_, ?_, ?_, ?_, ?_,
    { xid := 7, status := 2, handler := 0x300 }, [], ?_, ?_, ?_, ?_, ?_⟩
  all_goals repeat' first | decide | apply And.intro | (unfold Unregistered; decide) | (intro _ h; cases h <;> rfl)

theorem meets_ShootResult :
  ∃ (s s1 s2 : State) (a b : Code) (x y : Bool) (va vb : Word), admits { srcs := [a, b], level := .s } s = true ∧ Reads s a x va s1 ∧
    Reads s1 b y vb s2 ∧ bits vb 47 45 = 0 ∧ bits vb 41 16 = 0 ∧ bits va 63 48 = 0 ∧ (vb.getLsbD 44 = true → bits vb 43 42 = 2) ∧
    (bits vb 43 42 = 3 → bits vb 63 48 = 0 ∧ (owner s2).level = .h) ∧ (bits vb 43 42 ≠ 1 → bits vb 15 0 = 0) ∧
    ((owner s2).level = .s → ctxPart s2 (dieOf s2.clock.core) (bits vb 63 48) = ctxPart s2 (dieOf s2.clock.core) (owner s2).ctx) ∧
    oldestOrOutside s2 ∧ Performs awaitPoint s2 () s2 ∧ s2.occupied (tid s2) = true ∧ s2.clock.slot < 16 := by
  refine ⟨{ supSt [(8, full 0x10000), (9, full 0x1000000000000)] .ready with threads := [(0, supTh [(8, full 0x10000), (9, full 0x1000000000000)])] }, { supSt [(8, full 0x10000), (9, full 0x1000000000000)] .ready with threads := [(0, supTh [(8, full 0x10000), (9, full 0x1000000000000)])] }, { supSt [(8, full 0x10000), (9, full 0x1000000000000)] .ready with threads := [(0, supTh [(8, full 0x10000), (9, full 0x1000000000000)])] }, 8, 9, false, false, 0x10000, 0x1000000000000, ?_, ?_, ?_, ?_, ?_, ?_, ?_, ?_, ?_, ?_, ?_, ?_, ?_, ?_⟩
  all_goals repeat' first | decide | exact ⟨[], rfl, fun _ => rfl⟩ | simp only [List.mem_singleton, forall_eq] | (intro _ _ h; contradiction)

theorem meets_ShootResult_1b :
  ∃ (s s1 s2 : State) (a b : Code) (x y : Bool) (va vb : Word), admits { srcs := [a, b], level := .s } s = true ∧ Reads s a x va s1 ∧
    Reads s1 b y vb s2 ∧ bits vb 47 45 = 0 ∧ bits vb 41 16 = 0 ∧ bits va 63 48 = 0 ∧ (vb.getLsbD 44 = true → bits vb 43 42 = 2) ∧
    (bits vb 43 42 = 3 → bits vb 63 48 = 0 ∧ (owner s2).level = .h) ∧ (bits vb 43 42 ≠ 1 → bits vb 15 0 = 0) ∧
    ((owner s2).level = .s → ctxPart s2 (dieOf s2.clock.core) (bits vb 63 48) = ctxPart s2 (dieOf s2.clock.core) (owner s2).ctx) ∧
    oldestOrOutside s2 ∧ Performs awaitPoint s2 () s2 ∧ s2.occupied (tid s2) = true ∧ s2.clock.slot < 16 := by
  refine ⟨{ supSt [(8, full 0x10000), (9, full 0x1040000000003)] .ready with threads := [(0, supTh [(8, full 0x10000), (9, full 0x1040000000003)])] }, { supSt [(8, full 0x10000), (9, full 0x1040000000003)] .ready with threads := [(0, supTh [(8, full 0x10000), (9, full 0x1040000000003)])] }, { supSt [(8, full 0x10000), (9, full 0x1040000000003)] .ready with threads := [(0, supTh [(8, full 0x10000), (9, full 0x1040000000003)])] }, 8, 9, false, false, 0x10000, 0x1040000000003, ?_, ?_, ?_, ?_, ?_, ?_, ?_, ?_, ?_, ?_, ?_, ?_, ?_, ?_⟩
  all_goals repeat' first | decide | exact ⟨[], rfl, fun _ => rfl⟩ | simp only [List.mem_singleton, forall_eq] | (intro _ _ h; contradiction)

theorem meets_ShootResult_1c :
  ∃ (s s1 s2 : State) (a b : Code) (x y : Bool) (va vb : Word), admits { srcs := [a, b], level := .s } s = true ∧ Reads s a x va s1 ∧
    Reads s1 b y vb s2 ∧ bits vb 47 45 = 0 ∧ bits vb 41 16 = 0 ∧ bits va 63 48 = 0 ∧ (vb.getLsbD 44 = true → bits vb 43 42 = 2) ∧
    (bits vb 43 42 = 3 → bits vb 63 48 = 0 ∧ (owner s2).level = .h) ∧ (bits vb 43 42 ≠ 1 → bits vb 15 0 = 0) ∧
    ((owner s2).level = .s → ctxPart s2 (dieOf s2.clock.core) (bits vb 63 48) = ctxPart s2 (dieOf s2.clock.core) (owner s2).ctx) ∧
    oldestOrOutside s2 ∧ Performs awaitPoint s2 () s2 ∧ s2.occupied (tid s2) = true ∧ s2.clock.slot < 16 := by
  refine ⟨{ threads := [(0, { inCtx [(8, full 0), (9, full 0xC0000000000)] with level := .h })] },
    { threads := [(0, { inCtx [(8, full 0), (9, full 0xC0000000000)] with level := .h })] },
      { threads := [(0, { inCtx [(8, full 0), (9, full 0xC0000000000)] with level := .h })] }, 8, 9, false, false, 0, 0xC0000000000, ?_, ?_, ?_, ?_,
        ?_, ?_, ?_, ?_, ?_, ?_, ?_, ?_, ?_, ?_⟩
  all_goals repeat' first | decide | exact ⟨[], rfl, fun _ => rfl⟩ | simp only [List.mem_singleton, forall_eq] | (intro _ _ h; contradiction)

theorem meets_ShootAcknowledged_1 :
  ∃ (s : State) (port : Nat) (r : Shoot) (p : Pendant), (s.pkg.shoots.find? fun p => p.req = r && p.waiting.contains port) = none := by
  refine ⟨st, 0, shot, pendant, ?_⟩
  all_goals decide

theorem meets_ShootAcknowledged_2 :
  ∃ (s : State) (port : Nat) (r : Shoot) (p : Pendant), let id := tidOf r.fromCore r.fromSlot; s.pkg.shoots = [p] ∧ p.req = r ∧
    p.waiting = [port] ∧ p.begun.contains port = true ∧ shootQuiet s { p with begun := NSet.insert p.begun port } port = true ∧
    (s.thread id).status = .parked .engine none ∧ (s.thread id).col = none ∧ s.occupied id = true := by
  refine ⟨shooting pendant [], 0, shot, pendant, ?_, ?_, ?_, ?_, ?_, ?_, ?_, ?_⟩
  all_goals decide

theorem meets_ShootAcknowledged_3 :
  ∃ (s : State) (port : Nat) (r : Shoot) (p : Pendant), s.pkg.shoots = [p] ∧ p.req = r ∧ p.waiting.contains port = true ∧
    p.begun.contains port = true ∧ shootQuiet s { p with begun := NSet.insert p.begun port } port = false := by
  refine ⟨shooting pendant [(4, { cls := 1 })], 0, shot, pendant, ?_, ?_, ?_, ?_, ?_⟩
  all_goals decide

/-- Doublewords of a range, one by one. -/
theorem upToDw {P : Nat → Prop} {n : Nat} (h : ∀ i : Fin n, P i) : ∀ i, 8 * i < 8 * n → P i := fun i hi => h ⟨i, by omega⟩
/-- s8 and s9 with values, s10 is 7. -/
def two (a b : Word) : State := machine [(0, user [(8, full a), (9, full b), (10, full 7)])]
/-- Core 0 with virtual time 100, and its thread ready to send four doublewords of its local store. -/
def sendTh (va : Word) : Thread := { user [(8, full va), (9, full 0x20000), (10, full 7)] with segs := [(0, sgLs)], ctx := 1 }
def sendSt (va vt : Word) : State :=
  { threads := [(0, sendTh va)], cores := [(0, { vt := vt })], mem := mem (ctx1 ++ [(lsKey 0 0x20000, 11), (lsKey 0 0x20008, 22)]) }
def sendParts : List (Word × Part) := [(0x20000, lsPart 8), (0x20008, { place := .own (lsKey 0 0x20008), len := 8, go := false })]
/-- An inbox of core 0 with one record, on channel 5, of stamp 3 and one payload doubleword. -/
def inbox : Inbox := { en := true, size := 1, base := 0x800, head := 0, tail := 32 }
def recvSt (va : Word) (b : Inbox) : State :=
  { threads := [(0, { user [(8, full va), (9, full 0x30000), (10, full 0)] with segs := [(0, sgLs)] })], cores := [(0, { inboxes := [(1, b)] })],
    mem := mem [(lsKey 0 0x20000, 3), (lsKey 0 0x20008, 0x50000020008), (lsKey 0 0x20010, 77)] }
def recvParts (n : Nat) : List Part := (List.range n).map fun i => { place := .own (lsKey 0 (0x30000 + 8 * i)), len := 8, go := false }
def record : InRec := { off := 0, kind := 0, chan := 5, src := 2, stamp := 3, plen := 8 }
def message : Message := { fromCore := 1, toCore := 0, src := 2, chan := 5, stamp := 9, data := [(77, false)] }
def creditSt (c : Credit) : State := { cores := [(1, { sendq := [(message, false)], creditTab := [c] })] }
def receiver : Receiver := { slot := 0, chan := 5, buf := [(0x30000, .own (lsKey 0 0x30000)), (0x30008, .own (lsKey 0 0x30008)), (0x30010, .own (lsKey 0 0x30010)), (0x30018, .own (lsKey 0 0x30018))], dest := .reg 10 }
def receiving : State :=
  { recvSt 0 inbox with threads := [(0, { user [(10, empty 0)] with status := .parked .registered (some 0), segs := [(0, sgLs)] })],
                        cores := [(0, { inboxes := [(1, inbox)], receivers := [receiver] })] }
def short : Receiver := { receiver with buf := receiver.buf.take 2 }
def receivingShort : State :=
  { receiving with cores := [(0, { inboxes := [(1, inbox)], receivers := [short] })] }

theorem meets_FloatResults :
  ∃ p ∈ floatForms, ∃ (s s1 s2 s3 : State) (d a b : Code) (x y : Bool) (va vb : Word), let r := p.2 (current s2).rm.toNat va vb;
    admits { srcs := [a, b], dst := some d } s = true ∧ Reads s a x va s1 ∧ Reads s1 b y vb s2 ∧ Writes s2 d r.1 s3 := by
  refine ⟨floatForms[0], ?_, two 0x3FC00000 0x40200000, two 0x3FC00000 0x40200000, two 0x3FC00000 0x40200000,
    after (writeDst 10 0x40800000) (two 0x3FC00000 0x40200000), 10, 8, 9, false, false, 0x3FC00000, 0x40200000, ?_, ?_, ?_, ?_⟩
  all_goals first | exact List.getElem_mem _ | decide | exact ⟨[], rfl, fun _ => rfl⟩ | exact ⟨_, rfl, fun _ => rfl⟩

theorem meets_FloatResults_1b :
  ∃ p ∈ floatForms, ∃ (s s1 s2 s3 : State) (d a b : Code) (x y : Bool) (va vb : Word), let r := p.2 (current s2).rm.toNat va vb;
    admits { srcs := [a, b], dst := some d } s = true ∧ Reads s a x va s1 ∧ Reads s1 b y vb s2 ∧ Writes s2 d r.1 s3 := by
  refine ⟨floatForms[2], ?_, two 0x7F000000 0x7F000000, two 0x7F000000 0x7F000000, two 0x7F000000 0x7F000000,
    after (writeDst 10 0x7F800000) (two 0x7F000000 0x7F000000), 10, 8, 9, false, false, 0x7F000000, 0x7F000000, ?_, ?_, ?_, ?_⟩
  all_goals first | exact List.getElem_mem _ | decide | exact ⟨[], rfl, fun _ => rfl⟩ | exact ⟨_, rfl, fun _ => rfl⟩

theorem meets_FloatResults_1c :
  ∃ p ∈ floatForms, ∃ (s s1 s2 s3 : State) (d a b : Code) (x y : Bool) (va vb : Word), let r := p.2 (current s2).rm.toNat va vb;
    admits { srcs := [a, b], dst := some d } s = true ∧ Reads s a x va s1 ∧ Reads s1 b y vb s2 ∧ Writes s2 d r.1 s3 := by
  refine ⟨floatForms[4], ?_, two 0x7F800001 0x3F800000, two 0x7F800001 0x3F800000, two 0x7F800001 0x3F800000,
    after (writeDst 10 0x3F800000) (two 0x7F800001 0x3F800000), 10, 8, 9, false, false, 0x7F800001, 0x3F800000, ?_, ?_, ?_, ?_⟩
  all_goals first | exact List.getElem_mem _ | decide | exact ⟨[], rfl, fun _ => rfl⟩ | exact ⟨_, rfl, fun _ => rfl⟩

theorem meets_FusedResults :
  ∃ p ∈ fusedForms, ∃ (s s1 s2 s3 s4 : State) (d a b : Code) (x y : Bool) (va vb vd : Word),
    let r := once (current s3).rm.toNat (fmaNum (current s3).rm.toNat p.2.1 p.2.2 (f32Of va) (f32Of vb) (f32Of vd));
    admits { srcs := [a, b], dst := some d, readsDst := true } s = true ∧ Reads s a x va s1 ∧ Reads s1 b y vb s2 ∧ Reads s2 d false vd s3 ∧
    Writes s3 d r.1 s4 := by
  refine ⟨fusedForms[0], ?_, two 0x3FC00000 0x40000000, two 0x3FC00000 0x40000000, two 0x3FC00000 0x40000000, two 0x3FC00000 0x40000000,
    after (writeDst 10 0x40400000) (two 0x3FC00000 0x40000000), 10, 8, 9, false, false, 0x3FC00000, 0x40000000, 7, ?_, ?_, ?_, ?_, ?_⟩
  all_goals first | exact List.getElem_mem _ | decide | exact ⟨[], rfl, fun _ => rfl⟩ | exact ⟨_, rfl, fun _ => rfl⟩

theorem meets_FusedResults_1b :
  ∃ p ∈ fusedForms, ∃ (s s1 s2 s3 s4 : State) (d a b : Code) (x y : Bool) (va vb vd : Word),
    let r := once (current s3).rm.toNat (fmaNum (current s3).rm.toNat p.2.1 p.2.2 (f32Of va) (f32Of vb) (f32Of vd));
    admits { srcs := [a, b], dst := some d, readsDst := true } s = true ∧ Reads s a x va s1 ∧ Reads s1 b y vb s2 ∧ Reads s2 d false vd s3 ∧
    Writes s3 d r.1 s4 := by
  refine ⟨fusedForms[2], ?_, two 0x3FC00000 0x40000000, two 0x3FC00000 0x40000000, two 0x3FC00000 0x40000000, two 0x3FC00000 0x40000000,
    after (writeDst 10 0xC0400000) (two 0x3FC00000 0x40000000), 10, 8, 9, false, false, 0x3FC00000, 0x40000000, 7, ?_, ?_, ?_, ?_, ?_⟩
  all_goals first | exact List.getElem_mem _ | decide | exact ⟨[], rfl, fun _ => rfl⟩ | exact ⟨_, rfl, fun _ => rfl⟩

theorem meets_FloatDivides_1 :
  ∃ (s s1 s2 : State) (d a b : Code) (x y : Bool) (va vb : Word) (dest : Dest), admits { srcs := [a, b], dst := some d } s = true ∧
    Reads s a x va s1 ∧ Reads s1 b y vb s2 ∧ Takes s2 d dest ∧ s2.occupied (tid s2) = true := by
  refine ⟨two 0x3F800000 0, two 0x3F800000 0, two 0x3F800000 0, 10, 8, 9, false, false, 0x3F800000, 0, .reg 10, ?_, ?_, ?_, ?_, ?_⟩
  all_goals first | decide | exact ⟨[], rfl, fun _ => rfl⟩

theorem meets_FloatDivides_1b :
  ∃ (s s1 s2 : State) (d a b : Code) (x y : Bool) (va vb : Word) (dest : Dest), admits { srcs := [a, b], dst := some d } s = true ∧
    Reads s a x va s1 ∧ Reads s1 b y vb s2 ∧ Takes s2 d dest ∧ s2.occupied (tid s2) = true := by
  refine ⟨two 0x3F800000 0x40400000, two 0x3F800000 0x40400000, two 0x3F800000 0x40400000, 10, 8, 9, false, false, 0x3F800000, 0x40400000, .reg 10,
    ?_, ?_, ?_, ?_, ?_⟩
  all_goals first | decide | exact ⟨[], rfl, fun _ => rfl⟩

theorem meets_FloatDivides_2 :
  ∃ (s s1 s2 : State) (d a b : Code) (x y : Bool) (va vb : Word) (dest : Dest), admits { srcs := [a], dst := some d } s = true ∧
    Reads s a x va s1 ∧ Takes s1 d dest ∧ s1.occupied (tid s1) = true := by
  refine ⟨two 0x40800000 0, two 0x40800000 0, two 0x40800000 0, 10, 8, 9, false, false, 0x40800000, 0, .reg 10, ?_, ?_, ?_, ?_⟩
  all_goals first | decide | exact ⟨[], rfl, fun _ => rfl⟩

theorem meets_FloatDivides_2b :
  ∃ (s s1 s2 : State) (d a b : Code) (x y : Bool) (va vb : Word) (dest : Dest), admits { srcs := [a], dst := some d } s = true ∧
    Reads s a x va s1 ∧ Takes s1 d dest ∧ s1.occupied (tid s1) = true := by
  refine ⟨two 0xBF800000 0, two 0xBF800000 0, two 0xBF800000 0, 10, 8, 9, false, false, 0xBF800000, 0, .reg 10, ?_, ?_, ?_, ?_⟩
  all_goals first | decide | exact ⟨[], rfl, fun _ => rfl⟩

theorem meets_ConvertResults_1 :
  ∃ (s s1 s2 : State) (d a : Code) (f g : BitVec 3) (p : BitVec 2) (r : BitVec 3) (va : Word),
    let mode := if r.toNat = 4 then (current s1).rm.toNat else r.toNat;
    let c := (cvtFmt g.toNat).convert mode p.toNat ((cvtFmt f.toNat).decode (va.toNat % 2 ^ (cvtFmt f.toNat).width));
    admits { srcs := [a], dst := some d, literals := decide (r.toNat ≤ 4 ∧ f ≠ g ∧ ¬(5 ≤ f.toNat ∧ 5 ≤ g.toNat)) } s = true ∧
    Reads s a false va s1 ∧ c.trap = false ∧ Writes s1 d (if g = 7 then (BitVec.ofNat 32 c.code).signExtend 64 else BitVec.ofNat 64 c.code) s2 := by
  refine ⟨two 0x3FC00000 0, two 0x3FC00000 0, after (writeDst 10 1) (two 0x3FC00000 0), 10, 8, 0, 7, 0, 1, 0x3FC00000, ?_, ?_, ?_, ?_⟩
  all_goals first | decide | exact ⟨[], rfl, fun _ => rfl⟩ | exact ⟨_, rfl, fun _ => rfl⟩

theorem meets_ConvertResults_1b :
  ∃ (s s1 s2 : State) (d a : Code) (f g : BitVec 3) (p : BitVec 2) (r : BitVec 3) (va : Word),
    let mode := if r.toNat = 4 then (current s1).rm.toNat else r.toNat;
    let c := (cvtFmt g.toNat).convert mode p.toNat ((cvtFmt f.toNat).decode (va.toNat % 2 ^ (cvtFmt f.toNat).width));
    admits { srcs := [a], dst := some d, literals := decide (r.toNat ≤ 4 ∧ f ≠ g ∧ ¬(5 ≤ f.toNat ∧ 5 ≤ g.toNat)) } s = true ∧
    Reads s a false va s1 ∧ c.trap = false ∧ Writes s1 d (if g = 7 then (BitVec.ofNat 32 c.code).signExtend 64 else BitVec.ofNat 64 c.code) s2 := by
  refine ⟨two 3 0, two 3 0, after (writeDst 10 0x40400000) (two 3 0), 10, 8, 5, 0, 0, 4, 3, ?_, ?_, ?_, ?_⟩
  all_goals first | decide | exact ⟨[], rfl, fun _ => rfl⟩ | exact ⟨_, rfl, fun _ => rfl⟩

theorem meets_ConvertResults_1c :
  ∃ (s s1 s2 : State) (d a : Code) (f g : BitVec 3) (p : BitVec 2) (r : BitVec 3) (va : Word),
    let mode := if r.toNat = 4 then (current s1).rm.toNat else r.toNat;
    let c := (cvtFmt g.toNat).convert mode p.toNat ((cvtFmt f.toNat).decode (va.toNat % 2 ^ (cvtFmt f.toNat).width));
    admits { srcs := [a], dst := some d, literals := decide (r.toNat ≤ 4 ∧ f ≠ g ∧ ¬(5 ≤ f.toNat ∧ 5 ≤ g.toNat)) } s = true ∧
    Reads s a false va s1 ∧ c.trap = false ∧ Writes s1 d (if g = 7 then (BitVec.ofNat 32 c.code).signExtend 64 else BitVec.ofNat 64 c.code) s2 := by
  refine ⟨two 0x4F000000 0, two 0x4F000000 0, after (writeDst 10 0x7FFFFFFF) (two 0x4F000000 0), 10, 8, 0, 7, 0, 0, 0x4F000000, ?_, ?_, ?_, ?_⟩
  all_goals first | decide | exact ⟨[], rfl, fun _ => rfl⟩ | exact ⟨_, rfl, fun _ => rfl⟩

theorem meets_ConvertResults_2 :
  ∃ (s s1 s2 : State) (d a : Code) (f g : BitVec 3) (p : BitVec 2) (r : BitVec 3) (va : Word),
    let mode := if r.toNat = 4 then (current s1).rm.toNat else r.toNat;
    let c := (cvtFmt g.toNat).convert mode p.toNat ((cvtFmt f.toNat).decode (va.toNat % 2 ^ (cvtFmt f.toNat).width));
    admits { srcs := [a], dst := some d, literals := decide (r.toNat ≤ 4 ∧ f ≠ g ∧ ¬(5 ≤ f.toNat ∧ 5 ≤ g.toNat)) } s = true ∧
    Reads s a false va s1 ∧ c.trap = true := by
  refine ⟨two 0x501502F9 0, two 0x501502F9 0, two 0x501502F9 0, 10, 8, 0, 2, 3, 0, 0x501502F9, ?_, ?_, ?_⟩
  all_goals first | decide | exact ⟨[], rfl, fun _ => rfl⟩

theorem meets_FloatSkips :
  ∃ (s s1 s2 : State) (a b : Code) (c : BitVec 4) (k : BitVec 2) (p : BitVec 4) (x y : Bool) (va vb : Word) (f : Machine.Num → Machine.Num → Bool),
    floatConditions[c.toNat]? = some f ∧ skipFits s k.toNat ∧ admits { srcs := [a, b], literals := c.toNat < 8 } s = true ∧ Reads s a x va s1 ∧
    Reads s1 b y vb s2 := by
  refine ⟨two 0x3FC00000 0x40200000, two 0x3FC00000 0x40200000, two 0x3FC00000 0x40200000, 8, 9, 2, 1, 3, false, false, 0x3FC00000, 0x40200000,
    (fun x y => !(x.isNan || y.isNan) && decide (cmpNum x y < 0)), ?_, ?_, ?_, ?_, ?_⟩
  all_goals repeat' first | decide | rfl | exact ⟨[], rfl, fun _ => rfl⟩ | apply And.intro | (intro _ _ h; contradiction)

theorem meets_FloatSkips_1b :
  ∃ (s s1 s2 : State) (a b : Code) (c : BitVec 4) (k : BitVec 2) (p : BitVec 4) (x y : Bool) (va vb : Word) (f : Machine.Num → Machine.Num → Bool),
    floatConditions[c.toNat]? = some f ∧ skipFits s k.toNat ∧ admits { srcs := [a, b], literals := c.toNat < 8 } s = true ∧ Reads s a x va s1 ∧
    Reads s1 b y vb s2 := by
  refine ⟨two 0x7FC00000 0x40200000, two 0x7FC00000 0x40200000, two 0x7FC00000 0x40200000, 8, 9, 6, 3, 0, false, false, 0x7FC00000, 0x40200000,
    (fun x y => x.isNan || y.isNan), ?_, ?_, ?_, ?_, ?_⟩
  all_goals repeat' first | decide | rfl | exact ⟨[], rfl, fun _ => rfl⟩ | apply And.intro | (intro _ _ h; contradiction)

theorem meets_FloatControl_1 :
  ∃ (s s1 s2 : State) (d a : Code) (x : Bool) (v : Word), admits { srcs := [a], dst := some d } s = true ∧ Reads s a x v s1 ∧
    Writes s1 d (BitVec.ofNat 64 (2 ^ fclassOf v)) s2 := by
  refine ⟨two 0x3FC00000 0, two 0x3FC00000 0, after (writeDst 10 0x40) (two 0x3FC00000 0), 10, 8, false, 0x3FC00000, ?_, ?_, ?_⟩
  all_goals first | decide | exact ⟨[], rfl, fun _ => rfl⟩ | exact ⟨_, rfl, fun _ => rfl⟩

theorem meets_FloatControl_2 :
  ∃ (s s1 s2 : State) (d a : Code) (x : Bool) (v : Word), admits { srcs := [a], dst := some d } s = true ∧ Reads s a x v s1 ∧ floatsDone s ∧
    Writes s1 d ((current s1).fflags.setWidth 64) s2 := by
  refine ⟨two 0x1F 0, two 0x1F 0, after (writeDst 10 0) (two 0x1F 0), 10, 8, false, 0x1F, ?_, ?_, ?_, ?_⟩
  all_goals first | decide | exact ⟨[], rfl, fun _ => rfl⟩ | exact ⟨_, rfl, fun _ => rfl⟩ | (intro _ h; cases h <;> rfl)

theorem meets_FloatControl_3 :
  ∃ (s s1 s2 : State) (d a : Code) (x : Bool) (v : Word), admits { srcs := [a], dst := some d } s = true ∧ Reads s a x v s1 ∧ floatsDone s ∧
    v.toNat ≤ 3 ∧ Writes s1 d ((current s1).rm.setWidth 64) s2 := by
  refine ⟨two 3 0, two 3 0, after (writeDst 10 0) (two 3 0), 10, 8, false, 3, ?_, ?_, ?_, ?_, ?_⟩
  all_goals first | decide | exact ⟨[], rfl, fun _ => rfl⟩ | exact ⟨_, rfl, fun _ => rfl⟩ | (intro _ h; cases h <;> rfl)

theorem meets_FloatControl_4 :
  ∃ (s s1 s2 : State) (d a : Code) (x : Bool) (v : Word), admits { srcs := [a], dst := some d } s = true ∧ Reads s a x v s1 ∧ floatsDone s ∧
    3 < v.toNat := by
  refine ⟨two 4 0, two 4 0, two 4 0, 10, 8, false, 4, ?_, ?_, ?_, ?_⟩
  all_goals first | decide | exact ⟨[], rfl, fun _ => rfl⟩ | (intro _ h; cases h <;> rfl)

theorem meets_FloatControl_5 :
  ∃ (s s1 s2 : State) (d a : Code) (x : Bool) (v : Word), admits { dst := some d } s = true ∧ floatsDone s ∧
    Writes s d ((current s).fflags.setWidth 64) s1 := by
  refine ⟨st, after (writeDst 10 0) st, after (writeDst 10 0) st, 10, 8, false, 0, ?_, ?_, ?_⟩
  all_goals first | decide | exact ⟨_, rfl, fun _ => rfl⟩ | (intro _ h; cases h <;> rfl)

theorem meets_FloatControl_6 :
  ∃ (s s1 s2 : State) (d a : Code) (x : Bool) (v : Word), admits { dst := some d } s = true ∧ ¬floatsDone s := by
  refine ⟨machine [(0, { user [] with producers := [(0, { dest := .none, value := 0, isFloat := true })] })], machine [(0,
    { user [] with producers := [(0, { dest := .none, value := 0, isFloat := true })] })], machine [(0,
      { user [] with producers := [(0, { dest := .none, value := 0, isFloat := true })] })], 10, 8, false, 0, ?_, ?_⟩
  all_goals repeat' first | decide | simp only [List.mem_singleton, forall_eq] | (unfold floatsDone; decide)

theorem meets_FloatControl_7 :
  ∃ (s s1 s2 : State) (d a : Code) (x : Bool) (v : Word), admits { dst := some d } s = true ∧ Writes s d ((current s).rm.setWidth 64) s1 := by
  refine ⟨st, after (writeDst 10 0) st, after (writeDst 10 0) st, 10, 8, false, 0, ?_, ?_⟩
  all_goals first | decide | exact ⟨_, rfl, fun _ => rfl⟩

theorem meets_ExactArithmetic_1 :
  ∃ (mode : Nat) (x y c : Machine.Num) (e0 e1 : Int), isFinite x = true ∧ isFinite y = true ∧ isFinite c = true ∧ e0 ≤ exponentOf x ∧
    e1 ≤ exponentOf y ∧ e0 ≤ exponentOf c := by
  refine ⟨2, Num.fin true 3 2, Num.fin false 5 (-1), Num.fin false 12 0, -1, -2, ?_, ?_, ?_, ?_, ?_, ?_⟩
  all_goals decide

theorem meets_ExactArithmetic_2 :
  ∃ (mode : Nat) (x y c : Machine.Num) (e0 e1 : Int), isFinite x = true ∧ isFinite y = true ∧ isFinite c = true ∧ e0 ≤ exponentOf x ∧
    e1 ≤ exponentOf y ∧ e0 + e1 ≤ exponentOf c := by
  refine ⟨0, Num.fin true 3 2, Num.fin false 5 (-1), Num.fin false 12 1, 2, -1, ?_, ?_, ?_, ?_, ?_, ?_⟩
  all_goals decide

theorem meets_RoundingModes :
  ∃ (neg : Bool) (m drop : Nat), let u := 2 ^ drop; let r := roundMag 0 neg m drop; (2 * (r * u) = 2 * m + u ∨ 2 * m = 2 * (r * u) + u) := by
  refine ⟨true, 10, 2, ?_⟩
  all_goals decide

theorem meets_RoundingModes_1b :
  ∃ (neg : Bool) (m drop : Nat), let u := 2 ^ drop; let r := roundMag 0 neg m drop; (2 * (r * u) = 2 * m + u ∨ 2 * m = 2 * (r * u) + u) := by
  refine ⟨false, 14, 2, ?_⟩
  all_goals decide

theorem meets_SendResult :
  ∃ (s s1 s2 u : State) (d a b : Code) (x y : Bool) (va vb : Word) (c n : Nat) (ps : List (Word × Part)) (bs : List Byte) (dest : Dest),
    let k := tid s2 / 16; let la := bits va 55 48; let vt := (s2.coreOf k).vt; admits { srcs := [a, b], dst := some d } s = true ∧
    (current s).held = [] ∧ Reads s a x va s1 ∧ Reads s1 b y vb s2 ∧ va &&& 0xFF00C000FF000000 = 0 ∧ la ≠ 0 ∧ bits va 45 40 = n ∧ 1 ≤ n ∧ n ≤ 62 ∧
    bits va 39 32 < 0xF8 ∧ Names s2 (va &&& 0xFFFFFF) c ∧ vt ≠ BitVec.allOnes 64 ∧ vt.toNat + la ≤ 2 ^ 64 - 2 ∧ oldestOrOutside s2 ∧
    Performs awaitPoint s2 () s2 ∧ vb.toNat % 8 = 0 ∧ (current s2).sending = none ∧ Performs (locateWords vb n) s2 ps u ∧ Takes u d dest ∧
    (u.coreOf k).sendq.length < 8 ∧ Performs (gather [va, vb] ps) u (some bs) u ∧ (owner u).twin = none ∧ u.occupied (tid u) = true := by
  refine ⟨sendSt 0x1020500000000 100, sendSt 0x1020500000000 100, sendSt 0x1020500000000 100, sendSt 0x1020500000000 100, 10, 8, 9, false, false,
    0x1020500000000, 0x20000, 0, 2, sendParts, leBytes 8 11 ++ leBytes 8 22, .reg 10, ?_, ?_, ?_, ?_, ?_, ?_, ?_, ?_, ?_, ?_, ?_, ?_, ?_, ?_, ?_, ?_,
      ?_, ?_, ?_, ?_, ?_, ?_, ?_⟩
  all_goals first | exact ⟨[], rfl, fun _ => by cbv⟩ | decide | (intro _ _ h; contradiction)

theorem meets_SendResult_1b :
  ∃ (s s1 s2 u : State) (d a b : Code) (x y : Bool) (va vb : Word) (c n : Nat) (ps : List (Word × Part)) (bs : List Byte) (dest : Dest),
    let k := tid s2 / 16; let la := bits va 55 48; let vt := (s2.coreOf k).vt; admits { srcs := [a, b], dst := some d } s = true ∧
    (current s).held = [] ∧ Reads s a x va s1 ∧ Reads s1 b y vb s2 ∧ va &&& 0xFF00C000FF000000 = 0 ∧ la ≠ 0 ∧ bits va 45 40 = n ∧ 1 ≤ n ∧ n ≤ 62 ∧
    bits va 39 32 < 0xF8 ∧ Names s2 (va &&& 0xFFFFFF) c ∧ vt ≠ BitVec.allOnes 64 ∧ vt.toNat + la ≤ 2 ^ 64 - 2 ∧ oldestOrOutside s2 ∧
    Performs awaitPoint s2 () s2 ∧ vb.toNat % 8 = 0 ∧ (current s2).sending = none ∧ Performs (locateWords vb n) s2 ps u ∧ Takes u d dest ∧
    (u.coreOf k).sendq.length < 8 ∧ Performs (gather [va, vb] ps) u (some bs) u ∧ (owner u).twin = none ∧ u.occupied (tid u) = true := by
  refine ⟨sendSt 0x1020500000000 0xFFFFFFFFFFFFFFFD, sendSt 0x1020500000000 0xFFFFFFFFFFFFFFFD, sendSt 0x1020500000000 0xFFFFFFFFFFFFFFFD,
    sendSt 0x1020500000000 0xFFFFFFFFFFFFFFFD, 10, 8, 9, false, false, 0x1020500000000, 0x20000, 0, 2, sendParts, leBytes 8 11 ++ leBytes 8 22,
      .reg 10, ?_, ?_, ?_, ?_, ?_, ?_, ?_, ?_, ?_, ?_, ?_, ?_, ?_, ?_, ?_, ?_, ?_, ?_, ?_, ?_, ?_, ?_, ?_⟩
  all_goals first | exact ⟨[], rfl, fun _ => by cbv⟩ | decide | (intro _ _ h; contradiction)

theorem meets_SendTraps_1 :
  ∃ (s s1 s2 : State) (d a b : Code) (x y : Bool) (va vb : Word) (c : Nat), admits { srcs := [a, b], dst := some d } s = true ∧
    (current s).held = [] ∧ Reads s a x va s1 ∧ Reads s1 b y vb s2 ∧ (current s2).sending = none ∧ bits va 55 48 = 0 := by
  refine ⟨sendSt 0x20500000000 100, sendSt 0x20500000000 100, sendSt 0x20500000000 100, 10, 8, 9, false, false, 0x20500000000, 0x20000, 0, ?_, ?_,
    ?_, ?_, ?_, ?_⟩
  all_goals first | decide | exact ⟨[], rfl, fun _ => rfl⟩

theorem meets_SendTraps_2 :
  ∃ (s s1 s2 : State) (d a b : Code) (x y : Bool) (va vb : Word) (c : Nat), admits { srcs := [a, b], dst := some d } s = true ∧
    (current s).held = [] ∧ Reads s a x va s1 ∧ Reads s1 b y vb s2 ∧ (current s2).sending = none ∧ Names s2 (va &&& 0xFFFFFF) c ∧
    (s2.coreOf (tid s2 / 16)).vt = BitVec.allOnes 64 := by
  refine ⟨sendSt 0x1020500000000 0xFFFFFFFFFFFFFFFF, sendSt 0x1020500000000 0xFFFFFFFFFFFFFFFF, sendSt 0x1020500000000 0xFFFFFFFFFFFFFFFF, 10, 8, 9,
    false, false, 0x1020500000000, 0x20000, 0, ?_, ?_, ?_, ?_, ?_, ?_, ?_⟩
  all_goals first | decide | exact ⟨[], rfl, fun _ => rfl⟩ | exact ⟨[], rfl, fun _ => by cbv⟩

theorem meets_SendTraps_3 :
  ∃ (s s1 s2 : State) (d a b : Code) (x y : Bool) (va vb : Word) (c : Nat), admits { srcs := [a, b], dst := some d } s = true ∧
    (current s).held = [] ∧ Reads s a x va s1 ∧ Reads s1 b y vb s2 ∧ (current s2).sending = none ∧ Names s2 (va &&& 0xFFFFFF) c ∧
    oldestOrOutside s2 ∧ Performs awaitPoint s2 () s2 ∧ vb.toNat % 8 ≠ 0 := by
  refine ⟨{ sendSt 0x1020500000000 100 with threads := [(0, { sendTh 0x1020500000000 with regs := [(8, full 0x1020500000000), (9, full 0x20004)] })] }, { sendSt 0x1020500000000 100 with threads := [(0, { sendTh 0x1020500000000 with regs := [(8, full 0x1020500000000), (9, full 0x20004)] })] }, { sendSt 0x1020500000000 100 with threads := [(0, { sendTh 0x1020500000000 with regs := [(8, full 0x1020500000000), (9, full 0x20004)] })] }, 10, 8, 9, false, false, 0x1020500000000, 0x20004, 0, ?_, ?_, ?_, ?_, ?_, ?_, ?_, ?_, ?_⟩
  all_goals repeat' first
    | decide | exact ⟨[], rfl, fun _ => rfl⟩ | exact ⟨[], rfl, fun _ => by cbv⟩ | simp only [List.mem_singleton, forall_eq]
    | (intro _ _ h; contradiction)

theorem meets_RecvResult_1 :
  ∃ (s s1 s2 u : State) (d a b : Code) (x y : Bool) (va vb : Word) (st : Staged) (parts : List Part) (dest : Dest), let k := tid s2 / 16;
    let cap := bits va 14 8; let chan := bits va 7 0; let i := FMap.get {} (u.coreOf k).inboxes (chan % 4);
    admits { srcs := [a, b], dst := some d } s = true ∧ Reads s a x va s1 ∧ Reads s1 b y vb s2 ∧ bits va 63 16 = 0 ∧ 2 ≤ cap ∧ cap ≤ 64 ∧
    chan < 0xF8 ∧ vb.toNat % 8 = 0 ∧ Performs (segment vb (8 * cap) .store) s2 st s2 ∧
    Performs (locateParts vb .store st ((List.range cap).map fun i => (8 * i, 8))) s2 parts u ∧ Admitted u vb true 8 parts ∧ oldestOrOutside u ∧
    readsDone u ∧ Takes u d dest ∧ (∀ r ∈ (u.coreOf k).receivers, r.chan ≠ chan) ∧ u.occupied (tid u) = true ∧ u.clock.slot < 16 ∧ ∃ r,
    best (released u k chan) = some r ∧ 8 * parts.length < recLen r.plen := by
  refine ⟨recvSt 0x205 inbox, recvSt 0x205 inbox, recvSt 0x205 inbox, recvSt 0x205 inbox, 10, 8, 9, false, false, 0x205, 0x30000, .local_ 0x30000,
    recvParts 2, .reg 10, ?_, ?_, ?_, ?_, ?_, ?_, ?_, ?_, ?_, ?_, ?_, ?_, ?_, ?_, ?_, ?_, ?_, record, ?_, ?_⟩
  all_goals first | decide | exact ⟨[], rfl, fun _ => rfl⟩ | exact ⟨[], rfl, fun _ => by cbv⟩ | (intro _ _ h; contradiction)

theorem meets_RecvResult_2 :
  ∃ (s s1 s2 u : State) (d a b : Code) (x y : Bool) (va vb : Word) (st : Staged) (parts : List Part) (dest : Dest), let k := tid s2 / 16;
    let cap := bits va 14 8; let chan := bits va 7 0; let i := FMap.get {} (u.coreOf k).inboxes (chan % 4);
    admits { srcs := [a, b], dst := some d } s = true ∧ Reads s a x va s1 ∧ Reads s1 b y vb s2 ∧ bits va 63 16 = 0 ∧ 2 ≤ cap ∧ cap ≤ 64 ∧
    chan < 0xF8 ∧ vb.toNat % 8 = 0 ∧ Performs (segment vb (8 * cap) .store) s2 st s2 ∧
    Performs (locateParts vb .store st ((List.range cap).map fun i => (8 * i, 8))) s2 parts u ∧ Admitted u vb true 8 parts ∧ oldestOrOutside u ∧
    readsDone u ∧ Takes u d dest ∧ (∀ r ∈ (u.coreOf k).receivers, r.chan ≠ chan) ∧ u.occupied (tid u) = true ∧ u.clock.slot < 16 ∧ ∃ r,
    best (released u k chan) = some r ∧ recLen r.plen ≤ 8 * parts.length ∧ r.off = i.head ∧ let src := inboxKey k i r.off;
    let used := parts.take (recLen r.plen / 8);
    (∀ p ∈ used, plainPlace p.place = true ∧ Clean u (keyOfPart p) 8 ∧ Unwatched u (keyOfPart p) 8 ∧ inInbox k i (keyOfPart p) = false) ∧
    (∀ n, n < used.length → u.poisonAt (src + 8 * n) = false ∧ FMap.get? u.pkg.eccBad (src + 8 * n) = none) := by
  refine ⟨recvSt 0x405 inbox, recvSt 0x405 inbox, recvSt 0x405 inbox, recvSt 0x405 inbox, 10, 8, 9, false, false, 0x405, 0x30000, .local_ 0x30000,
    recvParts 4, .reg 10, ?_, ?_, ?_, ?_, ?_, ?_, ?_, ?_, ?_, ?_, ?_, ?_, ?_, ?_, ?_, ?_, ?_, record, ?_, ?_, ?_, ?_, ?_⟩
  all_goals first
    | decide | exact ⟨[], rfl, fun _ => rfl⟩ | exact ⟨[], rfl, fun _ => by cbv⟩ | (intro _ _ h; contradiction)
    | (unfold Clean Unwatched Unmonitored; decide)

theorem meets_RecvResult_2b :
  ∃ (s s1 s2 u : State) (d a b : Code) (x y : Bool) (va vb : Word) (st : Staged) (parts : List Part) (dest : Dest), let k := tid s2 / 16;
    let cap := bits va 14 8; let chan := bits va 7 0; let i := FMap.get {} (u.coreOf k).inboxes (chan % 4);
    admits { srcs := [a, b], dst := some d } s = true ∧ Reads s a x va s1 ∧ Reads s1 b y vb s2 ∧ bits va 63 16 = 0 ∧ 2 ≤ cap ∧ cap ≤ 64 ∧
    chan < 0xF8 ∧ vb.toNat % 8 = 0 ∧ Performs (segment vb (8 * cap) .store) s2 st s2 ∧
    Performs (locateParts vb .store st ((List.range cap).map fun i => (8 * i, 8))) s2 parts u ∧ Admitted u vb true 8 parts ∧ oldestOrOutside u ∧
    readsDone u ∧ Takes u d dest ∧ (∀ r ∈ (u.coreOf k).receivers, r.chan ≠ chan) ∧ u.occupied (tid u) = true ∧ u.clock.slot < 16 ∧ ∃ r,
    best (released u k chan) = some r ∧ recLen r.plen ≤ 8 * parts.length ∧ r.off = i.head ∧ let src := inboxKey k i r.off;
    let used := parts.take (recLen r.plen / 8);
    (∀ p ∈ used, plainPlace p.place = true ∧ Clean u (keyOfPart p) 8 ∧ Unwatched u (keyOfPart p) 8 ∧ inInbox k i (keyOfPart p) = false) ∧
    (∀ n, n < used.length → u.poisonAt (src + 8 * n) = false ∧ FMap.get? u.pkg.eccBad (src + 8 * n) = none) := by
  refine ⟨recvSt 0x4005 inbox, recvSt 0x4005 inbox, recvSt 0x4005 inbox, recvSt 0x4005 inbox, 10, 8, 9, false, false, 0x4005, 0x30000,
    .local_ 0x30000, recvParts 64, .reg 10, ?_, ?_, ?_, ?_, ?_, ?_, ?_, ?_, ?_, ?_, ?_, ?_, ?_, ?_, ?_, ?_, ?_, record, ?_, ?_, ?_, ?_, ?_⟩
  all_goals first
    | decide | exact ⟨[], rfl, fun _ => rfl⟩ | exact ⟨[], rfl, fun _ => by cbv⟩ | (intro _ _ h; contradiction)
    | (unfold Clean Unwatched Unmonitored; decide)

theorem meets_RecvResult_3 :
  ∃ (s s1 s2 u : State) (d a b : Code) (x y : Bool) (va vb : Word) (st : Staged) (parts : List Part) (dest : Dest), let k := tid s2 / 16;
    let cap := bits va 14 8; let chan := bits va 7 0; let i := FMap.get {} (u.coreOf k).inboxes (chan % 4);
    admits { srcs := [a, b], dst := some d } s = true ∧ Reads s a x va s1 ∧ Reads s1 b y vb s2 ∧ bits va 63 16 = 0 ∧ 2 ≤ cap ∧ cap ≤ 64 ∧
    chan < 0xF8 ∧ vb.toNat % 8 = 0 ∧ Performs (segment vb (8 * cap) .store) s2 st s2 ∧
    Performs (locateParts vb .store st ((List.range cap).map fun i => (8 * i, 8))) s2 parts u ∧ Admitted u vb true 8 parts ∧ oldestOrOutside u ∧
    readsDone u ∧ Takes u d dest ∧ (∀ r ∈ (u.coreOf k).receivers, r.chan ≠ chan) ∧ u.occupied (tid u) = true ∧ u.clock.slot < 16 ∧
    released u k chan = [] ∧ bit va 15 = true := by
  refine ⟨recvSt 0x8405 { inbox with tail := 0 }, recvSt 0x8405 { inbox with tail := 0 }, recvSt 0x8405 { inbox with tail := 0 },
    recvSt 0x8405 { inbox with tail := 0 }, 10, 8, 9, false, false, 0x8405, 0x30000, .local_ 0x30000, recvParts 4, .reg 10, ?_, ?_, ?_, ?_, ?_, ?_,
      ?_, ?_, ?_, ?_, ?_, ?_, ?_, ?_, ?_, ?_, ?_, ?_, ?_⟩
  all_goals repeat' first
    | decide | exact ⟨[], rfl, fun _ => rfl⟩ | exact ⟨[], rfl, fun _ => by cbv⟩ | simp only [List.mem_singleton, forall_eq]
    | (intro _ _ h; contradiction)

theorem meets_RecvResult_4 :
  ∃ (s s1 s2 u : State) (d a b : Code) (x y : Bool) (va vb : Word) (st : Staged) (parts : List Part) (dest : Dest), let k := tid s2 / 16;
    let cap := bits va 14 8; let chan := bits va 7 0; let i := FMap.get {} (u.coreOf k).inboxes (chan % 4);
    admits { srcs := [a, b], dst := some d } s = true ∧ Reads s a x va s1 ∧ Reads s1 b y vb s2 ∧ bits va 63 16 = 0 ∧ 2 ≤ cap ∧ cap ≤ 64 ∧
    chan < 0xF8 ∧ vb.toNat % 8 = 0 ∧ Performs (segment vb (8 * cap) .store) s2 st s2 ∧
    Performs (locateParts vb .store st ((List.range cap).map fun i => (8 * i, 8))) s2 parts u ∧ Admitted u vb true 8 parts ∧ oldestOrOutside u ∧
    readsDone u ∧ Takes u d dest ∧ (∀ r ∈ (u.coreOf k).receivers, r.chan ≠ chan) ∧ u.occupied (tid u) = true ∧ u.clock.slot < 16 ∧
    released u k chan = [] ∧ bit va 15 = false ∧ ((current u).col.isSome = true ∨ isLink a = true ∨ isLink b = true) := by
  refine ⟨{ recvSt 0x405 { inbox with tail := 0 } with threads := [(0, { user [(8, full 0x405), (9, full 0x30000), (10, full 0)] with segs := [(0, sgLs)], col := some { head := 0, j := 0, idx := 0, inHandler := true } })] }, { recvSt 0x405 { inbox with tail := 0 } with threads := [(0, { user [(8, full 0x405), (9, full 0x30000), (10, full 0)] with segs := [(0, sgLs)], col := some { head := 0, j := 0, idx := 0, inHandler := true } })] }, { recvSt 0x405 { inbox with tail := 0 } with threads := [(0, { user [(8, full 0x405), (9, full 0x30000), (10, full 0)] with segs := [(0, sgLs)], col := some { head := 0, j := 0, idx := 0, inHandler := true } })] }, { recvSt 0x405 { inbox with tail := 0 } with threads := [(0, { user [(8, full 0x405), (9, full 0x30000), (10, full 0)] with segs := [(0, sgLs)], col := some { head := 0, j := 0, idx := 0, inHandler := true } })] }, 10, 8, 9, false, false, 0x405, 0x30000, .local_ 0x30000, recvParts 4, .reg 10, ?_, ?_, ?_, ?_, ?_, ?_, ?_, ?_, ?_, ?_, ?_, ?_, ?_, ?_, ?_, ?_, ?_, ?_, ?_, ?_⟩
  all_goals repeat' first
    | decide | exact ⟨[], rfl, fun _ => rfl⟩ | exact ⟨[], rfl, fun _ => by cbv⟩ | simp only [List.mem_singleton, forall_eq]
    | (intro _ _ h; contradiction)

theorem meets_RecvResult_5 :
  ∃ (s s1 s2 u : State) (d a b : Code) (x y : Bool) (va vb : Word) (st : Staged) (parts : List Part) (dest : Dest), let k := tid s2 / 16;
    let cap := bits va 14 8; let chan := bits va 7 0; let i := FMap.get {} (u.coreOf k).inboxes (chan % 4);
    admits { srcs := [a, b], dst := some d } s = true ∧ Reads s a x va s1 ∧ Reads s1 b y vb s2 ∧ bits va 63 16 = 0 ∧ 2 ≤ cap ∧ cap ≤ 64 ∧
    chan < 0xF8 ∧ vb.toNat % 8 = 0 ∧ Performs (segment vb (8 * cap) .store) s2 st s2 ∧
    Performs (locateParts vb .store st ((List.range cap).map fun i => (8 * i, 8))) s2 parts u ∧ Admitted u vb true 8 parts ∧ oldestOrOutside u ∧
    readsDone u ∧ Takes u d dest ∧ (∀ r ∈ (u.coreOf k).receivers, r.chan ≠ chan) ∧ u.occupied (tid u) = true ∧ u.clock.slot < 16 ∧
    released u k chan = [] ∧ bit va 15 = false ∧ (current u).col = none ∧ isLink a = false ∧ isLink b = false := by
  refine ⟨recvSt 0x405 { inbox with tail := 0 }, recvSt 0x405 { inbox with tail := 0 }, recvSt 0x405 { inbox with tail := 0 },
    recvSt 0x405 { inbox with tail := 0 }, 10, 8, 9, false, false, 0x405, 0x30000, .local_ 0x30000, recvParts 4, .reg 10, ?_, ?_, ?_, ?_, ?_, ?_, ?_,
      ?_, ?_, ?_, ?_, ?_, ?_, ?_, ?_, ?_, ?_, ?_, ?_, ?_, ?_, ?_⟩
  all_goals repeat' first
    | decide | exact ⟨[], rfl, fun _ => rfl⟩ | exact ⟨[], rfl, fun _ => by cbv⟩ | simp only [List.mem_singleton, forall_eq]
    | (intro _ _ h; contradiction)

theorem meets_TimeResults_1 :
  ∃ (s s1 : State) (d a : Code) (x : Bool) (v : Word) (dest : Dest), admits { srcs := [a], dst := some d } s = true ∧ Reads s a x v s1 ∧
    oldestOrOutside s1 ∧ Takes s1 d dest ∧ s1.occupied (tid s1) = true := by
  refine ⟨{ two 5 0 with cores := [(0, { vt := 3 })] }, { two 5 0 with cores := [(0, { vt := 3 })] }, 10, 8, false, 5, .reg 10, ?_, ?_, ?_, ?_, ?_⟩
  all_goals repeat' first | decide | exact ⟨[], rfl, fun _ => rfl⟩ | simp only [List.mem_singleton, forall_eq] | (intro _ _ h; contradiction)

theorem meets_TimeResults_1b :
  ∃ (s s1 : State) (d a : Code) (x : Bool) (v : Word) (dest : Dest), admits { srcs := [a], dst := some d } s = true ∧ Reads s a x v s1 ∧
    oldestOrOutside s1 ∧ Takes s1 d dest ∧ s1.occupied (tid s1) = true := by
  refine ⟨{ two 0xFFFFFFFFFFFFFFFF 0 with cores := [(0, { vt := 3 })] }, { two 0xFFFFFFFFFFFFFFFF 0 with cores := [(0, { vt := 3 })] }, 10, 8, false,
    0xFFFFFFFFFFFFFFFF, .reg 10, ?_, ?_, ?_, ?_, ?_⟩
  all_goals repeat' first | decide | exact ⟨[], rfl, fun _ => rfl⟩ | simp only [List.mem_singleton, forall_eq] | (intro _ _ h; contradiction)

theorem meets_TimeResults_1c :
  ∃ (s s1 : State) (d a : Code) (x : Bool) (v : Word) (dest : Dest), admits { srcs := [a], dst := some d } s = true ∧ Reads s a x v s1 ∧
    oldestOrOutside s1 ∧ Takes s1 d dest ∧ s1.occupied (tid s1) = true := by
  refine ⟨{ two 5 0 with cores := [(0, {}), (1, { vt := 8 })] }, { two 5 0 with cores := [(0, {}), (1, { vt := 8 })] }, 10, 8, false, 5, .reg 10, ?_,
    ?_, ?_, ?_, ?_⟩
  all_goals repeat' first | decide | exact ⟨[], rfl, fun _ => rfl⟩ | simp only [List.mem_singleton, forall_eq] | (intro _ _ h; contradiction)

theorem meets_TimeResults_2 :
  ∃ (s s1 : State) (d a : Code) (x : Bool) (v : Word) (dest : Dest), admits { dst := some d } s = true ∧
    Writes s d (BitVec.ofNat 64 (seenGlb s s.clock.core)) s1 := by
  refine ⟨{ st with cores := [(0, {}), (1, { vt := 8 })] }, after (writeDst 10 9) { st with cores := [(0, {}), (1, { vt := 8 })] }, 10, 8, false, 0,
    .reg 10, ?_, ?_⟩
  all_goals first | decide | exact ⟨_, rfl, fun _ => rfl⟩

theorem meets_LinkConfig_1 :
  ∃ (s s1 s2 s3 : State) (d a b : Code) (x y : Bool) (va vb : Word) (dest : Dest), let dir := Dir.ofIdx va.toNat;
    admits { srcs := [a, b], dst := some d, unit := hasLinks } s = true ∧ Reads s a x va s1 ∧ Reads s1 b y vb s2 ∧ va.toNat ≤ 3 ∧ vb = 0 ∧
    Writes s2 d (linkStatus s2 s2.clock.core dir) s3 := by
  refine ⟨{ two 1 0 with cores := [(0, { links := [(1, [41, 42])] })] }, { two 1 0 with cores := [(0, { links := [(1, [41, 42])] })] },
    { two 1 0 with cores := [(0, { links := [(1, [41, 42])] })] },
      after (writeDst 10 0x2002) { two 1 0 with cores := [(0, { links := [(1, [41, 42])] })] }, 10, 8, 9, false, false, 1, 0, .reg 10, ?_, ?_, ?_,
        ?_, ?_, ?_⟩
  all_goals first | decide | exact ⟨[], rfl, fun _ => rfl⟩ | exact ⟨_, rfl, fun _ => rfl⟩

theorem meets_LinkConfig_1b :
  ∃ (s s1 s2 s3 : State) (d a b : Code) (x y : Bool) (va vb : Word) (dest : Dest), let dir := Dir.ofIdx va.toNat;
    admits { srcs := [a, b], dst := some d, unit := hasLinks } s = true ∧ Reads s a x va s1 ∧ Reads s1 b y vb s2 ∧ va.toNat ≤ 3 ∧ vb = 0 ∧
    Writes s2 d (linkStatus s2 s2.clock.core dir) s3 := by
  refine ⟨two 3 0, two 3 0, two 3 0, after (writeDst 10 0x2000) (two 3 0), 10, 8, 9, false, false, 3, 0, .reg 10, ?_, ?_, ?_, ?_, ?_, ?_⟩
  all_goals first | decide | exact ⟨[], rfl, fun _ => rfl⟩ | exact ⟨_, rfl, fun _ => rfl⟩

theorem meets_LinkConfig_2 :
  ∃ (s s1 s2 s3 : State) (d a b : Code) (x y : Bool) (va vb : Word) (dest : Dest),
    admits { srcs := [a, b], dst := some d, unit := hasLinks } s = true ∧ Reads s a x va s1 ∧ Reads s1 b y vb s2 ∧ va.toNat ≤ 3 ∧ vb = 1 ∧
    (current s2).col = none ∧ oldestOrOutside s2 ∧ Takes s2 d dest ∧ s2.occupied (tid s2) = true := by
  refine ⟨{ two 1 1 with cores := [(0, { links := [(1, [41, 42])] })] }, { two 1 1 with cores := [(0, { links := [(1, [41, 42])] })] },
    { two 1 1 with cores := [(0, { links := [(1, [41, 42])] })] }, { two 1 1 with cores := [(0, { links := [(1, [41, 42])] })] }, 10, 8, 9, false,
      false, 1, 1, .reg 10, ?_, ?_, ?_, ?_, ?_, ?_, ?_, ?_, ?_⟩
  all_goals repeat' first | decide | exact ⟨[], rfl, fun _ => rfl⟩ | simp only [List.mem_singleton, forall_eq] | (intro _ _ h; contradiction)

theorem meets_LinkConfig_3 :
  ∃ (s s1 s2 s3 : State) (d a b : Code) (x y : Bool) (va vb : Word) (dest : Dest),
    admits { srcs := [a, b], dst := some d, unit := hasLinks } s = true ∧ Reads s a x va s1 ∧ Reads s1 b y vb s2 ∧ (3 < va.toNat ∨ 1 < vb.toNat) := by
  refine ⟨two 4 0, two 4 0, two 4 0, two 4 0, 10, 8, 9, false, false, 4, 0, .reg 10, ?_, ?_, ?_, ?_⟩
  all_goals first | decide | exact ⟨[], rfl, fun _ => rfl⟩

theorem meets_LinkConfig_3b :
  ∃ (s s1 s2 s3 : State) (d a b : Code) (x y : Bool) (va vb : Word) (dest : Dest),
    admits { srcs := [a, b], dst := some d, unit := hasLinks } s = true ∧ Reads s a x va s1 ∧ Reads s1 b y vb s2 ∧ (3 < va.toNat ∨ 1 < vb.toNat) := by
  refine ⟨two 3 2, two 3 2, two 3 2, two 3 2, 10, 8, 9, false, false, 3, 2, .reg 10, ?_, ?_, ?_, ?_⟩
  all_goals first | decide | exact ⟨[], rfl, fun _ => rfl⟩

theorem meets_LinkEvents_1 :
  ∃ (s : State) (k : Nat) (d : Dir) (v : Word), (s.coreOf k).isSealed = false ∧ (∀ b, (s.coreOf k).bist = some b → b.test ≠ 4) := by
  refine ⟨{ cores := [(3, { links := [(1, [41])] })] }, 3, .e, 9, ?_, ?_⟩
  all_goals decide

theorem meets_LinkEvents_2 :
  ∃ (s : State) (k : Nat) (d : Dir) (v : Word), (s.coreOf k).isSealed = true := by
  refine ⟨{ cores := [(3, { isSealed := true })] }, 3, .e, 9, ?_⟩
  all_goals decide

theorem meets_MessageArrival_1 :
  ∃ (s : State) (k : Nat) (m : Message), let i := m.chan % 4; let b := FMap.get {} (s.coreOf k).inboxes i;
    let words := m.stamp :: BitVec.ofNat 64 (m.chan % 256 * 2 ^ 40 + m.src % 2 ^ 24 * 2 ^ 16 + 8 * m.data.length) :: (m.data.map (·.1) ++ if m.data.length % 2 = 1 then [0] else []);
    (s.coreOf k).isSealed = false ∧ underTest s (inboxKey k b 0) = false ∧ recordFits b m = true ∧
    Untouched s (inboxKey k b b.tail) (8 * words.length) ∧ (s.coreOf k).receivers = [] := by
  refine ⟨recvSt 0 { inbox with head := 32 }, 0, message, ?_, ?_, ?_, ?_, ?_⟩
  all_goals repeat' first
    | decide | apply And.intro | simp only [List.mem_singleton, forall_eq] | (intro _ _ h; contradiction)
    | (refine upToDw ?_; unfold Unwaited; decide)

theorem meets_MessageArrival_1b :
  ∃ (s : State) (k : Nat) (m : Message), let i := m.chan % 4; let b := FMap.get {} (s.coreOf k).inboxes i;
    let words := m.stamp :: BitVec.ofNat 64 (m.chan % 256 * 2 ^ 40 + m.src % 2 ^ 24 * 2 ^ 16 + 8 * m.data.length) :: (m.data.map (·.1) ++ if m.data.length % 2 = 1 then [0] else []);
    (s.coreOf k).isSealed = false ∧ underTest s (inboxKey k b 0) = false ∧ recordFits b m = true ∧
    Untouched s (inboxKey k b b.tail) (8 * words.length) ∧ (s.coreOf k).receivers = [] := by
  refine ⟨recvSt 0 { inbox with tail := 0 }, 0, { message with data := [(77, false), (78, false)] }, ?_, ?_, ?_, ?_, ?_⟩
  all_goals repeat' first
    | decide | apply And.intro | simp only [List.mem_singleton, forall_eq] | (intro _ _ h; contradiction)
    | (refine upToDw ?_; unfold Unwaited; decide)

theorem meets_MessageArrival_2 :
  ∃ (s : State) (k : Nat) (m : Message), let i := m.chan % 4; let b := FMap.get {} (s.coreOf k).inboxes i; (s.coreOf k).isSealed = false ∧
    underTest s (inboxKey k b 0) = false ∧ b.en = false := by
  refine ⟨recvSt 0 { inbox with en := false }, 0, message, ?_, ?_, ?_⟩
  all_goals decide

theorem meets_MessageArrival_3 :
  ∃ (s : State) (k : Nat) (m : Message), (s.coreOf k).isSealed = true ∧ m.fromCore < 2 ^ 13 := by
  refine ⟨{ cores := [(0, { isSealed := true })] }, 0, message, ?_, ?_⟩
  all_goals decide

theorem meets_SendQueue_1 :
  ∃ (s : State) (k : Nat) (m : Message), (s.coreOf k).sendq = [(m, false)] ∧ m.away = none ∧ let c := creditOf (s.coreOf k) m.toCore m.chan;
    c.crd ≠ 0 ∧ c.quiet = false := by
  refine ⟨creditSt { target := 0, chan := 5, crd := 1, sent := 0xFFFFFFFF }, 1, message, ?_, ?_, ?_, ?_⟩
  all_goals decide

theorem meets_SendQueue_2 :
  ∃ (s : State) (k : Nat) (m : Message), (s.coreOf k).sendq = [(m, false)] ∧ m.away = none ∧ let c := creditOf (s.coreOf k) m.toCore m.chan;
    (c.crd = 0 ∨ c.quiet = true) := by
  refine ⟨creditSt { target := 0, chan := 5, crd := 0 }, 1, message, ?_, ?_, ?_⟩
  all_goals decide

theorem meets_SendQueue_2b :
  ∃ (s : State) (k : Nat) (m : Message), (s.coreOf k).sendq = [(m, false)] ∧ m.away = none ∧ let c := creditOf (s.coreOf k) m.toCore m.chan;
    (c.crd = 0 ∨ c.quiet = true) := by
  refine ⟨creditSt { target := 0, chan := 5, quiet := true }, 1, message, ?_, ?_, ?_⟩
  all_goals decide

theorem meets_CreditEvents_1 :
  ∃ (s : State) (k src chan : Nat), let c := creditOf (s.coreOf src) k chan; let cons := (takenOf (s.coreOf k) src chan).cons;
    let coming := (s.clock.events.filter fun e => e.act = .creditReturn src k chan).length; (c.sent + 2 ^ 32 - cons + c.crd + coming) % 2 ^ 32 = 8 := by
  refine ⟨{ cores := [(1, { creditTab := [{ target := 0, chan := 5, quiet := true, sent := 3, crd := 6 }] }), (0, { takenTab := [{ sender := 1, chan := 5, cons := 1 }] })] }, 0, 1, 5, ?_⟩
  all_goals decide

theorem meets_CreditEvents_2 :
  ∃ (s : State) (k src chan : Nat), let c := creditOf (s.coreOf src) k chan; let cons := (takenOf (s.coreOf k) src chan).cons;
    let coming := (s.clock.events.filter fun e => e.act = .creditReturn src k chan).length;
    (c.sent + 2 ^ 32 - cons + c.crd + coming) % 2 ^ 32 ≠ 8 ∧ (∀ m ∈ (s.coreOf src).sendq, ¬(m.2 = true ∧ m.1.toCore = k ∧ m.1.chan = chan)) := by
  refine ⟨{ cores := [(1, { creditTab := [{ target := 0, chan := 5, quiet := true, sent := 3, crd := 5 }] }), (0, { takenTab := [{ sender := 1, chan := 5, cons := 1 }] })] }, 0, 1, 5, ?_, ?_⟩
  all_goals decide

theorem meets_BoundEvents_1 :
  ∃ (s s1 : State) (k chan : Nat) (w : Receiver) (r : InRec), (s.coreOf k).receivers = [] := by
  refine ⟨{ cores := [(0, { vt := 7 })] }, { cores := [(0, { vt := 7 })] }, 0, 5, receiver, record, ?_⟩
  all_goals decide

theorem meets_BoundEvents_2 :
  ∃ (s s1 : State) (k chan : Nat) (w : Receiver) (r : InRec), (∀ q ∈ (s.coreOf k).receivers, q.chan ≠ chan) := by
  refine ⟨receiving, receiving, 0, 1, receiver, record, ?_⟩
  all_goals decide

theorem meets_BoundEvents_3 :
  ∃ (s s1 : State) (k chan : Nat) (w : Receiver) (r : InRec), (s.coreOf k).receivers = [w] ∧ w.chan = chan ∧ w.polls = false ∧ chan < 0xF8 ∧
    best (released s k chan) = some r ∧
    Performs (deliverTo (tidOf k w.slot) r w.buf w.dest) ((Eff.core k fun c => { c with receivers := [] }).apply s) () s1 ∧
    s1.occupied (tidOf k w.slot) = true := by
  refine ⟨receivingShort, after (deliverTo 0 record short.buf (.reg 10)) ((Eff.core 0 fun c => { c with receivers := [] }).apply receivingShort), 0,
    5, short, record, ?_, ?_, ?_, ?_, ?_, ?_, ?_⟩
  all_goals first | exact ⟨_, rfl, fun _ => by cbv⟩ | decide

/-- Lanes of a rectangle, one by one. -/
theorem upTo2 {P : Nat → Nat → Prop} {r c : Nat} (h : ∀ (i : Fin r) (j : Fin c), P i j) : ∀ i j, i < r → j < c → P i j :=
  fun i j hi hj => h ⟨i, hi⟩ ⟨j, hj⟩
/-- Cores with nobody who watches or waits. -/
theorem quietCores {cs : FMap Core} (h : (cs.all fun p => p.2.monRegs == [] && p.2.barriers == [] && p.2.waiters == []) = true) (c : Nat) :
    (FMap.get {} cs c).monRegs = [] ∧ (FMap.get {} cs c).barriers = [] ∧ (FMap.get {} cs c).waiters = [] := by
  induction cs with
  | nil => exact ⟨rfl, rfl, rfl⟩
  | cons p cs ih =>
    rw [List.all_cons, Bool.and_eq_true] at h
    simp only [Bool.and_eq_true, beq_iff_eq] at h
    simp only [FMap.get, FMap.get?] at ih ⊢
    split
    · exact ⟨h.1.1.1, h.1.1.2, h.1.2⟩
    · exact ih h.2
theorem untouched_quiet {s : State} (h : (s.cores.all fun p => p.2.monRegs == [] && p.2.barriers == [] && p.2.waiters == []) = true) (key n : Nat) :
    Untouched s key n := by
  refine ⟨⟨fun m hm => ?_, fun b hb => ?_⟩, fun i _ w hw => ?_⟩
  · rw [show (s.coreOf (homeOf key)).monRegs = [] from (quietCores h _).1] at hm; exact absurd hm List.not_mem_nil
  · rw [show (s.coreOf (homeOf key)).barriers = [] from (quietCores h _).2.1] at hb; exact absurd hb List.not_mem_nil
  · rw [show (s.coreOf (homeOf _)).waiters = [] from (quietCores h _).2.2] at hw; exact absurd hw List.not_mem_nil
theorem clean_quiet {s : State} (hp : s.poisons = []) (he : s.pkg.eccBad = []) (key n : Nat) : Clean s key n := by
  intro a _; simp [State.poisonAt, hp, he, FMap.get?]
/-- A thread of core 0 with a shape of 2 by 2 bytes and the bytes of m0 and m1 given. -/
def tileTh (es : Nat) (m0 m1 : List Byte) (regs : FMap Reg) : Thread :=
  { user regs with shape := { es := es, gc := 2, gr := 2, ac := 2, ar := 2 }, segs := [(0, sgLs)],
                   tiles := m0.zipIdx.map (fun p => (p.2, p.1)) ++ m1.zipIdx.map fun p => (2048 + p.2, p.1) }
def bytesSt (regs : FMap Reg) : State := machine [(0, tileTh 0 [5, 0xFE, 3, 127] [1, 2, 0, 3] regs)]
/-- m0 is 1.0, 2.0, -3.0, signalling NaN and m1 is 1.0 throughout. -/
def floatsSt (regs : FMap Reg) : State :=
  machine [(0, tileTh 2 [0, 0, 0x80, 0x3F, 0, 0, 0, 0x40, 0, 0, 0x40, 0xC0, 1, 0, 0x80, 0x7F] [0, 0, 0x80, 0x3F, 0, 0, 0x80, 0x3F, 0, 0, 0x80, 0x3F,
    0, 0, 0x80, 0x3F] regs)]
/-- s8 is 0x20000, the stride in s9 is 4, and memory holds 0 to 7 there. -/
def loadSt : State :=
  { bytesSt [(8, full 0x20000), (9, full 4)] with mem := mem [(lsKey 0 0x20000, 0x0706050403020100)] }
def loadTrap : State :=
  { bytesSt [(8, full 0x20000), (9, full 2)] with mem := mem [(lsKey 0 0x20000, 0x00030002012C0001)], cores := [(0, { bankfmt := 0x10 })] }
/-- A core's array with a command queued. -/
def arraySt (a : Array) : State := { st with cores := [(0, { array := a })] }
/-- s8 is 0x20000 in the local store, whose banks hold FP32, and s9 is v. -/
def moveSt (v : Word) (a : Array) : State := { lsSt [(9, full v)] [] with cores := [(0, { array := a, bankfmt := 0x4444444444444444 })] }
def fullQueue : Array := { queue := List.replicate 4 (.azero 0 0) }
/-- Operands of one MMA in banks of BF16: 1.0 and 2.0 at 0x20000, 3.0 and 0.5 at 0x21000. -/
def mmaSt : State :=
  { mem := mem [(lsKey 0 0x20000, 0x40003F80), (lsKey 0 0x21000, 0x4040), (lsKey 0 0x21080, 0x3F00)],
    cores := [(0,
      { array := { queue := [.mma 0xA55001000 (lsKey 0 0x20000) (lsKey 0 0x21000) false 0], acc := [(0, 0x3F800000)] }, bankfmt := 0x5555555555555555 })] }
def opOf (m : M Operand) : Operand := match m.eval mmaSt with | .ok (x, _) => x | .error _ => ⟨0, fun _ _ => ⟨0, 0⟩, false⟩
def opA : Operand := opOf (fromStore (lsKey 0 0x20000) 5 (aIndex 64) 1 2)
def opB : Operand := opOf (fromStore (lsKey 0 0x21000) 5 (fun j q => bIndex 5 64 q j) 1 2)
/-- s8 is the control word and s10, s11 are the operands' addresses. -/
def mmaIssue (v : Word) : State :=
  { threads := [(0, { user [(8, full v), (10, full 0x20000), (11, full 0x21000)] with segs := [(0, sgLs)] })], cores := [(0, { bankfmt := 0x5555555555555555 })] }
def cells : Array := { acc := [(0, 0x3F800000), (1, 0x40000000), (65, 0x40400000), (66, 0x40800000)] }
def tileRep : Reporter := { core := 0, uid := 1, slot := 0, cid := 0, ctx := 0, task := 0, kind := 2, mode := 1, xid := 4 }
def tileCmd (q : Bool) : Command := { rep := tileRep, work := .tile (lsKey 0 0x20000) [(0, sgLs)] q }
/-- A TILEMM at the head of the queue whose descriptor stands at 0x20000. -/
def descSt (desc : List (Nat × Word)) : State :=
  { mem := mem desc, cores := [(0, { array := { queue := [.tilemm 4 0] }, commands := [(4, tileCmd true)], bankfmt := 0x4444444444444444 })] }
def running (a : Array) : State := { descSt [] with cores := [(0, { array := a, commands := [(4, tileCmd true)], bankfmt := 0x4444444444444444 })] }
def loadRef : TileRef := { key := lsKey 0 0x20000, stride := 4, fmt := 0, span := lsKey 0 0x20000, len := 6 }
theorem load_ref : Performs (tileRef 0x20000 4 (current loadSt).shape false) loadSt loadRef loadSt := ⟨[], rfl, fun _ => by cbv⟩
theorem load_clean : Performs (refuseElements 0x20000 loadRef (elements (current loadSt).shape 4).flatten) loadSt () loadSt := ⟨[], rfl,
  fun _ => by cbv⟩
theorem load_lanes : ∀ i j,
  i < (current loadSt).shape.ar → j < (current loadSt).shape.ac → (loadElement loadRef.fmt (tyFmt 0) (current loadSt).rm.toNat 0 (bankCode (overlay loadRef.span (Memory.readList loadSt.mem loadRef.span loadRef.len) (bufferOf loadSt)) loadRef (i * 4 + j))).trap = false := by
  refine upTo2 ?_
  decide
def trapRef : TileRef := { key := lsKey 0 0x20000, stride := 2, fmt := 1, span := lsKey 0 0x20000, len := 8 }
theorem trap_ref : Performs (tileRef 0x20000 2 (current loadTrap).shape false) loadTrap trapRef loadTrap := ⟨[], rfl, fun _ => by cbv⟩
theorem trap_clean : Performs (refuseElements 0x20000 trapRef (elements (current loadTrap).shape 2).flatten) loadTrap () loadTrap := ⟨[], rfl,
  fun _ => by cbv⟩
def trapElem (i j : Nat) : Cvt :=
  loadElement trapRef.fmt (tyFmt (0 : BitVec 3).toNat) (current loadTrap).rm.toNat (3 : BitVec 2).toNat
    (bankCode (overlay trapRef.span (Memory.readList loadTrap.mem trapRef.span trapRef.len) (bufferOf loadTrap)) trapRef (i * (2 : Word).toInt + j))
theorem trap_lane : (trapElem 0 1).trap = true := by decide +kernel
/-- A descriptor of one tile of BF16 operands at 0x30000 and 0x48000 and FP32 results at 0x60000. -/
def goodDesc : List Word := [0x30000, 0x48000, 0x60000, 0, 0, 0, 0x5540010004001, 0]
def goodSt : State :=
  { mem := mem (goodDesc.zipIdx.map fun p => (lsKey 0 (0x20000 + 8 * p.2), p.1)), cores := [(0, { array := { queue := [.tilemm 4 0] }, commands := [(4, tileCmd true)], bankfmt := 0x45500 })] }
def stepping : State := running { busy := true, running := some 4, queue := [.tilemm 4 0], desc := goodDesc }

theorem meets_ShapeResult_1 :
  ∃ (s s1 s2 s3 : State) (d a b : Code) (x y : Bool) (va vb : Word), let w := 2 ^ bits va 33 32; let gc := min (bits va 31 16) (256 / w);
    let gr := min (min (bits va 15 0) 64) (2048 / (gc * w));
    let sh : Shape := { es := bits va 33 32, gc := gc, gr := gr, ac := min (bits vb 31 16) gc, ar := min (bits vb 15 0) gr };
    admits { unit := hasTiles, srcs := [a, b], dst := some d } s = true ∧ Reads s a x va s1 ∧ Reads s1 b y vb s2 ∧ bits va 63 34 = 0 ∧
    bits va 33 32 ≠ 3 ∧ bits va 31 16 ≠ 0 ∧ bits va 15 0 ≠ 0 ∧ bits vb 63 32 = 0 ∧
    Writes s2 d (BitVec.ofNat 64 (gc * 2 ^ 48 + gr * 2 ^ 32 + sh.ac * 2 ^ 16 + sh.ar)) s3 := by
  refine ⟨two 0x20003 0x20002, two 0x20003 0x20002, two 0x20003 0x20002, after (writeDst 10 0x2000300020002) (two 0x20003 0x20002), 10, 8, 9, false,
    false, 0x20003, 0x20002, ?_, ?_, ?_, ?_, ?_, ?_, ?_, ?_, ?_⟩
  all_goals first | decide | exact ⟨[], rfl, fun _ => rfl⟩ | exact ⟨_, rfl, fun _ => rfl⟩

theorem meets_ShapeResult_1b :
  ∃ (s s1 s2 s3 : State) (d a b : Code) (x y : Bool) (va vb : Word), let w := 2 ^ bits va 33 32; let gc := min (bits va 31 16) (256 / w);
    let gr := min (min (bits va 15 0) 64) (2048 / (gc * w));
    let sh : Shape := { es := bits va 33 32, gc := gc, gr := gr, ac := min (bits vb 31 16) gc, ar := min (bits vb 15 0) gr };
    admits { unit := hasTiles, srcs := [a, b], dst := some d } s = true ∧ Reads s a x va s1 ∧ Reads s1 b y vb s2 ∧ bits va 63 34 = 0 ∧
    bits va 33 32 ≠ 3 ∧ bits va 31 16 ≠ 0 ∧ bits va 15 0 ≠ 0 ∧ bits vb 63 32 = 0 ∧
    Writes s2 d (BitVec.ofNat 64 (gc * 2 ^ 48 + gr * 2 ^ 32 + sh.ac * 2 ^ 16 + sh.ar)) s3 := by
  refine ⟨two 0x2FFFFFFFF 0xFFFFFFFF, two 0x2FFFFFFFF 0xFFFFFFFF, two 0x2FFFFFFFF 0xFFFFFFFF,
    after (writeDst 10 0x40000800400008) (two 0x2FFFFFFFF 0xFFFFFFFF), 10, 8, 9, false, false, 0x2FFFFFFFF, 0xFFFFFFFF, ?_, ?_, ?_, ?_, ?_, ?_, ?_,
      ?_, ?_⟩
  all_goals first | decide | exact ⟨[], rfl, fun _ => rfl⟩ | exact ⟨_, rfl, fun _ => rfl⟩

theorem meets_ShapeResult_2 :
  ∃ (s s1 s2 s3 : State) (d a b : Code) (x y : Bool) (va vb : Word), admits { unit := hasTiles, srcs := [a, b], dst := some d } s = true ∧
    Reads s a x va s1 ∧ Reads s1 b y vb s2 ∧ bits va 31 16 = 0 := by
  refine ⟨two 3 0, two 3 0, two 3 0, two 3 0, 10, 8, 9, false, false, 3, 0, ?_, ?_, ?_, ?_⟩
  all_goals first | decide | exact ⟨[], rfl, fun _ => rfl⟩

theorem meets_LaneResults_1 :
  ∃ (s : State) (d m n t : BitVec 3) (u sat : Bool), let h := current s; let w := tyWidth t.toNat; 2 ^ h.shape.es = w ∧ laneFit h w ∧
    s.occupied (tid s) = true ∧ ∃ p ∈ laneForms, admits { unit := hasTiles, literals := t ≠ 7 && optionsFit t u sat } s = true := by
  refine ⟨bytesSt [], 2, 0, 1, 0, false, false, ?_, ?_, ?_, laneForms[0], ?_, ?_⟩
  all_goals repeat' first | exact List.getElem_mem _ | decide | apply And.intro

theorem meets_LaneResults_1b :
  ∃ (s : State) (d m n t : BitVec 3) (u sat : Bool), let h := current s; let w := tyWidth t.toNat; 2 ^ h.shape.es = w ∧ laneFit h w ∧
    s.occupied (tid s) = true ∧ ∃ p ∈ laneForms, admits { unit := hasTiles, literals := t ≠ 7 && optionsFit t u sat } s = true := by
  refine ⟨bytesSt [], 2, 0, 1, 0, false, true, ?_, ?_, ?_, laneForms[2], ?_, ?_⟩
  all_goals repeat' first | exact List.getElem_mem _ | decide | apply And.intro

theorem meets_LaneResults_1c :
  ∃ (s : State) (d m n t : BitVec 3) (u sat : Bool), let h := current s; let w := tyWidth t.toNat; 2 ^ h.shape.es = w ∧ laneFit h w ∧
    s.occupied (tid s) = true ∧ ∃ p ∈ laneForms, admits { unit := hasTiles, literals := t ≠ 7 && optionsFit t u sat } s = true := by
  refine ⟨bytesSt [], 2, 0, 1, 0, true, false, ?_, ?_, ?_, laneForms[3], ?_, ?_⟩
  all_goals repeat' first | exact List.getElem_mem _ | decide | apply And.intro

theorem meets_LaneResults_1d :
  ∃ (s : State) (d m n t : BitVec 3) (u sat : Bool), let h := current s; let w := tyWidth t.toNat; 2 ^ h.shape.es = w ∧ laneFit h w ∧
    s.occupied (tid s) = true ∧ ∃ p ∈ laneForms, admits { unit := hasTiles, literals := t ≠ 7 && optionsFit t u sat } s = true := by
  refine ⟨floatsSt [], 2, 0, 1, 3, false, false, ?_, ?_, ?_, laneForms[1], ?_, ?_⟩
  all_goals repeat' first | exact List.getElem_mem _ | decide | apply And.intro

theorem meets_LaneResults_1e :
  ∃ (s : State) (d m n t : BitVec 3) (u sat : Bool), let h := current s; let w := tyWidth t.toNat; 2 ^ h.shape.es = w ∧ laneFit h w ∧
    s.occupied (tid s) = true ∧ ∃ p ∈ laneForms, admits { unit := hasTiles, literals := t ≠ 7 && optionsFit t u sat } s = true := by
  refine ⟨floatsSt [], 2, 0, 1, 3, false, false, ?_, ?_, ?_, laneForms[4], ?_, ?_⟩
  all_goals repeat' first | exact List.getElem_mem _ | decide | apply And.intro

theorem meets_LaneResults_2 :
  ∃ (s : State) (d m n t : BitVec 3) (u sat : Bool), let h := current s; let w := tyWidth t.toNat; 2 ^ h.shape.es = w ∧ laneFit h w ∧
    s.occupied (tid s) = true ∧ ∃ p ∈ laneLogicForms, admits { unit := hasTiles, literals := t ≠ 7 } s = true := by
  refine ⟨bytesSt [], 2, 0, 1, 0, false, false, ?_, ?_, ?_, laneLogicForms[2], ?_, ?_⟩
  all_goals repeat' first | exact List.getElem_mem _ | decide | apply And.intro

theorem meets_LaneResults_3 :
  ∃ (s : State) (d m n t : BitVec 3) (u sat : Bool), let h := current s; let w := tyWidth t.toNat; 2 ^ h.shape.es = w ∧ laneFit h w ∧
    s.occupied (tid s) = true ∧ ∃ p ∈ laneFusedForms, admits { unit := hasTiles, literals := t ≠ 7 && optionsFit t u sat } s = true := by
  refine ⟨bytesSt [], 2, 0, 1, 0, false, false, ?_, ?_, ?_, laneFusedForms[2], ?_, ?_⟩
  all_goals repeat' first | exact List.getElem_mem _ | decide | apply And.intro

theorem meets_LaneResults_3b :
  ∃ (s : State) (d m n t : BitVec 3) (u sat : Bool), let h := current s; let w := tyWidth t.toNat; 2 ^ h.shape.es = w ∧ laneFit h w ∧
    s.occupied (tid s) = true ∧ ∃ p ∈ laneFusedForms, admits { unit := hasTiles, literals := t ≠ 7 && optionsFit t u sat } s = true := by
  refine ⟨floatsSt [], 0, 0, 1, 3, false, false, ?_, ?_, ?_, laneFusedForms[0], ?_, ?_⟩
  all_goals repeat' first | exact List.getElem_mem _ | decide | apply And.intro

theorem meets_LaneResults_4 :
  ∃ (s : State) (d m n t : BitVec 3) (u sat : Bool), let h := current s; let w := tyWidth t.toNat; 2 ^ h.shape.es = w ∧ laneFit h w ∧
    s.occupied (tid s) = true ∧ ∃ p ∈ laneUnaryForms, admits { unit := hasTiles, literals := t ≠ 7 && !u && optionsFit t false sat } s = true ∧
    u = false := by
  refine ⟨bytesSt [], 2, 0, 1, 0, false, true, ?_, ?_, ?_, laneUnaryForms[0], ?_, ?_, ?_⟩
  all_goals repeat' first | exact List.getElem_mem _ | decide | apply And.intro

theorem meets_LaneResults_4b :
  ∃ (s : State) (d m n t : BitVec 3) (u sat : Bool), let h := current s; let w := tyWidth t.toNat; 2 ^ h.shape.es = w ∧ laneFit h w ∧
    s.occupied (tid s) = true ∧ ∃ p ∈ laneUnaryForms, admits { unit := hasTiles, literals := t ≠ 7 && !u && optionsFit t false sat } s = true ∧
    u = false := by
  refine ⟨floatsSt [], 0, 0, 1, 3, false, false, ?_, ?_, ?_, laneUnaryForms[1], ?_, ?_, ?_⟩
  all_goals repeat' first | exact List.getElem_mem _ | decide | apply And.intro

theorem meets_LaneChecks_1 :
  ∃ (s : State) (d m n t : BitVec 3), admits { unit := hasTiles, literals := t ≠ 7 } s = true ∧ (current s).shape.idle = true ∧
    2 ^ (current s).shape.es = tyWidth t.toNat := by
  refine ⟨machine [(0, { user [] with shape := { es := 0, gc := 2, gr := 2, ac := 0, ar := 2 } })], 2, 0, 1, 5, ?_, ?_, ?_⟩
  all_goals decide

theorem meets_LaneChecks_2 :
  ∃ (s : State) (d m n t : BitVec 3), admits { unit := hasTiles, literals := t ≠ 7 } s = true ∧ 2 ^ (current s).shape.es ≠ tyWidth t.toNat := by
  refine ⟨bytesSt [], 2, 0, 1, 1, ?_, ?_⟩
  all_goals decide

theorem meets_LaneConversion_1 :
  ∃ (s s1 : State) (d m : BitVec 3) (a : Code) (y t : BitVec 3) (ctl : Word), let h := current s; let w := tyWidth t.toNat;
    let wd := tyWidth y.toNat; let mode := if bits ctl 4 2 = 4 then h.rm.toNat else bits ctl 4 2;
    let f (i j : Nat) : Cvt := if t = y then { code := laneOf h m.toNat w i j } else (tyFmt y.toNat).convert mode (bits ctl 1 0) ((tyFmt t.toNat).decode (laneOf h m.toNat w i j));
    admits { unit := hasTiles, literals := t ≠ 7 && y ≠ 7, srcs := [a] } s = true ∧ 2 ^ h.shape.es = w ∧ laneFit h w ∧ s.occupied (tid s) = true ∧
    h.shape.gc * wd ≤ 256 ∧ h.shape.gr * h.shape.gc * wd ≤ 2048 ∧ h.shape.ar ≤ h.shape.gr ∧ Reads s a false ctl s1 ∧ bits ctl 63 5 = 0 ∧
    bits ctl 4 2 ≤ 4 ∧ (∀ i j, i < h.shape.ar → j < h.shape.ac → (f i j).trap = false) := by
  refine ⟨bytesSt [(8, full 1)], bytesSt [(8, full 1)], 2, 0, 8, 1, 0, 1, ?_, ?_, ?_, ?_, ?_, ?_, ?_, ?_, ?_, ?_, ?_⟩
  all_goals repeat' first
    | decide | exact ⟨[], rfl, fun _ => rfl⟩ | apply And.intro | simp only [List.mem_singleton, forall_eq] | (refine upTo2 ?_; decide)

theorem meets_LaneConversion_1b :
  ∃ (s s1 : State) (d m : BitVec 3) (a : Code) (y t : BitVec 3) (ctl : Word), let h := current s; let w := tyWidth t.toNat;
    let wd := tyWidth y.toNat; let mode := if bits ctl 4 2 = 4 then h.rm.toNat else bits ctl 4 2;
    let f (i j : Nat) : Cvt := if t = y then { code := laneOf h m.toNat w i j } else (tyFmt y.toNat).convert mode (bits ctl 1 0) ((tyFmt t.toNat).decode (laneOf h m.toNat w i j));
    admits { unit := hasTiles, literals := t ≠ 7 && y ≠ 7, srcs := [a] } s = true ∧ 2 ^ h.shape.es = w ∧ laneFit h w ∧ s.occupied (tid s) = true ∧
    h.shape.gc * wd ≤ 256 ∧ h.shape.gr * h.shape.gc * wd ≤ 2048 ∧ h.shape.ar ≤ h.shape.gr ∧ Reads s a false ctl s1 ∧ bits ctl 63 5 = 0 ∧
    bits ctl 4 2 ≤ 4 ∧ (∀ i j, i < h.shape.ar → j < h.shape.ac → (f i j).trap = false) := by
  refine ⟨floatsSt [(8, full 0x10)], floatsSt [(8, full 0x10)], 2, 0, 8, 4, 3, 0x10, ?_, ?_, ?_, ?_, ?_, ?_, ?_, ?_, ?_, ?_, ?_⟩
  all_goals repeat' first
    | decide | exact ⟨[], rfl, fun _ => rfl⟩ | apply And.intro | simp only [List.mem_singleton, forall_eq] | (refine upTo2 ?_; decide)

theorem meets_LaneConversion_1c :
  ∃ (s s1 : State) (d m : BitVec 3) (a : Code) (y t : BitVec 3) (ctl : Word), let h := current s; let w := tyWidth t.toNat;
    let wd := tyWidth y.toNat; let mode := if bits ctl 4 2 = 4 then h.rm.toNat else bits ctl 4 2;
    let f (i j : Nat) : Cvt := if t = y then { code := laneOf h m.toNat w i j } else (tyFmt y.toNat).convert mode (bits ctl 1 0) ((tyFmt t.toNat).decode (laneOf h m.toNat w i j));
    admits { unit := hasTiles, literals := t ≠ 7 && y ≠ 7, srcs := [a] } s = true ∧ 2 ^ h.shape.es = w ∧ laneFit h w ∧ s.occupied (tid s) = true ∧
    h.shape.gc * wd ≤ 256 ∧ h.shape.gr * h.shape.gc * wd ≤ 2048 ∧ h.shape.ar ≤ h.shape.gr ∧ Reads s a false ctl s1 ∧ bits ctl 63 5 = 0 ∧
    bits ctl 4 2 ≤ 4 ∧ (∀ i j, i < h.shape.ar → j < h.shape.ac → (f i j).trap = false) := by
  refine ⟨bytesSt [(8, full 0)], bytesSt [(8, full 0)], 0, 0, 8, 0, 0, 0, ?_, ?_, ?_, ?_, ?_, ?_, ?_, ?_, ?_, ?_, ?_⟩
  all_goals repeat' first
    | decide | exact ⟨[], rfl, fun _ => rfl⟩ | apply And.intro | simp only [List.mem_singleton, forall_eq] | (refine upTo2 ?_; decide)

theorem meets_LaneConversion_2 :
  ∃ (s s1 : State) (d m : BitVec 3) (a : Code) (y t : BitVec 3) (ctl : Word), let h := current s; let w := tyWidth t.toNat;
    let wd := tyWidth y.toNat; let mode := if bits ctl 4 2 = 4 then h.rm.toNat else bits ctl 4 2;
    let f (i j : Nat) : Cvt := if t = y then { code := laneOf h m.toNat w i j } else (tyFmt y.toNat).convert mode (bits ctl 1 0) ((tyFmt t.toNat).decode (laneOf h m.toNat w i j));
    admits { unit := hasTiles, literals := t ≠ 7 && y ≠ 7, srcs := [a] } s = true ∧ 2 ^ h.shape.es = w ∧ laneFit h w ∧ s.occupied (tid s) = true ∧
    h.shape.gc * wd ≤ 256 ∧ h.shape.gr * h.shape.gc * wd ≤ 2048 ∧ h.shape.ar ≤ h.shape.gr ∧ Reads s a false ctl s1 ∧ bits ctl 63 5 = 0 ∧
    bits ctl 4 2 ≤ 4 ∧ (∃ i j, i < h.shape.ar ∧ j < h.shape.ac ∧ (f i j).trap = true) := by
  refine ⟨floatsSt [(8, full 3)], floatsSt [(8, full 3)], 2, 0, 8, 0, 3, 3, ?_, ?_, ?_, ?_, ?_, ?_, ?_, ?_, ?_, ?_, ?_⟩
  all_goals repeat' first
    | decide | exact ⟨[], rfl, fun _ => rfl⟩ | apply And.intro | simp only [List.mem_singleton, forall_eq]
    | exact ⟨1, 1, by decide, by decide, by decide⟩

theorem meets_LaneReductions :
  ∃ p ∈ laneReduceForms, ∃ (s : State) (d m : BitVec 3) (c u sat : Bool) (t : BitVec 3), let h := current s; let w := tyWidth t.toNat;
    admits { unit := hasTiles, literals := t ≠ 7 && optionsFit t u sat } s = true ∧ 2 ^ h.shape.es = w ∧ laneFit h w ∧ s.occupied (tid s) = true := by
  refine ⟨laneReduceForms[0], ?_, bytesSt [], 2, 0, false, false, false, 0, ?_, ?_, ?_, ?_⟩
  all_goals repeat' first | exact List.getElem_mem _ | decide | apply And.intro

theorem meets_LaneReductions_1b :
  ∃ p ∈ laneReduceForms, ∃ (s : State) (d m : BitVec 3) (c u sat : Bool) (t : BitVec 3), let h := current s; let w := tyWidth t.toNat;
    admits { unit := hasTiles, literals := t ≠ 7 && optionsFit t u sat } s = true ∧ 2 ^ h.shape.es = w ∧ laneFit h w ∧ s.occupied (tid s) = true := by
  refine ⟨laneReduceForms[1], ?_, bytesSt [], 2, 0, true, false, false, 0, ?_, ?_, ?_, ?_⟩
  all_goals repeat' first | exact List.getElem_mem _ | decide | apply And.intro

theorem meets_LaneReductions_1c :
  ∃ p ∈ laneReduceForms, ∃ (s : State) (d m : BitVec 3) (c u sat : Bool) (t : BitVec 3), let h := current s; let w := tyWidth t.toNat;
    admits { unit := hasTiles, literals := t ≠ 7 && optionsFit t u sat } s = true ∧ 2 ^ h.shape.es = w ∧ laneFit h w ∧ s.occupied (tid s) = true := by
  refine ⟨laneReduceForms[2], ?_, floatsSt [], 0, 0, false, false, false, 3, ?_, ?_, ?_, ?_⟩
  all_goals repeat' first | exact List.getElem_mem _ | decide | apply And.intro

theorem meets_LaneMoves_1 :
  ∃ (s s1 : State) (d m n : BitVec 3) (a : Code) (t : BitVec 3) (v : Word), let h := current s; let w := tyWidth t.toNat; 2 ^ h.shape.es = w ∧
    laneFit h w ∧ s.occupied (tid s) = true ∧ admits { unit := hasTiles, literals := t ≠ 7, srcs := [a] } s = true ∧ Reads s a false v s1 ∧
    v.toNat < h.shape.ar := by
  refine ⟨bytesSt [(8, full 1), (9, full 0x100)], bytesSt [(8, full 1), (9, full 0x100)], 2, 0, 1, 8, 0, 1, ?_, ?_, ?_, ?_, ?_, ?_⟩
  all_goals repeat' first | decide | exact ⟨[], rfl, fun _ => rfl⟩ | apply And.intro

theorem meets_LaneMoves_2 :
  ∃ (s s1 : State) (d m n : BitVec 3) (a : Code) (t : BitVec 3) (v : Word), let h := current s; let w := tyWidth t.toNat; 2 ^ h.shape.es = w ∧
    laneFit h w ∧ s.occupied (tid s) = true ∧ admits { unit := hasTiles, literals := t ≠ 7, srcs := [a] } s = true ∧ Reads s a false v s1 ∧
    v.toNat < h.shape.ac := by
  refine ⟨bytesSt [(8, full 1), (9, full 0x100)], bytesSt [(8, full 1), (9, full 0x100)], 2, 0, 1, 8, 0, 1, ?_, ?_, ?_, ?_, ?_, ?_⟩
  all_goals repeat' first | decide | exact ⟨[], rfl, fun _ => rfl⟩ | apply And.intro

theorem meets_LaneMoves_3 :
  ∃ (s s1 : State) (d m n : BitVec 3) (a : Code) (t : BitVec 3) (v : Word), let h := current s; let w := tyWidth t.toNat; 2 ^ h.shape.es = w ∧
    laneFit h w ∧ s.occupied (tid s) = true ∧ admits { unit := hasTiles, literals := t ≠ 7, srcs := [a] } s = true ∧ Reads s a false v s1 ∧
    h.shape.ar ≤ v.toNat := by
  refine ⟨bytesSt [(8, full 2), (9, full 0x100)], bytesSt [(8, full 2), (9, full 0x100)], 2, 0, 1, 8, 0, 2, ?_, ?_, ?_, ?_, ?_, ?_⟩
  all_goals repeat' first | decide | exact ⟨[], rfl, fun _ => rfl⟩ | apply And.intro

theorem meets_LaneMoves_4 :
  ∃ (s s1 : State) (d m n : BitVec 3) (a : Code) (t : BitVec 3) (v : Word), let h := current s; let w := tyWidth t.toNat;
    let lane (r : BitVec 3) (i j : Nat) := laneOf h r.toNat w i j; 2 ^ h.shape.es = w ∧ laneFit h w ∧ s.occupied (tid s) = true ∧
    admits { unit := hasTiles, literals := t ≠ 7 } s = true ∧ a.toNat ≤ 30 ∧ a.toNat % 2 = 0 ∧ Reads s (a + 1) false v s ∧
    bits v 15 8 < h.shape.ar ∧ bits v 7 0 < h.shape.ac ∧
    Writes s a (if t.toNat ≤ 2 then BitVec.ofInt 64 (asInt w false (lane m (bits v 15 8) (bits v 7 0))) else BitVec.ofNat 64 (lane m (bits v 15 8) (bits v 7 0))) s1 := by
  refine ⟨bytesSt [(8, full 1), (9, full 0x100)], after (writeDst 8 3) (bytesSt [(8, full 1), (9, full 0x100)]), 2, 0, 1, 8, 0, 0x100, ?_, ?_, ?_,
    ?_, ?_, ?_, ?_, ?_, ?_, ?_⟩
  all_goals repeat' first | decide | exact ⟨[], rfl, fun _ => rfl⟩ | exact ⟨_, rfl, fun _ => rfl⟩ | apply And.intro

theorem meets_LaneMoves_4b :
  ∃ (s s1 : State) (d m n : BitVec 3) (a : Code) (t : BitVec 3) (v : Word), let h := current s; let w := tyWidth t.toNat;
    let lane (r : BitVec 3) (i j : Nat) := laneOf h r.toNat w i j; 2 ^ h.shape.es = w ∧ laneFit h w ∧ s.occupied (tid s) = true ∧
    admits { unit := hasTiles, literals := t ≠ 7 } s = true ∧ a.toNat ≤ 30 ∧ a.toNat % 2 = 0 ∧ Reads s (a + 1) false v s ∧
    bits v 15 8 < h.shape.ar ∧ bits v 7 0 < h.shape.ac ∧
    Writes s a (if t.toNat ≤ 2 then BitVec.ofInt 64 (asInt w false (lane m (bits v 15 8) (bits v 7 0))) else BitVec.ofNat 64 (lane m (bits v 15 8) (bits v 7 0))) s1 := by
  refine ⟨bytesSt [(8, full 1), (9, full 0x101)], after (writeDst 8 127) (bytesSt [(8, full 1), (9, full 0x101)]), 2, 0, 1, 8, 0, 0x101, ?_, ?_, ?_,
    ?_, ?_, ?_, ?_, ?_, ?_, ?_⟩
  all_goals repeat' first | decide | exact ⟨[], rfl, fun _ => rfl⟩ | exact ⟨_, rfl, fun _ => rfl⟩ | apply And.intro

theorem meets_LaneMoves_5 :
  ∃ (s s1 : State) (d m n : BitVec 3) (a : Code) (t : BitVec 3) (v : Word), let h := current s; let w := tyWidth t.toNat; 2 ^ h.shape.es = w ∧
    laneFit h w ∧ s.occupied (tid s) = true ∧ admits { unit := hasTiles, literals := t ≠ 7 } s = true ∧ a.toNat ≤ 30 ∧ a.toNat % 2 = 0 ∧
    Reads s (a + 1) false v s ∧ bits v 15 8 < h.shape.ar ∧ bits v 7 0 < h.shape.ac ∧ ∃ e, Reads s a false e s := by
  refine ⟨bytesSt [(8, full 1), (9, full 0x100)], bytesSt [(8, full 1), (9, full 0x100)], 2, 0, 1, 8, 0, 0x100, ?_, ?_, ?_, ?_, ?_, ?_, ?_, ?_, ?_,
    1, ?_⟩
  all_goals repeat' first | decide | exact ⟨[], rfl, fun _ => rfl⟩ | apply And.intro

theorem meets_TileLoad_1 :
  ∃ (s : State) (d : BitVec 3) (a : Code) (p : BitVec 2) (t : BitVec 3) (ea st : Word) (r : TileRef), let h := current s; let w := tyWidth t.toNat;
    let bytes := overlay r.span (Memory.readList s.mem r.span r.len) (bufferOf s);
    let f (i j : Nat) := loadElement r.fmt (tyFmt t.toNat) h.rm.toNat p.toNat (bankCode bytes r (i * st.toInt + j));
    admits { unit := hasTiles, literals := t ≠ 7 } s = true ∧ a.toNat ≤ 30 ∧ a.toNat % 2 = 0 ∧ 2 ^ h.shape.es = w ∧ laneFit h w ∧
    s.occupied (tid s) = true ∧ Reads s a false ea s ∧ Reads s (a + 1) false st s ∧ roomFor s 2 ∧
    Performs (tileRef ea st.toInt h.shape false) s r s ∧ Performs (refuseElements ea r (elements h.shape st.toInt).flatten) s () s ∧
    Performs (awaitCuts { place := .own r.span, len := r.len, go := false }) s () s ∧
    (∀ i j, i < h.shape.ar → j < h.shape.ac → (f i j).trap = false) := by
  refine ⟨loadSt, 2, 8, 0, 0, 0x20000, 4, loadRef, ?_, ?_, ?_, ?_, ?_, ?_, ?_, ?_, ?_, ?_, ?_, ?_, ?_⟩
  all_goals repeat' first | exact load_ref | exact load_clean | exact load_lanes | exact ⟨[], rfl, fun _ => by cbv⟩ | decide | apply And.intro

theorem meets_TileLoad_2 :
  ∃ (s : State) (d : BitVec 3) (a : Code) (p : BitVec 2) (t : BitVec 3) (ea st : Word) (r : TileRef), let h := current s; let w := tyWidth t.toNat;
    let bytes := overlay r.span (Memory.readList s.mem r.span r.len) (bufferOf s);
    let f (i j : Nat) := loadElement r.fmt (tyFmt t.toNat) h.rm.toNat p.toNat (bankCode bytes r (i * st.toInt + j));
    admits { unit := hasTiles, literals := t ≠ 7 } s = true ∧ a.toNat ≤ 30 ∧ a.toNat % 2 = 0 ∧ 2 ^ h.shape.es = w ∧ laneFit h w ∧
    s.occupied (tid s) = true ∧ Reads s a false ea s ∧ Reads s (a + 1) false st s ∧ roomFor s 2 ∧
    Performs (tileRef ea st.toInt h.shape false) s r s ∧ Performs (refuseElements ea r (elements h.shape st.toInt).flatten) s () s ∧
    Performs (awaitCuts { place := .own r.span, len := r.len, go := false }) s () s ∧ (∃ i j,
      i < h.shape.ar ∧ j < h.shape.ac ∧ (f i j).trap = true) := by
  refine ⟨loadTrap, 2, 8, 3, 0, 0x20000, 2, trapRef, ?_, ?_, ?_, ?_, ?_, ?_, ?_, ?_, ?_, ?_, ?_, ?_, ?_⟩
  all_goals repeat' first
    | exact trap_ref | exact trap_clean | exact ⟨0, 1, by decide, by decide, trap_lane⟩ | exact ⟨[], rfl, fun _ => by cbv⟩ | decide
    | apply And.intro

theorem meets_TileStore :
  ∃ (s : State) (d : BitVec 3) (a : Code) (p : BitVec 2) (t : BitVec 3) (ea st : Word) (r : TileRef), let h := current s; let w := tyWidth t.toNat;
    let at_ (i j : Nat) : Nat := ((r.key : Int) + (i * st.toInt + j) * w).toNat; admits { unit := hasTiles, literals := t ≠ 7 } s = true ∧
    a.toNat ≤ 30 ∧ a.toNat % 2 = 0 ∧ 2 ^ h.shape.es = w ∧ laneFit h w ∧ s.occupied (tid s) = true ∧ Reads s a false ea s ∧
    Reads s (a + 1) false st s ∧ oldestOrOutside s ∧ roomFor s 2 ∧ Performs (tileRef ea st.toInt h.shape true) s r s ∧ readsDone s ∧
    mxOf r.fmt = none ∧ bankFmtOf r.fmt = tyFmt t.toNat ∧
    (∀ i j, i < h.shape.ar → j < h.shape.ac → 0 ≤ (r.key : Int) + (i * st.toInt + j) * w ∧ ∀ x ∈ touched (at_ i j) w,
      Untouched s x 8 ∧ Clean s x 8) := by
  refine ⟨loadSt, 0, 8, 0, 0, 0x20000, 4, { key := lsKey 0 0x20000, stride := 4, fmt := 0, span := lsKey 0 0x20000, len := 6 }, ?_, ?_, ?_, ?_, ?_,
    ?_, ?_, ?_, ?_, ?_, ?_, ?_, ?_, ?_, ?_⟩
  all_goals repeat' first
    | exact ⟨[], rfl, fun _ => by cbv⟩ | decide | apply And.intro | simp only [List.mem_singleton, forall_eq] | (intro _ _ h; contradiction)
    | (refine upTo2 ?_; intro i j; exact ⟨by revert i j; decide, fun x _ => ⟨untouched_quiet rfl x 8, clean_quiet rfl rfl x 8⟩⟩)

theorem meets_TileStore_1b :
  ∃ (s : State) (d : BitVec 3) (a : Code) (p : BitVec 2) (t : BitVec 3) (ea st : Word) (r : TileRef), let h := current s; let w := tyWidth t.toNat;
    let at_ (i j : Nat) : Nat := ((r.key : Int) + (i * st.toInt + j) * w).toNat; admits { unit := hasTiles, literals := t ≠ 7 } s = true ∧
    a.toNat ≤ 30 ∧ a.toNat % 2 = 0 ∧ 2 ^ h.shape.es = w ∧ laneFit h w ∧ s.occupied (tid s) = true ∧ Reads s a false ea s ∧
    Reads s (a + 1) false st s ∧ oldestOrOutside s ∧ roomFor s 2 ∧ Performs (tileRef ea st.toInt h.shape true) s r s ∧ readsDone s ∧
    mxOf r.fmt = none ∧ bankFmtOf r.fmt = tyFmt t.toNat ∧
    (∀ i j, i < h.shape.ar → j < h.shape.ac → 0 ≤ (r.key : Int) + (i * st.toInt + j) * w ∧ ∀ x ∈ touched (at_ i j) w,
      Untouched s x 8 ∧ Clean s x 8) := by
  refine ⟨{ loadSt with threads := [(0, tileTh 0 [5, 0xFE, 3, 127] [] [(8, full 0x20002), (9, full (-2))])] }, 0, 8, 0, 0, 0x20002, -2,
    { key := lsKey 0 0x20002, stride := -2, fmt := 0, span := lsKey 0 0x20000, len := 4 }, ?_, ?_, ?_, ?_, ?_, ?_, ?_, ?_, ?_, ?_, ?_, ?_, ?_, ?_, ?_⟩
  all_goals repeat' first
    | exact ⟨[], rfl, fun _ => by cbv⟩ | decide | apply And.intro | simp only [List.mem_singleton, forall_eq] | (intro _ _ h; contradiction)
    | (refine upTo2 ?_; intro i j; exact ⟨by revert i j; decide, fun x _ => ⟨untouched_quiet rfl x 8, clean_quiet rfl rfl x 8⟩⟩)

theorem meets_ArrayQueueing_1 :
  ∃ (s s1 : State) (a : Code) (x f : Bool) (ea ctl : Word) (key : Nat), admits { unit := hasArray, srcs := [a] } s = true ∧ oldestOrOutside s ∧
    accessesDone s ∧ Reads s a x ctl s1 ∧ bits ctl 63 1 = 0 ∧ arrayRoom s1 := by
  refine ⟨moveSt 1 {}, moveSt 1 {}, 9, false, true, 0x20000, 1, lsKey 0 0x20000, ?_, ?_, ?_, ?_, ?_, ?_⟩
  all_goals first | decide | exact ⟨[], rfl, fun _ => rfl⟩ | (intro _ _ h; contradiction) | (unfold arrayRoom; decide)

theorem meets_ArrayQueueing_2 :
  ∃ (s s1 : State) (a : Code) (x f : Bool) (ea ctl : Word) (key : Nat), admits { unit := hasArray, srcs := [a] } s = true ∧ oldestOrOutside s ∧
    accessesDone s ∧ Reads s a x ctl s1 ∧ bits ctl 63 1 = 0 ∧ ¬arrayRoom s1 := by
  refine ⟨moveSt 1 fullQueue, moveSt 1 fullQueue, 9, false, true, 0x20000, 1, lsKey 0 0x20000, ?_, ?_, ?_, ?_, ?_, ?_⟩
  all_goals first | decide | exact ⟨[], rfl, fun _ => rfl⟩ | (intro _ _ h; contradiction) | (unfold arrayRoom; decide)

theorem meets_ArrayQueueing_3 :
  ∃ (s s1 : State) (a : Code) (x f : Bool) (ea ctl : Word) (key : Nat), let k := s.clock.core; admits { unit := hasArray, srcs := [a] } s = true ∧
    oldestOrOutside s ∧ accessesDone s ∧ a.toNat ≤ 30 ∧ a.toNat % 2 = 0 ∧ Reads s a x ea s ∧ Reads s (a + 1) false ctl s ∧ arrayRoom s ∧
    goodMove ctl false = true ∧ Performs (moveSpan (owner s).segs k ea ctl false) s key s := by
  refine ⟨moveSt 0x20202 {}, moveSt 0x20202 {}, 8, false, true, 0x20000, 0x20202, lsKey 0 0x20000, ?_, ?_, ?_, ?_, ?_, ?_, ?_, ?_, ?_, ?_⟩
  all_goals first
    | decide | exact ⟨[], rfl, fun _ => rfl⟩ | exact ⟨[], rfl, fun _ => by cbv⟩ | (intro _ _ h; contradiction) | (unfold arrayRoom; decide)

theorem meets_ArrayQueueing_4 :
  ∃ (s s1 : State) (a : Code) (x f : Bool) (ea ctl : Word) (key : Nat), let k := s.clock.core; admits { unit := hasArray, srcs := [a] } s = true ∧
    oldestOrOutside s ∧ accessesDone s ∧ a.toNat ≤ 30 ∧ a.toNat % 2 = 0 ∧ Reads s a x ea s ∧ Reads s (a + 1) false ctl s ∧ arrayRoom s ∧
    goodMove ctl true = true ∧ Performs (moveSpan (owner s).segs k ea ctl true) s key s := by
  refine ⟨moveSt 0x414141 {}, moveSt 0x414141 {}, 8, false, true, 0x20000, 0x414141, lsKey 0 0x20000, ?_, ?_, ?_, ?_, ?_, ?_, ?_, ?_, ?_, ?_⟩
  all_goals first
    | decide | exact ⟨[], rfl, fun _ => rfl⟩ | exact ⟨[], rfl, fun _ => by cbv⟩ | (intro _ _ h; contradiction) | (unfold arrayRoom; decide)

theorem meets_ArrayQueueing_5 :
  ∃ (s s1 : State) (a : Code) (x f : Bool) (ea ctl : Word) (key : Nat), let k := s.clock.core; admits { unit := hasArray, srcs := [a] } s = true ∧
    oldestOrOutside s ∧ accessesDone s ∧ a.toNat ≤ 30 ∧ a.toNat % 2 = 0 ∧ Reads s a x ea s ∧ Reads s (a + 1) false ctl s ∧ arrayRoom s ∧
    bits ctl 63 20 = 0 ∧ bits ctl 19 12 ≤ 31 ∧ Performs (localSpan (owner s).segs k ea 0 7 .store) s key s ∧ ea.toNat % 8 = 0 := by
  refine ⟨moveSt 0x1F000 {}, moveSt 0x1F000 {}, 8, false, true, 0x20000, 0x1F000, lsKey 0 0x20000, ?_, ?_, ?_, ?_, ?_, ?_, ?_, ?_, ?_, ?_, ?_, ?_⟩
  all_goals first | decide | exact ⟨[], rfl, fun _ => rfl⟩ | (intro _ _ h; contradiction) | (unfold arrayRoom; decide)

theorem meets_ArrayQueueing_6 :
  ∃ (s s1 : State) (a : Code) (x f : Bool) (ea ctl : Word) (key : Nat), let k := s.clock.core; admits { unit := hasArray, srcs := [a] } s = true ∧
    oldestOrOutside s ∧ accessesDone s ∧ a.toNat ≤ 30 ∧ a.toNat % 2 = 0 ∧ Reads s a x ea s ∧ Reads s (a + 1) false ctl s ∧ arrayRoom s ∧
    bits ctl 63 12 = 0 ∧ Performs (localSpan (owner s).segs k ea 0 15 .store) s key s ∧ ea.toNat % 16 = 0 := by
  refine ⟨moveSt 0x41 {}, moveSt 0x41 {}, 8, false, true, 0x20000, 0x41, lsKey 0 0x20000, ?_, ?_, ?_, ?_, ?_, ?_, ?_, ?_, ?_, ?_, ?_⟩
  all_goals first | decide | exact ⟨[], rfl, fun _ => rfl⟩ | (intro _ _ h; contradiction) | (unfold arrayRoom; decide)

theorem meets_MmaQueueing_1 :
  ∃ (s s1 : State) (a b : Code) (x chk : Bool) (ctl ea eb : Word) (cls akey bkey : Nat), let m := mmaCtl ctl;
    let local_ := decide (m.asrc = 2 ∨ m.bsrc = 2); let depth := [64, 128, 256, 256].getD cls 0;
    admits { unit := hasArray, srcs := [a] } s = true ∧ oldestOrOutside s ∧ accessesDone s ∧ Reads s a x ctl s1 ∧ bits ctl 63 36 = 0 ∧
    bits ctl 23 21 = 0 ∧ m.asrc ≠ 3 ∧ m.bsrc ≠ 3 ∧ pairClass m.af m.bf = some cls ∧ m.ka ≤ depth ∧
    (8 ≤ m.af ∧ m.af ≤ 10 ∨ 8 ≤ m.bf ∧ m.bf ≤ 10 → m.ka % 32 = 0) ∧
    (if local_ then b.toNat ≤ 30 ∧ b.toNat % 2 = 0 ∧ Reads s1 b false ea s1 ∧ Reads s1 (b + 1) false eb s1 else b = 0) ∧
    (if m.asrc = 2 then Performs (tileOperand (owner s1).segs s1.clock.core ea m.af ((m.ma - 1) * depth + (m.ka - 1))) s1 akey s1 else akey = 0) ∧
    (if m.bsrc = 2 then Performs (tileOperand (owner s1).segs s1.clock.core eb m.bf (m.lastB depth)) s1 bkey s1 else bkey = 0) ∧ arrayRoom s1 := by
  refine ⟨mmaIssue 0xA55001000, mmaIssue 0xA55001000, 8, 10, false, true, 0xA55001000, 0x20000, 0x21000, 0, lsKey 0 0x20000, lsKey 0 0x21000, ?_, ?_,
    ?_, ?_, ?_, ?_, ?_, ?_, ?_, ?_, ?_, ?_, ?_, ?_, ?_⟩
  all_goals repeat' first | exact ⟨[], rfl, fun _ => by cbv⟩ | decide | apply And.intro | (intro _ _ h; contradiction) | (unfold arrayRoom; decide)

theorem meets_MmaQueueing_1b :
  ∃ (s s1 : State) (a b : Code) (x chk : Bool) (ctl ea eb : Word) (cls akey bkey : Nat), let m := mmaCtl ctl;
    let local_ := decide (m.asrc = 2 ∨ m.bsrc = 2); let depth := [64, 128, 256, 256].getD cls 0;
    admits { unit := hasArray, srcs := [a] } s = true ∧ oldestOrOutside s ∧ accessesDone s ∧ Reads s a x ctl s1 ∧ bits ctl 63 36 = 0 ∧
    bits ctl 23 21 = 0 ∧ m.asrc ≠ 3 ∧ m.bsrc ≠ 3 ∧ pairClass m.af m.bf = some cls ∧ m.ka ≤ depth ∧
    (8 ≤ m.af ∧ m.af ≤ 10 ∨ 8 ≤ m.bf ∧ m.bf ≤ 10 → m.ka % 32 = 0) ∧
    (if local_ then b.toNat ≤ 30 ∧ b.toNat % 2 = 0 ∧ Reads s1 b false ea s1 ∧ Reads s1 (b + 1) false eb s1 else b = 0) ∧
    (if m.asrc = 2 then Performs (tileOperand (owner s1).segs s1.clock.core ea m.af ((m.ma - 1) * depth + (m.ka - 1))) s1 akey s1 else akey = 0) ∧
    (if m.bsrc = 2 then Performs (tileOperand (owner s1).segs s1.clock.core eb m.bf (m.lastB depth)) s1 bkey s1 else bkey = 0) ∧ arrayRoom s1 := by
  refine ⟨mmaIssue 0x055001000, mmaIssue 0x055001000, 8, 0, false, true, 0x055001000, 0x20000, 0x21000, 0, 0, 0, ?_, ?_, ?_, ?_, ?_, ?_, ?_, ?_, ?_,
    ?_, ?_, ?_, ?_, ?_, ?_⟩
  all_goals first | exact ⟨[], rfl, fun _ => by cbv⟩ | decide | rfl | (intro _ _ h; contradiction) | (unfold arrayRoom; decide)

theorem meets_MmaQueueing_2 :
  ∃ (s s1 : State) (a b : Code) (x chk : Bool) (ctl ea eb : Word) (cls akey bkey : Nat), let m := mmaCtl ctl;
    let local_ := decide (m.asrc = 2 ∨ m.bsrc = 2); admits { unit := hasArray, srcs := [a] } s = true ∧ oldestOrOutside s ∧ accessesDone s ∧
    Reads s a x ctl s1 ∧ local_ = false ∧ b ≠ 0 := by
  refine ⟨mmaIssue 0x055001000, mmaIssue 0x055001000, 8, 10, false, true, 0x055001000, 0x20000, 0x21000, 0, lsKey 0 0x20000, lsKey 0 0x21000, ?_, ?_,
    ?_, ?_, ?_, ?_⟩
  all_goals first | decide | exact ⟨[], rfl, fun _ => rfl⟩ | (intro _ _ h; contradiction)

theorem meets_MmaQueueing_3 :
  ∃ (s s1 : State) (a b : Code) (x chk : Bool) (ctl ea eb : Word) (cls akey bkey : Nat), let m := mmaCtl ctl;
    let local_ := decide (m.asrc = 2 ∨ m.bsrc = 2); admits { unit := hasArray, srcs := [a] } s = true ∧ oldestOrOutside s ∧ accessesDone s ∧
    Reads s a x ctl s1 ∧ local_ = true ∧ (30 < b.toNat ∨ b.toNat % 2 = 1) := by
  refine ⟨mmaIssue 0xA55001000, mmaIssue 0xA55001000, 8, 9, false, true, 0xA55001000, 0x20000, 0x21000, 0, lsKey 0 0x20000, lsKey 0 0x21000, ?_, ?_,
    ?_, ?_, ?_, ?_⟩
  all_goals first | decide | exact ⟨[], rfl, fun _ => rfl⟩ | (intro _ _ h; contradiction)

theorem meets_MmaQueueing_4 :
  ∃ (s s1 : State) (a b : Code) (x chk : Bool) (ctl ea eb : Word) (cls akey bkey : Nat), let m := mmaCtl ctl;
    let local_ := decide (m.asrc = 2 ∨ m.bsrc = 2); admits { unit := hasArray, srcs := [a] } s = true ∧ oldestOrOutside s ∧ accessesDone s ∧
    Reads s a x ctl s1 ∧ local_ = false ∧ b = 0 ∧ pairClass m.af m.bf = none := by
  refine ⟨mmaIssue 0x065001000, mmaIssue 0x065001000, 8, 0, false, true, 0x065001000, 0x20000, 0x21000, 0, lsKey 0 0x20000, lsKey 0 0x21000, ?_, ?_,
    ?_, ?_, ?_, ?_, ?_⟩
  all_goals first | decide | exact ⟨[], rfl, fun _ => rfl⟩ | (intro _ _ h; contradiction)

theorem meets_ArrayMoves_1 :
  ∃ (s : State) (k : Nat) (ctl : Word) (key task : Nat), HeadRuns s k (.azero ctl task) := by
  refine ⟨arraySt { queue := [.azero 1 0], psn := true }, 0, 1, lsKey 0 0x20000, 0, ?_⟩
  all_goals repeat' first | decide | apply And.intro | exact ⟨_, rfl⟩

theorem meets_ArrayMoves_2 :
  ∃ (s : State) (k : Nat) (ctl : Word) (key task : Nat), let rows := bits ctl 7 0; let cols := bits ctl 15 8;
    let at_ (i j : Nat) : Nat := key + 4 * (i * bits ctl 31 16 + j); HeadRuns s k (.awr ctl key task) ∧ rows ≤ 65 ∧ cols ≤ 65 ∧
    cols ≤ bits ctl 31 16 ∧ key % 4 = 0 ∧ (∀ i j, i < rows → j < cols → FMap.get? s.pkg.eccBad (at_ i j / 8 * 8) = none) := by
  refine ⟨{ arraySt { queue := [.awr 0x20202 (lsKey 0 0x20000) 0] } with mem := mem [(lsKey 0 0x20000, 0x3F80000040000000)], poisons := [lsKey 0 0x20008] }, 0, 0x20202, lsKey 0 0x20000, 0, ?_, ?_, ?_, ?_, ?_, ?_⟩
  all_goals repeat' first | decide | apply And.intro | simp only [List.mem_singleton, forall_eq] | (refine upTo2 ?_; decide) | exact ⟨_, rfl⟩

theorem meets_ArrayMoves_3 :
  ∃ (s : State) (k : Nat) (ctl : Word) (key task : Nat), let a := (s.coreOf k).array; let rows := bits ctl 7 0; let cols := bits ctl 15 8;
    let at_ (i j : Nat) : Nat := key + 4 * (i * bits ctl 31 16 + j); HeadRuns s k (.ard ctl key task) ∧ rows ≤ 65 ∧ cols ≤ 65 ∧
    cols ≤ bits ctl 31 16 ∧ key % 4 = 0 ∧ bit ctl 63 = false ∧ a.psn = false ∧
    (∀ i j, i < rows → j < cols → Untouched s (at_ i j / 8 * 8) 8 ∧ FMap.get? s.pkg.eccBad (at_ i j / 8 * 8) = none) := by
  refine ⟨arraySt { cells with queue := [.ard 0x20202 (lsKey 0 0x20000) 0] }, 0, 0x20202, lsKey 0 0x20000, 0, ?_, ?_, ?_, ?_, ?_, ?_, ?_, ?_⟩
  all_goals repeat' first
    | decide | apply And.intro | simp only [List.mem_singleton, forall_eq]
    | (refine upTo2 ?_; intro i j; exact ⟨untouched_quiet rfl _ 8, by revert i j; decide⟩) | exact ⟨_, rfl⟩

theorem meets_MmaResult :
  ∃ (s : State) (k : Nat) (ctl : Word) (akey bkey task cls : Nat) (x y : Operand), let m := mmaCtl ctl;
    let depth := [64, 128, 256, 256].getD cls 0; HeadRuns s k (.mma ctl akey bkey false task) ∧ m.asrc = 2 ∧ m.bsrc = 2 ∧
    pairClass m.af m.bf = some cls ∧ m.ka ≤ depth ∧ Performs (fromStore akey m.af (aIndex depth) m.ma m.ka) s x s ∧
    Performs (fromStore bkey m.bf (fun j q => bIndex m.bf depth q j) m.na m.ka) s y s := by
  refine ⟨mmaSt, 0, 0xA55001000, lsKey 0 0x20000, lsKey 0 0x21000, 0, 0, opA, opB, ?_, ?_, ?_, ?_, ?_, ?_, ?_⟩
  all_goals repeat' first | exact ⟨[], rfl, fun _ => by cbv⟩ | decide | apply And.intro | exact ⟨_, rfl⟩

theorem meets_WideOperands_1 :
  ∃ (s : State) (k : Nat) (ctl : Word) (akey bkey task : Nat) (chk west : Bool) (bs : List Byte), let a := (s.coreOf k).array;
    let r := a.run.getD {}; let n := beatBytes (mmaCtl ctl).af r.cycle; HeadRuns s k (.mma ctl akey bkey chk task) ∧ (mmaCtl ctl).asrc ≠ 2 ∧
    (s.coreOf (neighbour k .w)).isSealed = false ∧ a.west.length < n := by
  refine ⟨arraySt { queue := [.mma 0x155001000 0 0 false 0] }, 0, 0x155001000, 0, 0, 0, false, true, [1, 2], ?_, ?_, ?_, ?_⟩
  all_goals repeat' first | decide | apply And.intro | exact ⟨_, rfl⟩

theorem meets_WideOperands_2 :
  ∃ (s : State) (k : Nat) (ctl : Word) (akey bkey task : Nat) (chk west : Bool) (bs : List Byte), let a := (s.coreOf k).array;
    let r := a.run.getD {}; let n := beatBytes (mmaCtl ctl).af r.cycle; HeadRuns s k (.mma ctl akey bkey chk task) ∧ (mmaCtl ctl).asrc = 0 ∧
    (mmaCtl ctl).bsrc = 2 ∧ r.cycle < 63 ∧ n ≤ a.west.length := by
  refine ⟨arraySt { queue := [.mma 0x855001000 0 0 false 0], west := List.replicate 130 1 }, 0, 0x855001000, 0, 0, 0, false, true, [1, 2], ?_, ?_,
    ?_, ?_, ?_⟩
  all_goals repeat' first | decide | apply And.intro | exact ⟨_, rfl⟩

theorem meets_WideOperands_2b :
  ∃ (s : State) (k : Nat) (ctl : Word) (akey bkey task : Nat) (chk west : Bool) (bs : List Byte), let a := (s.coreOf k).array;
    let r := a.run.getD {}; let n := beatBytes (mmaCtl ctl).af r.cycle; HeadRuns s k (.mma ctl akey bkey chk task) ∧ (mmaCtl ctl).asrc = 0 ∧
    (mmaCtl ctl).bsrc = 2 ∧ r.cycle < 63 ∧ n ≤ a.west.length := by
  refine ⟨arraySt { queue := [.mma 0x855001000 0 0 false 0], run := some { cycle := 62 }, west := List.replicate 130 1 }, 0, 0x855001000, 0, 0, 0,
    false, true, [1, 2], ?_, ?_, ?_, ?_, ?_⟩
  all_goals repeat' first | decide | apply And.intro | exact ⟨_, rfl⟩

theorem meets_WideOperands_3 :
  ∃ (s : State) (k : Nat) (ctl : Word) (akey bkey task : Nat) (chk west : Bool) (bs : List Byte), (s.coreOf k).isSealed = false ∧
    (∀ b, (s.coreOf k).bist = some b → b.test ≠ 4) := by
  refine ⟨arraySt { stalled := some 0 }, 0, 0x155001000, 0, 0, 0, false, true, [1, 2], ?_, ?_⟩
  all_goals decide

theorem meets_WideOperands_3b :
  ∃ (s : State) (k : Nat) (ctl : Word) (akey bkey task : Nat) (chk west : Bool) (bs : List Byte), (s.coreOf k).isSealed = false ∧
    (∀ b, (s.coreOf k).bist = some b → b.test ≠ 4) := by
  refine ⟨arraySt {}, 0, 0x155001000, 0, 0, 0, false, false, [1, 2], ?_, ?_⟩
  all_goals decide

theorem meets_WideOperands_4 :
  ∃ (s : State) (k : Nat) (ctl : Word) (akey bkey task : Nat) (chk west : Bool) (bs : List Byte), (s.coreOf k).isSealed = true := by
  refine ⟨{ cores := [(0, { isSealed := true })] }, 0, 0x155001000, 0, 0, 0, false, true, [1, 2], ?_⟩
  all_goals decide

theorem meets_ArrayChecks_1 :
  ∃ (s : State) (k : Nat) (ctl : Word) (key task : Nat) (fix : Bool), HeadRuns s k (.achk ctl key fix task) ∧ Untouched s key 8 := by
  refine ⟨arraySt { cells with queue := [.achk 0x1F041 (lsKey 0 0x20000) true 0] }, 0, 0x1F041, lsKey 0 0x20000, 0, true, ?_, ?_⟩
  all_goals repeat' first | exact untouched_quiet rfl _ _ | decide | apply And.intro | simp only [List.mem_singleton, forall_eq] | exact ⟨_, rfl⟩

theorem meets_ArrayChecks_1b :
  ∃ (s : State) (k : Nat) (ctl : Word) (key task : Nat) (fix : Bool), HeadRuns s k (.achk ctl key fix task) ∧ Untouched s key 8 := by
  refine ⟨arraySt { cells with queue := [.achk 0x1F041 (lsKey 0 0x20000) false 0] }, 0, 0x1F041, lsKey 0 0x20000, 0, false, ?_, ?_⟩
  all_goals repeat' first | exact untouched_quiet rfl _ _ | decide | apply And.intro | simp only [List.mem_singleton, forall_eq] | exact ⟨_, rfl⟩

theorem meets_ArrayChecks_2 :
  ∃ (s : State) (k : Nat) (ctl : Word) (key task : Nat) (fix : Bool), HeadRuns s k (.bsum ctl key task) ∧ Untouched s key 16 := by
  refine ⟨arraySt { cells with queue := [.bsum 0x41 (lsKey 0 0x20000) 0] }, 0, 0x41, lsKey 0 0x20000, 0, true, ?_, ?_⟩
  all_goals repeat' first | exact untouched_quiet rfl _ _ | decide | apply And.intro | simp only [List.mem_singleton, forall_eq] | exact ⟨_, rfl⟩

theorem meets_TilemmResult :
  ∃ (s s1 : State) (d a : Code) (h : Bool) (ea : Word) (key : Nat) (dest : Dest), let k := s1.clock.core;
    admits { unit := hasArray, srcs := [a], dst := some d } s = true ∧ oldestOrOutside s ∧ accessesDone s ∧ Reads s a false ea s1 ∧
    Performs (localSpan (owner s1).segs k ea 0 63 .load) s1 key s1 ∧ ea.toNat % 64 = 0 ∧ Takes s1 d dest ∧ s1.occupied (tid s1) = true ∧
    (h = false → arrayRoom s1) := by
  refine ⟨lsSt [] [], lsSt [] [], 10, 8, false, 0x20000, lsKey 0 0x20000, .reg 10, ?_, ?_, ?_, ?_, ?_, ?_, ?_, ?_, ?_⟩
  all_goals repeat' first
    | decide | exact ⟨[], rfl, fun _ => rfl⟩ | simp only [List.mem_singleton, forall_eq] | (intro _ _ h; contradiction) | (unfold arrayRoom; decide)

theorem meets_TilemmResult_1b :
  ∃ (s s1 : State) (d a : Code) (h : Bool) (ea : Word) (key : Nat) (dest : Dest), let k := s1.clock.core;
    admits { unit := hasArray, srcs := [a], dst := some d } s = true ∧ oldestOrOutside s ∧ accessesDone s ∧ Reads s a false ea s1 ∧
    Performs (localSpan (owner s1).segs k ea 0 63 .load) s1 key s1 ∧ ea.toNat % 64 = 0 ∧ Takes s1 d dest ∧ s1.occupied (tid s1) = true ∧
    (h = false → arrayRoom s1) := by
  refine ⟨moveSt 0 fullQueue, moveSt 0 fullQueue, 10, 8, true, 0x20000, lsKey 0 0x20000, .reg 10, ?_, ?_, ?_, ?_, ?_, ?_, ?_, ?_, ?_⟩
  all_goals first | decide | exact ⟨[], rfl, fun _ => rfl⟩ | (intro _ _ h; contradiction) | (intros; contradiction)

theorem meets_DescriptorCopy_1 :
  ∃ (s : State) (k i task key : Nat) (segs : FMap (BitVec 128)) (q : Bool) (cmd : Command) (rest : List ArrayCmd),
    let w := (List.range 8).map fun j => memDw s (key + 8 * j); (s.coreOf k).array.queue = .tilemm i task :: rest ∧
    FMap.get? (s.coreOf k).commands i = some cmd ∧ cmd.work = .tile key segs q ∧ (s.coreOf k).array.busy = false ∧
    Performs (checkDescriptor k segs w) s () s := by
  refine ⟨goodSt, 0, 4, 0, lsKey 0 0x20000, [(0, sgLs)], true, tileCmd true, [], ?_, ?_, ?_, ?_, ?_⟩
  all_goals first | exact ⟨[], rfl, fun _ => by cbv⟩ | decide

theorem meets_DescriptorCopy_2 :
  ∃ (s : State) (k i task key : Nat) (segs : FMap (BitVec 128)) (q : Bool) (cmd : Command) (rest : List ArrayCmd),
    let w := (List.range 8).map fun j => memDw s (key + 8 * j); (s.coreOf k).array.queue = .tilemm i task :: rest ∧
    FMap.get? (s.coreOf k).commands i = some cmd ∧ cmd.work = .tile key segs q ∧ (s.coreOf k).array.busy = false ∧
    (∃ c v keep, Stops (checkDescriptor k segs w) s (.trap c v keep)) ∧ Single s cmd ∧ FMap.get? s.pkg.tasks task = none ∧ q = true ∧
    (s.coreOf k).commands = [(i, cmd)] := by
  refine ⟨descSt [(lsKey 0 0x20000, 1)], 0, 4, 0, lsKey 0 0x20000, [(0, sgLs)], true, tileCmd true, [], ?_, ?_, ?_, ?_, ?_, ?_, ?_, ?_, ?_⟩
  all_goals repeat' first | decide | apply And.intro | (intro _ h; cases h <;> rfl) | exact ⟨_, _, _, fun _ => rfl⟩

theorem meets_SequencerSteps_1 :
  ∃ (s s1 : State) (k : Nat) (bad : Option Bool), let a := (s.coreOf k).array; (a.busy = false ∨ a.held = true) := by
  refine ⟨arraySt {}, arraySt {}, 0, none, ?_⟩
  all_goals decide

theorem meets_SequencerSteps_1b :
  ∃ (s s1 : State) (k : Nat) (bad : Option Bool), let a := (s.coreOf k).array; (a.busy = false ∨ a.held = true) := by
  refine ⟨arraySt { busy := true, held := true }, arraySt { busy := true, held := true }, 0, none, ?_⟩
  all_goals decide

theorem meets_SequencerSteps_2 :
  ∃ (s s1 : State) (k : Nat) (bad : Option Bool), let a := (s.coreOf k).array; a.busy = true ∧ a.held = false ∧ (s.coreOf k).isSealed = false ∧
    (s.coreOf k).saving = false ∧ a.mb < bits (a.desc.getD 6 0) 13 0 ∧ a.gate (stepCommand k a) ≤ s.clock.now ∧
    Performs (runCommand k (stepCommand k a)) s bad s1 := by
  refine ⟨stepping, after (runCommand 0 (.azero 1 0)) stepping, 0, some false, ?_, ?_, ?_, ?_, ?_, ?_, ?_⟩
  all_goals first | exact ⟨_, rfl, fun _ => by cbv⟩ | decide

theorem meets_SequencerSteps_3 :
  ∃ (s s1 : State) (k : Nat) (bad : Option Bool), let a := (s.coreOf k).array; ∃ i cmd task rest, a.busy = true ∧ a.held = false ∧
    (s.coreOf k).isSealed = false ∧ (s.coreOf k).saving = false ∧ bits (a.desc.getD 6 0) 13 0 ≤ a.mb ∧ max a.freeAt a.settledAt ≤ s.clock.now ∧
    a.running = some i ∧ a.queue = .tilemm i task :: rest ∧ (s.coreOf k).commands = [(i, cmd)] ∧ (∃ key segs, cmd.work = .tile key segs true) ∧
    Single s cmd ∧ FMap.get? s.pkg.tasks task = none := by
  refine ⟨running { busy := true, running := some 4, queue := [.tilemm 4 0], mb := 1, desc := [0, 0, 0, 0, 0, 0, 0x4001, 0] },
    running { busy := true, running := some 4, queue := [.tilemm 4 0], mb := 1, desc := [0, 0, 0, 0, 0, 0, 0x4001, 0] }, 0, none, 4, tileCmd true, 0,
      [], ?_, ?_, ?_, ?_, ?_, ?_, ?_, ?_, ?_, ?_, ?_, ?_⟩
  all_goals repeat' first | decide | apply And.intro | (intro _ h; cases h <;> rfl) | exact ⟨_, _, rfl⟩

theorem meets_ExactResults_1 :
  ∃ (s s1 s2 : State) (d a b : Code) (x y : Bool) (n w1 vb ctl : Word), admits { unit := hasArray, srcs := [a, b] } s = true ∧ a.toNat ≤ 30 ∧
    a.toNat % 2 = 0 ∧ oldestOrOutside s ∧ Reads s a x n s ∧ Reads s (a + 1) false w1 s ∧ Reads s b y vb s1 ∧ vb.toNat ≤ 3 := by
  refine ⟨machine [(0, user [(8, full 5), (9, full 2), (10, full 1)])], machine [(0, user [(8, full 5), (9, full 2), (10, full 1)])], st, 10, 8, 10,
    false, false, 5, 0x2, 1, 0, ?_, ?_, ?_, ?_, ?_, ?_, ?_, ?_⟩
  all_goals first | exact ⟨[], rfl, fun _ => by cbv⟩ | decide | (intro _ _ h; contradiction)

theorem meets_ExactResults_1b :
  ∃ (s s1 s2 : State) (d a b : Code) (x y : Bool) (n w1 vb ctl : Word), admits { unit := hasArray, srcs := [a, b] } s = true ∧ a.toNat ≤ 30 ∧
    a.toNat % 2 = 0 ∧ oldestOrOutside s ∧ Reads s a x n s ∧ Reads s (a + 1) false w1 s ∧ Reads s b y vb s1 ∧ vb.toNat ≤ 3 := by
  refine ⟨machine [(0, user [(8, full 5), (9, full 0x8000000000000002), (10, full 3)])], machine [(0, user [(8, full 5), (9,
    full 0x8000000000000002), (10, full 3)])], st, 10, 8, 10, false, false, 5, 0x8000000000000002, 3, 0, ?_, ?_, ?_, ?_, ?_, ?_, ?_, ?_⟩
  all_goals first | exact ⟨[], rfl, fun _ => by cbv⟩ | decide | (intro _ _ h; contradiction)

theorem meets_ExactResults_2 :
  ∃ (s s1 s2 : State) (d a b : Code) (x y : Bool) (n w1 vb ctl : Word), admits { unit := hasArray, srcs := [a], dst := some d } s = true ∧
    oldestOrOutside s ∧ Reads s a x ctl s1 ∧ let k := s1.clock.core; bits ctl 63 11 = 0 ∧ bits ctl 4 2 ≤ 3 ∧ bits ctl 9 7 ≤ 4 ∧
    let acc := FMap.get {} (s1.coreOf k).exact (bits ctl 1 0); acc.psn = true := by
  refine ⟨{ two 1 0 with cores := [(0, { exact := [(1, { psn := true })] })] }, { two 1 0 with cores := [(0, { exact := [(1, { psn := true })] })] },
    st, 10, 8, 9, false, false, 5, 0x2, 0, 1, ?_, ?_, ?_, ?_, ?_, ?_, ?_⟩
  all_goals repeat' first | decide | exact ⟨[], rfl, fun _ => rfl⟩ | simp only [List.mem_singleton, forall_eq] | (intro _ _ h; contradiction)

theorem meets_ExactResults_3 :
  ∃ (s s1 s2 : State) (d a b : Code) (x y : Bool) (n w1 vb ctl : Word), admits { unit := hasArray, srcs := [a], dst := some d } s = true ∧
    oldestOrOutside s ∧ Reads s a x ctl s1 ∧ let k := s1.clock.core; bits ctl 63 11 = 0 ∧ bits ctl 4 2 ≤ 3 ∧ bits ctl 9 7 ≤ 4 ∧
    let acc := FMap.get {} (s1.coreOf k).exact (bits ctl 1 0); let mode := if bits ctl 9 7 = 4 then (current s1).rm.toNat else bits ctl 9 7;
    let c := (cvtFmt (bits ctl 4 2)).convert mode (bits ctl 6 5) (acc.num mode); acc.psn = false ∧ c.trap = true := by
  refine ⟨{ two 0x62 0 with cores := [(0, { exact := [(2, { a := 1, b := 200 })] })] },
    { two 0x62 0 with cores := [(0, { exact := [(2, { a := 1, b := 200 })] })] }, st, 10, 8, 9, false, false, 5, 0x2, 0, 0x62, ?_, ?_, ?_, ?_, ?_,
      ?_, ?_, ?_⟩
  all_goals repeat' first | decide | exact ⟨[], rfl, fun _ => rfl⟩ | simp only [List.mem_singleton, forall_eq] | (intro _ _ h; contradiction)

theorem meets_ExactResults_4 :
  ∃ (s s1 s2 : State) (d a b : Code) (x y : Bool) (n w1 vb ctl : Word), admits { unit := hasArray, srcs := [a], dst := some d } s = true ∧
    oldestOrOutside s ∧ Reads s a x ctl s1 ∧ let k := s1.clock.core; bits ctl 63 11 = 0 ∧ bits ctl 4 2 ≤ 3 ∧ bits ctl 9 7 ≤ 4 ∧
    let acc := FMap.get {} (s1.coreOf k).exact (bits ctl 1 0); let mode := if bits ctl 9 7 = 4 then (current s1).rm.toNat else bits ctl 9 7;
    let c := (cvtFmt (bits ctl 4 2)).convert mode (bits ctl 6 5) (acc.num mode); acc.psn = false ∧ c.trap = false ∧
    Writes s1 d (BitVec.ofNat 64 c.code) s2 := by
  refine ⟨{ two 0x401 0 with cores := [(0, { exact := [(1, { a := 3, b := 0, count := 2 })] })] },
    { two 0x401 0 with cores := [(0, { exact := [(1, { a := 3, b := 0, count := 2 })] })] },
      after (writeDst 10 0x40400000) { two 0x401 0 with cores := [(0, { exact := [(1, { a := 3, b := 0, count := 2 })] })] }, 10, 8, 9, false, false,
        5, 0x2, 0, 0x401, ?_, ?_, ?_, ?_, ?_, ?_, ?_, ?_, ?_⟩
  all_goals repeat' first
    | exact ⟨[], rfl, fun _ => by cbv⟩ | exact ⟨_, rfl, fun _ => by cbv⟩ | decide | simp only [List.mem_singleton, forall_eq]
    | (intro _ _ h; contradiction)

theorem meets_ExactResults_5 :
  ∃ (s s1 s2 : State) (d a b : Code) (x y : Bool) (n w1 vb ctl : Word), admits { unit := hasArray, srcs := [a], dst := some d } s = true ∧
    oldestOrOutside s ∧ Reads s a x ctl s1 ∧ let k := s1.clock.core; ctl.toNat ≤ 3 ∧
    Writes s1 d (BitVec.ofNat 64 (FMap.get {} (s1.coreOf k).exact ctl.toNat).count) s2 := by
  refine ⟨{ two 1 0 with cores := [(0, { exact := [(1, { a := 3, b := 0, count := 2 })] })] },
    { two 1 0 with cores := [(0, { exact := [(1, { a := 3, b := 0, count := 2 })] })] },
      after (writeDst 10 2) { two 1 0 with cores := [(0, { exact := [(1, { a := 3, b := 0, count := 2 })] })] }, 10, 8, 9, false, false, 5, 0x2, 0,
        1, ?_, ?_, ?_, ?_, ?_⟩
  all_goals repeat' first
    | exact ⟨[], rfl, fun _ => by cbv⟩ | exact ⟨_, rfl, fun _ => by cbv⟩ | decide | simp only [List.mem_singleton, forall_eq]
    | (intro _ _ h; contradiction)

/-- A clean doubleword of the local store that reads as a value. -/
def ReadsDw (s : State) (w : Word × Nat × Nat) : Prop :=
  Performs (refusePoison w.2.1 8 w.1) s () s ∧ Performs (readPart (.own w.2.1) 8) s (leBytes 8 w.2.2,
    false) s ∧ Performs (awaitCuts { place := .own w.2.1, len := 8, go := false }) s () s
def wordPart (w : Word × Nat × Nat) : Word × Part := (w.1, { place := .own w.2.1, len := 8, go := false })
def sumAt : Nat → Nat → List (Word × Nat × Nat) → Nat
  | _, v, [] => v
  | off, v, w :: ws => sumAt (off + 8) (v + leValue (leBytes 8 w.2.2) * 2 ^ (8 * off)) ws
theorem gather_own {s : State} {id cls : Nat} (hb : Performs ownBuffer s [] s) : ∀ (ws : List (Word × Nat × Nat)) (off v : Nat), (∀ w ∈ ws,
  ReadsDw s w) →
    Performs (gatherParts id cls off v [] (ws.map wordPart)) s (sumAt off v ws, []) s
  | [], _, _, _ => Laws.performs_pure _ _
  | w :: ws, off, v, h => by
    obtain ⟨⟨h1, h2, _⟩, h3⟩ := List.forall_mem_cons.mp h
    exact Laws.performs_bind h1 (Laws.performs_bind h2 (Laws.performs_bind hb (gather_own hb ws _ _ h3)))
theorem cuts_own {s : State} : ∀ (ws : List (Word × Nat × Nat)), (∀ w ∈ ws,
  ReadsDw s w) → Performs (awaitCutsAll ((ws.map wordPart).map (·.2))) s () s
  | [], _ => Laws.performs_pure _ _
  | w :: ws, h => by
    obtain ⟨⟨_, _, h1⟩, h3⟩ := List.forall_mem_cons.mp h
    exact Laws.performs_bind h1 (cuts_own ws h3)
/-- A parameter block that lies in the local store. -/
theorem block_words {s : State} (ws : List (Word × Nat × Nat)) {kept r : List Word} {ea : Word} {n : Nat}
    (h1 : Performs (locateWords ea n) s (ws.map wordPart) s) (h2 : (current s).mwaitToken = 0) (hb : (current s).iter = none) (h3 : ∀ w ∈ ws,
      ReadsDw s w)
    (h4 : wordsOf (leBytes ((ws.map wordPart).map (·.2.len)).sum (sumAt 0 0 ws)) n = r) :
    Performs (readBlockWords kept ea n) s (some r) s := by
  subst h4
  have hb : Performs ownBuffer s [] s := by
    refine Laws.performs_bind (Laws.performs_self s) ?_
    rw [hb]; exact Laws.performs_pure _ _
  unfold readBlockWords
  refine Laws.performs_bind h1 (Laws.performs_bind (a := some (leBytes _ (sumAt 0 0 ws))) ?_ (Laws.performs_pure _ _))
  unfold gather
  refine Laws.performs_bind (Laws.performs_me s) (Laws.performs_bind (Laws.performs_self s) ?_)
  rw [if_neg (by rw [h2]; decide)]
  exact Laws.performs_bind (cuts_own ws h3) (Laws.performs_bind (gather_own hb ws 0 0 h3) (Laws.performs_pure _ _))
def triples (ea : Nat) (ws : List Word) : List (Word × Nat × Nat) := ws.zipIdx.map fun p => (BitVec.ofNat 64 (ea + 8 * p.2), lsKey 0 (ea + 8 * p.2),
  p.1.toNat)
/-- The answer of a meaning in a state, or a default. -/
def valOf {α : Type} (d : α) (m : M α) (s : State) : α :=
  match m.eval s with
  | .ok (x, _) => x
  | .error _ => d
/-- The block of a copy of two bytes from 0x21000 to 0x22000. -/
def cpyBlock : List Word := [0x21000, 0x22000, 0, 0, 0, 0, 0, 0, 0x200000002, 0, 1, 1]
/-- s8 is the address 0x20000 of a block of words there. -/
def blockSt (ws : List Word) : State := lsSt [(9, full 1)] (mem (ws.zipIdx.map fun p => (lsKey 0 (0x20000 + 8 * p.2), p.1)))
def wsBlock : List Word := [0x2000000000010000, 0x22000, 0, 0, 0, 0, 0, 0, 0x200000002, 0, 1, 1]
def cpySt : State := blockSt cpyBlock
def copyIn (w : List Word) (s : State) : Copy := valOf { src := {}, dst := {}, dims := [], policy := 0 } (copyOf w) s
/-- The block of a near-bank product y = x W with k = 1, n = 1, W of FP8 in the HBM at linear address 0x10000 of segment 1. -/
def nbBlock (ctl : Word) : List Word := [0x21000, 0x2000000000010000, 256, 0x22000, ctl, 0, 0, 0]
/-- Context 1 with a page of 64 KiB of HBM at linear address 0x10000. -/
def hbmMem : List (Nat × Word) :=
  ctx1 ++ [(ctxKey 0 1 0x10, 0x100000), (hbmKey 0 0x100000, 0x8000000000000000), (hbmKey 0 0x100008, 0x200000),
   (hbmKey 0 0x200000, 0x8000000000000000), (hbmKey 0 0x200008, 0x300000), (hbmKey 0 0x300000, 0x8000000000000000), (hbmKey 0 0x300008, 0x400000),
   (hbmKey 0 0x400010, 0xC1E0000000000000), (hbmKey 0 0x400018, 0x50000000)]
def nbSt (ctl : Word) : State :=
  { threads := [(0, { inCtx [(8, full 0x20000), (9, full 1)] with segs := [(0, sgLs), (1, sgLin)] })],
    mem := mem (hbmMem ++ (nbBlock ctl).zipIdx.map fun p => (lsKey 0 (0x20000 + 8 * p.2), p.1)),
    cores := [(0, { bankfmt := 0x4444444444444444 })],
    dies := [(0, { memPorts := [(28, { banks := [(0, [{ ctx := 1, lin := 0x10000, dw0 := 0xC1E0000000000000, dw1 := 0x50000000 }])] })] })] }
/-- The same with a page of a weight store that waits to change mode. -/
def wsPending : State :=
  { threads := [(0, { inCtx [(8, full 0x20000), (10, empty 0)] with status := .parked .engine none, mwaitDst := .reg 10, held := 0x20000 :: 0 :: wsBlock, segs := [(0, sgLs), (1, sgLin)] })],
    mem := mem (hbmMem ++ [(hbmKey 0 0x400010, 0xC3E0000000000000), (hbmKey 0 0x400018, 0x10000000)]), dies := [(0, { wsPend := true })] }
/-- What that block asks for. -/
def cpyAsked : Copy :=
  { src := { ea := 0x21000, base := 0x21000, fmt := some 0 }, dst := { ea := 0x22000, base := 0x22000, fmt := some 0 }, dims := [⟨2, 2, 0, 1, 1⟩], policy := 0 }
theorem cpy_head : Performs (readBlockWords [0x20000] 0x20000 8) cpySt (some (cpyBlock.take 8)) cpySt :=
  block_words (triples 0x20000 (cpyBlock.take 8)) ⟨[], rfl, fun _ => by cbv⟩ rfl rfl (by
    simp only [triples, cpyBlock, List.take, List.zipIdx, List.map, List.forall_mem_cons]
    and_intros <;> first | exact ⟨[], rfl, fun _ => by cbv⟩ | exact List.forall_mem_nil _) (by decide +kernel)
theorem cpy_tail : Performs (readBlockWords (0x20000 :: cpyBlock.take 8) (0x20000 + 64) (4 * (bits ((cpyBlock.take 8).getD 2 0) 1 0 + 1))) cpySt (some (cpyBlock.drop 8)) cpySt :=
  block_words (triples 0x20040 (cpyBlock.drop 8)) ⟨[], rfl, fun _ => by cbv⟩ rfl rfl (by
    simp only [triples, cpyBlock, List.drop, List.zipIdx, List.map, List.forall_mem_cons]
    and_intros <;> first | exact ⟨[], rfl, fun _ => by cbv⟩ | exact List.forall_mem_nil _) (by decide +kernel)
theorem nb_block : Performs (readBlockWords [0x20000] 0x20000 8) (nbSt 0x18000000) (some (nbBlock 0x18000000)) (nbSt 0x18000000) :=
  block_words (triples 0x20000 (nbBlock 0x18000000)) ⟨[], rfl, fun _ => by cbv⟩ rfl rfl (by
    simp only [triples, nbBlock, List.zipIdx, List.map, List.forall_mem_cons]
    and_intros <;> first | exact ⟨[], rfl, fun _ => by cbv⟩ | exact List.forall_mem_nil _) (by decide +kernel)
def nbIn (w : List Word) (s : State) : NearBank := valOf { x := {}, w := {}, y := {}, stride := 0, k := 0, n := 0 } (nearBankOf w) s
/-- What that block asks for. -/
def nbAsked : NearBank :=
  { x := { ea := 0x21000, base := 0x21000, fmt := some 4, width := 32 }, w := { ea := 0x2000000000010000, own := false, base := 0x10000, fmt := some 6, width := 8 },
    y := { ea := 0x22000, base := 0x22000, fmt := some 4, width := 32 }, stride := 256, k := 1, n := 1 }
theorem nb_spans : ∀ o x y z, (o, x, y, z) ∈ [(nbAsked.x, (nbOffsets (nbBlock 0x18000000) nbAsked.x nbAsked.w).1, Need.load, 0),
      (nbAsked.w, (nbOffsets (nbBlock 0x18000000) nbAsked.x nbAsked.w).2.1, Need.load, 1),
      (nbAsked.y, (nbOffsets (nbBlock 0x18000000) nbAsked.x nbAsked.w).2.2, Need.store, 2)] →
    ∀ lo hi, extremes x = some (lo, hi) → Performs (checkSpan o lo hi y) (nbSt 0x18000000) () (nbSt 0x18000000) := by
  rw [show nbOffsets (nbBlock 0x18000000) nbAsked.x nbAsked.w = ([0, 3], [0, 0], [0, 3]) from by decide +kernel]
  intro o x y z h
  rcases List.mem_cons.mp h with h | h
  · cases h; intro lo hi e; cases e; exact ⟨[], rfl, fun _ => by cbv⟩
  rcases List.mem_cons.mp h with h | h
  · cases h; intro lo hi e; cases e; exact ⟨[], rfl, fun _ => by cbv⟩
  rw [List.mem_singleton] at h
  cases h; intro lo hi e; cases e; exact ⟨[], rfl, fun _ => by cbv⟩
/-- A thread whose command has left for its master. -/
def departing (s : State) (w : List Word) : State :=
  { s with threads := [(0, { s.thread 0 with status := .parked .engine none, held := w, mwaitDst := .reg 10, regs := (s.thread 0).regs ++ [(10, empty 0)] })] }
def cpyAcc (w : List Word) : State := departing (blockSt w) (0x20000 :: 0 :: w)
/-- A core with 64 transfers open. -/
def crowded (held : List Word) : State :=
  { threads := [(0, { user [] with status := .parked .engine none, mwaitDst := .reg 10, held := held })],
    cores := [(0,
      { commands := (List.range 64).map fun i => (i, { rep := { core := 0, uid := 1, slot := 0, cid := 0, ctx := 0, task := 0, kind := 0, xid := i }, work := .copy cpyAsked }) })] }
def accOf (w : List Word) (s : State) : Copy × List Nat × List Nat := valOf ({ src := {}, dst := {}, dims := [], policy := 0 }, [],
  []) (acceptCopy 0 w) (answering s 0 0)
/-- A copy of an element of 8 bytes from 0x21000 to 0x22000, in progress on core 0. -/
def side (a : Nat) : Side := { ea := BitVec.ofNat 64 a, own := true, base := a, fmt := some 0, width := 8 }
def copy1 (next : Nat) : Copy := { src := side 0x21000, dst := side 0x22000, dims := [⟨2, 2, 0, 1, 1⟩, ⟨2, 2, 0, 2, 2⟩], policy := 0, next := next }
def rep1 : Reporter := { core := 0, uid := 1, slot := 0, cid := 0, ctx := 0, task := 0, kind := 0, mode := 1, xid := 4 }
def copying (w : Work) (stat : Nat) (sealed? : Bool) : State :=
  { st with mem := mem [(lsKey 0 0x21000, 0x0807060504030201)], poisons := [lsKey 0 0x21000],
            cores := [(0,
              { commands := [(4, { rep := rep1, work := w, status := stat })], isSealed := sealed?, nextXid := 5, xids := [(4, none)] })] }
def nbCmd : NearBank := { x := { side 0x21000 with fmt := some 4, width := 32 }, w := { ea := 0x2000000000010000, own := false, base := 0x10000, pages := [(1, .hbm (hbmKey 0 0x500000) none)], fmt := some 6, width := 8 }, y := { side 0x22000 with fmt := some 4, width := 32 }, stride := 256, k := 1, n := 1 }
def chainSt (held : Bool) (chains preds : Nat) (first : Option Nat) : State :=
  { st with threads := [(0, user [(8, full 3), (9, full 4)])],
            cores := [(0, { commands := (if first = none then [(3, { rep := rep1, work := .copy (copy1 0) })] else []) ++
              [(4, { rep := rep1, work := .copy (copy1 0), held := held, chains := chains, preds := preds })], nextXid := 5, xids := [(3, first), (4,
                none)] })] }
def cmd1 (w : Work) (held : Bool) (chains preds : Nat) : Command := { rep := rep1, work := w, held := held, chains := chains, preds := preds }
def publSt (cmds : FMap Command) : State :=
  { threads := [(0, { inCtx [] with status := .parked .engine none })], cores := [(0, { commands := cmds })],
    pkg := { publs := [(128 + 5, 0, [(0, 4)])], clocheBad := [133] } }
def statSt (v : Word) (a : Array) : State :=
  { st with threads := [(0, user [(8, full v)])], cores := [(0, { array := a, xids := [(3, some 0x0C), (4, none)], nextXid := 5 })] }

theorem meets_CopyIssue :
  ∃ (s s1 s2 u : State) (d a : Code) (h : Bool) (ea : Word) (head tail : List Word) (c : Copy) (dest : Dest) (master : Nat), let w := head ++ tail;
    let k := u.clock.core; admits { srcs := [a], dst := some d } s = true ∧ oldestOrOutside s ∧ (current s).held = [] ∧ Reads s a false ea s1 ∧
    Performs awaitPoint s1 () s1 ∧ Performs (readBlockWords [ea] ea 8) s1 (some head) s2 ∧
    Performs (readBlockWords (ea :: head) (ea + 64) (4 * (bits (head.getD 2 0) 1 0 + 1))) s2 (some tail) u ∧ head.length = 8 ∧
    goodCopyBlock ea w = true ∧ Performs (copyOf w) u c u ∧ goodDims c = true ∧ SpansPass u c ∧ goodGeometry c = true ∧
    openTransfers (u.coreOf k) < 64 ∧ Takes u d dest ∧ Performs c.src.master u master u ∧ (master ≠ k → (owner u).twin = none) ∧
    u.occupied (tid u) = true := by
  refine ⟨cpySt, cpySt, cpySt, cpySt, 10, 8, true, 0x20000, cpyBlock.take 8, cpyBlock.drop 8, cpyAsked, .reg 10, 0, ?_, ?_, ?_, ?_, ?_, ?_, ?_, ?_,
    ?_, ?_, ?_, ?_, ?_, ?_, ?_, ?_, ?_, ?_⟩
  all_goals first
    | exact cpy_head | exact cpy_tail | exact ⟨fun lo hi h => by cases h; exact ⟨[], rfl, fun _ => by cbv⟩, ⟨[], rfl, fun _ => by cbv⟩⟩
    | exact ⟨[], rfl, fun _ => by cbv⟩ | decide | (intro _ _ h; contradiction)

theorem meets_NearBankIssue :
  ∃ (s s1 u : State) (d a : Code) (h : Bool) (ea : Word) (w : List Word) (nb : NearBank) (dest : Dest) (master : Nat), let k := u.clock.core;
    let ctl := w.getD 4 0; let f := bits ctl 29 26; admits { srcs := [a], dst := some d } s = true ∧ oldestOrOutside s ∧ (current s).held = [] ∧
    Reads s a false ea s1 ∧ Performs awaitPoint s1 () s1 ∧ Performs (readBlockWords [ea] ea 8) s1 (some w) u ∧ ea.toNat % 64 = 0 ∧
    bits ctl 63 33 = 0 ∧ w.getD 6 0 = 0 ∧ w.getD 7 0 = 0 ∧ goodTarget (bits ctl 32 31) (w.getD 5 0) = true ∧ 4 ≤ f ∧ f ≤ 11 ∧ w.getD 2 0 ≠ 0 ∧
    (w.getD 2 0).toNat % 256 = 0 ∧ (8 ≤ f → (bits ctl 25 14 + 1) % 32 = 0) ∧ Performs (nearBankOf w) u nb u ∧ nb.x.own = true ∧
    (nb.y.own = true ∨ bit ctl 30 = true) ∧ nb.w.own = false ∧ (nb.x.fmt = some 4 ∨ nb.x.fmt = some 5) ∧ (nb.y.own = true → nb.y.fmt = some 4) ∧
    (∀ m, mxOf f = some m → nb.w.base % m.rec_ = 0) ∧
    (∀ o x y z, (o, x, y, z) ∈ [(nb.x, (nbOffsets w nb.x nb.w).1, Need.load, 0), (nb.w, (nbOffsets w nb.x nb.w).2.1, Need.load, 1), (nb.y,
      (nbOffsets w nb.x nb.w).2.2, Need.store, 2)] → ∀ lo hi, extremes x = some (lo, hi) → Performs (checkSpan o lo hi y) u () u) ∧
    openTransfers (u.coreOf k) < 64 ∧ Takes u d dest ∧ Performs nb.w.master u master u ∧ (master ≠ k → (owner u).twin = none) ∧
    u.occupied (tid u) = true := by
  refine ⟨nbSt 0x18000000, nbSt 0x18000000, nbSt 0x18000000, 10, 8, true, 0x20000, nbBlock 0x18000000, nbAsked, .reg 10, 3840, ?_, ?_, ?_, ?_, ?_,
    ?_, ?_, ?_, ?_, ?_, ?_, ?_, ?_, ?_, ?_, ?_, ?_, ?_, ?_, ?_, ?_, ?_, ?_, ?_, ?_, ?_, ?_, ?_, ?_⟩
  all_goals first | exact nb_block | exact nb_spans | exact ⟨[], rfl, fun _ => by cbv⟩ | decide | (intro _ _ h; contradiction)

theorem meets_Acceptance_1 :
  ∃ (s s1 : State) (k slot master : Nat) (ea h : Word) (w : List Word), let id := tidOf k slot; let v := answering s k slot; slot < 16 ∧
    s.occupied id = true ∧ (∃ since, (s.thread id).status = .parked .engine since) ∧ (s.thread id).held = ea :: h :: w ∧
    (s.thread id).twin = none ∧ (s.thread id).iter = none ∧ (s.thread id).col = none ∧ ∃ c rg wg, openTransfers (s.coreOf k) < 64 ∧
    Performs (acceptCopy k w) v (c, rg, wg) s1 ∧ Performs (awaitFlip wg) s1 () s1 ∧ Performs c.src.master s1 master s1 := by
  refine ⟨cpyAcc cpyBlock, answering (cpyAcc cpyBlock) 0 0, 0, 0, 0, 0x20000, 0, cpyBlock, ?_, ?_, ?_, ?_, ?_, ?_, ?_, cpyAsked, [], [], ?_, ?_, ?_,
    ?_⟩
  all_goals first | exact ⟨[], rfl, fun _ => by cbv⟩ | decide | exact ⟨_, rfl⟩

theorem meets_Acceptance_2 :
  ∃ (s s1 : State) (k slot master : Nat) (ea h : Word) (w : List Word), let id := tidOf k slot; let v := answering s k slot; slot < 16 ∧
    s.occupied id = true ∧ (∃ since, (s.thread id).status = .parked .engine since) ∧ (s.thread id).held = ea :: h :: w ∧
    (s.thread id).twin = none ∧ (s.thread id).iter = none ∧ (s.thread id).col = none ∧ ∃ c x, openTransfers (s.coreOf k) < 64 ∧
    Stops (acceptCopy k w) v (.trap c x []) := by
  refine ⟨departing (nbSt 0) (0x20000 :: 0 :: [0x2000000000050000, 0x22000, 0, 0, 0, 0, 0, 0, 0x200000002, 0, 1, 1]),
    departing (nbSt 0) (0x20000 :: 0 :: [0x2000000000050000, 0x22000, 0, 0, 0, 0, 0, 0, 0x200000002, 0, 1, 1]), 0, 0, 0, 0x20000, 0,
      [0x2000000000050000, 0x22000, 0, 0, 0, 0, 0, 0, 0x200000002, 0, 1, 1], ?_, ?_, ?_, ?_, ?_, ?_, ?_, 10, 0x2000000000050000, ?_, ?_⟩
  all_goals first | decide | exact ⟨_, rfl⟩ | (unfold Stops; intro _; cbv; done)

theorem meets_Acceptance_3 :
  ∃ (s s1 : State) (k slot master : Nat) (ea h : Word) (w : List Word), let id := tidOf k slot; let v := answering s k slot; slot < 16 ∧
    s.occupied id = true ∧ (∃ since, (s.thread id).status = .parked .engine since) ∧ (s.thread id).held = ea :: h :: w ∧
    (s.thread id).twin = none ∧ (s.thread id).iter = none ∧ (s.thread id).col = none ∧
    (64 ≤ openTransfers (s.coreOf k) ∨ (∃ keep counts, Stops (acceptCopy k w) v (.wait counts keep))) := by
  refine ⟨wsPending, wsPending, 0, 0, 0, 0x20000, 0, wsBlock, ?_, ?_, ?_, ?_, ?_, ?_, ?_, ?_⟩
  all_goals first | exact .inr ⟨[], false, fun _ => by cbv⟩ | decide | exact ⟨_, rfl⟩

theorem meets_Acceptance_3b :
  ∃ (s s1 : State) (k slot master : Nat) (ea h : Word) (w : List Word), let id := tidOf k slot; let v := answering s k slot; slot < 16 ∧
    s.occupied id = true ∧ (∃ since, (s.thread id).status = .parked .engine since) ∧ (s.thread id).held = ea :: h :: w ∧
    (s.thread id).twin = none ∧ (s.thread id).iter = none ∧ (s.thread id).col = none ∧
    (64 ≤ openTransfers (s.coreOf k) ∨ (∃ keep counts, Stops (acceptCopy k w) v (.wait counts keep))) := by
  refine ⟨crowded [0x20000, 0], crowded [0x20000, 0], 0, 0, 0, 0x20000, 0, [], ?_, ?_, ?_, ?_, ?_, ?_, ?_, ?_⟩
  all_goals first | exact .inl (by decide) | decide | exact ⟨_, rfl⟩

theorem meets_Acceptance_4 :
  ∃ (s s1 : State) (k slot master : Nat) (ea h : Word) (w : List Word), let id := tidOf k slot; let v := answering s k slot; slot < 16 ∧
    s.occupied id = true ∧ (∃ since, (s.thread id).status = .parked .engine since) ∧ (s.thread id).held = ea :: h :: w ∧
    (s.thread id).twin = none ∧ (s.thread id).iter = none ∧ (s.thread id).col = none ∧ ∃ nb rg wg, openTransfers (s.coreOf k) < 64 ∧
    Performs (acceptNear k w) v (nb, rg, wg) s1 ∧ Performs (awaitFlip wg) s1 () s1 ∧ Performs nb.w.master s1 master s1 := by
  refine ⟨departing (nbSt 0x18000000) (0x20000 :: 1 :: nbBlock 0x18000000),
    answering (departing (nbSt 0x18000000) (0x20000 :: 1 :: nbBlock 0x18000000)) 0 0, 0, 0, 3840, 0x20000, 1, nbBlock 0x18000000, ?_, ?_, ?_, ?_, ?_,
      ?_, ?_, { nbAsked with w := { nbAsked.w with pages := [(1, .hbm 1100853805056 none)] } }, [], [], ?_, ?_, ?_, ?_⟩
  all_goals first | exact ⟨[], rfl, fun _ => by cbv⟩ | decide | exact ⟨_, rfl⟩

theorem meets_Acceptance_5 :
  ∃ (s s1 : State) (k slot master : Nat) (ea h : Word) (w : List Word), let id := tidOf k slot; let v := answering s k slot; slot < 16 ∧
    s.occupied id = true ∧ (∃ since, (s.thread id).status = .parked .engine since) ∧ (s.thread id).held = ea :: h :: w ∧
    (s.thread id).twin = none ∧ (s.thread id).iter = none ∧ (s.thread id).col = none ∧ ∃ c x, openTransfers (s.coreOf k) < 64 ∧
    Stops (acceptNear k w) v (.trap c x []) := by
  refine ⟨departing (nbSt 0x18000000) (0x20000 :: 1 :: [0, 0x2000000000050000, 256, 0, 0x18000000]), departing (nbSt 0x18000000) (0x20000 :: 1 :: [0,
    0x2000000000050000, 256, 0, 0x18000000]), 0, 0, 0, 0x20000, 1, [0, 0x2000000000050000, 256, 0, 0x18000000], ?_, ?_, ?_, ?_, ?_, ?_, ?_, 10,
      0x2000000000050000, ?_, ?_⟩
  all_goals first | decide | exact ⟨_, rfl⟩ | (unfold Stops; intro _; cbv; done)

theorem meets_Acceptance_6 :
  ∃ (s s1 : State) (k slot master : Nat) (ea h : Word) (w : List Word), let id := tidOf k slot; let v := answering s k slot; slot < 16 ∧
    s.occupied id = true ∧ (∃ since, (s.thread id).status = .parked .engine since) ∧ (s.thread id).held = ea :: h :: w ∧
    (s.thread id).twin = none ∧ (s.thread id).iter = none ∧ (s.thread id).col = none ∧
    (64 ≤ openTransfers (s.coreOf k) ∨ (∃ keep counts, Stops (acceptNear k w) v (.wait counts keep))) := by
  refine ⟨crowded [0x20000, 0], crowded [0x20000, 0], 0, 0, 0, 0x20000, 0, [], ?_, ?_, ?_, ?_, ?_, ?_, ?_, ?_⟩
  all_goals first | exact .inl (by decide) | decide | exact ⟨_, rfl⟩

theorem meets_CopyLands_1 :
  ∃ (s s1 s2 s3 : State) (k i : Nat) (cmd : Command) (c : Copy) (xs : List Taken1) (ls : List Machine.Landed), let pts := unitPoints c c.next;
    let places := unitPlaces k c.src (pts.filterMap Prod.fst) ++ unitPlaces k c.dst (pts.map Prod.snd); k < 2 ^ 13 ∧
    FMap.get? (s.coreOf k).commands i = some cmd ∧ cmd.work = .copy c ∧ cmd.held = false ∧ c.next < units c ∧ c.phase = 0 ∧ c.single = false ∧
    (∀ p ∈ places, sealedPlace s p = false ∧ heldUp s p = false) ∧ Performs (takeAll k c.src c.got c.marked (pts.map Prod.fst)) s xs s1 ∧
    Performs (landElements c (xs.zip (pts.map Prod.snd))) s1 ls s2 ∧ Performs (landUnit k c.dst (c.reads k) ls) s2 () s3 ∧
    s3.clock.now = s.clock.now := by
  refine ⟨copying (.copy (copy1 0)) 0 false, copying (.copy (copy1 0)) 0 false, copying (.copy (copy1 0)) 0 false,
    after (landUnit 0 (side 0x22000) ((copy1 0).reads 0) (valOf [] (landElements (copy1 0) ((valOf [] (takeAll 0 (side 0x21000) 0 false ((unitPoints (copy1 0) 0).map Prod.fst)) (copying (.copy (copy1 0)) 0 false)).zip ((unitPoints (copy1 0) 0).map Prod.snd))) (copying (.copy (copy1 0)) 0 false))) (copying (.copy (copy1 0)) 0 false), 0, 4, { rep := rep1, work := .copy (copy1 0) }, copy1 0, valOf [] (takeAll 0 (side 0x21000) 0 false ((unitPoints (copy1 0) 0).map Prod.fst)) (copying (.copy (copy1 0)) 0 false), valOf [] (landElements (copy1 0) ((valOf [] (takeAll 0 (side 0x21000) 0 false ((unitPoints (copy1 0) 0).map Prod.fst)) (copying (.copy (copy1 0)) 0 false)).zip ((unitPoints (copy1 0) 0).map Prod.snd))) (copying (.copy (copy1 0)) 0 false), ?_, ?_, ?_, ?_, ?_, ?_, ?_, ?_, ?_, ?_, ?_, ?_⟩
  all_goals first | exact ⟨[], rfl, fun _ => by cbv⟩ | exact ⟨_, rfl, fun _ => by cbv⟩ | decide

theorem meets_CopyLands_2 :
  ∃ (s s1 s2 s3 : State) (k i : Nat) (cmd : Command) (c : Copy) (xs : List Taken1) (ls : List Machine.Landed), let pts := unitPoints c c.next;
    let places := unitPlaces k c.src (pts.filterMap Prod.fst) ++ unitPlaces k c.dst (pts.map Prod.snd); k < 2 ^ 13 ∧
    FMap.get? (s.coreOf k).commands i = some cmd ∧ cmd.work = .copy c ∧ cmd.held = false ∧ c.next < units c ∧ c.phase = 0 ∧ c.single = false ∧
    (∃ p ∈ places, sealedPlace s p = true) := by
  refine ⟨copying (.copy (copy1 1)) 0 true, copying (.copy (copy1 1)) 0 true, copying (.copy (copy1 1)) 0 true, copying (.copy (copy1 1)) 0 true, 0,
    4, { rep := rep1, work := .copy (copy1 1) }, copy1 1, [], [], ?_, ?_, ?_, ?_, ?_, ?_, ?_, ?_⟩
  all_goals decide

theorem meets_EngineEnds_1 :
  ∃ (s s1 s2 s3 : State) (k i : Nat) (cmd : Command), k < 2 ^ 13 ∧ FMap.get? (s.coreOf k).commands i = some cmd ∧ Single s cmd ∧ ∃ c,
    cmd.work = .copy c ∧ units c ≤ c.next := by
  refine ⟨copying (.copy (copy1 2)) 0x0E false, copying (.copy (copy1 2)) 0x0E false, copying (.copy (copy1 2)) 0x0E false,
    copying (.copy (copy1 2)) 0x0E false, 0, 4, { rep := rep1, work := .copy (copy1 2), status := 0x0E }, ?_, ?_, ?_, copy1 2, ?_, ?_⟩
  all_goals repeat' first | decide | apply And.intro | simp only [List.mem_singleton, forall_eq] | (intro _ h; cases h <;> rfl)

theorem meets_EngineEnds_2 :
  ∃ (s s1 s2 s3 : State) (k i : Nat) (cmd : Command), k < 2 ^ 13 ∧ FMap.get? (s.coreOf k).commands i = some cmd ∧ Single s cmd ∧ ∃ nb,
    cmd.work = .nearBank nb ∧ cmd.held = false ∧ cmd.status ≠ 0 := by
  refine ⟨copying (.nearBank nbCmd) 0x0C false, copying (.nearBank nbCmd) 0x0C false, copying (.nearBank nbCmd) 0x0C false,
    copying (.nearBank nbCmd) 0x0C false, 0, 4, { rep := rep1, work := .nearBank nbCmd, status := 0x0C }, ?_, ?_, ?_, nbCmd, ?_, ?_, ?_⟩
  all_goals repeat' first | decide | apply And.intro | simp only [List.mem_singleton, forall_eq] | (intro _ h; cases h <;> rfl)

theorem meets_EngineEnds_3 :
  ∃ (s s1 s2 s3 : State) (k i : Nat) (cmd : Command), k < 2 ^ 13 ∧ FMap.get? (s.coreOf k).commands i = some cmd ∧ Single s cmd ∧ ∃ nb xs rows,
    cmd.work = .nearBank nb ∧ cmd.held = false ∧ cmd.status = 0 ∧ (∀ p ∈ nb.w.pages, heldUp s p.2 = false) ∧
    underTest s (lsKey k nb.x.base) = false ∧ Performs (nbElements k nb.x 0 (List.range nb.k)) s xs s1 ∧
    Performs (nbRows k nb (List.range nb.k)) s1 rows s2 ∧
    let out := (List.range nb.n).map fun j => nbSum xs (rows.map fun r => r.getD j (.fin false 0 0, false));
    let land (q : (Nat × Bool) × Nat) : Machine.Landed := { writes := [((32 * q.2 : Nat), 32, q.1.1)], bad := if q.1.2 then [((32 * q.2 : Nat), 32, q.1.1)] else [] };
    Performs (landUnit k nb.y (fun _ => false) (out.zipIdx.map land)) s2 () s3 ∧ FMap.get? (s3.coreOf k).commands i = some cmd ∧ Single s3 cmd := by
  refine ⟨copying (.nearBank nbCmd) 0 false, copying (.nearBank nbCmd) 0 false, copying (.nearBank nbCmd) 0 false,
    after (landUnit 0 nbCmd.y (fun _ => false) (((List.range 1).map fun j => nbSum (valOf [] (nbElements 0 nbCmd.x 0 (List.range 1)) (copying (.nearBank nbCmd) 0 false)) ((valOf [] (nbRows 0 nbCmd (List.range 1)) (copying (.nearBank nbCmd) 0 false)).map fun r => r.getD j (.fin false 0 0, false))).zipIdx.map fun q => { writes := [((32 * q.2 : Nat), 32, q.1.1)], bad := if q.1.2 then [((32 * q.2 : Nat), 32, q.1.1)] else [] })) (copying (.nearBank nbCmd) 0 false), 0, 4, { rep := rep1, work := .nearBank nbCmd }, ?_, ?_, ?_, nbCmd, valOf [] (nbElements 0 nbCmd.x 0 (List.range 1)) (copying (.nearBank nbCmd) 0 false), valOf [] (nbRows 0 nbCmd (List.range 1)) (copying (.nearBank nbCmd) 0 false), ?_, ?_, ?_, ?_, ?_, ?_, ?_, ?_, ?_, ?_⟩
  all_goals repeat' first
    | exact ⟨[], rfl, fun _ => by cbv⟩ | exact ⟨_, rfl, fun _ => by cbv⟩ | decide | apply And.intro | simp only [List.mem_singleton, forall_eq]
    | (intro _ h; cases h <;> rfl)

theorem meets_ChainResult_1 :
  ∃ (s s1 s2 : State) (a b : Code) (x y : Bool) (va vb : Word) (p q : Nat) (st st' : Option Nat) (succ pred : Command), let k := s2.clock.core;
    admits { srcs := [a, b] } s = true ∧ oldestOrOutside s ∧ Reads s a x va s1 ∧ Reads s1 b y vb s2 ∧ va.toNat < 2 ^ 16 ∧ vb.toNat < 2 ^ 16 ∧
    transferOf (s2.coreOf k) va.toNat = some (p, st) ∧ transferOf (s2.coreOf k) vb.toNat = some (q, st') ∧
    FMap.get? (s2.coreOf k).commands q = some succ ∧ succ.held = true ∧ p ≠ q ∧ st = none ∧ succ.chains < 4 ∧
    FMap.get? (s2.coreOf k).commands p = some pred := by
  refine ⟨chainSt true 1 1 none, chainSt true 1 1 none, chainSt true 1 1 none, 8, 9, false, false, 3, 4, 3, 4, none, none,
    cmd1 (.copy (copy1 0)) true 1 1, cmd1 (.copy (copy1 0)) false 0 0, ?_, ?_, ?_, ?_, ?_, ?_, ?_, ?_, ?_, ?_, ?_, ?_, ?_, ?_⟩
  all_goals first | decide | exact ⟨[], rfl, fun _ => rfl⟩ | (intro _ _ h; contradiction)

theorem meets_ChainResult_2 :
  ∃ (s s1 s2 : State) (a b : Code) (x y : Bool) (va vb : Word) (p q : Nat) (st st' : Option Nat) (succ pred : Command), let k := s2.clock.core;
    admits { srcs := [a, b] } s = true ∧ oldestOrOutside s ∧ Reads s a x va s1 ∧ Reads s1 b y vb s2 ∧ va.toNat < 2 ^ 16 ∧ vb.toNat < 2 ^ 16 ∧
    transferOf (s2.coreOf k) va.toNat = some (p, st) ∧ transferOf (s2.coreOf k) vb.toNat = some (q, st') ∧
    FMap.get? (s2.coreOf k).commands q = some succ ∧ succ.held = true ∧ p ≠ q ∧ st = some 0 ∧ succ.chains < 4 ∧ 0 < succ.preds := by
  refine ⟨chainSt true 1 1 (some 0), chainSt true 1 1 (some 0), chainSt true 1 1 (some 0), 8, 9, false, false, 3, 4, 3, 4, some 0, none,
    cmd1 (.copy (copy1 0)) true 1 1, cmd1 (.copy (copy1 0)) false 0 0, ?_, ?_, ?_, ?_, ?_, ?_, ?_, ?_, ?_, ?_, ?_, ?_, ?_, ?_⟩
  all_goals first | decide | exact ⟨[], rfl, fun _ => rfl⟩ | (intro _ _ h; contradiction)

theorem meets_ChainResult_3 :
  ∃ (s s1 s2 : State) (a b : Code) (x y : Bool) (va vb : Word) (p q : Nat) (st st' : Option Nat) (succ pred : Command), let k := s2.clock.core;
    admits { srcs := [a, b] } s = true ∧ oldestOrOutside s ∧ Reads s a x va s1 ∧ Reads s1 b y vb s2 ∧ va.toNat < 2 ^ 16 ∧ vb.toNat < 2 ^ 16 ∧
    transferOf (s2.coreOf k) va.toNat = some (p, st) ∧ transferOf (s2.coreOf k) vb.toNat = some (q, st') ∧
    FMap.get? (s2.coreOf k).commands q = some succ ∧ succ.held = true ∧ p ≠ q ∧ 4 ≤ succ.chains := by
  refine ⟨chainSt true 4 1 none, chainSt true 4 1 none, chainSt true 4 1 none, 8, 9, false, false, 3, 4, 3, 4, none, none,
    cmd1 (.copy (copy1 0)) true 4 1, cmd1 (.copy (copy1 0)) false 0 0, ?_, ?_, ?_, ?_, ?_, ?_, ?_, ?_, ?_, ?_, ?_, ?_⟩
  all_goals first | decide | exact ⟨[], rfl, fun _ => rfl⟩ | (intro _ _ h; contradiction)

theorem meets_Publication_1 :
  ∃ (s : State) (g : Code) (sc : BitVec 3) (ctx n id : Nat) (before : List (Nat × Nat)) (rest : List (Nat × Nat × List (Nat × Nat))),
    admits { literals := decide (g ≠ 0 ∧ sc.toNat ≤ 5) } s = true ∧ oldestOrOutside s ∧ Performs awaitPoint s () s ∧ s.occupied (tid s) = true := by
  refine ⟨{ threads := [(0, inCtx [])], cores := [(0, { commands := [(4, { rep := { rep1 with ctx := 1 }, work := .copy (copy1 0), cloche := [5] })] })] }, 5, 1, 1, 5, 0, [(0, 4)], [], ?_, ?_, ?_, ?_⟩
  all_goals repeat' first | decide | exact ⟨[], rfl, fun _ => rfl⟩ | simp only [List.mem_singleton, forall_eq] | (intro _ _ h; contradiction)

theorem meets_Publication_2 :
  ∃ (s : State) (g : Code) (sc : BitVec 3) (ctx n id : Nat) (before : List (Nat × Nat)) (rest : List (Nat × Nat × List (Nat × Nat))),
    let key := ctx * 128 + n; s.pkg.publs = (key, id, before) :: rest ∧ (∃ p ∈ before, (FMap.get? (s.coreOf p.1).commands p.2).isSome = true) := by
  refine ⟨publSt [(4, cmd1 (.copy (copy1 0)) false 0 0)], 5, 1, 1, 5, 0, [(0, 4)], [], ?_, ?_⟩
  all_goals decide

theorem meets_Publication_3 :
  ∃ (s : State) (g : Code) (sc : BitVec 3) (ctx n id : Nat) (before : List (Nat × Nat)) (rest : List (Nat × Nat × List (Nat × Nat))),
    let key := ctx * 128 + n; s.pkg.publs = (key, id, before) :: rest ∧ (∀ p ∈ before, FMap.get? (s.coreOf p.1).commands p.2 = none) ∧
    inFlight s ctx = true := by
  refine ⟨{ publSt [] with threads := [(0, { inCtx [] with status := .parked .engine none }), (1, { inCtx [] with outstanding := [(5, { cls := 1, key := some 0x20000 })] })] }, 5, 1, 1, 5, 0, [(0, 4)], [], ?_, ?_, ?_⟩
  all_goals decide

theorem meets_Publication_4 :
  ∃ (s : State) (g : Code) (sc : BitVec 3) (ctx n id : Nat) (before : List (Nat × Nat)) (rest : List (Nat × Nat × List (Nat × Nat))),
    let key := ctx * 128 + n; s.pkg.publs = (key, id, before) :: rest ∧ (∀ p ∈ before, FMap.get? (s.coreOf p.1).commands p.2 = none) ∧
    inFlight s ctx = false ∧ (∀ p ∈ s.cores, p.2.waiters = [] ∧ p.2.monRegs = [] ∧ p.2.barriers = []) ∧
    (∀ p ∈ s.threads, ∀ it, p.2.iter = some it → it.buf = []) ∧ (∃ since, (s.thread id).status = .parked .engine since) ∧ s.occupied id = true ∧
    (s.thread id).col = none := by
  refine ⟨publSt [], 5, 1, 1, 5, 0, [(0, 4)], [], ?_, ?_, ?_, ?_, ?_, ?_, ?_, ?_⟩
  all_goals first | decide | exact ⟨_, rfl⟩

theorem meets_StatusResult_1 :
  ∃ (s s1 s2 : State) (d a : Code) (x : Bool) (va : Word) (n : Nat) (st : Option Nat), let k := s1.clock.core; let c := s1.coreOf k;
    let v : Word := match st with | some v => BitVec.ofNat 64 (2 ^ 24 + v * 2 ^ 16 + bits va 15 0) | none => BitVec.ofNat 64 (bits va 15 0);
    admits { srcs := [a], dst := some d } s = true ∧ oldestOrOutside s ∧ Reads s a x va s1 ∧ bits va 63 17 = 0 ∧ bit va 16 = true ∧
    transferOf c (bits va 15 0) = some (n, st) ∧ Owes s1 d v estatTime 0 s2 := by
  refine ⟨statSt 0x10003 {}, statSt 0x10003 {}, after (produce 10 0x010C0003 estatTime 0) (statSt 0x10003 {}), 10, 8, false, 0x10003, 3, some 0x0C,
    ?_, ?_, ?_, ?_, ?_, ?_, ?_⟩
  all_goals first | decide | exact ⟨[], rfl, fun _ => rfl⟩ | exact ⟨_, rfl, fun _ => rfl⟩ | (intro _ _ h; contradiction)

theorem meets_StatusResult_1b :
  ∃ (s s1 s2 : State) (d a : Code) (x : Bool) (va : Word) (n : Nat) (st : Option Nat), let k := s1.clock.core; let c := s1.coreOf k;
    let v : Word := match st with | some v => BitVec.ofNat 64 (2 ^ 24 + v * 2 ^ 16 + bits va 15 0) | none => BitVec.ofNat 64 (bits va 15 0);
    admits { srcs := [a], dst := some d } s = true ∧ oldestOrOutside s ∧ Reads s a x va s1 ∧ bits va 63 17 = 0 ∧ bit va 16 = true ∧
    transferOf c (bits va 15 0) = some (n, st) ∧ Owes s1 d v estatTime 0 s2 := by
  refine ⟨statSt 0x10004 {}, statSt 0x10004 {}, after (produce 10 4 estatTime 0) (statSt 0x10004 {}), 10, 8, false, 0x10004, 4, none, ?_, ?_, ?_, ?_,
    ?_, ?_, ?_⟩
  all_goals first | decide | exact ⟨[], rfl, fun _ => rfl⟩ | exact ⟨_, rfl, fun _ => rfl⟩ | (intro _ _ h; contradiction)

theorem meets_StatusResult_2 :
  ∃ (s s1 s2 : State) (d a : Code) (x : Bool) (va : Word) (n : Nat) (st : Option Nat), let k := s1.clock.core; let c := s1.coreOf k;
    let v : Word := match st with | some v => BitVec.ofNat 64 (2 ^ 24 + v * 2 ^ 16 + bits va 15 0) | none => BitVec.ofNat 64 (bits va 15 0);
    admits { srcs := [a], dst := some d } s = true ∧ oldestOrOutside s ∧ Reads s a x va s1 ∧ bits va 63 17 = 0 ∧ bit va 16 = true ∧
    transferOf c (bits va 15 0) = some (n, st) ∧ st ≠ none ∧ Writes s1 d v s2 := by
  refine ⟨statSt 0x10003 {}, statSt 0x10003 {}, after (writeDst 10 0x010C0003) (statSt 0x10003 {}), 10, 8, false, 0x10003, 3, some 0x0C, ?_, ?_, ?_,
    ?_, ?_, ?_, ?_, ?_⟩
  all_goals first | decide | exact ⟨[], rfl, fun _ => rfl⟩ | exact ⟨_, rfl, fun _ => rfl⟩ | (intro _ _ h; contradiction)

theorem meets_StatusResult_3 :
  ∃ (s s1 s2 : State) (d a : Code) (x : Bool) (va : Word) (n : Nat) (st : Option Nat), let k := s1.clock.core; let c := s1.coreOf k;
    admits { srcs := [a], dst := some d } s = true ∧ oldestOrOutside s ∧ Reads s a x va s1 ∧ bits va 63 17 = 0 ∧ bit va 16 = true ∧
    transferOf c (bits va 15 0) = some (n, st) ∧ st = none := by
  refine ⟨statSt 0x10004 {}, statSt 0x10004 {}, statSt 0x10004 {}, 10, 8, false, 0x10004, 4, none, ?_, ?_, ?_, ?_, ?_, ?_, ?_⟩
  all_goals first | decide | exact ⟨[], rfl, fun _ => rfl⟩ | (intro _ _ h; contradiction)

theorem meets_StatusResult_4 :
  ∃ (s s1 s2 : State) (d a : Code) (x : Bool) (va : Word) (n : Nat) (st : Option Nat), let k := s1.clock.core; let c := s1.coreOf k;
    let whole := BitVec.ofNat 64 (openTransfers c * 2 ^ 40 + c.array.queue.length * 2 ^ 32 + (if c.array.busy then 2 ^ 31 else 0) + ((if c.array.psn then 8 else 0) + (if c.array.nv then 4 else 0) + (if c.array.ovf then 2 else 0) + if c.array.nx then 1 else 0));
    admits { srcs := [a], dst := some d } s = true ∧ oldestOrOutside s ∧ Reads s a x va s1 ∧ bits va 63 17 = 0 ∧ bit va 16 = false ∧
    bits va 15 0 = 0 ∧ hasArray k = true ∧ Owes s1 d whole estatTime 0 s2 := by
  refine ⟨statSt 0 { psn := true, busy := true, queue := [.azero 0 0] }, statSt 0 { psn := true, busy := true, queue := [.azero 0 0] },
    after (produce 10 0x180000008 estatTime 0) (statSt 0 { psn := true, busy := true, queue := [.azero 0 0] }), 10, 8, false, 0, 3, some 0x0C, ?_,
      ?_, ?_, ?_, ?_, ?_, ?_, ?_⟩
  all_goals first | decide | exact ⟨[], rfl, fun _ => rfl⟩ | exact ⟨_, rfl, fun _ => rfl⟩ | (intro _ _ h; contradiction)

theorem meets_StatusResult_5 :
  ∃ (s s1 s2 : State) (d a : Code) (x : Bool) (va : Word) (n : Nat) (st : Option Nat), let k := s1.clock.core; let c := s1.coreOf k;
    let whole := BitVec.ofNat 64 (openTransfers c * 2 ^ 40 + c.array.queue.length * 2 ^ 32 + (if c.array.busy then 2 ^ 31 else 0) + ((if c.array.psn then 8 else 0) + (if c.array.nv then 4 else 0) + (if c.array.ovf then 2 else 0) + if c.array.nx then 1 else 0));
    admits { srcs := [a], dst := some d } s = true ∧ oldestOrOutside s ∧ Reads s a x va s1 ∧ bits va 63 17 = 0 ∧ bit va 16 = false ∧
    bits va 15 0 = 0 ∧ hasArray k = true ∧ (current s1).mwaitToken = 0 ∧ c.array.queued ≤ c.array.finished ∧ c.array.freeAt ≤ s1.clock.now ∧
    c.array.settledAt ≤ s1.clock.now ∧ Writes ((Eff.thr (tid s1) fun t => { t with mwaitToken := 0 }).apply s1) d whole s2 := by
  refine ⟨statSt 0 { nv := true, nx := true }, statSt 0 { nv := true, nx := true },
    after (writeDst 10 5) ((Eff.thr 0 fun t => { t with mwaitToken := 0 }).apply (statSt 0 { nv := true, nx := true })), 10, 8, false, 0, 3,
      some 0x0C, ?_, ?_, ?_, ?_, ?_, ?_, ?_, ?_, ?_, ?_, ?_, ?_⟩
  all_goals first | decide | exact ⟨[], rfl, fun _ => rfl⟩ | exact ⟨_, rfl, fun _ => rfl⟩ | (intro _ _ h; contradiction)

/-- A core with an integrator array; s8 and s9 with values, s10 is 7. -/
def ddaSt (va vb : Word) (g : Dda) (m : Memory) : State :=
  { threads := [(0, { user [(8, full va), (9, full vb), (10, full 7)] with segs := [(0, sgLs)] })], cores := [(0, { dda := g })], mem := m }
/-- A cell of a domain with M of 256 whose dx, or whose first dy, is the tick. -/
def patchDx (d : Nat) : Word := BitVec.ofNat 64 (0x880000FFFFFFFD00 + d * 2 ^ 61 + d)
def patchDy : Word := 0x880000FFFFF403FF
def cellDx : Cell := { y := 5, r := 3, patch := patchDx 0 }
def cellDy : Cell := { y := 255, patch := patchDy }
/-- A cell whose dx is input port 1. -/
def cellPort : Cell := { y := 5, r := 3, patch := 0x880000FFFFFFFD09 }
def rangeOf (count : Nat) (pe : Bool) : RangeRef := { ea := 0x20000, key := lsKey 0 0x20000, first := 4, count := count, pe := pe }
def rangeMem (ws : List Word) : Memory := mem (ws.zipIdx.map fun p => (lsKey 0 (0x20000 + 8 * p.2), p.1))
def runningDda (x : Domain) : Dda := { cells := [(4, cellDx)], doms := [(0, x)] }
/-- The lowest full cell is cell 3 of domain 1, not cell 9 of domain 0. -/
def satDda : Dda := { cells := [(9, { patch := patchDx 0, sat := true }), (3, { patch := patchDx 1, sat := true })] }
theorem lowest_sat : ∀ (f j : Nat) (x : Cell), (f < 4 ∧ (3 : Word).getLsbD f = true ∧ (satDda.dom f).run = false ∧ (j,
  x) ∈ satDda.members f ∧ x.sat = true) →
    3 < j ∨ 3 = j ∧ 1 ≤ f := by
  intro f j x ⟨_, _, _, h, _⟩
  obtain ⟨hm, hd⟩ := List.mem_filter.mp h
  change (j, x) ∈ [(9, ({ patch := patchDx 0, sat := true } : Cell)), (3, { patch := patchDx 1, sat := true })] at hm
  simp only [List.mem_cons, List.not_mem_nil, or_false, Prod.mk.injEq] at hm
  rcases hm with ⟨rfl, rfl⟩ | ⟨rfl, rfl⟩
  · exact .inl (by decide)
  · have : f = 1 := (of_decide_eq_true ((Bool.and_eq_true _ _).mp hd).2).symm
    exact .inr ⟨rfl, Nat.le_of_eq this.symm⟩
def stepSt (cells : FMap Cell) (x : Domain) : State := ddaSt 0 0 { cells := cells, doms := [(0, x)] } []
/-- An inbox of core 0 with one record for input port 1. -/
def portSt (w : Word) (g : Dda) : State :=
  { cores := [(0, { dda := g, inboxes := [(1, inbox)] })], mem := mem [(lsKey 0 0x20000, 3), (lsKey 0 0x20008, 0xF90000020008), (lsKey 0 0x20010, w)] }
def portRec : InRec := { record with chan := 0xF9 }
def calm : State := machine [(0, user [])]
/-- 1.0 and 2.0, and 3.0e38, in FP32. -/
def logSt (va vb : Word) : State := two va vb

theorem meets_RangeResults_1 :
  ∃ (s s1 : State) (a b : Code) (x y : Bool) (r : RangeRef) (ws : List Word), let k := s1.clock.core; let g := ddaOf s1 k;
    admits { unit := hasDda, srcs := [a, b] } s = true ∧ Performs (rangeRef a b x y false fun _ => 8) s r s1 ∧
    Performs (rangeWords r r.count) s1 ws s1 ∧ ws.length = r.count ∧ (∀ w ∈ ws, goodEntry w = true ∧ (g.dom (bits w 62 61)).run = false) ∧
    (∀ i ∈ rangeCells r, (g.dom (g.cell i).dom).run = false) := by
  refine ⟨ddaSt 0x20000 0x104 {} (rangeMem [0x880000FFFFFFFD00, 0x880000FFFFF403FF]), ddaSt 0x20000 0x104 {} (rangeMem [0x880000FFFFFFFD00,
    0x880000FFFFF403FF]), 8, 9, false, false, rangeOf 2 false, [0x880000FFFFFFFD00, 0x880000FFFFF403FF], ?_, ?_, ?_, ?_, ?_, ?_⟩
  all_goals first
    | (intro w hw; simp only [List.mem_cons, List.not_mem_nil, or_false] at hw; rcases hw with rfl | rfl <;> decide)
    | exact ⟨[], rfl, fun _ => by cbv⟩ | decide

theorem meets_RangeResults_2 :
  ∃ (s s1 : State) (a b : Code) (x y : Bool) (r : RangeRef) (ws : List Word), admits { unit := hasDda, srcs := [a, b] } s = true ∧
    Performs (rangeRef a b x y false fun _ => 8) s r s1 ∧ Performs (rangeWords r r.count) s1 ws s1 ∧ ws.length = r.count ∧
    (∃ w ∈ ws, goodEntry w = false) := by
  refine ⟨ddaSt 0x20000 0x104 {} (rangeMem [0x880000FFFFFFFD00]), ddaSt 0x20000 0x104 {} (rangeMem [0x880000FFFFFFFD00]), 8, 9, false, false,
    rangeOf 2 false, [0x880000FFFFFFFD00, 0], ?_, ?_, ?_, ?_, ?_⟩
  all_goals first | exact ⟨0, List.mem_cons_of_mem _ List.mem_cons_self, by decide⟩ | exact ⟨[], rfl, fun _ => by cbv⟩ | decide

theorem meets_RangeResults_3 :
  ∃ (s s1 : State) (a b : Code) (x y : Bool) (r : RangeRef) (ws : List Word), let k := s1.clock.core; let g := ddaOf s1 k;
    admits { unit := hasDda, srcs := [a, b] } s = true ∧ Performs (rangeRef a b x y false fun _ => 16) s r s1 ∧
    Performs (rangeWords r (2 * r.count)) s1 ws s1 ∧ ws.length = 2 * r.count ∧
    (∀ i, i < r.count → goodRecord (ws.getD (2 * i) 0) (ws.getD (2 * i + 1) 0) = true ∧ (g.dom (g.cell (r.first + i)).dom).run = false) := by
  refine ⟨ddaSt 0x20000 4 (runningDda {}) (rangeMem [0x300000005, 0xF]), ddaSt 0x20000 4 (runningDda {}) (rangeMem [0x300000005, 0xF]), 8, 9, false,
    false, rangeOf 1 false, [0x300000005, 0xF], ?_, ?_, ?_, ?_, ?_⟩
  all_goals first | exact ⟨[], rfl, fun _ => by cbv⟩ | decide

theorem meets_RangeResults_4 :
  ∃ (s s1 : State) (a b : Code) (x y : Bool) (r : RangeRef) (ws : List Word), let k := s1.clock.core; let g := ddaOf s1 k;
    admits { unit := hasDda, srcs := [a, b] } s = true ∧ Performs (rangeRef a b x y true fun pe => if pe then 8 else 16) s r s1 ∧ readsDone s1 ∧
    (current s1).rsave = none ∧ busyDomains g s1.clock.now (rangeCells r) = [] ∧ Untouched s1 r.key (r.count * if r.pe then 8 else 16) := by
  refine ⟨ddaSt 0x20000 4 (runningDda {}) [], ddaSt 0x20000 4 (runningDda {}) [], 8, 9, false, false, rangeOf 1 false, [], ?_, ?_, ?_, ?_, ?_, ?_⟩
  all_goals first | exact ⟨[], rfl, fun _ => by cbv⟩ | exact untouched_quiet rfl _ _ | decide

theorem meets_RangeResults_4b :
  ∃ (s s1 : State) (a b : Code) (x y : Bool) (r : RangeRef) (ws : List Word), let k := s1.clock.core; let g := ddaOf s1 k;
    admits { unit := hasDda, srcs := [a, b] } s = true ∧ Performs (rangeRef a b x y true fun pe => if pe then 8 else 16) s r s1 ∧ readsDone s1 ∧
    (current s1).rsave = none ∧ busyDomains g s1.clock.now (rangeCells r) = [] ∧ Untouched s1 r.key (r.count * if r.pe then 8 else 16) := by
  refine ⟨{ ddaSt 0x20000 0x10104 (runningDda { run := true, stepEnd := 3 }) [] with clock := { now := 3 } },
    { ddaSt 0x20000 0x10104 (runningDda { run := true, stepEnd := 3 }) [] with clock := { now := 3 } }, 8, 9, false, false, rangeOf 2 true, [], ?_,
      ?_, ?_, ?_, ?_, ?_⟩
  all_goals first | exact ⟨[], rfl, fun _ => by cbv⟩ | exact untouched_quiet rfl _ _ | decide

theorem meets_DomainConfig_1 :
  ∃ (s s1 s2 s3 : State) (d a b : Code) (x y : Bool) (va vb : Word) (dest : Dest), let k := s2.clock.core; let i := bits va 2 0;
    let reg := bits va 5 3; let dm := (ddaOf s2 k).dom i; let tap := FMap.get {} (ddaOf s2 k).taps i;
    let old : Word := match reg with | 0 => BitVec.ofNat 64 ((if dm.run then 2 ^ 63 else 0) + (if dm.gate then 2 ^ 62 else 0) + dm.why * 2 ^ 60 + dm.own * 2 ^ 48 + dm.per) | 1 => BitVec.ofNat 64 dm.cnt | 2 => BitVec.ofNat 64 dm.stop | _ => BitVec.ofNat 64 (tap.cell * 2 ^ 56 + (if tap.en then 2 ^ 55 else 0) + (tap.net % 2 ^ 48).toNat);
    admits { unit := hasDda, srcs := [a, b], dst := some d } s = true ∧ Reads s a x va s1 ∧ Reads s1 b y vb s2 ∧ bits va 63 7 = 0 ∧
    oldestOrOutside s2 ∧ rangeFree s2 ∧ reg ≤ 3 ∧ (reg = 3 ∨ i ≤ 3) ∧ bit va 6 = false ∧ Writes s2 d old s3 := by
  refine ⟨ddaSt 0 9 {} [], ddaSt 0 9 {} [], ddaSt 0 9 {} [], after (writeDst 10 4) (ddaSt 0 9 {} []), 10, 8, 9, false, false, 0, 9, .reg 10, ?_, ?_,
    ?_, ?_, ?_, ?_, ?_, ?_, ?_, ?_⟩
  all_goals first | decide | exact ⟨[], rfl, fun _ => rfl⟩ | exact ⟨_, rfl, fun _ => rfl⟩ | (intro _ _ h; contradiction)

theorem meets_DomainConfig_1b :
  ∃ (s s1 s2 s3 : State) (d a b : Code) (x y : Bool) (va vb : Word) (dest : Dest), let k := s2.clock.core; let i := bits va 2 0;
    let reg := bits va 5 3; let dm := (ddaOf s2 k).dom i; let tap := FMap.get {} (ddaOf s2 k).taps i;
    let old : Word := match reg with | 0 => BitVec.ofNat 64 ((if dm.run then 2 ^ 63 else 0) + (if dm.gate then 2 ^ 62 else 0) + dm.why * 2 ^ 60 + dm.own * 2 ^ 48 + dm.per) | 1 => BitVec.ofNat 64 dm.cnt | 2 => BitVec.ofNat 64 dm.stop | _ => BitVec.ofNat 64 (tap.cell * 2 ^ 56 + (if tap.en then 2 ^ 55 else 0) + (tap.net % 2 ^ 48).toNat);
    admits { unit := hasDda, srcs := [a, b], dst := some d } s = true ∧ Reads s a x va s1 ∧ Reads s1 b y vb s2 ∧ bits va 63 7 = 0 ∧
    oldestOrOutside s2 ∧ rangeFree s2 ∧ reg ≤ 3 ∧ (reg = 3 ∨ i ≤ 3) ∧ bit va 6 = false ∧ Writes s2 d old s3 := by
  refine ⟨ddaSt 0x1D 9 {} [], ddaSt 0x1D 9 {} [], ddaSt 0x1D 9 {} [], after (writeDst 10 0) (ddaSt 0x1D 9 {} []), 10, 8, 9, false, false, 0x1D, 9,
    .reg 10, ?_, ?_, ?_, ?_, ?_, ?_, ?_, ?_, ?_, ?_⟩
  all_goals first | decide | exact ⟨[], rfl, fun _ => rfl⟩ | exact ⟨_, rfl, fun _ => rfl⟩ | (intro _ _ h; contradiction)

theorem meets_DomainConfig_2 :
  ∃ (s s1 s2 s3 : State) (d a b : Code) (x y : Bool) (va vb : Word) (dest : Dest), let k := s2.clock.core; let i := bits va 2 0;
    let reg := bits va 5 3; let dm := (ddaOf s2 k).dom i; admits { unit := hasDda, srcs := [a, b], dst := some d } s = true ∧ Reads s a x va s1 ∧
    Reads s1 b y vb s2 ∧ bits va 63 7 = 0 ∧ oldestOrOutside s2 ∧ rangeFree s2 ∧ i ≤ 3 ∧ bit va 6 = true ∧ dm.run = false ∧ Takes s2 d dest ∧
    s2.occupied (tid s2) = true ∧ reg = 1 := by
  refine ⟨ddaSt 0x48 9 {} [], ddaSt 0x48 9 {} [], ddaSt 0x48 9 {} [], st, 10, 8, 9, false, false, 0x48, 9, .reg 10, ?_, ?_, ?_, ?_, ?_, ?_, ?_, ?_,
    ?_, ?_, ?_, ?_⟩
  all_goals first | decide | exact ⟨[], rfl, fun _ => rfl⟩ | (intro _ _ h; contradiction)

theorem meets_DomainConfig_3 :
  ∃ (s s1 s2 s3 : State) (d a b : Code) (x y : Bool) (va vb : Word) (dest : Dest), let k := s2.clock.core; let i := bits va 2 0;
    let reg := bits va 5 3; let dm := (ddaOf s2 k).dom i; admits { unit := hasDda, srcs := [a, b], dst := some d } s = true ∧ Reads s a x va s1 ∧
    Reads s1 b y vb s2 ∧ bits va 63 7 = 0 ∧ oldestOrOutside s2 ∧ rangeFree s2 ∧ i ≤ 3 ∧ bit va 6 = true ∧ dm.run = false ∧ Takes s2 d dest ∧
    s2.occupied (tid s2) = true ∧ reg = 2 := by
  refine ⟨ddaSt 0x53 9 {} [], ddaSt 0x53 9 {} [], ddaSt 0x53 9 {} [], st, 10, 8, 9, false, false, 0x53, 9, .reg 10, ?_, ?_, ?_, ?_, ?_, ?_, ?_, ?_,
    ?_, ?_, ?_, ?_⟩
  all_goals first | decide | exact ⟨[], rfl, fun _ => rfl⟩ | (intro _ _ h; contradiction)

theorem meets_DomainConfig_4 :
  ∃ (s s1 s2 s3 : State) (d a b : Code) (x y : Bool) (va vb : Word) (dest : Dest), let k := s2.clock.core; let i := bits va 2 0;
    let reg := bits va 5 3; let dm := (ddaOf s2 k).dom i; admits { unit := hasDda, srcs := [a, b], dst := some d } s = true ∧ Reads s a x va s1 ∧
    Reads s1 b y vb s2 ∧ bits va 63 7 = 0 ∧ oldestOrOutside s2 ∧ rangeFree s2 ∧ i ≤ 3 ∧ bit va 6 = true ∧ reg = 0 ∧ Takes s2 d dest ∧
    s2.occupied (tid s2) = true ∧ dm.busy s2.clock.now = false := by
  refine ⟨ddaSt 0x40 0x4000000000000064 (runningDda {}) [], ddaSt 0x40 0x4000000000000064 (runningDda {}) [],
    ddaSt 0x40 0x4000000000000064 (runningDda {}) [], st, 10, 8, 9, false, false, 0x40, 0x4000000000000064, .reg 10, ?_, ?_, ?_, ?_, ?_, ?_, ?_, ?_,
      ?_, ?_, ?_, ?_⟩
  all_goals first | decide | exact ⟨[], rfl, fun _ => rfl⟩ | (intro _ _ h; contradiction)

theorem meets_DomainConfig_4b :
  ∃ (s s1 s2 s3 : State) (d a b : Code) (x y : Bool) (va vb : Word) (dest : Dest), let k := s2.clock.core; let i := bits va 2 0;
    let reg := bits va 5 3; let dm := (ddaOf s2 k).dom i; admits { unit := hasDda, srcs := [a, b], dst := some d } s = true ∧ Reads s a x va s1 ∧
    Reads s1 b y vb s2 ∧ bits va 63 7 = 0 ∧ oldestOrOutside s2 ∧ rangeFree s2 ∧ i ≤ 3 ∧ bit va 6 = true ∧ reg = 0 ∧ Takes s2 d dest ∧
    s2.occupied (tid s2) = true ∧ dm.busy s2.clock.now = false := by
  refine ⟨{ ddaSt 0x40 1 (runningDda { run := true, lastStep := some 2, stepEnd := 5 }) [] with clock := { now := 5 } },
    { ddaSt 0x40 1 (runningDda { run := true, lastStep := some 2, stepEnd := 5 }) [] with clock := { now := 5 } },
      { ddaSt 0x40 1 (runningDda { run := true, lastStep := some 2, stepEnd := 5 }) [] with clock := { now := 5 } }, st, 10, 8, 9, false, false,
        0x40, 1, .reg 10, ?_, ?_, ?_, ?_, ?_, ?_, ?_, ?_, ?_, ?_, ?_, ?_⟩
  all_goals repeat' first | decide | exact ⟨[], rfl, fun _ => rfl⟩ | simp only [List.mem_singleton, forall_eq] | (intro _ _ h; contradiction)

theorem meets_DomainConfig_5 :
  ∃ (s s1 s2 s3 : State) (d a b : Code) (x y : Bool) (va vb : Word) (dest : Dest), let k := s2.clock.core; let i := bits va 2 0;
    let reg := bits va 5 3; let dm := (ddaOf s2 k).dom i; admits { unit := hasDda, srcs := [a, b], dst := some d } s = true ∧ Reads s a x va s1 ∧
    Reads s1 b y vb s2 ∧ bits va 63 7 = 0 ∧ oldestOrOutside s2 ∧ rangeFree s2 ∧ i ≤ 3 ∧ bit va 6 = true ∧ reg = 0 ∧ Takes s2 d dest ∧
    s2.occupied (tid s2) = true ∧ dm.busy s2.clock.now = true := by
  refine ⟨ddaSt 0x40 0x4000000000000064 (runningDda { run := true, stepEnd := 3 }) [],
    ddaSt 0x40 0x4000000000000064 (runningDda { run := true, stepEnd := 3 }) [],
      ddaSt 0x40 0x4000000000000064 (runningDda { run := true, stepEnd := 3 }) [], st, 10, 8, 9, false, false, 0x40, 0x4000000000000064, .reg 10, ?_,
        ?_, ?_, ?_, ?_, ?_, ?_, ?_, ?_, ?_, ?_, ?_⟩
  all_goals first | decide | exact ⟨[], rfl, fun _ => rfl⟩ | (intro _ _ h; contradiction)

theorem meets_DomainConfig_6 :
  ∃ (s s1 s2 s3 : State) (d a b : Code) (x y : Bool) (va vb : Word) (dest : Dest), let k := s2.clock.core; let i := bits va 2 0;
    let reg := bits va 5 3; let dm := (ddaOf s2 k).dom i; let tap := FMap.get {} (ddaOf s2 k).taps i;
    let old : Word := match reg with | 0 => BitVec.ofNat 64 ((if dm.run then 2 ^ 63 else 0) + (if dm.gate then 2 ^ 62 else 0) + dm.why * 2 ^ 60 + dm.own * 2 ^ 48 + dm.per) | 1 => BitVec.ofNat 64 dm.cnt | 2 => BitVec.ofNat 64 dm.stop | _ => BitVec.ofNat 64 (tap.cell * 2 ^ 56 + (if tap.en then 2 ^ 55 else 0) + (tap.net % 2 ^ 48).toNat);
    admits { unit := hasDda, srcs := [a, b], dst := some d } s = true ∧ Reads s a x va s1 ∧ Reads s1 b y vb s2 ∧ bits va 63 7 = 0 ∧
    oldestOrOutside s2 ∧ rangeFree s2 ∧ i ≤ 3 ∧ bit va 6 = true ∧ dm.run = true ∧ (reg = 1 ∨ reg = 2) ∧ Writes s2 d old s3 := by
  refine ⟨ddaSt 0x50 9 (runningDda { run := true }) [], ddaSt 0x50 9 (runningDda { run := true }) [], ddaSt 0x50 9 (runningDda { run := true }) [],
    after (writeDst 10 0) (ddaSt 0x50 9 (runningDda { run := true }) []), 10, 8, 9, false, false, 0x50, 9, .reg 10, ?_, ?_, ?_, ?_, ?_, ?_, ?_, ?_,
      ?_, ?_, ?_⟩
  all_goals first | decide | exact ⟨[], rfl, fun _ => rfl⟩ | exact ⟨_, rfl, fun _ => rfl⟩ | (intro _ _ h; contradiction)

theorem meets_DomainConfig_7 :
  ∃ (s s1 s2 s3 : State) (d a b : Code) (x y : Bool) (va vb : Word) (dest : Dest), let reg := bits va 5 3;
    admits { unit := hasDda, srcs := [a, b], dst := some d } s = true ∧ Reads s a x va s1 ∧ Reads s1 b y vb s2 ∧ bits va 63 7 = 0 ∧
    oldestOrOutside s2 ∧ rangeFree s2 ∧ bit va 6 = true ∧ reg = 3 := by
  refine ⟨ddaSt 0x58 9 {} [], ddaSt 0x58 9 {} [], ddaSt 0x58 9 {} [], st, 10, 8, 9, false, false, 0x58, 9, .reg 10, ?_, ?_, ?_, ?_, ?_, ?_, ?_, ?_⟩
  all_goals first | decide | exact ⟨[], rfl, fun _ => rfl⟩ | (intro _ _ h; contradiction)

theorem meets_DomainControl_1 :
  ∃ (s s1 : State) (a : Code) (x : Bool) (m : Word), let k := s1.clock.core; let g := ddaOf s1 k; admits { unit := hasDda, srcs := [a] } s = true ∧
    Reads s a x m s1 ∧ bits m 63 4 = 0 ∧ oldestOrOutside s1 ∧ rangeFree s1 ∧
    (∀ e, e < 4 → m.getLsbD e = true → (g.dom e).run = false → ∀ p ∈ g.members e, p.2.sat = false) := by
  refine ⟨ddaSt 3 0 (runningDda { run := true }) [], ddaSt 3 0 (runningDda { run := true }) [], 8, false, 3, ?_, ?_, ?_, ?_, ?_, ?_⟩
  all_goals first | exact ⟨[], rfl, fun _ => by cbv⟩ | decide | (intro _ _ h; contradiction)

theorem meets_DomainControl_2 :
  ∃ (s s1 : State) (a : Code) (x : Bool) (m : Word), let k := s1.clock.core; let g := ddaOf s1 k; admits { unit := hasDda, srcs := [a] } s = true ∧
    Reads s a x m s1 ∧ bits m 63 4 = 0 ∧ oldestOrOutside s1 ∧ rangeFree s1 ∧ (current s1).dhalt = false ∧
    (∀ e, e < 4 → m.getLsbD e = true → (g.dom e).busy s1.clock.now = false) := by
  refine ⟨ddaSt 3 0 (runningDda { run := true, stepEnd := 0 }) [], ddaSt 3 0 (runningDda { run := true, stepEnd := 0 }) [], 8, false, 3, ?_, ?_, ?_,
    ?_, ?_, ?_, ?_⟩
  all_goals first | exact ⟨[], rfl, fun _ => by cbv⟩ | decide | (intro _ _ h; contradiction)

theorem meets_DomainControl_3 :
  ∃ (s s1 : State) (a : Code) (x : Bool) (m : Word), let k := s1.clock.core; let g := ddaOf s1 k; admits { unit := hasDda, srcs := [a] } s = true ∧
    Reads s a x m s1 ∧ bits m 63 4 = 0 ∧ oldestOrOutside s1 ∧ rangeFree s1 ∧ (current s1).dhalt = false ∧ s.occupied (tid s) = true ∧
    ddaOf s k = g ∧ s.clock.now = s1.clock.now ∧ (∃ e, e < 4 ∧ m.getLsbD e = true ∧ (g.dom e).run = true ∧ (g.dom e).busy s1.clock.now = true) := by
  refine ⟨ddaSt 1 0 (runningDda { run := true, stepEnd := 3 }) [], ddaSt 1 0 (runningDda { run := true, stepEnd := 3 }) [], 8, false, 1, ?_, ?_, ?_,
    ?_, ?_, ?_, ?_, ?_, ?_, ?_⟩
  all_goals first | exact ⟨[], rfl, fun _ => by cbv⟩ | decide | (intro _ _ h; contradiction)

theorem meets_DomainControl_4 :
  ∃ (s s1 : State) (a : Code) (x : Bool) (m : Word), let k := s1.clock.core; let g := ddaOf s1 k; admits { unit := hasDda, srcs := [a] } s = true ∧
    Reads s a x m s1 ∧ bits m 63 4 = 0 ∧ oldestOrOutside s1 ∧ rangeFree s1 ∧ (current s1).dhalt = true ∧
    (∀ e, e < 4 → m.getLsbD e = true → (g.dom e).run = false) := by
  refine ⟨{ ddaSt 15 0 {} [] with threads := [(0, { user [(8, full 15)] with dhalt := true })] },
    { ddaSt 15 0 {} [] with threads := [(0, { user [(8, full 15)] with dhalt := true })] }, 8, false, 15, ?_, ?_, ?_, ?_, ?_, ?_, ?_⟩
  all_goals repeat' first | exact ⟨[], rfl, fun _ => by cbv⟩ | decide | simp only [List.mem_singleton, forall_eq] | (intro _ _ h; contradiction)

theorem meets_StartTrap :
  ∃ (s s1 : State) (a : Code) (x : Bool) (m : Word) (e i : Nat) (c : Cell), let g := ddaOf s1 s1.clock.core;
    let full (f j : Nat) (c : Cell) : Prop := f < 4 ∧ m.getLsbD f = true ∧ (g.dom f).run = false ∧ (j, c) ∈ g.members f ∧ c.sat = true;
    admits { unit := hasDda, srcs := [a] } s = true ∧ Reads s a x m s1 ∧ bits m 63 4 = 0 ∧ oldestOrOutside s1 ∧ rangeFree s1 ∧ full e i c ∧
    (∀ f j x, full f j x → i < j ∨ i = j ∧ e ≤ f) := by
  refine ⟨ddaSt 3 0 satDda [], ddaSt 3 0 satDda [], 8, false, 3, 1, 3, { patch := patchDx 1, sat := true }, ?_, ?_, ?_, ?_, ?_, ?_, ?_⟩
  all_goals first | exact lowest_sat | decide | exact ⟨[], rfl, fun _ => rfl⟩ | (intro _ _ h; contradiction)

theorem meets_PortResults_1 :
  ∃ (s s1 s2 : State) (d a b : Code) (x y : Bool) (va vb : Word) (dest : Dest), Reads s a x va s1 ∧ Reads s1 b y vb s2 ∧ va.toNat ≤ 7 ∧
    oldestOrOutside s2 ∧ rangeFree s2 ∧ admits { unit := hasDda, srcs := [a, b] } s = true ∧ -7 ≤ vb.toInt ∧ vb.toInt ≤ 7 := by
  refine ⟨ddaSt 1 7 { cells := [(4, cellPort)] } [], ddaSt 1 7 { cells := [(4, cellPort)] } [], ddaSt 1 7 { cells := [(4, cellPort)] } [], 10, 8, 9,
    false, false, 1, 7, .reg 10, ?_, ?_, ?_, ?_, ?_, ?_, ?_, ?_⟩
  all_goals first | decide | exact ⟨[], rfl, fun _ => rfl⟩ | (intro _ _ h; contradiction)

theorem meets_PortResults_1b :
  ∃ (s s1 s2 : State) (d a b : Code) (x y : Bool) (va vb : Word) (dest : Dest), Reads s a x va s1 ∧ Reads s1 b y vb s2 ∧ va.toNat ≤ 7 ∧
    oldestOrOutside s2 ∧ rangeFree s2 ∧ admits { unit := hasDda, srcs := [a, b] } s = true ∧ -7 ≤ vb.toInt ∧ vb.toInt ≤ 7 := by
  refine ⟨ddaSt 1 (-7) { cells := [(4, cellPort)] } [], ddaSt 1 (-7) { cells := [(4, cellPort)] } [], ddaSt 1 (-7) { cells := [(4, cellPort)] } [],
    10, 8, 9, false, false, 1, -7, .reg 10, ?_, ?_, ?_, ?_, ?_, ?_, ?_, ?_⟩
  all_goals first | decide | exact ⟨[], rfl, fun _ => rfl⟩ | (intro _ _ h; contradiction)

theorem meets_PortResults_2 :
  ∃ (s s1 s2 : State) (d a b : Code) (x y : Bool) (va vb : Word) (dest : Dest), Reads s a x va s1 ∧ Reads s1 b y vb s2 ∧ va.toNat ≤ 7 ∧
    oldestOrOutside s2 ∧ rangeFree s2 ∧ admits { unit := hasDda, srcs := [a, b] } s = true ∧ 7 < vb.toInt := by
  refine ⟨ddaSt 7 8 {} [], ddaSt 7 8 {} [], ddaSt 7 8 {} [], 10, 8, 9, false, false, 7, 8, .reg 10, ?_, ?_, ?_, ?_, ?_, ?_, ?_⟩
  all_goals first | decide | exact ⟨[], rfl, fun _ => rfl⟩ | (intro _ _ h; contradiction)

theorem meets_PortResults_3 :
  ∃ (s s1 s2 : State) (d a b : Code) (x y : Bool) (va vb : Word) (dest : Dest), Reads s a x va s1 ∧ Reads s1 b y vb s2 ∧ va.toNat ≤ 7 ∧
    oldestOrOutside s2 ∧ rangeFree s2 ∧ admits { unit := hasDda, srcs := [a, b], dst := some d } s = true ∧ Takes s2 d dest ∧
    s2.occupied (tid s2) = true ∧ bits vb 63 9 = 0 := by
  refine ⟨ddaSt 7 0x1FF {} [], ddaSt 7 0x1FF {} [], ddaSt 7 0x1FF {} [], 10, 8, 9, false, false, 7, 0x1FF, .reg 10, ?_, ?_, ?_, ?_, ?_, ?_, ?_, ?_,
    ?_⟩
  all_goals first | decide | exact ⟨[], rfl, fun _ => rfl⟩ | (intro _ _ h; contradiction)

theorem meets_PortResults_3b :
  ∃ (s s1 s2 : State) (d a b : Code) (x y : Bool) (va vb : Word) (dest : Dest), Reads s a x va s1 ∧ Reads s1 b y vb s2 ∧ va.toNat ≤ 7 ∧
    oldestOrOutside s2 ∧ rangeFree s2 ∧ admits { unit := hasDda, srcs := [a, b], dst := some d } s = true ∧ Takes s2 d dest ∧
    s2.occupied (tid s2) = true ∧ bits vb 63 9 = 0 := by
  refine ⟨ddaSt 7 0x80 {} [], ddaSt 7 0x80 {} [], ddaSt 7 0x80 {} [], 10, 8, 9, false, false, 7, 0x80, .reg 10, ?_, ?_, ?_, ?_, ?_, ?_, ?_, ?_, ?_⟩
  all_goals first | decide | exact ⟨[], rfl, fun _ => rfl⟩ | (intro _ _ h; contradiction)

theorem meets_CellStep_1 :
  ∃ (g : Dda) (c : Cell), c.r < c.modulus ∧ c.y.natAbs < c.modulus ∧ (∀ i, -1 ≤ (g.cell i).dz ∧ (g.cell i).dz ≤ 1) ∧
    let dy := sampled g c 1 + sampled g c 2 + sampled g c 3; (c.y + dy).natAbs < c.modulus := by
  refine ⟨{}, cellDx, ?_, ?_, ?_, ?_⟩
  all_goals first | (intro i; show (-1 : Int) ≤ 0 ∧ (0 : Int) ≤ 1; decide) | decide

theorem meets_CellStep_2 :
  ∃ (g : Dda) (c : Cell), c.r < c.modulus ∧ c.y.natAbs < c.modulus ∧ (∀ i, -1 ≤ (g.cell i).dz ∧ (g.cell i).dz ≤ 1) ∧
    let dy := sampled g c 1 + sampled g c 2 + sampled g c 3; (c.modulus : Int) ≤ (c.y + dy).natAbs := by
  refine ⟨{}, cellDy, ?_, ?_, ?_, ?_⟩
  all_goals first | (intro i; show (-1 : Int) ≤ 0 ∧ (0 : Int) ≤ 1; decide) | decide

theorem meets_DomainSteps_1 :
  ∃ (s : State) (k d : Nat) (next : Nat → Cell), let g := ddaOf s k; let x := g.dom d; (s.coreOf k).isSealed = false ∧ x.run = true ∧
    x.dueStep = s.clock.now ∧ x.gate = false ∧
    (∀ p ∈ g.members d, p.2.sat = false ∧ g.stepCell p.2 = some (next p.1) ∧ FMap.get? g.cells p.1 = some p.2) ∧ g.outs = [] := by
  refine ⟨stepSt [(4, cellDx)] { run := true }, 0, 0, (fun _ => { cellDx with r := 8 }), ?_, ?_, ?_, ?_, ?_, ?_⟩
  all_goals first
    | (intro p hp; simp only [show ((ddaOf (stepSt [(4, cellDx)] { run := true }) 0).members 0) = [(4, cellDx)] from rfl, show ((ddaOf (stepSt [(4, cellDy)] { run := true }) 0).members 0) = [(4, cellDy)] from rfl, List.mem_singleton] at hp; subst hp; decide) | decide

theorem meets_DomainSteps_2 :
  ∃ (s : State) (k d : Nat) (next : Nat → Cell), let g := ddaOf s k; let x := g.dom d; (s.coreOf k).isSealed = false ∧ x.run = true ∧
    x.dueStep = s.clock.now ∧ x.gate = false ∧ (∃ p ∈ g.members d, p.2.sat = true) := by
  refine ⟨stepSt [(4, { cellDx with sat := true })] { run := true }, 0, 0, (fun _ => { cellDx with r := 8 }), ?_, ?_, ?_, ?_, ?_⟩
  all_goals first | exact ⟨(4, { cellDx with sat := true }), List.mem_singleton.mpr rfl, rfl⟩ | decide

theorem meets_DomainSteps_3 :
  ∃ (s : State) (k d : Nat) (next : Nat → Cell), let g := ddaOf s k; let x := g.dom d; (s.coreOf k).isSealed = false ∧ x.run = true ∧
    x.dueStep = s.clock.now ∧ x.gate = false ∧ (∀ p ∈ g.members d, p.2.sat = false) ∧ (∃ p ∈ g.members d, g.stepCell p.2 = none) := by
  refine ⟨stepSt [(4, cellDy)] { run := true }, 0, 0, (fun _ => { cellDx with r := 8 }), ?_, ?_, ?_, ?_, ?_, ?_⟩
  all_goals first
    | exact ⟨(4, cellDy), List.mem_singleton.mpr rfl, by decide⟩
    | (intro p hp; simp only [show ((ddaOf (stepSt [(4, cellDy)] { run := true }) 0).members 0) = [(4, cellDy)] from rfl, List.mem_singleton] at hp; subst hp; decide) | decide

theorem meets_CrossingUnits :
  ∃ (s : State) (k i n : Nat) (u : Crossing) (c : Cell), (∀ e ∈ s.clock.events, s.clock.now < e.at_) ∧ FMap.get? (ddaOf s k).cells i = some c ∧
    (u.unit = 1 ∨ u.unit = -1) := by
  refine ⟨stepSt [(4, { cellDx with patch := 0x880000FFFFFFFD09 })] {}, 0, 4, 0, { source := 0x109, dom := 1, unit := 1 },
    { cellDx with patch := 0x880000FFFFFFFD09 }, ?_, ?_, ?_⟩
  all_goals decide

theorem meets_CrossingUnits_1b :
  ∃ (s : State) (k i n : Nat) (u : Crossing) (c : Cell), (∀ e ∈ s.clock.events, s.clock.now < e.at_) ∧ FMap.get? (ddaOf s k).cells i = some c ∧
    (u.unit = 1 ∨ u.unit = -1) := by
  refine ⟨stepSt [(4, { cellPort with cc := [7, 0, 0, 0] })] {}, 0, 4, 0, { source := 0x109, dom := 1, unit := 1 },
    { cellPort with cc := [7, 0, 0, 0] }, ?_, ?_, ?_⟩
  all_goals decide

theorem meets_RecordTake_1 :
  ∃ (s : State) (k port : Nat) (r : InRec), let g := ddaOf s k; g.readers port ≠ [] ∧ (∀ e ∈ g.readers port, (g.dom e).gate = true) := by
  refine ⟨portSt 0x101 { cells := [(4, cellPort)], doms := [(0, { gate := true })] }, 0, 1, portRec, ?_, ?_⟩
  all_goals decide

theorem meets_RecordTake_2 :
  ∃ (s : State) (k port : Nat) (r : InRec), let g := ddaOf s k; let chan := 0xF8 + port; let b := FMap.get {} (s.coreOf k).inboxes (chan % 4);
    (g.readers port = [] ∨ ∃ e ∈ g.readers port, (g.dom e).gate = false) ∧ (∀ b, (s.coreOf k).bist = some b → b.test ≠ 3) ∧
    released s k chan = [r] ∧ r.off = b.head := by
  refine ⟨portSt 0x101 { cells := [(4, cellPort)] }, 0, 1, portRec, ?_, ?_, ?_, ?_⟩
  all_goals decide

theorem meets_RecordTake_2b :
  ∃ (s : State) (k port : Nat) (r : InRec), let g := ddaOf s k; let chan := 0xF8 + port; let b := FMap.get {} (s.coreOf k).inboxes (chan % 4);
    (g.readers port = [] ∨ ∃ e ∈ g.readers port, (g.dom e).gate = false) ∧ (∀ b, (s.coreOf k).bist = some b → b.test ≠ 3) ∧
    released s k chan = [r] ∧ r.off = b.head := by
  refine ⟨portSt 0x108 {}, 0, 1, portRec, ?_, ?_, ?_, ?_⟩
  all_goals decide

theorem meets_DomainBoundary_1 :
  ∃ (s : State) (k d : Nat), let x := (ddaOf s k).dom d; (∀ slot, slot < 16 → (s.thread (tidOf k slot)).rsave = none) ∧ x.run = false ∧
    x.newCtl = none := by
  refine ⟨stepSt [(4, cellDx)] {}, 0, 0, ?_, ?_, ?_⟩
  all_goals decide

theorem meets_DomainBoundary_2 :
  ∃ (s : State) (k d : Nat), let x := (ddaOf s k).dom d; (∀ slot, slot < 16 → (s.thread (tidOf k slot)).rsave = none) ∧ x.run = true ∧
    x.halting = true ∧ x.newCtl = none := by
  refine ⟨stepSt [(4, cellDx)] { run := true, halting := true }, 0, 0, ?_, ?_, ?_, ?_⟩
  all_goals decide

theorem meets_DomainBoundary_3 :
  ∃ (s : State) (k d : Nat), let x := (ddaOf s k).dom d; (∀ slot, slot < 16 → (s.thread (tidOf k slot)).rsave = none) ∧ ∃ v, x.halting = false ∧
    x.newCtl = some v := by
  refine ⟨stepSt [(4, cellDx)] { run := true, newCtl := some 0x64 }, 0, 0, ?_, 0x64, ?_, ?_⟩
  all_goals decide

theorem meets_PackResults :
  ∃ p ∈ packForms, ∃ (s s1 s2 s3 : State) (d a b : Code) (x y : Bool) (va vb : Word), admits { srcs := [a, b], dst := some d } s = true ∧
    Reads s a x va s1 ∧ Reads s1 b y vb s2 ∧ Writes s2 d (p.2 va vb) s3 := by
  refine ⟨packForms[0], ?_, two 0x0807060504030201 3, two 0x0807060504030201 3, two 0x0807060504030201 3,
    after (writeDst 10 (packed 6 0x0807060504030201 3)) (two 0x0807060504030201 3), 10, 8, 9, false, false, 0x0807060504030201, 3, ?_, ?_, ?_, ?_⟩
  all_goals first | exact List.getElem_mem _ | decide | exact ⟨[], rfl, fun _ => rfl⟩ | exact ⟨_, rfl, fun _ => rfl⟩

theorem meets_PackResults_1b :
  ∃ p ∈ packForms, ∃ (s s1 s2 s3 : State) (d a b : Code) (x y : Bool) (va vb : Word), admits { srcs := [a, b], dst := some d } s = true ∧
    Reads s a x va s1 ∧ Reads s1 b y vb s2 ∧ Writes s2 d (p.2 va vb) s3 := by
  refine ⟨packForms[3], ?_, two 0x0807060504030201 3, two 0x0807060504030201 3, two 0x0807060504030201 3,
    after (writeDst 10 (unpacked 4 0x0807060504030201 3)) (two 0x0807060504030201 3), 10, 8, 9, false, false, 0x0807060504030201, 3, ?_, ?_, ?_, ?_⟩
  all_goals first | exact List.getElem_mem _ | decide | exact ⟨[], rfl, fun _ => rfl⟩ | exact ⟨_, rfl, fun _ => rfl⟩

theorem meets_PackResults_1c :
  ∃ p ∈ packForms, ∃ (s s1 s2 s3 : State) (d a b : Code) (x y : Bool) (va vb : Word), admits { srcs := [a, b], dst := some d } s = true ∧
    Reads s a x va s1 ∧ Reads s1 b y vb s2 ∧ Writes s2 d (p.2 va vb) s3 := by
  refine ⟨packForms[2], ?_, two 0x0807060504030201 (-3), two 0x0807060504030201 (-3), two 0x0807060504030201 (-3),
    after (writeDst 10 (packed 4 0x0807060504030201 (-3))) (two 0x0807060504030201 (-3)), 10, 8, 9, false, false, 0x0807060504030201, -3, ?_, ?_, ?_,
      ?_⟩
  all_goals first | exact List.getElem_mem _ | decide | exact ⟨[], rfl, fun _ => rfl⟩ | exact ⟨_, rfl, fun _ => rfl⟩

theorem meets_LogResults_1 :
  ∃ (s s1 s2 s3 : State) (d a b : Code) (x y : Bool) (va vb : Word), admits { srcs := [a, b], dst := some d } s = true ∧ Reads s a x va s1 ∧
    Reads s1 b y vb s2 ∧ bits vb 63 2 ≠ 0 := by
  refine ⟨two 0x400000003F800000 4, two 0x400000003F800000 4, two 0x400000003F800000 4, st, 10, 8, 9, false, false, 0x400000003F800000, 4, ?_, ?_,
    ?_, ?_⟩
  all_goals first | decide | exact ⟨[], rfl, fun _ => rfl⟩

theorem meets_LogResults_2 :
  ∃ (s s1 s2 s3 : State) (d a b : Code) (x y : Bool) (va vb : Word), let enc (v : Nat) := NumFmt.lg6.convert 0 (bits vb 1 0) (Fmt.f32.decode v);
    admits { srcs := [a, b], dst := some d } s = true ∧ Reads s a x va s1 ∧ Reads s1 b y vb s2 ∧ bits vb 63 2 = 0 ∧
    (enc (bits va 31 0)).trap = false ∧ (enc (bits va 63 32)).trap = false ∧
    Writes s2 d (BitVec.ofNat 64 ((enc (bits va 63 32)).code % 64 * 2 ^ 8 + (enc (bits va 31 0)).code % 64)) s3 := by
  refine ⟨two 0x400000003F800000 3, two 0x400000003F800000 3, two 0x400000003F800000 3, after (writeDst 10 1024) (two 0x400000003F800000 3), 10, 8,
    9, false, false, 0x400000003F800000, 3, ?_, ?_, ?_, ?_, ?_, ?_, ?_⟩
  all_goals first | decide | exact ⟨[], rfl, fun _ => rfl⟩ | exact ⟨_, rfl, fun _ => rfl⟩

theorem meets_LogResults_3 :
  ∃ (s s1 s2 s3 : State) (d a b : Code) (x y : Bool) (va vb : Word), let enc (v : Nat) := NumFmt.lg6.convert 0 (bits vb 1 0) (Fmt.f32.decode v);
    admits { srcs := [a, b], dst := some d } s = true ∧ Reads s a x va s1 ∧ Reads s1 b y vb s2 ∧ bits vb 63 2 = 0 ∧
    ((enc (bits va 31 0)).trap = true ∨ (enc (bits va 63 32)).trap = true) := by
  refine ⟨two 0x400000007F000000 3, two 0x400000007F000000 3, two 0x400000007F000000 3, st, 10, 8, 9, false, false, 0x400000007F000000, 3, ?_, ?_,
    ?_, ?_, ?_⟩
  all_goals first | decide | exact ⟨[], rfl, fun _ => rfl⟩

theorem meets_LogResults_4 :
  ∃ (s s1 s2 s3 : State) (d a b : Code) (x y : Bool) (va vb : Word),
    let dec (n : Nat) := (Fmt.f32.convert 0 0 (lgDecode (va.toNat / 2 ^ (8 * n) % 64))).code; admits { srcs := [a, b], dst := some d } s = true ∧
    Reads s a x va s1 ∧ Reads s1 b y vb s2 ∧ vb.toNat ≤ 6 ∧ Writes s2 d (BitVec.ofNat 64 (dec (vb.toNat + 1) * 2 ^ 32 + dec vb.toNat)) s3 := by
  refine ⟨two 0x0807060504030201 6, two 0x0807060504030201 6, two 0x0807060504030201 6,
    after (writeDst 10 4647714816525812736) (two 0x0807060504030201 6), 10, 8, 9, false, false, 0x0807060504030201, 6, ?_, ?_, ?_, ?_, ?_⟩
  all_goals first | decide | exact ⟨[], rfl, fun _ => rfl⟩ | exact ⟨_, rfl, fun _ => rfl⟩

theorem meets_LogResults_5 :
  ∃ (s s1 s2 s3 : State) (d a b : Code) (x y : Bool) (va vb : Word), admits { srcs := [a, b], dst := some d } s = true ∧ Reads s a x va s1 ∧
    Reads s1 b y vb s2 ∧ 6 < vb.toNat := by
  refine ⟨two 0x0807060504030201 7, two 0x0807060504030201 7, two 0x0807060504030201 7, st, 10, 8, 9, false, false, 0x0807060504030201, 7, ?_, ?_,
    ?_, ?_⟩
  all_goals first | decide | exact ⟨[], rfl, fun _ => rfl⟩

/-- Slot 15 of core 0 issues, in context 1. -/
def furSt (t : Thread) : State := { threads := [(15, t)], mem := mem ctx1, clock := { slot := 15 } }
/-- The furrow of core 0 over cores 0 and 1 has been reserved; slot 15 of core 1 is empty or not. -/
def waitFur (busy : Bool) : State :=
  { threads := (15, { inCtx [(8, full 5)] with status := .parked .furrow none, icnt := 3 }) :: (if busy then [(31, inCtx [])] else []),
    mem := mem ctx1, pkg := { furrows := [(0, { last := 1 })] } }
/-- A column at FEND. -/
def endSt (last j : Nat) : State :=
  { threads := [(15, { inCtx [(8, full 5)] with status := .parked .column none, col := some { head := 0, j := 0, idx := 3, ended := j ≠ 0 } }),
                (31, { inCtx [(8, full 6)] with status := .parked .column none, fflags := 4, col := some { head := 0, j := 1, idx := 3 } })],
    mem := mem ctx1, pkg := { furrows := [(0, { last := last, started := true })] }, clock := { core := j, slot := 15 } }
/-- Where a task control block of context 1 stands, and its linear address. -/
def kT : Nat := hbmKey 0 0x50000000
/-- Its doublewords: dw0, PCNT and the context with its partition. -/
def tcb (dw0 pcnt ctx : Word) : List (Nat × Word) :=
  hbmMem ++ [(kT, dw0), (kT + 8, pcnt), (kT + 0x18, 0x1000000000001), (kT + 0x20, 6), (kT + 0x28, 1), (kT + 0x58, ctx)]
/-- A task is queued before it, at the next block. -/
def tcbSt (dw0 pcnt : Word) : State :=
  { mem := mem (tcb dw0 pcnt 1), dies := [(0, { queues := [(1, [kT + 256])] })], pkg := { tcbLin := [(kT, 0x10000)] } }
def launched (op : Nat) (lin : Word) : LaunchRecord := { die := 0, ctx := 1, part := some 0, word := BitVec.ofNat 64 (op * 2 ^ 62) + lin }
def taskSt (x : Task) (dw0 : Word) : State :=
  { mem := mem (tcb dw0 0 1), pkg := { tasks := [(kT, x)], tcbLin := [(kT, 0x10000)] }, dies := [(0, { clpart := [(0, 0x8000000000000000)] })] }
def task2 : Task :=
  { task1 with tcbLin := 0x10000, fields := [{ width := 1, grain := 6, extent := 2 }], total := 2, live := 0, created := 0 }
/-- A queue of two tasks of priority 1. -/
def queued (ctl : Word) : State :=
  { mem := mem (tcb 0x1100000000000000 0 1 ++ [(kT + 256, 0x1100000000000000), (kT + 256 + 0xA0, 5), (kT + 0xB0, ctl)]),
    dies := [(0, { queues := [(1, [kT, kT + 256])] })], pkg := { tcbLin := [(kT, 0x10000), (kT + 256, 0x10100)] } }
theorem quiet_core {c : Core} (h : c.commands = [] ∧ c.array.queue = [] ∧ c.sendq = [] ∧ c.ddaq = [] ∧ c.rings = [] ∧ c.dda.doms = []) : quietCore c :=
  ⟨h.1, h.2.1, h.2.2.1, h.2.2.2.1, h.2.2.2.2.1, fun d => by simp [Dda.dom, h.2.2.2.2.2, FMap.get, FMap.get?]⟩
theorem upTo8 {P : Nat → Prop} (h : ∀ n : Fin 8, P n) : ∀ n, n < 8 → P n := fun n hn => h ⟨n, hn⟩
/-- A die with a context to kill. -/
def killSt (x : Die) (evs : List Due) : State :=
  { threads := [(0, inCtx []), (1, user [])], cores := [(0, { nextXid := 3 })], dies := [(0, x)], clock := { events := evs } }
/-- A core of context 1 to be removed. -/
def removeSt (t : FMap Thread) (n : Nat) : State :=
  { threads := t, mem := mem ctx1, dies := [(0, { corecmd := BitVec.ofNat 64 (2 ^ 40 + n * 2 ^ 16), coreBusy := true })] }
/-- The same with an entry that says that the core is leaving. -/
def leavingSt (t : FMap Thread) : State :=
  { removeSt t 0 with mem := mem (ctx1 ++ [(hbmKey 0 0x10000, 0xC000000000000000)]) }
def windowTh : Thread := { inCtx ((List.range 32).map fun i => (i, full (BitVec.ofNat 64 i))) with depth := 1 }
def windowSt (t : Thread) : State := { threads := [(0, t)] }

theorem meets_FurrowReserves_1 :
  ∃ (s : State) (e : Code), let k := s.clock.core; admits { literals := decide (e.toNat ≤ 27), unit := hasArray } s = true ∧ s.clock.slot < 16 ∧
    (s.clock.slot ≠ 15 ∨ colOf k ≠ 0) := by
  refine ⟨st, 1, ?_, ?_, ?_⟩
  all_goals decide

theorem meets_FurrowReserves_1b :
  ∃ (s : State) (e : Code), let k := s.clock.core; admits { literals := decide (e.toNat ≤ 27), unit := hasArray } s = true ∧ s.clock.slot < 16 ∧
    (s.clock.slot ≠ 15 ∨ colOf k ≠ 0) := by
  refine ⟨columnSt 1 false, 0, ?_, ?_, ?_⟩
  all_goals decide

theorem meets_FurrowReserves_2 :
  ∃ (s : State) (e : Code), let k := s.clock.core; admits { literals := decide (e.toNat ≤ 27), unit := hasArray } s = true ∧ s.clock.slot < 16 ∧
    s.clock.slot = 15 ∧ colOf k = 0 ∧ ((current s).iter.isSome ∨ (current s).col.isSome ∨ (current s).twin.isSome) := by
  refine ⟨furSt { inCtx [] with col := some { head := 0, j := 0, idx := 0 } }, 1, ?_, ?_, ?_, ?_, ?_⟩
  all_goals decide

theorem meets_FurrowReserves_3 :
  ∃ (s : State) (e : Code), let k := s.clock.core; admits { literals := decide (e.toNat ≤ 27), unit := hasArray } s = true ∧ s.clock.slot < 16 ∧
    s.clock.slot = 15 ∧ colOf k = 0 ∧ (current s).iter = none ∧ (current s).col = none ∧ (current s).twin = none ∧
    (∃ c, k ≤ c ∧ c ≤ k + e.toNat ∧ logicalOf s (dieOf k) (current s).ctx c = none) := by
  refine ⟨furSt (inCtx []), 2, ?_, ?_, ?_, ?_, ?_, ?_, ?_, ?_⟩
  all_goals first | exact ⟨2, by decide, by decide, by decide +kernel⟩ | decide

theorem meets_FurrowReserves_4 :
  ∃ (s : State) (e : Code), let k := s.clock.core; admits { literals := decide (e.toNat ≤ 27), unit := hasArray } s = true ∧ s.clock.slot < 16 ∧
    s.clock.slot = 15 ∧ colOf k = 0 ∧ (current s).iter = none ∧ (current s).col = none ∧ (current s).twin = none ∧
    (∀ c, k ≤ c → c ≤ k + e.toNat → (logicalOf s (dieOf k) (current s).ctx c).isSome = true) ∧ Performs awaitAll s () s ∧ s.occupied (tid s) = true := by
  refine ⟨furSt (inCtx []), 1, ?_, ?_, ?_, ?_, ?_, ?_, ?_, ?_, ?_, ?_⟩
  all_goals first
    | (intro c _ hc; have : c = 0 ∨ c = 1 := (by have : c ≤ 1 := hc; omega); rcases this with rfl | rfl <;> decide +kernel) | decide
    | exact ⟨[], rfl, fun _ => rfl⟩

theorem meets_FurrowStarts_1 :
  ∃ (s : State) (k : Nat) (f : Furrow) (since : Option Nat), let h := s.thread (tidOf k 15); FMap.get? s.pkg.furrows k = some f ∧
    f.started = false ∧ h.status = .parked .furrow since ∧ s.occupied (tidOf k 15) = true ∧
    (∃ j, 1 ≤ j ∧ j ≤ f.last ∧ s.occupied (tidOf (k + j) 15) = true) := by
  refine ⟨waitFur true, 0, { last := 1 }, none, ?_, ?_, ?_, ?_, ?_⟩
  all_goals first | exact ⟨1, by decide, by decide, by decide⟩ | decide

theorem meets_FurrowStarts_2 :
  ∃ (s : State) (k : Nat) (f : Furrow) (since : Option Nat), let h := s.thread (tidOf k 15); FMap.get? s.pkg.furrows k = some f ∧
    f.started = false ∧ h.status = .parked .furrow since ∧ s.occupied (tidOf k 15) = true ∧
    (∀ j, 1 ≤ j → j ≤ f.last → s.occupied (tidOf (k + j) 15) = false) ∧ f.cols = [] := by
  refine ⟨waitFur false, 0, { last := 1 }, none, ?_, ?_, ?_, ?_, ?_, ?_⟩
  all_goals first | (intro j h1 h2; have : j = 1 := Nat.le_antisymm h2 h1; subst this; decide) | decide

theorem meets_FurrowTurns_1 :
  ∃ (s : State) (k : Nat), FMap.get? s.pkg.furrows k = none := by
  refine ⟨st, 0, ?_⟩
  all_goals decide

theorem meets_FurrowTurns_2 :
  ∃ (s : State) (k : Nat), ∃ f, FMap.get? s.pkg.furrows k = some f := by
  refine ⟨waitFur false, 0, { last := 1 }, ?_⟩
  all_goals decide

theorem meets_FurrowEnds_1 :
  ∃ (s : State), admits {} s = true ∧ (current s).col = none := by
  refine ⟨st, ?_, ?_⟩
  all_goals decide

theorem meets_FurrowEnds_2 :
  ∃ (s : State) (c : Column) (f : Furrow), admits {} s = true ∧ (current s).col = some c ∧ c.inHandler = false ∧ Performs awaitAll s () s ∧
    FMap.get? s.pkg.furrows c.head = some f ∧ s.occupied (tid s) = true ∧ let h := tidOf c.head 15; c.j = 0 ∧ f.last = 0 ∧ h = tid s := by
  refine ⟨{ endSt 0 0 with clock := { slot := 15 } }, { head := 0, j := 0, idx := 3 }, { last := 0, started := true }, ?_, ?_, ?_, ?_, ?_, ?_, ?_,
    ?_, ?_⟩
  all_goals first | decide | exact ⟨[], rfl, fun _ => rfl⟩

theorem meets_FurrowEnds_3 :
  ∃ (s : State) (c : Column) (f : Furrow), admits {} s = true ∧ (current s).col = some c ∧ c.inHandler = false ∧ Performs awaitAll s () s ∧
    FMap.get? s.pkg.furrows c.head = some f ∧ s.occupied (tid s) = true ∧ c.j = 0 ∧ 0 < f.last := by
  refine ⟨endSt 1 0, { head := 0, j := 0, idx := 3 }, { last := 1, started := true }, ?_, ?_, ?_, ?_, ?_, ?_, ?_, ?_⟩
  all_goals first | decide | exact ⟨[], rfl, fun _ => rfl⟩

theorem meets_FurrowEnds_4 :
  ∃ (s : State) (c : Column) (f : Furrow), admits {} s = true ∧ (current s).col = some c ∧ c.inHandler = false ∧ Performs awaitAll s () s ∧
    FMap.get? s.pkg.furrows c.head = some f ∧ s.occupied (tid s) = true ∧ let h := tidOf c.head 15; c.j ≠ 0 ∧ (current s).monitors = [] ∧
    h ≠ tid s ∧ s.occupied h = true := by
  refine ⟨endSt 1 1, { head := 0, j := 1, idx := 3 }, { last := 1, started := true }, ?_, ?_, ?_, ?_, ?_, ?_, ?_, ?_, ?_, ?_⟩
  all_goals first | decide | exact ⟨[], rfl, fun _ => rfl⟩

theorem meets_FurrowEnds_4b :
  ∃ (s : State) (c : Column) (f : Furrow), admits {} s = true ∧ (current s).col = some c ∧ c.inHandler = false ∧ Performs awaitAll s () s ∧
    FMap.get? s.pkg.furrows c.head = some f ∧ s.occupied (tid s) = true ∧ let h := tidOf c.head 15; c.j ≠ 0 ∧ (current s).monitors = [] ∧
    h ≠ tid s ∧ s.occupied h = true := by
  refine ⟨endSt 2 1, { head := 0, j := 1, idx := 3 }, { last := 2, started := true }, ?_, ?_, ?_, ?_, ?_, ?_, ?_, ?_, ?_, ?_⟩
  all_goals first | decide | exact ⟨[], rfl, fun _ => rfl⟩

theorem meets_LaunchRecords_1 :
  ∃ (s : State) (r : LaunchRecord), launchTcb s r = none := by
  refine ⟨tcbSt 0 0, launched 0 0x20000, ?_⟩
  all_goals decide +kernel

theorem meets_LaunchRecords_1b :
  ∃ (s : State) (r : LaunchRecord), launchTcb s r = none := by
  refine ⟨tcbSt 0 0, { launched 0 0x10000 with part := none }, ?_⟩
  all_goals decide +kernel

theorem meets_LaunchRecords_2 :
  ∃ (s : State) (r : LaunchRecord), ∃ key lin, launchTcb s r = some (key, lin) ∧ bits r.word 63 62 = 0 ∧ tcbState s key = 0 ∧
    bits (memDw s (key + 8)) 31 0 = 0 ∧ queueFit s key := by
  refine ⟨tcbSt 0x100000000000000 0, launched 0 0x10000, kT, 0x10000, ?_, ?_, ?_, ?_, ?_⟩
  all_goals first
    | exact ⟨rfl, by intro x hx; rw [show queueOf (tcbSt 0x100000000000000 0) kT = [kT + 256] from by decide +kernel, List.mem_singleton] at hx; subst hx; exact ⟨rfl, by decide⟩⟩ | decide +kernel

theorem meets_LaunchRecords_3 :
  ∃ (s : State) (r : LaunchRecord), ∃ key lin, launchTcb s r = some (key, lin) ∧
    (bits r.word 63 62 ≠ 0 ∨ tcbState s key ≠ 0 ∨ bits (memDw s (key + 8)) 31 0 ≠ 0) := by
  refine ⟨tcbSt 0 2, launched 0 0x10000, kT, 0x10000, ?_, ?_⟩
  all_goals decide +kernel

theorem meets_LaunchRecords_3b :
  ∃ (s : State) (r : LaunchRecord), ∃ key lin, launchTcb s r = some (key, lin) ∧
    (bits r.word 63 62 ≠ 0 ∨ tcbState s key ≠ 0 ∨ bits (memDw s (key + 8)) 31 0 ≠ 0) := by
  refine ⟨tcbSt 0x4000000000000000 0, launched 0 0x10000, kT, 0x10000, ?_, ?_⟩
  all_goals decide +kernel

theorem meets_LaunchRecords_4 :
  ∃ (s : State) (r : LaunchRecord), ∃ key lin, launchTcb s r = some (key, lin) ∧ bits r.word 63 62 = 1 ∧ ∃ t,
    Performs (decrementKey key lin) s () t := by
  refine ⟨tcbSt 0x100000000000000 2, launched 1 0x10000, kT, 0x10000, ?_, ?_, after (decrementKey kT 0x10000) (tcbSt 0x100000000000000 2), ?_⟩
  all_goals first | decide +kernel | exact ⟨fx (decrementKey kT 0x10000) (tcbSt 0x100000000000000 2), rfl, fun _ => by cbv⟩

theorem meets_LaunchRecords_5 :
  ∃ (s : State) (r : LaunchRecord), ∃ key lin, launchTcb s r = some (key, lin) ∧ bits r.word 63 62 ≠ 1 := by
  refine ⟨tcbSt 0 0, launched 0 0x10000, kT, 0x10000, ?_, ?_⟩
  all_goals decide +kernel

theorem meets_Decrements_1 :
  ∃ (s : State) (d key : Nat), let n := bits (memDw s (key + 8)) 31 0; tcbState s key = 0 ∧ 1 < n ∧ isBlock key := by
  refine ⟨tcbSt 0x100000000000000 2, 0, kT, ?_, ?_, ?_⟩
  all_goals first | decide +kernel | rfl

theorem meets_Decrements_2 :
  ∃ (s : State) (d key : Nat), let n := bits (memDw s (key + 8)) 31 0; tcbState s key = 0 ∧ n = 1 ∧ queueFit s key := by
  refine ⟨tcbSt 0x100000000000000 1, 0, kT, ?_, ?_, ?_⟩
  all_goals first
    | exact ⟨rfl, by intro x hx; rw [show queueOf (tcbSt 0x100000000000000 1) kT = [kT + 256] from by decide +kernel, List.mem_singleton] at hx; subst hx; exact ⟨rfl, by decide⟩⟩ | decide +kernel

theorem meets_Decrements_3 :
  ∃ (s : State) (d key : Nat), let n := bits (memDw s (key + 8)) 31 0; (tcbState s key ≠ 0 ∨ n = 0) := by
  refine ⟨tcbSt 0x1000000000000000 1, 0, kT, ?_⟩
  all_goals decide +kernel

theorem meets_Decrements_3b :
  ∃ (s : State) (d key : Nat), let n := bits (memDw s (key + 8)) 31 0; (tcbState s key ≠ 0 ∨ n = 0) := by
  refine ⟨tcbSt 0 0, 0, kT, ?_⟩
  all_goals decide +kernel

theorem meets_Retirement_1 :
  ∃ (s : State) (d key : Nat) (x : Task), FMap.get? s.pkg.tasks key = some x ∧ (x.dispatching = true ∨ x.live ≠ 0 ∨ openCommands s key = true) := by
  refine ⟨taskSt task2 0x2000000000000000, 0, kT, task2, ?_, ?_⟩
  all_goals decide +kernel

theorem meets_Retirement_2 :
  ∃ (s : State) (d key : Nat) (x : Task), FMap.get? s.pkg.tasks key = some x ∧ x.dispatching = false ∧ x.live = 0 ∧ openCommands s key = false ∧
    isBlock key ∧ bits (memDw s key) 50 48 = 0 ∧ memDw s (key + 0x90) = 0 := by
  refine ⟨taskSt { task2 with dispatching := false } 0x2010000000000000, 0, kT, { task2 with dispatching := false }, ?_, ?_, ?_, ?_, ?_, ?_, ?_⟩
  all_goals first | (unfold isBlock; decide) | decide +kernel

theorem meets_Retirement_2b :
  ∃ (s : State) (d key : Nat) (x : Task), FMap.get? s.pkg.tasks key = some x ∧ x.dispatching = false ∧ x.live = 0 ∧ openCommands s key = false ∧
    isBlock key ∧ bits (memDw s key) 50 48 = 0 ∧ memDw s (key + 0x90) = 0 := by
  refine ⟨taskSt { task2 with dispatching := false, vf := 5 } 0x2020000000000000, 0, kT, { task2 with dispatching := false, vf := 5 }, ?_, ?_, ?_,
    ?_, ?_, ?_, ?_⟩
  all_goals first | (unfold isBlock; decide) | decide +kernel

theorem meets_TaskOrder :
  ∃ (s : State) (d p key : Nat), nextTask s d = some (p, key) ∧ ∃ q ∈ queuedTasks s d, effective3 s d q.1 q.2 = effective3 s d p key := by
  refine ⟨queued 0, 0, 1, kT, ?_, (1, kT), ?_, ?_⟩
  all_goals decide +kernel

theorem meets_Dispatching_1 :
  ∃ (s : State) (d : Nat), 16 ≤ dispatching s d := by
  refine ⟨{ pkg := { tasks := (List.range 16).map fun i => (kT + 256 * i, task2) } }, 0, ?_⟩
  all_goals decide +kernel

theorem meets_Dispatching_2 :
  ∃ (s : State) (d : Nat), nextTask s d = none := by
  refine ⟨st, 0, ?_⟩
  all_goals decide +kernel

theorem meets_Dispatching_3 :
  ∃ (s : State) (d : Nat), ∃ p key s1, dispatching s d < 16 ∧ nextTask s d = some (p, key) ∧ Performs (unqueue d p key) s () s1 ∧ isBlock key ∧
    (bits (memDw s1 (key + 0xB0)) 63 48 ≠ 0 ∨ goodTcb s1 key = true) := by
  refine ⟨queued 0, 0, 1, kT, after (unqueue 0 1 kT) (queued 0), ?_, ?_, ?_, ?_, ?_⟩
  all_goals first | decide +kernel | rfl | exact ⟨_, rfl, fun _ => rfl⟩

theorem meets_Dispatching_3b :
  ∃ (s : State) (d : Nat), ∃ p key s1, dispatching s d < 16 ∧ nextTask s d = some (p, key) ∧ Performs (unqueue d p key) s () s1 ∧ isBlock key ∧
    (bits (memDw s1 (key + 0xB0)) 63 48 ≠ 0 ∨ goodTcb s1 key = true) := by
  refine ⟨queued 0x1000000000000, 0, 1, kT, after (unqueue 0 1 kT) (queued 0x1000000000000), ?_, ?_, ?_, ?_, ?_⟩
  all_goals first | decide +kernel | rfl | exact ⟨_, rfl, fun _ => rfl⟩

theorem meets_Dispatching_4 :
  ∃ (s : State) (d : Nat), ∃ p key s1, dispatching s d < 16 ∧ nextTask s d = some (p, key) ∧ Performs (unqueue d p key) s () s1 ∧ isBlock key ∧
    bits (memDw s1 (key + 0xB0)) 63 48 = 0 ∧ goodTcb s1 key = false := by
  refine ⟨{ queued 0 with mem := mem (tcb 0x1180000000000000 0 2) }, 0, 1, kT,
    after (unqueue 0 1 kT) { queued 0 with mem := mem (tcb 0x1180000000000000 0 2) }, ?_, ?_, ?_, ?_, ?_, ?_⟩
  all_goals first | decide +kernel | rfl | exact ⟨_, rfl, fun _ => rfl⟩

theorem meets_CoreChoice_1 :
  ∃ (s : State) (cs : List (Nat × Nat)), ∃ k, mostRoom s cs = some k := by
  refine ⟨taskSt task2 0, [(0, 0), (1, 1)], 0, ?_⟩
  all_goals decide +kernel

theorem meets_CoreChoice_1b :
  ∃ (s : State) (cs : List (Nat × Nat)), ∃ k, mostRoom s cs = some k := by
  refine ⟨{ threads := [(0, user [])] }, [(0, 0), (1, 1)], 1, ?_⟩
  all_goals decide +kernel

theorem meets_CoreChoice_2 :
  ∃ (s : State) (cs : List (Nat × Nat)), mostRoom s cs = none := by
  refine ⟨{ threads := (List.range 16).map fun i => (i, user []) }, [(0, 0)], ?_⟩
  all_goals decide +kernel

theorem meets_Placement_1 :
  ∃ (s : State) (d key : Nat) (x : Task), FMap.get? s.pkg.tasks key = some x ∧ x.returned = [] ∧ x.twin = false ∧ isForeign key = false ∧
    threadTotal x.fields ≤ x.next := by
  refine ⟨taskSt { task2 with next := 2 } 0x2000000000000000, 0, kT, { task2 with next := 2 }, ?_, ?_, ?_, ?_, ?_⟩
  all_goals decide +kernel

theorem meets_Placement_2 :
  ∃ (s : State) (d key : Nat) (x : Task), FMap.get? s.pkg.tasks key = some x ∧ x.returned = [] ∧ x.twin = false ∧ isForeign key = false ∧
    let id := widOf x.fields (fieldValues x.fields x.next); let cores := (eligible s d x.ctx).filter fun c => fits x id c.2;
    x.next < threadTotal x.fields ∧ mostRoom s cores = none := by
  refine ⟨{ taskSt task2 0x2000000000000000 with dies := [] }, 0, kT, task2, ?_, ?_, ?_, ?_, ?_, ?_⟩
  all_goals decide +kernel

theorem meets_Placement_3 :
  ∃ (s : State) (d key : Nat) (x : Task), FMap.get? s.pkg.tasks key = some x ∧ x.returned = [] ∧ x.twin = false ∧ isForeign key = false ∧
    let id := widOf x.fields (fieldValues x.fields x.next); let cores := (eligible s d x.ctx).filter fun c => fits x id c.2; ∃ k,
    x.next < threadTotal x.fields ∧ mostRoom s cores = some k := by
  refine ⟨taskSt task2 0x2000000000000000, 0, kT, task2, ?_, ?_, ?_, ?_, 0, ?_, ?_⟩
  all_goals decide +kernel

theorem meets_Placement_3b :
  ∃ (s : State) (d key : Nat) (x : Task), FMap.get? s.pkg.tasks key = some x ∧ x.returned = [] ∧ x.twin = false ∧ isForeign key = false ∧
    let id := widOf x.fields (fieldValues x.fields x.next); let cores := (eligible s d x.ctx).filter fun c => fits x id c.2; ∃ k,
    x.next < threadTotal x.fields ∧ mostRoom s cores = some k := by
  refine ⟨{ taskSt { task2 with next := 1 } 0x2000000000000000 with cores := [(1, { seeded := [kT] })], threads := [(0, user [])] }, 0, kT,
    { task2 with next := 1 }, ?_, ?_, ?_, ?_, 1, ?_, ?_⟩
  all_goals decide +kernel

theorem meets_Kill_1 :
  ∃ (s : State) (d : Nat), let x := s.dieOf d; x.killBusy = true := by
  refine ⟨killSt { killBusy := true } [], 0, ?_⟩
  all_goals decide

theorem meets_Kill_2 :
  ∃ (s : State) (d : Nat), let x := s.dieOf d; let ctx := bits x.kill 15 0; x.killBusy = false ∧ Ordered s.threads ∧
    (∀ p ∈ s.cores, quietCore p.2) ∧ (∀ p ∈ s.pkg.tasks, p.2.ctx ≠ ctx) ∧ (∀ e, e < 8 → queuedTasks s e = []) := by
  refine ⟨killSt { kill := 1 } [], 0, ?_, ?_, ?_, ?_, ?_⟩
  all_goals first
    | decide | (unfold Ordered; decide)
    | (intro p hp; rw [show (killSt { kill := 1 } []).cores = [(0, { nextXid := 3 })] from rfl, List.mem_singleton] at hp; subst hp; exact quiet_core (by decide))

theorem meets_Kill_3 :
  ∃ (s : State) (d : Nat), let x := s.dieOf d; let ctx := bits x.kill 15 0; stillDraining s ctx = true := by
  refine ⟨killSt { kill := 1 } [{ at_ := 1, seq := 0, act := .eventRecordPlace 0 { ctx := 1, w0 := 0, w1 := 0 } }], 0, ?_⟩
  all_goals decide

theorem meets_Kill_4 :
  ∃ (s : State) (d : Nat), let x := s.dieOf d; let ctx := bits x.kill 15 0; stillDraining s ctx = false := by
  refine ⟨killSt { kill := 1 } [], 0, ?_⟩
  all_goals decide

theorem meets_TaskFailure :
  ∃ (s : State) (d key : Nat) (x : Task), FMap.get? s.pkg.tasks key = some x ∧ (∀ p ∈ s.cores, quietCore p.2) ∧ queueFit s key := by
  refine ⟨taskSt { task2 with replay := true } 0x2000000000000000, 0, kT, { task2 with replay := true }, ?_, ?_, ?_⟩
  all_goals first | (intro p hp; cases hp) | exact ⟨rfl, by intro x hx; cases hx⟩ | decide

theorem meets_TaskFailure_1b :
  ∃ (s : State) (d key : Nat) (x : Task), FMap.get? s.pkg.tasks key = some x ∧ (∀ p ∈ s.cores, quietCore p.2) ∧ queueFit s key := by
  refine ⟨taskSt task2 0x2000000000000000, 0, kT, task2, ?_, ?_, ?_⟩
  all_goals first | (intro p hp; cases hp) | exact ⟨rfl, by intro x hx; cases hx⟩ | decide

theorem meets_CoreRemoval_1 :
  ∃ (s : State) (d : Nat), let x := s.dieOf d; x.coreBusy = false := by
  refine ⟨st, 0, ?_⟩
  all_goals decide +kernel

theorem meets_CoreRemoval_2 :
  ∃ (s : State) (d : Nat), let x := s.dieOf d; let ctx := bits x.corecmd 55 40; let n := bits x.corecmd 39 16; x.coreBusy = true ∧
    coreEntry s d ctx n = none := by
  refine ⟨removeSt [] 5, 0, ?_, ?_⟩
  all_goals decide +kernel

theorem meets_CoreRemoval_3 :
  ∃ (s : State) (d : Nat), let x := s.dieOf d; let ctx := bits x.corecmd 55 40; let n := bits x.corecmd 39 16; ∃ e k, x.coreBusy = true ∧
    coreEntry s d ctx n = some e ∧ entryLeaving e = true ∧ entryPkg e = s.pkg.number ∧ entryCore e = some k ∧ ∃ s1 taker,
    Performs (removeThreads d ctx (arrayOwner (s.coreOf k)) ((List.range 16).map (tidOf k))) s taker s1 ∧
    (∃ slot, slot < 16 ∧ s1.occupied (tidOf k slot) = true ∧ (s1.thread (tidOf k slot)).ctx = ctx) := by
  refine ⟨leavingSt [(0, { inCtx [] with outstanding := [(4, { cls := 1 })] })], 0, 0xC000000000000000, 0, ?_, ?_, ?_, ?_, ?_,
    after (removeThreads 0 1 none ((List.range 16).map (tidOf 0))) (leavingSt [(0, { inCtx [] with outstanding := [(4, { cls := 1 })] })]), none, ?_,
      ?_⟩
  all_goals first | decide +kernel | exact ⟨_, rfl, fun _ => rfl⟩

theorem meets_CoreRemoval_4 :
  ∃ (s : State) (d : Nat), let x := s.dieOf d; let ctx := bits x.corecmd 55 40; let n := bits x.corecmd 39 16; ∃ e k, x.coreBusy = true ∧
    coreEntry s d ctx n = some e ∧ entryLeaving e = true ∧ entryPkg e = s.pkg.number ∧ entryCore e = some k ∧
    (∀ slot, slot < 16 → s.occupied (tidOf k slot) = true → (s.thread (tidOf k slot)).ctx ≠ ctx) ∧
    (∃ slot, slot < 16 ∧ s.occupied (tidOf k slot) = true) := by
  refine ⟨leavingSt [(0, user [])], 0, 0xC000000000000000, 0, ?_, ?_, ?_, ?_, ?_, ?_, ?_⟩
  all_goals decide +kernel

theorem meets_ClusterPartition_1 :
  ∃ (s : State) (d cl : Nat) (v : Word), 223 < bits v 15 0 := by
  refine ⟨st, 0, 0, 224, ?_⟩
  all_goals decide +kernel

theorem meets_ClusterPartition_2 :
  ∃ (s : State) (d cl : Nat) (v : Word), let new := BitVec.ofNat 64 (bits v 63 63 * 2 ^ 63 + bits v 15 0); new ≠ FMap.get 0 (s.dieOf d).clpart cl ∧
    (∃ k ∈ clusterCores d cl, coreQuiet s k = false) := by
  refine ⟨st, 0, 0, 5, ?_, ?_⟩
  all_goals decide +kernel

theorem meets_ClusterPartition_3 :
  ∃ (s : State) (d cl : Nat) (v : Word), bits v 15 0 ≤ 223 ∧ (∀ k ∈ clusterCores d cl, coreQuiet s k = true) := by
  refine ⟨{}, 0, 0, 0x8000000000000005, ?_, ?_⟩
  all_goals decide +kernel

theorem meets_AnnulledPass_1 :
  ∃ (s : State) (k t : Nat), let id := tidOf k t; (eligibleSlot s k t = false ∨ (s.thread id).annul = 0) := by
  refine ⟨st, 0, 0, ?_⟩
  all_goals decide

theorem meets_AnnulledPass_2 :
  ∃ (s : State) (k t : Nat), let id := tidOf k t; eligibleSlot s k t = true ∧ (s.thread id).annul ≠ 0 := by
  refine ⟨machine [(0, { user [(8, full 5)] with annul := 3 })], 0, 0, ?_, ?_⟩
  all_goals decide

theorem meets_WindowMoves_1 :
  ∃ (s : State) (k t : Nat), (∀ n, oldestRequest s k ≠ some (n, .spill)) := by
  refine ⟨st, 0, 0, ?_⟩
  all_goals (intro _ h; cases h <;> rfl)

theorem meets_WindowMoves_2 :
  ∃ (s : State) (k t : Nat), (∀ n, oldestRequest s k ≠ some (n, .fill)) := by
  refine ⟨st, 0, 0, ?_⟩
  all_goals (intro _ h; cases h <;> rfl)

theorem meets_WindowMoves_3 :
  ∃ (s : State) (k t : Nat), let id := tidOf k t; let h := s.thread id; let i := h.movedOf h.wbase true;
    let out := lsKey k (h.wsp.toNat - 128 + 8 * i); oldestRequest s k = some (t, .spill) ∧ Untouched s out 8 := by
  refine ⟨windowSt { windowTh with depth := 2, spillSince := some 0, wsp := 0x17F800 }, 0, 0, ?_, ?_⟩
  all_goals first | decide +kernel | exact untouched_quiet rfl _ _

theorem meets_WindowMoves_3b :
  ∃ (s : State) (k t : Nat), let id := tidOf k t; let h := s.thread id; let i := h.movedOf h.wbase true;
    let out := lsKey k (h.wsp.toNat - 128 + 8 * i); oldestRequest s k = some (t, .spill) ∧ Untouched s out 8 := by
  refine ⟨windowSt { windowTh with depth := 2, spillSince := some 0, wsp := 0x17F800, moved := some (0, true, 15) }, 0, 0, ?_, ?_⟩
  all_goals first | decide +kernel | exact untouched_quiet rfl _ _

theorem meets_WindowMoves_4 :
  ∃ (s : State) (k t : Nat), let id := tidOf k t; let h := s.thread id; oldestRequest s k = some (t, .fill) ∧ h.wbase ≠ 0 := by
  refine ⟨windowSt { windowTh with depth := 2, wbase := 1, schedFill := some 0, wsp := 0x17F800 }, 0, 0, ?_, ?_⟩
  all_goals decide +kernel

theorem meets_WindowMoves_4b :
  ∃ (s : State) (k t : Nat), let id := tidOf k t; let h := s.thread id; oldestRequest s k = some (t, .fill) ∧ h.wbase ≠ 0 := by
  refine ⟨windowSt { windowTh with depth := 2, wbase := 1, schedFill := some 0, wsp := 0x17F800, moved := some (0, false, 15) }, 0, 0, ?_, ?_⟩
  all_goals decide +kernel

theorem meets_FetchFaults :
  ∃ (s : State) (k t : Nat), let id := tidOf k t; let h := s.thread id; s.occupied id = true ∧ Free h := by
  refine ⟨st, 0, 0, ?_, ?_⟩
  all_goals first | exact ⟨rfl, rfl, rfl, by intro _ h; cases h⟩ | decide

theorem meets_FetchFaults_1b :
  ∃ (s : State) (k t : Nat), let id := tidOf k t; let h := s.thread id; s.occupied id = true ∧ Free h := by
  refine ⟨machine [(0, { user [] with uctl := 0xFFFFFFFF })], 0, 0, ?_, ?_⟩
  all_goals first | exact ⟨rfl, rfl, rfl, by intro _ h; cases h⟩ | decide

/-- A core with an event counter, error counts and a scrubbed word; s8 and s9 have values. -/
def countSt (va vb : Word) (lv : Level) : State :=
  { threads := [(0, { inCtx [(8, full va), (9, full vb), (10, full 7)] with level := lv, tsel := 0x10000 })], mem := mem ctx1,
    dies := [(0, { clpart := [(0, 0x8000000000000000)] })],
    cores := [(0, { evs := [(2, { count := 0x1234, en := true, ovf := true, src := 6 })], errs := [(1, 5), (4, 2)] })] }
/-- Core 1 is sealed. -/
def sealedSt : State := let s := countSt 0x30 0 .h; { s with cores := s.cores ++ [(1, { isSealed := true, exact := [(0, { a := 5 })] })] }
def badSt (key : Nat) (double : Bool) : State := { mem := mem [(key, 0x55)], pkg := { eccBad := [(key, double)] } }
/-- A core with a thread that belongs to no task, and one of another core. -/
def sealSt (c : Core) : State := { threads := [(0, user []), (16, user [])], cores := [(0, c)] }
theorem still {c : Core} (h : c.dda.doms = []) : ∀ d, (c.dda.dom d).run = false := fun d => by simp [Dda.dom, h, FMap.get, FMap.get?]
def twinSt (q : Twin) : State := machine [(0, { user [(8, full 5)] with twin := some q })]
/-- A request of another package, and what it names here: core 1's local store, HBM or a weight store. -/
def ask (kind : AccessKind) (key : Nat) : AccessRequest := { origin := 4352, id := 0x45, kind := kind, key := key, size := 8, data := 3, bound := 0 }
def askLs : Nat := 2 * 2 ^ 48 + 2 ^ 21 + 0x20000
def askedSt (is_ : Bool) : State :=
  { mem := mem [(lsKey 1 0x20000, 0x1122334455667788), (hbmKey 0 0x8000, 0x99)], empties := if is_ then [lsKey 1 0x20000] else [] }
/-- A thread that awaits a part of a load of another package, or a store. -/
def awaySt (t : Thread) : State := machine [(0, t)]
def awayT : Thread := { user [(8, full 5), (10, empty 0)] with outstanding := [(0x45, { cls := 1, port := 1 })] }
def awayLoad : Away := { ea := 0x20000, fn := 3, asked := [(0x45, 0)], epc := 0x104 }
def loading : Thread := { awayT with producers := [(1, { dest := .reg 10, value := 0, access := 1, away := some awayLoad })] }
def gathering : Thread := { awayT with status := .parked .engine none, mwaitDst := .reg 10, gatherAt := [(0x45, 0)], gatherFn := 3, gatherEa := 0x20000 }
def parkedBy (p : Park) : Thread := { awayT with status := .parked p none, graftTo := 3 * 2 ^ 13 }
def portIn (q : LinkPort) : State := { dies := [(0, { ports := [(0, q)] })] }
def noteOf : GraftNote := { fromCore := 5, fromSlot := 3, tcbKey := 0, sid := 1 }
theorem notUpward {t : Thread} {a : Park} {b : Option Nat} (h : t.status = .parked a b) (g : ∀ c w x y, a ≠ .upward c w x y) :
    ∀ c w x y p, t.status ≠ .parked (.upward c w x y) p := by
  intro c w x y p e
  rw [h] at e
  cases e
  exact g _ _ _ _ rfl

theorem meets_CounterReads_1 :
  ∃ (s s1 s2 : State) (d a : Code) (x : Bool) (v : Word), let n := bits v 3 0; let c := s1.coreOf s1.clock.core;
    let e := FMap.get {} c.evs (n % 8); let sel := BitVec.ofNat 64 (b2n e.en * 2 ^ 63 + b2n e.uo * 2 ^ 62 + b2n e.ovf * 2 ^ 61 + e.src);
    admits { srcs := [a], dst := some d } s = true ∧ Reads s a x v s1 ∧ bits v 63 9 = 0 ∧ bits v 7 4 = 0 ∧ bit v 8 = false ∧
    Owes s1 d (if n ≤ 7 then BitVec.ofNat 64 e.count else sel) 8 0 s2 := by
  refine ⟨countSt 2 0 .u, countSt 2 0 .u, after (produce 10 0x1234 8 0) (countSt 2 0 .u), 10, 8, false, 2, ?_, ?_, ?_, ?_, ?_, ?_⟩
  all_goals first | decide | exact ⟨[], rfl, fun _ => rfl⟩ | exact ⟨_, rfl, fun _ => rfl⟩

theorem meets_CounterReads_1b :
  ∃ (s s1 s2 : State) (d a : Code) (x : Bool) (v : Word), let n := bits v 3 0; let c := s1.coreOf s1.clock.core;
    let e := FMap.get {} c.evs (n % 8); let sel := BitVec.ofNat 64 (b2n e.en * 2 ^ 63 + b2n e.uo * 2 ^ 62 + b2n e.ovf * 2 ^ 61 + e.src);
    admits { srcs := [a], dst := some d } s = true ∧ Reads s a x v s1 ∧ bits v 63 9 = 0 ∧ bits v 7 4 = 0 ∧ bit v 8 = false ∧
    Owes s1 d (if n ≤ 7 then BitVec.ofNat 64 e.count else sel) 8 0 s2 := by
  refine ⟨countSt 10 0 .u, countSt 10 0 .u, after (produce 10 0xA000000000000006 8 0) (countSt 10 0 .u), 10, 8, false, 10, ?_, ?_, ?_, ?_, ?_, ?_⟩
  all_goals first | decide | exact ⟨[], rfl, fun _ => rfl⟩ | exact ⟨_, rfl, fun _ => rfl⟩

theorem meets_CounterReads_2 :
  ∃ (s s1 s2 : State) (d a : Code) (x : Bool) (v : Word), let n := bits v 3 0; let c := s1.coreOf s1.clock.core;
    admits { srcs := [a], dst := some d } s = true ∧ Reads s a x v s1 ∧ bits v 63 9 = 0 ∧ bits v 7 4 = 0 ∧ bit v 8 = true ∧ n ≤ 13 ∧
    (owner s1).level ≠ .u ∧ Owes s1 d (BitVec.ofNat 64 (FMap.get 0 c.errs n)) 8 0 s2 := by
  refine ⟨countSt 0x101 0 .s, countSt 0x101 0 .s, after (produce 10 5 8 0) (countSt 0x101 0 .s), 10, 8, false, 0x101, ?_, ?_, ?_, ?_, ?_, ?_, ?_, ?_⟩
  all_goals first | decide | exact ⟨[], rfl, fun _ => rfl⟩ | exact ⟨_, rfl, fun _ => rfl⟩

theorem meets_CounterReads_3 :
  ∃ (s s1 s2 : State) (d a : Code) (x : Bool) (v : Word), let n := bits v 3 0; admits { srcs := [a], dst := some d } s = true ∧ Reads s a x v s1 ∧
    bits v 63 9 = 0 ∧ bits v 7 4 = 0 ∧ bit v 8 = true ∧ n ≤ 13 ∧ (owner s1).level = .u := by
  refine ⟨countSt 0x101 0 .u, countSt 0x101 0 .u, st, 10, 8, false, 0x101, ?_, ?_, ?_, ?_, ?_, ?_, ?_⟩
  all_goals first | decide | exact ⟨[], rfl, fun _ => rfl⟩

theorem meets_CounterReads_4 :
  ∃ (s s1 s2 : State) (d a : Code) (x : Bool) (v : Word), let n := bits v 3 0; admits { srcs := [a], dst := some d } s = true ∧ Reads s a x v s1 ∧
    bits v 63 9 = 0 ∧ bits v 7 4 = 0 ∧ bit v 8 = true ∧ 13 < n := by
  refine ⟨countSt 0x10E 0 .s, countSt 0x10E 0 .s, st, 10, 8, false, 0x10E, ?_, ?_, ?_, ?_, ?_, ?_⟩
  all_goals first | decide | exact ⟨[], rfl, fun _ => rfl⟩

theorem meets_CounterWrites_1 :
  ∃ (s s1 s2 : State) (d a b : Code) (x y : Bool) (va vb : Word) (dest : Dest), let n := bits va 3 0; let op := bits va 7 4;
    admits { level := .s, srcs := [a, b], dst := some d } s = true ∧ Reads s a x va s1 ∧ Reads s1 b y vb s2 ∧ bits va 63 8 = 0 ∧
    oldestOrOutside s2 ∧ Takes s2 d dest ∧ s2.occupied (tid s2) = true ∧ s2.clock.slot < 16 ∧ op = 0 ∧ n ≤ 7 := by
  refine ⟨countSt 2 0x8000000000000009 .s, countSt 2 0x8000000000000009 .s, countSt 2 0x8000000000000009 .s, 10, 8, 9, false, false, 2,
    0x8000000000000009, .reg 10, ?_, ?_, ?_, ?_, ?_, ?_, ?_, ?_, ?_, ?_⟩
  all_goals first | decide +kernel | exact ⟨[], rfl, fun _ => rfl⟩ | (intro _ _ h; contradiction)

theorem meets_CounterWrites_2 :
  ∃ (s s1 s2 : State) (d a b : Code) (x y : Bool) (va vb : Word) (dest : Dest), let n := bits va 3 0; let op := bits va 7 4;
    admits { level := .s, srcs := [a, b], dst := some d } s = true ∧ Reads s a x va s1 ∧ Reads s1 b y vb s2 ∧ bits va 63 8 = 0 ∧
    oldestOrOutside s2 ∧ Takes s2 d dest ∧ s2.occupied (tid s2) = true ∧ s2.clock.slot < 16 ∧ op = 1 ∧ n ≤ 7 := by
  refine ⟨countSt 0x12 0xFFFFFFFFFFFFFFFF .s, countSt 0x12 0xFFFFFFFFFFFFFFFF .s, countSt 0x12 0xFFFFFFFFFFFFFFFF .s, 10, 8, 9, false, false, 0x12,
    0xFFFFFFFFFFFFFFFF, .reg 10, ?_, ?_, ?_, ?_, ?_, ?_, ?_, ?_, ?_, ?_⟩
  all_goals first | decide +kernel | exact ⟨[], rfl, fun _ => rfl⟩ | (intro _ _ h; contradiction)

theorem meets_CounterWrites_3 :
  ∃ (s s1 s2 : State) (d a b : Code) (x y : Bool) (va vb : Word) (dest : Dest), let n := bits va 3 0; let op := bits va 7 4;
    admits { level := .s, srcs := [a, b], dst := some d } s = true ∧ Reads s a x va s1 ∧ Reads s1 b y vb s2 ∧ bits va 63 8 = 0 ∧
    oldestOrOutside s2 ∧ Takes s2 d dest ∧ s2.occupied (tid s2) = true ∧ s2.clock.slot < 16 ∧ op = 2 ∧ n ≤ 13 := by
  refine ⟨countSt 0x21 0 .s, countSt 0x21 0 .s, countSt 0x21 0 .s, 10, 8, 9, false, false, 0x21, 0, .reg 10, ?_, ?_, ?_, ?_, ?_, ?_, ?_, ?_, ?_, ?_⟩
  all_goals first | decide +kernel | exact ⟨[], rfl, fun _ => rfl⟩ | (intro _ _ h; contradiction)

theorem meets_CounterWrites_4 :
  ∃ (s s1 s2 : State) (d a b : Code) (x y : Bool) (va vb : Word) (dest : Dest), let n := bits va 3 0; let op := bits va 7 4;
    admits { level := .s, srcs := [a, b], dst := some d } s = true ∧ Reads s a x va s1 ∧ Reads s1 b y vb s2 ∧ bits va 63 8 = 0 ∧
    oldestOrOutside s2 ∧ Takes s2 d dest ∧ s2.occupied (tid s2) = true ∧ s2.clock.slot < 16 ∧ op = 3 ∧ n = 0 ∧ (owner s2).level ≠ .h := by
  refine ⟨countSt 0x30 0 .s, countSt 0x30 0 .s, countSt 0x30 0 .s, 10, 8, 9, false, false, 0x30, 0, .reg 10, ?_, ?_, ?_, ?_, ?_, ?_, ?_, ?_, ?_, ?_,
    ?_⟩
  all_goals first | decide +kernel | exact ⟨[], rfl, fun _ => rfl⟩ | (intro _ _ h; contradiction)

theorem meets_CounterWrites_5 :
  ∃ (s s1 s2 : State) (d a b : Code) (x y : Bool) (va vb : Word) (dest : Dest), let k := s2.clock.core; let n := bits va 3 0;
    let op := bits va 7 4; admits { level := .s, srcs := [a, b], dst := some d } s = true ∧ Reads s a x va s1 ∧ Reads s1 b y vb s2 ∧
    bits va 63 8 = 0 ∧ oldestOrOutside s2 ∧ Takes s2 d dest ∧ s2.occupied (tid s2) = true ∧ s2.clock.slot < 16 ∧ ∃ target, op = 3 ∧ n = 0 ∧
    (owner s2).level = .h ∧ tselCore s2 (owner s2) k = some target ∧ target ≠ k ∧ (s2.coreOf target).isSealed = true := by
  refine ⟨sealedSt, sealedSt, sealedSt, 10, 8, 9, false, false, 0x30, 0, .reg 10, ?_, ?_, ?_, ?_, ?_, ?_, ?_, ?_, 1, ?_, ?_, ?_, ?_, ?_, ?_⟩
  all_goals first | decide +kernel | exact ⟨[], rfl, fun _ => rfl⟩ | (intro _ _ h; contradiction)

theorem meets_CounterWrites_6 :
  ∃ (s s1 s2 : State) (d a b : Code) (x y : Bool) (va vb : Word) (dest : Dest), let k := s2.clock.core; let n := bits va 3 0;
    let op := bits va 7 4; admits { level := .s, srcs := [a, b], dst := some d } s = true ∧ Reads s a x va s1 ∧ Reads s1 b y vb s2 ∧
    bits va 63 8 = 0 ∧ oldestOrOutside s2 ∧ Takes s2 d dest ∧ s2.occupied (tid s2) = true ∧ s2.clock.slot < 16 ∧ ∃ target, op = 3 ∧ n = 0 ∧
    (owner s2).level = .h ∧ tselCore s2 (owner s2) k = some target ∧ target ≠ k ∧ (s2.coreOf target).isSealed = false := by
  refine ⟨countSt 0x30 0 .h, countSt 0x30 0 .h, countSt 0x30 0 .h, 10, 8, 9, false, false, 0x30, 0, .reg 10, ?_, ?_, ?_, ?_, ?_, ?_, ?_, ?_, 1, ?_,
    ?_, ?_, ?_, ?_, ?_⟩
  all_goals first | decide +kernel | exact ⟨[], rfl, fun _ => rfl⟩ | (intro _ _ h; contradiction)

theorem meets_CounterWrites_7 :
  ∃ (s s1 s2 : State) (d a b : Code) (x y : Bool) (va vb : Word) (dest : Dest), let op := bits va 7 4;
    admits { level := .s, srcs := [a, b], dst := some d } s = true ∧ Reads s a x va s1 ∧ Reads s1 b y vb s2 ∧ bits va 63 8 = 0 ∧
    oldestOrOutside s2 ∧ Takes s2 d dest ∧ s2.occupied (tid s2) = true ∧ s2.clock.slot < 16 ∧ 3 < op := by
  refine ⟨countSt 0x40 0 .s, countSt 0x40 0 .s, countSt 0x40 0 .s, 10, 8, 9, false, false, 0x40, 0, .reg 10, ?_, ?_, ?_, ?_, ?_, ?_, ?_, ?_, ?_⟩
  all_goals first | decide +kernel | exact ⟨[], rfl, fun _ => rfl⟩ | (intro _ _ h; contradiction)

theorem meets_ScrubResults_1 :
  ∃ (s : State) (key : Nat), let a := dwKey key; FMap.get? s.pkg.eccBad a = none := by
  refine ⟨st, lsKey 0 0x20004, ?_⟩
  all_goals decide

theorem meets_ScrubResults_2 :
  ∃ (s : State) (key : Nat), let a := dwKey key; FMap.get? s.pkg.eccBad a ≠ some true := by
  refine ⟨badSt (lsKey 0 0x20000) false, lsKey 0 0x20000, ?_⟩
  all_goals decide

theorem meets_ScrubResults_3 :
  ∃ (s : State) (key : Nat), let a := dwKey key; isLs a = true := by
  refine ⟨badSt (lsKey 0 0x20000) true, lsKey 0 0x20004, ?_⟩
  all_goals decide

theorem meets_ScrubResults_4 :
  ∃ (s : State) (key : Nat), let a := dwKey key; isLs a = false := by
  refine ⟨badSt (hbmKey 0 0x8000) true, hbmKey 0 0x8000, ?_⟩
  all_goals decide

theorem meets_Sealing_1 :
  ∃ (s : State) (k : Nat), let c := s.coreOf k; c.isSealed = true := by
  refine ⟨sealSt { isSealed := true }, 0, ?_⟩
  all_goals decide

theorem meets_Sealing_2 :
  ∃ (s : State) (k : Nat), let c := s.coreOf k; c.isSealed = false ∧ c.graftq = [] ∧ c.waiters = [] ∧ c.monRegs = [] ∧
    (∀ d, (c.dda.dom d).run = false) ∧ (∀ p ∈ s.threads, p.1 / 16 = k → FMap.get? s.pkg.tasks p.2.tcbKey = none) := by
  refine ⟨sealSt {}, 0, ?_, ?_, ?_, ?_, ?_, ?_⟩
  all_goals first
    | exact still rfl
    | (intro p hp; rw [show (sealSt {}).threads = [(0, user []), (16, user [])] from rfl] at hp; simp only [List.mem_cons, List.not_mem_nil, or_false] at hp; rcases hp with rfl | rfl <;> decide) | decide

theorem meets_TwinHashes_1 :
  ∃ (s : State) (k t item : Nat) (hash : Word) (q : Twin), let id := tidOf k t; s.occupied id = true ∧ (s.thread id).twin = some q ∧ q.copy ≠ 0 := by
  refine ⟨twinSt { copy := 1, wid := 0, item := 3 }, 0, 0, 3, 0x77, { copy := 1, wid := 0, item := 3 }, ?_, ?_, ?_⟩
  all_goals decide

theorem meets_TwinHashes_2 :
  ∃ (s : State) (k t item : Nat) (hash : Word) (q : Twin), let id := tidOf k t; s.occupied id = true ∧ (s.thread id).twin = some q ∧ q.copy = 0 ∧
    q.item = item ∧ FMap.get? q.hashes item = none := by
  refine ⟨twinSt { copy := 0, wid := 0, item := 3 }, 0, 0, 3, 0x77, { copy := 0, wid := 0, item := 3 }, ?_, ?_, ?_, ?_, ?_⟩
  all_goals decide

theorem meets_TwinHashes_3 :
  ∃ (s : State) (k t item : Nat) (hash : Word) (q : Twin), let id := tidOf k t; s.occupied id = true ∧ (s.thread id).twin = some q ∧ q.copy = 0 ∧
    (q.item ≠ item ∨ FMap.get? q.hashes item ≠ none) := by
  refine ⟨twinSt { copy := 0, wid := 0, item := 4 }, 0, 0, 3, 0x77, { copy := 0, wid := 0, item := 4 }, ?_, ?_, ?_, ?_⟩
  all_goals decide

theorem meets_TwinHashes_3b :
  ∃ (s : State) (k t item : Nat) (hash : Word) (q : Twin), let id := tidOf k t; s.occupied id = true ∧ (s.thread id).twin = some q ∧ q.copy = 0 ∧
    (q.item ≠ item ∨ FMap.get? q.hashes item ≠ none) := by
  refine ⟨twinSt { copy := 0, wid := 0, item := 3, hashes := [(3, 5)] }, 0, 0, 3, 0x77, { copy := 0, wid := 0, item := 3, hashes := [(3, 5)] }, ?_,
    ?_, ?_, ?_⟩
  all_goals decide

theorem meets_RemoteRequests_1 :
  ∃ (s : State) (q : AccessRequest) (place : Place) (key : Nat), q.kind ≠ .withdraw ∧ q.kind ≠ .unmonitor ∧
    framePlace (q.key / 2 ^ 48) (q.key % 2 ^ 48) = none := by
  refine ⟨askedSt false, ask .load (3 * 2 ^ 48), .ls 1 (lsKey 1 0x20000), lsKey 1 0x20000, ?_, ?_, ?_⟩
  all_goals decide

theorem meets_RemoteRequests_1b :
  ∃ (s : State) (q : AccessRequest) (place : Place) (key : Nat), q.kind ≠ .withdraw ∧ q.kind ≠ .unmonitor ∧
    framePlace (q.key / 2 ^ 48) (q.key % 2 ^ 48) = none := by
  refine ⟨askedSt false, ask .load (2 * 2 ^ 48 + 4480 * 2 ^ 21), .ls 1 (lsKey 1 0x20000), lsKey 1 0x20000, ?_, ?_, ?_⟩
  all_goals decide

theorem meets_RemoteRequests_2 :
  ∃ (s : State) (q : AccessRequest) (place : Place) (key : Nat), q.kind ≠ .withdraw ∧ q.kind ≠ .unmonitor ∧
    framePlace (q.key / 2 ^ 48) (q.key % 2 ^ 48) = some place ∧ place.key? = some key ∧ isLs key = true ∧ (s.coreOf (homeOf key)).isSealed = true := by
  refine ⟨{ cores := [(1, { isSealed := true })] }, ask .load askLs, .ls 1 (lsKey 1 0x20000), lsKey 1 0x20000, ?_, ?_, ?_, ?_, ?_, ?_⟩
  all_goals decide

theorem meets_RemoteRequests_3 :
  ∃ (s : State) (q : AccessRequest) (place : Place) (key : Nat), q.kind ≠ .withdraw ∧ q.kind ≠ .unmonitor ∧
    framePlace (q.key / 2 ^ 48) (q.key % 2 ^ 48) = some place ∧ place.key? = some key ∧ ∃ fn, isWs key = true ∧ underTest s key = false ∧
    (s.dieOf ((key - 2 ^ 42) / 2 ^ 30 % 8)).wsPend = false ∧ (s.dieOf ((key - 2 ^ 42) / 2 ^ 30 % 8)).busyGroup = none ∧
    (q.kind = .amo fn ∨ q.kind = .load ∧ (s.dieOf ((key - 2 ^ 42) / 2 ^ 30 % 8)).wsServing = false ∨ q.kind = .store ∧ (s.dieOf ((key - 2 ^ 42) / 2 ^ 30 % 8)).wsServing = true) := by
  refine ⟨askedSt false, ask (.amo .add) (2 ^ 48 + 64), .ws 0 64 none, wsKey 0 64, ?_, ?_, ?_, ?_, .add, ?_, ?_, ?_, ?_, ?_⟩
  all_goals decide

theorem meets_RemoteRequests_3b :
  ∃ (s : State) (q : AccessRequest) (place : Place) (key : Nat), q.kind ≠ .withdraw ∧ q.kind ≠ .unmonitor ∧
    framePlace (q.key / 2 ^ 48) (q.key % 2 ^ 48) = some place ∧ place.key? = some key ∧ ∃ fn, isWs key = true ∧ underTest s key = false ∧
    (s.dieOf ((key - 2 ^ 42) / 2 ^ 30 % 8)).wsPend = false ∧ (s.dieOf ((key - 2 ^ 42) / 2 ^ 30 % 8)).busyGroup = none ∧
    (q.kind = .amo fn ∨ q.kind = .load ∧ (s.dieOf ((key - 2 ^ 42) / 2 ^ 30 % 8)).wsServing = false ∨ q.kind = .store ∧ (s.dieOf ((key - 2 ^ 42) / 2 ^ 30 % 8)).wsServing = true) := by
  refine ⟨askedSt false, ask .load (2 ^ 48 + 64), .ws 0 64 none, wsKey 0 64, ?_, ?_, ?_, ?_, .add, ?_, ?_, ?_, ?_, ?_⟩
  all_goals decide

theorem meets_RemoteRequests_3c :
  ∃ (s : State) (q : AccessRequest) (place : Place) (key : Nat), q.kind ≠ .withdraw ∧ q.kind ≠ .unmonitor ∧
    framePlace (q.key / 2 ^ 48) (q.key % 2 ^ 48) = some place ∧ place.key? = some key ∧ ∃ fn, isWs key = true ∧ underTest s key = false ∧
    (s.dieOf ((key - 2 ^ 42) / 2 ^ 30 % 8)).wsPend = false ∧ (s.dieOf ((key - 2 ^ 42) / 2 ^ 30 % 8)).busyGroup = none ∧
    (q.kind = .amo fn ∨ q.kind = .load ∧ (s.dieOf ((key - 2 ^ 42) / 2 ^ 30 % 8)).wsServing = false ∨ q.kind = .store ∧ (s.dieOf ((key - 2 ^ 42) / 2 ^ 30 % 8)).wsServing = true) := by
  refine ⟨{ dies := [(0, { wsServing := true })] }, ask .store (2 ^ 48 + 64), .ws 0 64 none, wsKey 0 64, ?_, ?_, ?_, ?_, .add, ?_, ?_, ?_, ?_, ?_⟩
  all_goals decide

theorem meets_RemoteRequests_4 :
  ∃ (s : State) (q : AccessRequest) (place : Place) (key : Nat), q.kind ≠ .withdraw ∧ q.kind ≠ .unmonitor ∧
    framePlace (q.key / 2 ^ 48) (q.key % 2 ^ 48) = some place ∧ place.key? = some key ∧ (s.coreOf (homeOf key)).isSealed = false ∧
    underTest s key = false ∧ isWs key = false ∧ q.kind = .load ∧ Clean s key q.size := by
  refine ⟨askedSt false, ask .load askLs, .ls 1 (lsKey 1 0x20000), lsKey 1 0x20000, ?_, ?_, ?_, ?_, ?_, ?_, ?_, ?_, ?_⟩
  all_goals first | decide | exact clean_quiet rfl rfl _ _

theorem meets_RemoteRequests_4b :
  ∃ (s : State) (q : AccessRequest) (place : Place) (key : Nat), q.kind ≠ .withdraw ∧ q.kind ≠ .unmonitor ∧
    framePlace (q.key / 2 ^ 48) (q.key % 2 ^ 48) = some place ∧ place.key? = some key ∧ (s.coreOf (homeOf key)).isSealed = false ∧
    underTest s key = false ∧ isWs key = false ∧ q.kind = .load ∧ Clean s key q.size := by
  refine ⟨askedSt false, ask .load 0x8000, .hbm (hbmKey 0 0x8000) none, hbmKey 0 0x8000, ?_, ?_, ?_, ?_, ?_, ?_, ?_, ?_, ?_⟩
  all_goals first | decide | exact clean_quiet rfl rfl _ _

theorem meets_RemoteRequests_5 :
  ∃ (s : State) (q : AccessRequest) (place : Place) (key : Nat), q.kind ≠ .withdraw ∧ q.kind ≠ .unmonitor ∧
    framePlace (q.key / 2 ^ 48) (q.key % 2 ^ 48) = some place ∧ place.key? = some key ∧ (s.coreOf (homeOf key)).isSealed = false ∧
    underTest s key = false ∧ isWs key = false ∧ q.kind = .store ∧ q.bound = 0 ∧ Unwatched s key q.size ∧ Clean s key q.size ∧
    (∀ a ∈ touched key q.size, Unwaited s a) := by
  refine ⟨askedSt false, ask .store askLs, .ls 1 (lsKey 1 0x20000), lsKey 1 0x20000, ?_, ?_, ?_, ?_, ?_, ?_, ?_, ?_, ?_, ?_, ?_, ?_⟩
  all_goals first | decide | exact clean_quiet rfl rfl _ _ | exact (untouched_quiet rfl _ 8).1 | (unfold Unwaited; decide)

theorem meets_RemoteRequests_5b :
  ∃ (s : State) (q : AccessRequest) (place : Place) (key : Nat), q.kind ≠ .withdraw ∧ q.kind ≠ .unmonitor ∧
    framePlace (q.key / 2 ^ 48) (q.key % 2 ^ 48) = some place ∧ place.key? = some key ∧ (s.coreOf (homeOf key)).isSealed = false ∧
    underTest s key = false ∧ isWs key = false ∧ q.kind = .store ∧ q.bound = 0 ∧ Unwatched s key q.size ∧ Clean s key q.size ∧
    (∀ a ∈ touched key q.size, Unwaited s a) := by
  refine ⟨askedSt true, { ask .store askLs with id := 71680 }, .ls 1 (lsKey 1 0x20000), lsKey 1 0x20000, ?_, ?_, ?_, ?_, ?_, ?_, ?_, ?_, ?_, ?_, ?_,
    ?_⟩
  all_goals first | decide | exact clean_quiet rfl rfl _ _ | exact (untouched_quiet rfl _ 8).1 | (unfold Unwaited; decide)

theorem meets_RemoteRequests_6 :
  ∃ (s : State) (q : AccessRequest) (place : Place) (key : Nat), q.kind ≠ .withdraw ∧ q.kind ≠ .unmonitor ∧
    framePlace (q.key / 2 ^ 48) (q.key % 2 ^ 48) = some place ∧ place.key? = some key ∧ (s.coreOf (homeOf key)).isSealed = false ∧
    underTest s key = false ∧ isWs key = false ∧ isLs key = true ∧ key % 8 = 0 ∧ (q.kind = .ldf ∨ q.kind = .ldff ∨ q.kind = .stf) ∧ Clean s key 8 ∧
    Unwatched s key 8 ∧ Unwaited s key ∧ s.fullAt key = (q.kind != .stf) ∧ q.bound = 0 := by
  refine ⟨askedSt false, ask .ldf askLs, .ls 1 (lsKey 1 0x20000), lsKey 1 0x20000, ?_, ?_, ?_, ?_, ?_, ?_, ?_, ?_, ?_, ?_, ?_, ?_, ?_, ?_, ?_⟩
  all_goals first | decide | exact clean_quiet rfl rfl _ _ | exact (untouched_quiet rfl _ 8).1 | (unfold Unwaited; decide)

theorem meets_RemoteRequests_6b :
  ∃ (s : State) (q : AccessRequest) (place : Place) (key : Nat), q.kind ≠ .withdraw ∧ q.kind ≠ .unmonitor ∧
    framePlace (q.key / 2 ^ 48) (q.key % 2 ^ 48) = some place ∧ place.key? = some key ∧ (s.coreOf (homeOf key)).isSealed = false ∧
    underTest s key = false ∧ isWs key = false ∧ isLs key = true ∧ key % 8 = 0 ∧ (q.kind = .ldf ∨ q.kind = .ldff ∨ q.kind = .stf) ∧ Clean s key 8 ∧
    Unwatched s key 8 ∧ Unwaited s key ∧ s.fullAt key = (q.kind != .stf) ∧ q.bound = 0 := by
  refine ⟨askedSt true, ask .stf askLs, .ls 1 (lsKey 1 0x20000), lsKey 1 0x20000, ?_, ?_, ?_, ?_, ?_, ?_, ?_, ?_, ?_, ?_, ?_, ?_, ?_, ?_, ?_⟩
  all_goals first | decide | exact clean_quiet rfl rfl _ _ | exact (untouched_quiet rfl _ 8).1 | (unfold Unwaited; decide)

theorem meets_RemoteRequests_7 :
  ∃ (s : State) (q : AccessRequest) (place : Place) (key : Nat), q.kind ≠ .withdraw ∧ q.kind ≠ .unmonitor ∧
    framePlace (q.key / 2 ^ 48) (q.key % 2 ^ 48) = some place ∧ place.key? = some key ∧ (s.coreOf (homeOf key)).isSealed = false ∧
    underTest s key = false ∧ isWs key = false ∧ isLs key = true ∧ key % 8 = 0 ∧ (q.kind = .ldf ∨ q.kind = .ldff ∨ q.kind = .stf) ∧ Clean s key 8 ∧
    Unwatched s key 8 ∧ Unwaited s key ∧ s.fullAt key = (q.kind == .stf) := by
  refine ⟨askedSt true, ask .ldff askLs, .ls 1 (lsKey 1 0x20000), lsKey 1 0x20000, ?_, ?_, ?_, ?_, ?_, ?_, ?_, ?_, ?_, ?_, ?_, ?_, ?_, ?_⟩
  all_goals first | decide | exact clean_quiet rfl rfl _ _ | exact (untouched_quiet rfl _ 8).1 | (unfold Unwaited; decide)

theorem meets_RemoteRequests_7b :
  ∃ (s : State) (q : AccessRequest) (place : Place) (key : Nat), q.kind ≠ .withdraw ∧ q.kind ≠ .unmonitor ∧
    framePlace (q.key / 2 ^ 48) (q.key % 2 ^ 48) = some place ∧ place.key? = some key ∧ (s.coreOf (homeOf key)).isSealed = false ∧
    underTest s key = false ∧ isWs key = false ∧ isLs key = true ∧ key % 8 = 0 ∧ (q.kind = .ldf ∨ q.kind = .ldff ∨ q.kind = .stf) ∧ Clean s key 8 ∧
    Unwatched s key 8 ∧ Unwaited s key ∧ s.fullAt key = (q.kind == .stf) := by
  refine ⟨askedSt false, ask .stf askLs, .ls 1 (lsKey 1 0x20000), lsKey 1 0x20000, ?_, ?_, ?_, ?_, ?_, ?_, ?_, ?_, ?_, ?_, ?_, ?_, ?_, ?_⟩
  all_goals first | decide | exact clean_quiet rfl rfl _ _ | exact (untouched_quiet rfl _ 8).1 | (unfold Unwaited; decide)

theorem meets_RemoteRequests_8 :
  ∃ (s : State) (q : AccessRequest) (place : Place) (key : Nat), q.kind ≠ .withdraw ∧ q.kind ≠ .unmonitor ∧
    framePlace (q.key / 2 ^ 48) (q.key % 2 ^ 48) = some place ∧ place.key? = some key ∧ (s.coreOf (homeOf key)).isSealed = false ∧
    underTest s key = false ∧ isWs key = false ∧ ∃ fn, q.kind = .amo fn ∧ Clean s key 8 ∧ Unwatched s key 8 := by
  refine ⟨askedSt false, ask (.amo .add) askLs, .ls 1 (lsKey 1 0x20000), lsKey 1 0x20000, ?_, ?_, ?_, ?_, ?_, ?_, ?_, .add, ?_, ?_, ?_⟩
  all_goals first | decide | exact clean_quiet rfl rfl _ _ | exact (untouched_quiet rfl _ 8).1

theorem meets_RemoteRequests_9 :
  ∃ (s : State) (q : AccessRequest) (place : Place) (key : Nat), q.kind ≠ .withdraw ∧ q.kind ≠ .unmonitor ∧
    framePlace (q.key / 2 ^ 48) (q.key % 2 ^ 48) = some place ∧ place.key? = some key ∧ (s.coreOf (homeOf key)).isSealed = false ∧
    underTest s key = false ∧ isWs key = false ∧ isLs key = false ∧ (q.kind = .ldf ∨ q.kind = .stf ∨ q.kind = .ldff ∨ q.kind = .purge) := by
  refine ⟨askedSt false, ask .ldff 0x8000, .hbm (hbmKey 0 0x8000) none, hbmKey 0 0x8000, ?_, ?_, ?_, ?_, ?_, ?_, ?_, ?_, ?_⟩
  all_goals decide

theorem meets_RemoteResponses_1 :
  ∃ (s : State) (k t n : Nat) (v : Word) (since : Option Nat), let id := tidOf k t; let h := s.thread id; s.occupied id = true ∧
    n % 2 ^ 17 < 71680 ∧ (∀ c w a b p, h.status ≠ .parked (.upward c w a b) p) ∧ h.iter.bind (·.trapped) = none ∧ n ≠ 0 ∧
    FMap.get? h.outstanding n = none := by
  refine ⟨awaySt (user []), 0, 0, 0x45, 0xFFFFFFFF, none, ?_, ?_, ?_, ?_, ?_, ?_⟩
  all_goals first | decide | (intro _ _ _ _ _ h; cases h)

theorem meets_RemoteResponses_2 :
  ∃ (s : State) (k t n : Nat) (v : Word) (since : Option Nat), let id := tidOf k t; let h := s.thread id; s.occupied id = true ∧
    n % 2 ^ 17 < 71680 ∧ (∀ c w a b p, h.status ≠ .parked (.upward c w a b) p) ∧ h.iter.bind (·.trapped) = none ∧ ∃ p pr a off, n ≠ 0 ∧
    (FMap.get? h.outstanding n).isSome = true ∧ awayProducer h n = some (p, pr, a) ∧ a.asked = [(n, off)] ∧ a.fn < 7 ∧ a.own = [] ∧
    a.holds = false ∧ ∃ r, pr.dest = .reg r := by
  refine ⟨awaySt loading, 0, 0, 0x45, 0xFFFFFFFF, none, ?_, ?_, ?_, ?_, 1, { dest := .reg 10, value := 0, access := 1, away := some awayLoad },
    awayLoad, 0, ?_, ?_, ?_, ?_, ?_, ?_, ?_, 10, ?_⟩
  all_goals first | decide | (intro _ _ _ _ _ h; cases h)

theorem meets_RemoteResponses_3 :
  ∃ (s : State) (k t n : Nat) (v : Word) (since : Option Nat), let id := tidOf k t; let h := s.thread id; s.occupied id = true ∧
    n % 2 ^ 17 < 71680 ∧ (∀ c w a b p, h.status ≠ .parked (.upward c w a b) p) ∧ h.iter.bind (·.trapped) = none ∧ n ≠ 0 ∧
    (FMap.get? h.outstanding n).isSome = true ∧ awayProducer h n = none ∧ FMap.get? h.gatherAt n = none := by
  refine ⟨awaySt awayT, 0, 0, 0x45, 0xFFFFFFFF, none, ?_, ?_, ?_, ?_, ?_, ?_, ?_, ?_⟩
  all_goals first | decide | (intro _ _ _ _ _ h; cases h)

theorem meets_RemoteResponses_4 :
  ∃ (s : State) (k t n : Nat) (v : Word) (since : Option Nat), let id := tidOf k t; let h := s.thread id; s.occupied id = true ∧
    n % 2 ^ 17 < 71680 ∧ (∀ c w a b p, h.status ≠ .parked (.upward c w a b) p) ∧ h.iter.bind (·.trapped) = none ∧ ∃ off r, n ≠ 0 ∧
    (FMap.get? h.outstanding n).isSome = true ∧ awayProducer h n = none ∧ h.gatherAt = [(n, off)] ∧ h.gatherFn < 7 ∧ h.mwaitDst = .reg r ∧
    h.col = none ∧ (s.thread (s.control id)).twin = none := by
  refine ⟨awaySt gathering, 0, 0, 0x45, 0xFFFFFFFF, none, ?_, ?_, ?_, ?_, 0, 10, ?_, ?_, ?_, ?_, ?_, ?_, ?_, ?_⟩
  all_goals first | exact notUpward rfl (by intro _ _ _ _ h; cases h) | decide

theorem meets_RemoteResponses_5 :
  ∃ (s : State) (k t n : Nat) (v : Word) (since : Option Nat), let id := tidOf k t; let h := s.thread id; s.occupied id = true ∧
    n % 2 ^ 17 < 71680 ∧ (∀ c w a b p, h.status ≠ .parked (.upward c w a b) p) ∧ h.iter.bind (·.trapped) = none ∧ ∃ off, n ≠ 0 ∧
    (FMap.get? h.outstanding n).isSome = true ∧ awayProducer h n = none ∧ FMap.get? h.gatherAt n = some off ∧ v ≠ 0 ∧ ∃ u,
    Performs (failAccess id v.toNat) s () u := by
  refine ⟨awaySt gathering, 0, 0, 0x45, 0x0C, none, ?_, ?_, ?_, ?_, 0, ?_, ?_, ?_, ?_, ?_, after (failAccess 0 0x0C) (awaySt gathering), ?_⟩
  all_goals first | exact notUpward rfl (by intro _ _ _ _ h; cases h) | decide | exact ⟨_, rfl, fun _ => by cbv⟩

theorem meets_RemoteResponses_6 :
  ∃ (s : State) (k t n : Nat) (v : Word) (since : Option Nat), let id := tidOf k t; let h := s.thread id; s.occupied id = true ∧
    n % 2 ^ 17 < 71680 ∧ (∀ c w a b p, h.status ≠ .parked (.upward c w a b) p) ∧ h.iter.bind (·.trapped) = none ∧ n = 0 ∧
    h.status = .parked .graft since ∧ v = 1 ∧ h.pend.xc = [] := by
  refine ⟨awaySt (parkedBy .graft), 0, 0, 0, 1, none, ?_, ?_, ?_, ?_, ?_, ?_, ?_, ?_⟩
  all_goals first | exact notUpward rfl (by intro _ _ _ _ h; cases h) | decide

theorem meets_RemoteResponses_7 :
  ∃ (s : State) (k t n : Nat) (v : Word) (since : Option Nat), let id := tidOf k t; let h := s.thread id; s.occupied id = true ∧
    n % 2 ^ 17 < 71680 ∧ (∀ c w a b p, h.status ≠ .parked (.upward c w a b) p) ∧ h.iter.bind (·.trapped) = none ∧ n = 0 ∧
    h.status = .parked .graft since ∧ v = 3 := by
  refine ⟨awaySt (parkedBy .graft), 0, 0, 0, 3, none, ?_, ?_, ?_, ?_, ?_, ?_, ?_⟩
  all_goals first | exact notUpward rfl (by intro _ _ _ _ h; cases h) | decide

theorem meets_RemoteResponses_8 :
  ∃ (s : State) (k t n : Nat) (v : Word) (since : Option Nat), let id := tidOf k t; let h := s.thread id; s.occupied id = true ∧
    n % 2 ^ 17 < 71680 ∧ (∀ c w a b p, h.status ≠ .parked (.upward c w a b) p) ∧ h.iter.bind (·.trapped) = none ∧ n = 0 ∧
    h.status = .parked .spawn since := by
  refine ⟨awaySt (parkedBy .spawn), 0, 0, 0, 1, none, ?_, ?_, ?_, ?_, ?_, ?_⟩
  all_goals first | exact notUpward rfl (by intro _ _ _ _ h; cases h) | decide

theorem meets_LinkTimeouts_1 :
  ∃ (s : State) (k t n : Nat) (acc : Access), let id := tidOf k t; let h := s.thread id; t < 16 ∧ s.occupied id = true ∧
    FMap.get? h.outstanding n = none := by
  refine ⟨st, 0, 0, 0x45, { cls := 1, port := 1 }, ?_, ?_, ?_⟩
  all_goals decide

theorem meets_LinkTimeouts_2 :
  ∃ (s : State) (k t n : Nat) (acc : Access), let id := tidOf k t; let h := s.thread id; t < 16 ∧ s.occupied id = true ∧
    FMap.get? h.outstanding n = some acc ∧ awayProducer h n = none ∧ FMap.get? h.gatherAt n = none ∧
    (∀ c w a b p, h.status ≠ .parked (.upward c w a b) p) ∧ h.iter.bind (·.trapped) = none := by
  refine ⟨awaySt awayT, 0, 0, 0x45, { cls := 1, port := 1 }, ?_, ?_, ?_, ?_, ?_, ?_, ?_⟩
  all_goals first | decide | (intro _ _ _ _ _ h; cases h)

theorem meets_LinkTimeouts_3 :
  ∃ (s : State) (k t n : Nat) (acc : Access), let id := tidOf k t; let h := s.thread id; let port := 4352 + 4 * (acc.port - 1); t < 16 ∧
    s.occupied id = true ∧ FMap.get? h.outstanding n = some acc ∧ awayProducer h n = none ∧ (FMap.get? h.gatherAt n).isSome = true ∧ ∃ s1 u,
    Performs (countErr port 12) s () s1 ∧ Performs (failAccess id 0x16) s1 () u := by
  refine ⟨awaySt gathering, 0, 0, 0x45, { cls := 1, port := 1 }, ?_, ?_, ?_, ?_, ?_, after (countErr 4352 12) (awaySt gathering),
    after (failAccess 0 0x16) (after (countErr 4352 12) (awaySt gathering)), ?_, ?_⟩
  all_goals first | decide | exact ⟨_, rfl, fun _ => rfl⟩ | exact ⟨_, rfl, fun _ => by cbv⟩

theorem meets_LinkTimeouts_4 :
  ∃ (s : State) (k t n : Nat) (acc : Access), let id := tidOf k t; let h := s.thread id; let port := 4352 + 4 * (acc.port - 1); t < 16 ∧
    s.occupied id = true ∧ ∃ p pr a, FMap.get? h.outstanding n = some acc ∧ awayProducer h n = some (p, pr, a) ∧ ∃ s1 u,
    Performs (countErr port 12) s () s1 ∧ Performs (failAway id p pr a 0x16) s1 () u := by
  refine ⟨awaySt loading, 0, 0, 0x45, { cls := 1, port := 1 }, ?_, ?_, 1, { dest := .reg 10, value := 0, access := 1, away := some awayLoad },
    awayLoad, ?_, ?_, after (countErr 4352 12) (awaySt loading),
      after (failAway 0 1 { dest := .reg 10, value := 0, access := 1, away := some awayLoad } awayLoad 0x16) (after (countErr 4352 12) (awaySt loading)), ?_, ?_⟩
  all_goals first | decide | exact ⟨_, rfl, fun _ => rfl⟩ | exact ⟨_, rfl, fun _ => by cbv⟩

theorem meets_FlitReception_1 :
  ∃ (s : State) (port : Nat) (f : Flit), f.crcOk = false := by
  refine ⟨portIn { rxSeq := 9 }, 0, { seq := 9, crcOk := false, payload := .retry 0 }, ?_⟩
  all_goals decide

theorem meets_FlitReception_1b :
  ∃ (s : State) (port : Nat) (f : Flit), f.crcOk = false := by
  refine ⟨portIn { rxSeq := 9, fails := 15, trn := 0xFFFF }, 0, { seq := 9, crcOk := false, payload := .retry 0 }, ?_⟩
  all_goals decide

theorem meets_FlitReception_2 :
  ∃ (s : State) (port : Nat) (f : Flit), let portOf (u : State) : LinkPort := FMap.get {} (u.dieOf (port / 4)).ports (port % 4); let q := portOf s;
    f.crcOk = true ∧ f.seq < q.rxSeq := by
  refine ⟨portIn { rxSeq := 9 }, 0, { seq := 8, crcOk := true, payload := .retry 0 }, ?_, ?_⟩
  all_goals decide

theorem meets_FlitReception_3 :
  ∃ (s : State) (port : Nat) (f : Flit), let portOf (u : State) : LinkPort := FMap.get {} (u.dieOf (port / 4)).ports (port % 4); let q := portOf s;
    f.crcOk = true ∧ q.rxSeq < f.seq := by
  refine ⟨portIn { rxSeq := 9 }, 0, { seq := 10, crcOk := true, payload := .retry 0 }, ?_, ?_⟩
  all_goals decide

theorem meets_FlitReception_4 :
  ∃ (s : State) (port : Nat) (f : Flit), let portOf (u : State) : LinkPort := FMap.get {} (u.dieOf (port / 4)).ports (port % 4); let q := portOf s;
    f.crcOk = true ∧ f.seq = q.rxSeq ∧ ∃ m, f.payload = .message m := by
  refine ⟨portIn { rxSeq := 9 }, 0, { seq := 9, crcOk := true, payload := .message message }, ?_, ?_, message, ?_⟩
  all_goals decide

theorem meets_FlitReception_5 :
  ∃ (s : State) (port : Nat) (f : Flit), let portOf (u : State) : LinkPort := FMap.get {} (u.dieOf (port / 4)).ports (port % 4); let q := portOf s;
    f.crcOk = true ∧ f.seq = q.rxSeq ∧ ∃ n, f.payload = .retry n := by
  refine ⟨portIn { rxSeq := 9, sent := [{ seq := 6, crcOk := true, payload := .placed 1 }, { seq := 7, crcOk := true, payload := .placed 2 }] }, 0,
    { seq := 9, crcOk := true, payload := .retry 7 }, ?_, ?_, 7, ?_⟩
  all_goals decide

theorem meets_FlitReception_6 :
  ∃ (s : State) (port : Nat) (f : Flit), let portOf (u : State) : LinkPort := FMap.get {} (u.dieOf (port / 4)).ports (port % 4); let q := portOf s;
    f.crcOk = true ∧ f.seq = q.rxSeq ∧ ∃ bs, f.payload = .graftHead bs := by
  refine ⟨portIn { rxSeq := 9 }, 0, { seq := 9, crcOk := true, payload := .graftHead [1, 2] }, ?_, ?_, [1, 2], ?_⟩
  all_goals decide

theorem meets_FlitReception_7 :
  ∃ (s : State) (port : Nat) (f : Flit), let portOf (u : State) : LinkPort := FMap.get {} (u.dieOf (port / 4)).ports (port % 4); let q := portOf s;
    f.crcOk = true ∧ f.seq = q.rxSeq ∧ ∃ k bs g, f.payload = .graft k bs g := by
  refine ⟨portIn { rxSeq := 9, half := [3, 4] }, 0, { seq := 9, crcOk := true, payload := .graft 1 [1, 2] noteOf }, ?_, ?_, 1, [1, 2], noteOf, ?_⟩
  all_goals decide

/-- A cluster control core that tests a bank of core 0. -/
def testSt (busy : Bool) (v : Word) : State :=
  { threads := (57344, { inCtx [(8, full v), (10, full 7)] with level := .s, tsel := 0 }) :: (if busy then [(3, inCtx [])] else []), mem := mem ctx1,
    dies := [(0, { clpart := [(0, 0x8000000000000000)] })], clock := { core := 3584, slot := 0 } }
def tested (test unit : Nat) : State :=
  { threads := [(0, { user [(8, full 5), (10, empty 0)] with producers := [(3, { dest := .reg 10, value := 0 })] })],
    cores := [(1, { bist := some { test := test, unit := unit, core := 0, slot := 0, producer := 3 }, exact := [(0, { a := 5 })] })],
    mem := mem [(lsKey 1 0x20000, 5)] }
/-- A store that is to change its mode; a command of core 0 reads it. -/
def drainSt (busy : Bool) : State :=
  { dies := [(0, { wsPend := true })],
    cores := if busy then [(0,
      { commands := [(4, { rep := rep1, work := .copy { copy1 0 with src := { ea := 0, own := false, base := 0, pages := [(0, .ws 0 64 none)], fmt := none } } })] })] else [] }
def marginSt (w : Word) : State := { dies := [(0, { ports := [(1, { lmarg := [(2, w)] })] })], pkg := { margining := true } }
def killable (busy : Bool) : State := { dies := [(0, { killBusy := busy, ageq := 3, serr := 0xF })] }
def bootedSt : State := { dies := [(0, { booted := true })], pkg := { firmware := [1, 2, 3] } }
def spdm : SpdmRequest := { sigAlg := 0, hashAlg := 0, index := 1, nonce := [1] }
/-- The event queue of core 3584's cluster. -/
def eventsSt (q : RecQueue) : State := { dies := [(0, { eqb := [(0, q)] })] }
def taskEnd : EventRecord := { ctx := 1, w0 := 0x30000001000000, w1 := 0x10000 }
/-- A thread of seed 1 whose next word stands at 0x100, in a cycle in which core 0 is looked at. -/
def fetchSt (w : BitVec 32) (sid : Nat) : State :=
  { threads := [(0, user [(8, full 5), (9, full 3), (10, full 7)])], cores := [(0, { sids := [(0, sid)] })], mem := Memory.writeList [] (lsKey 0 0x100) (leBytes 4 w.toNat),
    clock := { todo := [4, 9] } }
theorem inv_one {t : Thread} (h : t.pw = pwNorm t.pw ∧ t.pc = pcNorm t.pc) : Inv (machine [(0, t)]) := by
  refine ⟨rfl, List.pairwise_singleton _ _, fun p hp => ?_⟩
  cases List.mem_singleton.mp hp
  exact h
theorem meets_ResetState : ∃ d : Nat, d < 4 := ⟨3, by decide⟩

theorem meets_SelfTests_1 :
  ∃ (s s1 : State) (d a : Code) (x : Bool) (v : Word) (dest : Dest), let test := bits v 7 0; let unit := bits v 11 8; let own := s1.clock.core;
    let id := tid s1; let other := bit v 16; admits { level := .s, srcs := [a], dst := some d } s = true ∧ Reads s a x v s1 ∧ bits v 63 17 = 0 ∧
    bits v 15 12 = 0 ∧ test ≤ 5 ∧ ∃ k, (if other then tselCore s1 (owner s1) own else some own) = some k ∧ hasUnit k test = true ∧
    (if test = 0 then unit < banksOf k ∧ (other = true ∨ unit ≠ 0 ∧ unit ≠ banksOf k - 1) else unit = 0) ∧ Takes s1 d dest ∧
    s1.occupied id = true ∧ s1.clock.slot < 16 ∧ idleForTest s1 k (if other then none else some id) = true := by
  refine ⟨testSt false 0x10000, testSt false 0x10000, 10, 8, false, 0x10000, .reg 10, ?_, ?_, ?_, ?_, ?_, 0, ?_, ?_, ?_, ?_, ?_, ?_, ?_⟩
  all_goals first | decide | exact ⟨[], rfl, fun _ => rfl⟩

theorem meets_SelfTests_2 :
  ∃ (s s1 : State) (d a : Code) (x : Bool) (v : Word) (dest : Dest), let test := bits v 7 0; let unit := bits v 11 8; let own := s1.clock.core;
    let id := tid s1; let other := bit v 16; admits { level := .s, srcs := [a], dst := some d } s = true ∧ Reads s a x v s1 ∧ bits v 63 17 = 0 ∧
    bits v 15 12 = 0 ∧ test ≤ 5 ∧ ∃ k, (if other then tselCore s1 (owner s1) own else some own) = some k ∧ hasUnit k test = true ∧
    (if test = 0 then unit < banksOf k ∧ (other = true ∨ unit ≠ 0 ∧ unit ≠ banksOf k - 1) else unit = 0) ∧ Takes s1 d dest ∧
    s1.occupied id = true ∧ s1.clock.slot < 16 ∧ idleForTest s1 k (if other then none else some id) = false := by
  refine ⟨testSt true 0x10000, testSt true 0x10000, 10, 8, false, 0x10000, .reg 10, ?_, ?_, ?_, ?_, ?_, 0, ?_, ?_, ?_, ?_, ?_, ?_, ?_⟩
  all_goals first | decide | exact ⟨[], rfl, fun _ => rfl⟩

theorem meets_SelfTestResults_1 :
  ∃ (s : State) (k n : Nat) (b : SelfTest) (pr : Producer), (s.coreOf k).bist = none := by
  refine ⟨st, 1, 0, { test := 0, unit := 0, core := 0, slot := 0, producer := 3 }, { dest := .reg 10, value := 0 }, ?_⟩
  all_goals decide

theorem meets_SelfTestResults_2 :
  ∃ (s : State) (k n : Nat) (b : SelfTest) (pr : Producer), let id := tidOf b.core b.slot; (s.coreOf k).bist = some b ∧
    FMap.get? (s.thread id).producers b.producer = some pr ∧ (s.coreOf k).arrivals = [] ∧ (s.coreOf k).waiters = [] ∧ b.test ≤ 5 ∧
    (∀ c w a e p, (s.thread id).status ≠ .parked (.upward c w a e) p) ∧ (s.thread id).iter.bind (·.trapped) = none := by
  refine ⟨tested 0 1, 1, 0, { test := 0, unit := 1, core := 0, slot := 0, producer := 3 }, { dest := .reg 10, value := 0 }, ?_, ?_, ?_, ?_, ?_, ?_,
    ?_⟩
  all_goals first | (intro _ _ _ _ _ h; cases h) | decide

theorem meets_SelfTestResults_2b :
  ∃ (s : State) (k n : Nat) (b : SelfTest) (pr : Producer), let id := tidOf b.core b.slot; (s.coreOf k).bist = some b ∧
    FMap.get? (s.thread id).producers b.producer = some pr ∧ (s.coreOf k).arrivals = [] ∧ (s.coreOf k).waiters = [] ∧ b.test ≤ 5 ∧
    (∀ c w a e p, (s.thread id).status ≠ .parked (.upward c w a e) p) ∧ (s.thread id).iter.bind (·.trapped) = none := by
  refine ⟨tested 5 0, 1, 0, { test := 5, unit := 0, core := 0, slot := 0, producer := 3 }, { dest := .reg 10, value := 0 }, ?_, ?_, ?_, ?_, ?_, ?_,
    ?_⟩
  all_goals first | (intro _ _ _ _ _ h; cases h) | decide

theorem meets_RefreshPhases :
  ∃ (s : State) (d : Nat), (s.coreOf (3808 + 4 * d)).arrivals = [] := by
  refine ⟨st, 0, ?_⟩
  all_goals decide

theorem meets_StoreModes_1 :
  ∃ (s : State) (d : Nat), (s.dieOf d).wsPend = false := by
  refine ⟨st, 0, ?_⟩
  all_goals decide

theorem meets_StoreModes_2 :
  ∃ (s : State) (d : Nat),
    let open_ : Bool := (s.cores.any fun c => c.2.commands.any fun p => usesStore d p.2) || s.threads.any fun p => buffersStore d p.2;
    (s.dieOf d).wsPend = true ∧ open_ = true := by
  refine ⟨drainSt true, 0, ?_, ?_⟩
  all_goals decide

theorem meets_StoreModes_3 :
  ∃ (s : State) (d : Nat),
    let open_ : Bool := (s.cores.any fun c => c.2.commands.any fun p => usesStore d p.2) || s.threads.any fun p => buffersStore d p.2;
    (s.dieOf d).wsPend = true ∧ open_ = false ∧ (s.coreOf (3808 + 4 * d)).arrivals = [] := by
  refine ⟨drainSt false, 0, ?_, ?_, ?_⟩
  all_goals decide

theorem meets_RegisterWrites_1 :
  ∃ (s : State) (d k n lane : Nat) (v : Word), s.pkg.margining = false := by
  refine ⟨st, 0, 1, 0, 2, 0x8000020000000800, ?_⟩
  all_goals decide

theorem meets_RegisterWrites_2 :
  ∃ (s : State) (d k n lane : Nat) (v : Word), s.pkg.margining = true := by
  refine ⟨marginSt 0, 0, 1, 0, 2, 0xFFFFFFFF7F80F60A, ?_⟩
  all_goals decide

theorem meets_RegisterWrites_3 :
  ∃ (s : State) (d k n lane : Nat) (v : Word), let x := s.dieOf d; (bit v 0 = x.wsServing ∨ x.wsPend = true) := by
  refine ⟨st, 0, 1, 0, 2, 0, ?_⟩
  all_goals decide

theorem meets_RegisterWrites_3b :
  ∃ (s : State) (d k n lane : Nat) (v : Word), let x := s.dieOf d; (bit v 0 = x.wsServing ∨ x.wsPend = true) := by
  refine ⟨drainSt false, 0, 1, 0, 2, 1, ?_⟩
  all_goals decide

theorem meets_RegisterWrites_4 :
  ∃ (s : State) (d k n lane : Nat) (v : Word), let x := s.dieOf d; bit v 0 ≠ x.wsServing ∧ x.wsPend = false := by
  refine ⟨st, 0, 1, 0, 2, 1, ?_, ?_⟩
  all_goals decide

theorem meets_RegisterWrites_5 :
  ∃ (s : State) (d k n lane : Nat) (v : Word), let old := FMap.get 0 (FMap.get {} (s.dieOf (k / 4)).ports (k % 4)).lmarg lane; bit old 63 = true := by
  refine ⟨marginSt 0x8000000000000000, 0, 1, 0, 2, 5, ?_⟩
  all_goals decide

theorem meets_RegisterWrites_6 :
  ∃ (s : State) (d k n lane : Nat) (v : Word),
    let old := FMap.get 0 (FMap.get {} (s.dieOf (k / 4)).ports (k % 4)).lmarg lane; bit old 63 = false := by
  refine ⟨marginSt 0x4000120000000007, 0, 1, 0, 2, 5, ?_⟩
  all_goals decide

theorem meets_NamedWrites_1 :
  ∃ (s : State) (v : Word), ∃ q ∈ controlWrites, ∃ k t, t < 16 ∧ s.occupied (tidOf k t) = true ∧ (s.thread (tidOf k t)).iter = none ∧
    (s.thread (tidOf k t)).col = none ∧ q.1 ≠ 2 := by
  refine ⟨machine [(0, user [])], 0x3F, controlWrites[0], ?_, 0, 0, ?_, ?_, ?_, ?_, ?_⟩
  all_goals first | exact List.getElem_mem _ | decide

theorem meets_NamedWrites_2 :
  ∃ (s : State) (v : Word), ∃ addr d, devName addr = some (d, .ageq) := by
  refine ⟨killable false, 0x12345, 0x1000000010, 0, ?_⟩
  all_goals decide

theorem meets_NamedWrites_3 :
  ∃ (s : State) (v : Word), ∃ addr d, devName addr = some (d, .serr) := by
  refine ⟨killable false, 5, 0x1000000038, 0, ?_⟩
  all_goals decide

theorem meets_NamedWrites_4 :
  ∃ (s : State) (v : Word), ∃ addr d p, devName addr = some (d, .dlto p) := by
  refine ⟨killable false, 0, 0x1000040108, 0, 1, ?_⟩
  all_goals decide

theorem meets_NamedWrites_5 :
  ∃ (s : State) (v : Word), ∃ addr d, devName addr = some (d, .kill) ∧ (s.dieOf d).killBusy = true := by
  refine ⟨killable true, 0x8000000000000001, 0x1000000040, 0, ?_, ?_⟩
  all_goals decide

theorem meets_NamedWrites_6 :
  ∃ (s : State) (v : Word), ∃ addr d, devName addr = some (d, .kill) ∧ (s.dieOf d).killBusy = false ∧ bit v 63 = true := by
  refine ⟨killable false, 0x8000000000000001, 0x1000000040, 0, ?_, ?_, ?_⟩
  all_goals decide

theorem meets_NamedWrites_7 :
  ∃ (s : State) (v : Word), ∃ addr, devName addr = none := by
  refine ⟨st, 0, 0x1000800000, ?_⟩
  all_goals decide

theorem meets_NamedWrites_7b :
  ∃ (s : State) (v : Word), ∃ addr, devName addr = none := by
  refine ⟨st, 0, 0x1000000060, ?_⟩
  all_goals decide

theorem meets_DieReset :
  ∃ (s : State) (d : Nat), d < 8 ∧ (∀ c ∈ s.cores, dieOf c.1 = d → c.2.waiters = []) := by
  refine ⟨machine [(0, user [])], 0, ?_, ?_⟩
  all_goals first | (intro c h; cases h) | decide

theorem meets_Attestation_1 :
  ∃ (s : State) (q : SpdmRequest), (s.dieOf 0).booted = true ∧ q.sigAlg = 0 ∧ q.hashAlg = 0 := by
  refine ⟨bootedSt, spdm, ?_, ?_, ?_⟩
  all_goals decide

theorem meets_Attestation_2 :
  ∃ (s : State) (q : SpdmRequest), (s.dieOf 0).booted = true ∧ (q.sigAlg ≠ 0 ∨ q.hashAlg ≠ 0) := by
  refine ⟨bootedSt, { spdm with sigAlg := 1 }, ?_, ?_⟩
  all_goals decide

theorem meets_Attestation_3 :
  ∃ (s : State) (q : SpdmRequest), (s.dieOf 0).booted = true ∧ (q.index = 0 ∨ 228 < q.index) := by
  refine ⟨bootedSt, { spdm with index := 0 }, ?_, ?_⟩
  all_goals decide

theorem meets_Attestation_3b :
  ∃ (s : State) (q : SpdmRequest), (s.dieOf 0).booted = true ∧ (q.index = 0 ∨ 228 < q.index) := by
  refine ⟨bootedSt, { spdm with index := 229 }, ?_, ?_⟩
  all_goals decide

theorem meets_Attestation_4 :
  ∃ (s : State) (q : SpdmRequest), (s.dieOf 0).booted = true ∧ 1 ≤ q.index ∧ q.index ≤ 228 := by
  refine ⟨bootedSt, { spdm with index := 228 }, ?_, ?_, ?_⟩
  all_goals decide

theorem meets_Attestation_5 :
  ∃ (s : State) (q : SpdmRequest), (s.dieOf 0).booted = true ∧ ∃ p, p ≤ 223 ∧ FMap.get? s.pkg.partImages p = none := by
  refine ⟨bootedSt, spdm, ?_, 5, ?_, ?_⟩
  all_goals decide

theorem meets_EventRecords_1 :
  ∃ (s : State) (k : Nat) (r : EventRecord), let q := FMap.get {} (s.dieOf (dieOf k)).eqb (clusterOf k); let key := lsKey k (q.base + 16 * q.tail);
    let takes : Bool := queueTakes q k 16 && !(s.coreOf k).isSealed; takes = true ∧ Untouched s key 16 := by
  refine ⟨eventsSt { base := 0x20000, size := 4, head := 0, tail := 2 }, 3584, taskEnd, ?_, ?_⟩
  all_goals first | decide +kernel | exact untouched_quiet rfl _ _

theorem meets_EventRecords_2b :
  ∃ (s : State) (k : Nat) (r : EventRecord), let q := FMap.get {} (s.dieOf (dieOf k)).eqb (clusterOf k);
    let takes : Bool := queueTakes q k 16 && !(s.coreOf k).isSealed; takes = false := by
  refine ⟨eventsSt { base := 0x20000, size := 4, head := 1, tail := 0 }, 3584, taskEnd, ?_⟩
  all_goals decide +kernel

theorem meets_EncodeDecode :
  ∃ (i : Instr) (w : BitVec 32), i.wellFormed = true ∧ encode i = some w := by
  refine ⟨.add 31 99 104 false false, 0x04FE3D00, ?_, ?_⟩
  all_goals decide

theorem meets_DecodeEncode :
  ∃ (i : Instr) (w : BitVec 32), decode w = .ok i := by
  refine ⟨.add 31 99 104 false false, 0x04FE3D00, ?_⟩
  all_goals rfl

theorem meets_StepRuns_1 :
  ∃ (s : State) (k j p : Nat) (rest : List Nat), (∀ e ∈ s.clock.events, s.clock.now < e.at_) ∧ s.clock.todo = (32 * k + (4 + p)) :: rest ∧ p < 16 ∧
    firstFrom s k p (16 - p) = j ∧ j < 16 ∧ let t := slotAt s.clock.now j; let h := s.thread (tidOf k t); ∃ w i, fetchAt s k h.sid h.pc = some w ∧
    decode w = .ok i := by
  refine ⟨fetchSt 0x74000002 1, 0, 0, 0, [9], ?_, ?_, ?_, ?_, ?_, 0x74000002, .yield, ?_, ?_⟩
  all_goals first | (intro e he; cases he) | decide +kernel | rfl

theorem meets_StepRuns_2 :
  ∃ (s : State) (k j p : Nat) (rest : List Nat), (∀ e ∈ s.clock.events, s.clock.now < e.at_) ∧ s.clock.todo = (32 * k + (4 + p)) :: rest ∧ p < 16 ∧
    firstFrom s k p (16 - p) = j ∧ j < 16 ∧ let t := slotAt s.clock.now j; let h := s.thread (tidOf k t); ∃ w r, fetchAt s k h.sid h.pc = some w ∧
    decode w = .error r := by
  refine ⟨fetchSt 0 1, 0, 0, 0, [9], ?_, ?_, ?_, ?_, ?_, 0, .reservedMajor 0, ?_, ?_⟩
  all_goals first | (intro e he; cases he) | decide +kernel | rfl

theorem meets_StepRuns_3 :
  ∃ (s : State) (k j p : Nat) (rest : List Nat), (∀ e ∈ s.clock.events, s.clock.now < e.at_) ∧ s.clock.todo = (32 * k + (4 + p)) :: rest ∧ p < 16 ∧
    firstFrom s k p (16 - p) = j ∧ j < 16 ∧ let t := slotAt s.clock.now j; let h := s.thread (tidOf k t); fetchAt s k h.sid h.pc = none := by
  refine ⟨fetchSt 0 2, 0, 0, 0, [9], ?_, ?_, ?_, ?_, ?_, ?_⟩
  all_goals first | (show fetchAt (fetchSt 0 2) 0 1 0x100 = none; decide +kernel) | (intro e he; cases he) | decide +kernel

theorem meets_Fetch_1 :
  ∃ (s : State) (k sid : Nat) (pc : BitVec 16), sid ≠ 0 ∧ FMap.get 0 (s.coreOf k).sids (pc.toNat / 2048) = sid := by
  refine ⟨fetchSt 0x74000002 1, 0, 1, 0x100, ?_, ?_⟩
  all_goals decide

theorem meets_Fetch_2 :
  ∃ (s : State) (k sid : Nat) (pc : BitVec 16), (sid = 0 ∨ FMap.get 0 (s.coreOf k).sids (pc.toNat / 2048) ≠ sid) := by
  refine ⟨fetchSt 0x74000002 1, 0, 0, 0x100, ?_⟩
  all_goals decide

theorem meets_Fetch_2b :
  ∃ (s : State) (k sid : Nat) (pc : BitVec 16), (sid = 0 ∨ FMap.get 0 (s.coreOf k).sids (pc.toNat / 2048) ≠ sid) := by
  refine ⟨fetchSt 0x74000002 1, 0, 2, 0x100, ?_⟩
  all_goals decide

theorem meets_IssueOrder_1 :
  ∃ (s : State) (k j p : Nat), p < 16 ∧ firstFrom s k p (16 - p) = j ∧ j < 16 ∧ ∃ i, p ≤ i ∧ i < j := by
  refine ⟨machine [(5, user [])], 0, 5, 0, ?_, ?_, ?_, 4, ?_, ?_⟩
  all_goals decide +kernel

theorem meets_IssueOrder_2 :
  ∃ (s : State) (k j p : Nat), p < 16 ∧ firstFrom s k p (16 - p) = j ∧ j < 16 ∧ ∃ t n, eligibleSlot s k t = true ∧
    (s.thread (tidOf k t)).lastIssue = some n := by
  refine ⟨{ machine [(5, { user [] with lastIssue := some 0 })] with clock := { now := 8 } }, 0, 13, 0, ?_, ?_, ?_, 5, 0, ?_, ?_⟩
  all_goals decide +kernel

theorem meets_StepEvents_1 :
  ∃ (s : State), ∃ e es, s.clock.events = e :: es ∧ e.at_ ≤ s.clock.now := by
  refine ⟨{ clock := { events := [{ at_ := 0, seq := 0, act := .refreshPhase 0 }] } }, { at_ := 0, seq := 0, act := .refreshPhase 0 }, [], ?_, ?_⟩
  all_goals decide

theorem meets_StepEvents_2 :
  ∃ (s : State), (∀ e ∈ s.clock.events, s.clock.now < e.at_) ∧ s.clock.todo = [] ∧ (∀ c ∈ s.cores, c.2.evs = []) := by
  refine ⟨{ threads := [(0, user [])], clock := { events := [{ at_ := 1, seq := 0, act := .refreshPhase 0 }] } }, ?_, ?_, ?_⟩
  all_goals repeat' first | (intro e he; cases he) | decide | simp only [List.mem_singleton, forall_eq] | (intros; contradiction)

theorem meets_PlacedWord :
  ∃ (s : State) (n w : Nat) (i : Instr), decodeTableWord n w = some i := by
  refine ⟨State.reset, 32, 0x74000002, .yield, ?_⟩
  all_goals decide

theorem meets_StepKeeps :
  ∃ (s t : State), Inv s ∧ step s = .next t := by
  refine ⟨machine [(0, user [(8, full 5)])], match step (machine [(0, user [(8, full 5)])]) with | .next t => t | _ => {}, ?_, ?_⟩
  all_goals first | exact inv_one (by decide) | (cbv; done)

theorem meets_RegisterFrames_1 :
  ∃ (s s1 s2 s3 : State) (d a b : Code) (x y : Bool) (va vb : Word), admits { srcs := [a, b], dst := some d } s = true ∧
    (a.toNat < 96 ∨ 104 ≤ a.toNat) ∧ (b.toNat < 96 ∨ 104 ≤ b.toNat) ∧ Reads s a x va s1 ∧ Reads s1 b y vb s2 ∧ s.occupied (tid s) = true ∧
    s.clock.slot < 16 ∧ ∃ p ∈ binaryForms, Writes s2 d (p.2 va vb) s3 := by
  refine ⟨st, st, st, after (writeDst 10 (binaryForms[0].2 5 3)) st, 10, 8, 9, false, false, 5, 3, ?_, ?_, ?_, ?_, ?_, ?_, ?_, binaryForms[0], ?_, ?_⟩
  all_goals first | exact List.getElem_mem _ | decide | exact ⟨[], rfl, fun _ => rfl⟩ | exact ⟨_, rfl, fun _ => rfl⟩

theorem meets_RegisterFrames_2 :
  ∃ (s s1 s2 s3 : State) (d a b : Code) (x y : Bool) (va vb : Word), admits { srcs := [a, b], dst := some d } s = true ∧
    (a.toNat < 96 ∨ 104 ≤ a.toNat) ∧ (b.toNat < 96 ∨ 104 ≤ b.toNat) ∧ Reads s a x va s1 ∧ Reads s1 b y vb s2 ∧ s.occupied (tid s) = true ∧
    s.clock.slot < 16 ∧ ∃ p ∈ recordedForms, Writes s2 d (p.2 va vb ((current s2).pw.getLsbD 16)).1 s3 := by
  refine ⟨st, st, st, after (writeDst 10 (recordedForms[0].2 5 3 false).1) st, 10, 8, 9, false, false, 5, 3, ?_, ?_, ?_, ?_, ?_, ?_, ?_,
    recordedForms[0], ?_, ?_⟩
  all_goals first | exact List.getElem_mem _ | decide | exact ⟨[], rfl, fun _ => rfl⟩ | exact ⟨_, rfl, fun _ => rfl⟩

/-- A thread of context 1 by itself, with the registers of a spawn. -/
def callSt (va vb : Word) (token : Nat) : State :=
  { threads := [(0, { inCtx ([(8, full va), (9, full vb), (10, full 7)] ++ (List.range 8).map fun i => (24 + i, full (BitVec.ofNat 64 i))) with
      segs := [(0, sgLs)], mwaitToken := token, graftPc := 0x200 })], mem := mem ctx1 }
/-- Two commands of core 0, of which the second is held, and a transfer that has ended. -/
def chainedSt (va vb : Word) : State :=
  { callSt va vb 0 with
    cores := [(0,
      { commands := [(3, cmd1 (.copy (copy1 0)) false 0 0), (4, cmd1 (.copy (copy1 0)) true 0 0)], nextXid := 5, xids := [(2, some 0x0C), (3, none), (4, none)] })] }
/-- The block of a copy stands at 0x20000. -/
def copySt : State := blockSt cpyBlock
def copyThread : State := { copySt with threads := [(0, lsTh [(9, full 1), (10, full 7)])] }
theorem copy_spans : SpansPass copyThread cpyAsked := by
  exact ⟨fun lo hi h => by cases h; exact ⟨[], rfl, fun _ => by cbv⟩, ⟨[], rfl, fun _ => by cbv⟩⟩
/-- A good record of a cell: V and PE clear. -/
def cellWords : List Word := [0x300000005, 0xF]

theorem meets_IntegratorCompletions_1 :
  ∃ (s : State) (d a b : Code) (x y : Bool) (va vb : Word), let k := s.clock.core; let g := ddaOf s k; Alone s ∧ hasDda k = true ∧ ranges s ∧
    Holds s a va ∧ Holds s b vb ∧ d.toNat < 32 ∧ ((current s).sreg d.toNat).full = true ∧ bits va 63 4 = 0 ∧
    (∀ e, e < 4 → va.getLsbD e = true → (g.dom e).run = false → ∀ p ∈ g.members e, p.2.sat = false) := by
  refine ⟨ddaSt 5 3 {} [], 10, 8, 9, false, false, 5, 3, ?_, ?_, ?_, ?_, ?_, ?_, ?_, ?_, ?_⟩
  all_goals first
    | (unfold Alone; decide +kernel) | (unfold ranges; decide +kernel) | (unfold Safety.Holds; decide +kernel) | (intro e _ _ _ p hp; cases hp)
    | decide +kernel

theorem meets_IntegratorCompletions_2 :
  ∃ (s : State) (d a b : Code) (x y : Bool) (va vb : Word), let k := s.clock.core; let g := ddaOf s k; Alone s ∧ hasDda k = true ∧ ranges s ∧
    Holds s a va ∧ Holds s b vb ∧ d.toNat < 32 ∧ ((current s).sreg d.toNat).full = true ∧ bits va 63 4 = 0 ∧
    (∀ e, e < 4 → va.getLsbD e = true → (g.dom e).busy s.clock.now = false ∧ (g.dom e).halting = false) := by
  refine ⟨ddaSt 1 3 (runningDda { run := true, cnt := 5 }) [], 10, 8, 9, false, false, 1, 3, ?_, ?_, ?_, ?_, ?_, ?_, ?_, ?_, ?_⟩
  all_goals first | (unfold Alone; decide +kernel) | (unfold ranges; decide +kernel) | (unfold Safety.Holds; decide +kernel) | decide +kernel

theorem meets_IntegratorCompletions_3 :
  ∃ (s : State) (d a b : Code) (x y : Bool) (va vb : Word), let k := s.clock.core; let i := bits va 2 0; Alone s ∧ hasDda k = true ∧ ranges s ∧
    Holds s a va ∧ Holds s b vb ∧ d.toNat < 32 ∧ ((current s).sreg d.toNat).full = true ∧ bits va 63 6 = 0 ∧ i ≤ 3 ∧ bits va 5 3 = 1 := by
  refine ⟨ddaSt 8 3 (runningDda { cnt := 5 }) [], 10, 8, 9, false, false, 8, 3, ?_, ?_, ?_, ?_, ?_, ?_, ?_, ?_, ?_, ?_⟩
  all_goals first | (unfold Alone; decide +kernel) | (unfold ranges; decide +kernel) | (unfold Safety.Holds; decide +kernel) | decide +kernel

theorem meets_IntegratorCompletions_4 :
  ∃ (s : State) (d a b : Code) (x y : Bool) (va vb : Word), let k := s.clock.core; let g := ddaOf s k; let i := bits va 2 0; Alone s ∧
    hasDda k = true ∧ ranges s ∧ Holds s a va ∧ Holds s b vb ∧ d.toNat < 32 ∧ ((current s).sreg d.toNat).full = true ∧ bits va 63 7 = 0 ∧
    bit va 6 = true ∧ i ≤ 3 ∧ bits va 5 3 = 1 ∧ (g.dom i).run = false := by
  refine ⟨ddaSt 0x48 3 (runningDda { cnt := 5 }) [], 10, 8, 9, false, false, 0x48, 3, ?_, ?_, ?_, ?_, ?_, ?_, ?_, ?_, ?_, ?_, ?_, ?_⟩
  all_goals first | (unfold Alone; decide +kernel) | (unfold ranges; decide +kernel) | (unfold Safety.Holds; decide +kernel) | decide +kernel

theorem meets_IntegratorCompletions_5 :
  ∃ (s : State) (d a b : Code) (x y : Bool) (va vb : Word), let k := s.clock.core; Alone s ∧ hasDda k = true ∧ ranges s ∧ Holds s a va ∧
    Holds s b vb ∧ d.toNat < 32 ∧ ((current s).sreg d.toNat).full = true ∧ va.toNat ≤ 7 ∧ -7 ≤ vb.toInt ∧ vb.toInt ≤ 7 := by
  refine ⟨ddaSt 7 (-7) { cells := [(4, cellPort)] } [], 10, 8, 9, false, false, 7, -7, ?_, ?_, ?_, ?_, ?_, ?_, ?_, ?_, ?_, ?_⟩
  all_goals first | (unfold Alone; decide +kernel) | (unfold ranges; decide +kernel) | (unfold Safety.Holds; decide +kernel) | decide +kernel

theorem meets_IntegratorCompletions_6 :
  ∃ (s : State) (d a b : Code) (x y : Bool) (va vb : Word), let k := s.clock.core; Alone s ∧ hasDda k = true ∧ ranges s ∧ Holds s a va ∧
    Holds s b vb ∧ d.toNat < 32 ∧ ((current s).sreg d.toNat).full = true ∧ va.toNat ≤ 7 ∧ bits vb 63 8 = 0 := by
  refine ⟨ddaSt 7 0xFF {} [], 10, 8, 9, false, false, 7, 0xFF, ?_, ?_, ?_, ?_, ?_, ?_, ?_, ?_, ?_⟩
  all_goals first | (unfold Alone; decide +kernel) | (unfold ranges; decide +kernel) | (unfold Safety.Holds; decide +kernel) | decide +kernel

theorem meets_RangeCompletions_1 :
  ∃ (s : State) (a b : Code) (x y : Bool) (va vb : Word) (key : Nat), let k := s.clock.core; let g := ddaOf s k; let first := bits vb 7 0;
    let n := bits vb 15 8 + 1; let word (i : Nat) : Word := memDw s (key + 8 * i);
    let still (i : Nat) : Prop := (g.dom (g.cell (first + i)).dom).run = false; Alone s ∧ hasDda k = true ∧ ranges s ∧ Holds s a va ∧
    Holds s b vb ∧ bits vb 63 17 = 0 ∧ first + n ≤ 256 ∧ LocalSpan s va (8 * n) 8 false key ∧ bit vb 16 = false ∧ Clean s key (8 * n) ∧
    (∀ i, i < n → goodEntry (word i) = true ∧ still i ∧ (g.dom (bits (word i) 62 61)).run = false) := by
  refine ⟨ddaSt 0x20000 0x104 {} (rangeMem [0x880000FFFFFFFD00, 0x880000FFFFF403FF]), 8, 9, false, false, 0x20000, 0x104, lsKey 0 0x20000, ?_, ?_,
    ?_, ?_, ?_, ?_, ?_, ?_, ?_, ?_, ?_⟩
  all_goals first
    | (unfold Alone; decide +kernel) | (unfold ranges; decide +kernel) | (unfold Safety.Holds; decide +kernel)
    | (unfold LocalSpan; decide +kernel) | exact clean_quiet rfl rfl _ _ | decide +kernel

theorem meets_RangeCompletions_2 :
  ∃ (s : State) (a b : Code) (x y : Bool) (va vb : Word) (key : Nat), let k := s.clock.core; let g := ddaOf s k; let first := bits vb 7 0;
    let n := bits vb 15 8 + 1; let word (i : Nat) : Word := memDw s (key + 8 * i);
    let still (i : Nat) : Prop := (g.dom (g.cell (first + i)).dom).run = false; Alone s ∧ hasDda k = true ∧ ranges s ∧ Holds s a va ∧
    Holds s b vb ∧ bits vb 63 17 = 0 ∧ first + n ≤ 256 ∧ LocalSpan s va (16 * n) 16 false key ∧ bit vb 16 = false ∧ Clean s key (16 * n) ∧
    (∀ i, i < n → goodRecord (word (2 * i)) (word (2 * i + 1)) = true ∧ still i) := by
  refine ⟨ddaSt 0x20000 4 {} (rangeMem cellWords), 8, 9, false, false, 0x20000, 4, lsKey 0 0x20000, ?_, ?_, ?_, ?_, ?_, ?_, ?_, ?_, ?_, ?_, ?_⟩
  all_goals first
    | (unfold Alone; decide +kernel) | (unfold ranges; decide +kernel) | (unfold Safety.Holds; decide +kernel)
    | (unfold LocalSpan; decide +kernel) | exact clean_quiet rfl rfl _ _ | decide +kernel

theorem meets_RangeCompletions_3 :
  ∃ (s : State) (a b : Code) (x y : Bool) (va vb : Word) (key : Nat), let k := s.clock.core; let g := ddaOf s k; let first := bits vb 7 0;
    let n := bits vb 15 8 + 1; Alone s ∧ hasDda k = true ∧ ranges s ∧ Holds s a va ∧ Holds s b vb ∧ bits vb 63 17 = 0 ∧ first + n ≤ 256 ∧
    LocalSpan s va (8 * n) 8 true key ∧ bit vb 16 = true ∧ Untouched s key (8 * n) ∧ (∀ e, e < 4 → (g.dom e).busy s.clock.now = false) := by
  refine ⟨ddaSt 0x20000 0x10104 (runningDda {}) [], 8, 9, false, false, 0x20000, 0x10104, lsKey 0 0x20000, ?_, ?_, ?_, ?_, ?_, ?_, ?_, ?_, ?_, ?_, ?_⟩
  all_goals first
    | (unfold Alone; decide +kernel) | (unfold ranges; decide +kernel) | (unfold Safety.Holds; decide +kernel)
    | (unfold LocalSpan; decide +kernel) | decide +kernel | exact untouched_quiet rfl _ _

theorem meets_TransferCompletions_1 :
  ∃ (s : State) (d a b : Code) (x y h : Bool) (va vb : Word) (sc : BitVec 3) (c : Nat) (e : Word), let k := s.clock.core; let me := current s;
    Holds s a va ∧ Holds s b vb ∧ d.toNat < 32 ∧ (me.sreg d.toNat).full = true ∧ Alone s ∧ va.toNat < 2 ^ 24 ∧
    coreEntry s (dieOf k) me.ctx va.toNat = some e ∧ entryPkg e = s.pkg.number ∧ entryCore e = some c ∧ levelAllows me.level k c = true ∧
    isOffset vb = true ∧ (∀ i, i < 8 → (me.sreg (24 + i)).full = true) := by
  refine ⟨callSt 1 0x200 0, 10, 8, 9, false, false, false, 1, 0x200, 5, 1, 0x8000000000000001, ?_, ?_, ?_, ?_, ?_, ?_, ?_, ?_, ?_, ?_, ?_, ?_⟩
  all_goals first | (unfold Alone; decide +kernel) | (unfold Safety.Holds; decide +kernel) | decide +kernel

theorem meets_TransferCompletions_2 :
  ∃ (s : State) (d a b : Code) (x y h : Bool) (va vb : Word) (sc : BitVec 3) (c : Nat) (e : Word), let me := current s; Holds s a va ∧
    Holds s b vb ∧ d.toNat < 32 ∧ (me.sreg d.toNat).full = true ∧ s.occupied (tid s) = true ∧ s.clock.slot < 16 ∧ me.bound = .none ∧ me.lent = [] ∧
    me.col = none ∧ me.mwaitToken = 2 ∧ me.depth < 2 ^ 32 - 1 ∧ me.resident < 4 ∧ (me.sreg 31).full = true ∧ me.twin = none ∧ (owner s).twin = none := by
  refine ⟨callSt 1 0x200 2, 10, 8, 9, false, false, false, 1, 0x200, 5, 1, 0x8000000000000001, ?_, ?_, ?_, ?_, ?_, ?_, ?_, ?_, ?_, ?_, ?_, ?_, ?_,
    ?_, ?_⟩
  all_goals first | (unfold Safety.Holds; decide +kernel) | decide +kernel

theorem meets_TransferCompletions_3 :
  ∃ (s : State) (d a b : Code) (x y h : Bool) (va vb : Word) (sc : BitVec 3) (c : Nat) (e : Word), let k := s.clock.core; let me := current s;
    Holds s a va ∧ Holds s b vb ∧ d.toNat < 32 ∧ (me.sreg d.toNat).full = true ∧ ∃ p q pred succ, Alone s ∧ va.toNat < 2 ^ 16 ∧ vb.toNat < 2 ^ 16 ∧
    transferOf (s.coreOf k) va.toNat = some (p, none) ∧ (∃ st, transferOf (s.coreOf k) vb.toNat = some (q, st)) ∧ p ≠ q ∧
    FMap.get? (s.coreOf k).commands q = some succ ∧ FMap.get? (s.coreOf k).commands p = some pred ∧ succ.held = true ∧ succ.chains < 4 := by
  refine ⟨chainedSt 3 4, 10, 8, 9, false, false, false, 3, 4, 5, 1, 0x8000000000000001, ?_, ?_, ?_, ?_, 3, 4, cmd1 (.copy (copy1 0)) false 0 0,
    cmd1 (.copy (copy1 0)) true 0 0, ?_, ?_, ?_, ?_, ?_, ?_, ?_, ?_, ?_, ?_⟩
  all_goals first | (unfold Alone; decide +kernel) | (unfold Safety.Holds; decide +kernel) | exact ⟨none, by decide +kernel⟩ | decide +kernel

theorem meets_TransferCompletions_4 :
  ∃ (s : State) (d a b : Code) (x y h : Bool) (va vb : Word) (sc : BitVec 3) (c : Nat) (e : Word), let k := s.clock.core; let me := current s;
    Holds s a va ∧ Holds s b vb ∧ d.toNat < 32 ∧ (me.sreg d.toNat).full = true ∧ ∃ p v, Alone s ∧ bits va 63 17 = 0 ∧ bit va 16 = true ∧
    transferOf (s.coreOf k) (bits va 15 0) = some (p, some v) := by
  refine ⟨chainedSt 0x10002 4, 10, 8, 9, false, false, false, 0x10002, 4, 5, 1, 0x8000000000000001, ?_, ?_, ?_, ?_, 2, 0x0C, ?_, ?_, ?_, ?_⟩
  all_goals first | (unfold Alone; decide +kernel) | (unfold Safety.Holds; decide +kernel) | decide +kernel

theorem meets_TransferCompletions_5 :
  ∃ (s : State) (d a b : Code) (x y h : Bool) (va vb : Word) (sc : BitVec 3) (c : Nat) (e : Word), let me := current s; Holds s a va ∧
    Holds s b vb ∧ d.toNat < 32 ∧ (me.sreg d.toNat).full = true ∧ Alone s ∧ a ≠ 0 ∧ sc.toNat ≤ 5 := by
  refine ⟨callSt 1 0x200 0, 10, 8, 9, false, false, false, 1, 0x200, 5, 1, 0x8000000000000001, ?_, ?_, ?_, ?_, ?_, ?_, ?_⟩
  all_goals first | (unfold Alone; decide +kernel) | (unfold Safety.Holds; decide +kernel) | decide +kernel

theorem meets_TransferCompletions_6 :
  ∃ (s : State) (d a b : Code) (x y h : Bool) (va vb : Word) (sc : BitVec 3) (c : Nat) (e : Word), let k := s.clock.core; let me := current s;
    Holds s a va ∧ Holds s b vb ∧ d.toNat < 32 ∧ (me.sreg d.toNat).full = true ∧ ∃ key cp n,
    let ws := (List.range n).map fun i => memDw s (key + 8 * i); Alone s ∧ me.held = [] ∧ n = 12 + 4 * bits (memDw s (key + 16)) 1 0 ∧
    LocalSpan s va (8 * n) 64 false key ∧ Clean s key (8 * n) ∧ goodCopyBlock va ws = true ∧ Performs (copyOf ws) s cp s ∧ goodDims cp = true ∧
    SpansPass s cp ∧ goodGeometry cp = true ∧ openTransfers (s.coreOf k) < 64 ∧ Performs cp.src.master s k s := by
  refine ⟨copyThread, 10, 8, 9, false, false, false, 0x20000, 1, 5, 1, 0x8000000000000001, ?_, ?_, ?_, ?_, lsKey 0 0x20000, cpyAsked, 12, ?_, ?_, ?_,
    ?_, ?_, ?_, ?_, ?_, ?_, ?_, ?_, ?_⟩
  all_goals first
    | (unfold Alone; decide +kernel) | (unfold Safety.Holds; decide +kernel) | (unfold LocalSpan; decide +kernel) | exact clean_quiet rfl rfl _ _
    | exact copy_spans | decide +kernel | exact ⟨[], rfl, fun _ => by cbv⟩

theorem meets_DeviceEventsComplete_1 :
  ∃ (s : State) (k t n : Nat) (v : Word) (bad : Bool) (f : Flit) (addr d : Nat) (name : DevName), (s.thread (tidOf k t)).storing = [] := by
  refine ⟨st, 0, 0, 0, 0, false, { seq := 0, crcOk := true, payload := .retry 0 }, 0x1000000010, 0, .ageq, ?_⟩
  all_goals decide

theorem meets_DeviceEventsComplete_2 :
  ∃ (s : State) (k t n : Nat) (v : Word) (bad : Bool) (f : Flit) (addr d : Nat) (name : DevName),
    (∀ c t n v bad, f.payload = .response c t n v bad → (s.thread (tidOf c t)).storing = []) := by
  refine ⟨st, 0, 0, 0, 0, false, { seq := 0, crcOk := true, payload := .retry 0 }, 0x1000000010, 0, .ageq, ?_⟩
  all_goals (intro _ _ _ _ _ h; cases h)

theorem meets_DeviceEventsComplete_3 :
  ∃ (s : State) (k t n : Nat) (v : Word) (bad : Bool) (f : Flit) (addr d : Nat) (name : DevName), devName addr = some (d, name) := by
  refine ⟨st, 0, 0, 0, 0, false, { seq := 0, crcOk := true, payload := .retry 0 }, 0x1000000010, 0, .ageq, ?_⟩
  all_goals decide

/-- A thread of context 1 on core 0, which core 3584 saves at linear address 0. -/
def saves (core slot uid : Nat) (going : Bool) (addr : Nat) : CxCommand :=
  { core := core, slot := slot, uid := uid, grafting := going, ctx := 1, level := 1, issuer := 3584, addr := addr }
def saver : CxCommand := saves 0 0 1 false 0
/-- Context 1 with a page of 32 MiB of HBM at linear address 0. -/
def saveMem : List (Nat × Word) :=
  [(ctxKey 0 1 0, 0x8000000000000001), (ctxKey 0 1 0x10, 0x100000), (hbmKey 0 0x100000, 0x8000000000000000), (hbmKey 0 0x100008, 0x200000),
   (hbmKey 0 0x200000, 0xE1E0000000000000), (hbmKey 0 0x200008, 0x50000000)]
def saveSt (t : Thread) : State := { threads := [(0, t)], mem := mem saveMem }
def savedT : Thread := inCtx [(8, full 5)]
theorem saved_ready : Performs (readyToSave 0) (saveSt savedT) (some 0) (after (readyToSave 0) (saveSt savedT)) := ⟨fx (readyToSave 0) (saveSt savedT), rfl, fun _ => by cbv⟩
def readied : State := after (readyToSave 0) (saveSt savedT)
theorem saved_settled : Performs (settleForSave 0 0) readied true (after (settleForSave 0 0) readied) := ⟨fx (settleForSave 0 0) readied, rfl,
  fun _ => by cbv⟩
def settled : State := after (settleForSave 0 0) readied
def leftSt : State := after (leaveSlot 0) settled
theorem saved_left : Performs (leaveSlot 0) settled () leftSt := ⟨fx (leaveSlot 0) settled, rfl, fun _ => by cbv⟩
def takenRec : List Word × Saved := (threadRecord (settled.thread 0) (settled.thread 0).pc none none, savedOf (settled.thread 0) 0 0 none)
theorem saved_out : Performs (takeOut 0) settled takenRec leftSt := by
  refine Laws.performs_bind (Laws.performs_getS _) (Laws.performs_bind saved_left ?_)
  rw [show (settled.thread (0 : Nat)).iter = none from by decide +kernel]
  rw [show loopOf settled (settled.thread 0) (0 / 16) = none from by decide +kernel]
  exact Laws.performs_pure _ _
theorem saved_taken : Performs (takeThread 0) (saveSt savedT) (some [takenRec]) leftSt := by
  unfold takeThread
  refine Laws.performs_bind (Laws.performs_getS _) ?_
  show Performs (do match ← readyToSave 0 with | none => return none | some p => if ← settleForSave 0 p then return some [← takeOut 0] else return none) (saveSt savedT) _ _
  refine Laws.performs_bind saved_ready ?_
  refine Laws.performs_bind (a := true) (s1 := settled) saved_settled ?_
  exact Laws.performs_bind saved_out (Laws.performs_pure _ _)

theorem clears {s : State} (h : s.pkg.eccBad = []) (key n : Nat) : ∀ as, ∃ s1,
  Performs (clearPoison key n as) s () s1 ∧ s1.pkg = s.pkg ∧ s1.cores = s.cores := by
  intro as
  induction as generalizing s with
  | nil => exact ⟨s, Laws.performs_pure _ _, rfl, rfl⟩
  | cons a as ih =>
    have hf : ∀ {u : State}, u.pkg.eccBad = [] → Performs (forgetEcc a) u () u := fun {u} g => by
      refine Laws.performs_bind (Laws.performs_getS _) ?_
      rw [g]; exact Laws.performs_pure _ _
    have hd : Performs (findEcc a) s () s := by
      refine Laws.performs_bind (Laws.performs_getS _) ?_
      rw [h]; exact Laws.performs_pure _ _
    unfold clearPoison
    by_cases hk : (decide (key ≤ a) && decide (a + 8 ≤ key + n)) = true
    · rw [if_pos hk]
      dsimp only
      by_cases hl : isLs a = true
      · obtain ⟨s1, h1, h2, h3⟩ := ih (s := (Eff.poison a false).apply s) h
        rw [if_pos hl]
        exact ⟨s1, Laws.performs_bind (Laws.performs_emit _ _) (Laws.performs_bind (hf (u := (Eff.poison a false).apply s) h) h1), h2, h3⟩
      · obtain ⟨s1, h1, h2, h3⟩ := ih (s := s) h
        rw [if_neg hl]
        exact ⟨s1, Laws.performs_bind (hf h) h1, h2, h3⟩
    · obtain ⟨s1, h1, h2, h3⟩ := ih (s := s) h
      rw [if_neg hk]
      exact ⟨s1, Laws.performs_bind hd h1, h2, h3⟩
theorem storesBytes {s : State} (h : s.pkg.eccBad = []) (hc : ∀ k,
  (s.coreOf k).monRegs = [] ∧ (s.coreOf k).barriers = []) (key : Nat) (bs : List Byte) :
    ∃ s1, Performs (storeBytes key bs) s () s1 ∧ s1.pkg = s.pkg ∧ s1.cores = s.cores := by
  obtain ⟨s1, h1, h2, h3⟩ := clears h key bs.length (touched key bs.length)
  refine ⟨(Eff.mem key bs).apply s1, ?_, h2, h3⟩
  refine Laws.performs_bind h1 (Laws.performs_bind (Laws.performs_emit _ _) ?_)
  have hcore : ∀ k, ((Eff.mem key bs).apply s1).coreOf k = s.coreOf k := fun k => by
    show FMap.get {} s1.cores k = FMap.get {} s.cores k
    rw [h3]
  refine Laws.performs_bind (a := ()) (s1 := (Eff.mem key bs).apply s1) ?_ ?_
  · refine Laws.performs_bind (Laws.performs_getS _) ?_
    rw [hcore, (hc _).1]; exact Laws.performs_pure _ _
  · refine Laws.performs_bind (Laws.performs_getS _) ?_
    rw [hcore, (hc _).2]; exact Laws.performs_pure _ _
theorem writesBlocks : ∀ (ks : List Nat) (bs : List Byte) {s : State}, s.pkg.eccBad = [] → (∀ k,
  (s.coreOf k).monRegs = [] ∧ (s.coreOf k).barriers = []) →
    ∃ s1, Performs (writeBlocks (ks.map fun x => .hbm x none) bs) s () s1
  | [], _, s, _, _ => ⟨s, Laws.performs_pure _ _⟩
  | k :: ks, bs, s, h, hc => by
    obtain ⟨s1, h1, h2, h3⟩ := storesBytes h hc k (bs.take 256)
    obtain ⟨s2, h4⟩ := writesBlocks ks (bs.drop 256) (h2 ▸ h : s1.pkg.eccBad = []) fun k => by
      show (FMap.get {} s1.cores k).monRegs = [] ∧ (FMap.get {} s1.cores k).barriers = []
      rw [h3]; exact hc k
    exact ⟨s2, Laws.performs_bind h1 h4⟩
theorem writesOne (c : CxCommand) (ws : List Word) (sv : Saved) {s : State} (ks : List Nat)
    (h : recordPlaces s c (c.addr + 0) .store (threadBytes / 256) = some (ks.map fun x => .hbm x none)) (he : s.pkg.eccBad = [])
    (hc : ∀ k, (s.coreOf k).monRegs = [] ∧ (s.coreOf k).barriers = []) : ∃ s1, Performs (writeRecords c 0 [(ws, sv)]) s () s1 := by
  obtain ⟨s1, h1⟩ := writesBlocks ks (wordBytes ws) he hc
  refine ⟨(Eff.pkg fun p => { p with saved := FMap.set p.saved (recordKey s1 c 0) { sv with record := ws } }).apply s1, ?_⟩
  unfold writeRecords
  refine Laws.performs_bind (Laws.performs_getS _) ?_
  dsimp only
  rw [h]
  exact Laws.performs_bind h1 (Laws.performs_bind (Laws.performs_getS _) (Laws.performs_bind (Laws.performs_emit _ _) (Laws.performs_pure _ _)))
theorem quiet_all {cs : FMap Core} (h : (cs.all fun p => p.2.monRegs == [] && p.2.barriers == [] && p.2.waiters == []) = true) (k : Nat) :
    (FMap.get {} cs k).monRegs = [] ∧ (FMap.get {} cs k).barriers = [] := ⟨(quietCores h k).1, (quietCores h k).2.1⟩
theorem finds {s : State} (h : s.pkg.eccBad = []) (a : Nat) : Performs (findEcc a) s () s := by
  refine Laws.performs_bind (Laws.performs_getS _) ?_
  rw [h]; exact Laws.performs_pure _ _
theorem findsAll {s : State} (h : s.pkg.eccBad = []) : ∀ as, Performs (findEccs as) s () s
  | [] => Laws.performs_pure _ _
  | a :: as => Laws.performs_bind (finds h a) (findsAll h as)
/-- What stands in memory where a record lies. -/
theorem reads_hbm {s : State} (he : s.pkg.eccBad = []) (hp : s.poisons = []) (key n : Nat) :
    Performs (readPart (.hbm key none) n) s (Memory.readList s.mem key n, false) s := by
  have hn : ((touched key n).any fun a => s.poisonAt a || (!isLs a && FMap.get false s.pkg.eccBad a)) = false := by
    simp [State.poisonAt, hp, he, FMap.get, FMap.get?]
  have hq : Performs (poisonedAt key n) s false s := by
    refine Laws.performs_bind (Laws.performs_getS _) ?_
    rw [hn]; exact Laws.performs_pure _ _
  exact Laws.performs_bind (findsAll he _) (Laws.performs_bind (Laws.performs_bind (Laws.performs_getS _) (Laws.performs_pure _ _))
    (Laws.performs_bind hq (Laws.performs_pure _ _)))
theorem readList_add (m : Memory) (k : Nat) : ∀ n a, Memory.readList m a (n + k) = Memory.readList m a n ++ Memory.readList m (a + n) k
  | 0, a => by rw [Nat.zero_add, Nat.add_zero]; rfl
  | n + 1, a => by
    rw [Nat.add_right_comm]
    show Memory.read m a :: Memory.readList m (a + 1) (n + k) = Memory.read m a :: (Memory.readList m (a + 1) n ++ Memory.readList m (a + (n + 1)) k)
    rw [readList_add m k n (a + 1), Nat.add_right_comm]; rfl
theorem reads_blocks {s : State} (he : s.pkg.eccBad = []) (hp : s.poisons = []) : ∀ (n key : Nat),
    Performs (readBlocks (((List.range n).map fun i => key + 256 * i).map fun x => .hbm x none)) s (Memory.readList s.mem key (256 * n),
      false) s := by
  intro n
  induction n with
  | zero => intro key; exact Laws.performs_pure _ _
  | succ n ih =>
    intro key
    have hl : ((List.range (n + 1)).map fun i => key + 256 * i) = key :: (List.range n).map fun i => (key + 256) + 256 * i := by
      rw [List.range_succ_eq_map]
      simp only [List.map_cons, List.map_map, Nat.mul_zero, Nat.add_zero, List.cons.injEq, true_and]
      exact List.map_congr_left fun i _ => by simp only [Function.comp]; omega
    rw [hl, Nat.mul_succ, Nat.add_comm (256 * n), readList_add]
    exact Laws.performs_bind (reads_hbm he hp key 256) (Laws.performs_bind (ih (key + 256)) (Laws.performs_pure _ _))
/-- The doublewords that stand in memory from a key on. -/
def dwordsAt (m : Memory) (key n : Nat) : List Word := wordsOf (Memory.readList m key (8 * n)) n
theorem dwordsAt_getD (m : Memory) : ∀ n key i, (dwordsAt m key n).getD i 0 =
    if i < n then BitVec.ofNat 64 (leValue (Memory.readList m (key + 8 * i) 8)) else 0
  | 0, _, i => by rw [if_neg (Nat.not_lt_zero i)]; rfl
  | n + 1, key, i => by
    have h : dwordsAt m key (n + 1) = BitVec.ofNat 64 (leValue (Memory.readList m key 8)) :: dwordsAt m (key + 8) n := by
      unfold dwordsAt
      rw [Nat.mul_succ, Nat.add_comm (8 * n), readList_add]
      rfl
    rw [h]
    cases i with
    | zero => rfl
    | succ i =>
      rw [List.getD_cons_succ, dwordsAt_getD m n (key + 8) i, Nat.mul_succ, Nat.add_right_comm key, Nat.add_assoc key]
      simp only [Nat.succ_lt_succ_iff]
theorem reads_record {s : State} (c : CxCommand) (n : Nat) (he : s.pkg.eccBad = []) (hp : s.poisons = [])
    (h : recordPlaces s c (c.addr + 0) .load (256 * n / 256) = some (((List.range n).map fun i => kT + 256 * i).map fun x => .hbm x none)) :
    Performs (readRecord c 0 (256 * n)) s (some (dwordsAt s.mem kT (32 * n))) s := by
  unfold readRecord
  refine Laws.performs_bind (Laws.performs_getS _) ?_
  rw [h]
  refine Laws.performs_bind (reads_blocks he hp n kT) ?_
  rw [show 256 * n / 8 = 32 * n by omega, show 256 * n = 8 * (32 * n) by omega]
  exact Laws.performs_pure _ _

theorem reads_none {s : State} {c : CxCommand} {n : Nat} (h : recordPlaces s c (c.addr + 0) .load (n / 256) = none) : Performs (readRecord c 0 n) s none s := by
  refine Laws.performs_bind (Laws.performs_getS _) ?_
  rw [h]; exact Laws.performs_pure _ _
/-- The tables of context 1 as a walk on die 0 finds them, with no cached translation and no error about. -/
structure Mapped (s : State) : Prop where
  root : rootKey s 0 1 = hbmKey 0 0x100000
  level0 : memDw s (hbmKey 0 0x100000) = 0x8000000000000000
  next0 : memDw s (hbmKey 0 0x100000 + 8) = 0x200000
  level1 : memDw s (hbmKey 0 0x200000) = 0xE1E0000000000000
  next1 : memDw s (hbmKey 0 0x200000 + 8) = 0x50000000
  dies : s.dies = []
  ecc : s.pkg.eccBad = []
  poison : s.poisons = []
def bigLeaf : Leaf := { dw0 := 0xE1E0000000000000, dw1 := 0x50000000, page := 2 ^ 25 }
theorem reads_dw {s : State} (key : Nat) : Performs (readDw key) s (memDw s key) s :=
  Laws.performs_bind (Laws.performs_bind (Laws.performs_bind (Laws.performs_getS _) (Laws.performs_pure _ _)) (Laws.performs_pure _ _)) (Laws.performs_pure _ _)
theorem no_poison {s : State} (he : s.pkg.eccBad = []) (hp : s.poisons = []) (key n : Nat) : Performs (poisonedAt key n) s false s := by
  have hn : ((touched key n).any fun a => s.poisonAt a || (!isLs a && FMap.get false s.pkg.eccBad a)) = false := by
    simp [State.poisonAt, hp, he, FMap.get, FMap.get?]
  refine Laws.performs_bind (Laws.performs_getS _) ?_
  rw [hn]; exact Laws.performs_pure _ _
theorem walks_page {s : State} (h : Mapped s) (ea : Word) {a : Nat} (ha : a < 2 ^ 25) : Performs (walk ea a (hbmKey 0 0x100000) 0 4) s bigLeaf s := by
  have i0 : levelIndex a 0 = 0 := by simp only [levelIndex]; omega
  have i1 : levelIndex a 1 = 0 := by simp only [levelIndex]; omega
  unfold walk
  rw [i0]
  refine Laws.performs_bind (finds h.ecc _) (Laws.performs_bind (finds h.ecc _) (Laws.performs_bind (reads_dw _) (Laws.performs_bind (reads_dw _)
    (Laws.performs_bind (no_poison h.ecc h.poison _ _) ?_))))
  rw [Nat.mul_zero, Nat.add_zero, h.level0, h.next0]
  show Performs (walk ea a (hbmKey 0 0x200000) 1 3) s bigLeaf s
  unfold walk
  rw [i1]
  refine Laws.performs_bind (finds h.ecc _) (Laws.performs_bind (finds h.ecc _) (Laws.performs_bind (reads_dw _) (Laws.performs_bind (reads_dw _)
    (Laws.performs_bind (no_poison h.ecc h.poison _ _) ?_))))
  rw [Nat.mul_zero, Nat.add_zero, h.level1, h.next1]
  exact Laws.performs_pure _ _
theorem caches (e : TlbEntry) : ∀ (bs : List BankId) (s : State), ∃ s1, Performs (cacheLeaf e bs) s () s1
  | [], s => ⟨s, Laws.performs_pure _ _⟩
  | b :: bs, s => by
    unfold cacheLeaf
    by_cases h : (s.bank b).contains e = true
    · obtain ⟨s1, h1⟩ := caches e bs s
      refine ⟨s1, Laws.performs_bind (Laws.performs_getS _) ?_⟩
      rw [if_pos h]
      exact Laws.performs_bind (Laws.performs_pure _ _) h1
    · have hd : ∀ g : State → Die → Die, ∃ s1, Performs (do onDie b.die (g s); cacheLeaf e bs) s () s1 := fun g => by
        obtain ⟨s1, h1⟩ := caches e bs ((Eff.die b.die (g s)).apply s)
        exact ⟨s1, Laws.performs_bind (Laws.performs_emit _ _) h1⟩
      obtain ⟨s1, h1⟩ := hd fun s x =>
        { x with memPorts := FMap.set x.memPorts b.port { FMap.get {} x.memPorts b.port with banks := FMap.set (FMap.get {} x.memPorts b.port).banks b.bank ((s.bank b).drop ((s.bank b).length + 1 - (if b.port = 28 then 24576 else 1024)) ++ [e]) } }
      refine ⟨s1, Laws.performs_bind (Laws.performs_getS _) ?_⟩
      rw [if_neg h]
      exact h1
/-- The leaf of 32 MiB at address a of HBM. -/
theorem leaf_place (ea : Word) {a : Nat} (ha : a < 2 ^ 25) (s : State) : Performs (leafPlace ea 0 1 a bigLeaf false) s (.hbm (kT + a) none) s := by
  unfold leafPlace
  refine Laws.performs_bind (Laws.performs_getS _) (Laws.performs_bind (Laws.performs_check (by decide) _) ?_)
  have h1 : a % bigLeaf.page = a := Nat.mod_eq_of_lt ha
  have h2 : hbmKey 0 (bits bigLeaf.dw1 36 0 + 0 + a) = kT + a := by
    rw [show bits bigLeaf.dw1 36 0 = 0x50000000 by decide]
    show 2 ^ 40 + 0 * 2 ^ 37 + (0x50000000 + 0 + a) = _
    rw [show kT = 2 ^ 40 + 0x50000000 by decide]
    omega
  rw [h1, show bits bigLeaf.dw0 47 41 = 0 by decide, show bits bigLeaf.dw0 51 48 = 0 by decide, show bits bigLeaf.dw0 59 57 = 0 by decide,
    show bits bigLeaf.dw1 39 37 = 0 by decide]
  dsimp only
  rw [if_pos rfl]
  rw [show (if (decide ((0 : Nat) ≠ 0) && (s.pkg.selectors.contains (1 * 128 + 0) != false)) = true then bigLeaf.page else 0) = 0 by simp]
  rw [h2]
  exact Laws.performs_pure _ _
theorem places_page {s : State} (h : Mapped s) {a : Nat} (ha : a < 2 ^ 25) (need : Need) :
    ∃ s1, Performs (translate (BitVec.ofNat 64 a) 3584 1 (Level.ofCode 1) (a % 2 ^ 48) need hwSegment) s (.hbm (kT + a) none, false) s1 := by
  have hm : a % 2 ^ 48 = a := Nat.mod_eq_of_lt (by omega)
  rw [hm]
  have hc : cachedLeaves s 1 a (banksFor 3584 .core) = [] := by
    show ((((banksFor 3584 .core).flatMap s.bank).filter _).map _) = []
    rw [show (banksFor 3584 .core).flatMap s.bank = [] from ?_]; rfl
    show s.bank (lastLevel (dieOf 3584)) ++ [] = []
    unfold State.bank State.dieOf
    rw [h.dies]; rfl
  obtain ⟨s1, h1⟩ : ∃ s1, Performs (findLeaf (BitVec.ofNat 64 a) 3584 1 a .core) s bigLeaf s1 := by
    obtain ⟨s1, hs⟩ := caches { ctx := 1, lin := a / bigLeaf.page * bigLeaf.page, dw0 := bigLeaf.dw0, dw1 := bigLeaf.dw1 } (banksFor 3584 .core) s
    refine ⟨s1, Laws.performs_bind (Laws.performs_getS _) ?_⟩
    dsimp only
    rw [hc]
    refine Laws.performs_bind (Laws.performs_getS _) (Laws.performs_bind (?_ : Performs _ s bigLeaf s) (Laws.performs_bind hs (Laws.performs_pure _ _)))
    rw [show dieOf 3584 = 0 by decide, h.root]
    exact walks_page h _ ha
  refine ⟨s1,
    Laws.performs_bind (Laws.performs_bind h1 (Laws.performs_bind (Laws.performs_getS _) (Laws.performs_bind (Laws.performs_check (by decide) _)
    (Laws.performs_bind (Laws.performs_check ?_ _) (Laws.performs_bind (a := .hbm (kT + a) none) (s1 := s1) ?_ (?_ : Performs _ s1 (_,
      bigLeaf) s1)))))) (Laws.performs_pure _ _)⟩
  · cases need.rd <;> cases need.wr <;> cases need.at_ <;> decide
  · exact leaf_place _ ha s1
  · refine Laws.performs_bind (Laws.performs_check ?_ _) (Laws.performs_bind (Laws.performs_check ?_ _) (Laws.performs_pure _ _))
    · simp [inCodeWindow]
    · simp [inComputeText]
theorem record_places {s : State} (h : Mapped s) {c : CxCommand} (hi : c.issuer = 3584) (hx : c.ctx = 1) (hl : c.level = 1) (need : Need) :
    ∀ n a, a + 256 * n ≤ 2 ^ 25 → recordPlaces s c a need n = some (((List.range n).map fun i => kT + a + 256 * i).map fun x => .hbm x none)
  | 0, _, _ => rfl
  | n + 1, a, ha => by
    obtain ⟨s1, h1⟩ := places_page h (a := a) (by omega) need
    obtain ⟨es, h2, _⟩ := Laws.eval_of_performs h1
    have hr : ((List.range (n + 1)).map fun i => kT + a + 256 * i) = (kT + a) :: (List.range n).map fun i => kT + (a + 256) + 256 * i := by
      rw [List.range_succ_eq_map]
      simp only [List.map_cons, List.map_map, Nat.mul_zero, Nat.add_zero, List.cons.injEq, true_and]
      exact List.map_congr_left fun i _ => by simp only [Function.comp]; omega
    unfold recordPlaces
    rw [hi, hx, hl, h2]
    dsimp only
    rw [if_pos rfl, record_places h hi hx hl need n (a + 256) (by omega), hr]
    rfl
theorem left_places : recordPlaces leftSt saver (0 + 0) .store 72 = some (((List.range 72).map fun i => kT + 256 * i).map fun x => .hbm x none) :=
  record_places (s := leftSt) ⟨by decide +kernel, by decide +kernel, by decide +kernel, by decide +kernel, by decide +kernel, rfl, rfl,
    rfl⟩ rfl rfl rfl _ 72 0 (by decide)
theorem reads_mapped {s : State} (h : Mapped s) {n : Nat} (hn : 256 * n ≤ 2 ^ 25) : Performs (readRecord saver 0 (256 * n)) s (some (dwordsAt s.mem kT (32 * n))) s := by
  refine reads_record saver n h.ecc h.poison ?_
  rw [show 256 * n / 256 = n by omega]
  exact record_places h rfl rfl rfl .load n 0 (by omega)
/-- A record of a thread of context 1 at 0x100, with register values of 0, stands at linear address 0, or one of zeros. -/
def restoreSt (t : FMap Thread) (ws : List (Nat × Word)) : State := { threads := t, mem := mem (saveMem ++ ws) }
def goodWords : List (Nat × Word) := [(kT, 0x100000100), (kT + 8, 1)]
def allSlots : FMap Thread := (List.range 16).map fun i => (i, inCtx [])
theorem mapped (t : FMap Thread) (ws : List (Nat × Word)) (h : (rootKey (restoreSt t ws) 0 1 == hbmKey 0 0x100000 && memDw (restoreSt t ws) (hbmKey 0 0x100000) == 0x8000000000000000 &&
    memDw (restoreSt t ws) (hbmKey 0 0x100000 + 8) == 0x200000 && memDw (restoreSt t ws) (hbmKey 0 0x200000) == 0xE1E0000000000000 &&
    memDw (restoreSt t ws) (hbmKey 0 0x200000 + 8) == 0x50000000) = true) : Mapped (restoreSt t ws) := by
  simp only [Bool.and_eq_true, beq_iff_eq] at h
  exact ⟨h.1.1.1.1, h.1.1.1.2, h.1.1.2, h.1.2, h.2, rfl, rfl, rfl⟩
/-- The record of a core: every cell takes its input from cell 0, with M of 256. -/
def cellCells : Memory := (List.range 256).map fun i => (kT + 8 * (256 + i) + 7, 8)
def coreSt (good : Bool) : State := { mem := mem saveMem ++ if good then cellCells else [] }
theorem read_skip {l : Memory} {a : Nat} : ∀ (m : Memory), (∀ p ∈ m, p.1 ≠ a) → Memory.read (m ++ l) a = Memory.read l a
  | [], _ => rfl
  | (x, b) :: m, h => by
    have := h (x, b) List.mem_cons_self
    show (if x = a then b else Memory.read (m ++ l) a) = _
    rw [if_neg this, read_skip m fun p hp => h p (List.mem_cons_of_mem _ hp)]
theorem read_map (g : Nat → Nat) (a : Nat) : ∀ is : List Nat, Memory.read (is.map fun i => (g i, (8 : Byte))) a = if ∃ i ∈ is, g i = a then 8 else 0
  | [] => by simp [Memory.read, Memory.blank]
  | i :: is => by
    show (if g i = a then (8 : Byte) else Memory.read (is.map fun i => (g i, (8 : Byte))) a) = _
    rw [read_map g a is]
    by_cases h : g i = a <;> simp [h]
theorem read_core (a : Nat) : Memory.read (coreSt true).mem (kT + a) = if 2048 ≤ a ∧ a < 4096 ∧ a % 8 = 7 then 8 else 0 := by
  have h : ∀ p ∈ mem saveMem, p.1 ≠ kT + a := by
    have : ∀ p ∈ mem saveMem, p.1 < kT := by decide +kernel
    intro p hp e
    have := this p hp
    omega
  show Memory.read (mem saveMem ++ cellCells) (kT + a) = _
  rw [read_skip _ h]
  unfold cellCells
  rw [read_map]
  congr 1
  simp only [List.mem_range, eq_iff_iff]
  constructor
  · rintro ⟨i, hi, e⟩; omega
  · intro h; exact ⟨a / 8 - 256, by omega, by omega⟩
theorem core_word (i : Nat) : BitVec.ofNat 64 (leValue (Memory.readList (coreSt true).mem (kT + 8 * i) 8)) = if 256 ≤ i ∧ i < 512 then 0x0800000000000000 else 0 := by
  have h : ∀ j,
    Memory.read (coreSt true).mem (kT + 8 * i + j) = if 2048 ≤ 8 * i + j ∧ 8 * i + j < 4096 ∧ (8 * i + j) % 8 = 7 then 8 else 0 := fun j => by
    rw [Nat.add_assoc, read_core]
  have h0 : ∀ j, j < 7 → Memory.read (coreSt true).mem (kT + 8 * i + j) = 0 := fun j hj => by rw [h, if_neg (by omega)]
  show BitVec.ofNat 64 (leValue [Memory.read _ (kT + 8 * i + 0), Memory.read _ (kT + 8 * i + 1), Memory.read _ (kT + 8 * i + 2),
    Memory.read _ (kT + 8 * i + 3),
    Memory.read _ (kT + 8 * i + 4), Memory.read _ (kT + 8 * i + 5), Memory.read _ (kT + 8 * i + 6), Memory.read _ (kT + 8 * i + 7)]) = _
  rw [h0 0 (by decide), h0 1 (by decide), h0 2 (by decide), h0 3 (by decide), h0 4 (by decide), h0 5 (by decide), h0 6 (by decide), h 7]
  by_cases hi : 256 ≤ i ∧ i < 512
  · rw [if_pos hi, if_pos (by omega)]; rfl
  · rw [if_neg hi, if_neg (by omega)]; rfl
theorem core_dword (i : Nat) : (dwordsAt (coreSt true).mem kT (32 * 292)).getD i 0 = if 256 ≤ i ∧ i < 512 then 0x0800000000000000 else 0 := by
  rw [dwordsAt_getD, core_word]
  by_cases h : 256 ≤ i ∧ i < 512
  · rw [if_pos (by omega), if_pos h]
  · rw [if_neg h, ite_self]
theorem core_good : goodCoreRecord (dwordsAt (coreSt true).mem kT (32 * 292)) = true := by
  have cells : (List.range 256).all (fun i => goodEntry ((dwordsAt (coreSt true).mem kT (32 * 292)).getD (256 + i) 0) &&
      goodRecord ((dwordsAt (coreSt true).mem kT (32 * 292)).getD (512 + 2 * i) 0) ((dwordsAt (coreSt true).mem kT (32 * 292)).getD (513 + 2 * i) 0)) = true := by
    refine List.all_eq_true.mpr fun i hi => ?_
    have : i < 256 := List.mem_range.mp hi
    rw [core_dword, core_dword, core_dword, if_pos (by omega), if_neg (by omega), if_neg (by omega)]
    decide
  unfold goodCoreRecord
  rw [cells]
  simp only [core_dword]
  decide
theorem core_bad : goodCoreRecord (dwordsAt (coreSt false).mem kT (32 * 292)) = false := by
  have h : goodEntry ((dwordsAt (coreSt false).mem kT (32 * 292)).getD 256 0) = false := by
    rw [dwordsAt_getD]; decide +kernel
  have : (List.range 256).all (fun i => goodEntry ((dwordsAt (coreSt false).mem kT (32 * 292)).getD (256 + i) 0) &&
      goodRecord ((dwordsAt (coreSt false).mem kT (32 * 292)).getD (512 + 2 * i) 0) ((dwordsAt (coreSt false).mem kT (32 * 292)).getD (513 + 2 * i) 0)) = false :=
    List.all_eq_false.mpr ⟨0, by decide, by rw [Nat.add_zero, h]; simp⟩
  unfold goodCoreRecord
  rw [this]; rfl
theorem mapped_core : ∀ good, Mapped (coreSt good)
  | true => ⟨by decide +kernel, by decide +kernel, by decide +kernel, by decide +kernel, by decide +kernel, rfl, rfl, rfl⟩
  | false => ⟨by decide +kernel, by decide +kernel, by decide +kernel, by decide +kernel, by decide +kernel, rfl, rfl, rfl⟩
def coreIdle (c : Core) : State := { cores := [(0, c)], mem := mem saveMem }
def idled : State := after (quietDomains 0) (coreIdle { vt := 5 })
def coreGone : State := after (clearCore 0) idled
theorem core_taken : Performs (takeCore 0) idled (coreRecord (idled.coreOf 0), savedCoreOf (idled.coreOf 0)) coreGone :=
  Laws.performs_bind (Laws.performs_getC _ _) (Laws.performs_bind ⟨fx (clearCore 0) idled, rfl, fun _ => by cbv⟩ (Laws.performs_pure _ _))
def corePages : List Place := ((List.range 292).map fun i => kT + 256 * i).map fun x => .hbm x none
theorem core_places {c : Core} (h : Mapped (coreIdle c)) : recordPlaces (coreIdle c) saver (0 + 0) .store 292 = some corePages := record_places h rfl rfl rfl _ 292 0 (by decide)
theorem mapped_idle : Mapped (coreIdle { vt := 5 }) := ⟨by decide +kernel, by decide +kernel, by decide +kernel, by decide +kernel,
  by decide +kernel, rfl, rfl, rfl⟩
/-- A core whose domain 1 is in a step. -/
def inStep : Core := { dda := { doms := [(1, { run := true, stepEnd := 3 })] } }
theorem mapped_step : Mapped (coreIdle inStep) := ⟨by decide +kernel, by decide +kernel, by decide +kernel, by decide +kernel, by decide +kernel,
  rfl, rfl, rfl⟩

theorem meets_ThreadRecords_1 :
  ∃ (s : State) (k slot : Nat) (t : Thread) (pc : BitVec 16) (sv : Option Saved), t.ctx < 2 ^ 16 ∧ t.annul < 4 ∧ t.depth < 2 ^ 32 ∧
    t.icnt < 2 ^ 64 ∧ t.shape.es < 4 ∧ t.shape.gc < 2 ^ 16 ∧ t.shape.gr < 2 ^ 16 ∧ t.shape.ac < 2 ^ 16 ∧ t.shape.ar < 2 ^ 16 ∧ ∃ i, i < 32 := by
  refine ⟨st, 0, 3, inCtx [(8, full 5)], 0x104, none, ?_, ?_, ?_, ?_, ?_, ?_, ?_, ?_, ?_, 31, ?_⟩
  all_goals decide

theorem meets_ThreadRecords_2 :
  ∃ (s : State) (k slot : Nat) (t : Thread) (pc : BitVec 16) (sv : Option Saved), t.ctx < 2 ^ 16 ∧ t.annul < 4 ∧ t.depth < 2 ^ 32 ∧
    t.icnt < 2 ^ 64 ∧ t.shape.es < 4 ∧ t.shape.gc < 2 ^ 16 ∧ t.shape.gr < 2 ^ 16 ∧ t.shape.ac < 2 ^ 16 ∧ t.shape.ar < 2 ^ 16 ∧ ∃ n j,
      n < 8 ∧ j < 8 := by
  refine ⟨st, 0, 3, inCtx [(8, full 5)], 0x104, none, ?_, ?_, ?_, ?_, ?_, ?_, ?_, ?_, ?_, 7, 7, ?_, ?_⟩
  all_goals decide

theorem meets_ThreadRecords_3 :
  ∃ (s : State) (k slot : Nat) (t : Thread) (pc : BitVec 16) (sv : Option Saved), t.ctx < 2 ^ 16 ∧ t.annul < 4 ∧ t.depth < 2 ^ 32 ∧
    t.icnt < 2 ^ 64 ∧ t.shape.es < 4 ∧ t.shape.gc < 2 ^ 16 ∧ t.shape.gr < 2 ^ 16 ∧ t.shape.ac < 2 ^ 16 ∧ t.shape.ar < 2 ^ 16 ∧ ∃ i, i < 0x4000 := by
  refine ⟨st, 0, 3, inCtx [(8, full 5)], 0x104, none, ?_, ?_, ?_, ?_, ?_, ?_, ?_, ?_, ?_, 0x3FFF, ?_⟩
  all_goals decide

theorem meets_ThreadSave_1 :
  ∃ (s : State) (c : CxCommand), let id := tidOf c.core c.slot; let h := s.thread id;
    let mine : Bool := c.level ≠ 1 || ctxPart s (dieOf c.core) h.ctx = ctxPart s (dieOf c.issuer) c.ctx;
    (s.occupied id = false ∨ h.uid ≠ c.uid ∨ mine = false) := by
  exact ⟨saveSt savedT, saves 0 3 1 false 0, .inl rfl⟩

theorem meets_ThreadSave_1b :
  ∃ (s : State) (c : CxCommand), let id := tidOf c.core c.slot; let h := s.thread id;
    let mine : Bool := c.level ≠ 1 || ctxPart s (dieOf c.core) h.ctx = ctxPart s (dieOf c.issuer) c.ctx;
    (s.occupied id = false ∨ h.uid ≠ c.uid ∨ mine = false) := by
  exact ⟨saveSt savedT, saves 0 3 1 true 0, .inl rfl⟩

theorem meets_ThreadSave_1c :
  ∃ (s : State) (c : CxCommand), let id := tidOf c.core c.slot; let h := s.thread id;
    let mine : Bool := c.level ≠ 1 || ctxPart s (dieOf c.core) h.ctx = ctxPart s (dieOf c.issuer) c.ctx;
    (s.occupied id = false ∨ h.uid ≠ c.uid ∨ mine = false) := by
  exact ⟨saveSt savedT, saves 0 0 2 false 0, .inr (.inl (by decide))⟩

theorem meets_ThreadSave_2 :
  ∃ (s : State) (c : CxCommand), let id := tidOf c.core c.slot; let h := s.thread id;
    let mine : Bool := c.level ≠ 1 || ctxPart s (dieOf c.core) h.ctx = ctxPart s (dieOf c.issuer) c.ctx; s.occupied id = true ∧ h.uid = c.uid ∧
    mine = true ∧ (∀ n, h.status ≠ .parked .graft n) ∧ noThread s id = false ∧ c.grafting = false ∧
    recordPlaces s c c.addr .store (recordCount s h * 72) = none := by
  refine ⟨saveSt savedT, saves 0 0 1 false 0x2000000, ?_, ?_, ?_, ?_, ?_, ?_, ?_⟩
  all_goals first | (intro n h; cases h) | decide +kernel

theorem meets_ThreadSave_3 :
  ∃ (s : State) (c : CxCommand), let id := tidOf c.core c.slot; let h := s.thread id;
    let mine : Bool := c.level ≠ 1 || ctxPart s (dieOf c.core) h.ctx = ctxPart s (dieOf c.issuer) c.ctx; s.occupied id = true ∧ h.uid = c.uid ∧
    mine = true ∧ (∀ n, h.status ≠ .parked .graft n) ∧ noThread s id = false ∧ c.grafting = false ∧ ∃ s1,
    (recordPlaces s c c.addr .store (recordCount s h * 72)).isSome = true ∧ Performs (takeThread id) s none s1 := by
  refine ⟨saveSt { savedT with outstanding := [(4, { cls := 1 })] }, saver, ?_, ?_, ?_, ?_, ?_, ?_,
    after (takeThread 0) (saveSt { savedT with outstanding := [(4, { cls := 1 })] }), ?_, ?_⟩
  all_goals first | (intro n h; cases h) | decide +kernel | exact ⟨_, rfl, fun _ => rfl⟩

theorem meets_ThreadSave_4 :
  ∃ (s : State) (c : CxCommand), let id := tidOf c.core c.slot; let h := s.thread id;
    let mine : Bool := c.level ≠ 1 || ctxPart s (dieOf c.core) h.ctx = ctxPart s (dieOf c.issuer) c.ctx; s.occupied id = true ∧ h.uid = c.uid ∧
    mine = true ∧ (∀ n, h.status ≠ .parked .graft n) ∧ noThread s id = false ∧ c.grafting = false ∧ ∃ rs s1 s2,
    (recordPlaces s c c.addr .store (recordCount s h * 72)).isSome = true ∧ Performs (takeThread id) s (some rs) s1 ∧
    Performs (writeRecords c 0 rs) s1 () s2 := by
  obtain ⟨s2, h⟩ := writesOne saver takenRec.1 takenRec.2 _ left_places rfl (quiet_all rfl)
  exact ⟨saveSt savedT, saver, rfl, rfl, by decide +kernel, (by intro n h; cases h), by decide +kernel, rfl, [takenRec], leftSt, s2,
    by decide +kernel, saved_taken, h⟩

theorem meets_ThreadTaken_1 :
  ∃ (s : State) (id : Nat), s.occupied id = true ∧ (s.thread id).iter = none ∧ (s.thread id).col = none ∧ (s.thread id).mwaitDst = .none ∧
    ((s.coreOf (id / 16)).rings.find? fun p => p.2.owner = id % 16 && !p.2.slots.isEmpty) = none ∧ (s.thread id).status = .ready ∧
    (s.thread id).bound = .none ∧ (s.thread id).annul = 0 ∧ (s.thread id).wbase = (s.thread id).depth ∧ Unregistered s id ∧
    drained (s.thread id) = false := by
  refine ⟨saveSt { savedT with outstanding := [(4, { cls := 1 })] }, 0, ?_, ?_, ?_, ?_, ?_, ?_, ?_, ?_, ?_, ?_, ?_⟩
  all_goals first | (intro p hp; cases hp) | decide

theorem meets_ThreadTaken_2 :
  ∃ (s : State) (id : Nat), s.occupied id = true ∧ (s.thread id).iter = none ∧ (s.thread id).col = none ∧ (s.thread id).mwaitDst = .none ∧
    ((s.coreOf (id / 16)).rings.find? fun p => p.2.owner = id % 16 && !p.2.slots.isEmpty) = none ∧ (s.thread id).status = .ready ∧
    (s.thread id).bound = .none ∧ (s.thread id).annul = 0 ∧ (s.thread id).wbase = (s.thread id).depth ∧ Unregistered s id ∧
    drained (s.thread id) = true ∧ (s.thread id).pc = pcNorm (s.thread id).pc := by
  refine ⟨saveSt savedT, 0, ?_, ?_, ?_, ?_, ?_, ?_, ?_, ?_, ?_, ?_, ?_, ?_⟩
  all_goals first | (intro p hp; cases hp) | decide

theorem meets_ThreadRestore_1 :
  ∃ (s s1 : State) (c : CxCommand) (w : List Word), Performs (readRecord c 0 threadBytes) s none s1 := by
  exact ⟨restoreSt [] [], restoreSt [] [], saves 0 0 1 false 0x2000000, [], reads_none (by decide +kernel)⟩

theorem meets_ThreadRestore_2 :
  ∃ (s s1 : State) (c : CxCommand) (w : List Word), Performs (readRecord c 0 threadBytes) s (some w) s1 ∧
    (goodThreadRecord c.core c.level w = false ∨ bit (w.getD 0 0) 20 = true) := by
  exact ⟨restoreSt [] [], restoreSt [] [], saver, dwordsAt (restoreSt [] []).mem kT (32 * 72),
    reads_mapped (n := 72) (mapped _ _ (by decide +kernel)) (by decide), .inl (by simp only [goodThreadRecord, dwordsAt_getD]; decide +kernel)⟩

theorem meets_ThreadRestore_3 :
  ∃ (s s1 : State) (c : CxCommand) (w : List Word), Performs (readRecord c 0 threadBytes) s (some w) s1 ∧
    let slots := if leaving s1 (bits (w.getD 0 0) 47 32) c.core then [] else openSlots s1 c.core; goodThreadRecord c.core c.level w = true ∧
    bits (w.getD 0 0) 20 18 = 0 ∧ slots = [] := by
  exact ⟨restoreSt allSlots goodWords, restoreSt allSlots goodWords, saver, dwordsAt (restoreSt allSlots goodWords).mem kT (32 * 72),
    reads_mapped (n := 72) (mapped _ _ (by decide +kernel)) (by decide), by simp only [goodThreadRecord, dwordsAt_getD]; decide +kernel,
      by simp only [dwordsAt_getD]; decide +kernel, by simp only [dwordsAt_getD]; decide +kernel⟩

theorem meets_ThreadRestore_4 :
  ∃ (s s1 : State) (c : CxCommand) (w : List Word), Performs (readRecord c 0 threadBytes) s (some w) s1 ∧
    let slots := if leaving s1 (bits (w.getD 0 0) 47 32) c.core then [] else openSlots s1 c.core; goodThreadRecord c.core c.level w = true ∧
    bits (w.getD 0 0) 20 18 = 0 ∧ ∃ slot, (if slots.contains c.slot then some c.slot else slots.head?) = some slot ∧
    findSaved s1.pkg.saved (·.record) (recordKey s1 c 0) w = none ∧ ctxValid s1 (dieOf c.core) (bits (w.getD 0 0) 47 32) = true := by
  exact ⟨restoreSt [] goodWords, restoreSt [] goodWords, saver, dwordsAt (restoreSt [] goodWords).mem kT (32 * 72),
    reads_mapped (n := 72) (mapped _ _ (by decide +kernel)) (by decide), by simp only [goodThreadRecord, dwordsAt_getD]; decide +kernel,
      by simp only [dwordsAt_getD]; decide +kernel, 0, by simp only [dwordsAt_getD]; decide +kernel, rfl,
        by simp only [dwordsAt_getD]; decide +kernel⟩

theorem meets_CoreSave_1 :
  ∃ (s : State) (c : CxCommand), slotsEmpty s c.core = false := by
  refine ⟨saveSt savedT, saver, ?_⟩
  all_goals decide +kernel

theorem meets_CoreSave_2 :
  ∃ (s : State) (c : CxCommand), slotsEmpty s c.core = true ∧ recordPlaces s c c.addr .store 292 = none := by
  refine ⟨saveSt savedT, saves 1 0 1 false 0x2000000, ?_, ?_⟩
  all_goals decide +kernel

theorem meets_CoreSave_3 :
  ∃ (s : State) (c : CxCommand), ∃ s1, slotsEmpty s c.core = true ∧ (recordPlaces s c c.addr .store 292).isSome = true ∧
    Performs (quietDomains c.core) s false s1 := by
  exact ⟨coreIdle inStep, saver, after (quietDomains 0) (coreIdle inStep), by decide +kernel,
    (congrArg Option.isSome (core_places mapped_step)).trans rfl, ⟨fx (quietDomains 0) (coreIdle inStep), rfl, fun _ => by cbv⟩⟩

theorem meets_CoreSave_4 :
  ∃ (s : State) (c : CxCommand), ∃ ps s1 s2 s3, slotsEmpty s c.core = true ∧ recordPlaces s c c.addr .store 292 = some ps ∧
    Performs (quietDomains c.core) s true s1 ∧ Performs (takeCore c.core) s1 (coreRecord (s1.coreOf c.core), savedCoreOf (s1.coreOf c.core)) s2 ∧
    Performs (writeBlocks ps (wordBytes (coreRecord (s1.coreOf c.core)))) s2 () s3 := by
  obtain ⟨s3,
    h⟩ := writesBlocks (((List.range 292).map fun i => kT + 256 * i)) (wordBytes (coreRecord (idled.coreOf 0))) (s := coreGone) rfl (quiet_all rfl)
  exact ⟨coreIdle { vt := 5 }, saver, corePages, idled, coreGone, s3, by decide +kernel, core_places mapped_idle,
    ⟨fx (quietDomains 0) (coreIdle { vt := 5 }), rfl, fun _ => by cbv⟩, core_taken, h⟩

theorem meets_CoreRestore_1 :
  ∃ (s s1 : State) (c : CxCommand) (w : List Word), Performs (readRecord c 0 coreBytes) s none s1 := by
  exact ⟨coreSt false, coreSt false, saves 0 0 1 false 0x2000000, [], reads_none (by decide +kernel)⟩

theorem meets_CoreRestore_2 :
  ∃ (s s1 : State) (c : CxCommand) (w : List Word), Performs (readRecord c 0 coreBytes) s (some w) s1 ∧ goodCoreRecord w = false := by
  exact ⟨coreSt false, coreSt false, saver, dwordsAt (coreSt false).mem kT (32 * 292), reads_mapped (n := 292) (mapped_core _) (by decide), core_bad⟩

theorem meets_CoreRestore_3 :
  ∃ (s s1 : State) (c : CxCommand) (w : List Word), let k := c.core; Performs (readRecord c 0 coreBytes) s (some w) s1 ∧ goodCoreRecord w = true ∧
    (s1.coreOf k).isSealed = false ∧ (∀ p ∈ s1.cores, p.2.receivers = [] ∧ p.2.sendq = [] ∧ p.2.ddaq = []) := by
  exact ⟨coreSt true, coreSt true, saver, dwordsAt (coreSt true).mem kT (32 * 292), reads_mapped (n := 292) (mapped_core _) (by decide), core_good,
    rfl, by intro p hp; cases hp⟩

/-! ## Worked results of the spec -/

/-- The thread after one instruction of a thread with some registers and a predicate word. -/
def run1 (i : Instr) (pw : BitVec 32) (regs : FMap Reg) : Option Thread :=
  match exec i (machine [(0, { user regs with pw := pw })]) with
  | .next t => some (t.thread 0)
  | _ => none
/-- A register, and the carry and overflow bits. -/
def sees (o : Option Thread) (n : Nat) : Option (Word × Bool × Bool) := o.map fun t => ((FMap.get {} t.regs n).val, bit t.pw 16, bit t.pw 17)
def sees1 (o : Option Thread) (n : Nat) : Option Word := o.map fun t => (FMap.get {} t.regs n).val

/-- 11 R192: the low doublewords of all ones and 1. -/
theorem test_add_low : sees (run1 (.add 10 2 3 false false) 1 [(2, full 0xFFFFFFFFFFFFFFFF), (3, full 1)]) 10 = some (0, true,
  false) := by decide +kernel
/-- 11 R192: the high doublewords 1 and 2 with the carry. -/
theorem test_addc_high : sees (run1 (.addc 11 4 5 false false) 0x10001 [(4, full 1), (5, full 2)]) 11 = some (4, false, false) := by decide +kernel
/-- 11 R192: the greatest signed value and 1 overflow. -/
theorem test_add_overflows : sees (run1 (.add 8 8 9 false false) 1 [(8, full 0x7FFFFFFFFFFFFFFF), (9, full 1)]) 8 = some (0x8000000000000000, false,
  true) := by decide +kernel
/-- 11 R194: division by zero and of the least value by -1 have stated results. -/
theorem test_remu_by_zero : (divuOf 7 0, remuOf 7 0, divOf 0x8000000000000000 0xFFFFFFFFFFFFFFFF) = (0xFFFFFFFFFFFFFFFF, 7,
  0x8000000000000000) := by decide
/-- 10 R183: LDI sign-extends 19 bits. -/
theorem test_ldi_sign : sees1 (run1 (.ldi 8 0x7FFFF) 1 []) 8 = some 0xFFFFFFFFFFFFFFFF := by decide +kernel
/-- The worked program of chapter 16: LDI bound to IMM 0x27, PACK6 and UNPK6 (10 R185, 16 R304, R305). -/
theorem test_ldi_bound :
    sees1 (match exec (.ldi 8 0x7152B) (machine [(0, { user [] with bound := .imm 0x27 })]) with | .next t => some (t.thread 0) | _ => none) 8 =
      some 0x013F152B := by decide +kernel
theorem test_pack6 : sees1 (run1 (.pack6 9 8 104 false false) 1 [(8, full 0x013F152B)]) 9 = some 0x7F56B := by decide +kernel
theorem test_unpk6 : sees1 (run1 (.unpk6 10 9 104 false false) 1 [(9, full 0x7F56B)]) 10 = some 0x013F152B := by decide +kernel
/-- The worked program of chapter 16: LGENC and LGDEC (16 R306, R307). -/
theorem test_lgenc : sees1 (run1 (.lgenc 12 11 104 false false) 1 [(11, full 0xC040000040000000)]) 12 = some 0x2604 := by decide +kernel
theorem test_lgdec : sees1 (run1 (.lgdec 13 12 104 false false) 1 [(12, full 0x2604)]) 13 = some 0xC035040040000000 := by decide +kernel

end Sys2Proof.Tests
end

section
/-! PROOFS. Finite maps after a change, the parts of a state after an effect, the calendar after a plan, and the reads and effects of a meaning. -/

namespace Sys2Proof.Laws

open Sys2Proof.Machine Sys2Proof.Safety

/-! ## Finite maps and the parts of a state -/

theorem get_set {α : Type} (d : α) (m : FMap α) (i j : Nat) (x : α) :
    FMap.get d (FMap.set m i x) j = if j = i then x else FMap.get d m j := by
  unfold FMap.get; rw [get?_set]; split <;> rfl

@[simp] theorem get_set_same {α : Type} (d : α) (m : FMap α) (i : Nat) (x : α) : FMap.get d (FMap.set m i x) i = x := by
  rw [get_set, if_pos rfl]

@[simp] theorem get?_set_same {α : Type} (m : FMap α) (i : Nat) (x : α) : FMap.get? (FMap.set m i x) i = some x := by
  rw [get?_set, if_pos rfl]

theorem dieOf_die (d e : Nat) (f : Die → Die) (s : State) :
    ((Eff.die d f).apply s).dieOf e = if e = d then f (s.dieOf d) else s.dieOf e := get_set ..

@[simp] theorem dieOf_die_same (d : Nat) (f : Die → Die) (s : State) : ((Eff.die d f).apply s).dieOf d = f (s.dieOf d) := get_set_same ..

theorem coreOf_core (k j : Nat) (f : Core → Core) (s : State) :
    ((Eff.core k f).apply s).coreOf j = if j = k then f (s.coreOf k) else s.coreOf j := get_set ..

@[simp] theorem coreOf_core_same (k : Nat) (f : Core → Core) (s : State) : ((Eff.core k f).apply s).coreOf k = f (s.coreOf k) := get_set_same ..

/-- The parts of a state that an effect on something else leaves alone. -/
@[simp] theorem dieOf_clock (f : Clock → Clock) (d : Nat) (s : State) : ((Eff.clock f).apply s).dieOf d = s.dieOf d := rfl
@[simp] theorem dieOf_pkg (f : Pkg → Pkg) (d : Nat) (s : State) : ((Eff.pkg f).apply s).dieOf d = s.dieOf d := rfl

/-! ## The calendar -/

theorem mem_insertDue {d e : Due} {es : List Due} : e ∈ insertDue d es ↔ e = d ∨ e ∈ es := by
  induction es with
  | nil => simp [insertDue]
  | cons x xs ih =>
    unfold insertDue
    split
    · simp
    · rw [List.mem_cons, List.mem_cons, ih]; exact or_left_comm

/-- What has just been planned is due. -/
theorem due_planned (s : State) (n : Nat) (i : Instr) : Safety.Due ((Eff.clock fun c => c.plan n i).apply s) (s.clock.now + n) i :=
  ⟨_, mem_insertDue.mpr (.inl rfl), rfl, rfl⟩

/-- A plan leaves what was due before. -/
theorem due_kept {s : State} {t n : Nat} {i j : Instr} (h : Safety.Due s t i) : Safety.Due ((Eff.clock fun c => c.plan n j).apply s) t i := by
  obtain ⟨e, he, h⟩ := h
  exact ⟨e, mem_insertDue.mpr (.inr he), h⟩

/-! ## Reads of a state's parts, and effects on them -/

theorem performs_getD (d : Nat) (s : State) : Performs (getD d) s (s.dieOf d) s := ⟨[], rfl, fun _ => rfl⟩
theorem performs_onDie (d : Nat) (f : Die → Die) (s : State) : Performs (onDie d f) s () ((Eff.die d f).apply s) := performs_emit _ s
theorem performs_onCore (k : Nat) (f : Core → Core) (s : State) : Performs (onCore k f) s () ((Eff.core k f).apply s) := performs_emit _ s
theorem performs_onPkg (f : Pkg → Pkg) (s : State) : Performs (onPkg f) s () ((Eff.pkg f).apply s) := performs_emit _ s
theorem performs_plan (n : Nat) (i : Instr) (s : State) : Performs (plan n i) s () ((Eff.clock fun c => c.plan n i).apply s) := performs_emit _ s
theorem performs_thr (id : Nat) (f : Thread → Thread) (s : State) : Performs (thr id f) s () ((Eff.thr id f).apply s) := performs_emit _ s

theorem performs_ite_pos {α : Type} {c : Prop} [Decidable c] {m n : M α} {s s1 : State} {a : α} (hc : c) (h : Performs m s a s1) :
    Performs (if c then m else n) s a s1 := by rwa [if_pos hc]

theorem performs_ite_neg {α : Type} {c : Prop} [Decidable c] {m n : M α} {s s1 : State} {a : α} (hc : ¬c) (h : Performs n s a s1) :
    Performs (if c then m else n) s a s1 := by rwa [if_neg hc]

/-- An event that the model refuses. -/
theorem event_refused {m : M Unit} {s : State} {r : Refusal} (h : Stops m s (.refuse r)) : event m s = .refused r := by
  have := eval_of_stops h
  simp only [event, this]

end Sys2Proof.Laws
end

section
/-! PROOFS. Fields of words: margins (26 R393) and the registers of lanes (26 R392). -/

namespace Sys2Proof.Laws

open Sys2Proof.Machine Sys2Proof.Safety

/-! ## Fields of words -/

theorem bits_ofNat (n hi lo : Nat) : bits (BitVec.ofNat 64 n) hi lo = n % 2 ^ 64 / 2 ^ lo % 2 ^ (hi + 1 - lo) := by
  simp [bits]

theorem bits_lt {w : Nat} (x : BitVec w) (hi lo : Nat) : bits x hi lo < 2 ^ (hi + 1 - lo) := Nat.mod_lt _ (Nat.two_pow_pos _)

/-- A bit of a word, as a field of one bit. -/
theorem bit_eq_bits {w : Nat} (x : BitVec w) (i : Nat) : bit x i = decide (bits x i i = 1) := by
  rw [bit, BitVec.getLsbD, Nat.testBit_eq_decide_div_mod_eq, bits, Nat.add_sub_cancel_left, Nat.pow_one]

/-! ## Margins (26 R393) -/

theorem clampMargin_lt (v : Word) (lo : Nat) : clampMargin v lo < 256 := (BitVec.ofInt 8 _).isLt

/-- A field of SMARG as a number is the written one, kept within 10. -/
theorem toInt_clampMargin (v : Word) (lo : Nat) :
    (BitVec.ofNat 8 (clampMargin v lo)).toInt = max (-10) (min 10 (BitVec.ofNat 8 (bits v (lo + 7) lo)).toInt) := by
  unfold clampMargin
  generalize (BitVec.ofNat 8 (bits v (lo + 7) lo)).toInt = x
  rw [BitVec.ofNat_toNat, BitVec.setWidth_eq, BitVec.toInt_ofInt, Int.bmod_eq_of_le] <;> grind

/-- Four bytes in a word. -/
theorem bits_fourBytes {a b c d : Nat} (ha : a < 256) (hb : b < 256) (hc : c < 256) (hd : d < 256) :
    let w : Word := BitVec.ofNat 64 (d * 2 ^ 24 + c * 2 ^ 16 + b * 2 ^ 8 + a)
    bits w 63 32 = 0 ∧ bits w 7 0 = a ∧ bits w 15 8 = b ∧ bits w 23 16 = c ∧ bits w 31 24 = d := by
  simp only [bits_ofNat]; omega

theorem smarg_written {s : State} (d : Nat) (v : Word) (h : s.pkg.margining = true) :
    ∃ w : Word, Performs (setSmarg d v) s () ((Eff.die d fun x => { x with smarg := w }).apply s) ∧ bits w 63 32 = 0 ∧ ∀ i, i < 4 →
      (BitVec.ofNat 8 (bits w (8 * i + 7) (8 * i))).toInt = max (-10) (min 10 (BitVec.ofNat 8 (bits v (8 * i + 7) (8 * i))).toInt) := by
  obtain ⟨h4, h0, h1, h2, h3⟩ := bits_fourBytes (clampMargin_lt v 0) (clampMargin_lt v 8) (clampMargin_lt v 16) (clampMargin_lt v 24)
  refine ⟨_, performs_bind (performs_getS s) (performs_ite_pos h (performs_onDie ..)), h4, fun i hi => ?_⟩
  match i, hi with
  | 0, _ => exact (congrArg (fun n => (BitVec.ofNat 8 n).toInt) h0).trans (toInt_clampMargin v 0)
  | 1, _ => exact (congrArg (fun n => (BitVec.ofNat 8 n).toInt) h1).trans (toInt_clampMargin v 8)
  | 2, _ => exact (congrArg (fun n => (BitVec.ofNat 8 n).toInt) h2).trans (toInt_clampMargin v 16)
  | 3, _ => exact (congrArg (fun n => (BitVec.ofNat 8 n).toInt) h3).trans (toInt_clampMargin v 24)

/-! ## Lane margins (26 R392) -/

/-- The register of a lane of a port of a die, and the state with it replaced. -/
def lmargOf (s : State) (d p l : Nat) : Word := FMap.get 0 (FMap.get {} (s.dieOf d).ports p).lmarg l
def withLmarg (d p l : Nat) (f : Word → Word) (s : State) : State :=
  (Eff.die d fun x =>
    let q := FMap.get {} x.ports p
    { x with ports := FMap.set x.ports p { q with lmarg := FMap.set q.lmarg l (f (FMap.get 0 q.lmarg l)) } }).apply s

theorem lmargOf_withLmarg (d p l : Nat) (f : Word → Word) (s : State) :
    lmargOf (withLmarg d p l f s) d p l = f (lmargOf s d p l) := by
  rw [lmargOf, withLmarg, dieOf_die_same, get_set_same, get_set_same]; rfl

/-- What a written 1 in GO makes of a lane whose GO is clear. -/
def dwelling (old : Word) : Word :=
  BitVec.ofNat 64 (2 ^ 63 + bits (putBits old 63 63 1) 55 40 * 2 ^ 40 + bits old 31 0)

theorem bits_putBits_go {old : Word} (h : bit old 63 = false) :
    bits (putBits old 63 63 1) 63 63 = 1 ∧ bits (putBits old 63 63 1) 55 40 = bits old 55 40 := by
  have hold := old.isLt
  have hgo : bits old 63 63 = 0 := by
    have := bits_lt old 63 63
    rw [bit_eq_bits, decide_eq_false_iff_not] at h
    omega
  simp only [putBits, bits_ofNat, hgo, Nat.zero_mul, Nat.sub_zero]
  simp only [bits] at hgo ⊢
  omega

theorem dwelling_fields {old : Word} (h : bit old 63 = false) :
    bit (dwelling old) 63 = true ∧ bit (dwelling old) 62 = false ∧ bits (dwelling old) 55 40 = bits old 55 40 := by
  have hlo := bits_lt old 31 0
  have hoff := bits_lt old 55 40
  simp only [bit_eq_bits, dwelling, bits_ofNat, (bits_putBits_go h).2, decide_eq_true_eq, decide_eq_false_iff_not]
  omega

/-- What the end of a dwell leaves in a lane's register: the offsets, DONE and the errors. -/
def dwelt (old : Word) (e : BitVec 32) : Word := BitVec.ofNat 64 (2 ^ 62 + bits old 55 40 * 2 ^ 40 + e.toNat)

theorem dwelt_fields (old : Word) (e : BitVec 32) :
    bit (dwelt old e) 63 = false ∧ bit (dwelt old e) 62 = true ∧ bits (dwelt old e) 55 40 = bits old 55 40 ∧ bits (dwelt old e) 31 0 = e.toNat := by
  have he := e.isLt
  have hoff := bits_lt old 55 40
  simp only [bit_eq_bits, dwelt, bits_ofNat, decide_eq_true_eq, decide_eq_false_iff_not]
  omega

/-- LMARG is left as it stands while a dwell runs. -/
theorem performs_setLmarg_busy {d p l : Nat} {v : Word} {s : State} (h : bit (lmargOf s d p l) 63 = true) : Performs (setLmarg d p l v) s () s :=
  performs_bind (performs_getD d s) (performs_ite_pos h (performs_pure _ s))

/-- A 1 written to GO starts a dwell. -/
theorem performs_setLmarg_go {d p l : Nat} {s : State} (h : bit (lmargOf s d p l) 63 = false) :
    Performs (setLmarg d p l (putBits (lmargOf s d p l) 63 63 1)) s ()
      ((Eff.clock fun c => c.plan (2 ^ 20) (.laneMarginDwellEnd (4 * d + p) l)).apply (withLmarg d p l (fun _ => dwelling (lmargOf s d p l)) s)) := by
  have hgo : bit (putBits (lmargOf s d p l) 63 63 1) 63 = true := by rw [bit_eq_bits]; exact decide_eq_true (bits_putBits_go h).1
  refine performs_bind (performs_getD d s) (performs_ite_neg (Bool.eq_false_iff.mp h) ?_)
  simp only [hgo, if_true, b2n, Nat.one_mul, Nat.add_zero]
  exact performs_bind (performs_onDie ..) (performs_plan ..)

end Sys2Proof.Laws
end

section
/-! PROOFS. Registers that the management port, a supervisor or a store writes (00 R4, 05 R99, R101, 22 R326, 26 R388, R392, R393). -/

namespace Sys2Proof.Boot

open Sys2Proof.Machine Sys2Proof.Safety Sys2Proof.Laws

/-! ## Registers that are written from outside a program -/

/-- A fuse, or an enable, takes its value. -/
theorem exec_svnfuseWrite (d : Nat) (v : Word) (s : State) :
    exec (.svnfuseWrite d v) s = .next ((Eff.die d fun x => { x with svnfuse := max x.svnfuse (min 64 v.toNat) }).apply s) :=
  event_next (performs_onDie ..)

theorem exec_marginingEnable (on : Bool) (s : State) :
    exec (.marginingEnable on) s = .next ((Eff.pkg fun p => { p with margining := on }).apply s) :=
  event_next (performs_onPkg ..)

theorem exec_smargWrite_off {d : Nat} {v : Word} {s : State} (h : s.pkg.margining = false) : exec (.smargWrite d v) s = .next s :=
  event_next (performs_bind (performs_getS s) (performs_ite_neg (by simp [h]) (performs_pure _ s)))

/-- The weight store's mode is left alone where nothing changes or a change is pending (05 R99). -/
theorem exec_wsmodeWrite_still {d : Nat} {v : Word} {s : State} (h : bit v 0 = (s.dieOf d).wsServing ∨ (s.dieOf d).wsPend = true) :
    exec (.wsmodeWrite d v) s = .next s :=
  event_next (performs_bind (performs_getD d s) (performs_ite_pos (by simpa using h) (performs_pure _ s)))

/-- A change of the weight store's mode drains first (05 R99; what it waits for is assumption 39). -/
theorem exec_wsmodeWrite_change {d : Nat} {v : Word} {s : State} (h : bit v 0 ≠ (s.dieOf d).wsServing) (hp : (s.dieOf d).wsPend = false) :
    exec (.wsmodeWrite d v) s = .next ((Eff.clock fun c => c.plan 0 (.wsmodeDrainEnd d)).apply
      ((Eff.die d fun x => { x with wsPend := true }).apply s)) :=
  event_next (performs_bind (performs_getD d s) (performs_ite_neg (by simp [h, hp]) (performs_bind (performs_onDie ..) (performs_plan ..))))

theorem exec_tqbWrite_trap (k : Nat) (v : Word) (s : State) :
    exec (.tqbWrite k false v) s = .next ((Eff.core k fun c => { c with tqb := newQueue v }).apply s) :=
  event_next (performs_onCore ..)

theorem exec_tqbWrite_event (k : Nat) (v : Word) (s : State) :
    exec (.tqbWrite k true v) s =
      .next ((Eff.die (dieOf k) fun x => { x with eqb := FMap.set x.eqb (clusterOf k) (newQueue v) }).apply s) :=
  event_next (performs_onDie ..)

theorem exec_ibdWrite_high (k n : Nat) (v : Word) (s : State) : exec (.ibdWrite k n true v) s = .next s :=
  event_next (performs_bind (f := fun _ => pure ()) (performs_getC k s) (performs_pure _ s))

/-- What the low half of an inbox descriptor makes of it (05 R101). -/
def inboxWritten (k : Nat) (v : Word) (b : Inbox) : Inbox :=
  if b.en then { b with en := bit v 63 }
  else if bit v 63 && goodInbox k (bits v 42 32) (bits v 14 0) then { en := true, size := bits v 42 32, base := bits v 14 0 }
  else { b with size := bits v 42 32, base := bits v 14 0 }

theorem inboxWritten_enabled {k : Nat} {v : Word} {b : Inbox} (h : b.en = true) : inboxWritten k v b = { b with en := bit v 63 } := if_pos h

theorem inboxWritten_fresh {k : Nat} {v : Word} {b : Inbox} (h : ¬b.en = true) : inboxWritten k v b =
    if bit v 63 && goodInbox k (bits v 42 32) (bits v 14 0) then { en := true, size := bits v 42 32, base := bits v 14 0 }
    else { b with size := bits v 42 32, base := bits v 14 0 } := if_neg h

theorem exec_ibdWrite_low (k n : Nat) (v : Word) (s : State) :
    exec (.ibdWrite k n false v) s = .next ((Eff.core k fun c =>
      { c with inboxes := FMap.set c.inboxes n (inboxWritten k v (FMap.get {} (s.coreOf k).inboxes n)) }).apply s) := by
  refine event_next (performs_bind (performs_getC k s) (performs_ite_neg Bool.false_ne_true ?_))
  by_cases hen : (FMap.get {} (s.coreOf k).inboxes n).en = true
  · rw [inboxWritten_enabled hen]; exact performs_ite_pos hen (performs_onCore ..)
  · rw [inboxWritten_fresh hen]; exact performs_ite_neg hen (performs_onCore ..)

/-- A descriptor that was not enabled takes the size and the base, also where it fails to be enabled (DESIGN CHOICE, assumption 65), and is enabled
where both are in range (05 R101). -/
theorem inboxWritten_disabled {k : Nat} {v : Word} {b : Inbox} (h : b.en = false) :
    (inboxWritten k v b).size = bits v 42 32 ∧ (inboxWritten k v b).base = bits v 14 0 ∧
    ((inboxWritten k v b).en = true ↔ bit v 63 = true ∧ goodInbox k (bits v 42 32) (bits v 14 0) = true) ∧
    ((inboxWritten k v b).en = true → (inboxWritten k v b).head = 0 ∧ (inboxWritten k v b).tail = 0) := by
  rw [inboxWritten_fresh (Bool.eq_false_iff.mp h)]
  by_cases hg : bit v 63 = true ∧ goodInbox k (bits v 42 32) (bits v 14 0) = true
  · simp [hg.1, hg.2]
  · rw [if_neg (by simpa using hg)]
    simp [h, hg]

theorem goodInbox_iff (k size base : Nat) :
    goodInbox k size base = true ↔ 8 ≤ size ∧ size ≤ 1536 ∧ 0x10000 ≤ 64 * base ∧ 64 * base + 64 * size ≤ lsSize k ∧
      bankOf k (64 * base) = bankOf k (64 * base + 64 * size - 1) := by
  simp [goodInbox, and_assoc]

/-! ## Dwells of a lane -/

theorem exec_laneMarginDwell_busy {k lane : Nat} {s : State} (h : bit (lmargOf s (k / 4) (k % 4) lane) 63 = true) :
    exec (.laneMarginDwell k lane) s = .next s :=
  event_next (performs_bind (performs_getD _ s) (performs_setLmarg_busy h))

theorem exec_laneMarginDwell_go {k lane : Nat} {s : State} (h : bit (lmargOf s (k / 4) (k % 4) lane) 63 = false) :
    exec (.laneMarginDwell k lane) s = .next ((Eff.clock fun c => c.plan (2 ^ 20) (.laneMarginDwellEnd k lane)).apply
      (withLmarg (k / 4) (k % 4) lane (fun _ => dwelling (lmargOf s (k / 4) (k % 4) lane)) s)) := by
  have hgo := performs_setLmarg_go h
  rw [Nat.div_add_mod k 4] at hgo
  refine event_next (performs_bind (performs_getD _ s) ?_)
  exact hgo

theorem exec_laneMarginDwellEnd (k lane : Nat) (s : State) :
    exec (.laneMarginDwellEnd k lane) s = .next (withLmarg (k / 4) (k % 4) lane (fun old => dwelt old (Config.marginErrors k lane old)) s) :=
  event_next (performs_onDie ..)

theorem registerWrites : Claim.RegisterWrites := by
  intro s d k n lane v
  refine ⟨⟨_, exec_svnfuseWrite d v s, by rw [dieOf_die_same], rfl, rfl⟩, fun on => ⟨_, exec_marginingEnable on s, rfl, rfl, rfl⟩,
    exec_smargWrite_off, fun h => ?_, exec_wsmodeWrite_still, fun h hp => ?_, ⟨_, exec_tqbWrite_trap k v s, ?_, rfl, rfl⟩,
    ⟨_, exec_tqbWrite_event k v s, ?_, rfl, rfl⟩, ⟨exec_ibdWrite_high k n v s, _, exec_ibdWrite_low k n v s, ⟨rfl, rfl⟩, ?_⟩,
    exec_laneMarginDwell_busy, fun h => ?_, ?_⟩
  · obtain ⟨w, hw, hi, hf⟩ := smarg_written (s := s) d v h
    exact ⟨_, event_next hw, ⟨rfl, rfl⟩, by rw [dieOf_die_same]; exact hi, by rw [dieOf_die_same]; exact hf⟩
  · exact ⟨_, exec_wsmodeWrite_change h hp, by rw [dieOf_clock, dieOf_die_same], by rw [dieOf_clock, dieOf_die_same], due_planned _ 0 _, rfl, rfl⟩
  · rw [coreOf_core_same]; rfl
  · rw [dieOf_die_same, get?_set_same]; rfl
  · rw [coreOf_core_same, get_set_same]
    refine ⟨inboxWritten_enabled, fun h => ?_⟩
    obtain ⟨hsize, hbase, hen, hht⟩ := inboxWritten_disabled (k := k) (v := v) h
    exact ⟨hsize, hbase, by rw [hen, goodInbox_iff], hht⟩
  · refine ⟨_, exec_laneMarginDwell_go h, ⟨rfl, rfl⟩, due_planned (withLmarg ..) _ _, ?_⟩
    have hnew := lmargOf_withLmarg (k / 4) (k % 4) lane (fun _ => dwelling (lmargOf s (k / 4) (k % 4) lane)) s
    rw [lmargOf] at hnew
    rw [dieOf_clock, hnew]
    exact dwelling_fields h
  · refine ⟨_, exec_laneMarginDwellEnd k lane s, ⟨rfl, rfl⟩, ?_⟩
    have hnew := lmargOf_withLmarg (k / 4) (k % 4) lane (fun old => dwelt old (Config.marginErrors k lane old)) s
    rw [lmargOf] at hnew
    rw [hnew]
    exact dwelt_fields _ _

end Sys2Proof.Boot
end

section
/-! PROOFS. Words under a mask, and the thread of a slot after a change of it. -/

namespace Sys2Proof.Laws

open Sys2Proof.Machine Sys2Proof.Safety

/-! ## Masks -/

/-- Two fields of a word, the lower at bit 0, as the word under a mask. -/
theorem fields_eq_mask (v : Word) {n lo m : Nat} (hm : m ≤ lo) :
    BitVec.ofNat 64 (v.toNat / 2 ^ lo % 2 ^ n * 2 ^ lo + v.toNat % 2 ^ m) = v &&& BitVec.ofNat 64 ((2 ^ n - 1) * 2 ^ lo + (2 ^ m - 1)) := by
  have hlow : v.toNat % 2 ^ m < 2 ^ lo := Nat.lt_of_lt_of_le (Nat.mod_lt _ (Nat.two_pow_pos m)) (Nat.pow_le_pow_right (by decide) hm)
  have hones : 2 ^ m - 1 < 2 ^ lo := Nat.lt_of_lt_of_le (Nat.sub_lt (Nat.two_pow_pos m) (by decide)) (Nat.pow_le_pow_right (by decide) hm)
  apply BitVec.eq_of_getLsbD_eq
  intro i hi
  rw [BitVec.getLsbD_and, BitVec.getLsbD_ofNat, BitVec.getLsbD_ofNat, Nat.mul_comm _ (2 ^ lo), Nat.mul_comm _ (2 ^ lo),
    Nat.testBit_two_pow_mul_add _ hlow, Nat.testBit_two_pow_mul_add _ hones]
  by_cases hlo : i < lo
  · simp [hlo, BitVec.getLsbD, Bool.and_comm, hi]
  · simp [hlo, BitVec.getLsbD, Bool.and_comm, hi, Nat.testBit_div_two_pow, Nat.sub_add_cancel (Nat.le_of_not_lt hlo)]

/-- The low bits of a word as the word under a mask. -/
theorem setWidth_setWidth_eq_mask (v : Word) {m : Nat} (hm : m ≤ 64) : (v.setWidth m).setWidth 64 = v &&& BitVec.ofNat 64 (2 ^ m - 1) := by
  have h := fields_eq_mask v (n := 0) hm
  simp only [Nat.pow_zero, Nat.mod_one, Nat.zero_mul, Nat.zero_add, Nat.sub_self] at h
  rw [← h]
  apply BitVec.eq_of_toNat_eq
  simp

/-- A code-window offset as it reads in a word (10 R178). -/
theorem pcNorm_setWidth (v : Word) : (pcNorm (v.setWidth 16)).setWidth 64 = v &&& 0xFFFC := by
  rw [pcNorm, BitVec.setWidth_and, setWidth_setWidth_eq_mask v (by decide), BitVec.and_assoc]
  rfl

/-! ## The thread of a slot -/

theorem thread_thr_same {s : State} {id : Nat} (f : Thread → Thread) (h : s.occupied id = true) :
    ((Eff.thr id f).apply s).thread id = { f (s.thread id) with pw := (s.thread id).pw, pc := (s.thread id).pc } := by
  obtain ⟨t, ht⟩ := Option.isSome_iff_exists.mp h
  have hs : s.thread id = t := by rw [State.thread, FMap.get, ht, Option.getD_some]
  show (s.modThread id _).thread id = _
  rw [modThread_some _ ht, hs]
  exact get_set_same ..

theorem thread_thr_ne {s : State} {id n : Nat} (f : Thread → Thread) (h : n ≠ id) : ((Eff.thr id f).apply s).thread n = s.thread n := by
  show (s.modThread id _).thread n = _
  unfold State.modThread
  split
  · exact (get_set ..).trans (if_neg h)
  · rfl

theorem control_of_no_iter {s : State} {id : Nat} (h : (s.thread id).iter = none) : s.control id = id := by
  unfold State.control; rw [h]

theorem ringOf_of_no_iter {s : State} {id : Nat} (h : (s.thread id).iter = none) : s.ringOf id = none := by
  unfold State.ringOf; rw [h]

end Sys2Proof.Laws
end

section
/-! PROOFS. Registers written by name: control registers as CRWR at H writes them, device registers under their access codes (00 R4, 24 R358). -/

namespace Sys2Proof.Boot

open Sys2Proof.Machine Sys2Proof.Safety Sys2Proof.Laws

/-! ## Registers written by name: control registers -/

/-- A thread outside loops stands alone for its control registers: what it has read there is its own. -/
theorem answering_thread {s : State} {k t : Nat} {x : Thread} (h : s.thread (tidOf k t) = x) (hi : x.iter = none) :
    current (answering s k t) = x ∧ owner (answering s k t) = x ∧ windowWsp (answering s k t) = x.wsp := by
  have hcur : current (answering s k t) = x := h
  have hno : ((answering s k t).thread (tid (answering s k t))).iter = none := by rw [← hi, ← hcur]; rfl
  refine ⟨hcur, ?_, ?_⟩
  · rw [owner, control_of_no_iter hno]; exact hcur
  · rw [windowWsp, loopNow, ringOf_of_no_iter hno, ← hcur]

/-- A write of a control register changes one thread, and the register then reads as the value under the register's mask. -/
def ControlTakes (s : State) (id : Nat) (v : Word) (q : Nat × (State → Word) × (Word → Word)) : Prop :=
  ∃ f : Thread → Thread, Performs (crPut .h id q.1 v) s () ((Eff.thr id f).apply s) ∧ (f (s.thread id)).iter = none ∧
    ∀ (x : Thread) (u : State), x = { f (s.thread id) with pw := (s.thread id).pw, pc := (s.thread id).pc } →
      current u = x → owner u = x → windowWsp u = x.wsp → q.2.1 u = q.2.2 v

section
variable {s : State} {id n : Nat} {v : Word} {f : Thread → Thread} {field : Thread → Word} {mask : Word → Word}

/-- RM and FFLAGS: the register is a field of the thread of the slot itself (22 R328). -/
theorem takes_current (hi : (s.thread id).iter = none) (hp : Performs (crPut .h id n v) s () ((Eff.thr id f).apply s))
    (hf : (f (s.thread id)).iter = (s.thread id).iter)
    (hv : field { f (s.thread id) with pw := (s.thread id).pw, pc := (s.thread id).pc } = mask v) :
    ControlTakes s id v (n, fun s => field (current s), mask) := by
  refine ⟨f, hp, hf.trans hi, ?_⟩
  rintro x u rfl hu - -
  exact (congrArg field hu).trans hv

/-- The other registers: a field of the thread that owns the control registers, here the same. -/
theorem takes_owner (hi : (s.thread id).iter = none) (hp : Performs (crPut .h id n v) s () ((Eff.thr (s.control id) f).apply s))
    (hf : (f (s.thread id)).iter = (s.thread id).iter)
    (hv : field { f (s.thread id) with pw := (s.thread id).pw, pc := (s.thread id).pc } = mask v) :
    ControlTakes s id v (n, fun s => field (owner s), mask) := by
  rw [control_of_no_iter hi] at hp
  refine ⟨f, hp, hf.trans hi, ?_⟩
  rintro x u rfl - hu -
  exact (congrArg field hu).trans hv

/-- WSP keeps multiples of 128 (03 R48; assumption 45). -/
theorem takes_wsp (hi : (s.thread id).iter = none) : ControlTakes s id v (0x03, windowWsp, fun v => v &&& ~~~127) := by
  have hmask : BitVec.ofNat 64 (v.toNat / 128 * 128) = v &&& ~~~127 := by
    have hf := fields_eq_mask v (n := 57) (lo := 7) (m := 0) (by decide)
    have hv := v.isLt
    rw [Nat.mod_eq_of_lt (by omega)] at hf
    simpa [Nat.mod_one] using hf
  have hput : Performs (putWsp id v) s () ((Eff.thr id fun t => { t with wsp := v &&& ~~~127 }).apply s) := by
    refine performs_bind (performs_getS s) ?_
    simp only [windowOf, ringOf_of_no_iter hi, BitVec.sub_self, BitVec.sub_zero, hmask]
    exact performs_thr ..
  refine ⟨_, performs_bind (performs_getS s) hput, hi, ?_⟩
  rintro x u rfl - - hu
  exact hu

end

theorem tsel_mask (v : Word) : BitVec.ofNat 64 (bits v 39 16 * 2 ^ 16 + bits v 3 0) = v &&& 0xFFFFFF000F := by
  simpa [bits] using fields_eq_mask v (n := 24) (lo := 16) (m := 4) (by decide)

theorem scause_mask (v : Word) : BitVec.ofNat 64 (bits v 63 63 * 2 ^ 63 + bits v 7 0) = v &&& 0x80000000000000FF := by
  simpa [bits] using fields_eq_mask v (n := 1) (lo := 63) (m := 8) (by decide)

/-- Every register that a write changes, but for WLIM, whose write also restarts counted waits (22 R328). -/
theorem controlTakes {s : State} {id : Nat} {v : Word} (hi : (s.thread id).iter = none) :
    ∀ q ∈ controlWrites, q.1 ≠ 2 → ControlTakes s id v q := by
  simp only [controlWrites, List.cons_append, List.nil_append, List.forall_mem_cons, List.not_mem_nil, false_implies, implies_true, and_true]
  refine ⟨fun _ => ?_, fun _ => ?_, fun hn => absurd rfl hn, fun _ => takes_wsp hi, fun _ => ?_, fun _ => ?_, fun _ => ?_, fun _ => ?_, fun _ => ?_,
    fun _ => ?_, fun _ => ?_⟩
  · exact takes_current (field := (·.rm.setWidth 64)) hi (performs_bind (performs_getS s) (performs_thr ..)) rfl
      (setWidth_setWidth_eq_mask v (m := 2) (by decide))
  · exact takes_current (field := (·.fflags.setWidth 64)) hi (performs_bind (performs_getS s) (performs_thr ..)) rfl
      (setWidth_setWidth_eq_mask v (m := 5) (by decide))
  · exact takes_owner (field := (·.uih.setWidth 64)) hi (performs_bind (performs_getS s) (performs_thr ..)) rfl (pcNorm_setWidth v)
  · exact takes_owner (field := (·.epc.setWidth 64)) hi (performs_bind (performs_getS s) (performs_thr ..)) rfl (pcNorm_setWidth v)
  · exact takes_owner (field := (·.uctl)) hi (performs_bind (performs_getS s) (performs_thr ..)) rfl rfl
  · exact takes_owner (field := (·.tsel)) hi (performs_bind (performs_getS s) (performs_thr ..)) rfl (tsel_mask v)
  · exact takes_owner (field := (·.sepc.setWidth 64)) hi (performs_bind (performs_getS s) (performs_thr ..)) rfl (pcNorm_setWidth v)
  · exact takes_owner (field := (·.scause)) hi (performs_bind (performs_getS s) (performs_thr ..)) rfl (scause_mask v)
  · exact takes_owner (field := (·.sval)) hi (performs_bind (performs_getS s) (performs_thr ..)) rfl rfl

/-- A control register of a thread outside loops, written by its name. -/
theorem exec_registerWrite_control {s : State} {k t : Nat} {v : Word} (hocc : s.occupied (tidOf k t) = true)
    (hi : (s.thread (tidOf k t)).iter = none) {q : Nat × (State → Word) × (Word → Word)} (hq : q ∈ controlWrites) (hn : q.1 ≠ 2) :
    ∃ u, exec (.registerWrite (.control k t q.1) v) s = .next u ∧ q.2.1 (answering u k t) = q.2.2 v ∧ OthersSame (tidOf k t) s u ∧ u.mem = s.mem := by
  obtain ⟨f, hp, hf, hv⟩ := controlTakes (v := v) hi q hq hn
  obtain ⟨hc, ho, hw⟩ := answering_thread (thread_thr_same f hocc) hf
  exact ⟨_, event_next hp, hv _ _ rfl hc ho hw, fun n hne => thread_thr_ne f hne, modThread_mem ..⟩

/-! ## Registers written by name: device registers -/

section
variable {s : State} {addr d : Nat} {v : Word}

/-- A device register is written under its access codes and its own rule. -/
theorem exec_registerWrite_device {name : DevName} {u : State} (h : devName addr = some (d, name)) (hp : Performs (devSet d name 0 none v) s () u) :
    exec (.registerWrite (.device addr) v) s = .next u := by
  refine event_next ?_
  simp only [h]
  exact hp

/-- An address to which no rule gives a register is refused by name (DESIGN CHOICE, assumption 8). -/
theorem exec_registerWrite_unspecified (h : devName addr = none) :
    exec (.registerWrite (.device addr) v) s = .refused (.unspecifiedDevice addr) := by
  refine event_refused ?_
  simp only [h]
  exact stops_stop _ _

theorem performs_devSet_kill_busy (h : (s.dieOf d).killBusy = true) : Performs (devSet d .kill 0 none v) s () s :=
  performs_bind (performs_getD d s) (performs_ite_pos h (performs_pure _ s))

theorem performs_devSet_kill (h : (s.dieOf d).killBusy = false) (hv : bit v 63 = true) :
    Performs (devSet d .kill 0 none v) s () ((Eff.clock fun c => c.plan 0 (.contextKill d)).apply
      ((Eff.die d fun x => { x with kill := BitVec.ofNat 64 (bits v 63 63 * 2 ^ 63 + bits v 15 0) }).apply s)) :=
  performs_bind (performs_getD d s) (performs_ite_neg (Bool.eq_false_iff.mp h)
    (performs_bind (performs_onDie ..) (performs_ite_pos hv (performs_plan ..))))

/-- KILL keeps the context that is written. -/
theorem bits_kill (v : Word) : bits (BitVec.ofNat 64 (bits v 63 63 * 2 ^ 63 + bits v 15 0)) 15 0 = bits v 15 0 := by
  have h15 := bits_lt v 15 0
  rw [bits_ofNat]
  omega

end

theorem namedWrites : Claim.NamedWrites := by
  refine fun s v => ⟨fun q hq k t _ hocc hi _ hn => exec_registerWrite_control hocc hi hq hn, fun addr d h => ?_, fun addr d h => ?_,
    fun addr d p h => ?_, fun addr d h => ⟨fun hb => exec_registerWrite_device h (performs_devSet_kill_busy hb), fun hb hv => ?_⟩,
    fun addr => exec_registerWrite_unspecified⟩
  · exact ⟨_, exec_registerWrite_device h (performs_bind (performs_getD d s) (performs_onDie ..)), by rw [dieOf_die_same], rfl, rfl⟩
  · exact ⟨_, exec_registerWrite_device h (performs_bind (performs_getD d s) (performs_onDie ..)), by rw [dieOf_die_same], rfl, rfl⟩
  · exact ⟨_, exec_registerWrite_device h (performs_bind (performs_getD d s) (performs_onDie ..)), by rw [dieOf_die_same, get_set_same], rfl, rfl⟩
  · exact ⟨_, exec_registerWrite_device h (performs_devSet_kill hb hv), by rw [dieOf_clock, dieOf_die_same]; exact bits_kill v, due_planned _ 0 _,
      rfl, rfl⟩

end Sys2Proof.Boot
end

section
/-! PROOFS. The checks of an image (26 R388) and the answers of the management endpoint (26 R389). -/

namespace Sys2Proof.Boot

open Sys2Proof.Machine Sys2Proof.Safety Sys2Proof.Laws

/-! ## Images (26 R388) -/

/-- A header is good when every one of its checks passes. -/
theorem goodHeader_iff (im : List Byte) (kind : Nat) : goodHeader im kind = true ↔
    leValue (im.take 4) = 0x48344649 ∧ leValue ((im.drop 4).take 4) = kind ∧ 2 ^ 20 ≤ blen im ∧ blen im ≤ 2 ^ 26 ∧ blen im % 2048 = 0 ∧
      8192 + blen im ≤ im.length := by
  simp only [goodHeader, Bool.and_eq_true, decide_eq_true_eq, and_assoc]
  rfl

/-- An image is accepted when none of the checks, taken in order, fails. -/
theorem imageRefused_none_iff (im key : List Byte) (kind rollback : Nat) : imageRefused im kind key rollback = none ↔
    goodHeader im kind = true ∧ Config.sha3 ((im.drop 64).take 2592) = key ∧
      Config.verify ((im.drop 64).take 2592) ((im.drop 2656).take 4627) (Config.sha3 (im.take 64 ++ imageBody im)) = true ∧
      rollback ≤ Machine.field im 8 8 ∧ reservedZero im = true := by
  have step (c : Prop) [Decidable c] (n : Nat) (o : Option Nat) : (if c then some n else o) = none ↔ ¬c ∧ o = none := by split <;> simp [*]
  simp only [imageRefused, step, Bool.not_eq_true', Bool.not_eq_false, ne_eq, Classical.not_not, Nat.not_lt, and_true]

theorem imageChecks : Claim.ImageChecks := by
  intro im key kind rollback
  rw [imageRefused_none_iff, goodHeader_iff]
  rfl

/-! ## Attestation (26 R389) -/

section
variable {s : State} {i : Instr} {code : Nat} {err : Bool} {content : List Byte}

/-- The management port has sent a response, and nothing else has changed. -/
def Responds (s : State) (i : Instr) (code : Nat) (err : Bool) (content : List Byte) : Prop :=
  ∃ t, exec i s = .next t ∧ t.pkg.outbox = s.pkg.outbox ++ [.spdm code err content] ∧ t.mem = s.mem ∧ t.threads = s.threads ∧ t.cores = s.cores

/-- The endpoint answers while the control complex of die 0 runs; the numbers of the requests are the model's (DESIGN CHOICE, assumption 28). -/
theorem responds (h : (s.dieOf 0).booted = true) (hi : exec i s = endpoint (respondSpdm code err content) s) : Responds s i code err content := by
  have hn : exec i s = .next ((Eff.pkg fun p => { p with outbox := p.outbox ++ [.spdm code err content] }).apply s) := by
    rw [hi, endpoint, if_pos h]
    exact event_next (performs_onPkg ..)
  exact ⟨_, hn, rfl, rfl, rfl, rfl⟩

/-- Which request an instruction makes depends on its fields. -/
theorem exec_negotiateAlgorithms_good {q : SpdmRequest} (hs : q.sigAlg = 0) (hh : q.hashAlg = 0) :
    exec (.negotiateAlgorithms q) s = endpoint (respondSpdm 2 false (Config.spdmBody 2)) s := by
  show endpoint (if _ then _ else _) s = _
  rw [if_pos (by simp [hs, hh])]

theorem exec_negotiateAlgorithms_other {q : SpdmRequest} (h : q.sigAlg ≠ 0 ∨ q.hashAlg ≠ 0) :
    exec (.negotiateAlgorithms q) s = endpoint (respondSpdm 2 true []) s := by
  show endpoint (if _ then _ else _) s = _
  refine congrArg (endpoint · s) (if_neg fun hc => ?_)
  rw [Bool.and_eq_true, decide_eq_true_eq, decide_eq_true_eq] at hc
  exact h.elim (· hc.1) (· hc.2)

theorem exec_getMeasurements_good {q : SpdmRequest} (h1 : 1 ≤ q.index) (h2 : q.index ≤ 228) :
    exec (.getMeasurements q) s =
      endpoint (respondSpdm 6 false (measurement s q.index ++ signed s (measurement s q.index ++ q.nonce))) s := by
  show endpoint (if _ then _ else _) s = _
  rw [if_pos (by simp [h1, h2])]

theorem exec_getMeasurements_other {q : SpdmRequest} (h : q.index = 0 ∨ 228 < q.index) :
    exec (.getMeasurements q) s = endpoint (respondSpdm 6 true []) s := by
  show endpoint (if _ then _ else _) s = _
  rw [if_neg (by rw [Bool.and_eq_true, decide_eq_true_eq, decide_eq_true_eq]; omega)]

end

/-- A partition for which no image is loaded measures as zeros. -/
theorem measurement_unloaded {s : State} {p : Nat} (h : FMap.get? s.pkg.partImages p = none) : measurement s (p + 5) = List.replicate 64 0 := by
  have hm : measured s (p + 5) = none := h
  rw [measurement, hm]

theorem attestation : Claim.Attestation := by
  intro s q hb
  exact ⟨responds hb rfl, responds hb rfl, fun hs hh => responds hb (exec_negotiateAlgorithms_good hs hh),
    fun h => responds hb (exec_negotiateAlgorithms_other h), responds hb rfl, responds hb rfl, responds hb rfl,
    fun h => responds hb (exec_getMeasurements_other h), fun h1 h2 => responds hb (exec_getMeasurements_good h1 h2), rfl, rfl,
    fun _ _ h => measurement_unloaded h⟩

end Sys2Proof.Boot
end

section
/-! PROOFS. Meanings that keep a property of the state, and finite maps read outside their keys. -/

namespace Sys2Proof.Laws

open Sys2Proof.Machine Sys2Proof.Safety

/-! ## Meanings that keep a property of the state -/

/-- A meaning goes through in every state that has a property, and the property holds after it. -/
def Keeps {α : Type} (I : State → Prop) (m : M α) : Prop := ∀ s, I s → ∃ a s1, Performs m s a s1 ∧ I s1

section
variable {α β : Type} {I : State → Prop} {m : M α} {f : α → M β}

theorem keeps_pure (a : α) : Keeps I (pure a : M α) := fun s h => ⟨a, s, performs_pure a s, h⟩

theorem keeps_getS : Keeps I getS := fun s h => ⟨s, s, performs_getS s, h⟩

theorem keeps_emit {e : Eff} (h : ∀ s, I s → I (e.apply s)) : Keeps I (emit e) := fun s hs => ⟨(), _, performs_emit e s, h s hs⟩

theorem keeps_bind (h : Keeps I m) (k : ∀ a, Keeps I (f a)) : Keeps I (m >>= f) := fun s hs => by
  obtain ⟨a, s1, hm, h1⟩ := h s hs
  obtain ⟨b, s2, hf, h2⟩ := k a s1 h1
  exact ⟨b, s2, performs_bind hm hf, h2⟩

theorem keeps_ite {c : Prop} [Decidable c] {m n : M α} (hm : Keeps I m) (hn : Keeps I n) : Keeps I (if c then m else n) := by
  split
  · exact hm
  · exact hn

/-- Reads of a part of the state, and what is made of it. -/
theorem keeps_read {g : State → α} : Keeps I (do return g (← getS)) := keeps_bind keeps_getS fun _ => keeps_pure _

end

/-! ## Finite maps: reads outside the keys, and several keys taken out -/

theorem get?_of_not_key {α : Type} {m : FMap α} {i : Nat} (h : i ∉ m.map Prod.fst) : FMap.get? m i = none := by
  induction m with
  | nil => rfl
  | cons p m ih =>
    rw [List.map_cons, List.mem_cons, not_or] at h
    rw [FMap.get?, if_neg h.1]
    exact ih h.2

theorem thread_of_get? {s t : State} {id : Nat} (h : FMap.get? t.threads id = FMap.get? s.threads id) : t.thread id = s.thread id := by
  simp only [State.thread, FMap.get, h]

theorem occupied_eq_false {s : State} {id : Nat} : s.occupied id = false ↔ FMap.get? s.threads id = none := by
  rw [State.occupied, Option.isSome_eq_false_iff, Option.isNone_iff_eq_none]

end Sys2Proof.Laws
end

section
/-! PROOFS. What a boot changes and what it leaves alone, for one die and for several (26 R387). -/

namespace Sys2Proof.Boot

open Sys2Proof.Machine Sys2Proof.Safety Sys2Proof.Laws

/-! ## What a boot leaves alone -/

/-- Nobody listens at a core for writes: no monitor is registered and no barrier armed there. -/
def Deaf (s : State) (k : Nat) : Prop := (s.coreOf k).monRegs = [] ∧ (s.coreOf k).barriers = []

/-- What a boot keeps that changes some slots and some dies: all other threads and dies, the calendar, the tasks, the fuses and the registers of
partitions and of the weight store, and who listens at each core. -/
structure Calm (slots dies : List Nat) (s t : State) : Prop where
  thread : ∀ id, id ∉ slots → FMap.get? t.threads id = FMap.get? s.threads id
  die : ∀ e, e ∉ dies → t.dieOf e = s.dieOf e
  fuse : ∀ e, (t.dieOf e).svnfuse = (s.dieOf e).svnfuse
  mode : ∀ e, (t.dieOf e).wsServing = (s.dieOf e).wsServing
  part : ∀ e, (t.dieOf e).clpart = (s.dieOf e).clpart
  now : t.clock.now = s.clock.now
  todo : t.clock.todo = s.clock.todo
  events : t.clock.events = s.clock.events
  tasks : t.pkg.tasks = s.pkg.tasks
  deaf : ∀ k, Deaf s k → Deaf t k

section
variable {slots dies : List Nat} {s t u : State}

theorem Calm.refl : Calm slots dies s s :=
  ⟨fun _ _ => rfl, fun _ _ => rfl, fun _ => rfl, fun _ => rfl, fun _ => rfl, rfl, rfl, rfl, rfl, fun _ h => h⟩

theorem Calm.trans (h : Calm slots dies s t) (k : Calm slots dies t u) : Calm slots dies s u where
  thread id hid := (k.thread id hid).trans (h.thread id hid)
  die e he := (k.die e he).trans (h.die e he)
  fuse e := (k.fuse e).trans (h.fuse e)
  mode e := (k.mode e).trans (h.mode e)
  part e := (k.part e).trans (h.part e)
  now := k.now.trans h.now
  todo := k.todo.trans h.todo
  events := k.events.trans h.events
  tasks := k.tasks.trans h.tasks
  deaf j hj := k.deaf j (h.deaf j hj)

theorem Calm.mono {slots' dies' : List Nat} (h : Calm slots dies s t) (hs : slots ⊆ slots') (hd : dies ⊆ dies') : Calm slots' dies' s t :=
  { h with thread := fun id hid => h.thread id fun hm => hid (hs hm), die := fun e he => h.die e fun hm => he (hd hm) }

/-- Effects on memory are calm. -/
theorem calm_mem (key : Nat) (bs : List Byte) : Calm slots dies s ((Eff.mem key bs).apply s) := { Calm.refl with }
theorem calm_poison (key : Nat) (on : Bool) : Calm slots dies s ((Eff.poison key on).apply s) := { Calm.refl with }

theorem calm_clock {f : Clock → Clock} (h : ∀ c, (f c).now = c.now ∧ (f c).todo = c.todo ∧ (f c).events = c.events) :
    Calm slots dies s ((Eff.clock f).apply s) :=
  { Calm.refl with now := (h _).1, todo := (h _).2.1, events := (h _).2.2 }

theorem calm_pkg {f : Pkg → Pkg} (h : ∀ p, (f p).tasks = p.tasks) : Calm slots dies s ((Eff.pkg f).apply s) := { Calm.refl with tasks := h _ }

theorem calm_core {k : Nat} {f : Core → Core} (h : ∀ c, (f c).monRegs = c.monRegs ∧ (f c).barriers = c.barriers) :
    Calm slots dies s ((Eff.core k f).apply s) :=
  { (Calm.refl : Calm slots dies s s) with
    deaf := fun j hj => by
      unfold Deaf
      rw [coreOf_core]
      split
      · next e => subst e; exact ⟨(h _).1.trans hj.1, (h _).2.trans hj.2⟩
      · exact hj }

theorem calm_die {d : Nat} {f : Die → Die} (hd : d ∈ dies) (h : ∀ x, (f x).svnfuse = x.svnfuse ∧ (f x).wsServing = x.wsServing ∧ (f x).clpart = x.clpart) :
    Calm slots dies s ((Eff.die d f).apply s) := by
  have part {α : Type} (g : Die → α) (hg : ∀ x, g (f x) = g x) (e : Nat) : g (((Eff.die d f).apply s).dieOf e) = g (s.dieOf e) := by
    rw [dieOf_die]
    split
    · next he => subst he; exact hg _
    · rfl
  exact { (Calm.refl : Calm slots dies s s) with
    die := fun e he => (dieOf_die ..).trans (if_neg fun (hed : e = d) => he (hed ▸ hd))
    fuse := part (·.svnfuse) fun x => (h x).1
    mode := part (·.wsServing) fun x => (h x).2.1
    part := part (·.clpart) fun x => (h x).2.2 }

theorem calm_place {id : Nat} {x : Thread} (h : id ∈ slots) : Calm slots dies s ((Eff.place id x).apply s) :=
  { (Calm.refl : Calm slots dies s s) with thread := fun n hn => (get?_set ..).trans (if_neg fun (e : n = id) => hn (e ▸ h)) }

/-- A meaning whose effects are calm. -/
theorem keeps_calm {s0 : State} {e : Eff} (h : ∀ s, Calm slots dies s (e.apply s)) : Keeps (Calm slots dies s0) (emit e) :=
  keeps_emit fun s hs => hs.trans (h s)

/-! ## Errors found and forgotten by a write (05 R91, R92) -/

theorem keeps_calm_countErr {s0 : State} (k i : Nat) : Keeps (Calm slots dies s0) (countErr k i) :=
  keeps_calm fun _ => calm_core fun _ => ⟨rfl, rfl⟩

theorem keeps_calm_count {s0 : State} (k src : Nat) (b : Bool) (n : Nat) : Keeps (Calm slots dies s0) (count k src b n) :=
  keeps_calm fun _ => calm_core fun c => by
    unfold Core.tallyAdd
    split <;> exact ⟨rfl, rfl⟩

theorem keeps_calm_findEcc {s0 : State} (key : Nat) : Keeps (Calm slots dies s0) (findEcc key) := by
  refine keeps_bind keeps_getS fun s => ?_
  have forget : Keeps (Calm slots dies s0) (onPkg fun p => { p with eccBad := FMap.erase p.eccBad key }) := keeps_calm fun _ => calm_pkg fun _ => rfl
  cases FMap.get? s.pkg.eccBad key with
  | none => exact keeps_pure _
  | some bad =>
    cases bad with
    | false => exact keeps_bind forget fun _ => keeps_bind (keeps_calm_countErr _ _) fun _ => keeps_calm_count _ _ _ _
    | true =>
      refine keeps_bind (keeps_calm_countErr _ _) fun _ => keeps_ite (keeps_bind forget fun _ => keeps_bind ?free fun v => ?_) (keeps_pure _)
      case free =>
        exact keeps_bind keeps_getS fun _ => keeps_bind (keeps_calm fun _ => calm_clock fun _ => ⟨rfl, rfl, rfl⟩) fun _ => keeps_pure _
      exact keeps_bind (keeps_calm fun _ => calm_mem ..) fun _ => keeps_calm fun _ => calm_poison ..

theorem keeps_calm_forgetEcc {s0 : State} (key : Nat) : Keeps (Calm slots dies s0) (forgetEcc key) := by
  refine keeps_bind keeps_getS fun _ => ?_
  exact keeps_ite (keeps_pure _) (keeps_calm fun _ => calm_pkg fun _ => rfl)

theorem keeps_calm_clearPoison {s0 : State} (key n : Nat) (as : List Nat) : Keeps (Calm slots dies s0) (clearPoison key n as) := by
  induction as with
  | nil => exact keeps_pure _
  | cons a as ih =>
    have forget := keeps_bind (keeps_calm_forgetEcc (slots := slots) (dies := dies) (s0 := s0) a) fun _ => ih
    refine keeps_ite (keeps_ite ?_ forget) (keeps_bind (keeps_calm_findEcc a) fun _ => ih)
    exact keeps_bind (keeps_calm fun _ => calm_poison ..) fun _ => forget

theorem keeps_calm_markFrames {s0 : State} (k sid : Nat) (fs : List Nat) : Keeps (Calm slots dies s0) (markFrames k sid fs) := by
  induction fs with
  | nil => exact keeps_pure _
  | cons f fs ih => exact keeps_bind (keeps_calm fun _ => calm_core fun _ => ⟨rfl, rfl⟩) fun _ => ih

/-- What a kept property gives from a state itself. -/
theorem calm_of_keeps {m : M Unit} (h : Keeps (Calm slots dies s) m) : ∃ t, Performs m s () t ∧ Calm slots dies s t := by
  obtain ⟨⟨⟩, t, hp, hc⟩ := h s Calm.refl
  exact ⟨t, hp, hc⟩

/-- A write at a home where nobody listens brings about nothing beside its bytes. -/
theorem performs_wrote_deaf {key n : Nat} (h : Deaf s (homeOf key)) : Performs (wrote key n) s () s := by
  obtain ⟨hm, hb⟩ := h
  refine performs_bind (a := ()) (s1 := s) (performs_bind (performs_getS s) ?_) (performs_bind (performs_getS s) ?_)
  · rw [hm]; exact performs_pure _ s
  · rw [hb]; exact performs_pure _ s

/-- Bytes stored where nobody listens. -/
theorem calm_storeBytes {key : Nat} {bs : List Byte} (h : Deaf s (homeOf key)) : ∃ t, Performs (storeBytes key bs) s () t ∧ Calm slots dies s t := by
  obtain ⟨t, hp, hc⟩ := calm_of_keeps (slots := slots) (dies := dies) (s := s) (keeps_calm_clearPoison key bs.length (touched key bs.length))
  have hm : Calm slots dies t ((Eff.mem key bs).apply t) := calm_mem key bs
  exact ⟨_, performs_bind hp (performs_bind (performs_emit _ t) (performs_wrote_deaf (hm.deaf _ (hc.deaf _ h)))), hc.trans hm⟩

end

/-! ## Control cores that a boot releases (26 R387) -/

/-- A thread released at an offset: level H, ready, its predicate word at reset. -/
def Released (t : State) (k : Nat) (entry : BitVec 16) : Prop :=
  (t.thread (tidOf k 0)).level = .h ∧ (t.thread (tidOf k 0)).status = .ready ∧ (t.thread (tidOf k 0)).pw = 1 ∧
  (t.thread (tidOf k 0)).pc = pcNorm entry

theorem Released.kept {slots dies : List Nat} {s t : State} {k : Nat} {entry : BitVec 16} (h : Released s k entry) (hc : Calm slots dies s t)
    (hk : tidOf k 0 ∉ slots) : Released t k entry := by
  unfold Released
  rw [thread_of_get? (hc.thread _ hk)]
  exact h

theorem homeOf_lsKey_zero {k : Nat} (h : k < 2 ^ 19) : homeOf (lsKey k 0) = k := by
  have hls : isLs (lsKey k 0) = true := by
    rw [isLs, lsKey]; exact decide_eq_true (by omega)
  rw [homeOf, if_pos hls, lsKey]
  omega

theorem released_releaseCore {s : State} {k : Nat} (text : List Byte) (entry : BitVec 16) (hk : k < 2 ^ 19) (h : Deaf s k) :
    ∃ t, Performs (releaseCore text entry k) s () t ∧ Calm [tidOf k 0] [] s t ∧ Released t k entry := by
  obtain ⟨s1, hp1, hc1⟩ := calm_storeBytes (slots := [tidOf k 0]) (dies := []) (bs := text) (by rwa [homeOf_lsKey_zero hk] : Deaf s (homeOf (lsKey k 0)))
  obtain ⟨s2, hp2, hc2⟩ := calm_of_keeps (slots := [tidOf k 0]) (dies := []) (s := s1)
    (keeps_calm_markFrames k firmwareSid (List.range ((text.length + 2047) / 2048)))
  have hc3 : Calm [tidOf k 0] [] s2 ((Eff.pkg fun p => { p with nextUid := p.nextUid + 1 }).apply s2) := calm_pkg fun _ => rfl
  refine ⟨_, performs_bind hp1 (performs_bind hp2 (performs_bind (performs_getS s2) (performs_bind (performs_onPkg ..) (performs_emit ..)))),
    hc1.trans (hc2.trans (hc3.trans (calm_place (List.mem_singleton_self _)))), ?_⟩
  unfold Released
  simp only [State.thread, Eff.apply, get_set_same]
  exact ⟨rfl, rfl, (by decide : pwNorm 1 = 1), rfl⟩

theorem released_releaseCores {s : State} (text : List Byte) (entry : BitVec 16) {ks : List Nat} (hn : ks.Nodup) (hk : ∀ k ∈ ks, k < 2 ^ 19)
    (h : ∀ k ∈ ks, Deaf s k) :
    ∃ t, Performs (releaseCores text entry ks) s () t ∧ Calm (ks.map (tidOf · 0)) [] s t ∧ ∀ k ∈ ks, Released t k entry := by
  induction ks generalizing s with
  | nil => exact ⟨s, performs_pure _ s, Calm.refl, fun _ h => absurd h List.not_mem_nil⟩
  | cons k ks ih =>
    rw [List.nodup_cons] at hn
    rw [List.forall_mem_cons] at hk h
    obtain ⟨s1, hp1, hc1, hr1⟩ := released_releaseCore text entry hk.1 h.1
    obtain ⟨t, hp, hc, hr⟩ := ih hn.2 hk.2 fun j hj => hc1.deaf j (h.2 j hj)
    refine ⟨t, performs_bind hp1 hp, ?_, List.forall_mem_cons.mpr ⟨hr1.kept hc ?_, hr⟩⟩
    · exact (hc1.mono (by simp) (List.Subset.refl _)).trans (hc.mono (by simp) (List.Subset.refl _))
    · simp only [List.mem_map, tidOf, not_exists, not_and]
      exact fun j hj he => hn.1 ((by omega : j = k) ▸ hj)

/-! ## One die boots (26 R387) -/

/-- The control cores of a die, and the slots in which they are released. -/
def controlCores (d : Nat) : List Nat := (List.range 4).map fun i => 3808 + 4 * d + i
def bootSlots (d : Nat) : List Nat := (controlCores d).map (tidOf · 0)

theorem nodup_controlCores (d : Nat) : (controlCores d).Nodup :=
  List.pairwise_map.mpr (List.nodup_range.imp fun hne heq => hne (Nat.add_left_cancel heq))

theorem mem_bootSlots {d id : Nat} : id ∈ bootSlots d ↔ ∃ i, i < 4 ∧ id = tidOf (3808 + 4 * d + i) 0 := by
  simp [bootSlots, controlCores, eq_comm]

/-- A die that stays held. -/
theorem outcome_bootFails (s : State) (d code : Nat) :
    ∃ t, Performs (bootFails d code) s () t ∧ Calm (bootSlots d) [d] s t ∧ (t.dieOf d).booted = false ∧ (t.dieOf d).bootFail = code := by
  refine ⟨_, performs_bind (performs_onDie ..) (performs_onPkg ..), ?_, ?_⟩
  · refine Calm.trans (calm_die (List.mem_singleton_self d) fun _ => ?_) (calm_pkg fun _ => ?_)
    · exact ⟨rfl, rfl, rfl⟩
    · rfl
  · rw [dieOf_pkg, dieOf_die_same]; exact ⟨rfl, rfl⟩

/-- The offset at which an image is released. -/
def entryOf (im : List Byte) : BitVec 16 := pcNorm (BitVec.ofNat 16 (Machine.field im 24 4))

theorem pcNorm_pcNorm (a : BitVec 16) : pcNorm (pcNorm a) = pcNorm a := by
  rw [pcNorm, pcNorm, BitVec.and_assoc, BitVec.and_self]

/-- The outcome of a boot depends on the fuses before it, and on the die and its control cores after it. -/
theorem bootOutcome_kept {s s' t t' : State} {d : Nat} {image : Option (List Byte)} (h : BootOutcome s t d image)
    (hs : (s'.dieOf d).svnfuse = (s.dieOf d).svnfuse) (ht : t'.dieOf d = t.dieOf d) (hid : ∀ id ∈ bootSlots d, t'.thread id = t.thread id) :
    BootOutcome s' t' d image := by
  obtain ⟨hmap, hnone, hsome⟩ := h
  refine ⟨by rwa [ht], by rwa [ht], fun im hm him => ?_⟩
  rw [hs, ht]
  refine ⟨(hsome im hm him).1, fun ha => ?_⟩
  obtain ⟨hb, hf, hr⟩ := (hsome im hm him).2 ha
  refine ⟨hb, hf, fun i hi => ?_⟩
  unfold ReleasedCore
  rw [hid _ (mem_bootSlots.mpr ⟨i, hi, rfl⟩)]
  exact hr i hi

/-- What a die and the package keep of an image that was accepted: the image, no errors where its text lies, bypasses and repairs. -/
def keepImage (d : Nat) (im : List Byte) (p : Pkg) : Pkg :=
  { p with
    firmware := im.take (8192 + blen im),
    eccBad := p.eccBad.filter fun x => x.1 < hbmKey d firmwareArea || hbmKey d firmwareArea + (imageBody im).length ≤ x.1 }
def bootedDie (d : Nat) (x : Die) : Die :=
  { x with
    booted := true, bootFail := 0,
    bypass := (List.range 16).map fun r => (r, retMask d r),
    repairs := (List.range 64).map fun c => (c, (defectWord d (0x100 + 8 * c)).toNat) }

/-- What a die does with an image that it has accepted: its text is copied, and its cores are released. -/
def acceptImage (d : Nat) (im : List Byte) : M Unit := do
  emit (.mem (hbmKey d firmwareArea) (imageBody im))
  onPkg (keepImage d im)
  onDie d (bootedDie d)
  releaseCores ((imageBody im).take 0x10000) (entryOf im) (controlCores d)

theorem outcome_acceptImage {s : State} {d : Nat} (hd : d < 8) (im : List Byte) (h : ∀ k ∈ controlCores d, Deaf s k) :
    ∃ t, Performs (acceptImage d im) s () t ∧ Calm (bootSlots d) [d] s t ∧ (t.dieOf d).booted = true ∧ (t.dieOf d).bootFail = 0 ∧
      ∀ k ∈ controlCores d, Released t k (entryOf im) := by
  have hk : ∀ k ∈ controlCores d, k < 2 ^ 19 := by
    simp only [controlCores, List.mem_map, List.mem_range]
    rintro k ⟨i, hi, rfl⟩
    omega
  have h1 : Calm (bootSlots d) [d] s ((Eff.mem (hbmKey d firmwareArea) (imageBody im)).apply s) := calm_mem ..
  have h2 := h1.trans (calm_pkg (f := keepImage d im) fun _ => rfl)
  have h3 := h2.trans (calm_die (f := bootedDie d) (List.mem_singleton_self d) fun _ => ⟨rfl, rfl, rfl⟩)
  obtain ⟨t, hp, hc, hr⟩ := released_releaseCores ((imageBody im).take 0x10000) (entryOf im) (nodup_controlCores d) hk fun k hk => h3.deaf k (h k hk)
  refine ⟨t, performs_bind (performs_emit ..) (performs_bind (performs_onPkg ..) (performs_bind (performs_onDie ..) hp)),
    h3.trans (hc.mono (List.Subset.refl _) (List.nil_subset _)), ?_, ?_, hr⟩
  · rw [hc.die d List.not_mem_nil, dieOf_die_same]; rfl
  · rw [hc.die d List.not_mem_nil, dieOf_die_same]; rfl

/-- A die boots, or stays held with the code of the first step that failed; the codes are the model's (DESIGN CHOICE, assumption 27). -/
theorem outcome_bootDie {s : State} {d : Nat} (hd : d < 8) (image : Option (List Byte)) (h : ∀ k ∈ controlCores d, Deaf s k) :
    ∃ t, Performs (bootDie d image) s () t ∧ Calm (bootSlots d) [d] s t ∧ BootOutcome s t d image := by
  have fails := outcome_bootFails s d
  cases hmap : mapHolds d with
  | false =>
    obtain ⟨t, hp, hc, hb⟩ := fails 1
    exact ⟨t, performs_ite_pos (by rw [hmap]; rfl) hp, hc, by simp [BootOutcome, hmap, hb]⟩
  | true =>
    have hgo : ¬(!mapHolds d) = true := by rw [hmap]; decide
    cases image with
    | none =>
      obtain ⟨t, hp, hc, hb⟩ := fails 7
      exact ⟨t, performs_ite_neg hgo hp, hc, by simp [BootOutcome, hmap, hb]⟩
    | some im =>
      cases hr : imageRefused im 1 (Config.keyDigest d) (s.dieOf d).svnfuse with
      | some code =>
        obtain ⟨t, hp, hc, hb⟩ := fails code
        refine ⟨t, performs_ite_neg hgo (performs_bind (performs_getD d s) ?_), hc, by simp [BootOutcome, hmap, hr, hb]⟩
        simp only [hr]; exact hp
      | none =>
        obtain ⟨t, hp, hc, hb, hf, hrel⟩ := outcome_acceptImage hd im h
        refine ⟨t, performs_ite_neg hgo (performs_bind (performs_getD d s) ?_), hc, ?_⟩
        · simp only [hr]; exact hp
        · have hcores : ∀ i, i < 4 → ReleasedCore t (3808 + 4 * d + i) im := fun i hi => by
            obtain ⟨hl, hst, hpw, hpc⟩ := hrel (3808 + 4 * d + i) (List.mem_map.mpr ⟨i, List.mem_range.mpr hi, rfl⟩)
            exact ⟨hl, hst, hpw, hpc.trans (pcNorm_pcNorm _)⟩
          simpa [BootOutcome, hmap, hr, hb, hf] using hcores

/-! ## Several dies boot in turn -/

theorem bootSlots_disjoint {d e id : Nat} (h : d ≠ e) (hid : id ∈ bootSlots d) : id ∉ bootSlots e := by
  rw [mem_bootSlots] at hid ⊢
  obtain ⟨i, hi, rfl⟩ := hid
  rintro ⟨j, hj, he⟩
  simp only [tidOf] at he
  omega

theorem outcome_bootDies {s : State} (image : Option (List Byte)) {ds : List Nat} (hn : ds.Nodup) (hd : ∀ d ∈ ds, d < 8)
    (h : ∀ k, Deaf s k) :
    ∃ t, Performs (bootDies image ds) s () t ∧ Calm (ds.flatMap bootSlots) ds s t ∧ ∀ d ∈ ds, BootOutcome s t d image := by
  induction ds generalizing s with
  | nil => exact ⟨s, performs_pure _ s, Calm.refl, fun _ h => absurd h List.not_mem_nil⟩
  | cons d ds ih =>
    rw [List.nodup_cons] at hn
    rw [List.forall_mem_cons] at hd
    obtain ⟨s1, hp1, hc1, hb1⟩ := outcome_bootDie hd.1 image fun k _ => h k
    obtain ⟨t, hp, hc, hb⟩ := ih hn.2 hd.2 fun k => hc1.deaf k (h k)
    refine ⟨t, performs_bind hp1 hp, ?_, List.forall_mem_cons.mpr ⟨?_, fun e he => ?_⟩⟩
    · exact (hc1.mono (by simp) (by simp)).trans (hc.mono (by simp) (by simp))
    · refine bootOutcome_kept hb1 rfl (hc.die d hn.1) fun id hid => thread_of_get? (hc.thread id ?_)
      rw [List.mem_flatMap]
      rintro ⟨e, he, hide⟩
      exact bootSlots_disjoint (fun (hde : d = e) => hn.1 (hde ▸ he)) hid hide
    · exact bootOutcome_kept (hb e he) (hc1.fuse e).symm rfl fun _ _ => rfl

end Sys2Proof.Boot
end

section
/-! PROOFS. Package reset and die reset: what their first stage clears, and the boot that follows (26 R387, 25 R371). -/

namespace Sys2Proof.Boot

open Sys2Proof.Machine Sys2Proof.Safety Sys2Proof.Laws

/-! ## Package reset: slots, cores and dies cleared (26 R387) -/

/-- Slots emptied one after another: no other change than the calendar's. -/
theorem emptied_emptyAll (s : State) (ids : List Nat) :
    ∃ t, Performs (emptyAll ids) s () t ∧ (∀ id, FMap.get? t.threads id = if id ∈ ids then none else FMap.get? s.threads id) ∧
      t.cores = s.cores ∧ t.dies = s.dies ∧ t.clock.now = s.clock.now := by
  induction ids generalizing s with
  | nil => exact ⟨s, performs_pure _ s, fun id => by simp, rfl, rfl, rfl⟩
  | cons i ids ih =>
    obtain ⟨t, hp, ht, hc, hd, hn⟩ := ih ((Eff.clock fun c =>
      { c with events := c.events.filter fun e => !(forSlot (i / 16) (i % 16) e.act) }).apply ((Eff.clear i).apply s))
    refine ⟨t, performs_bind (performs_bind (performs_emit ..) (performs_emit ..)) hp, fun id => ?_, hc, hd, hn⟩
    rw [ht id]
    show (if id ∈ ids then none else FMap.get? (FMap.erase s.threads i) id) = _
    rw [get?_erase]
    by_cases hid : id = i
    · simp [hid]
    · simp [hid]

/-- Cores wiped one after another. -/
theorem wiped_wipeCores (s : State) (ks : List Nat) :
    ∃ t, Performs (wipeCores ks) s () t ∧ (∀ k, t.coreOf k = if k ∈ ks then {} else s.coreOf k) ∧
      t.threads = s.threads ∧ t.dies = s.dies ∧ t.clock = s.clock := by
  induction ks generalizing s with
  | nil => exact ⟨s, performs_pure _ s, fun k => by simp, rfl, rfl, rfl⟩
  | cons j ks ih =>
    obtain ⟨t, hp, hk, ht, hd, hc⟩ := ih ((Eff.core j fun _ => {}).apply s)
    refine ⟨t, performs_bind (performs_emit ..) hp, fun k => ?_, ht, hd, hc⟩
    rw [hk k, coreOf_core]
    by_cases hkj : k = j
    · simp [hkj]
    · simp [hkj]

/-- A die that has left reset: its weight store holds matrices, its clusters belong to no partition, and its refresh rounds are due. -/
def Fresh (n : Nat) (t : State) (d : Nat) : Prop :=
  (t.dieOf d).wsServing = false ∧ (t.dieOf d).clpart = [] ∧ Safety.Due t (n + Config.engineTime 10 d) (.refreshPhase d)

/-- The state after the reset of a die. -/
def afterReset (d : Nat) (s : State) : State :=
  (Eff.clock fun c => c.plan (Config.engineTime 10 d) (.refreshPhase d)).apply
    ((Eff.die d fun x => { svnfuse := x.svnfuse, resetAt := s.clock.now + Config.engineTime 10 d }).apply s)

theorem performs_resetDie (d : Nat) (s : State) : Performs (resetDie d) s () (afterReset d s) :=
  performs_bind (performs_now s) (performs_bind (performs_emit ..) (performs_plan ..))

theorem fuse_afterReset (d e : Nat) (s : State) : ((afterReset d s).dieOf e).svnfuse = (s.dieOf e).svnfuse := by
  rw [afterReset, dieOf_clock, dieOf_die]
  split
  · next h => rw [h]
  · rfl

theorem fresh_afterReset (d : Nat) (s : State) : Fresh s.clock.now (afterReset d s) d := by
  refine ⟨?_, ?_, due_planned ((Eff.die d _).apply s) _ _⟩ <;> rw [afterReset, dieOf_clock, dieOf_die_same]

theorem Fresh.afterReset {n e : Nat} {s : State} (d : Nat) (h : Fresh n s e) : Fresh n (afterReset d s) e := by
  obtain ⟨hw, hp, hdue⟩ := h
  by_cases hed : e = d
  · subst hed
    refine ⟨?_, ?_, due_kept hdue⟩ <;> rw [Boot.afterReset, dieOf_clock, dieOf_die_same]
  · have hsame : (Boot.afterReset d s).dieOf e = s.dieOf e := by
      rw [Boot.afterReset, dieOf_clock, dieOf_die, if_neg hed]
    exact ⟨by rwa [hsame], by rwa [hsame], due_kept hdue⟩

/-- Dies reset one after another. -/
theorem fresh_resetDies (s : State) (ds : List Nat) :
    ∃ t, Performs (resetDies ds) s () t ∧ (∀ e, (t.dieOf e).svnfuse = (s.dieOf e).svnfuse) ∧ (∀ d ∈ ds, Fresh s.clock.now t d) ∧
      (∀ n e, Fresh n s e → Fresh n t e) ∧ t.threads = s.threads ∧ t.cores = s.cores ∧ t.pkg = s.pkg ∧ t.clock.todo = s.clock.todo := by
  induction ds generalizing s with
  | nil => exact ⟨s, performs_pure _ s, fun _ => rfl, fun _ h => absurd h List.not_mem_nil, fun _ _ h => h, rfl, rfl, rfl, rfl⟩
  | cons d ds ih =>
    obtain ⟨t, hp, hf, hds, hkeep, ht, hc, hpkg, htodo⟩ := ih (afterReset d s)
    refine ⟨t, performs_bind (performs_resetDie d s) hp, fun e => (hf e).trans (fuse_afterReset d e s), ?_,
      fun n e h => hkeep n e (h.afterReset d), ht, hc, hpkg, htodo⟩
    exact List.forall_mem_cons.mpr ⟨hkeep _ d (fresh_afterReset d s), hds⟩

theorem Fresh.kept {slots dies : List Nat} {n d : Nat} {s t : State} (h : Fresh n s d) (hc : Calm slots dies s t) : Fresh n t d := by
  obtain ⟨hw, hp, hdue⟩ := h
  refine ⟨(hc.mode d).trans hw, (hc.part d).trans hp, ?_⟩
  rw [Safety.Due, hc.events]
  exact hdue

/-- The image from which a package boots: that of the storage port, or else that of the management port. -/
def packageImage (b : BootImage) : Option (List Byte) :=
  match b.storage with
  | some im => some im
  | none => b.management

/-- What stands after the reset of a package, before its dies boot: no thread, no registration at any core, fuses and refresh rounds. -/
structure Cleared (s t : State) : Prop where
  thread : ∀ id, FMap.get? t.threads id = none
  deaf : ∀ k, Deaf t k
  todo : t.clock.todo = []
  tasks : t.pkg.tasks = []
  fuse : ∀ d, (t.dieOf d).svnfuse = (s.dieOf d).svnfuse
  fresh : ∀ d, d < 8 → Fresh s.clock.now t d

/-- The calendar forgotten, and of the package as a whole what a reset does not keep. -/
def unplanned (s : State) : State :=
  (Eff.pkg fun p => {
      seeds := p.seeds, outbox := p.outbox, eccBad := p.eccBad, number := p.number, nextUid := p.nextUid, nextAccess := p.nextAccess,
      nextMessage := p.nextMessage, saved := p.saved, savedCores := p.savedCores }).apply
    ((Eff.clock fun c => { c with todo := [], events := [] }).apply s)

theorem outcome_packageReset (s : State) (b : BootImage) :
    ∃ u t, exec (.packageReset b) s = .next t ∧ Cleared s u ∧ Calm ((List.range 8).flatMap bootSlots) (List.range 8) u t ∧
      ∀ d, d < 8 → BootOutcome u t d (packageImage b) := by
  obtain ⟨s1, hp1, ht1, hc1, hd1, hn1⟩ := emptied_emptyAll s (s.threads.map Prod.fst)
  obtain ⟨s2, hp2, hk2, ht2, hd2, hcl2⟩ := wiped_wipeCores s1 (s.cores.map Prod.fst)
  have hempty : ∀ id, FMap.get? s2.threads id = none := fun id => by
    rw [ht2, ht1 id]
    split
    · rfl
    · next hid => exact get?_of_not_key hid
  have hcore : ∀ k, s2.coreOf k = {} := fun k => by
    rw [hk2 k]
    split
    · rfl
    · next h => rw [State.coreOf, hc1, FMap.get, get?_of_not_key h]; rfl
  obtain ⟨u, hp3, hf3, hds3, -, ht3, hc3, hpkg3, htodo3⟩ := fresh_resetDies (unplanned s2) (List.range 8)
  have hclear : Cleared s u :=
    { thread := fun id => by rw [ht3]; exact hempty id
      deaf := fun k => by
        have hk : u.coreOf k = {} := by rw [State.coreOf, hc3]; exact hcore k
        rw [Deaf, hk]
        exact ⟨rfl, rfl⟩
      todo := htodo3
      tasks := by rw [hpkg3]; rfl
      fuse := fun d => (hf3 d).trans (by show (FMap.get {} s2.dies d).svnfuse = _; rw [hd2, hd1]; rfl)
      fresh := fun d hd => by
        have h := hds3 d (List.mem_range.mpr hd)
        have hn : (unplanned s2).clock.now = s.clock.now := (congrArg Clock.now hcl2).trans hn1
        rwa [hn] at h }
  obtain ⟨t, hp4, hc4, hb4⟩ := outcome_bootDies (packageImage b) List.nodup_range (fun d hd => List.mem_range.mp hd) hclear.deaf
  refine ⟨u, t, event_next ?_, hclear, hc4, fun d hd => hb4 d (List.mem_range.mpr hd)⟩
  exact performs_bind (performs_getS s) (performs_bind hp1 (performs_bind hp2 (performs_bind (performs_emit ..)
    (performs_bind (performs_emit ..) (performs_bind hp3 hp4)))))

theorem packageReset : Claim.PackageReset := by
  intro s b
  obtain ⟨u, t, hex, hclear, hc, hb⟩ := outcome_packageReset s b
  refine ⟨t, hex, fun id hid => ?_, hc.todo.trans hclear.todo, hc.tasks.trans hclear.tasks, fun d hd => ?_⟩
  · rw [occupied_eq_false, hc.thread id ?_]
    · exact hclear.thread id
    · simp only [List.mem_flatMap, List.mem_range, mem_bootSlots]
      rintro ⟨d, hd, i, hi, rfl⟩
      exact hid (4 * d + i) (by omega) (by rw [Nat.add_assoc])
  · obtain ⟨hmode, hpart, hdue⟩ := (hclear.fresh d hd).kept hc
    have hfuse := hclear.fuse d
    exact ⟨(hc.fuse d).trans hfuse, hmode, hpart, hdue, bootOutcome_kept (hb d hd) hfuse.symm rfl fun _ _ => rfl⟩

/-! ## Die reset: the cores of one die cleared (25 R371) -/

/-- What the clearing of some cores keeps: the threads of all other cores, slots that are empty, the fuses, the cycle, and who is deaf. -/
structure Clearing (ks : List Nat) (s t : State) : Prop where
  thread : ∀ id, id / 16 ∉ ks → FMap.get? t.threads id = FMap.get? s.threads id
  empty : ∀ id, FMap.get? s.threads id = none → FMap.get? t.threads id = none
  fuse : ∀ e, (t.dieOf e).svnfuse = (s.dieOf e).svnfuse
  now : t.clock.now = s.clock.now
  deaf : ∀ k, Deaf s k → Deaf t k

section
variable {ks : List Nat} {s t u s0 : State}

theorem Clearing.refl : Clearing ks s s := ⟨fun _ _ => rfl, fun _ h => h, fun _ => rfl, rfl, fun _ h => h⟩

theorem Clearing.trans (h : Clearing ks s t) (k : Clearing ks t u) : Clearing ks s u where
  thread id hid := (k.thread id hid).trans (h.thread id hid)
  empty id hid := k.empty id (h.empty id hid)
  fuse e := (k.fuse e).trans (h.fuse e)
  now := k.now.trans h.now
  deaf j hj := k.deaf j (h.deaf j hj)

theorem Clearing.mono {ks' : List Nat} (h : Clearing ks s t) (hk : ks ⊆ ks') : Clearing ks' s t :=
  { h with thread := fun id hid => h.thread id fun hm => hid (hk hm) }

theorem clearing_clock {f : Clock → Clock} (h : ∀ c, (f c).now = c.now) : Clearing ks s ((Eff.clock f).apply s) :=
  { (Clearing.refl : Clearing ks s s) with now := h _ }

theorem clearing_pkg (f : Pkg → Pkg) : Clearing ks s ((Eff.pkg f).apply s) := { (Clearing.refl : Clearing ks s s) with }

theorem clearing_die {d : Nat} {f : Die → Die} (h : ∀ x, (f x).svnfuse = x.svnfuse) : Clearing ks s ((Eff.die d f).apply s) :=
  { (Clearing.refl : Clearing ks s s) with
    fuse := fun e => by
      rw [dieOf_die]
      split
      · next he => subst he; exact h _
      · rfl }

theorem clearing_core {k : Nat} {f : Core → Core} (hm : ∀ c, c.monRegs = [] → (f c).monRegs = []) (hb : ∀ c, c.barriers = [] → (f c).barriers = []) :
    Clearing ks s ((Eff.core k f).apply s) :=
  { (Clearing.refl : Clearing ks s s) with
    deaf := fun j hj => by
      unfold Deaf
      rw [coreOf_core]
      split
      · next e => subst e; exact ⟨hm _ hj.1, hb _ hj.2⟩
      · exact hj }

theorem clearing_clear {id : Nat} (h : id / 16 ∈ ks) : Clearing ks s ((Eff.clear id).apply s) :=
  { (Clearing.refl : Clearing ks s s) with
    thread := fun n hn => (get?_erase ..).trans (if_neg fun (e : n = id) => hn (e ▸ h))
    empty := fun n hn => by rw [clear_threads, get?_erase, hn, ite_self] }

theorem clearing_thr {id : Nat} {f : Thread → Thread} (h : id / 16 ∈ ks) : Clearing ks s ((Eff.thr id f).apply s) := by
  show Clearing ks s (s.modThread id _)
  cases ht : FMap.get? s.threads id with
  | none => rw [modThread_none _ ht]; exact Clearing.refl
  | some x =>
    rw [modThread_some _ ht]
    exact { (Clearing.refl : Clearing ks s s) with
      thread := fun n hn => (get?_set ..).trans (if_neg fun (e : n = id) => hn (e ▸ h))
      empty := fun n hn => (get?_set ..).trans (by
        rw [if_neg, hn]
        rintro rfl
        rw [hn] at ht
        cases ht) }

theorem keeps_clearing {e : Eff} (h : ∀ s, Clearing ks s (e.apply s)) : Keeps (Clearing ks s0) (emit e) := keeps_emit fun s hs => hs.trans (h s)

theorem clearing_of_keeps {α : Type} {m : M α} (h : Keeps (Clearing ks s) m) : ∃ a t, Performs m s a t ∧ Clearing ks s t := h s Clearing.refl

/-! ### What a thread has sent to other packages is taken back -/

theorem keeps_sendFlit (port : Nat) (p : FlitPayload) : Keeps (Clearing ks s0) (sendFlit port p) :=
  keeps_bind (keeps_clearing fun _ => clearing_pkg _) fun _ => keeps_clearing fun _ => clearing_die fun _ => rfl

theorem keeps_unregister {id : Nat} (h : id / 16 ∈ ks) (index : Nat) : Keeps (Clearing ks s0) (unregister id index) := by
  refine keeps_bind keeps_read fun t => ?_
  cases FMap.get? t.monitors index with
  | none => exact keeps_pure _
  | some mon =>
    have drop (f : Thread → Thread) : Keeps (Clearing ks s0) (thr id f) := keeps_clearing fun _ => clearing_thr h
    dsimp only
    cases mon.away with
    | none =>
      exact keeps_bind (keeps_clearing fun _ => clearing_core (fun c hc => by simp [hc]) fun _ hc => hc) fun _ => drop _
    | some p =>
      exact keeps_bind (keeps_sendFlit _ _) fun _ => drop _

theorem keeps_disarmAll {id : Nat} (h : id / 16 ∈ ks) : Keeps (Clearing ks s0) (disarmAll id) :=
  keeps_bind (keeps_unregister h 0) fun _ => keeps_bind (keeps_unregister h 1) fun _ => keeps_bind (keeps_unregister h 2) fun _ =>
    keeps_unregister h 3

theorem keeps_unbindAway (k t : Nat) (xs : FMap (Option (Nat × Nat) × Nat × Nat × Word)) : Keeps (Clearing ks s0) (unbindAway k t xs) := by
  induction xs with
  | nil => exact keeps_pure _
  | cons x xs ih =>
    refine keeps_ite ?_ ih
    exact keeps_bind keeps_getS fun _ => keeps_bind (keeps_sendFlit _ _) fun _ => keeps_bind (keeps_clearing fun _ => clearing_pkg _) fun _ => ih

theorem keeps_recallAll (id : Nat) (ns : List (Nat × Nat)) : Keeps (Clearing ks s0) (recallAll id ns) := by
  induction ns with
  | nil => exact keeps_pure _
  | cons n ns ih =>
    refine keeps_bind keeps_getS fun s => ?_
    cases FMap.get? (s.thread id).outstanding n.1 with
    | none => exact ih
    | some a =>
      exact keeps_bind (keeps_sendFlit _ _) fun _ => keeps_bind (keeps_clearing fun _ => clearing_pkg _) fun _ => ih

theorem keeps_takeBack {id : Nat} (h : id / 16 ∈ ks) (byLimit : Bool) : Keeps (Clearing ks s0) (takeBack id byLimit) := by
  refine keeps_bind keeps_read fun t => ?_
  have mark (f : Thread → Thread) : Keeps (Clearing ks s0) (thr id f) := keeps_clearing fun _ => clearing_thr h
  cases t.recalled with
  | some b => exact mark _
  | none => exact keeps_bind (keeps_recallAll _ _) fun _ => mark _

theorem keeps_dropAway {id : Nat} (h : id / 16 ∈ ks) : Keeps (Clearing ks s0) (dropAway id) := by
  refine keeps_bind (keeps_disarmAll h) fun _ => keeps_bind keeps_getS fun _ => keeps_bind (keeps_unbindAway _ _ _) fun _ =>
    keeps_bind keeps_read fun t => ?_
  split
  · exact keeps_takeBack h false
  · exact keeps_pure _

/-- A slot becomes empty. -/
theorem clearing_emptySlot {id : Nat} (h : id / 16 ∈ ks) :
    ∃ t, Performs (emptySlot id) s () t ∧ Clearing ks s t ∧ FMap.get? t.threads id = none :=
  ⟨_, performs_bind (performs_emit ..) (performs_emit ..), (clearing_clear h).trans (clearing_clock fun _ => rfl),
    (get?_erase s.threads id id).trans (if_pos rfl)⟩

/-! ### The slots of a core, and all of it -/

theorem clearing_clearSlots (ids : List Nat) (h : ∀ id ∈ ids, id / 16 ∈ ks) :
    ∃ t, Performs (clearSlots ids) s () t ∧ Clearing ks s t ∧ ∀ id ∈ ids, FMap.get? t.threads id = none := by
  induction ids generalizing s with
  | nil => exact ⟨s, performs_pure _ s, Clearing.refl, fun _ h => absurd h List.not_mem_nil⟩
  | cons id ids ih =>
    rw [List.forall_mem_cons] at h
    obtain ⟨⟨⟩, s1, hp1, hc1⟩ := clearing_of_keeps (s := s) (keeps_dropAway h.1)
    obtain ⟨s2, hp2, hc2, he2⟩ := clearing_emptySlot (s := s1) h.1
    obtain ⟨t, hp, hc, he⟩ := ih (s := s2) h.2
    exact ⟨t, performs_bind hp1 (performs_bind hp2 hp), hc1.trans (hc2.trans hc), List.forall_mem_cons.mpr ⟨hc.empty id he2, he⟩⟩

/-- Every slot of a core is empty. -/
def SlotsEmpty (t : State) (k : Nat) : Prop := ∀ id, id / 16 = k → FMap.get? t.threads id = none

theorem SlotsEmpty.kept {k : Nat} (h : SlotsEmpty s k) (hc : Clearing ks s t) : SlotsEmpty t k := fun id hid => hc.empty id (h id hid)

theorem clearing_loseSlots (k : Nat) : ∃ t, Performs (loseSlots k) s () t ∧ Clearing [k] s t ∧ SlotsEmpty t k := by
  obtain ⟨s1, hp1, hc1, he1⟩ := clearing_clearSlots (s := s) (ks := [k]) ((List.range 16).map (tidOf k)) (by
    simp only [List.mem_map, List.mem_range, tidOf, List.mem_singleton]
    rintro id ⟨i, hi, rfl⟩
    omega)
  have hempty : SlotsEmpty s1 k := fun id hid =>
    he1 id (List.mem_map.mpr ⟨id % 16, List.mem_range.mpr (Nat.mod_lt _ (by decide)), by rw [tidOf]; omega⟩)
  have hc2 : Clearing [k] s1 _ := clearing_pkg fun p => { p with furrows := p.furrows.filter fun f => f.1 ≠ k }
  have hc3 := hc2.trans (clearing_core (k := k) (f := fun c => { c with rings := [], receivers := [], graftq := [] }) (fun _ h => h) fun _ h => h)
  exact ⟨_, performs_bind hp1 (performs_bind (performs_onPkg ..) (performs_onCore ..)), hc1.trans hc3, hempty.kept hc3⟩

theorem keeps_resetLinks (k : Nat) (ds : List Dir) : Keeps (Clearing ks s0) (resetLinks k ds) := by
  induction ds with
  | nil => exact keeps_pure _
  | cons d ds ih =>
    refine keeps_bind keeps_getS fun _ => keeps_bind (keeps_clearing fun _ => ?_) fun _ => keeps_bind (keeps_clearing fun _ => ?_) fun _ => ih
    · exact clearing_core (fun _ h => h) fun _ h => h
    · exact clearing_core (fun _ h => h) fun _ h => h

theorem keeps_glbChanged (k : Nat) : Keeps (Clearing ks s0) (glbChanged k) := by
  have each (part : Option Nat) (cs : List (Nat × Machine.Core)) : Keeps (Clearing ks s0) (planGlb part cs) := by
    induction cs with
    | nil => exact keeps_pure _
    | cons c cs ih =>
      refine keeps_bind keeps_getS fun _ => keeps_ite (keeps_bind keeps_read fun _ => keeps_bind (keeps_clearing fun _ => ?_) fun _ => ih) ih
      exact clearing_clock fun _ => rfl
  exact keeps_bind keeps_getS fun _ => each _ _

/-- A core's registers at their reset values, with no event of its array and domains due. -/
def wiped (k : Nat) (s : State) : State :=
  (Eff.core k fun _ => {}).apply ((Eff.clock fun c => { c with events := c.events.filter fun e => !(ownedBy k e.act) }).apply s)

theorem clearing_wiped (k : Nat) : Clearing ks s (wiped k s) := by
  refine Clearing.trans ?_ (clearing_core (fun _ _ => rfl) fun _ _ => rfl)
  exact clearing_clock fun _ => rfl

theorem deaf_wiped (k : Nat) : Deaf (wiped k s) k := by
  rw [Deaf, wiped, coreOf_core_same]; exact ⟨rfl, rfl⟩

/-- The links of a core that has them are empty on both sides, and its partition learns of the reset. -/
def relink (k : Nat) : M Unit :=
  if hasLinks k then do
    emit (.clock fun c => { c with events := c.events.filter fun e => !(linkDue k e.act) })
    resetLinks k [.n, .e, .s, .w]
    glbChanged k
  else glbChanged k

theorem keeps_relink (k : Nat) : Keeps (Clearing ks s0) (relink k) :=
  keeps_ite (keeps_bind (keeps_clearing fun _ => clearing_clock fun _ => rfl) fun _ => keeps_bind (keeps_resetLinks _ _) fun _ => keeps_glbChanged k)
    (keeps_glbChanged k)

/-- A core at its reset values: its slots are empty and nobody listens there. -/
theorem clearing_clearSeal (k : Nat) : ∃ t, Performs (clearSeal k) s () t ∧ Clearing [k] s t ∧ SlotsEmpty t k ∧ Deaf t k := by
  obtain ⟨s1, hp1, hc1, he1⟩ := clearing_loseSlots (s := s) k
  have hc2 : Clearing [k] s1 (wiped k s1) := clearing_wiped k
  obtain ⟨⟨⟩, t, hp, hc⟩ := clearing_of_keeps (ks := [k]) (s := wiped k s1) (keeps_relink k)
  exact ⟨t, performs_bind hp1 (performs_bind (performs_emit ..) (performs_bind (performs_emit ..) hp)), hc1.trans (hc2.trans hc),
    (he1.kept hc2).kept hc, hc.deaf k (deaf_wiped k)⟩

theorem clearing_clearSeals (js : List Nat) : ∃ t, Performs (clearSeals js) s () t ∧ Clearing js s t ∧ ∀ k ∈ js, SlotsEmpty t k ∧ Deaf t k := by
  induction js generalizing s with
  | nil => exact ⟨s, performs_pure _ s, Clearing.refl, fun _ h => absurd h List.not_mem_nil⟩
  | cons k js ih =>
    obtain ⟨s1, hp1, hc1, he1, hd1⟩ := clearing_clearSeal (s := s) k
    obtain ⟨t, hp, hc, hk⟩ := ih (s := s1)
    exact ⟨t, performs_bind hp1 hp, (hc1.mono (by simp)).trans (hc.mono (by simp)),
      List.forall_mem_cons.mpr ⟨⟨he1.kept hc, hc.deaf k hd1⟩, hk⟩⟩

end

/-! ## Die reset -/

/-- The die of a core, by its range in the identity table (01 R12). -/
theorem dieOf_compute {k : Nat} (h : k < 3584) : dieOf k = k / 448 := by
  have hk : kindOf k = .compute := by rw [kindOf, if_pos h]
  rw [dieOf, hk]

theorem dieOf_cluster {k : Nat} (h1 : 3584 ≤ k) (h2 : k < 3808) : dieOf k = (k - 3584) / 28 := by
  have hk : kindOf k = .cluster := by rw [kindOf, if_neg (by omega), if_pos h2]
  rw [dieOf, hk]

theorem dieOf_dieCtl {k : Nat} (h1 : 3808 ≤ k) (h2 : k < 3840) : dieOf k = (k - 3808) / 4 := by
  have hk : kindOf k = .dieCtl := by rw [kindOf, if_neg (by omega), if_neg (by omega), if_pos h2]
  rw [dieOf, hk]

theorem dieOf_memSide {k : Nat} (h1 : 3840 ≤ k) (h2 : k < 4352) : dieOf k = (k - 3840) / 64 := by
  have hk : kindOf k = .memSide := by rw [kindOf, if_neg (by omega), if_neg (by omega), if_neg (by omega), if_pos h2]
  rw [dieOf, hk]

theorem dieOf_port {k : Nat} (h : 4352 ≤ k) : dieOf k = (k - 4352) / 16 := by
  have hk : kindOf k = .port := by rw [kindOf, if_neg (by omega), if_neg (by omega), if_neg (by omega), if_neg (by omega)]
  rw [dieOf, hk]

/-- The cores of a die are those that the identity table gives it (01 R12). -/
theorem mem_coresOfDie {d k : Nat} (hd : d < 8) : k ∈ coresOfDie d ↔ dieOf k = d := by
  simp only [coresOfDie, List.mem_append, List.mem_map, List.mem_range]
  constructor
  · rintro ((((⟨i, hi, rfl⟩ | ⟨i, hi, rfl⟩) | ⟨i, hi, rfl⟩) | ⟨i, hi, rfl⟩) | ⟨i, hi, rfl⟩)
    · rw [dieOf_compute (by omega)]; omega
    · rw [dieOf_cluster (by omega) (by omega)]; omega
    · rw [dieOf_dieCtl (by omega) (by omega)]; omega
    · rw [dieOf_memSide (by omega) (by omega)]; omega
    · rw [dieOf_port (by omega)]; omega
  · intro h
    by_cases h1 : k < 3584
    · rw [dieOf_compute h1] at h
      exact .inl (.inl (.inl (.inl ⟨k % 448, by omega, by omega⟩)))
    by_cases h2 : k < 3808
    · rw [dieOf_cluster (by omega) h2] at h
      exact .inl (.inl (.inl (.inr ⟨(k - 3584) % 28, by omega, by omega⟩)))
    by_cases h3 : k < 3840
    · rw [dieOf_dieCtl (by omega) h3] at h
      exact .inl (.inl (.inr ⟨(k - 3808) % 4, by omega, by omega⟩))
    by_cases h4 : k < 4352
    · rw [dieOf_memSide (by omega) h4] at h
      exact .inl (.inr ⟨(k - 3840) % 64, by omega, by omega⟩)
    · rw [dieOf_port (by omega)] at h
      exact .inr ⟨(k - 4352) % 16, by omega, by omega⟩

theorem controlCores_subset {d : Nat} : controlCores d ⊆ coresOfDie d := fun k h => by
  simp only [coresOfDie, List.mem_append]
  exact .inl (.inl (.inr (by rwa [controlCores, Nat.mul_comm] at h)))

/-- Without waiters at the homes of the die, no thread of another die executes its word again. -/
theorem performs_retryAll {s : State} {d : Nat} (h : ∀ c ∈ s.cores, dieOf c.1 = d → c.2.waiters = []) :
    Performs (retryAll d (s.cores.flatMap fun c => if dieOf c.1 = d then c.2.waiters else [])) s () s := by
  have hnil : (s.cores.flatMap fun c => if dieOf c.1 = d then c.2.waiters else []) = [] := by
    simp only [List.flatMap_eq_nil_iff, ite_eq_right_iff]
    exact h
  rw [hnil]
  exact performs_pure _ s

/-- The calendar without a die's own events, and the tasks of other dies. -/
def undue (d : Nat) (s : State) : State :=
  (Eff.pkg fun p => { p with tasks := p.tasks.filter fun t => t.2.die ≠ d }).apply
    ((Eff.clock fun c => { c with events := c.events.filter fun e => !(dieDue d e.act) }).apply s)

theorem clearing_undue {ks : List Nat} {s : State} (d : Nat) : Clearing ks s (undue d s) := by
  refine Clearing.trans ?_ (clearing_pkg _)
  exact clearing_clock fun _ => rfl

/-- A die is reset in two stages: its cores and its scheduler are cleared, and then it boots again from the image that was accepted (DESIGN CHOICE,
assumption 27). -/
theorem outcome_dieReset {s : State} {d : Nat} (hd : d < 8) (h : ∀ c ∈ s.cores, dieOf c.1 = d → c.2.waiters = []) :
    ∃ u t, exec (.dieReset d) s = .next t ∧ Clearing (coresOfDie d) s u ∧ (∀ k ∈ coresOfDie d, SlotsEmpty u k) ∧
      Calm (bootSlots d) [d] (afterReset d u) t ∧
      BootOutcome (afterReset d u) t d (if s.pkg.firmware.isEmpty then none else some s.pkg.firmware) := by
  obtain ⟨s1, hp1, hc1, hk1⟩ := clearing_clearSeals (s := s) (coresOfDie d)
  have hc2 : Clearing (coresOfDie d) s1 (undue d s1) := clearing_undue d
  obtain ⟨t, hp, hc, hb⟩ := outcome_bootDie hd (s := afterReset d (undue d s1)) (if s.pkg.firmware.isEmpty then none else some s.pkg.firmware)
    fun k hk => hc2.deaf k (hk1 k (controlCores_subset hk)).2
  refine ⟨undue d s1, t, event_next ?_, hc1.trans hc2, fun k hk => (hk1 k hk).1.kept hc2, hc, hb⟩
  exact performs_bind (performs_getS s) (performs_bind (performs_retryAll h) (performs_bind hp1 (performs_bind (performs_emit ..)
    (performs_bind (performs_onPkg ..) (performs_bind (performs_resetDie d _) hp)))))

theorem dieReset : Claim.DieReset := by
  intro s d hd h
  obtain ⟨u, t, hex, hu, hempty, hc, hb⟩ := outcome_dieReset hd h
  have hfuse : ((afterReset d u).dieOf d).svnfuse = (s.dieOf d).svnfuse := (fuse_afterReset d d u).trans (hu.fuse d)
  obtain ⟨-, hpart, hdue⟩ := (fresh_afterReset d u).kept hc
  refine ⟨t, hex, fun id hid hslot => ?_, fun id hid => ?_, (hc.fuse d).trans hfuse, hpart, hu.now ▸ hdue,
    bootOutcome_kept hb hfuse.symm rfl fun _ _ => rfl⟩
  · rw [occupied_eq_false, hc.thread id fun hm => ?_]
    · exact hempty _ ((mem_coresOfDie hd).mpr hid) id rfl
    · obtain ⟨i, hi, he⟩ := mem_bootSlots.mp hm
      exact hslot i hi he
  · have hcore : id / 16 ∉ coresOfDie d := fun hm => hid ((mem_coresOfDie hd).mp hm)
    refine thread_of_get? ((hc.thread id fun hm => ?_).trans (hu.thread id hcore))
    obtain ⟨i, hi, rfl⟩ := mem_bootSlots.mp hm
    refine hcore (controlCores_subset (List.mem_map.mpr ⟨i, List.mem_range.mpr hi, ?_⟩))
    rw [tidOf]
    omega

/-- Settles O60: register writes by the one effect that each has, images and attestation by the order of their checks, and the two resets by their
stages: what clears slots and cores keeps the fuses and leaves nobody listening, and so the boot that follows changes its own die and slots only. -/
theorem bootAndRegisterWrites : Obligations.BootAndRegisterWrites :=
  ⟨registerWrites, namedWrites, packageReset, dieReset, imageChecks, attestation⟩

end Sys2Proof.Boot
end

section
/-! PROOFS. Every outcome of an instruction or event is made of effects, and every effect keeps the invariant (03 R41, R49, 10 R178). -/

namespace Sys2Proof.Steps

open Sys2Proof.Machine Sys2Proof.Safety Sys2Proof.Laws

/-! ## Finite maps whose keys rise -/

theorem mem_of_mem_set {α : Type} {m : FMap α} {i : Nat} {x : α} {p : Nat × α} (h : p ∈ FMap.set m i x) : p = (i, x) ∨ p ∈ m := by
  induction m with
  | nil => exact .inl (List.mem_singleton.mp h)
  | cons q m ih =>
    unfold FMap.set at h
    split at h
    · subst_vars
      exact (List.mem_cons.mp h).imp id (List.mem_cons_of_mem _)
    · split at h
      · exact List.mem_cons.mp h
      · obtain rfl | h := List.mem_cons.mp h
        · exact .inr (List.mem_cons_self ..)
        · exact (ih h).imp id (List.mem_cons_of_mem _)

theorem ordered_set {α : Type} {m : FMap α} (h : Ordered m) (i : Nat) (x : α) : Ordered (FMap.set m i x) := by
  induction m with
  | nil => exact List.pairwise_singleton ..
  | cons q m ih =>
    obtain ⟨hq, hm⟩ := List.pairwise_cons.mp h
    unfold FMap.set
    split
    · subst_vars
      exact List.pairwise_cons.mpr ⟨hq, hm⟩
    · split
      · refine List.pairwise_cons.mpr ⟨fun p hp => ?_, h⟩
        obtain rfl | hp := List.mem_cons.mp hp
        · assumption
        · exact Nat.lt_trans ‹_› (hq p hp)
      · refine List.pairwise_cons.mpr ⟨fun p hp => ?_, ih hm⟩
        obtain rfl | hp := mem_of_mem_set hp
        · show q.1 < i
          omega
        · exact hq p hp

theorem ordered_erase {α : Type} {m : FMap α} (h : Ordered m) (i : Nat) : Ordered (FMap.erase m i) := h.filter _

theorem mem_of_get? {α : Type} {m : FMap α} {i : Nat} {x : α} (h : FMap.get? m i = some x) : (i, x) ∈ m := by
  induction m with
  | nil => cases h
  | cons q m ih =>
    unfold FMap.get? at h
    split at h
    · cases h; subst_vars; exact List.mem_cons_self ..
    · exact List.mem_cons_of_mem _ (ih h)

/-! ## Effects keep the invariant -/

/-- The predicate word and the program counter of a thread as every step leaves them. -/
def Normal (t : Thread) : Prop := t.pw = pwNorm t.pw ∧ t.pc = pcNorm t.pc

theorem pwNorm_pwNorm (v : BitVec 32) : pwNorm (pwNorm v) = pwNorm v := by
  ext i hi
  simp only [pwNorm, BitVec.getElem_or, BitVec.getElem_and]
  grind

theorem inv_set {s : State} (h : Safety.Inv s) (id : Nat) {t : Thread} (ht : Normal t) :
    Safety.Inv { s with threads := FMap.set s.threads id t } := by
  obtain ⟨hmem, hord, hnorm⟩ := h
  refine ⟨hmem, ordered_set hord id t, fun p hp => ?_⟩
  obtain rfl | hp := mem_of_mem_set hp
  · exact ht
  · exact hnorm p hp

theorem inv_modThread {s : State} (h : Safety.Inv s) (id : Nat) {f : Thread → Thread} (hf : ∀ t, Normal t → Normal (f t)) :
    Safety.Inv (s.modThread id f) := by
  unfold State.modThread
  split
  next t ht =>
    exact inv_set h id (hf t (h.2.2 _ (mem_of_get? ht)))
  · exact h

/-- The invariant speaks of memory and threads alone. -/
theorem inv_of_same {s t : State} (h : Safety.Inv s) (hm : t.mem = s.mem) (ht : t.threads = s.threads) : Safety.Inv t := by
  unfold Safety.Inv
  rwa [hm, ht]

theorem inv_apply (e : Eff) {s : State} (h : Safety.Inv s) : Safety.Inv (e.apply s) := by
  obtain ⟨hmem, hord, hnorm⟩ := h
  have h : Safety.Inv s := ⟨hmem, hord, hnorm⟩
  cases e with
  | mem | wipe => exact ⟨wf_apply _ hmem, hord, hnorm⟩
  | tag | poison | core | die | clock | pkg => exact inv_of_same h rfl rfl
  | reg id n r => exact inv_modThread h id fun _ ht => ht
  | pw id v => exact inv_modThread h id fun t ht => ⟨(pwNorm_pwNorm v).symm, ht.2⟩
  | pc id a => exact inv_modThread h id fun t ht => ⟨ht.1, (Boot.pcNorm_pcNorm a).symm⟩
  | thr id f => exact inv_modThread h id fun _ ht => ht
  | place id t => exact inv_set h id ⟨(pwNorm_pwNorm _).symm, (Boot.pcNorm_pcNorm _).symm⟩
  | clear id => exact ⟨hmem, ordered_erase hord id, fun p hp => hnorm p (List.mem_filter.mp hp).1⟩

theorem inv_applyAll (es : List Eff) {s : State} (h : Safety.Inv s) : Safety.Inv (applyAll es s) := by
  induction es generalizing s with
  | nil => exact h
  | cons e es ih => exact ih (inv_apply e h)

/-! ## Outcomes made of effects -/

/-- If an outcome is a next state, effects lead to it. -/
def ByEffects (s : State) (o : Out) : Prop := ∀ t, o = .next t → ∃ es, t = applyAll es s

section
variable {s : State}

theorem byEffects_next (es : List Eff) : ByEffects s (.next (applyAll es s)) := fun _ h => ⟨es, by cases h; rfl⟩
theorem byEffects_same : ByEffects s (.next s) := byEffects_next []
theorem byEffects_fault (f : Fault) : ByEffects s (.fault f) := fun _ h => nomatch h
theorem byEffects_refused (r : Refusal) : ByEffects s (.refused r) := fun _ h => nomatch h

theorem byEffects_event (m : M Unit) (s : State) : ByEffects s (event m s) := by
  unfold event
  split
  · exact byEffects_next _
  · exact byEffects_fault _
  · exact byEffects_refused _
  · exact byEffects_same

theorem byEffects_trapOr (m : M Unit) (s : State) : ByEffects s (trapOr m s) := by
  unfold trapOr
  split <;> exact byEffects_event _ _

theorem byEffects_finish (m : M Flow) (s : State) : ByEffects s (finish m s) := by
  unfold finish
  split
  · exact byEffects_next _
  · exact byEffects_event _ _
  · exact byEffects_trapOr _ _
  · exact byEffects_trapOr _ _
  · exact byEffects_fault _
  · exact byEffects_refused _

theorem byEffects_instr (f : Form) (body : M Flow) (s : State) : ByEffects s (instr f body s) := byEffects_finish _ _

theorem byEffects_answer (k t : Nat) (again : Instr) (body : M Unit) (s : State) : ByEffects s (answer k t again body s) := by
  unfold answer
  dsimp only
  split
  · split
    · exact byEffects_next _
    · exact byEffects_event _ _
    · exact byEffects_event _ _
    · exact byEffects_same
    · exact byEffects_fault _
    · exact byEffects_refused _
  · exact byEffects_same

theorem byEffects_annulledWordPass (k t : Nat) (s : State) : ByEffects s (execAnnulledWordPass k t s) := by
  unfold execAnnulledWordPass
  split
  · exact byEffects_event _ _
  · exact byEffects_same

theorem byEffects_asyncEventDelivery (k t : Nat) (s : State) : ByEffects s (execAsyncEventDelivery k t s) := by
  unfold execAsyncEventDelivery
  split
  · exact byEffects_event _ _
  · exact byEffects_same

theorem byEffects_windowSpill (k : Nat) (s : State) : ByEffects s (execWindowSpill k s) := by
  unfold execWindowSpill
  split
  · exact byEffects_event _ _
  · exact byEffects_same

theorem byEffects_windowFill (k : Nat) (s : State) : ByEffects s (execWindowFill k s) := by
  unfold execWindowFill
  split
  · exact byEffects_event _ _
  · exact byEffects_same

end

/-- What an instruction or event does, it does by effects. -/
theorem exec_byEffects (i : Instr) (s : State) : ByEffects s (exec i s) := by
  cases i with
  | annulledWordPass k t => exact byEffects_annulledWordPass k t s
  | asyncEventDelivery k t => exact byEffects_asyncEventDelivery k t s
  | windowSpill k => exact byEffects_windowSpill k s
  | windowFill k => exact byEffects_windowFill k s
  | copyAccept | nbmvAccept => exact byEffects_answer _ _ _ _ _
  | producerResultArrival | waitLimit | seedPacketArrival | spawnPacketArrival | spawnReply | graftArrival | graftQueuePlace | graftAccepted
    | graftResend | mwaitWake | mwaitTimeout | linkWordArrival | linkCreditReturn | furrowStart | furrowStep | trapQueueRecord | inboxPlace
    | messageResend | sendQueueDeliver | glbUpdate | creditReturn | channelAudit | domainStep | domainHaltBoundary | crossingArrival
    | integratorRecordTake | arrayCommandExecute | tilemmDescriptorCopy | tilemmStep | copyElementLand | copyComplete | nbmvComplete | publFlip
    | eventRecordPlace | cuttingApply | cuttingResend | linkTimeout | twinHashArrival | twinHashTimeout | refreshPhase | refreshBusyEnd
    | wsmodeDrainEnd | schedulerDispatch | threadPlacement | launchEnq | launchDec | contextKill | killDrainComplete | coreRemove | shootdownPort
    | bistComplete | laneMarginDwellEnd | wideBeatArrival | fetchFault | seedPacketReturn | messageRelease | remoteAccessRequest
    | remoteAccessResponse | flitReceive | linkRetrain | coreSeal | scrubRead | wsmodeWrite | tcbDecrement | taskRetire | taskFail | cxSaveThread
    | cxRestoreThread | cxSaveCore | cxRestoreCore | laneMarginDwell | svnfuseWrite | smargWrite | ibdWrite | tqbWrite | clpartWrite
    | registerWrite | packageReset | getVersion | getCapabilities | negotiateAlgorithms | getDigests | getCertificate | challenge | getMeasurements
    | dieReset | framePageIn | eventCounterAdd | marginingEnable =>
    unfold exec
    exact byEffects_event _ _
  | _ => exact byEffects_instr _ _ _

/-! ## Outcomes that keep the invariant -/

/-- The next state of an outcome, if it has one, has the invariant. -/
def Sound (o : Out) : Prop := ∀ t, o = .next t → Safety.Inv t

section
variable {s : State}

theorem sound_next (h : Safety.Inv s) : Sound (.next s) := fun _ e => by cases e; exact h
theorem sound_fault (f : Fault) : Sound (.fault f) := fun _ h => nomatch h
theorem sound_refused (r : Refusal) : Sound (.refused r) := fun _ h => nomatch h

theorem ByEffects.sound {o : Out} (h : Safety.Inv s) (ho : ByEffects s o) : Sound o := fun t e => by
  obtain ⟨es, rfl⟩ := ho t e
  exact inv_applyAll es h

theorem sound_event (h : Safety.Inv s) (m : M Unit) : Sound (event m s) := (byEffects_event m s).sound h

theorem sound_mapNext {f : State → State} {o : Out} (ho : Sound o) (hf : ∀ t, Safety.Inv t → Safety.Inv (f t)) : Sound (mapNext f o) := by
  cases o with
  | next t => exact sound_next (hf t (ho t rfl))
  | fault f => exact sound_fault f
  | refused r => exact sound_refused r

theorem sound_ite {c : Prop} [Decidable c] {o p : Out} (ho : Sound o) (hp : Sound p) : Sound (if c then o else p) := by
  split
  · exact ho
  · exact hp

/-! ## Furrows and words, whatever keeps the invariant when it executes an instruction -/

variable {ex : Instr → State → Out} (hex : ∀ i s, Safety.Inv s → Sound (ex i s))
include hex

theorem sound_runWord (w : BitVec 32) (h : Safety.Inv s) : Sound (runWord ex w s) := by
  unfold runWord
  split
  · exact hex _ s h
  · exact (byEffects_finish _ s).sound h

theorem sound_runSlot (k t : Nat) (h : Safety.Inv s) : Sound (runSlot ex k t s) := by
  unfold runSlot
  dsimp only
  split
  · exact sound_runWord hex _ h
  · exact sound_event h _

theorem sound_runColumn (k j : Nat) (pc : BitVec 16) (w : BitVec 32) (h : Safety.Inv s) : Sound (runColumn ex k j pc w s).1 := by
  unfold runColumn
  dsimp only
  generalize hstart : event _ s = start
  have hs : Sound start := hstart ▸ sound_event h _
  split
  next s0 =>
    have hs0 : Safety.Inv s0 := hs s0 rfl
    have hw : Sound (runWord ex w s0) := sound_runWord hex w hs0
    split
    · exact sound_event hs0 _
    · split
      next s1 h1 =>
        have hs1 : Safety.Inv s1 := hw s1 h1
        split
        · exact sound_ite (sound_event hs1 _) (sound_next hs1)
        · split
          · exact sound_next hs1
          · exact sound_event hs1 _
      · exact hw
  · exact hs

theorem sound_runColumns (k : Nat) (ws : List (Nat × BitVec 16 × BitVec 32)) (h : Safety.Inv s) : Sound (runColumns ex k s ws) := by
  induction ws generalizing s with
  | nil => exact sound_next h
  | cons x ws ih =>
    obtain ⟨j, pc, w⟩ := x
    have hrun := sound_runColumn hex k j pc w h
    unfold runColumns
    split
    next s1 h1 => exact ih (hrun s1 h1)
    · exact hrun

theorem sound_runBlocked (k : Nat) (ws : List (Nat × BitVec 16 × BitVec 32)) (h : Safety.Inv s) : Sound (runBlocked ex k s ws) := by
  induction ws generalizing s with
  | nil => exact sound_next h
  | cons x ws ih =>
    obtain ⟨j, pc, w⟩ := x
    have hrun := sound_runColumn hex k j pc w h
    unfold runBlocked
    split
    next s1 h1 => exact ih (hrun s1 (congrArg Prod.fst h1))
    · exact ih h
    next h1 => exact fun t e => hrun t ((congrArg Prod.fst h1).trans e)

theorem sound_furrowAttempt (k : Nat) (h : Safety.Inv s) : Sound (furrowAttempt ex k s) := by
  unfold furrowAttempt
  split
  · exact sound_next h
  next f _ =>
    have h' : Safety.Inv { s with pkg := { s.pkg with furrows := FMap.set s.pkg.furrows k { f with turn := false } } } := inv_of_same h rfl rfl
    refine sound_ite (sound_next h') (sound_ite (sound_event h' _) (sound_ite ?_ (sound_runBlocked hex k _ h')))
    split
    next s1 h1 => exact sound_event (sound_runColumns hex k _ h' s1 h1) _
    · exact sound_runColumns hex k _ h'

/-! ## One phase of a core's cycle -/

omit hex in
theorem sound_sparePosition (k : Nat) (h : Safety.Inv s) : Sound (sparePosition k s) := by
  unfold sparePosition
  split
  · exact (byEffects_windowSpill k s).sound h
  · exact (byEffects_windowFill k s).sound h
  · exact sound_event h _

omit hex in
theorem sound_cxPoll (k : Nat) (h : Safety.Inv s) : Sound (cxPoll k s) := by
  unfold cxPoll
  split
  · exact sound_next h
  · split <;> exact sound_event h _

omit hex in
theorem inv_afterWord (k i : Nat) (h : Safety.Inv s) : Safety.Inv (afterWord k i s) := by
  unfold afterWord
  split
  · split
    · exact h
    · exact inv_apply _ h
  · exact inv_of_same h rfl rfl

theorem sound_corePhase (k p : Nat) (rest : List Nat) (h : Safety.Inv s) : Sound (corePhase ex k p rest s) := by
  unfold corePhase
  dsimp only
  split
  · split
    · exact (byEffects_asyncEventDelivery k _ s).sound h
    · exact sound_next (inv_of_same h rfl rfl)
  · exact sound_cxPoll k (inv_of_same h rfl rfl)
  · refine sound_mapNext ?_ fun t ht => inv_of_same ht rfl rfl
    split
    · exact sound_furrowAttempt hex k h
    · exact sound_next h
  · split
    · exact (byEffects_annulledWordPass k _ s).sound h
    · exact sound_next (inv_of_same h rfl rfl)
  · split
    · exact (byEffects_annulledWordPass k _ s).sound h
    · exact sound_next (inv_of_same h rfl rfl)
  · split
    · exact sound_mapNext (sound_runSlot hex k _ (inv_of_same h rfl rfl)) fun t => inv_afterWord k _
    · exact sound_sparePosition k (inv_of_same h rfl rfl)

end

/-! ## The end of a cycle -/

theorem sound_countEvents (cs : List (Nat × Core)) {s : State} (h : Safety.Inv s) : Sound (countEvents cs s) := by
  induction cs generalizing s with
  | nil => exact sound_next h
  | cons p cs ih =>
    have hadd : Sound (execEventCounterAdd p.1 s) := sound_event h _
    unfold countEvents
    split
    · exact ih h
    · split
      next s1 h1 => exact ih (hadd s1 h1)
      · exact hadd

theorem sound_endCycle {s : State} (h : Safety.Inv s) : Sound (endCycle s) :=
  sound_mapNext (sound_countEvents s.cores h) fun _ ht => inv_of_same ht rfl rfl

/-- A step keeps the invariant: each of its kinds ends in effects, or changes only the clock, the cores and the furrows. -/
theorem sound_step {s : State} (h : Safety.Inv s) : Sound (step s) := by
  have hex : ∀ i u, Safety.Inv u → Sound (exec i u) := fun i u hu => (exec_byEffects i u).sound hu
  unfold step stepWith
  split
  next i s1 hdue =>
    refine hex i s1 ?_
    unfold dueNow at hdue
    split at hdue
    · split at hdue
      · cases hdue; exact inv_of_same h rfl rfl
      · cases hdue
    · cases hdue
  · split
    · exact sound_corePhase hex _ _ _ h
    · exact sound_endCycle h

/-- Settles O30: every instruction and event ends in effects, each effect keeps the invariant, and what a step does beside them leaves memory and
threads alone. -/
theorem stepsKeepTheInvariant : Obligations.StepsKeepTheInvariant := fun _ t h => sound_step h t

end Sys2Proof.Steps
end

section
/-! PROOFS. Waits of instructions and the wait limit (03 R43, R44). -/

namespace Sys2Proof.Waiting

open Sys2Proof.Machine Sys2Proof.Safety Sys2Proof.Laws

/-! ## Waits -/

/-- What a wait makes of its thread: a status, and nothing else. -/
def waiting (since : Option Nat) (s : State) : State := (Eff.thr (tid s) fun t => { t with status := .waiting since }).apply s

section
variable {s : State}

theorem thread_waiting (since : Option Nat) (h : s.occupied (tid s) = true) (id : Nat) :
    (waiting since s).thread id = if id = tid s then { current s with status := .waiting since } else s.thread id := by
  split
  next hid => rw [hid]; exact thread_thr_same _ h
  next hid => exact thread_thr_ne _ hid

theorem othersSame_waiting (since : Option Nat) : OthersSame (tid s) s (waiting since s) := fun _ hn => thread_thr_ne _ hn

@[simp] theorem tid_waiting (since : Option Nat) (s : State) : tid (waiting since s) = tid s := tid_thr ..
@[simp] theorem mem_waiting (since : Option Nat) (s : State) : (waiting since s).mem = s.mem := modThread_mem ..
@[simp] theorem cores_waiting (since : Option Nat) (s : State) : (waiting since s).cores = s.cores := modThread_cores ..
@[simp] theorem clock_waiting (since : Option Nat) (s : State) : (waiting since s).clock = s.clock := modThread_clock ..

/-- A wait leaves the limit of its thread's control registers. -/
theorem wlim_owner_waiting (since : Option Nat) (h : s.occupied (tid s) = true) : (owner (waiting since s)).wlim = (owner s).wlim := by
  have hwlim : ∀ id, ((waiting since s).thread id).wlim = (s.thread id).wlim := fun id => by
    rw [thread_waiting since h]
    split
    next hid => rw [hid]; rfl
    · rfl
  have hcontrol : (waiting since s).control (tid s) = s.control (tid s) := by
    unfold State.control
    rw [thread_waiting since h, if_pos rfl]
    rfl
  rw [owner, tid_waiting, hcontrol, hwlim, owner]

theorem performs_enterWait_uncounted : Performs (enterWait false []) s () (waiting none s) :=
  performs_bind (performs_pure _ s) (performs_bind (performs_me s) (performs_bind (performs_self s) (performs_bind (performs_now s) (performs_thr ..))))

/-- A counted wait that begins has its limit due, if its thread has one. -/
theorem performs_enterWait_counted (h : s.occupied (tid s) = true) (hnew : ∀ since, (current s).status ≠ .waiting (some since)) :
    ∃ f : Clock → Clock, Performs (enterWait true []) s () ((Eff.clock f).apply (waiting (some s.clock.now) s)) ∧
      (f s.clock).core = s.clock.core ∧ (f s.clock).slot = s.clock.slot ∧
      ((owner s).wlim ≠ 0 → f = fun c => c.plan (owner s).wlim.toNat (.waitLimit (tid s / 16) (tid s % 16) s.clock.now)) := by
  let u := waiting (some s.clock.now) s
  have hbegin : ∀ v, Performs (if (owner s).wlim = 0 then pure () else
      plan (owner s).wlim.toNat (.waitLimit (tid s / 16) (tid s % 16) s.clock.now)) u () v → Performs (enterWait true []) s () v := by
    intro v hv
    rw [← wlim_owner_waiting (some s.clock.now) h] at hv
    refine performs_bind (performs_pure _ s) (performs_bind (performs_me s) (performs_bind (performs_self s) (performs_bind (performs_now s) ?_)))
    rw [if_pos rfl]
    split
    next n hn => exact absurd hn (hnew n)
    · exact performs_bind (performs_thr ..) (performs_bind (performs_controlT u) hv)
  by_cases hz : (owner s).wlim = 0
  · exact ⟨id, hbegin u (performs_ite_pos hz (performs_pure _ u)), rfl, rfl, fun hne => absurd hz hne⟩
  · exact ⟨_, hbegin _ (performs_ite_neg hz (performs_plan ..)), rfl, rfl, fun _ => rfl⟩

end

theorem waitEntry : Claim.WaitEntry := by
  intro s counts hocc hslot hnew
  have hcur : ∀ since, (waiting since s).thread (tid s) = { current s with status := .waiting since } := fun since =>
    (thread_waiting since hocc _).trans (if_pos rfl)
  cases counts with
  | false =>
    refine ⟨waiting none s, event_next performs_enterWait_uncounted, ?_, ?_, ?_, ?_, fun h => absurd h Bool.false_ne_true,
      mem_waiting .., cores_waiting .., othersSame_waiting none⟩
    all_goals rw [current, tid_waiting, hcur]
    rfl
  | true =>
    obtain ⟨f, ht, hcore, hslotf, hdue⟩ := performs_enterWait_counted hocc hnew
    have htid : tid ((Eff.clock f).apply (waiting (some s.clock.now) s)) = tid s := by
      rw [tid, clock_clock, clock_waiting, hcore, hslotf, tid]
    have hcurt : current ((Eff.clock f).apply (waiting (some s.clock.now) s)) = { current s with status := .waiting (some s.clock.now) } := by
      rw [current, htid]
      exact hcur _
    refine ⟨_, event_next ht, ?status, ?pc, ?regs, ?lastIssue, fun _ hlim => ?due, mem_waiting .., cores_waiting .., othersSame_waiting _⟩
    case due =>
      have hk : tid s / 16 = s.clock.core := by unfold tid tidOf; omega
      have ht16 : tid s % 16 = s.clock.slot := by unfold tid tidOf; omega
      rw [hdue hlim, hk, ht16]
      have := due_planned (waiting (some s.clock.now) s) (owner s).wlim.toNat (.waitLimit s.clock.core s.clock.slot s.clock.now)
      rwa [clock_waiting] at this
    all_goals rw [hcurt]
    rfl

/-! ## The limit of a wait -/

section
variable {s : State} {k t n : Nat}

/-- An event that first reads a thread. -/
theorem event_getT (id : Nat) (f : Thread → M Unit) (s : State) : event (getT id >>= f) s = event (f (s.thread id)) s := rfl

theorem limitTrap_waits (ht : t < 16) (h : (s.thread (tidOf k t)).expecting = true) :
    event (limitTrap (tidOf k t) n) s = event (plan 1 (.waitLimit k t n)) s := by
  have hk : tidOf k t / 16 = k := by unfold tidOf; omega
  have ht16 : tidOf k t % 16 = t := by unfold tidOf; omega
  rw [limitTrap, event_getT, if_pos h, hk, ht16]

theorem limitTrap_traps (h : (s.thread (tidOf k t)).expecting = false) :
    event (limitTrap (tidOf k t) n) s = event (takeTrap (tidOf k t) 0x04 0 (s.thread (tidOf k t)).faultPc) s := by
  rw [limitTrap, event_getT, h]
  rfl

/-- The limit of the wait that the thread is in. -/
theorem exec_waitLimit_reached
    (h : (s.thread (tidOf k t)).status = .waiting (some n) ∨
      (s.thread (tidOf k t)).status = .parked .registered (some n) ∧ (s.thread (tidOf k t)).asking = false) :
    exec (.waitLimit k t n) s = event (limitTrap (tidOf k t) n) s := by
  show execWaitLimit k t n s = _
  obtain h | ⟨h, hask⟩ := h
  · simp only [execWaitLimit, event_getT, h, if_true]
  · simp only [execWaitLimit, event_getT, h, hask, if_true, Bool.false_eq_true, if_false]

/-- The limit of a wait for which a request to another package is out: it is withdrawn there. -/
theorem exec_waitLimit_asking (h : (s.thread (tidOf k t)).status = .parked .registered (some n)) (hask : (s.thread (tidOf k t)).asking = true) :
    exec (.waitLimit k t n) s = event (takeBack (tidOf k t) true) s := by
  show execWaitLimit k t n s = _
  simp only [execWaitLimit, event_getT, h, hask, if_true]

/-- A limit that its wait has not lived to see. -/
theorem exec_waitLimit_outlived (hw : (s.thread (tidOf k t)).status ≠ .waiting (some n))
    (hp : (s.thread (tidOf k t)).status ≠ .parked .registered (some n)) : exec (.waitLimit k t n) s = .next s := by
  show execWaitLimit k t n s = _
  simp only [execWaitLimit, event_getT]
  split
  next m hm =>
    rw [if_neg fun (e : m = n) => hw (e ▸ hm)]
    rfl
  next m hm =>
    rw [if_neg fun (e : m = n) => hp (e ▸ hm)]
    rfl
  · rfl

end

theorem waitLimit : Claim.WaitLimit := by
  intro s k t n
  refine ⟨fun h ht => ⟨fun hno => ?_, fun hexp => ?_⟩, exec_waitLimit_asking, exec_waitLimit_outlived⟩
  · exact (exec_waitLimit_reached h).trans (limitTrap_traps hno)
  · exact (exec_waitLimit_reached h).trans (limitTrap_waits ht hexp)

/-- Settles O13: a wait changes the status of its thread and, when it counts, the calendar; its limit answers by the status that it finds. -/
theorem waits : Obligations.Waits := ⟨waitEntry, waitLimit⟩

end Sys2Proof.Waiting
end

section
/-! PROOFS. What hardware writes at a home leaves the tasks of the schedulers alone, and always goes through (05 R91, R92, 03 R60, 12 R217, R229). -/

namespace Sys2Proof.Homes

open Sys2Proof.Machine Sys2Proof.Safety Sys2Proof.Laws

/-- The tasks of the package are these. -/
def TasksAre (ts : FMap Task) (s : State) : Prop := s.pkg.tasks = ts

section
variable {ts : FMap Task}

/-! ## Effects -/

theorem keeps_tasks {e : Eff} (h : ∀ s, (e.apply s).pkg.tasks = s.pkg.tasks) : Keeps (TasksAre ts) (emit e) :=
  keeps_emit fun s hs => (h s).trans hs

theorem keeps_onCore (k : Nat) (f : Machine.Core → Machine.Core) : Keeps (TasksAre ts) (onCore k f) := keeps_tasks fun _ => rfl
theorem keeps_onDie (d : Nat) (f : Die → Die) : Keeps (TasksAre ts) (onDie d f) := keeps_tasks fun _ => rfl
theorem keeps_onPkg {f : Pkg → Pkg} (h : ∀ p, (f p).tasks = p.tasks) : Keeps (TasksAre ts) (onPkg f) := keeps_tasks fun _ => h _
theorem keeps_plan (n : Nat) (i : Instr) : Keeps (TasksAre ts) (plan n i) := keeps_tasks fun _ => rfl
theorem keeps_thr (id : Nat) (f : Thread → Thread) : Keeps (TasksAre ts) (thr id f) :=
  keeps_tasks fun _ => congrArg Pkg.tasks (modThread_pkg ..)
theorem keeps_reg (id n : Nat) (r : Reg) : Keeps (TasksAre ts) (emit (.reg id n r)) := keeps_tasks fun _ => congrArg Pkg.tasks (modThread_pkg ..)
theorem keeps_pw (id : Nat) (v : BitVec 32) : Keeps (TasksAre ts) (emit (.pw id v)) := keeps_tasks fun _ => congrArg Pkg.tasks (modThread_pkg ..)
theorem keeps_pc (id : Nat) (a : BitVec 16) : Keeps (TasksAre ts) (emit (.pc id a)) := keeps_tasks fun _ => congrArg Pkg.tasks (modThread_pkg ..)
theorem keeps_sendFlit (port : Nat) (p : FlitPayload) : Keeps (TasksAre ts) (sendFlit port p) :=
  keeps_bind (keeps_onPkg fun _ => rfl) fun _ => keeps_onDie _ _

/-! ## Monitors and results -/

theorem keeps_wakeMwait (id : Nat) : Keeps (TasksAre ts) (wakeMwait id) := by
  have each (s : State) (k : Nat) (sls : List Nat) : Keeps (TasksAre ts) (wakeMwaitOf s k id sls) := by
    induction sls with
    | nil => exact keeps_pure _
    | cons sl sls ih =>
      unfold wakeMwaitOf
      dsimp only
      split
      · exact keeps_ite (keeps_bind (keeps_plan _ _) fun _ => ih) ih
      · exact ih
  exact keeps_bind keeps_getS fun s => each s _ _

theorem keeps_latchOne (m : MonReg) : Keeps (TasksAre ts) (latchOne m) := by
  unfold latchOne
  split
  · exact keeps_sendFlit _ _
  · exact keeps_onCore _ _
  · exact keeps_bind (keeps_thr _ _) fun _ => keeps_wakeMwait _

theorem keeps_latch (key n : Nat) : Keeps (TasksAre ts) (latch key n) := by
  have each (ms : List MonReg) : Keeps (TasksAre ts) (latchAll ms) := by
    induction ms with
    | nil => exact keeps_pure _
    | cons m ms ih => exact keeps_bind (keeps_latchOne m) fun _ => ih
  exact keeps_bind keeps_getS fun _ => each _

theorem keeps_twinAnswer (own : Nat) (vs : List Word) (bad : Bool) : Keeps (TasksAre ts) (twinAnswer own vs bad) := by
  refine keeps_bind keeps_getS fun s => keeps_bind keeps_read fun t => ?_
  split
  · refine keeps_ite (keeps_bind keeps_read fun _ => ?_) (keeps_pure _)
    refine keeps_bind (keeps_bind (keeps_thr _ _) fun _ => keeps_bind (keeps_onPkg fun _ => rfl) fun _ => keeps_pure _) fun _ => keeps_thr _ _
  · exact keeps_pure _

theorem keeps_claim (id : Nat) (d : Dest) : Keeps (TasksAre ts) (claim id d) := by
  cases d with
  | none => exact keeps_pure _
  | reg n => exact keeps_bind keeps_read fun _ => keeps_reg _ _ _
  | version n => exact keeps_thr _ _
  | link dir => exact keeps_onCore _ _

theorem keeps_expect (id : Nat) (d : Dest) (v : Word) (delay access : Nat) : Keeps (TasksAre ts) (expect id d v delay access) :=
  keeps_bind keeps_read fun _ => keeps_bind (keeps_thr _ _) fun _ => keeps_plan _ _

theorem keeps_completeWaiter (w : Waiter) (v : Word) (b : Bool) : Keeps (TasksAre ts) (completeWaiter w v (some b)) := by
  unfold completeWaiter
  split
  · exact keeps_sendFlit _ _
  · refine keeps_bind (keeps_twinAnswer _ _ _) fun _ => keeps_bind keeps_read fun t => keeps_bind keeps_read fun n =>
      keeps_bind (keeps_pw _ _) fun _ => ?_
    have ends (f : Thread → Thread) : Keeps (TasksAre ts) (do thr (tidOf w.core w.slot) f; emit (.pc (tidOf w.core w.slot) (t.pc + 4#16))) :=
      keeps_bind (keeps_thr _ _) fun _ => keeps_pc _ _
    dsimp only
    split
    · exact ends _
    · exact keeps_bind (keeps_claim _ _) fun _ => keeps_bind (keeps_expect _ _ _ _ _) fun _ => ends _

/-! ## Barriers -/

theorem keeps_wakeBarrier (home : Nat) (word : Word) (stat : Nat) (ws : List Waiter) : Keeps (TasksAre ts) (wakeBarrier home word stat ws) := by
  induction ws with
  | nil => exact keeps_pure _
  | cons w ws ih =>
    refine keeps_ite (keeps_bind (keeps_onCore _ _) fun _ => ih) ?_
    exact keeps_bind (keeps_onCore _ _) fun _ => keeps_bind (keeps_completeWaiter _ _ _) fun _ => ih

theorem keeps_readDw (key : Nat) : Keeps (TasksAre ts) (readDw key) :=
  keeps_bind (keeps_bind (keeps_bind keeps_getS fun _ => keeps_pure _) fun _ => keeps_pure _) fun _ => keeps_pure _

theorem keeps_readBlock (key : Nat) (cmp : Nat × Nat × Nat) : Keeps (TasksAre ts) (readBlock key cmp) := by
  obtain ⟨scheme, mk, mb⟩ := cmp
  refine keeps_bind (keeps_bind keeps_read fun _ => keeps_pure _) fun _ => ?_
  refine keeps_ite (keeps_bind keeps_read fun _ => keeps_pure _) (keeps_ite (keeps_pure _) (keeps_ite ?_ (keeps_pure _)))
  exact keeps_bind keeps_read fun _ => keeps_bind keeps_read fun _ => keeps_pure _

theorem keeps_wordAt (key : Nat) (cmp : Option (Nat × Nat × Nat)) : Keeps (TasksAre ts) (wordAt key cmp) := by
  cases cmp with
  | none => exact keeps_readDw key
  | some c => exact keeps_bind (keeps_readBlock _ c) fun _ => keeps_pure _

theorem keeps_deliverAsync (owner : Option (Nat × Nat)) (k slot ctx cause : Nat) (v : Word) :
    Keeps (TasksAre ts) (deliverAsync owner k slot ctx cause v) := by
  refine keeps_bind keeps_getS fun s => ?_
  dsimp only
  split
  · exact keeps_ite (keeps_bind (keeps_thr _ _) fun _ => keeps_wakeMwait _) (keeps_bind (keeps_thr _ _) fun _ => keeps_wakeMwait _)
  · split
    · exact keeps_plan _ _
    · exact keeps_pure _

theorem keeps_breakOne (b : Barrier) : Keeps (TasksAre ts) (breakOne b) := by
  refine keeps_bind (keeps_onCore _ _) fun _ => keeps_bind (keeps_wordAt _ _) fun _ => keeps_bind keeps_getS fun _ =>
    keeps_bind (keeps_wakeBarrier _ _ _ _) fun _ => ?_
  split
  · exact keeps_pure _
  · exact keeps_sendFlit _ _
  · exact keeps_deliverAsync _ _ _ _ _ _

theorem keeps_wrote (key n : Nat) : Keeps (TasksAre ts) (wrote key n) := by
  have each (bs : List Barrier) : Keeps (TasksAre ts) (breakAll bs) := by
    induction bs with
    | nil => exact keeps_pure _
    | cons b bs ih => exact keeps_bind (keeps_breakOne b) fun _ => ih
  exact keeps_bind (keeps_latch _ _) fun _ => keeps_bind keeps_getS fun _ => each _

/-! ## Bytes stored -/

/-- What is calm leaves the tasks alone. -/
theorem keeps_of_calm {m : M Unit} (h : ∀ s0, Keeps (Boot.Calm [] [] s0) m) : Keeps (TasksAre ts) m := fun s hs => by
  obtain ⟨⟨⟩, t, hp, hc⟩ := h s s Boot.Calm.refl
  exact ⟨(), t, hp, hc.tasks.trans hs⟩

theorem keeps_storeBytes (key : Nat) (bs : List Byte) : Keeps (TasksAre ts) (storeBytes key bs) :=
  keeps_bind (keeps_of_calm fun _ => Boot.keeps_calm_clearPoison _ _ _) fun _ => keeps_bind (keeps_tasks fun _ => rfl) fun _ => keeps_wrote _ _

end

end Sys2Proof.Homes
end

section
/-! PROOFS. Seed packets: threads that start in a slot, packets that wait or go back, and text that is paged in (02 R38, 03 R51, R52,
R54, 01 R16, R17). -/

namespace Sys2Proof.Seeds

open Sys2Proof.Machine Sys2Proof.Safety Sys2Proof.Laws Sys2Proof.Homes

/-! ## A context noted on a core -/

/-- Threads, memory and tasks are as in a state. -/
def SameWork (s t : State) : Prop := t.threads = s.threads ∧ t.mem = s.mem ∧ t.pkg = s.pkg

theorem keeps_noteContext (s0 : State) (k ctx : Nat) : Keeps (SameWork s0) (noteContext k ctx) := by
  have each (part : Option Nat) (cs : List (Nat × Machine.Core)) : Keeps (SameWork s0) (planGlb part cs) := by
    induction cs with
    | nil => exact keeps_pure _
    | cons c cs ih =>
      exact keeps_bind keeps_getS fun _ => keeps_ite (keeps_bind keeps_read fun _ => keeps_bind (keeps_emit fun _ h => h) fun _ => ih) ih
  refine keeps_bind keeps_read fun c => keeps_ite (keeps_pure _) ?_
  exact keeps_bind (keeps_emit fun _ h => h) fun _ => keeps_bind keeps_getS fun _ => each _ _

/-! ## A thread placed in a slot -/

/-- The thread as a slot takes it: it gets the package's next number, unless it has one, and its predicate word and program counter are normal. -/
def seated (s : State) (t : Thread) : Thread :=
  { t with uid := if t.uid = 0 then s.pkg.nextUid else t.uid, pw := pwNorm t.pw, pc := pcNorm t.pc }

/-- A thread of a registered context placed in a slot. -/
theorem performs_placeThread {s : State} {k slot : Nat} {t : Thread} (hctx : ctxValid s (dieOf k) t.ctx = true) (huid : t.uid = 0) :
    ∃ u, Performs (placeThread k slot t) s () u ∧ u.threads = FMap.set s.threads (tidOf k slot) (seated s t) ∧ u.mem = s.mem ∧
      u.pkg.tasks = s.pkg.tasks := by
  let placed := (Eff.pkg fun p => { p with nextUid := p.nextUid + 1 }).apply ((Eff.place (tidOf k slot) { t with uid := s.pkg.nextUid }).apply s)
  obtain ⟨⟨⟩, u, hnote, hthreads, hmem, hpkg⟩ := keeps_noteContext placed k t.ctx placed ⟨rfl, rfl, rfl⟩
  refine ⟨u, ?_, hthreads.trans ?_, hmem, (congrArg Pkg.tasks hpkg : u.pkg.tasks = placed.pkg.tasks)⟩
  · refine performs_bind (performs_getS s) (performs_bind (performs_emit ..) (performs_ite_pos huid (performs_bind (performs_onPkg ..)
      (performs_bind (a := ()) ?_ (performs_ite_pos hctx (performs_pure _ u))))))
    rw [if_pos huid]
    exact hnote
  · rw [seated, if_pos huid]
    rfl

/-- The place of a register in a window of depth 0 is its number. -/
theorem place_of_depth_zero {t : Thread} (h : t.depth = 0) (c : Nat) : t.place c = c := by
  unfold Thread.place
  split
  · rfl
  · omega

/-- The thread of a seed packet starts with the state of R52. -/
theorem started_seated (s u : State) (k slot : Nat) (p : SeedPacket) (entry : BitVec 16) :
    Started s k slot (seated u (seedThread s k slot p entry)) p entry := by
  have hsreg : ∀ i, (seated u (seedThread s k slot p entry)).sreg i = FMap.get {} (regFile [p.wid, p.tcb]) i := fun i => by
    rw [Thread.sreg, place_of_depth_zero (t := seated u (seedThread s k slot p entry)) rfl]
    rfl
  refine ⟨rfl, rfl, (by decide : pwNorm 1 = 1), rfl, rfl, rfl, rfl, rfl, rfl, rfl, rfl, rfl, rfl, rfl, rfl, rfl, rfl, rfl, rfl, rfl, rfl,
    hsreg 0, hsreg 1, fun i h2 _ => (hsreg i).trans ?_, fun _ _ => rfl⟩
  have hkeys : (regFile [p.wid, p.tcb]).map Prod.fst = [0, 1] := rfl
  have hkey : i ∉ (regFile [p.wid, p.tcb]).map Prod.fst := by
    simp only [hkeys, List.mem_cons, List.not_mem_nil, or_false]
    omega
  rw [FMap.get, get?_of_not_key hkey]
  rfl

/-! ## Seed packets that arrive (03 R51, R52) -/

/-- The slot in which a seed packet's thread starts: the one it is bound to, if that is open, or else the lowest open one. -/
def seedSlot (s : State) (k : Nat) (p : SeedPacket) : Option Nat :=
  match p.slot with
  | some t => if (openSlots s k).contains t then some t else none
  | none => (openSlots s k).head?

section
variable {s s1 : State} {k : Nat} {p : SeedPacket} {im : SeedImage}

/-- A thread that is no twinned copy is paired with none. -/
theorem performs_pairTwin {id : Nat} (h : (s.thread id).twin = none) : Performs (pairTwin id) s () s := by
  refine performs_bind (performs_getS s) ?_
  dsimp only
  rw [h]
  exact performs_pure _ s

/-- A change of a task that the scheduler does not hold changes nothing. -/
theorem performs_onTask_none {key : Nat} (f : Task → Task) (h : FMap.get? s.pkg.tasks key = none) : Performs (onTask key f) s () s := by
  have hsame : ∀ {g : Pkg → Pkg}, g s.pkg = s.pkg → (Eff.pkg g).apply s = s := fun hg => by rw [Eff.apply, hg]
  have hp := performs_onPkg (fun p => match FMap.get? p.tasks key with
    | some t => { p with tasks := FMap.set p.tasks key (f t) }
    | none => p) s
  rw [hsame (by rw [h])] at hp
  exact hp

/-- The start of a thread of no task that the scheduler holds is noted nowhere. -/
theorem performs_noteStarted {key : Nat} (h : FMap.get? s.pkg.tasks key = none) : Performs (noteStarted key) s () s := by
  refine performs_bind (performs_onTask_none _ h) (performs_bind (performs_getS s) ?_)
  rw [h]
  exact performs_pure _ _

/-- The contents of a packet are written, and then its slot decides. -/
theorem performs_seedArrival {u : State} (htakes : takesSeed s k p.ctx = true) (him : FMap.get? s.pkg.seeds p.image = some im)
    (hplaced : if p.carries then Performs (placeSeed k p.sid im) s () s1 else s1 = s)
    (hslot : Performs (match seedSlot s1 k p with
      | some t => do
        placeThread k t (seedThread s k t p im.entry)
        pairTwin (tidOf k t)
        noteStarted p.tcbKey
      | none => plan 1 (.seedPacketArrival k { p with carries := false })) s1 () u) :
    exec (.seedPacketArrival k p) s = .next u := by
  refine event_next (performs_bind (performs_getS s) (performs_ite_pos htakes ?_))
  simp only [him]
  by_cases hc : p.carries = true
  · rw [if_pos hc] at hplaced
    refine performs_ite_pos hc (performs_bind hplaced (performs_bind (performs_getS s1) ?_))
    exact hslot
  · rw [if_neg hc] at hplaced
    subst hplaced
    refine performs_ite_neg hc (performs_bind (performs_getS _) ?_)
    exact hslot

end

theorem seedArrival : Claim.SeedArrival := by
  intro s s1 k p im htakes him hplaced htwin htask hctx
  have hstep {u : State} := performs_seedArrival (u := u) htakes him hplaced
  refine ⟨fun slot hslot => ?_, fun hslot => ?_⟩
  · have hseat : seedSlot s1 k p = some slot := hslot
    obtain ⟨u1, hp1, hthreads1, hmem1, htasks1⟩ := performs_placeThread (s := s1) (k := k) (slot := slot)
      (t := seedThread s k slot p im.entry) hctx rfl
    have hthread1 : u1.thread (tidOf k slot) = seated s1 (seedThread s k slot p im.entry) := by
      rw [State.thread, hthreads1, get_set_same]
    have htwin1 : (u1.thread (tidOf k slot)).twin = none := by
      rw [hthread1, seated, seedThread, htwin]
      rfl
    refine ⟨u1, hstep ?_, ?_, hmem1⟩
    · rw [hseat]
      exact performs_bind hp1 (performs_bind (performs_pairTwin htwin1) (performs_noteStarted (htasks1 ▸ htask)))
    · rw [hthread1]
      exact started_seated ..
  · have hseat : seedSlot s1 k p = none := hslot
    refine ⟨_, hstep ?_, due_planned s1 1 _, rfl, rfl⟩
    rw [hseat]
    exact performs_plan ..

/-! ## Seed packets that go back, and text that is paged in -/

theorem keeps_writeCounts {ts : FMap Task} (key : Nat) : Keeps (TasksAre ts) (writeCounts key) := by
  refine keeps_bind keeps_getS fun s => ?_
  split
  · exact keeps_storeBytes _ _
  · exact keeps_pure _

theorem keeps_placeText {ts : FMap Task} (k : Nat) (ws : List (Nat × BitVec 32)) : Keeps (TasksAre ts) (placeText k ws) := by
  induction ws with
  | nil => exact keeps_pure _
  | cons w ws ih => exact keeps_bind (keeps_storeBytes _ _) fun _ => ih

/-- A seed packet that goes back leaves its task with one thread fewer, and its work identifier in the waiting set. -/
theorem returned_returnSeed {s : State} {t : Task} (k : Nat) (p : SeedPacket) (h : FMap.get? s.pkg.tasks p.tcbKey = some t) :
    ∃ u, Performs (returnSeed k p) s () u ∧ FMap.get? u.pkg.tasks p.tcbKey =
      some { t with returned := t.returned ++ [(p.wid.toNat, p.twin.getD 0)], live := t.live - 1, created := t.created - 1 } := by
  let back : Task → Task := fun t => { t with
    returned := t.returned ++ [(p.wid.toNat, p.twin.getD 0)], live := t.live - 1, created := t.created - 1 }
  have hrest : Keeps (TasksAre (FMap.set s.pkg.tasks p.tcbKey (back t))) (do
      if p.carries then onCore k fun c => { c with seeded := c.seeded.filter (· ≠ p.tcbKey) } else pure ()
      writeCounts p.tcbKey
      plan 16 (.threadPlacement t.die p.tcbKey)) := by
    have hcounts := keeps_bind (keeps_writeCounts (ts := FMap.set s.pkg.tasks p.tcbKey (back t)) p.tcbKey) fun _ =>
      keeps_plan 16 (.threadPlacement t.die p.tcbKey)
    exact keeps_ite (keeps_bind (keeps_onCore _ _) fun _ => hcounts) hcounts
  obtain ⟨⟨⟩, u, hp, hu⟩ := hrest ((Eff.pkg fun q =>
    match FMap.get? q.tasks p.tcbKey with
    | some t => { q with tasks := FMap.set q.tasks p.tcbKey (back t) }
    | none => q).apply s) (by simp only [TasksAre, pkg_pkg, h])
  refine ⟨u, performs_bind (performs_getS s) ?_, ?_⟩
  · simp only [h]
    exact performs_bind (performs_onPkg ..) hp
  · rw [(hu : u.pkg.tasks = _), get?_set_same]

theorem seedHandling : Claim.SeedHandling := by
  intro s k p t f
  refine ⟨fun h => ?_, ?_⟩
  · obtain ⟨u, hp, hu⟩ := returned_returnSeed k p h
    exact ⟨u, _, event_next hp, hu, rfl, rfl, rfl⟩
  · obtain ⟨⟨⟩, u, hp, -⟩ := keeps_placeText (ts := s.pkg.tasks) k
      (f.words.zipIdx.map fun q => (2048 * (f.frame % 32) + 4 * (q.2 % 512), q.1)) s rfl
    refine ⟨_, event_next (performs_bind hp (performs_bind (performs_onCore ..) (performs_pure _ _))), ?_⟩
    rw [coreOf_core_same, get?_set_same]

/-- Settles O12: a packet's contents are written, its thread starts in the slot that decides, or it waits; the writes of a packet that goes back leave
its task's waiting set as the return has made it. -/
theorem seedPackets : Obligations.SeedPackets := ⟨seedArrival, seedHandling⟩

end Sys2Proof.Seeds
end

section
/-! PROOFS. A fetch fault takes back the operation that its thread has registered, and so serves the one that stands behind it (03 R54, 12 R217): the
claim FetchFaults does not hold. -/

namespace Sys2Proof.FetchFault

open Sys2Proof.Machine Sys2Proof.Safety

/-- Two STF to the same empty doubleword of core 0 stand at its home. The first, of slot 0, reads a link and so is tried by its thread, whose
frame has no text; the second, of slot 1, stands behind it (12 R217, 04 R78). -/
def queuedStores : State :=
  { threads := [(0, { sid := 1, uid := 1, pc := 0x100, status := .waiting (some 0) }),
                (1, { sid := 1, uid := 2, pc := 0x100, status := .parked .registered none })],
    empties := [0x20000],
    cores := [(0, { waiters := [
      { core := 0, slot := 0, addr := 0x20000, key := 0x20000, kind := .stf, data := 5, dest := .none, polls := true },
      { core := 0, slot := 1, addr := 0x20000, key := 0x20000, kind := .stf, data := 7, dest := .none }] })] }

/-- The offset of a slot's thread in the next state of an outcome. -/
def pcAfter (id : Nat) : Out → BitVec 16
  | .next t => (t.thread id).pc
  | _ => 0

theorem free_queuedStores : Free (queuedStores.thread (tidOf 0 0)) := ⟨rfl, rfl, rfl, nofun⟩

/-- The store of slot 1 is performed when slot 0 has a fetch fault, and its thread goes on at the next word. -/
theorem fetchFault_serves_next : pcAfter 1 (exec (.fetchFault 0 0) queuedStores) = 0x104 := by decide

theorem not_fetchFaults : ¬ Claim.FetchFaults := by
  intro h
  obtain ⟨u, hu, -, -, hothers⟩ := h queuedStores 0 0 rfl free_queuedStores
  have hmoved : (u.thread 1).pc = 0x104 := by
    have := fetchFault_serves_next
    rwa [hu] at this
  have hstays : (u.thread 1).pc = 0x100 := congrArg Thread.pc (hothers 1 (by decide))
  exact absurd (hmoved.symm.trans hstays) (by decide)

/-- Refutes O56: the clause on fetch faults says that no thread of another slot changes. A thread whose waiting STF stands first at its word may find
its frame without its text; the trap takes its registration back, and the STF behind it is performed. -/
theorem not_issueEvents : ¬ Obligations.IssueEvents := by
  intro h
  obtain ⟨-, -, hfetch, -⟩ := h
  exact not_fetchFaults hfetch

end Sys2Proof.FetchFault
end

section
/-! PROOFS. Exact arithmetic of finite values, and the bounds that each rounding mode keeps (06 R112, R115). -/

namespace Sys2Proof.Rounding

open Sys2Proof.Machine Sys2Proof.Safety

/-! ## Finite values as integers in units of a power of two -/

theorem eq_fin_of_isFinite {x : Machine.Num} (h : isFinite x = true) : ∃ s m e, x = .fin s m e := by
  cases x with
  | fin s m e => exact ⟨s, m, e, rfl⟩
  | nan => cases h
  | inf => cases h

/-- The sign factor of unitsOf, written as the choice that finAdd makes. -/
theorem unitsOf_fin (s : Bool) (m : Nat) (e e0 : Int) : unitsOf (.fin s m e) e0 = signedUnits s m e e0 := by
  cases s with
  | false => exact congrArg (· * 2 ^ (e - e0).toNat) (Int.one_mul _)
  | true => exact congrArg (· * 2 ^ (e - e0).toNat) (Int.neg_one_mul _)

@[simp] theorem unitsOf_zero (s : Bool) (e e0 : Int) : unitsOf (.fin s 0 e) e0 = 0 := by
  cases s <;> exact Int.zero_mul _

/-- Units of a smaller power of two count the same value. -/
theorem unitsOf_finer {x : Machine.Num} {e0 e1 : Int} (h01 : e0 ≤ e1) (h : e1 ≤ exponentOf x) :
    unitsOf x e0 = unitsOf x e1 * 2 ^ (e1 - e0).toNat := by
  cases x with
  | fin s m e =>
    have hsum : (e - e0).toNat = (e - e1).toNat + (e1 - e0).toNat := by simp only [exponentOf] at h; omega
    simp only [unitsOf, hsum, Int.pow_add, Int.mul_assoc]
  | nan => exact (Int.zero_mul _).symm
  | inf => exact (Int.zero_mul _).symm

/-- An integer of either sign, as finAdd makes it a value, has itself as its units. -/
theorem unitsOf_ofInt (v e : Int) : unitsOf (.fin (decide (v < 0)) v.natAbs e) e = v := by
  have hsign : (if decide (v < 0) = true then -(v.natAbs : Int) else v.natAbs) = v := by
    simp only [decide_eq_true_eq]
    omega
  rw [unitsOf_fin, signedUnits, hsign, Int.sub_self, Int.toNat_zero, Int.pow_zero, Int.mul_one]

/-! ## Negation, sum, product and fused sum -/

/-- The operand of a fused sum, negated where its form says so. -/
theorem isFinite_negIf {x : Machine.Num} (n : Bool) (h : isFinite x = true) : isFinite (if n then x.neg else x) = true := by
  obtain ⟨s, m, e, rfl⟩ := eq_fin_of_isFinite h
  cases n <;> rfl

theorem exponentOf_negIf (n : Bool) (x : Machine.Num) : exponentOf (if n then x.neg else x) = exponentOf x := by
  cases n <;> cases x <;> rfl

theorem unitsOf_negIf (n : Bool) (x : Machine.Num) (e0 : Int) :
    unitsOf (if n then x.neg else x) e0 = (if n then -1 else 1) * unitsOf x e0 := by
  cases n with
  | false => exact (Int.one_mul _).symm
  | true =>
    cases x with
    | fin s m e =>
      cases s
      · simp only [Num.neg, unitsOf, Bool.not_false, if_true, if_false, Bool.false_eq_true, Int.neg_mul, Int.one_mul]
      · simp only [Num.neg, unitsOf, Bool.not_true, if_true, if_false, Bool.false_eq_true, Int.neg_mul, Int.one_mul, Int.neg_neg]
    | nan => rfl
    | inf => rfl

theorem finAdd_exact (mode : Nat) (s s' : Bool) (m m' : Nat) {e e' e0 : Int} (h : e0 ≤ e) (h' : e0 ≤ e') :
    isFinite (finAdd mode s m e s' m' e') = true ∧
      unitsOf (finAdd mode s m e s' m' e') e0 = unitsOf (.fin s m e) e0 + unitsOf (.fin s' m' e') e0 := by
  have hmin : e0 ≤ min e e' := Int.le_min.mpr ⟨h, h'⟩
  have hsum : unitsOf (.fin s m e) e0 + unitsOf (.fin s' m' e') e0 =
      (signedUnits s m e (min e e') + signedUnits s' m' e' (min e e')) * 2 ^ (min e e' - e0).toNat := by
    rw [Int.add_mul, ← unitsOf_fin, ← unitsOf_fin, ← unitsOf_finer hmin (Int.min_le_left ..),
      ← unitsOf_finer hmin (Int.min_le_right ..)]
  unfold finAdd
  split
  next hzeros =>
    simp only [Bool.and_eq_true, decide_eq_true_eq] at hzeros
    exact ⟨rfl, by rw [hzeros.1, hzeros.2, unitsOf_zero, unitsOf_zero, unitsOf_zero, Int.add_zero]⟩
  next =>
    split
    next hm => exact ⟨rfl, by rw [hm, unitsOf_zero, Int.zero_add]⟩
    next =>
      split
      next hm' => exact ⟨rfl, by rw [hm', unitsOf_zero, Int.add_zero]⟩
      next =>
        dsimp only
        split
        next hv => exact ⟨rfl, by rw [hsum, hv, unitsOf_zero, Int.zero_mul]⟩
        next => exact ⟨rfl, by rw [hsum, unitsOf_finer hmin (Int.le_refl _), unitsOf_ofInt]⟩

theorem addNum_exact (mode : Nat) {x y : Machine.Num} {e0 : Int} (hx : isFinite x = true) (hy : isFinite y = true)
    (h : e0 ≤ exponentOf x) (h' : e0 ≤ exponentOf y) :
    isFinite (addNum mode x y).1 = true ∧ (addNum mode x y).2 = 0 ∧ unitsOf (addNum mode x y).1 e0 = unitsOf x e0 + unitsOf y e0 := by
  obtain ⟨s, m, e, rfl⟩ := eq_fin_of_isFinite hx
  obtain ⟨s', m', e', rfl⟩ := eq_fin_of_isFinite hy
  obtain ⟨hfin, hunits⟩ := finAdd_exact mode s s' m m' h h'
  exact ⟨hfin, rfl, hunits⟩

theorem exponentOf_mulNum {x y : Machine.Num} (hx : isFinite x = true) (hy : isFinite y = true) :
    exponentOf (mulNum x y).1 = exponentOf x + exponentOf y := by
  obtain ⟨s, m, e, rfl⟩ := eq_fin_of_isFinite hx
  obtain ⟨s', m', e', rfl⟩ := eq_fin_of_isFinite hy
  rfl

theorem mulNum_exact {x y : Machine.Num} {e0 e1 : Int} (hx : isFinite x = true) (hy : isFinite y = true)
    (h : e0 ≤ exponentOf x) (h' : e1 ≤ exponentOf y) :
    isFinite (mulNum x y).1 = true ∧ (mulNum x y).2 = 0 ∧ unitsOf (mulNum x y).1 (e0 + e1) = unitsOf x e0 * unitsOf y e1 := by
  obtain ⟨s, m, e, rfl⟩ := eq_fin_of_isFinite hx
  obtain ⟨s', m', e', rfl⟩ := eq_fin_of_isFinite hy
  have hshift : (e + e' - (e0 + e1)).toNat = (e - e0).toNat + (e' - e1).toNat := by simp only [exponentOf] at h h'; omega
  have hsign : (if (s != s') = true then (-1 : Int) else 1) = (if s then -1 else 1) * (if s' then -1 else 1) := by
    cases s <;> cases s' <;> rfl
  refine ⟨rfl, rfl, ?_⟩
  simp only [mulNum, unitsOf, hshift, hsign, Int.pow_add, Int.natCast_mul]
  ac_rfl

/-- A fused sum is the exact sum of the exact product and the addend, each negated where the form says so. -/
theorem fmaNum_exact (mode : Nat) (negProd negAdd : Bool) {x y c : Machine.Num} {e0 e1 : Int} (hx : isFinite x = true)
    (hy : isFinite y = true) (hc : isFinite c = true) (h : e0 ≤ exponentOf x) (h' : e1 ≤ exponentOf y) (hadd : e0 + e1 ≤ exponentOf c) :
    isFinite (fmaNum mode negProd negAdd x y c).1 = true ∧ (fmaNum mode negProd negAdd x y c).2 = 0 ∧
      unitsOf (fmaNum mode negProd negAdd x y c).1 (e0 + e1) =
        (if negProd then -1 else 1) * (unitsOf x e0 * unitsOf y e1) + (if negAdd then -1 else 1) * unitsOf c (e0 + e1) := by
  obtain ⟨hfin, hflags, hprod⟩ := mulNum_exact hx hy h h'
  have hexp : e0 + e1 ≤ exponentOf (mulNum x y).1 := (exponentOf_mulNum hx hy).symm ▸ Int.add_le_add h h'
  obtain ⟨hfin', hflags', hsum⟩ := addNum_exact mode (isFinite_negIf negProd hfin) (isFinite_negIf negAdd hc)
    ((exponentOf_negIf ..).symm ▸ hexp) ((exponentOf_negIf ..).symm ▸ hadd)
  rw [unitsOf_negIf, unitsOf_negIf, hprod] at hsum
  exact ⟨hfin', (congr (congrArg (· ||| ·) hflags) hflags').trans rfl, hsum⟩

theorem exactArithmetic : Claim.ExactArithmetic := fun mode _ _ _ _ _ hx hy hc h h' =>
  ⟨mulNum_exact hx hy h h', fun hadd => addNum_exact mode hx hc h hadd,
    fun hadd negProd negAdd => fmaNum_exact mode negProd negAdd hx hy hc h h' hadd⟩

/-! ## The four modes of rounding a magnitude -/

/-- Cutting the remainder off gives the greatest multiple of the unit that is not above the magnitude. -/
theorem floor_bounds (m drop : Nat) : m / 2 ^ drop * 2 ^ drop ≤ m ∧ m < (m / 2 ^ drop + 1) * 2 ^ drop :=
  ⟨Nat.div_mul_le_self .., by rw [Nat.mul_comm]; exact Nat.lt_mul_div_succ m (Nat.two_pow_pos drop)⟩

/-- Going up where a remainder is left gives the least multiple of the unit that is not below the magnitude. -/
theorem ceil_bounds (m drop : Nat) :
    let r := if m % 2 ^ drop != 0 then m / 2 ^ drop + 1 else m / 2 ^ drop
    m ≤ r * 2 ^ drop ∧ r * 2 ^ drop < m + 2 ^ drop := by
  have hparts := Nat.div_add_mod' m (2 ^ drop)
  have hrem := Nat.mod_lt m (Nat.two_pow_pos drop)
  have hsucc := Nat.add_one_mul (m / 2 ^ drop) (2 ^ drop)
  dsimp only
  split
  next h =>
    have hpos : 0 < m % 2 ^ drop := Nat.pos_of_ne_zero (bne_iff_ne.mp h)
    omega
  next h =>
    have hzero : m % 2 ^ drop = 0 := Decidable.of_not_not fun hne => h (bne_iff_ne.mpr hne)
    omega

/-- To nearest: the result is at most half a unit away, and where it is half a unit away it is even. -/
theorem roundMag_nearest_bounds (neg : Bool) (m drop : Nat) :
    let u := 2 ^ drop
    let r := roundMag 0 neg m drop
    2 * (r * u) ≤ 2 * m + u ∧ 2 * m ≤ 2 * (r * u) + u ∧ (2 * (r * u) = 2 * m + u ∨ 2 * m = 2 * (r * u) + u → r % 2 = 0) := by
  have hparts := Nat.div_add_mod' m (2 ^ drop)
  have hrem := Nat.mod_lt m (Nat.two_pow_pos drop)
  have hsucc := Nat.add_one_mul (m / 2 ^ drop) (2 ^ drop)
  simp only [roundMag, Bool.or_eq_true, Bool.and_eq_true, decide_eq_true_eq, beq_iff_eq]
  split
  next hup =>
    omega
  next hdown => omega

theorem roundingModes : Claim.RoundingModes := fun neg m drop =>
  ⟨roundMag_nearest_bounds neg m drop, floor_bounds m drop,
    match neg with
    | true => ceil_bounds m drop
    | false => floor_bounds m drop,
    match neg with
    | true => floor_bounds m drop
    | false => ceil_bounds m drop⟩

/-- Settles O39: sums, products and fused sums count the exact value in units of the finest exponent, and each mode's result lies on its side of the
magnitude, within its part of a unit. -/
theorem exactRounding : Obligations.ExactRounding := ⟨exactArithmetic, roundingModes⟩

end Sys2Proof.Rounding
end

section
/-! PROOFS. Steps of the integrator array: cells, domains, crossings, records and boundaries (08 R148 to R157). -/

namespace Sys2Proof.Integrator

open Sys2Proof.Machine Sys2Proof.Safety Sys2Proof.Laws

/-! ## A cell's step (08 R148, R151, R156) -/

theorem signOf_bounds (n : Int) : -1 ≤ signOf n ∧ signOf n ≤ 1 := by
  unfold signOf
  split
  · decide
  · split <;> decide

/-- A slot delivers at most one unit, of either sign. -/
theorem sampled_bounds {g : Dda} (h : ∀ i, -1 ≤ (g.cell i).dz ∧ (g.cell i).dz ≤ 1) (c : Cell) (k : Nat) :
    -1 ≤ sampled g c k ∧ sampled g c k ≤ 1 := by
  have hdraw := signOf_bounds (c.cc.getD k 0)
  have hdz := h (c.source k)
  have hunit : (-1 : Int) ≤ 1 ∧ (1 : Int) ≤ 1 := by decide
  have hzero : (-1 : Int) ≤ 0 ∧ (0 : Int) ≤ 1 := by decide
  have hsign (v : Int) (hv : -1 ≤ v ∧ v ≤ 1) : -1 ≤ (if c.negates k then -v else v) ∧ (if c.negates k then -v else v) ≤ 1 := by
    split
    · omega
    · exact hv
  unfold sampled Dda.sample
  dsimp only
  refine hsign _ ?_
  split
  next =>
    split
    next =>
      dsimp only
      split
      · exact hdz
      · exact hzero
    next => exact hdraw
  next =>
    split
    next => exact hunit
    next =>
      split
      · exact hzero
      · exact hdraw

/-- A remainder brought back below the modulus, with the unit that leaves it (08 R151). -/
def wrapped (m r : Int) : Int × Int := if m ≤ r then (r - m, 1) else if r < 0 then (r + m, -1) else (r, 0)

theorem wrapped_exact {m r : Int} (hlo : -m ≤ r) (hhi : r < 2 * m) :
    0 ≤ (wrapped m r).1 ∧ (wrapped m r).1 < m ∧ (wrapped m r).1 + m * (wrapped m r).2 = r ∧ -1 ≤ (wrapped m r).2 ∧ (wrapped m r).2 ≤ 1 := by
  unfold wrapped
  split
  next => dsimp only; omega
  next =>
    split
    · dsimp only; omega
    · dsimp only; omega

/-- A cell within its modulus: it steps unless Y leaves the modulus. -/
theorem stepCell_eq {g : Dda} {c : Cell} (hr : c.r < c.modulus) (hy : c.y.natAbs < c.modulus) :
    g.stepCell c =
      let y := c.y + (sampled g c 1 + sampled g c 2 + sampled g c 3)
      let w := wrapped c.modulus (c.r + sampled g c 0 * c.y)
      if (c.modulus : Int) ≤ y.natAbs then none
      else some { c with y := y, r := w.1.toNat, dz := w.2, cc := ((List.range 4).map (g.sample c)).map Prod.snd } := by
  have hin : ((c.modulus : Int) ≤ c.r || (c.modulus : Int) ≤ c.y.natAbs) = false := by
    rw [Bool.or_eq_false_iff, decide_eq_false_iff_not, decide_eq_false_iff_not]
    omega
  have hdy : (((List.range 4).map (g.sample c)).drop 1 |>.map Prod.fst).sum = sampled g c 1 + sampled g c 2 + sampled g c 3 := by
    exact (congrArg (_ + ·) (congrArg (_ + ·) (Int.add_zero _))).trans (Int.add_assoc ..).symm
  unfold Dda.stepCell
  dsimp only
  rw [hin, hdy]
  rfl

theorem cellStep : Claim.CellStep := by
  intro g c hr hy hdz dx dy
  rw [stepCell_eq hr hy]
  dsimp only
  constructor
  · intro hlt
    have hdx := sampled_bounds hdz c 0
    have hprod : -(c.modulus : Int) < dx * c.y ∧ dx * c.y < c.modulus := by
      obtain h | h | h : dx = -1 ∨ dx = 0 ∨ dx = 1 := by omega
      all_goals rw [h]; omega
    obtain ⟨hnonneg, hbelow, hsum, hdzs⟩ := wrapped_exact (m := c.modulus) (r := c.r + dx * c.y) (by omega) (by omega)
    rw [if_neg (by omega)]
    exact ⟨_, rfl, rfl, by rw [Int.toNat_of_nonneg hnonneg]; exact hsum, (Int.toNat_lt hnonneg).mpr hbelow, hdzs.1, hdzs.2, rfl, rfl⟩
  · exact fun hge => if_pos hge

/-! ## What only plans further events, and the array after a change -/

section
variable {I : State → Prop} (hplan : ∀ n i s, I s → I ((Eff.clock fun c => c.plan n i).apply s))
include hplan

theorem keeps_plan (n : Nat) (i : Instr) : Keeps I (plan n i) := keeps_emit (hplan n i)

theorem keeps_glbChanged (k : Nat) : Keeps I (glbChanged k) := by
  have each (part : Option Nat) (cs : List (Nat × Machine.Core)) : Keeps I (planGlb part cs) := by
    induction cs with
    | nil => exact keeps_pure _
    | cons c cs ih =>
      exact keeps_bind keeps_getS fun _ => keeps_ite (keeps_bind keeps_read fun _ => keeps_bind (keeps_plan hplan _ _) fun _ => ih) ih
  exact keeps_bind keeps_getS fun _ => each _ _

theorem keeps_planTakes (k : Nat) (ports : List Nat) : Keeps I (planTakes k ports) := by
  induction ports with
  | nil => exact keeps_pure _
  | cons p ps ih => exact keeps_bind keeps_getS fun _ => keeps_ite ih (keeps_bind (keeps_plan hplan _ _) fun _ => ih)

theorem keeps_wakeMwait (id : Nat) : Keeps I (wakeMwait id) := by
  have each (s : State) (k : Nat) (slots : List Nat) : Keeps I (wakeMwaitOf s k id slots) := by
    induction slots with
    | nil => exact keeps_pure _
    | cons slot slots ih =>
      unfold wakeMwaitOf
      dsimp only
      split
      · exact keeps_ite (keeps_bind (keeps_plan hplan _ _) fun _ => ih) ih
      · exact ih
  exact keeps_bind keeps_getS fun _ => each _ _ _

/-- An asynchronous event changes its owner's thread and plans, nothing else (22 R323). -/
theorem keeps_deliverAsync (hthr : ∀ id f s, I s → I ((Eff.thr id f).apply s)) (owner : Option (Nat × Nat)) (k slot ctx cause : Nat) (v : Word) :
    Keeps I (deliverAsync owner k slot ctx cause v) := by
  have marks (id : Nat) (f : Thread → Thread) : Keeps I (do thr id f; wakeMwait id) :=
    keeps_bind (keeps_emit (hthr id f)) fun _ => keeps_wakeMwait hplan id
  refine keeps_bind keeps_getS fun s => ?_
  dsimp only
  split
  · exact keeps_ite (marks _ _) (marks _ _)
  · split
    · exact keeps_plan hplan _ _
    · exact keeps_pure _

end

/-- Memory, threads and cores are as in a state, and what was due there still is. -/
structure OnlyPlans (s t : State) : Prop where
  mem : t.mem = s.mem
  threads : t.threads = s.threads
  cores : t.cores = s.cores
  due : ∀ n i, Safety.Due s n i → Safety.Due t n i

theorem OnlyPlans.refl (s : State) : OnlyPlans s s := ⟨rfl, rfl, rfl, fun _ _ h => h⟩

theorem OnlyPlans.plan {s0 : State} (n : Nat) (i : Instr) (s : State) (h : OnlyPlans s0 s) :
    OnlyPlans s0 ((Eff.clock fun c => c.plan n i).apply s) :=
  ⟨h.mem, h.threads, h.cores, fun _ _ hd => due_kept (h.due _ _ hd)⟩

theorem ddaOf_of_cores {s t : State} (h : t.cores = s.cores) (k : Nat) : ddaOf t k = ddaOf s k := by
  unfold ddaOf State.coreOf; rw [h]

theorem OnlyPlans.dda {s t : State} (h : OnlyPlans s t) (k : Nat) : ddaOf t k = ddaOf s k := ddaOf_of_cores h.cores k

theorem performs_of_keepsPlans {m : M Unit} {s : State} (h : Keeps (OnlyPlans s) m) : ∃ t, Performs m s () t ∧ OnlyPlans s t := by
  obtain ⟨⟨⟩, t, hp, ht⟩ := h s (.refl s)
  exact ⟨t, hp, ht⟩

theorem performs_glbChanged (k : Nat) (s : State) : ∃ t, Performs (glbChanged k) s () t ∧ OnlyPlans s t :=
  performs_of_keepsPlans (keeps_glbChanged OnlyPlans.plan k)

/-- The state with the array of a core changed. -/
def withDda (k : Nat) (f : Dda → Dda) (s : State) : State := (Eff.core k fun c => { c with dda := f c.dda }).apply s

/-- The array with one domain changed. -/
def withDomain (d : Nat) (f : Domain → Domain) (g : Dda) : Dda := { g with doms := FMap.set g.doms d (f (g.dom d)) }

theorem performs_onDda (k : Nat) (f : Dda → Dda) (s : State) : Performs (onDda k f) s () (withDda k f s) := performs_emit _ s
theorem performs_onDomain (k d : Nat) (f : Domain → Domain) (s : State) : Performs (onDomain k d f) s () (withDda k (withDomain d f) s) :=
  performs_emit _ s

@[simp] theorem ddaOf_withDda (k : Nat) (f : Dda → Dda) (s : State) : ddaOf (withDda k f s) k = f (ddaOf s k) :=
  congrArg Core.dda (coreOf_core_same ..)

theorem dom_withDomain (d e : Nat) (f : Domain → Domain) (g : Dda) : (withDomain d f g).dom e = if e = d then f (g.dom d) else g.dom e := get_set ..
@[simp] theorem dom_withDomain_same (d : Nat) (f : Domain → Domain) (g : Dda) : (withDomain d f g).dom d = f (g.dom d) := get_set_same ..
@[simp] theorem withDomain_cells (d : Nat) (f : Domain → Domain) (g : Dda) : (withDomain d f g).cells = g.cells := rfl

/-- The counters of a core count nothing of its array and of its errors (25 R384). -/
@[simp] theorem tallyAdd_dda (c : Machine.Core) (src n : Nat) (u : Bool) : (c.tallyAdd src n u).dda = c.dda := by unfold Core.tallyAdd; split <;> rfl
@[simp] theorem tallyAdd_errs (c : Machine.Core) (src n : Nat) (u : Bool) : (c.tallyAdd src n u).errs = c.errs := by
  unfold Core.tallyAdd; split <;> rfl

/-! ## Crossing units (08 R154) -/

theorem get?_mapValues {α : Type} (f : α → α) (m : FMap α) (i : Nat) : FMap.get? (m.map fun p => (p.1, f p.2)) i = (FMap.get? m i).map f := by
  induction m with
  | nil => rfl
  | cons p m ih =>
    rw [List.map_cons, FMap.get?, FMap.get?]
    split
    · rfl
    · exact ih

theorem get?_gain (g : Dda) (p : Cell → Bool) (src : Nat) (v : Int) (i : Nat) :
    FMap.get? (g.gain p src v).cells i = (FMap.get? g.cells i).map fun c => if p c then c.gain src v else c :=
  get?_mapValues (fun c => if p c then c.gain src v else c) g.cells i

@[simp] theorem source_unit (c : Cell) (k j : Nat) (v : Int) : (c.unit k v).source j = c.source j := by
  unfold Cell.unit; dsimp only; split <;> rfl

theorem unit_eq (c : Cell) (k : Nat) (v : Int) :
    c.unit k v =
      if -7 ≤ c.cc.getD k 0 + v ∧ c.cc.getD k 0 + v ≤ 7 then { c with cc := c.cc.set k (c.cc.getD k 0 + v) } else { c with sat := true } := by
  unfold Cell.unit
  dsimp only
  by_cases h : -7 ≤ c.cc.getD k 0 + v ∧ c.cc.getD k 0 + v ≤ 7
  · rw [if_pos h, if_neg (by rw [Bool.or_eq_true, decide_eq_true_eq, decide_eq_true_eq]; omega)]
  · rw [if_neg h, if_pos (by rw [Bool.or_eq_true, decide_eq_true_eq, decide_eq_true_eq]; omega)]

/-- A disabled cell, and one that does not name the source, gains nothing. -/
theorem gain_none {c : Cell} {src : Nat} (v : Int) (h : c.en = false ∨ ∀ j, j < 4 → c.source j ≠ src) : c.gain src v = c := by
  unfold Cell.gain
  split
  next hen =>
    have hsrc := h.resolve_left (by simp [hen])
    simp [List.range_succ, hsrc]
  next => rfl

/-- One unit from a source that one slot of an enabled cell names goes to that slot's counter. -/
theorem gain_unit {c : Cell} {src n : Nat} {v : Int} (hv : v = 1 ∨ v = -1) (hen : c.en = true) (hn : n < 4)
    (h : ∀ j, j < 4 → (c.source j = src ↔ j = n)) : c.gain src v = c.unit n v := by
  have hone (x : Cell) (j : Nat) : x.units j (if v < 0 then -1 else 1) v.natAbs = x.unit j v := by
    obtain rfl | rfl := hv <;> rfl
  have hslot (j : Nat) (hj : j < 4) : (c.source j = src) = (j = n) := propext (h j hj)
  unfold Cell.gain
  rw [if_pos hen]
  simp only [hone]
  obtain rfl | rfl | rfl | rfl : n = 0 ∨ n = 1 ∨ n = 2 ∨ n = 3 := by omega
  all_goals simp [List.range_succ, hslot]

theorem exec_crossingArrival {s : State} {k : Nat} (u : Crossing) (h : ∀ e ∈ s.clock.events, s.clock.now < e.at_) :
    exec (.crossingArrival k [u]) s = .next (withDda k (fun g => g.gain (fun c => c.dom ≠ u.dom) u.source u.unit) s) := by
  refine event_next (performs_bind (performs_getS s) (performs_ite_neg ?_ (performs_bind (performs_onDda ..) (performs_pure _ _))))
  rw [List.any_eq_true]
  rintro ⟨e, he, hand⟩
  exact absurd (of_decide_eq_true (Bool.and_eq_true_iff.mp hand).1) (Nat.not_le.mpr (h e he))

theorem crossingUnits : Claim.CrossingUnits := by
  intro s k i n u c hfuture hc hunit
  have hcell := get?_gain (ddaOf s k) (fun c => c.dom ≠ u.dom) u.source u.unit i
  rw [hc, Option.map_some] at hcell
  refine ⟨_, exec_crossingArrival u hfuture, rfl, rfl, ?_, ?_, ?_⟩
  · rw [ddaOf_withDda]; rfl
  · intro h
    rw [ddaOf_withDda, hcell]
    split
    next hdom => rw [gain_none _ (h.resolve_left (of_decide_eq_true hdom))]
    next => rfl
  · intro hdom hen hn hslot v
    rw [ddaOf_withDda, hcell, if_pos (decide_eq_true hdom), gain_unit hunit hen hn hslot, unit_eq]

/-! ## Steps of a domain (08 R151 to R153, R156, R157) -/

/-- Cells put in their places. -/
def putCells (m : FMap Cell) (cells : List (Nat × Cell)) : FMap Cell := cells.foldl (fun m p => FMap.set m p.1 p.2) m

/-- Cells that a function of their places gives, read back. -/
theorem get?_putCells (f : Nat → Cell) (is : List Nat) (m : FMap Cell) (i : Nat) :
    FMap.get? (putCells m (is.map fun j => (j, f j))) i = if i ∈ is then some (f i) else FMap.get? m i := by
  induction is generalizing m with
  | nil => rfl
  | cons j js ih =>
    refine (ih (FMap.set m j (f j))).trans ?_
    rw [get?_set]
    by_cases hjs : i ∈ js
    · rw [if_pos hjs, if_pos (List.mem_cons_of_mem _ hjs)]
    · rw [if_neg hjs]
      by_cases hij : i = j
      · rw [if_pos hij, if_pos (hij ▸ List.mem_cons_self), hij]
      · rw [if_neg hij, if_neg (by simp [hij, hjs])]

/-- A domain z after a step in cycle n that found it as x: its count goes up, and it halts when the count meets DSTOP (08 R153). -/
def steppedDomain (n : Nat) (x z : Domain) : Domain :=
  let next := (x.cnt + 1) % 2 ^ 48
  if next = x.stop then { z with cnt := next, lastStep := some n, stepEnd := n + 3, run := false, why := 1, halting := false, newCtl := none }
  else { z with cnt := next, lastStep := some n, stepEnd := n + 3, dueStep := n + z.per }

@[simp] theorem steppedDomain_cnt (n : Nat) (x z : Domain) : (steppedDomain n x z).cnt = (x.cnt + 1) % 2 ^ 48 := by
  unfold steppedDomain; dsimp only; split <;> rfl

theorem steppedDomain_ended {x : Domain} (n : Nat) (z : Domain) (h : (x.cnt + 1) % 2 ^ 48 = x.stop) :
    (steppedDomain n x z).run = false ∧ (steppedDomain n x z).why = 1 := by
  unfold steppedDomain; dsimp only; rw [if_pos h]; exact ⟨rfl, rfl⟩

theorem steppedDomain_goesOn {x : Domain} (n : Nat) (z : Domain) (h : (x.cnt + 1) % 2 ^ 48 ≠ x.stop) : (steppedDomain n x z).run = z.run := by
  unfold steppedDomain; dsimp only; rw [if_neg h]

/-- The increments of the cells that emit one, by place (08 R151). -/
def emissions (cells : List (Nat × Cell)) : FMap Int := (cells.filter fun p => p.2.dz ≠ 0).map fun p => (p.1, p.2.dz)

/-- The units of a step: the domain's tick, and one of each cell that emits (08 R151, R154). -/
def stepUnits (d : Nat) (cells : List (Nat × Cell)) : List Crossing :=
  { source := tickCode d, dom := d, unit := 1 } :: (emissions cells).map fun p => { source := p.1, dom := d, unit := p.2 }

theorem mem_stepUnits {d : Nat} {cells : List (Nat × Cell)} {p : Nat × Cell} (hp : p ∈ cells) (hdz : p.2.dz ≠ 0) :
    { source := p.1, dom := d, unit := p.2.dz } ∈ stepUnits d cells :=
  List.mem_cons_of_mem _ (List.mem_map.mpr ⟨(p.1, p.2.dz), List.mem_map.mpr ⟨p, List.mem_filter.mpr ⟨hp, decide_eq_true hdz⟩, rfl⟩, rfl⟩)

/-- The array with the cells of a step in place and its taps gone on (08 R151, R158). -/
def withCells (cs : List (Nat × Cell)) (g : Dda) : Dda :=
  { g with
    cells := putCells g.cells cs
    taps := g.taps.map fun (i, t) => (i, if t.en then { t with net := t.net + FMap.get 0 (emissions cs) t.cell } else t) }

/-- The array after a committed step of a domain in cycle n. -/
def committed (n d : Nat) (cs : List (Nat × Cell)) (g : Dda) : Dda := withDomain d (steppedDomain n (g.dom d)) (withCells cs g)

theorem cell_committed (n d : Nat) (next : Nat → Cell) (is : List Nat) (g : Dda) (i : Nat) :
    (committed n d (is.map fun j => (j, next j)) g).cell i = if i ∈ is then next i else g.cell i := by
  show (FMap.get? (putCells g.cells _) i).getD {} = _
  rw [get?_putCells]
  split <;> rfl

theorem dom_committed (n d : Nat) (cs : List (Nat × Cell)) (g : Dda) (e : Nat) :
    (committed n d cs g).dom e = if e = d then steppedDomain n (g.dom d) (g.dom d) else g.dom e := dom_withDomain ..

/-- What a committed step of a domain without output ports comes to. -/
structure Committed (k d : Nat) (cs : List (Nat × Cell)) (s t : State) : Prop where
  mem : t.mem = s.mem
  threads : t.threads = s.threads
  dda : ddaOf t k = committed s.clock.now d cs (ddaOf s k)
  units : Safety.Due t (s.clock.now + 2) (.crossingArrival k (stepUnits d cs))
  next : (((ddaOf s k).dom d).cnt + 1) % 2 ^ 48 ≠ ((ddaOf s k).dom d).stop →
    Safety.Due t (s.clock.now + ((ddaOf s k).dom d).per) (.domainStep k d)

theorem Committed.of_onlyPlans {k d : Nat} {cs : List (Nat × Cell)} {s t u : State} (h : Committed k d cs s t) (hu : OnlyPlans t u) :
    Committed k d cs s u where
  mem := hu.mem.trans h.mem
  threads := hu.threads.trans h.threads
  dda := (hu.dda k).trans h.dda
  units := hu.due _ _ h.units
  next hne := hu.due _ _ (h.next hne)

theorem committed_commitStep {s : State} {k d : Nat} (cs : List (Nat × Cell)) (houts : (ddaOf s k).outs = []) :
    ∃ t, Performs (commitStep k d cs) s () t ∧ Committed k d cs s t := by
  let x := (ddaOf s k).dom d
  let stepped := withDda k (withDomain d (steppedDomain s.clock.now x)) (withDda k (withCells cs) s)
  let sent := (Eff.clock fun c => c.plan 2 (.crossingArrival k (stepUnits d cs))).apply stepped
  let counted := (Eff.core k fun c => c.tallyAdd 19 1 true).apply sent
  have hstepped : ddaOf sent k = committed s.clock.now d cs (ddaOf s k) := by
    show ddaOf stepped k = _
    rw [ddaOf_withDda, ddaOf_withDda]; rfl
  have hdda : ddaOf counted k = committed s.clock.now d cs (ddaOf s k) := by
    rw [← hstepped]
    exact (congrArg Core.dda (coreOf_core_same ..)).trans (tallyAdd_dda ..)
  have hunits : Safety.Due counted (s.clock.now + 2) (.crossingArrival k (stepUnits d cs)) := due_planned stepped 2 _
  have ends {t : State} (h : Performs (if (x.cnt + 1) % 2 ^ 48 = x.stop then glbChanged k else do plan x.per (.domainStep k d); glbChanged k)
      counted () t) : Performs (commitStep k d cs) s () t := by
    refine performs_bind (performs_now s) (performs_bind (performs_getC k s) (performs_bind (performs_onDda k (withCells cs) s)
      (performs_bind (performs_onDomain k d (steppedDomain s.clock.now x) _) (performs_bind (performs_plan ..) ?_))))
    have houts' : (s.coreOf k).dda.outs = [] := houts
    rw [houts']
    exact performs_bind (performs_pure _ _) (performs_bind (performs_emit ..) h)
  by_cases hend : (x.cnt + 1) % 2 ^ 48 = x.stop
  · obtain ⟨t, hglb, hplans⟩ := performs_glbChanged k counted
    have hcounted : Committed k d cs s counted := ⟨rfl, rfl, hdda, hunits, fun hne => absurd hend hne⟩
    exact ⟨t, ends (performs_ite_pos hend hglb), hcounted.of_onlyPlans hplans⟩
  · let planned := (Eff.clock fun c => c.plan x.per (.domainStep k d)).apply counted
    obtain ⟨t, hglb, hplans⟩ := performs_glbChanged k planned
    have hplanned : Committed k d cs s planned := ⟨rfl, rfl, hdda, due_kept hunits, fun _ => due_planned counted x.per _⟩
    exact ⟨t, ends (performs_ite_neg hend (performs_bind (performs_plan ..) hglb)), hplanned.of_onlyPlans hplans⟩

/-- A domain that faults halts with reason 3; its array's cells and memory stay (08 R156, R157). -/
def Faulted (k d : Nat) (s t : State) : Prop :=
  ((ddaOf t k).dom d).run = false ∧ ((ddaOf t k).dom d).why = 3 ∧ (ddaOf t k).cells = (ddaOf s k).cells ∧ t.mem = s.mem

theorem faulted_haltFault (k d cell cause : Nat) (s : State) : ∃ t, Performs (haltFault k d cell cause) s () t ∧ Faulted k d s t := by
  let halted := withDda k (withDomain d fun x => { x with run := false, why := 3, halting := false, newCtl := none }) s
  let I (t : State) : Prop := t.mem = halted.mem ∧ t.cores = halted.cores
  have hthr (id : Nat) (f : Thread → Thread) (t : State) (h : I t) : I ((Eff.thr id f).apply t) :=
    ⟨(modThread_mem ..).trans h.1, (modThread_cores ..).trans h.2⟩
  have hplan (n : Nat) (i : Instr) (t : State) (h : I t) : I ((Eff.clock fun c => c.plan n i).apply t) := h
  have htail := keeps_bind (keeps_deliverAsync hplan hthr ((ddaOf s k).dom d).owner k ((ddaOf s k).dom d).own ((ddaOf s k).dom d).ownerCtx cause
    (overrunValue d cell ((ddaOf s k).dom d).cnt)) fun _ => keeps_glbChanged hplan k
  obtain ⟨⟨⟩, t, ht, hmem, hcores⟩ := htail halted ⟨rfl, rfl⟩
  have hdda : ddaOf t k = _ := (ddaOf_of_cores hcores k).trans (ddaOf_withDda ..)
  refine ⟨t, performs_bind (performs_getC k s) (performs_bind (performs_onDomain ..) ht), ?_, ?_, ?_, hmem⟩
  · rw [hdda, dom_withDomain_same]
  · rw [hdda, dom_withDomain_same]
  · rw [hdda, withDomain_cells]

/-- The step itself of a domain, once it is due: a fault of its lowest cell at fault, or all its cells together (08 R151, R156, R157). -/
def stepTogether (k d : Nat) (g : Dda) : M Unit :=
  match (g.members d).find? fun p => p.2.sat with
  | some (i, _) => haltFault k d i Cause.increment
  | none =>
    let rs := (g.members d).map fun p => (p.1, g.stepCell p.2)
    match rs.find? fun p => p.2.isNone with
    | some (i, _) => haltFault k d i Cause.integrand
    | none => commitStep k d (rs.filterMap fun p => p.2.map fun c => (p.1, c))

section
variable {s : State} {k d : Nat}

theorem exec_domainStep_due {t : State} (hseal : (s.coreOf k).isSealed = false) (hrun : ((ddaOf s k).dom d).run = true)
    (hdue : ((ddaOf s k).dom d).dueStep = s.clock.now) (hgate : ((ddaOf s k).dom d).gate = false)
    (h : Performs (stepTogether k d (ddaOf s k)) s () t) : exec (.domainStep k d) s = .next t := by
  have hrun' : ((s.coreOf k).dda.dom d).run = true := hrun
  have hdue' : ((s.coreOf k).dda.dom d).dueStep = s.clock.now := hdue
  have hgate' : ((s.coreOf k).dda.dom d).gate = false := hgate
  refine event_next (performs_bind (performs_now s) (performs_bind (performs_getS s) ?_))
  refine performs_ite_neg (by simp [hseal, hrun', hdue']) (performs_ite_neg (by simp [hgate']) (performs_ite_neg (by simp [hgate']) ?_))
  exact performs_bind (performs_getC k s) h

theorem faulted_sat (h : ∃ p ∈ (ddaOf s k).members d, p.2.sat = true) :
    ∃ t, Performs (stepTogether k d (ddaOf s k)) s () t ∧ Faulted k d s t := by
  obtain ⟨p, hfind⟩ := Option.isSome_iff_exists.mp (List.find?_isSome.mpr h)
  unfold stepTogether
  rw [hfind]
  exact faulted_haltFault ..

theorem find?_sat (h : ∀ p ∈ (ddaOf s k).members d, p.2.sat = false) : ((ddaOf s k).members d).find? (fun p => p.2.sat) = none :=
  List.find?_eq_none.mpr fun p hp => Bool.eq_false_iff.mp (h p hp)

theorem faulted_overrun (hsat : ∀ p ∈ (ddaOf s k).members d, p.2.sat = false)
    (h : ∃ p ∈ (ddaOf s k).members d, (ddaOf s k).stepCell p.2 = none) :
    ∃ t, Performs (stepTogether k d (ddaOf s k)) s () t ∧ Faulted k d s t := by
  obtain ⟨p, hp, hnone⟩ := h
  have hsome : (((ddaOf s k).members d).map fun p => (p.1, (ddaOf s k).stepCell p.2)).find? (fun p => p.2.isNone) |>.isSome :=
    List.find?_isSome.mpr ⟨_, List.mem_map_of_mem hp, Option.isNone_iff_eq_none.mpr hnone⟩
  obtain ⟨q, hfind⟩ := Option.isSome_iff_exists.mp hsome
  unfold stepTogether
  rw [find?_sat hsat]
  dsimp only
  rw [hfind]
  exact faulted_haltFault ..

/-- Cells of a domain that all step are committed together. -/
theorem stepTogether_commits {next : Nat → Cell} (hsat : ∀ p ∈ (ddaOf s k).members d, p.2.sat = false)
    (hnext : ∀ p ∈ (ddaOf s k).members d, (ddaOf s k).stepCell p.2 = some (next p.1)) :
    stepTogether k d (ddaOf s k) = commitStep k d ((((ddaOf s k).members d).map Prod.fst).map fun i => (i, next i)) := by
  have hrs : ((ddaOf s k).members d).map (fun p => (p.1, (ddaOf s k).stepCell p.2)) = ((ddaOf s k).members d).map fun p => (p.1, some (next p.1)) :=
    List.map_congr_left fun p hp => by rw [hnext p hp]
  unfold stepTogether
  rw [find?_sat hsat]
  dsimp only
  rw [hrs, List.find?_map, List.find?_eq_none.mpr (by simp), List.filterMap_map, List.map_map]
  exact congrArg (commitStep k d) (congrFun List.filterMap_eq_map _)

end

theorem domainSteps : Claim.DomainSteps := by
  intro s k d next g x hseal hrun hdue hgate
  refine ⟨fun hmembers houts => ?_, fun hsat => ?_, fun hsat hover => ?_⟩
  · let cs := ((g.members d).map Prod.fst).map fun i => (i, next i)
    obtain ⟨t, hp, hmem, hthreads, hdda, hunits, hdueNext⟩ := committed_commitStep cs houts
    rw [← stepTogether_commits (fun p hp => (hmembers p hp).1) fun p hp => (hmembers p hp).2.1] at hp
    have hdom : (ddaOf t k).dom d = steppedDomain s.clock.now x x := by rw [hdda, dom_committed, if_pos rfl]
    refine ⟨t, exec_domainStep_due hseal hrun hdue hgate hp, hmem, hthreads, ?_, ?_, ?_, ?_, stepUnits d cs, hunits, ?_, ?_⟩
    · intro i
      rw [hdda, cell_committed]
      exact ite_congr (propext List.mem_map) (fun _ => rfl) fun _ => rfl
    · rw [hdom, steppedDomain_cnt]
    · intro e he
      rw [hdda, dom_committed, if_neg he]
    · rw [hdom]
      split
      next hend => exact steppedDomain_ended _ _ hend
      next hend => exact ⟨(steppedDomain_goesOn _ _ hend).trans hrun, hdueNext hend⟩
    · exact ⟨_, List.mem_cons_self, rfl, rfl⟩
    · rintro i ⟨p, hp, rfl⟩ hdz
      exact ⟨_, mem_stepUnits (List.mem_map_of_mem (List.mem_map_of_mem hp)) hdz, rfl, rfl, rfl⟩
  · obtain ⟨t, hp, ht⟩ := faulted_sat hsat
    exact ⟨t, exec_domainStep_due hseal hrun hdue hgate hp, ht⟩
  · obtain ⟨t, hp, ht⟩ := faulted_overrun hsat hover
    exact ⟨t, exec_domainStep_due hseal hrun hdue hgate hp, ht⟩

/-! ## Records of an input port (08 R155) -/

theorem performs_readDw (key : Nat) (s : State) : Performs (readDw key) s (memDw s key) s := ⟨[], rfl, fun _ => rfl⟩

/-- The inbox with its HEAD past its first record (05 R104). -/
def passedHead (s : State) (k i : Nat) (c : Machine.Core) : Machine.Core :=
  let b := FMap.get {} (s.coreOf k).inboxes i
  { c with inboxes := FMap.set c.inboxes i { b with head := Machine.advance ((inboxRecs s k b).drop 1) b.tail } }

theorem performs_inboxTake_head {s : State} {k i : Nat} {r : InRec} (h : r.off = (FMap.get {} (s.coreOf k).inboxes i).head) :
    Performs (inboxTake k i r) s () ((Eff.core k (passedHead s k i)).apply s) :=
  performs_bind (performs_getC k s) (performs_ite_pos h (performs_bind (performs_getS s) (performs_emit _ s)))

/-- The word of a record is an increment for its port, on a core with an array (08 R155). -/
def isIncrement (k port : Nat) (r : InRec) (w : Word) : Bool :=
  decide (r.plen = 8) && bits w 63 11 = 0 && bits w 10 8 = port && bits w 7 4 = 0 && bits w 3 0 ≠ 8 && hasDda k

/-- The first record of an inbox is taken: its increment is added, or it is counted as an error. -/
theorem performs_takeRecord {s : State} {k port : Nat} {r : InRec} (hhead : r.off = (FMap.get {} (s.coreOf k).inboxes ((0xF8 + port) % 4)).head) :
    let b := FMap.get {} (s.coreOf k).inboxes ((0xF8 + port) % 4)
    let w := memDw s (inboxKey k b r.off + 16)
    ∃ t, Performs (takeRecord k port r) s () t ∧ t.mem = s.mem ∧ t.threads = s.threads ∧
      (isIncrement k port r w = true → ddaOf t k = (ddaOf s k).gain (fun _ => true) (portCode port) (BitVec.ofNat 4 (bits w 3 0)).toInt) ∧
      (isIncrement k port r w = false → ddaOf t k = ddaOf s k ∧ FMap.get 0 (t.coreOf k).errs 3 = oneMore s k 3) := by
  intro b w
  let taken := (Eff.core k fun c => c.tallyAdd 18 1 true).apply ((Eff.core k (passedHead s k ((0xF8 + port) % 4))).apply s)
  have hcore : taken.coreOf k = (passedHead s k ((0xF8 + port) % 4) (s.coreOf k)).tallyAdd 18 1 true := by
    rw [coreOf_core_same, coreOf_core_same]
  have hdda : ddaOf taken k = ddaOf s k := (congrArg Core.dda hcore).trans (tallyAdd_dda ..)
  have herrs : (taken.coreOf k).errs = (s.coreOf k).errs := (congrArg Core.errs hcore).trans (tallyAdd_errs ..)
  have takes {t : State} (h : Performs (if isIncrement k port r w then
      onDda k fun g => g.gain (fun _ => true) (portCode port) (BitVec.ofNat 4 (bits w 3 0)).toInt else countErr k 3) taken () t) :
      Performs (takeRecord k port r) s () t :=
    performs_bind (performs_getC k s) (performs_bind (performs_readDw _ s) (performs_bind (performs_inboxTake_head hhead)
      (performs_bind (performs_emit ..) h)))
  cases hgood : isIncrement k port r w with
  | true =>
    refine ⟨_, takes (performs_ite_pos hgood (performs_onDda ..)), rfl, rfl, fun _ => ?_, nofun⟩
    rw [ddaOf_withDda, hdda]
  | false =>
    refine ⟨_, takes (performs_ite_neg (Bool.eq_false_iff.mp hgood) (performs_emit ..)), rfl, rfl, nofun, fun _ => ⟨?_, ?_⟩⟩
    · exact (congrArg Core.dda (coreOf_core_same ..)).trans hdda
    · rw [coreOf_core_same, get_set_same, herrs]
      rfl

/-- The only record of a port is the one that is taken. -/
theorem performs_takeUpTo_one {s t : State} {k port : Nat} {r : InRec} (hrel : released s k (0xF8 + port) = [r])
    (h : Performs (takeRecord k port r) s () t) : Performs (takeUpTo k port (2 ^ 64) 1) s () t := by
  have hbest : best ((released s k (0xF8 + port)).filter fun r => r.stamp.toNat ≤ 2 ^ 64) = some r := by
    have hall : (released s k (0xF8 + port)).filter (fun r => r.stamp.toNat ≤ 2 ^ 64) = released s k (0xF8 + port) :=
      List.filter_eq_self.mpr fun x _ => decide_eq_true (Nat.le_of_lt x.stamp.isLt)
    rw [hall, hrel]
    rfl
  refine performs_bind (performs_getS s) ?_
  rw [hbest]
  exact performs_bind h (performs_pure _ t)

/-- Every domain that reads a port is gated, and there is one. -/
theorem gatedOnly_iff (g : Dda) (port : Nat) :
    (!(g.readers port).isEmpty && (g.readers port).all fun d => (g.dom d).gate) = true ↔
      g.readers port ≠ [] ∧ ∀ e ∈ g.readers port, (g.dom e).gate = true := by
  rw [Bool.and_eq_true, List.all_eq_true, Bool.not_eq_true', List.isEmpty_eq_false_iff]

theorem recordTake : Claim.RecordTake := by
  intro s k port r g chan b w good
  refine ⟨fun hne hgated => ?_, fun hreads hbist hrel hhead => ?_⟩
  · have hall := (gatedOnly_iff g port).mpr ⟨hne, hgated⟩
    exact event_next (performs_bind (performs_getC k s) (performs_ite_pos hall (performs_pure _ s)))
  · obtain ⟨t, htake, hmem, hthreads, hgood, hbad⟩ := performs_takeRecord (s := s) (k := k) (port := port) hhead
    have hsome : ¬(!(g.readers port).isEmpty && (g.readers port).all fun d => (g.dom d).gate) = true := by
      rw [gatedOnly_iff]
      rintro ⟨hne, hgated⟩
      obtain hnil | ⟨e, he, hopen⟩ := hreads
      · exact hne hnil
      · exact absurd (hgated e he) (Bool.eq_false_iff.mp hopen)
    have hidle : ¬((s.coreOf k).bist.any fun b => b.test = 3) = true := by
      rw [Option.any_eq_true]
      rintro ⟨b, hb, htest⟩
      exact hbist b hb (of_decide_eq_true htest)
    refine ⟨t, event_next ?_, hmem, hthreads, hgood, hbad⟩
    refine performs_bind (performs_getC k s) (performs_ite_neg hsome (performs_ite_neg hidle (performs_bind (performs_getS s) ?_)))
    rw [hrel]
    exact performs_takeUpTo_one hrel htake

/-! ## What waits for a step boundary (08 R152) -/

/-- Nothing is captured where no thread performs an RSAVE. -/
theorem performs_captureAll_none {s : State} {k d : Nat} {slots : List Nat} (h : ∀ slot ∈ slots, (s.thread (tidOf k slot)).rsave = none) :
    Performs (captureAll k d slots) s () s := by
  induction slots with
  | nil => exact performs_pure _ s
  | cons slot slots ih =>
    refine performs_bind (performs_getT _ s) ?_
    rw [h slot List.mem_cons_self]
    exact performs_bind (performs_pure _ s) (ih fun x hx => h x (List.mem_cons_of_mem _ hx))

/-- A domain under a new DCTL (16 R297). -/
theorem performs_applyCtl (k d : Nat) (v : Word) (s : State) :
    ∃ t due, Performs (applyCtl k d v) s () t ∧
      OnlyPlans (withDda k (withDomain d fun x => { x with gate := bit v 62, per := max 4 (bits v 15 0), newCtl := none, dueStep := due }) s) t := by
  let x := (ddaOf s k).dom d
  let due := if x.run then (match x.lastStep with | some l => max (s.clock.now + 1) (l + max 4 (bits v 15 0)) | none => x.dueStep) else x.dueStep
  have hplan (u : State) := @OnlyPlans.plan u
  let rest : M Unit := do glbChanged k; planTakes k (List.range 8)
  have hrest (u : State) : Keeps (OnlyPlans u) rest := keeps_bind (keeps_glbChanged (hplan u) k) fun _ => keeps_planTakes (hplan u) k _
  have htail (u : State) : Keeps (OnlyPlans u) (if x.run && due ≠ x.dueStep then do plan (due - s.clock.now) (.domainStep k d); rest else rest) :=
    keeps_ite (keeps_bind (keeps_plan (hplan u) _ _) fun _ => hrest u) (hrest u)
  obtain ⟨t, ht, hplans⟩ := performs_of_keepsPlans (htail _)
  exact ⟨t, due, performs_bind (performs_now s) (performs_bind (performs_getC k s) (performs_bind (performs_onDomain ..) ht)), hplans⟩

/-- A domain that halts at once, with reason 2 (08 R152). -/
theorem performs_haltNow (k d : Nat) (s : State) :
    ∃ t, Performs (haltNow k d) s () t ∧
      OnlyPlans (withDda k (withDomain d fun x => { x with run := false, why := 2, halting := false, newCtl := none }) s) t := by
  obtain ⟨t, hglb, hplans⟩ := performs_glbChanged k _
  exact ⟨t, performs_bind (performs_onDomain ..) hglb, hplans⟩

section
variable {s t : State} {k d : Nat}

theorem exec_domainHaltBoundary_still (hsave : ∀ slot, slot < 16 → (s.thread (tidOf k slot)).rsave = none)
    (hctl : ((ddaOf s k).dom d).newCtl = none)
    (h : Performs (if ((ddaOf s k).dom d).run && ((ddaOf s k).dom d).halting then haltNow k d else pure ()) s () t) :
    exec (.domainHaltBoundary k d) s = .next t := by
  have hcapture := performs_captureAll_none (d := d) fun slot hs => hsave slot (List.mem_range.mp hs)
  refine event_next (performs_bind hcapture (performs_bind (performs_getC k s) ?_))
  dsimp only
  rw [show ((s.coreOf k).dda.dom d).newCtl = none from hctl]
  exact h

theorem exec_domainHaltBoundary_newCtl {v : Word} (hsave : ∀ slot, slot < 16 → (s.thread (tidOf k slot)).rsave = none)
    (hhalting : ((ddaOf s k).dom d).halting = false) (hctl : ((ddaOf s k).dom d).newCtl = some v) (h : Performs (applyCtl k d v) s () t) :
    exec (.domainHaltBoundary k d) s = .next t := by
  have hcapture := performs_captureAll_none (d := d) fun slot hs => hsave slot (List.mem_range.mp hs)
  refine event_next (performs_bind hcapture (performs_bind (performs_getC k s) ?_))
  dsimp only
  rw [show ((s.coreOf k).dda.dom d).newCtl = some v from hctl]
  exact performs_bind h (performs_ite_neg (fun hand => Bool.eq_false_iff.mp hhalting (Bool.and_eq_true_iff.mp hand).2) (performs_pure _ t))

end

theorem domainBoundary : Claim.DomainBoundary := by
  intro s k d x hsave
  refine ⟨fun hrun hctl => ?_, fun hrun hhalting hctl => ?_, fun v hhalting hctl => ?_⟩
  · have hstill : ¬(x.run && x.halting) = true := fun hand => Bool.eq_false_iff.mp hrun (Bool.and_eq_true_iff.mp hand).1
    exact exec_domainHaltBoundary_still hsave hctl (performs_ite_neg hstill (performs_pure _ s))
  · obtain ⟨t, ht, hplans⟩ := performs_haltNow k d s
    have hdda := (hplans.dda k).trans (ddaOf_withDda ..)
    refine ⟨t, exec_domainHaltBoundary_still hsave hctl (performs_ite_pos (Bool.and_eq_true_iff.mpr ⟨hrun, hhalting⟩) ht), ?_⟩
    rw [hdda, dom_withDomain_same]
    exact ⟨rfl, rfl, rfl, hplans.mem, hplans.threads⟩
  · obtain ⟨t, due, ht, hplans⟩ := performs_applyCtl k d v s
    have hdda := (hplans.dda k).trans (ddaOf_withDda ..)
    refine ⟨t, exec_domainHaltBoundary_newCtl hsave hhalting hctl ht, ?_⟩
    rw [hdda, dom_withDomain_same]
    exact ⟨rfl, rfl, rfl, rfl, hplans.mem, hplans.threads⟩

/-- Settles O50: the wrap of R keeps R and the emitted unit equal to the integral; a due step, a crossing, a record and a boundary each go through, and
the array after each is written out (`committed`, `gain_unit`, `performs_takeRecord`, `performs_applyCtl`), what follows only planning further events. -/
theorem integratorSteps : Obligations.IntegratorSteps := ⟨cellStep, domainSteps, crossingUnits, recordTake, domainBoundary⟩

end Sys2Proof.Integrator
end
